-- ==== Sys2Proof/Word.lean ====
section
/-! DEFINITION. The words of the OH-428's interfaces: bytes of frames and messages, the 16-bit check,
the 32-bit wrapping counts. Samples and every other musical quantity are integers with a stated range
(00_scope.md, Numbers), so they are `Int` or `Nat`, not words. -/

namespace Sys2Proof

/-- A byte of the stage link or of a message. -/
abbrev Byte := BitVec 8

/-- A 16-bit word: the CRC of R2 and the two-byte fields of R188. -/
abbrev Word16 := BitVec 16

/-- A 32-bit wrapping count: the frame count (R17) and an activity count (R161). -/
abbrev Word32 := BitVec 32

end Sys2Proof
end

