-- ==== Sys2Proof/Syntax.lean ====
section
/-! DEFINITION. The commands the block takes: one constructor per row of spec/opcode_table.json, with
the operands each needs, and the small types those operands are made of. -/

namespace Sys2Proof

/-- The two lead channels (R33). -/
inductive Lead where
  | a
  | b
  deriving DecidableEq, Repr

/-- A voice engine, V0 to V7 (R89). -/
abbrev VoiceId := Fin 8

/-- A footswitch line, P0 to P3 (R130). -/
abbrev LineId := Fin 4

/-- The electrical levels of the four footswitch lines: `true` is high, `false` is low. The pull-up
makes a pressed pedal read low (00_scope.md, Pin summary; R130). -/
abbrev PedalPins := Vector Bool 4

/-- A message taken as a request to this node (R176): its source byte, its tag, whether it came by the
broadcast route CONSUME-AND-RELAY, and its body. -/
structure Req where
  source : Byte
  tag : Byte
  broadcast : Bool
  body : List Byte
  deriving DecidableEq, Repr

/-- The commands of the block, in the table's order. The first fifteen and the last two are events of
the link, of the pedals and of the device's own time; the others are lane events and requests. -/
inductive Instr where
  /-- POWER_ON_RESET: RESET_N is released with the six strap pins at these levels (R17, R166). -/
  | powerOnReset (straps : BitVec 6)
  /-- FRAME_START: the receiver recognises a sync word (R1). -/
  | frameStart
  /-- FRAME_ARRIVAL: the last byte of a frame arrives (R9); the pedal lines stand at `pins`. -/
  | frameArrival (bytes : List Byte) (pins : PedalPins)
  /-- LOCK_ACHIEVED (R23). -/
  | lockAchieved
  /-- LOSS_BY_BAD_FRAMES (R26). -/
  | lossByBadFrames
  /-- LOSS_BY_SILENCE (R26); the pedal lines stand at `pins` in the phantom frame it makes. -/
  | lossBySilence (pins : PedalPins)
  /-- PHANTOM_FRAME (R21); the pedal lines stand at `pins`. -/
  | phantomFrame (pins : PedalPins)
  /-- CROSSFADE_END of one voice (R103). -/
  | crossfadeEnd (v : VoiceId)
  /-- RISE_END of one voice (R97). -/
  | riseEnd (v : VoiceId)
  /-- FALL_END of one voice (R98). -/
  | fallEnd (v : VoiceId)
  /-- PEDAL_EDGE of one line (R130). -/
  | pedalEdge (l : LineId)
  /-- PEDAL_STUCK_JUDGEMENT of one line (R131). -/
  | pedalStuckJudgement (l : LineId)
  /-- TIMED_CUE_DUE for the entry at place `k` of the timed cue queue (R140). -/
  | timedCueDue (k : Fin 16)
  /-- TIMED_HANDOFF for one lead (R141). -/
  | timedHandoff (lead : Lead)
  /-- BLOCK_END (R37). -/
  | blockEnd
  /-- GAP_LIMIT (R169). -/
  | gapLimit
  /-- FIFO_SEND (R172). -/
  | fifoSend
  /-- QUEUE_SEND (R172). -/
  | queueSend
  /-- UNKNOWN_REQUEST: a consumed message whose kind byte names no request (R176). -/
  | unknownRequest (kind : Byte) (r : Req)
  /-- IDENTIFY (R177). -/
  | identify (r : Req)
  /-- READ_CAP (R177). -/
  | readCap (r : Req)
  /-- CONFIGURE (R178). -/
  | configure (r : Req)
  /-- READ_CONFIG (R179). -/
  | readConfig (r : Req)
  /-- LOAD_BEGIN (R180). -/
  | loadBegin (r : Req)
  /-- LOAD_DATA (R180). -/
  | loadData (r : Req)
  /-- LOAD_COMMIT (R181). -/
  | loadCommit (r : Req)
  /-- LOAD_ABORT (R180). -/
  | loadAbort (r : Req)
  /-- READ_TABLE (R182). -/
  | readTable (r : Req)
  /-- CUE_NOW (R138). -/
  | cueNow (r : Req)
  /-- CUE_AT (R142). -/
  | cueAt (r : Req)
  /-- CUE_FLUSH (R144). -/
  | cueFlush (r : Req)
  /-- GATEWAY_SET (R137). -/
  | gatewaySet (r : Req)
  /-- PORT_SET (R145). -/
  | portSet (r : Req)
  /-- READ_STATE (R183). -/
  | readState (r : Req)
  /-- READ_FAULTS (R160). -/
  | readFaults (r : Req)
  /-- FAULT_CLEAR (R157). -/
  | faultClear (r : Req)
  /-- FAULT_SETUP (R158). -/
  | faultSetup (r : Req)
  /-- COUNTER_SETUP (R164). -/
  | counterSetup (r : Req)
  /-- READ_COUNTERS (R165). -/
  | readCounters (r : Req)
  /-- ENGINE_RESET (R184). -/
  | engineReset (r : Req)
  /-- RESET_N_HELD_LOW (R17). -/
  | resetNHeldLow
  /-- SYNC_SEARCH (R1). -/
  | syncSearch
  deriving DecidableEq, Repr

end Sys2Proof
end

