-- ==== Sys2Proof/Decode.lean ====
section
/-! DEFINITION. Decoding. The opcode table gives its rows no bits, so a table word spells no command.
What the device itself decodes is the kind byte of a consumed message (R187); that table is here, in
both directions. -/

namespace Sys2Proof

/-- The kinds of request, in the order of their codes (R187). -/
inductive ReqKind where
  | identify | readCap | configure | readConfig | loadBegin | loadData | loadCommit | loadAbort
  | readTable | cueNow | cueAt | cueFlush | gatewaySet | portSet | readState | readFaults
  | faultClear | faultSetup | counterSetup | readCounters | engineReset
  deriving DecidableEq, Repr

/-- The kind byte of a request (R187, Request kinds and bodies). -/
def kindByte : ReqKind → Byte
  | .identify => 0x01#8
  | .readCap => 0x02#8
  | .configure => 0x03#8
  | .readConfig => 0x04#8
  | .loadBegin => 0x05#8
  | .loadData => 0x06#8
  | .loadCommit => 0x07#8
  | .loadAbort => 0x08#8
  | .readTable => 0x09#8
  | .cueNow => 0x0A#8
  | .cueAt => 0x0B#8
  | .cueFlush => 0x0C#8
  | .gatewaySet => 0x0D#8
  | .portSet => 0x0E#8
  | .readState => 0x0F#8
  | .readFaults => 0x10#8
  | .faultClear => 0x11#8
  | .faultSetup => 0x12#8
  | .counterSetup => 0x13#8
  | .readCounters => 0x14#8
  | .engineReset => 0x15#8

/-- The request a kind byte names, if any; every other code is no request kind (R187). -/
def kindOfByte (k : Byte) : Option ReqKind :=
  match k.toNat with
  | 0x01 => some .identify
  | 0x02 => some .readCap
  | 0x03 => some .configure
  | 0x04 => some .readConfig
  | 0x05 => some .loadBegin
  | 0x06 => some .loadData
  | 0x07 => some .loadCommit
  | 0x08 => some .loadAbort
  | 0x09 => some .readTable
  | 0x0A => some .cueNow
  | 0x0B => some .cueAt
  | 0x0C => some .cueFlush
  | 0x0D => some .gatewaySet
  | 0x0E => some .portSet
  | 0x0F => some .readState
  | 0x10 => some .readFaults
  | 0x11 => some .faultClear
  | 0x12 => some .faultSetup
  | 0x13 => some .counterSetup
  | 0x14 => some .readCounters
  | 0x15 => some .engineReset
  | _ => none

/-- Is this body length the one the request's kind requires? LOAD_DATA takes 0..96 bytes (R176, R187). -/
def bodyLengthOk (k : ReqKind) (n : Nat) : Bool :=
  match k with
  | .identify | .readConfig | .loadCommit | .loadAbort | .readState | .readFaults
  | .readCounters | .engineReset => n == 0
  | .readCap | .cueFlush => n == 1
  | .loadBegin | .portSet | .faultClear => n == 2
  | .counterSetup => n == 3
  | .cueNow => n == 4
  | .readTable | .faultSetup => n == 5
  | .cueAt => n == 8
  | .configure | .gatewaySet => n == 10
  | .loadData => n ≤ 96

/-- The command a consumed message stands for: its kind byte names the row (R176, R187). -/
def commandOf (kind : Byte) (r : Req) : Instr :=
  match kindOfByte kind with
  | none => .unknownRequest kind r
  | some .identify => .identify r
  | some .readCap => .readCap r
  | some .configure => .configure r
  | some .readConfig => .readConfig r
  | some .loadBegin => .loadBegin r
  | some .loadData => .loadData r
  | some .loadCommit => .loadCommit r
  | some .loadAbort => .loadAbort r
  | some .readTable => .readTable r
  | some .cueNow => .cueNow r
  | some .cueAt => .cueAt r
  | some .cueFlush => .cueFlush r
  | some .gatewaySet => .gatewaySet r
  | some .portSet => .portSet r
  | some .readState => .readState r
  | some .readFaults => .readFaults r
  | some .faultClear => .faultClear r
  | some .faultSetup => .faultSetup r
  | some .counterSetup => .counterSetup r
  | some .readCounters => .readCounters r
  | some .engineReset => .engineReset r

/-- The kind byte and the message of a request command; none for a row that is no request (R187). -/
def messageOf (i : Instr) : Option (Byte × Req) :=
  match i with
  | .unknownRequest kind r => some (kind, r)
  | .identify r => some (kindByte .identify, r)
  | .readCap r => some (kindByte .readCap, r)
  | .configure r => some (kindByte .configure, r)
  | .readConfig r => some (kindByte .readConfig, r)
  | .loadBegin r => some (kindByte .loadBegin, r)
  | .loadData r => some (kindByte .loadData, r)
  | .loadCommit r => some (kindByte .loadCommit, r)
  | .loadAbort r => some (kindByte .loadAbort, r)
  | .readTable r => some (kindByte .readTable, r)
  | .cueNow r => some (kindByte .cueNow, r)
  | .cueAt r => some (kindByte .cueAt, r)
  | .cueFlush r => some (kindByte .cueFlush, r)
  | .gatewaySet r => some (kindByte .gatewaySet, r)
  | .portSet r => some (kindByte .portSet, r)
  | .readState r => some (kindByte .readState, r)
  | .readFaults r => some (kindByte .readFaults, r)
  | .faultClear r => some (kindByte .faultClear, r)
  | .faultSetup r => some (kindByte .faultSetup, r)
  | .counterSetup r => some (kindByte .counterSetup, r)
  | .readCounters r => some (kindByte .readCounters, r)
  | .engineReset r => some (kindByte .engineReset, r)
  | .powerOnReset _ => none
  | .frameStart => none
  | .frameArrival _ _ => none
  | .lockAchieved => none
  | .lossByBadFrames => none
  | .lossBySilence _ => none
  | .phantomFrame _ => none
  | .crossfadeEnd _ => none
  | .riseEnd _ => none
  | .fallEnd _ => none
  | .pedalEdge _ => none
  | .pedalStuckJudgement _ => none
  | .timedCueDue _ => none
  | .timedHandoff _ => none
  | .blockEnd => none
  | .gapLimit => none
  | .fifoSend => none
  | .queueSend => none
  | .resetNHeldLow => none
  | .syncSearch => none

/-- The command a table word spells. No row of spec/opcode_table.json carries bits ("fields" is empty
in every row), so no word spells a command. -/
def decodeTableWord (_nbits _w : Nat) : Option Instr := none

end Sys2Proof
end

