-- ==== Sys2Proof/Config.lean ====
section
/-! DEFINITION. The device's fixed numbers, and the one free value of the model: the order in which
things of one frame are taken where the manual says that either may be first. -/

namespace Sys2Proof.Config

/-- FREE VALUE (log entry 3). Where the manual says that either order may occur (R37, R57, R73, R91,
R113, R117, R149, R159, R175, R185), draw number `n` decides; nothing constrains it. -/
opaque order : Nat → Nat

/-- Ticks of the local crystal in one frame time (00_scope.md, Time; R17). -/
abbrev ticksPerFrame : Nat := 512

/-- The silence timeout in ticks (R20, R26). -/
abbrev silenceTicks : Nat := 2048

/-- Good frames in count order that reach LOCKED (R23). -/
abbrev lockRun : Nat := 16

/-- Bad frames in a row that lose the link (R26). -/
abbrev lossRun : Nat := 8

/-- Samples of a lead's history (R33). -/
abbrev historyLength : Nat := 2048

/-- Full envelope (R97). -/
abbrev fullEnvelope : Nat := 4096

/-- One sample in read-head units (R89). -/
abbrev headUnit : Int := 16384

/-- The head distance of a new rise: 320 samples (R94). -/
abbrev startDistance : Int := 5242880

/-- Frames of a pedal debounce (R130). -/
abbrev debounceFrames : Nat := 384

/-- The stuck timer's ceiling (R131). -/
abbrev stuckTimerMax : Nat := 5760000

/-- Messages the outbound queue holds (R175). -/
abbrev queueSize : Nat := 8

/-- Notices the outbound queue holds at most (R175). -/
abbrev noticeLimit : Nat := 7

/-- Messages the relay FIFO holds (R174). -/
abbrev fifoSize : Nat := 2

/-- Bytes of the longest message (R166). -/
abbrev messageMax : Nat := 103

/-- Gap frames in a row that abandon a message (R169). -/
abbrev gapLimit : Nat := 9

/-- Entries of the timed cue queue (R139). -/
abbrev timedSize : Nat := 16

/-- Bytes of the load buffer (R180). -/
abbrev loadSize : Nat := 512

/-- The farthest a timed cue may lie ahead (R142). -/
abbrev cueHorizon : Int := 16777216

end Sys2Proof.Config
end

