-- ==== Sys2Proof/Machine/State.lean ====
section
/-! DEFINITION. The state of the OH-428, block by block, every piece the manual names, as plain data,
and its value right after power-on reset. -/

namespace Sys2Proof.Machine

/-- The reasons a command could stop the device with a fault. There are none: the manual gives every
command an effect in every state, and its thirteen fault kinds are state, not stops (R150). -/
inductive Fault where
  deriving DecidableEq, Repr

/-- The reasons a command could have no meaning in this model. -/
inductive Refusal where
  /-- Raised by exec's arm of a row that has no meaning yet (safe: the model stops where the device
  would go on). No arm raises it: every row has its meaning. -/
  | notModelled (mnemonic : String)
  deriving DecidableEq, Repr

/-! ### Link (R1, R17) -/

/-- Link states (R17). -/
inductive LinkState where
  | seeking
  | relocking
  | locked
  | holdover
  deriving DecidableEq, Repr

/-- The Link Timing Unit's record (R17). -/
structure Ltu where
  link : LinkState
  count : Word32
  /-- 0..2,047 local ticks (R20). -/
  tick : Nat
  /-- 0..16 (R17). -/
  goodRun : Nat
  /-- 0..8 (R17). -/
  badRun : Nat
  deriving DecidableEq, Repr

/-- The receiver (R1): whether it has found a frame start and expects further ones, and the ticks since
the most recent recognised start, which R20 takes on entry to RELOCKING; none where no start stands. -/
structure Receiver where
  framed : Bool
  sinceStart : Option Nat
  deriving DecidableEq, Repr

/-! ### Cues (R128) -/

/-- A valid cue (R128). A CHORD has at least one argument present; R128's check keeps it so. -/
inductive Cue where
  | scene (n : Fin 32)
  | step
  | chord (key : Option (Fin 12)) (map : Option (Fin 16))
  | hold
  | release
  | silence
  | resume
  deriving DecidableEq, Repr

/-! ### Lead channels (R33, R34, R59, R122, R126) -/

/-- A lead's note state (R59). -/
inductive NoteState where
  | silent
  | voiced (n : Nat)
  | trailing (n : Nat)
  deriving DecidableEq, Repr

/-- The kind of cue a transition began with (R122). -/
inductive TransitionKind where
  | scene (n : Fin 32)
  | silence
  | resume
  deriving DecidableEq, Repr

/-- A transition in flight: its current level and its cue kind, with the scene for SCENE (R122). -/
structure Transition where
  level : Nat
  kind : TransitionKind
  deriving DecidableEq, Repr

/-- The lead channel record (R33) and the start flag (R126). -/
structure LeadChannel where
  /-- 2,048 samples, newest first (R33, R35). -/
  history : List Int
  estimate : Nat
  confidence : Nat
  voiced : Bool
  splicePeriod : Nat
  note : NoteState
  unvoicedCount : Nat
  scene : Option (Fin 32)
  map : Fin 16
  key : Fin 12
  held : Bool
  frozen : Vector (Option Nat) 8
  silenced : Bool
  transition : Option Transition
  startFlag : Bool
  deriving DecidableEq, Repr

/-- The values both resets give a lead channel (R34), the start flag set (R126). -/
def LeadChannel.reset : LeadChannel where
  history := List.replicate Config.historyLength 0
  estimate := 4096
  confidence := 0
  voiced := false
  splicePeriod := 256
  note := .silent
  unvoicedCount := 0
  scene := none
  map := 0
  key := 0
  held := false
  frozen := Vector.replicate 8 none
  silenced := false
  transition := none
  startFlag := true

/-! ### Tables (R54, R71, R111, R180) -/

/-- A tuning table row (R54). -/
structure TuningRow where
  note : Nat
  lo : Nat
  hi : Nat
  deriving DecidableEq, Repr

/-- A map entry: an interval in semitones, or REST as `none` (R71). -/
abbrev MapEntry := Option Int

/-- A voice's part: column, output slot, level and detune (R89, R111). -/
structure Assignment where
  column : Fin 4
  slot : Fin 24
  level : Nat
  detune : Int
  deriving DecidableEq, Repr

/-- A voice entry of a scene record (R111). -/
structure SceneEntry where
  voice : VoiceId
  part : Assignment
  deriving DecidableEq, Repr

/-- A scene record (R111). The fade length is in frames. -/
structure Scene where
  tuning : Fin 2
  map : Option (Fin 16)
  key : Option (Fin 12)
  gate : Nat
  threshold : Nat
  tolerance : Nat
  hysteresis : Nat
  hold : Nat
  weight : Nat
  glide : Nat
  fade : Nat
  next : Option (Fin 32)
  entries : List SceneEntry
  deriving DecidableEq, Repr

/-- The empty scene (R111). -/
def Scene.empty : Scene where
  tuning := 0
  map := none
  key := none
  gate := 1024
  threshold := 128
  tolerance := 16
  hysteresis := 8
  hold := 8
  weight := 0
  glide := 0
  fade := 1024
  next := none
  entries := []

/-- The target of a table load (R180). -/
inductive LoadTarget where
  | tuning (i : Fin 2)
  | map (i : Fin 16)
  | scene (i : Fin 32)
  deriving DecidableEq, Repr

/-- An open load: its target and its buffer of 0..512 bytes (R180). -/
structure OpenLoad where
  target : LoadTarget
  buffer : List Byte
  deriving DecidableEq, Repr

/-- What a loss declaration does to the engine (R29). -/
inductive LossAction where
  | holdover
  | engine
  deriving DecidableEq, Repr

/-- What becomes of a cue later than the late window (R143). -/
inductive LatePolicy where
  | apply
  | drop
  deriving DecidableEq, Repr

/-- The configuration record (R6, R29, R126, R132, R143, R178). -/
structure ConfigRecord where
  slotA : Fin 24
  slotB : Option (Fin 24)
  lossAction : LossAction
  latePolicy : LatePolicy
  lateWindow : Nat
  stuckLimit : Nat
  startA : Option (Fin 32)
  startB : Option (Fin 32)
  deriving DecidableEq, Repr

/-- The configuration's power-on values (R178). -/
def ConfigRecord.reset : ConfigRecord where
  slotA := 0
  slotB := some 1
  lossAction := .holdover
  latePolicy := .apply
  lateWindow := 480
  stuckLimit := 30
  startA := none
  startB := none

/-! ### Faults and counters (R150, R161) -/

/-- The thirteen fault kinds, in the order of their codes. -/
inductive FaultKind where
  | ctrlCheck | ctrlRunon | relayDrop | requestDrop | noticeDrop | linkLoss | linkSlip
  | frameCheck | pedalStuck | cueLate | cueOverflow | entrySkipped | outputClip
  deriving DecidableEq, Repr

/-- A fault kind's severity (R150). -/
inductive Severity where
  | notice
  | mute
  deriving DecidableEq, Repr

/-- The Fault Unit's record of one kind (R150). -/
structure FaultRecord where
  status : Bool
  detectMask : Bool
  reportMask : Bool
  severity : Severity
  deriving DecidableEq, Repr

/-- A fault record's power-on values (R150). -/
def FaultRecord.reset : FaultRecord where
  status := false
  detectMask := false
  reportMask := false
  severity := .notice

/-- An activity counter (R161). The selector is an event code 0..14. -/
structure Counter where
  count : Word32
  selector : Nat
  inhibit : Bool
  deriving DecidableEq, Repr

/-- A counter's power-on values (R161). -/
def Counter.reset : Counter where
  count := 0
  selector := 0
  inhibit := false

/-! ### Voice engines (R89, R90) -/

/-- Voice states (R89). -/
inductive VoiceState where
  | off
  | idle
  | rising
  | sounding
  | falling
  | muted
  deriving DecidableEq, Repr

/-- Where a FALLING voice goes (R89). -/
inductive FallDest where
  | idle
  | off
  | muted
  | reassign
  deriving DecidableEq, Repr

/-- The crossfade after a splice: the second head's distance and the index 0..31 (R89, R103). -/
structure Crossfade where
  d2 : Int
  index : Nat
  deriving DecidableEq, Repr

/-- The voice record (R89). Head distances are in units of 1/16,384 sample. -/
structure Voice where
  state : VoiceState
  owner : Option Lead
  part : Option Assignment
  pendingPart : Option Assignment
  releaseMark : Bool
  dest : FallDest
  envelope : Nat
  increment : Nat
  currentStep : Nat
  targetStep : Nat
  distance : Int
  crossfade : Option Crossfade
  faults : List FaultKind
  deriving DecidableEq, Repr

/-- The values both resets give a voice record (R90). -/
def Voice.reset : Voice where
  state := .off
  owner := none
  part := none
  pendingPart := none
  releaseMark := false
  dest := .idle
  envelope := 0
  increment := 4
  currentStep := 16384
  targetStep := 16384
  distance := Config.startDistance
  crossfade := none
  faults := []

/-! ### Cue Unit (R130, R133, R139) -/

/-- The level of a pedal line as the device has taken it (R130). -/
inductive PedalLevel where
  | released
  | pressed
  deriving DecidableEq, Repr

/-- A pedal line's record (R130). The level is `none` from power-on reset until the first frame
processed, whose sample sets it (R132). -/
structure PedalLine where
  level : Option PedalLevel
  debounce : Nat
  stuck : Nat
  stuckMark : Bool
  deriving DecidableEq, Repr

/-- A pedal line's power-on values (R132). -/
def PedalLine.reset : PedalLine where
  level := none
  debounce := 0
  stuck := 0
  stuckMark := false

/-- The origin of a pending cue (R133). -/
inductive Origin where
  | press
  | release
  | request
  | queue
  deriving DecidableEq, Repr

/-- The type of a pedal gateway (R133). -/
inductive GatewayType where
  | moment
  | span
  deriving DecidableEq, Repr

/-- A cue waiting in a gateway (R133). -/
structure PendingCue where
  cue : Cue
  origin : Origin
  deriving DecidableEq, Repr

/-- A gateway's configuration and pending slot (R133). G4 to G7 use only `enabled` and `priority`, and
their leads are fixed. -/
structure Gateway where
  enabled : Bool
  priority : Nat
  lead : Lead
  type : GatewayType
  press : Option Cue
  release : Option Cue
  stuckClose : Bool
  pending : Option PendingCue
  deriving DecidableEq, Repr

/-- The power-on values of a pedal gateway (R133). -/
def Gateway.pedalReset : Gateway where
  enabled := false
  priority := 8
  lead := .a
  type := .moment
  press := none
  release := none
  stuckClose := false
  pending := none

/-- The power-on values of a gateway of G4 to G7 for lead `L` (R133). -/
def Gateway.fixedReset (L : Lead) : Gateway :=
  { Gateway.pedalReset with enabled := true, lead := L }

/-- An entry of the timed cue queue (R139). -/
structure TimedEntry where
  due : Word32
  lead : Lead
  cue : Cue
  mark : Bool
  deriving DecidableEq, Repr

/-! ### Control Lane Unit (R168, R172, R174, R175) -/

/-- How a passing message is relayed (R168, R171). -/
inductive RelayMode where
  | cut
  | capture
  | drop
  deriving DecidableEq, Repr

/-- The route of the message under assembly (R168, R171). -/
inductive Route where
  | consume
  | consumeAndRelay (mode : RelayMode)
  | relay (mode : RelayMode)
  deriving DecidableEq, Repr

/-- The assembly buffer while ASSEMBLING (R168). EMPTY, with no bytes, gap count 0 and no route, is the
absence of this record in `State.assembly`. -/
structure Assembly where
  bytes : List Byte
  gap : Nat
  route : Route
  deriving DecidableEq, Repr

/-- A message of this device before its check is added (R166). -/
structure Message where
  dest : Byte
  source : Byte
  kind : Byte
  tag : Byte
  body : List Byte
  deriving DecidableEq, Repr

/-- A place of the outbound queue: a reservation for a reply, a reply, or a notice (R175). -/
inductive OutItem where
  | reservation
  | reply (m : Message)
  | notice (m : Message)
  deriving DecidableEq, Repr

/-- The out-lane sender, with the bytes already sent for FIFO and QUEUE (R172). -/
inductive Sender where
  | none
  | cut
  | fifo (sent : Nat)
  | queue (sent : Nat)
  deriving DecidableEq, Repr

/-! ### The whole -/

/-- The whole state. -/
structure State where
  /-- The commands that wait, first in, first out (the model's own). -/
  pending : List Instr
  /-- RESET_N stands low (R17). -/
  resetLow : Bool
  /-- The node address from the straps, 1..62 (R166). -/
  nodeAddr : Byte
  /-- The levels standing on the footswitch pins (R130). -/
  pedalPins : PedalPins
  receiver : Receiver
  ltu : Ltu
  config : ConfigRecord
  tuning : Vector (List TuningRow) 2
  /-- Sixteen maps of 48 entries, row by row (R71, R189). -/
  maps : Vector (List MapEntry) 16
  scenes : Vector Scene 32
  /-- The open-load record; `none` is closed (R180). -/
  load : Option OpenLoad
  leadA : LeadChannel
  leadB : LeadChannel
  voices : Vector Voice 8
  pedals : Vector PedalLine 4
  gateways : Vector Gateway 8
  /-- The timed cue queue (R139). -/
  timed : List TimedEntry
  /-- The cue ports' thresholds, 0..15 (R145). -/
  thresholdA : Nat
  thresholdB : Nat
  faults : Vector FaultRecord 13
  /-- The first-fault pointer; `none` is invalid (R150). -/
  pointer : Option FaultKind
  counters : Vector Counter 4
  /-- The assembly buffer; `none` is EMPTY (R168). -/
  assembly : Option Assembly
  /-- The relay FIFO: whole messages, check included (R174). -/
  fifo : List (List Byte)
  /-- The outbound queue (R175). -/
  outq : List OutItem
  sender : Sender
  /-- The eight lane bytes last handed to the Frame Relay (R11). -/
  laneOut : List Byte
  /-- The frame that left in the frame time last taken; `none` where none left (R9, R15). -/
  linkOut : Option (List Byte)
  /-- How many free orders have been drawn (the model's own; log entry 3). -/
  draws : Nat
  deriving DecidableEq, Repr

/-- The machine right after power-on reset (R17, R34, R54, R71, R90, R111, R132, R133, R145, R150, R161,
R166, R168, R172, R174, R175, R178, R180). The node address is that of straps read as 0 (log entry 1),
the pedal pins stand high (log entry 5). -/
def State.reset : State where
  pending := []
  resetLow := false
  nodeAddr := 1
  pedalPins := Vector.replicate 4 true
  receiver := { framed := false, sinceStart := none }
  ltu := { link := .seeking, count := 0, tick := 0, goodRun := 0, badRun := 0 }
  config := ConfigRecord.reset
  tuning := Vector.replicate 2 []
  maps := Vector.replicate 16 (List.replicate 48 none)
  scenes := Vector.replicate 32 Scene.empty
  load := none
  leadA := LeadChannel.reset
  leadB := LeadChannel.reset
  voices := Vector.replicate 8 Voice.reset
  pedals := Vector.replicate 4 PedalLine.reset
  gateways := #v[Gateway.pedalReset, Gateway.pedalReset, Gateway.pedalReset, Gateway.pedalReset,
    Gateway.fixedReset .a, Gateway.fixedReset .b, Gateway.fixedReset .a, Gateway.fixedReset .b]
  timed := []
  thresholdA := 0
  thresholdB := 0
  faults := Vector.replicate 13 FaultRecord.reset
  pointer := none
  counters := Vector.replicate 4 Counter.reset
  assembly := none
  fifo := []
  outq := []
  sender := .none
  laneOut := List.replicate 8 0
  linkOut := none
  draws := 0

end Sys2Proof.Machine
end

