-- ==== Sys2Proof/Machine/Operands.lean ====
section
/-! DEFINITION. Numbers, bytes and operands: rounding and clamping, serial comparison, the CRC, the parts
of a frame, messages, lane markers, and the fields of request bodies and table records
(00_scope.md, Conventions; 01; 11). -/

namespace Sys2Proof.Machine

/-! ### Numbers -/

/-- Round `n / d` to the nearest integer, halves away from zero (00_scope.md, Numbers), for `d > 0`. -/
def roundDiv (n d : Int) : Int :=
  if 0 ≤ n then (2 * n + d) / (2 * d) else -((2 * -n + d) / (2 * d))

/-- Replace a value outside `lo..hi` by the nearer end (00_scope.md, Numbers). -/
def clampInt (lo hi x : Int) : Int := max lo (min hi x)

/-- Clamp to the sample range (00_scope.md, Numbers). -/
def saturate (x : Int) : Int := clampInt (-8388608) 8388607 x

/-- The least whole number not below `n / d`, for `d > 0`. -/
def ceilDiv (n d : Int) : Int := -((-n) / d)

/-- The distance from `a` forward to `b`, mod 2³². -/
def ahead (a b : Word32) : Nat := (b - a).toNat

/-- The signed serial difference of `b` from `a` (R19). -/
def serialDiff (a b : Word32) : Int :=
  if ahead a b < 2147483648 then (ahead a b : Int) else (ahead a b : Int) - 4294967296

/-- `a` is at or before `b` serially (00_scope.md, The frame count and serial order). -/
def atOrBefore (a b : Word32) : Bool := decide (ahead a b < 2147483648)

/-- A block end is a frame whose count is 63 mod 64 (00_scope.md, Time). -/
def isBlockEnd (count : Word32) : Bool := count.toNat % 64 == 63

/-! ### Bytes -/

/-- A number as one byte. -/
def byte1 (n : Nat) : Byte := BitVec.ofNat 8 n

/-- A number as two bytes, most significant first (11, opening). -/
def bytes2 (n : Nat) : List Byte := [byte1 (n / 256), byte1 n]

/-- A 32-bit count as four bytes, most significant first. -/
def bytes4 (w : Word32) : List Byte :=
  [byte1 (w.toNat / 16777216), byte1 (w.toNat / 65536), byte1 (w.toNat / 256), byte1 w.toNat]

/-- Two bytes as a number, most significant first. -/
def num2 (hi lo : Byte) : Nat := hi.toNat * 256 + lo.toNat

/-- Four bytes as a 32-bit count, most significant first. -/
def num4 (b3 b2 b1 b0 : Byte) : Word32 :=
  BitVec.ofNat 32 (((b3.toNat * 256 + b2.toNat) * 256 + b1.toNat) * 256 + b0.toNat)

/-- Byte `i` of a list, 0 beyond its end. -/
def byteAt (bs : List Byte) (i : Nat) : Byte := bs.getD i 0

/-- A flag as a bit of value `w`. -/
def flagBit (b : Bool) (w : Nat) : Nat := if b then w else 0

/-! ### The check (R2) -/

/-- One bit into the CRC register: generator x¹⁶ + x¹² + x⁵ + 1, most significant bit first (R2). -/
def crcBit (r : Word16) (b : Bool) : Word16 :=
  if xor r.msb b then (r <<< 1) ^^^ 4129#16 else r <<< 1

/-- One byte into the CRC register, most significant bit first (R2). -/
def crcByte (r : Word16) (b : Byte) : Word16 :=
  [7, 6, 5, 4, 3, 2, 1, 0].foldl (fun r k => crcBit r (b.getLsbD k)) r

/-- The check of a run of bytes: the register starts at FFFF hexadecimal, no final inversion (R2). -/
def crc (bs : List Byte) : Word16 := bs.foldl crcByte 0xFFFF#16

/-- A check as its two bytes, upper eight bits first (R2). -/
def checkBytes (c : Word16) : List Byte := bytes2 c.toNat

/-! ### Frames (R1, R3, R4) -/

/-- 88 bytes that begin with the sync word 9C35 hexadecimal (R1). -/
def isFrame (bytes : List Byte) : Bool :=
  bytes.length == 88 && bytes.take 2 == [0x9C#8, 0x35#8]

/-- The bytes a frame's check covers: 2..85 (R2). -/
def checkedPart (bytes : List Byte) : List Byte := (bytes.drop 2).take 84

/-- A frame is good when the check over its bytes 2..85 equals its bytes 86..87 (R3). -/
def frameGood (bytes : List Byte) : Bool :=
  checkBytes (crc (checkedPart bytes)) == bytes.drop 86

/-- The frame count of bytes 2..5 (R3). -/
def frameCount (bytes : List Byte) : Word32 :=
  num4 (byteAt bytes 2) (byteAt bytes 3) (byteAt bytes 4) (byteAt bytes 5)

/-- The three bytes of slot `k` (01, The frame and its check). -/
def slotBytes (bytes : List Byte) (k : Nat) : List Byte := (bytes.drop (6 + 3 * k)).take 3

/-- The sample of slot `k`: signed 24 bits, most significant byte first (R4). -/
def slotSample (bytes : List Byte) (k : Nat) : Int :=
  (BitVec.ofNat 24 (((byteAt bytes (6 + 3 * k)).toNat * 256 + (byteAt bytes (7 + 3 * k)).toNat) * 256
    + (byteAt bytes (8 + 3 * k)).toNat)).toInt

/-- A sample as the three bytes of a slot. -/
def sampleBytes (x : Int) : List Byte :=
  [byte1 ((BitVec.ofInt 24 x).toNat / 65536), byte1 ((BitVec.ofInt 24 x).toNat / 256),
    byte1 (BitVec.ofInt 24 x).toNat]

/-- The eight lane bytes of a frame (R3, R186). -/
def laneBytes (bytes : List Byte) : List Byte := (bytes.drop 78).take 8

/-- An IDLE lane written by the device: eight bytes of 0 (R11, R186). -/
def idleLane : List Byte := List.replicate 8 0

/-! ### Lane markers (R167, R186) -/

/-- A lane frame as the Control Lane Unit takes it: IDLE (malformed markers with it), or a marker kind
with the message bytes its count names (R167, R186). -/
inductive LaneIn where
  | idle
  | start (bytes : List Byte)
  | more (bytes : List Byte)
  | last (bytes : List Byte)
  deriving DecidableEq, Repr

/-- The lane of a good frame: kind in bits 7..4 of the marker, count in bits 3..0 (R186). -/
def decodeLane (lane : List Byte) : LaneIn :=
  let kind := (byteAt lane 0).toNat / 16
  let count := (byteAt lane 0).toNat % 16
  let bytes := (lane.drop 1).take count
  if 1 ≤ count ∧ count ≤ 7 then
    if kind = 1 then .start bytes else if kind = 2 then .more bytes
    else if kind = 3 then .last bytes else .idle
  else .idle

/-- A lane frame the device writes itself: marker, bytes, and 0 beyond the count (R186). -/
def encodeLane (kind : Nat) (bytes : List Byte) : List Byte :=
  byte1 (kind * 16 + bytes.length) :: (bytes ++ List.replicate (7 - bytes.length) 0)

/-! ### Messages (R166, R170) -/

/-- A message of the device with its check (R166). -/
def messageBytes (m : Message) : List Byte :=
  let front := [m.dest, m.source, m.kind, m.tag, byte1 m.body.length] ++ m.body
  front ++ checkBytes (crc front)

/-- A message is well formed when its length is 7 plus its body length and its check matches (R166,
R170). -/
def messageOk (bytes : List Byte) : Bool :=
  bytes.length == 7 + (byteAt bytes 4).toNat
    && checkBytes (crc (bytes.take (bytes.length - 2))) == bytes.drop (bytes.length - 2)

/-- The request a well-formed message carries, by route: its kind byte and the rest (R166, R176). -/
def requestOf (bytes : List Byte) (broadcast : Bool) : Byte × Req :=
  (byteAt bytes 2,
    { source := byteAt bytes 1, tag := byteAt bytes 3, broadcast := broadcast,
      body := (bytes.drop 5).take (byteAt bytes 4).toNat })

/-! ### Small codes (R187, R188, 11) -/

/-- A lead byte (R188): 0 lead A, 1 lead B, anything else out of range. -/
def leadOfByte (b : Byte) : Option Lead :=
  if b.toNat = 0 then some .a else if b.toNat = 1 then some .b else none

/-- A lead's code. -/
def leadCode : Lead → Nat
  | .a => 0
  | .b => 1

/-- A number as an index below `n`, if it is one. -/
def finOf (n : Nat) (x : Nat) : Option (Fin n) :=
  if h : x < n then some ⟨x, h⟩ else none

/-- An argument byte of a CHORD: FF hexadecimal is absent; the outer `none` is out of range (R188). -/
def chordArg (n : Nat) (b : Byte) : Option (Option (Fin n)) :=
  if b.toNat = 255 then some none else (finOf n b.toNat).map some

/-- A cue of three bytes; none when it is invalid (R128, R188). -/
def cueOfBytes (k a b : Byte) : Option Cue :=
  match k.toNat with
  | 0 => (finOf 32 a.toNat).map .scene
  | 1 => some .step
  | 2 =>
    match chordArg 12 a, chordArg 16 b with
    | some none, some none => none
    | some key, some map => some (.chord key map)
    | _, _ => none
  | 3 => some .hold
  | 4 => some .release
  | 5 => some .silence
  | 6 => some .resume
  | _ => none

/-- A cue behind a presence flag: absent when the flag is clear, and not checked then (R188). The outer
`none` is an invalid cue. -/
def flaggedCue (present : Bool) (k a b : Byte) : Option (Option Cue) :=
  if present then (cueOfBytes k a b).map some else some none

/-- The target of a load kind and an index (R180, R187). -/
def targetOfBytes (kind index : Byte) : Option LoadTarget :=
  match kind.toNat with
  | 0 => (finOf 2 index.toNat).map .tuning
  | 1 => (finOf 16 index.toNat).map .map
  | 2 => (finOf 32 index.toNat).map .scene
  | _ => none

/-- A value byte behind a presence flag: absent when the flag is clear, unchecked then (R188). The outer
`none` is out of range. -/
def flaggedIndex (n : Nat) (present : Bool) (b : Byte) : Option (Option (Fin n)) :=
  if present then (finOf n b.toNat).map some else some none

/-- The codes of the fault kinds (09, Fault kinds). -/
def faultCode : FaultKind → Fin 13
  | .ctrlCheck => 0
  | .ctrlRunon => 1
  | .relayDrop => 2
  | .requestDrop => 3
  | .noticeDrop => 4
  | .linkLoss => 5
  | .linkSlip => 6
  | .frameCheck => 7
  | .pedalStuck => 8
  | .cueLate => 9
  | .cueOverflow => 10
  | .entrySkipped => 11
  | .outputClip => 12

/-- The fault kinds in the order of their codes. -/
def faultKinds : List FaultKind :=
  [.ctrlCheck, .ctrlRunon, .relayDrop, .requestDrop, .noticeDrop, .linkLoss, .linkSlip, .frameCheck,
    .pedalStuck, .cueLate, .cueOverflow, .entrySkipped, .outputClip]

/-- The kinds of scope NONE, which never mute a voice: codes 0 to 4 (R158). -/
def scopeNone : FaultKind → Bool
  | .ctrlCheck | .ctrlRunon | .relayDrop | .requestDrop | .noticeDrop => true
  | .linkLoss | .linkSlip | .frameCheck | .pedalStuck | .cueLate | .cueOverflow | .entrySkipped
  | .outputClip => false

/-- A kind set of 16 bits; none when a bit of 13..15 is set (R188). -/
def kindSetOfBytes (hi lo : Byte) : Option (List FaultKind) :=
  if num2 hi lo < 8192 then
    some (faultKinds.filter fun k => (BitVec.ofNat 16 (num2 hi lo)).getLsbD (faultCode k).val)
  else none

/-! ### The configuration block (R178, R188) -/

/-- The configuration a CONFIGURE body carries, judged field by field and clamped; none is RANGE
(R178, step 1 and step 3). -/
def configOfBody (body : List Byte) : Option ConfigRecord :=
  let flags := byteAt body 0
  match finOf 24 (byteAt body 1).toNat,
    flaggedIndex 24 (flags.getLsbD 0) (byteAt body 2),
    flaggedIndex 32 (flags.getLsbD 1) (byteAt body 8),
    flaggedIndex 32 (flags.getLsbD 2) (byteAt body 9) with
  | some slotA, some slotB, some startA, some startB =>
    let loss := (byteAt body 3).toNat
    let late := (byteAt body 4).toNat
    if loss ≤ 1 ∧ late ≤ 1 then
      some
        { slotA := slotA, slotB := slotB
          lossAction := if loss = 0 then .holdover else .engine
          latePolicy := if late = 0 then .apply else .drop
          lateWindow := min 4800 (num2 (byteAt body 5) (byteAt body 6))
          stuckLimit := max 1 (min 120 (byteAt body 7).toNat)
          startA := startA, startB := startB }
    else none
  | _, _, _, _ => none

/-- An optional index as its value byte, 0 when absent (R189). -/
def indexByte {n : Nat} (x : Option (Fin n)) : Byte :=
  match x with
  | some i => byte1 i.val
  | none => 0

/-- The configuration block of READ_CONFIG (R179, R188, R189). -/
def bytesOfConfig (c : ConfigRecord) : List Byte :=
  [byte1 (flagBit c.slotB.isSome 1 + flagBit c.startA.isSome 2 + flagBit c.startB.isSome 4),
    byte1 c.slotA.val, indexByte c.slotB,
    (match c.lossAction with | .holdover => 0 | .engine => 1),
    (match c.latePolicy with | .apply => 0 | .drop => 1)]
    ++ bytes2 c.lateWindow ++ [byte1 c.stuckLimit, indexByte c.startA, indexByte c.startB]

/-! ### Table records (R56, R72, R112, R189) -/

/-- The row in five bytes from `i` on (11, Table records). -/
def tuningRowAt (bs : List Byte) (i : Nat) : TuningRow where
  note := (byteAt bs i).toNat
  lo := num2 (byteAt bs (i + 1)) (byteAt bs (i + 2))
  hi := num2 (byteAt bs (i + 3)) (byteAt bs (i + 4))

/-- The first two conditions of R55 on one row, with the note's range. -/
def tuningRowOk (r : TuningRow) : Bool :=
  decide (r.note ≤ 127) && decide (640 ≤ r.lo) && decide (r.lo ≤ r.hi) && decide (r.hi ≤ 10240)

/-- The conditions of R55 on a table. -/
def tuningOk : List TuningRow → Bool
  | [] => true
  | [r] => tuningRowOk r
  | r :: r' :: rest =>
    tuningRowOk r && decide (r.note < r'.note) && decide (r'.hi < r.lo) && tuningOk (r' :: rest)

/-- The tuning table of a load buffer; none is INVALID (R56). -/
def tuningOfBytes (bs : List Byte) : Option (List TuningRow) :=
  let n := (byteAt bs 0).toNat
  if 1 ≤ bs.length ∧ n ≤ 64 ∧ bs.length = 1 + 5 * n then
    let rows := (List.range n).map fun j => tuningRowAt bs (1 + 5 * j)
    if tuningOk rows then some rows else none
  else none

/-- A tuning table as bytes (R189). -/
def bytesOfTuning (rows : List TuningRow) : List Byte :=
  byte1 rows.length :: rows.flatMap fun r => byte1 r.note :: (bytes2 r.lo ++ bytes2 r.hi)

/-- A map entry from its byte, clamped; −128 is REST (R72). -/
def mapEntryOfByte (b : Byte) : MapEntry :=
  if b.toInt = -128 then none else some (clampInt (-24) 24 b.toInt)

/-- The map of a load buffer; none is INVALID (R72). -/
def mapOfBytes (bs : List Byte) : Option (List MapEntry) :=
  if bs.length = 48 then some (bs.map mapEntryOfByte) else none

/-- A map as bytes (R189). -/
def bytesOfMap (m : List MapEntry) : List Byte :=
  m.map fun e => match e with
    | some i => BitVec.ofInt 8 i
    | none => 0x80#8

/-- The frames of a fade length code (R112): codes above 4 are 4,096. -/
def fadeOfCode (c : Nat) : Nat :=
  match c with
  | 0 => 256
  | 1 => 512
  | 2 => 1024
  | 3 => 2048
  | _ => 4096

/-- The code of a stored fade length (R189). -/
def codeOfFade (f : Nat) : Nat :=
  if f ≤ 256 then 0 else if f ≤ 512 then 1 else if f ≤ 1024 then 2 else if f ≤ 2048 then 3 else 4

/-- The voice entry in five bytes from `i` on, identifying fields checked and level and detune clamped;
none fails step 3 of R112. -/
def sceneEntryAt (bs : List Byte) (i : Nat) : Option SceneEntry :=
  match finOf 8 ((byteAt bs i).toNat / 16), finOf 4 ((byteAt bs i).toNat % 16),
    finOf 24 (byteAt bs (i + 1)).toNat with
  | some voice, some column, some slot =>
    some
      { voice := voice
        part :=
          { column := column, slot := slot, level := min 128 (byteAt bs (i + 2)).toNat
            detune := clampInt (-256) 256
              (BitVec.ofNat 16 (num2 (byteAt bs (i + 3)) (byteAt bs (i + 4)))).toInt } }
  | _, _, _ => none

/-- All of a list of readings, if every one succeeded. -/
def allSome {α : Type} : List (Option α) → Option (List α)
  | [] => some []
  | none :: _ => none
  | some x :: rest => (allSome rest).map (x :: ·)

/-- No two entries name the same voice (R112, step 4). -/
def distinctVoices : List SceneEntry → Bool
  | [] => true
  | e :: rest => rest.all (fun e' => e'.voice != e.voice) && distinctVoices rest

/-- The scene of a load buffer, clamped; none is INVALID (R112). -/
def sceneOfBytes (bs : List Byte) : Option Scene :=
  let n := (byteAt bs 0).toNat
  let flags := byteAt bs 1
  if 16 ≤ bs.length ∧ n ≤ 4 ∧ bs.length = 16 + 5 * n then
    match finOf 2 (byteAt bs 2).toNat, flaggedIndex 16 (flags.getLsbD 2) (byteAt bs 3),
      flaggedIndex 12 (flags.getLsbD 1) (byteAt bs 4),
      flaggedIndex 32 (flags.getLsbD 0) (byteAt bs 15),
      allSome ((List.range n).map fun j => sceneEntryAt bs (16 + 5 * j)) with
    | some tuning, some map, some key, some next, some entries =>
      if distinctVoices entries then
        some
          { tuning := tuning, map := map, key := key
            gate := max 1 (min 8388607
              ((byteAt bs 5).toNat * 65536 + num2 (byteAt bs 6) (byteAt bs 7)))
            threshold := (byteAt bs 8).toNat
            tolerance := (byteAt bs 9).toNat
            hysteresis := (byteAt bs 10).toNat
            hold := (byteAt bs 11).toNat
            weight := min 16 (byteAt bs 12).toNat
            glide := min 4096 (num2 (byteAt bs 13) (byteAt bs 14))
            fade := fadeOfCode (flags.toNat / 16 % 8)
            next := next, entries := entries }
      else none
    | _, _, _, _, _ => none
  else none

/-- A scene record as bytes (R189). -/
def bytesOfScene (c : Scene) : List Byte :=
  [byte1 c.entries.length,
    byte1 (codeOfFade c.fade * 16 + flagBit c.map.isSome 4 + flagBit c.key.isSome 2
      + flagBit c.next.isSome 1),
    byte1 c.tuning.val, indexByte c.map, indexByte c.key,
    byte1 (c.gate / 65536), byte1 (c.gate / 256), byte1 c.gate,
    byte1 c.threshold, byte1 c.tolerance, byte1 c.hysteresis, byte1 c.hold, byte1 c.weight]
    ++ bytes2 c.glide ++ [indexByte c.next]
    ++ c.entries.flatMap fun e =>
      [byte1 (e.voice.val * 16 + e.part.column.val), byte1 e.part.slot.val, byte1 e.part.level]
        ++ bytes2 (BitVec.ofInt 16 e.part.detune).toNat

/-! ### Node address (R166) -/

/-- The node address of the straps: 0 is taken as 1 and 63 as 62 (R166). -/
def addressOfStraps (straps : BitVec 6) : Byte :=
  if straps.toNat = 0 then 1 else if straps.toNat = 63 then 62 else byte1 straps.toNat

end Sys2Proof.Machine
end

