-- ==== Sys2Proof/Machine/Ops.lean ====
section
/-! DEFINITION. The named operations over State: the leads, voices, gateways and lines by name, the draws
of free orders, the voice operations that raise nothing, and the two resets. -/

namespace Sys2Proof.Machine

/-- The eight voices in order. -/
def allVoices : List VoiceId := [0, 1, 2, 3, 4, 5, 6, 7]

/-- The four footswitch lines in order. -/
def allLines : List LineId := [0, 1, 2, 3]

/-- The eight gateways in order. -/
def allGateways : List (Fin 8) := [0, 1, 2, 3, 4, 5, 6, 7]

/-! ### Access -/

/-- A lead's channel record. -/
def State.lead (s : State) (L : Lead) : LeadChannel :=
  match L with
  | .a => s.leadA
  | .b => s.leadB

/-- Replace a lead's channel record. -/
def State.setLead (s : State) (L : Lead) (c : LeadChannel) : State :=
  match L with
  | .a => { s with leadA := c }
  | .b => { s with leadB := c }

/-- A voice's record. -/
def State.voice (s : State) (v : VoiceId) : Voice := s.voices[v]

/-- Replace a voice's record. -/
def State.setVoice (s : State) (v : VoiceId) (x : Voice) : State :=
  { s with voices := s.voices.set v x }

/-- A gateway. -/
def State.gateway (s : State) (g : Fin 8) : Gateway := s.gateways[g]

/-- Replace a gateway. -/
def State.setGateway (s : State) (g : Fin 8) (x : Gateway) : State :=
  { s with gateways := s.gateways.set g x }

/-- A pedal line. -/
def State.pedal (s : State) (l : LineId) : PedalLine := s.pedals[l]

/-- Replace a pedal line. -/
def State.setPedal (s : State) (l : LineId) (x : PedalLine) : State :=
  { s with pedals := s.pedals.set l x }

/-- The Fault Unit's record of a kind. -/
def State.fault (s : State) (k : FaultKind) : FaultRecord := s.faults[faultCode k]

/-- Replace the Fault Unit's record of a kind. -/
def State.setFault (s : State) (k : FaultKind) (x : FaultRecord) : State :=
  { s with faults := s.faults.set (faultCode k) x }

/-- A lead's cue port threshold (R145). -/
def State.threshold (s : State) (L : Lead) : Nat :=
  match L with
  | .a => s.thresholdA
  | .b => s.thresholdB

/-- Replace a lead's cue port threshold. -/
def State.setThreshold (s : State) (L : Lead) (t : Nat) : State :=
  match L with
  | .a => { s with thresholdA := t }
  | .b => { s with thresholdB := t }

/-- A lead's configured start scene (R126). -/
def State.startScene (s : State) (L : Lead) : Option (Fin 32) :=
  match L with
  | .a => s.config.startA
  | .b => s.config.startB

/-- The lead input slots as configured: is this slot one of them? (R117) -/
def State.isLeadSlot (s : State) (slot : Fin 24) : Bool :=
  slot == s.config.slotA || s.config.slotB == some slot

/-- Is the link in a running state, RELOCKING or LOCKED? (01, Frames outside the running states) -/
def LinkState.running : LinkState → Bool
  | .relocking | .locked => true
  | .seeking | .holdover => false

/-- The record of a lead's current scene, with the empty scene's parameters where it has none (R38, R60,
R77, R94). -/
def State.params (s : State) (L : Lead) : Scene :=
  match (s.lead L).scene with
  | some n => s.scenes[n]
  | none => Scene.empty

/-- The rows of the tuning table a lead reads (R60). -/
def State.rows (s : State) (L : Lead) : List TuningRow := s.tuning[(s.params L).tuning]

/-- The note a lead has, if any (R59). -/
def NoteState.note? : NoteState → Option Nat
  | .silent => none
  | .voiced n => some n
  | .trailing n => some n

/-! ### Free orders (log entry 3) -/

/-- The next free value, one of 0..k − 1. -/
def State.nextOrder (s : State) (k : Nat) : Nat := Config.order s.draws % k

/-- The state after a free value has been drawn. -/
def State.drawn (s : State) : State := { s with draws := s.draws + 1 }

/-! ### Voice operations that raise nothing (R92, R93, R94, R98, R99, R100) -/

/-- Do a voice's heads run? (R101) -/
def Voice.runs (x : Voice) : Bool :=
  match x.state with
  | .rising | .sounding | .falling => true
  | .off | .idle | .muted => false

/-- The frozen note of this voice number becomes absent in both leads' records (R85). -/
def clearFrozen (v : VoiceId) (s : State) : State :=
  { s with
    leadA := { s.leadA with frozen := s.leadA.frozen.set v none }
    leadB := { s.leadB with frozen := s.leadB.frozen.set v none } }

/-- The record of a voice gone OFF: owner, assignments, release mark and fault set cleared; steps and
head distance kept (R90, R98). -/
def Voice.goneOff (x : Voice) : Voice :=
  { x with state := .off, owner := none, part := none, pendingPart := none, releaseMark := false,
           envelope := 0, crossfade := none, faults := [] }

/-- A voice goes to OFF (R98). -/
def goOff (v : VoiceId) (s : State) : State :=
  clearFrozen v (s.setVoice v (s.voice v).goneOff)

/-- The record of a voice that has taken an assignment: IDLE, or MUTED while its fault set is not empty
(R93). -/
def Voice.tookPart (x : Voice) (p : Assignment) : Voice :=
  { x with state := if x.faults.isEmpty then .idle else .muted
           part := some p, pendingPart := none }

/-- A voice takes an assignment, or goes OFF when its slot is a lead input slot (R93). -/
def takePart (v : VoiceId) (p : Assignment) (s : State) : State :=
  if s.isLeadSlot p.slot then goOff v s
  else clearFrozen v (s.setVoice v ((s.voice v).tookPart p))

/-- The ramp increment captured at a ramp start: 4,096 over the fade length of the owner lead's scene
(R94). -/
def rampIncrement (s : State) (owner : Option Lead) : Nat :=
  match owner with
  | some L => Config.fullEnvelope / (s.params L).fade
  | none => 4

/-- A kind joins a fault set, once (R99). -/
def addFault (k : FaultKind) (ks : List FaultKind) : List FaultKind :=
  if k ∈ ks then ks else ks ++ [k]

/-- A mute request of kind `k` as the voice takes it by its state; `inc` is the increment a fall from
here captures (R99). A fall that starts at envelope 0 ends in the same event, at MUTED (R95, R98). -/
def Voice.mutedBy (x : Voice) (k : FaultKind) (inc : Nat) : Voice :=
  match x.state with
  | .off => x
  | .idle => { x with state := .muted, faults := addFault k x.faults }
  | .rising | .sounding =>
    if x.envelope = 0 then
      { x with state := .muted, dest := .muted, increment := inc, crossfade := none,
               faults := addFault k x.faults }
    else
      { x with state := .falling, dest := .muted, increment := inc, faults := addFault k x.faults }
  | .falling => { x with dest := .muted, faults := addFault k x.faults }
  | .muted => { x with faults := addFault k x.faults }

/-- A mute request reaches one voice (R99). -/
def muteVoice (k : FaultKind) (s : State) (v : VoiceId) : State :=
  s.setVoice v ((s.voice v).mutedBy k (rampIncrement s (s.voice v).owner))

/-- An unmute request with a set of kinds, as the voice takes it (R100). -/
def Voice.unmutedBy (x : Voice) (ks : List FaultKind) : Voice :=
  let rest := x.faults.filter fun k => !ks.contains k
  if rest = x.faults then x
  else if rest ≠ [] then { x with faults := rest }
  else
    match x.state with
    | .muted => { x with faults := [], state := .idle, envelope := 0 }
    | .falling =>
      match x.dest with
      | .muted =>
        { x with faults := []
                 dest := if x.releaseMark then .off
                         else if x.pendingPart.isSome then .reassign else .idle }
      | .idle | .off | .reassign => { x with faults := [] }
    | .off | .idle | .rising | .sounding => { x with faults := [] }

/-- An unmute request reaches every voice (R100, R157). -/
def unmuteAll (ks : List FaultKind) (s : State) : State :=
  { s with voices := s.voices.map fun x => x.unmutedBy ks }

/-! ### Resets -/

/-- What an engine reset does to a pedal line (R132). -/
def PedalLine.engineReset (p : PedalLine) : PedalLine :=
  { p with debounce := 0, stuck := 0, stuckMark := false }

/-- An engine reset (R29, R34, R90, R132, R133, R139, R180, R184). It keeps the link, the configuration,
the tables, the gateways' configurations, the thresholds, the Fault Unit, the counters and the lane. -/
def engineReset (s : State) : State :=
  { s with
    leadA := LeadChannel.reset
    leadB := LeadChannel.reset
    voices := Vector.replicate 8 Voice.reset
    pedals := s.pedals.map PedalLine.engineReset
    gateways := s.gateways.map fun g => { g with pending := none }
    timed := []
    load := none }

/-- Power-on reset: every block at its power-on values, the address from the straps (R17, R166). What
is not the device's stays: the waiting commands, the pedal pins and the count of free orders drawn. -/
def powerOn (straps : BitVec 6) (s : State) : State :=
  { State.reset with
    pending := s.pending
    pedalPins := s.pedalPins
    draws := s.draws
    nodeAddr := addressOfStraps straps }

end Sys2Proof.Machine
end

