-- ==== Sys2Proof/Machine/Flags.lean ====
section
/-! DEFINITION. The status the device keeps of what happens in it: activity events and counters, the
outbound queue's notices, and the Fault Unit's occurrences, masks, pointer and clears (09). -/

namespace Sys2Proof.Machine

/-! ### Activity counters (R161 to R163) -/

/-- The counted events, codes 1 to 14 (R163). -/
inductive Event where
  | voicedBlock (L : Lead)
  | noteChange (L : Lead)
  | unmatched
  | cueApplied
  | cueDuringTransition
  | cueDropped
  | splice
  | accepted
  | relayed
  | phantom
  | faultOccurrence
  | stepNoNext
  deriving DecidableEq, Repr

/-- The event codes (R163). -/
def eventCode : Event → Nat
  | .voicedBlock .a => 1
  | .voicedBlock .b => 2
  | .noteChange .a => 3
  | .noteChange .b => 4
  | .unmatched => 5
  | .cueApplied => 6
  | .cueDuringTransition => 7
  | .cueDropped => 8
  | .splice => 9
  | .accepted => 10
  | .relayed => 11
  | .phantom => 12
  | .faultOccurrence => 13
  | .stepNoNext => 14

/-- A counter after an event of this code: it adds 1, mod 2³², when it selects the code and is not
inhibited (R162). -/
def Counter.after (c : Counter) (code : Nat) : Counter :=
  if c.selector = code ∧ c.inhibit = false then { c with count := c.count + 1 } else c

/-- One event is counted (R162). -/
def countEvent (e : Event) (s : State) : State :=
  { s with counters := s.counters.map fun c => c.after (eventCode e) }

/-! ### Notices (R155, R156, R175, R190) -/

/-- Is this place of the outbound queue a notice? -/
def OutItem.isNotice : OutItem → Bool
  | .notice _ => true
  | .reply _ => false
  | .reservation => false

/-- Room for another notice: fewer than 8 messages and fewer than 7 notices (R155, R175). -/
def noticeRoom (q : List OutItem) : Bool :=
  decide (q.length < Config.queueSize) && decide (q.countP OutItem.isNotice < Config.noticeLimit)

/-- The scope of an occurrence (R151). -/
inductive Scope where
  | none
  | device
  | lead (L : Lead)
  | voices (vs : List VoiceId) (slot : Fin 24)
  deriving DecidableEq, Repr

/-- The scope item byte of a FAULT_RAISED notice: a lead code, a slot, or FF hexadecimal (R190). -/
def scopeItem : Scope → Byte
  | .none => 0xFF#8
  | .device => 0xFF#8
  | .lead L => byte1 (leadCode L)
  | .voices _ slot => byte1 slot.val

/-- A notice of this device: to the ring master, tag 0 (R190). -/
def noticeMessage (s : State) (kind : Byte) (body : List Byte) : Message where
  dest := 0
  source := s.nodeAddr
  kind := kind
  tag := 0
  body := body

/-- The FAULT_RAISED notice of an occurrence: kind, scope item, held count (R155, R187, R190). -/
def faultNotice (k : FaultKind) (sc : Scope) (s : State) : Message :=
  noticeMessage s 0x60#8 ([byte1 (faultCode k).val, scopeItem sc] ++ bytes4 s.ltu.count)

/-- A message enters the outbound queue at its tail. -/
def enqueue (m : OutItem) (s : State) : State := { s with outq := s.outq ++ [m] }

/-! ### Occurrences (R151 to R154, R156) -/

/-- The voices in scope when the occurrence is taken (R151). -/
def inScope (sc : Scope) (s : State) : List VoiceId :=
  match sc with
  | .none => []
  | .device => allVoices.filter fun v => (s.voice v).state != .off
  | .lead L => allVoices.filter fun v => (s.voice v).owner == some L
  | .voices vs _ => vs

/-- The clear-to-set transition on the Fault Unit and the voices: status, pointer, mutes (R152, steps 1
to 3; R153; R154). -/
def setKind (k : FaultKind) (sc : Scope) (s : State) : State :=
  let s1 := s.setFault k { s.fault k with status := true }
  let s2 := { s1 with pointer := match s.pointer with | some p => some p | none => some k }
  match (s.fault k).severity with
  | .mute => (inScope sc s2).foldl (muteVoice k) s2
  | .notice => s2

/-- An occurrence, with what becomes of its notice given as `offer` (R152). -/
def occur (k : FaultKind) (sc : Scope) (offer : Message → State → State) (s : State) : State :=
  if (s.fault k).detectMask then s
  else if (s.fault k).status then countEvent .faultOccurrence s
  else
    let s1 := setKind k sc (countEvent .faultOccurrence s)
    if (s.fault k).reportMask then s1 else offer (faultNotice k sc s1) s1

/-- A notice offered in the event of a discard: taken if there is room, else discarded silently
(R156). -/
def offerSilently (m : Message) (s : State) : State :=
  if noticeRoom s.outq then enqueue (.notice m) s else s

/-- A notice offered to the outbound queue: taken if there is room, else NOTICE_DROP occurs (R155,
R156). -/
def offerNotice (m : Message) (s : State) : State :=
  if noticeRoom s.outq then enqueue (.notice m) s else occur .noticeDrop .none offerSilently s

/-- A block raises a kind (R152). -/
def raise (k : FaultKind) (sc : Scope) (s : State) : State := occur k sc offerNotice s

/-! ### Clearing and setup (R157, R158) -/

/-- The pointer after some kinds are cleared: invalid when it named one of them (R153, R157). -/
def pointerWithout (p : Option FaultKind) (ks : List FaultKind) : Option FaultKind :=
  match p with
  | some k => if k ∈ ks then none else some k
  | none => none

/-- The records of the named kinds changed by `f`. -/
def mapKinds (ks : List FaultKind) (f : FaultKind → FaultRecord → FaultRecord) (s : State) : State :=
  ks.foldl (fun s k => s.setFault k (f k (s.fault k))) s

/-- The named kinds are cleared: statuses, one unmute, pointer (R157). -/
def clearKinds (ks : List FaultKind) (s : State) : State :=
  let s1 := mapKinds ks (fun _ r => { r with status := false }) s
  { unmuteAll ks s1 with pointer := pointerWithout s.pointer ks }

/-- The settings of a FAULT_SETUP on one record: MUTE for a kind of scope NONE is stored as NOTICE
(R158). -/
def setupRecord (detect report : Bool) (sev : Severity) (k : FaultKind) (r : FaultRecord) :
    FaultRecord :=
  { r with detectMask := detect, reportMask := report
           severity := if scopeNone k then .notice else sev }

/-- FAULT_SETUP on the named kinds; setting the detect mask clears them (R158). -/
def setupKinds (ks : List FaultKind) (detect report : Bool) (sev : Severity) (s : State) : State :=
  let s1 := mapKinds ks (setupRecord detect report sev) s
  if detect then clearKinds ks s1 else s1

end Sys2Proof.Machine
end

