-- ==== Sys2Proof/Machine/Tracking.lean ====
section
/-! DEFINITION. The lead channels' history, pitch tracker and note decision (03, 04). -/

namespace Sys2Proof.Machine

/-! ### History (R35) -/

/-- A history with one sample appended: it becomes x(0), and the oldest is discarded (R35). -/
def pushSample (x : Int) (h : List Int) : List Int := (x :: h).take Config.historyLength

/-- The sample a lead's history last received (R5). -/
def lastSample (h : List Int) : Int := h.headD 0

/-- Each lead's history receives its sample (R35). -/
def appendSamples (xa xb : Int) (s : State) : State :=
  { s with
    leadA := { s.leadA with history := pushSample xa s.leadA.history }
    leadB := { s.leadB with history := pushSample xb s.leadB.history } }

/-! ### The evaluation (R39 to R46) -/

/-- The mean absolute value of the analysis window (R39). -/
def meanAbs (h : List Int) : Nat := ((h.take 256).map Int.natAbs).sum / 256

/-- The difference sum S(L) (R40). -/
def diffSum (h : List Int) (lag : Nat) : Nat :=
  (((h.take 256).zip (h.drop lag)).map fun p => (p.1 - p.2).natAbs).sum

/-- The 601 difference sums, lags 40 to 640 in order (R40). -/
def diffSums (h : List Int) : List Nat := (List.range' 40 601).map (diffSum h)

/-- What one evaluation finds. -/
structure Evaluation where
  voiced : Bool
  confidence : Nat
  period : Nat
  deriving DecidableEq, Repr

/-- The smallest of the sums (R40). -/
def smallest (sums : List Nat) : Nat := sums.foldl min (sums.headD 0)

/-- The bound of the candidate search (R41). -/
def candidateBound (sums : List Nat) (tol : Nat) : Nat :=
  smallest sums + smallest sums * tol / 256

/-- The candidate's place among the sums: the first that meets the bound (R41). Its lag is 40 more. -/
def candidate (sums : List Nat) (tol : Nat) : Nat :=
  sums.findIdx fun x => decide (x ≤ candidateBound sums tol)

/-- The confidence of a candidate's sum against the mean sum (R42). -/
def confidence (sum mean : Nat) : Nat := 255 - min 255 (256 * sum / (mean + 1))

/-- The offset δ of the parabola through three sums: before, at and after the candidate (R43). -/
def refinement (before at' after : Nat) : Int :=
  let den : Int := 2 * ((before : Int) - 2 * at' + after)
  if den ≤ 0 then 0 else clampInt (-8) 8 (roundDiv (16 * ((before : Int) - after)) den)

/-- The refined period in p16 units of the candidate at place `i`: no refinement at either end of the lag
range (R43, R44). -/
def refinedPeriod (sums : List Nat) (i : Nat) : Nat :=
  if 1 ≤ i ∧ i ≤ 599 then
    (16 * ((i : Int) + 40)
      + refinement (sums.getD (i - 1) 0) (sums.getD i 0) (sums.getD (i + 1) 0)).toNat
  else 16 * (i + 40)

/-- The evaluation of the sums, with the mean absolute value and the scene's three parameters (R40 to
R45). -/
def evaluate (mean : Nat) (sums : List Nat) (gate threshold tol : Nat) : Evaluation :=
  let i := candidate sums tol
  let sMean := sums.sum / 601
  let c := confidence (sums.getD i 0) sMean
  { voiced := decide (gate ≤ mean) && decide (0 < sMean) && decide (threshold ≤ c)
    confidence := c
    period := refinedPeriod sums i }

/-- What an evaluation writes into the lead channel record (R46). -/
def LeadChannel.tracked (c : LeadChannel) (e : Evaluation) : LeadChannel :=
  if e.voiced then
    { c with voiced := true, confidence := e.confidence, estimate := e.period
             splicePeriod := (e.period + 8) / 16 }
  else { c with voiced := false, confidence := e.confidence }

/-- The tracker step of a lead's block work (R37, R38, R46, R48). -/
def trackLead (L : Lead) (s : State) : State :=
  let c := s.lead L
  let p := s.params L
  let e := evaluate (meanAbs c.history) (diffSums c.history) p.gate p.threshold p.tolerance
  let s1 := s.setLead L (c.tracked e)
  if e.voiced then countEvent (.voicedBlock L) s1 else s1

/-! ### The note decision (R58, R60 to R65, R68) -/

/-- The row of a note (R58). -/
def rowOfNote (rows : List TuningRow) (n : Nat) : Option TuningRow :=
  rows.find? fun r => r.note == n

/-- The row whose band holds a period (R58). -/
def rowOfPeriod (rows : List TuningRow) (p : Nat) : Option TuningRow :=
  rows.find? fun r => decide (r.lo ≤ p) && decide (p ≤ r.hi)

/-- A row's centre pc16 (R58). -/
def TuningRow.centre (r : TuningRow) : Nat := (r.lo + r.hi) / 2

/-- What a note decision finds: the note state, the unvoiced block count and the event, if any. -/
structure Decision where
  note : NoteState
  count : Nat
  changed : Bool
  unmatched : Bool
  deriving DecidableEq, Repr

/-- The search of a voiced block: the row matching the period gives its note; without one the lead keeps
`kept` (R63, R64). -/
def searchNote (rows : List TuningRow) (p : Nat) (kept : NoteState) : Decision :=
  match rowOfPeriod rows p with
  | some r => { note := .voiced r.note, count := 0, changed := true, unmatched := false }
  | none => { note := kept, count := 0, changed := false, unmatched := true }

/-- The note decision (R61 to R65): rows, hysteresis and unvoiced hold of the lead's scene; the lead's
note state and count; the block's voiced flag and estimate. -/
def decideNote (rows : List TuningRow) (h hold : Nat) (note : NoteState) (count : Nat) (voiced : Bool)
    (p : Nat) : Decision :=
  match note.note? with
  | none =>
    if voiced then searchNote rows p .silent
    else { note := .silent, count := count, changed := false, unmatched := false }
  | some n =>
    match rowOfNote rows n with
    | none =>
      if voiced then searchNote rows p .silent
      else { note := .silent, count := count, changed := false, unmatched := false }
    | some r =>
      if voiced then
        if (r.lo : Int) - h ≤ p ∧ p ≤ r.hi + h then
          { note := .voiced n, count := 0, changed := false, unmatched := false }
        else searchNote rows p (.voiced n)
      else
        { note := if count + 1 ≤ hold then .trailing n else .silent
          count := count + 1, changed := false, unmatched := false }

/-- The note decision step of a lead's block work (R37, R60, R68). -/
def decideLead (L : Lead) (s : State) : State :=
  let c := s.lead L
  let p := s.params L
  let d := decideNote (s.rows L) p.hysteresis p.hold c.note c.unvoicedCount c.voiced c.estimate
  let s1 := s.setLead L { c with note := d.note, unvoicedCount := d.count }
  let s2 := if d.changed then countEvent (.noteChange L) s1 else s1
  if d.unmatched then countEvent .unmatched s2 else s2

/-- The centre a lead offers with its note: of the note's row in the lead's tuning table, none when the
table holds no such row (R66). -/
def noteCentre (L : Lead) (s : State) : Option Nat :=
  match (s.lead L).note.note? with
  | some n => (rowOfNote (s.rows L) n).map TuningRow.centre
  | none => none

end Sys2Proof.Machine
end

