-- ==== Sys2Proof/Machine/Voices.lean ====
section
/-! DEFINITION. The voice engines: the requests that can end a fall, the read heads, splices, crossfades,
the envelope, the voice sample and the Slot Mixer (06). -/

namespace Sys2Proof.Machine

/-! ### Ends of falls and requests (R93 to R98) -/

/-- ENTRY_SKIPPED with scope a lead, for each lead named (R93, R118). -/
def raiseSkipped (L : Option Lead) (s : State) : State :=
  match L with
  | some L => raise .entrySkipped (.lead L) s
  | none => s

/-- A voice takes its assignment at the end of a fall: a slot that is a lead input slot sends it OFF, and
ENTRY_SKIPPED is due with scope its former owner, the lead answered (R93). The claimed slots of this frame are read
before (log entry 26). -/
def takePartAtEnd (v : VoiceId) (p : Assignment) (s : State) : State × Option Lead :=
  (takePart v p s, if s.isLeadSlot p.slot then (s.voice v).owner else none)

/-- The heads stop and the envelope is 0 at the end of a fall; the main head keeps its distance (R98,
R103). -/
def Voice.stopped (x : Voice) : Voice := { x with envelope := 0, crossfade := none }

/-- The end of a fall: the voice goes to its destination by the table of R98. The lead answered is the
scope of an ENTRY_SKIPPED that is due (R93). -/
def endFall (v : VoiceId) (s : State) : State × Option Lead :=
  let x := (s.voice v).stopped
  let s1 := s.setVoice v x
  match x.dest with
  | .idle => (s1.setVoice v { x with state := .idle }, none)
  | .off => (goOff v s1, none)
  | .reassign =>
    match x.pendingPart with
    | some p => takePartAtEnd v p s1
    | none => (s1.setVoice v { x with state := .idle }, none)
  | .muted =>
    if x.releaseMark then (goOff v s1, none)
    else
      match x.pendingPart with
      | some p => takePartAtEnd v p s1
      | none => (s1.setVoice v { x with state := .muted }, none)

/-- The end of a fall with its occurrence taken at once. -/
def endFallNow (v : VoiceId) (s : State) : State :=
  let r := endFall v s
  raiseSkipped r.2 r.1

/-- A rise request (R94). -/
def riseVoice (v : VoiceId) (s : State) : State :=
  let x := s.voice v
  let inc := rampIncrement s x.owner
  match x.state with
  | .idle =>
    if x.faults = [] then
      s.setVoice v { x with state := .rising, envelope := 0, increment := inc
                            distance := Config.startDistance, crossfade := none }
    else s
  | .falling =>
    match x.dest with
    | .idle =>
      s.setVoice v { x with state := if x.envelope = Config.fullEnvelope then .sounding else .rising
                            increment := inc }
    | .off | .muted | .reassign => s
  | .off | .rising | .sounding | .muted => s

/-- A fall starts from RISING or SOUNDING with destination `d`; one that starts at envelope 0 ends in
the same event (R95). -/
def startFall (d : FallDest) (mark : Bool) (p : Option Assignment) (v : VoiceId) (s : State) : State :=
  let x := s.voice v
  let s1 := s.setVoice v { x with state := .falling, dest := d, releaseMark := mark, pendingPart := p
                                  increment := rampIncrement s x.owner }
  if x.envelope = 0 then endFallNow v s1 else s1

/-- A request to fall to IDLE (R95). -/
def fallToIdle (v : VoiceId) (s : State) : State :=
  match (s.voice v).state with
  | .rising | .sounding => startFall .idle false none v s
  | .falling | .idle | .muted | .off => s

/-- Release: a fall to OFF (R95, R96). -/
def releaseVoice (v : VoiceId) (s : State) : State :=
  let x := s.voice v
  match x.state with
  | .rising | .sounding => startFall .off true none v s
  | .falling =>
    if x.faults = [] then
      s.setVoice v { x with dest := .off, releaseMark := true, pendingPart := none }
    else s.setVoice v { x with releaseMark := true, pendingPart := none }
  | .idle | .muted => goOff v s
  | .off => s

/-- Reassign: a fall to REASSIGN carrying an entry (R95, R96). -/
def reassignVoice (v : VoiceId) (p : Assignment) (s : State) : State :=
  let x := s.voice v
  match x.state with
  | .rising | .sounding => startFall .reassign false (some p) v s
  | .falling =>
    if x.faults = [] then
      s.setVoice v { x with dest := .reassign, releaseMark := false, pendingPart := some p }
    else s.setVoice v { x with releaseMark := false, pendingPart := some p }
  | .idle | .muted => takePart v p s
  | .off => s

/-- Assign: an OFF voice takes an owner and an assignment and becomes IDLE (R92). -/
def assignVoice (v : VoiceId) (L : Lead) (p : Assignment) (s : State) : State :=
  let x := s.voice v
  match x.state with
  | .off =>
    clearFrozen v
      (s.setVoice v { x with state := .idle, owner := some L, part := some p, pendingPart := none
                             releaseMark := false, envelope := 0, crossfade := none, faults := [] })
  | .idle | .rising | .sounding | .falling | .muted => s

/-! ### The read head (R101 to R104) -/

/-- Every running head moves by 16,384 − current step (R101). -/
def Voice.advanced (x : Voice) : Voice :=
  { x with distance := x.distance + (Config.headUnit - x.currentStep)
           crossfade := x.crossfade.map fun c =>
             { c with d2 := c.d2 + (Config.headUnit - x.currentStep) } }

/-- The second head of a splice at distance `d` with splice period `p`; none where no splice is made
(R102). -/
def spliceTarget (d : Int) (p : Nat) : Option Int :=
  let period : Int := p * Config.headUnit
  if d < 2097152 then some (d + max 1 (ceilDiv (5242880 - d) period) * period)
  else if 16777216 < d then some (d - max 1 (ceilDiv (d - 13631488) period) * period)
  else none

/-- The splice check on the main head, made only without a crossfade (R102). The flag says whether a
splice was made. -/
def Voice.spliceCheck (x : Voice) (p : Nat) : Voice × Bool :=
  match x.crossfade with
  | some _ => (x, false)
  | none =>
    match spliceTarget x.distance p with
    | some d2 => ({ x with crossfade := some { d2 := d2, index := 0 } }, true)
    | none => (x, false)

/-- A history sample, x(i). -/
def sampleAt (h : List Int) (i : Nat) : Int := h.getD i 0

/-- The value of a head at a distance: linear interpolation between x(q) and x(q + 1) (R104). -/
def headValue (h : List Int) (d : Int) : Int :=
  let q := (d / Config.headUnit).toNat
  sampleAt h q
    + roundDiv ((sampleAt h (q + 1) - sampleAt h q) * (d % Config.headUnit)) Config.headUnit

/-- The output y of a voice: its head's value, or the blend of a crossfade (R103, R104). -/
def Voice.output (x : Voice) (h : List Int) : Int :=
  match x.crossfade with
  | none => headValue h x.distance
  | some c =>
    roundDiv (headValue h x.distance * (32 - c.index) + headValue h c.d2 * c.index) 32

/-- The second head becomes the main head and the crossfade ends (R103). -/
def Voice.crossfadeDone (x : Voice) : Voice :=
  match x.crossfade with
  | none => x
  | some c => { x with distance := c.d2, crossfade := none }

/-- After the output of a frame the crossfade's index advances; after index 31 the crossfade ends
(R103). -/
def Voice.crossfadeStep (x : Voice) : Voice :=
  match x.crossfade with
  | none => x
  | some c =>
    if 31 ≤ c.index then x.crossfadeDone
    else { x with crossfade := some { c with index := c.index + 1 } }

/-! ### The envelope and the sample (R97, R106) -/

/-- The envelope's step of a frame (R97). -/
def Voice.ramped (x : Voice) : Voice :=
  match x.state with
  | .rising => { x with envelope := min Config.fullEnvelope (x.envelope + x.increment) }
  | .falling => { x with envelope := x.envelope - x.increment }
  | .off | .idle | .sounding | .muted => x

/-- The voice sample of an output y (R106). -/
def Voice.sample (x : Voice) (y : Int) : Int :=
  match x.part with
  | some p => roundDiv (y * p.level * x.envelope) 524288
  | none => 0

/-- What a frame does to a running voice's record before its ramp's end is judged, with its sample and
whether it spliced: steps 1 to 6 of R107. -/
def Voice.frame (x : Voice) (h : List Int) (period : Nat) : Voice × Int × Bool :=
  let c := x.advanced.spliceCheck period
  let y := c.1.output h
  let x2 := c.1.crossfadeStep.ramped
  (x2, x2.sample y, c.2)

/-- The end of a rise: SOUNDING (R97). -/
def Voice.riseDone (x : Voice) : Voice :=
  { x with envelope := Config.fullEnvelope, state := .sounding }

/-- Step 7 of R107: a rise or fall that ended takes the voice to SOUNDING or to its destination. The lead
answered is the scope of an ENTRY_SKIPPED that is due. -/
def endRamp (v : VoiceId) (s : State) : State × Option Lead :=
  let x := s.voice v
  match x.state with
  | .rising => if x.envelope = Config.fullEnvelope then (s.setVoice v x.riseDone, none) else (s, none)
  | .falling => if x.envelope = 0 then endFall v s else (s, none)
  | .off | .idle | .sounding | .muted => (s, none)

/-- What the work of one frame on a voice gives: the state, the voice sample, and the scope of an
ENTRY_SKIPPED that is due (R93). -/
structure VoiceDone where
  state : State
  sample : Int
  skipped : Option Lead

/-- The work of one voice for one frame (R107); a voice that does not run has sample 0 and reads no
history (R106). -/
def voiceWork (v : VoiceId) (s : State) : VoiceDone :=
  let x := s.voice v
  match x.runs, x.owner with
  | true, some L =>
    let r := x.frame (s.lead L).history (s.lead L).splicePeriod
    let s1 := s.setVoice v r.1
    let e := endRamp v (if r.2.2 then countEvent .splice s1 else s1)
    { state := e.1, sample := r.2.1, skipped := e.2 }
  | _, _ => { state := s, sample := 0, skipped := none }

/-- What the work of several voices gives. -/
structure VoicesDone where
  state : State
  samples : List Int
  skipped : List Lead

/-- The work of several voices in order. -/
def voicesWork (vs : List VoiceId) (s : State) : VoicesDone :=
  match vs with
  | [] => { state := s, samples := [], skipped := [] }
  | v :: rest =>
    let r := voiceWork v s
    let q := voicesWork rest r.state
    { state := q.state, samples := r.sample :: q.samples, skipped := r.skipped.toList ++ q.skipped }

/-! ### The Slot Mixer (R7, R108, R109) -/

/-- The slot a voice claims: its output slot while it is not OFF (R7). -/
def Voice.claims (x : Voice) : Option (Fin 24) :=
  match x.state with
  | .off => none
  | .idle | .rising | .sounding | .falling | .muted => x.part.map Assignment.slot

/-- The slot each voice claims, V0 to V7 (R7). -/
def claims (s : State) : List (Option (Fin 24)) := allVoices.map fun v => (s.voice v).claims

/-- Is a slot claimed? (R7) -/
def claimed (cs : List (Option (Fin 24))) (k : Fin 24) : Bool := cs.contains (some k)

/-- The exact sum of the samples of the voices that name a slot (R108). -/
def slotSum (cs : List (Option (Fin 24))) (ys : List Int) (k : Fin 24) : Int :=
  ((cs.zip ys).map fun c => if c.1 = some k then c.2 else 0).sum

/-- The slots in order. -/
def allSlots : List (Fin 24) :=
  [0, 1, 2, 3, 4, 5, 6, 7, 8, 9, 10, 11, 12, 13, 14, 15, 16, 17, 18, 19, 20, 21, 22, 23]

/-- The claimed slots whose sum saturates, lowest first (R108, R109). -/
def clippedSlots (cs : List (Option (Fin 24))) (ys : List Int) : List (Fin 24) :=
  allSlots.filter fun k => claimed cs k && slotSum cs ys k != saturate (slotSum cs ys k)

/-- The voices that are not OFF and name one of some slots (R109). -/
def voicesOn (s : State) (ks : List (Fin 24)) : List VoiceId :=
  allVoices.filter fun v =>
    match (s.voice v).claims with
    | some k => ks.contains k
    | none => false

end Sys2Proof.Machine
end

