-- ==== Sys2Proof/Machine/Harmony.lean ====
section
/-! DEFINITION. The Harmony Target Unit: intervals, the step table, the target chain, the rise and fall
requests, hold and release (05). -/

namespace Sys2Proof.Machine

/-! ### The step table (R76) -/

/-- The base steps of the intervals −24 to +24, in order (R76). -/
def stepTable : List Nat :=
  [4096, 4340, 4598, 4871, 5161, 5468, 5793, 6137, 6502, 6889, 7298, 7732,
   8192, 8679, 9195, 9742, 10321, 10935, 11585, 12274, 13004, 13777, 14596, 15464,
   16384, 17358, 18390, 19484, 20643, 21870, 23170, 24548, 26008, 27554, 29193, 30929,
   32768, 34716, 36781, 38968, 41285, 43740, 46341, 49097, 52016, 55109, 58386, 61858,
   65536]

/-- The base step of an interval (R76). -/
def baseStep (e : Int) : Nat := stepTable.getD (e + 24).toNat 16384

/-! ### The interval (R74, R78) -/

/-- The pitch class of a note relative to a key root (R74). -/
def relativeClass (n : Nat) (key : Fin 12) : Nat := (((n : Int) - (key.val : Int)) % 12).toNat

/-- The map entry a voice's column finds for a note in the lead's current map and key (R74). -/
def mapEntry (s : State) (L : Lead) (n : Nat) (column : Fin 4) : MapEntry :=
  s.maps[(s.lead L).map].getD (4 * relativeClass n (s.lead L).key + column.val) none

/-- The interval of an unheld voice: none for a silenced lead, REST or no assignment (R78, R84). -/
def openInterval (s : State) (L : Lead) (n : Nat) (x : Voice) : Option Int :=
  if (s.lead L).silenced then none
  else
    match x.part with
    | some p => mapEntry s L n p.column
    | none => none

/-- The interval of a held voice with frozen note `f` against note `n` (R78, R86). -/
def heldInterval (f : Option Nat) (n : Nat) : Option Int :=
  match f with
  | some f => if ((f : Int) - n).natAbs ≤ 24 then some ((f : Int) - n) else none
  | none => none

/-- The first stage of the chain: the cases of R78 in their order. -/
def interval (s : State) (L : Lead) (v : VoiceId) : Option Int :=
  match (s.lead L).note.note? with
  | none => none
  | some n =>
    if (s.lead L).silenced then none
    else if (s.lead L).held then heldInterval (s.lead L).frozen[v] n
    else openInterval s L n (s.voice v)

/-! ### The chain (R79 to R81) -/

/-- The corrected step s1 (R79); without a centre the correction is natural (R66). -/
def correctedStep (e : Int) (centre : Option Nat) (w p16 : Nat) : Int :=
  match centre with
  | some pc =>
    roundDiv ((baseStep e : Int) * (16 * (pc : Int) + w * ((p16 : Int) - pc))) (16 * (pc : Int))
  | none => baseStep e

/-- The target step: detune added, then clamped (R80). -/
def targetOf (e : Int) (centre : Option Nat) (w p16 : Nat) (detune : Int) : Nat :=
  (clampInt 4096 65536 (correctedStep e centre w p16 + detune)).toNat

/-- The current step moved toward the target by at most `g`; g = 0 takes it at once (R81). -/
def glideTo (current target g : Nat) : Nat :=
  if g = 0 then target
  else if current ≤ target then (if target - current ≤ g then target else current + g)
  else (if current - target ≤ g then target else current - g)

/-- The target step the chain finds for a voice of lead `L` with interval `e` (R77, R79, R80). -/
def chainTarget (s : State) (L : Lead) (x : Voice) (e : Int) : Nat :=
  targetOf e (noteCentre L s) (s.params L).weight (s.lead L).estimate
    (match x.part with | some p => p.detune | none => 0)

/-! ### Rise and fall (R82, R83) -/

/-- The steps of a voice with target `t`: written, and the current step glided (R81). -/
def Voice.glided (x : Voice) (t g : Nat) : Voice :=
  { x with targetStep := t, currentStep := glideTo x.currentStep t g }

/-- The HTU's work on one voice of lead `L`, by the table of R82. -/
def retargetVoice (L : Lead) (v : VoiceId) (s : State) : State :=
  let x := s.voice v
  let g := (s.params L).glide
  match x.state, interval s L v with
  | .idle, some e =>
    if x.faults = [] then
      let t := chainTarget s L x e
      riseVoice v (s.setVoice v { x with targetStep := t, currentStep := t })
    else s
  | .rising, some e => s.setVoice v (x.glided (chainTarget s L x e) g)
  | .sounding, some e => s.setVoice v (x.glided (chainTarget s L x e) g)
  | .falling, some e => riseVoice v (s.setVoice v (x.glided (chainTarget s L x e) g))
  | .rising, none => fallToIdle v s
  | .sounding, none => fallToIdle v s
  | .idle, none => s
  | .falling, none => s
  | .off, _ => s
  | .muted, _ => s

/-- The HTU step of a lead's block work: every voice it owns (R77). -/
def retargetLead (L : Lead) (s : State) : State :=
  allVoices.foldl (fun s v => if (s.voice v).owner = some L then retargetVoice L v s else s) s

/-! ### Hold and release (R84, R85) -/

/-- The frozen note a HOLD gives a voice: owned, RISING or SOUNDING, with an interval taken as though the
lead were not held, and a sum within 0..127 (R84). -/
def frozenNote (s : State) (L : Lead) (n : Nat) (v : VoiceId) : Option Nat :=
  let x := s.voice v
  match decide (x.owner = some L), x.state with
  | true, .rising | true, .sounding =>
    match openInterval s L n x with
    | some e => if 0 ≤ (n : Int) + e ∧ (n : Int) + e ≤ 127 then some ((n : Int) + e).toNat else none
    | none => none
  | _, _ => none

/-- The eight frozen notes of a HOLD (R84). -/
def frozenNotes (s : State) (L : Lead) (n : Nat) : Vector (Option Nat) 8 :=
  #v[frozenNote s L n 0, frozenNote s L n 1, frozenNote s L n 2, frozenNote s L n 3,
     frozenNote s L n 4, frozenNote s L n 5, frozenNote s L n 6, frozenNote s L n 7]

/-- A HOLD cue's effect (R84). -/
def holdLead (L : Lead) (s : State) : State :=
  match (s.lead L).note.note? with
  | none => s
  | some n => s.setLead L { s.lead L with held := true, frozen := frozenNotes s L n }

/-- A RELEASE cue's effect (R85). -/
def releaseHold (L : Lead) (s : State) : State :=
  if (s.lead L).held then
    s.setLead L { s.lead L with held := false, frozen := Vector.replicate 8 none }
  else s

end Sys2Proof.Machine
end

