-- ==== Sys2Proof/Machine/Scenes.lean ====
section
/-! DEFINITION. Scene application, STEP, SILENCE and RESUME, transitions and their completion (07), and
the effect of each cue kind on its lead (R128, R129). -/

namespace Sys2Proof.Machine

/-! ### Applying a scene (R115 to R118) -/

/-- The voices a lead owns, V0 first. -/
def ownedVoices (s : State) (L : Lead) : List VoiceId :=
  allVoices.filter fun v => (s.voice v).owner == some L

/-- The entry of a scene for a voice. -/
def Scene.entryFor (c : Scene) (v : VoiceId) : Option SceneEntry :=
  c.entries.find? fun e => e.voice == v

/-- The first step: scene, map and key (R115). -/
def LeadChannel.withScene (c : LeadChannel) (n : Fin 32) (r : Scene) : LeadChannel :=
  { c with scene := some n, map := r.map.getD c.map, key := r.key.getD c.key }

/-- A voice whose reassignment is taken at once: IDLE or MUTED (R93, R118). -/
def Voice.takesAtOnce (x : Voice) : Bool :=
  match x.state with
  | .idle | .muted => true
  | .off | .rising | .sounding | .falling => false

/-- The second step on one voice: release, or reassign with the scene's entry; the count of slot clashes
that sent a voice OFF at once goes with it (R116, R118). -/
def reachOwned (r : Scene) (acc : State × Nat) (v : VoiceId) : State × Nat :=
  match r.entryFor v with
  | none => (releaseVoice v acc.1, acc.2)
  | some e =>
    (reassignVoice v e.part acc.1,
      if (acc.1.voice v).takesAtOnce && acc.1.isLeadSlot e.part.slot then acc.2 + 1 else acc.2)

/-- The third step on one entry: assigned to an OFF voice, or skipped (R117). Entries whose voice was
owned at the start are not reached. -/
def takeEntry (L : Lead) (owned : List VoiceId) (acc : State × Nat) (e : SceneEntry) : State × Nat :=
  if e.voice ∈ owned then acc
  else if (acc.1.voice e.voice).state = .off ∧ acc.1.isLeadSlot e.part.slot = false then
    (assignVoice e.voice L e.part acc.1, acc.2)
  else (acc.1, acc.2 + 1)

/-- The three steps of applying a scene, with ENTRY_SKIPPED raised once when any entry was skipped (R115
to R118). -/
def applySteps (L : Lead) (n : Fin 32) (s : State) : State :=
  let r := s.scenes[n]
  let owned := ownedVoices s L
  let s1 := s.setLead L ((s.lead L).withScene n r)
  let a2 := owned.foldl (reachOwned r) (s1, 0)
  let a3 := r.entries.foldl (takeEntry L owned) a2
  if a3.2 = 0 then a3.1 else raise .entrySkipped (.lead L) a3.1

/-- The transition field is written whole (R122). -/
def startTransition (L : Lead) (level : Nat) (k : TransitionKind) (s : State) : State :=
  s.setLead L { s.lead L with transition := some { level := level, kind := k } }

/-- A cue that starts no transition raises the current level of one in flight to its priority (R125). -/
def raiseLevel (L : Lead) (prio : Nat) (s : State) : State :=
  match (s.lead L).transition with
  | some t => s.setLead L { s.lead L with transition := some { t with level := prio } }
  | none => s

/-- SCENE(n) applied with a priority (R115 to R118, R122). -/
def applyScene (L : Lead) (n : Fin 32) (prio : Nat) (s : State) : State :=
  startTransition L prio (.scene n) (applySteps L n s)

/-! ### The other cues (R75, R84, R85, R120, R121, R125) -/

/-- STEP: the current scene's next scene is applied, or the cue is ignored (R120, R125). -/
def applyStep (L : Lead) (prio : Nat) (s : State) : State :=
  match (s.lead L).scene with
  | some c =>
    match s.scenes[c].next with
    | some n => applyScene L n prio s
    | none => raiseLevel L prio (countEvent .stepNoNext s)
  | none => raiseLevel L prio (countEvent .stepNoNext s)

/-- CHORD: a present key and a present map become current (R75). -/
def applyChord (L : Lead) (key : Option (Fin 12)) (map : Option (Fin 16)) (s : State) : State :=
  s.setLead L { s.lead L with key := key.getD (s.lead L).key, map := map.getD (s.lead L).map }

/-- SILENCE: the flag is set and every voice of the lead is sent a fall to IDLE (R121). -/
def silenceLead (L : Lead) (s : State) : State :=
  (ownedVoices s L).foldl (fun s v => fallToIdle v s)
    (s.setLead L { s.lead L with silenced := true })

/-- RESUME: the flag is cleared (R121). -/
def resumeLead (L : Lead) (s : State) : State :=
  s.setLead L { s.lead L with silenced := false }

/-- A cue applied to its lead with a priority: its effect, then the transition field (R128, R129). -/
def applyCue (L : Lead) (c : Cue) (prio : Nat) (s : State) : State :=
  match c with
  | .scene n => applyScene L n prio s
  | .step => applyStep L prio s
  | .chord key map => raiseLevel L prio (applyChord L key map s)
  | .hold => raiseLevel L prio (holdLead L s)
  | .release => raiseLevel L prio (releaseHold L s)
  | .silence => startTransition L prio .silence (silenceLead L s)
  | .resume => startTransition L prio .resume (resumeLead L s)

/-! ### Completion (R123) -/

/-- No voice the lead owns is RISING or FALLING (R123). -/
def fadesDone (L : Lead) (s : State) : Bool :=
  (ownedVoices s L).all fun v =>
    (s.voice v).state != .rising && (s.voice v).state != .falling

/-- The cue kind byte of a TRANSITION_DONE notice (R190). -/
def transitionCode : TransitionKind → Byte
  | .scene _ => 0
  | .silence => 5
  | .resume => 6

/-- The scene byte of a TRANSITION_DONE notice: FF hexadecimal when absent (R190). -/
def transitionScene : TransitionKind → Byte
  | .scene n => byte1 n.val
  | .silence => 0xFF#8
  | .resume => 0xFF#8

/-- The TRANSITION_DONE notice (R123, R187, R190). -/
def doneNotice (L : Lead) (t : Transition) (s : State) : Message :=
  noticeMessage s 0x61#8
    ([byte1 (leadCode L), transitionCode t.kind, transitionScene t.kind] ++ bytes4 s.ltu.count)

/-- The completion check at the end of a lead's block work (R123). -/
def checkCompletion (L : Lead) (s : State) : State :=
  match (s.lead L).transition with
  | none => s
  | some t =>
    if fadesDone L s then
      offerNotice (doneNotice L t s) (s.setLead L { s.lead L with transition := none })
    else s

end Sys2Proof.Machine
end

