-- ==== Sys2Proof/Machine/Cues.lean ====
section
/-! DEFINITION. The Cue Unit: gateways and pending cues, pedal lines, the timed cue queue, the cue ports,
and the block work that runs a port (08; R37, R126). -/

namespace Sys2Proof.Machine

/-! ### Pending cues (R133, R134) -/

/-- A cue is set pending in a gateway: nothing when it is disabled; a cue already there is replaced and
counts as dropped (R134). -/
def setPending (g : Fin 8) (c : Cue) (o : Origin) (s : State) : State :=
  let x := s.gateway g
  if x.enabled then
    let s1 := match x.pending with
      | some _ => countEvent .cueDropped s
      | none => s
    s1.setGateway g { x with pending := some { cue := c, origin := o } }
  else s

/-- An optional cue is set pending when present (R135, R136). -/
def setPending? (g : Fin 8) (c : Option Cue) (o : Origin) (s : State) : State :=
  match c with
  | some c => setPending g c o s
  | none => s

/-- A gateway's pending slot is emptied. -/
def clearPending (g : Fin 8) (s : State) : State :=
  s.setGateway g { s.gateway g with pending := none }

/-! ### The timed cue queue (R139 to R142) -/

/-- A lead's immediate gateway (R138). -/
def immediateGateway : Lead → Fin 8
  | .a => 4
  | .b => 5

/-- A lead's timed gateway (R141). -/
def timedGateway : Lead → Fin 8
  | .a => 6
  | .b => 7

/-- The hand-off: a lead's earliest entry, when due, goes to its enabled and empty timed gateway
(R141). -/
def handOff (L : Lead) (s : State) : State :=
  match s.timed.find? (fun e => e.lead == L) with
  | none => s
  | some e =>
    if e.mark ∧ (s.gateway (timedGateway L)).enabled ∧
        (s.gateway (timedGateway L)).pending = none then
      setPending (timedGateway L) e.cue .queue
        { s with timed := s.timed.eraseP fun e => e.lead == L }
    else s

/-- The hand-off is checked for both leads. -/
def handOffBoth (s : State) : State := handOff .b (handOff .a s)

/-- An entry at a held count that moved by one step: the entries whose due count it is become due, and a
due entry's due count follows the held count (R139, R140). -/
def TimedEntry.inOrder (e : TimedEntry) (count : Word32) : TimedEntry :=
  if e.mark then { e with due := count }
  else if e.due = count then { e with mark := true } else e

/-- An entry at a count jump: what is at or before the new count becomes due (R140). -/
def TimedEntry.atJump (e : TimedEntry) (count : Word32) : TimedEntry :=
  if e.mark then { e with due := count }
  else if atOrBefore e.due count then { e with mark := true, due := count } else e

/-- Insert an entry behind every entry at most as far ahead of the count as it is. -/
def insertByDistance (count : Word32) (e : TimedEntry) : List TimedEntry → List TimedEntry
  | [] => [e]
  | x :: rest =>
    if ahead count x.due ≤ ahead count e.due then x :: insertByDistance count e rest
    else e :: x :: rest

/-- A stable ordering by distance ahead of the count (R140). -/
def sortByDistance (count : Word32) (es : List TimedEntry) : List TimedEntry :=
  es.foldl (fun acc e => insertByDistance count e acc) []

/-- The queue after a count jump: the due entries first, then the rest in serial order (R140). -/
def reorderAtJump (count : Word32) (es : List TimedEntry) : List TimedEntry :=
  let marked := es.map fun e => e.atJump count
  marked.filter (fun e => e.mark) ++ sortByDistance count (marked.filter fun e => !e.mark)

/-- The held count takes a new value: by one step, or by a jump, which is reported to the Cue Unit
(R18, R31, R140); the hand-off follows (R141). -/
def adoptCount (count : Word32) (s : State) : State :=
  let s1 := { s with ltu := { s.ltu with count := count } }
  if count = s.ltu.count + 1 then
    handOffBoth { s1 with timed := s.timed.map fun e => e.inOrder count }
  else handOffBoth { s1 with timed := reorderAtJump count s.timed }

/-- An accepted entry's place: one due now stands behind every entry already due; another behind every
entry at or before its due count (R142, step 5). -/
def insertEntry (count : Word32) (e : TimedEntry) (es : List TimedEntry) : List TimedEntry :=
  if e.mark then es.takeWhile (fun x => x.mark) ++ e :: es.dropWhile (fun x => x.mark)
  else insertByDistance count e es

/-! ### Pedal lines (R130, R131, R135, R136) -/

/-- The gateway a line feeds (R135). -/
def lineGateway (l : LineId) : Fin 8 := ⟨l.val, by omega⟩

/-- The raw level of a line: low reads as PRESSED (R130). -/
def rawLevel (pins : PedalPins) (l : LineId) : PedalLevel :=
  if pins[l] then .released else .pressed

/-- A press reaches its gateway (R135, R136). -/
def pressEdge (g : Fin 8) (s : State) : State := setPending? g (s.gateway g).press .press s

/-- A release reaches its gateway: no effect in MOMENT; in SPAN a press cue still pending is withdrawn,
with the release cue, else the release cue is set pending (R135, R136). -/
def releaseEdge (g : Fin 8) (s : State) : State :=
  let x := s.gateway g
  match x.type with
  | .moment => s
  | .span =>
    match x.pending with
    | some { cue := _, origin := .press } =>
      let s1 := countEvent .cueDropped (clearPending g s)
      match x.release with
      | some _ => countEvent .cueDropped s1
      | none => s1
    | some { cue := _, origin := .release } => setPending? g x.release .release s
    | some { cue := _, origin := .request } => setPending? g x.release .release s
    | some { cue := _, origin := .queue } => setPending? g x.release .release s
    | none => setPending? g x.release .release s

/-- The debounced level takes a new value and the edge is reported; a release clears the stuck mark
(R130, R131). -/
def pedalEdge (l : LineId) (level : PedalLevel) (s : State) : State :=
  let p := s.pedal l
  match level with
  | .pressed =>
    pressEdge (lineGateway l) (s.setPedal l { p with level := some .pressed, debounce := 0 })
  | .released =>
    releaseEdge (lineGateway l)
      (s.setPedal l { p with level := some .released, debounce := 0, stuckMark := false })

/-- The sample of a frame against the debounced level; the first sample after power-on reset sets the
level and reports no edge (R130, R132). -/
def debounceLine (l : LineId) (s : State) : State :=
  let p := s.pedal l
  let raw := rawLevel s.pedalPins l
  match p.level with
  | none => s.setPedal l { p with level := some raw, debounce := 0 }
  | some level =>
    if raw = level then s.setPedal l { p with debounce := 0 }
    else if Config.debounceFrames ≤ p.debounce + 1 then pedalEdge l raw s
    else s.setPedal l { p with debounce := p.debounce + 1 }

/-- The stuck timer of a frame (R131). -/
def PedalLine.timed (p : PedalLine) : PedalLine :=
  match p.level with
  | some .pressed => { p with stuck := min Config.stuckTimerMax (p.stuck + 1) }
  | some .released => { p with stuck := 0 }
  | none => { p with stuck := 0 }

/-- Is a line to be judged stuck: PRESSED, unmarked, and the timer at the limit? (R131) -/
def stuckDue (p : PedalLine) (limitSeconds : Nat) : Bool :=
  p.level == some .pressed && !p.stuckMark && decide (limitSeconds * 48000 ≤ p.stuck)

/-- The stuck judgement of a line: the mark is set; an enabled gateway raises PEDAL_STUCK, and with
stuck close it is disabled and its pending cue dropped (R131). -/
def judgeStuck (l : LineId) (s : State) : State :=
  let s1 := s.setPedal l { s.pedal l with stuckMark := true }
  let g := lineGateway l
  let x := s.gateway g
  if x.enabled then
    let s2 := raise .pedalStuck (.lead x.lead) s1
    if x.stuckClose then
      let s3 := s2.setGateway g { x with enabled := false, pending := none }
      match x.pending with
      | some _ => countEvent .cueDropped s3
      | none => s3
    else s2
  else s1

/-- The work of one line in one processed frame: debounce, then the stuck timer and its judgement by the
stuck limit, in seconds, that stands as the frame begins (R130, R131, R178). -/
def pedalWork (limit : Nat) (l : LineId) (s : State) : State :=
  let s1 := debounceLine l s
  let s2 := s1.setPedal l (s1.pedal l).timed
  if stuckDue (s2.pedal l) limit then judgeStuck l s2 else s2

/-! ### The cue ports (R145, R146) -/

/-- The lead a gateway is delegated to (R133, the gateway table). -/
def gatewayLead (s : State) (g : Fin 8) : Lead :=
  if g.val < 4 then (s.gateway g).lead else if g.val = 4 ∨ g.val = 6 then .a else .b

/-- Is a gateway a candidate of a lead's port? (R146) -/
def isCandidate (L : Lead) (s : State) (g : Fin 8) : Bool :=
  let x := s.gateway g
  gatewayLead s g == L && x.enabled && x.pending.isSome && decide (s.threshold L < x.priority)
    && (match (s.lead L).transition with
        | some t => decide (t.level < x.priority)
        | none => true)

/-- The winner of two candidates: the higher priority, the earlier one on a tie (R146). -/
def betterGateway (s : State) (best : Option (Fin 8)) (g : Fin 8) : Option (Fin 8) :=
  match best with
  | none => some g
  | some b => if (s.gateway b).priority < (s.gateway g).priority then some g else some b

/-- The port's winner: highest priority, then lowest number (R146). -/
def portWinner (L : Lead) (s : State) : Option (Fin 8) :=
  (allGateways.filter (isCandidate L s)).foldl (betterGateway s) none

/-- The port's step: the winner's slot is emptied, its cue applied and counted, and the hand-off checked
after a timed gateway (R129, R141, R146). -/
def portStep (L : Lead) (s : State) : State :=
  match portWinner L s with
  | none => s
  | some g =>
    match (s.gateway g).pending with
    | none => s
    | some c =>
      let s1 := applyCue L c.cue (s.gateway g).priority (clearPending g s)
      let s2 := countEvent .cueApplied s1
      let s3 := match (s.lead L).transition with
        | some _ => countEvent .cueDuringTransition s2
        | none => s2
      if g = timedGateway L then handOff L s3 else s3

/-- The third step of a lead's block work in link state `ls`: a configured start scene in place of the
port, or the port (R37, R126). -/
def cueStep (ls : LinkState) (L : Lead) (s : State) : State :=
  if ls = .locked ∧ (s.lead L).startFlag = true then
    let s1 := s.setLead L { s.lead L with startFlag := false }
    match s.startScene L with
    | some n => applyScene L n 15 s1
    | none => portStep L s1
  else portStep L s

/-- One lead's block work in its order: tracker, note decision, cue, HTU, completion check (R37, R123). -/
def blockWork (ls : LinkState) (L : Lead) (s : State) : State :=
  checkCompletion L (retargetLead L (cueStep ls L (decideLead L (trackLead L s))))

end Sys2Proof.Machine
end

