-- ==== Sys2Proof/Machine/Requests.lean ====
section
/-! DEFINITION. The requests: acceptance, reservation and reply, and what each kind of request does
(R176 to R185, with the rules of the chapters that own the state). -/

namespace Sys2Proof.Machine

/-- The status of a request (R166, R187). -/
inductive Status where
  | done | busy | range | inUse | invalid | noLoad | full | late | closed | unknown
  deriving DecidableEq, Repr

/-- The reply kinds: 40 hexadecimal plus the status (R187). -/
def statusByte : Status → Byte
  | .done => 0x40#8
  | .busy => 0x41#8
  | .range => 0x42#8
  | .inUse => 0x43#8
  | .invalid => 0x44#8
  | .noLoad => 0x45#8
  | .full => 0x46#8
  | .late => 0x47#8
  | .closed => 0x48#8
  | .unknown => 0x49#8

/-- What executing a request gives: its status, the body of its reply and the state it leaves. -/
structure Answer where
  status : Status
  body : List Byte
  state : State

/-- An answer with an empty body (R190). -/
def answer (st : Status) (s : State) : Answer := { status := st, body := [], state := s }

/-! ### Acceptance and reply (R175, R176, R190) -/

/-- The reply to a request: to its source, with its tag and the kind of its status (R176, R190). -/
def replyMessage (s : State) (r : Req) (st : Status) (body : List Byte) : Message where
  dest := r.source
  source := s.nodeAddr
  kind := statusByte st
  tag := r.tag
  body := body

/-- A reply fills the reservation made for it (R175). -/
def fillReservation (m : Message) : List OutItem → List OutItem
  | [] => []
  | .reservation :: rest => .reply m :: rest
  | .reply m' :: rest => .reply m' :: fillReservation m rest
  | .notice m' :: rest => .notice m' :: fillReservation m rest

/-- A message for this node is accepted: it is counted, and a request gets its reservation; a broadcast
needs none (R176). The flag says whether the request is to be executed: it is discarded when the queue
holds 8 messages, and REQUEST_DROP is then due. -/
def acceptRequest (r : Req) (s : State) : State × Bool :=
  let s1 := countEvent .accepted s
  if r.broadcast then (s1, true)
  else if Config.queueSize ≤ s1.outq.length then (s1, false)
  else (enqueue .reservation s1, true)

/-- An executed request is answered: its reply fills the reservation; a broadcast forms none (R176,
R191). -/
def finishRequest (r : Req) (a : Answer) : State :=
  if r.broadcast then a.state
  else
    { a.state with
      outq := fillReservation (replyMessage a.state r a.status a.body) a.state.outq }

/-! ### Identity (R177) -/

/-- IDENTIFY: the first capability index (R177). -/
def actIdentify (_r : Req) (s : State) : Answer := { status := .done, body := [1], state := s }

/-- The capability records: next index and content (R177, R190). -/
def capability (s : State) (index : Nat) : Option (List Byte) :=
  match index with
  | 1 => some ([2, 0x1D#8, 0x3A#8, 0x04#8, 0x28#8, 1, s.nodeAddr])
  | 2 => some [3, 24, 2, 8, 64]
  | 3 => some ([4, 2, 64, 16, 32] ++ bytes2 512)
  | 4 => some [5, 8, 16, 16]
  | 5 => some [0, 13, 4]
  | _ => none

/-- READ_CAP: a capability record, or RANGE (R177). -/
def actReadCap (r : Req) (s : State) : Answer :=
  let i := byteAt r.body 0
  match capability s i.toNat with
  | some rec => { status := .done, body := i :: rec, state := s }
  | none => answer .range s

/-! ### Configuration (R178, R179) -/

/-- Is a slot the output slot of a voice that is not OFF? (R178, step 2) -/
def slotTaken (s : State) (k : Fin 24) : Bool := claimed (claims s) k

/-- CONFIGURE (R178). -/
def actConfigure (r : Req) (s : State) : Answer :=
  match configOfBody r.body with
  | none => answer .range s
  | some c =>
    if slotTaken s c.slotA || (match c.slotB with | some k => slotTaken s k | none => false) then
      answer .inUse s
    else answer .done { s with config := c }

/-- READ_CONFIG (R179). -/
def actReadConfig (_r : Req) (s : State) : Answer :=
  { status := .done, body := bytesOfConfig s.config, state := s }

/-! ### Tables (R180 to R182) -/

/-- LOAD_BEGIN (R180). -/
def actLoadBegin (r : Req) (s : State) : Answer :=
  match targetOfBytes (byteAt r.body 0) (byteAt r.body 1) with
  | none => answer .range s
  | some t =>
    match s.load with
    | some _ => answer .busy s
    | none => answer .done { s with load := some { target := t, buffer := [] } }

/-- LOAD_DATA (R180). -/
def actLoadData (r : Req) (s : State) : Answer :=
  match s.load with
  | none => answer .noLoad s
  | some l =>
    if Config.loadSize < l.buffer.length + r.body.length then answer .range s
    else answer .done { s with load := some { l with buffer := l.buffer ++ r.body } }

/-- LOAD_ABORT (R180). -/
def actLoadAbort (_r : Req) (s : State) : Answer :=
  match s.load with
  | none => answer .noLoad s
  | some _ => answer .done { s with load := none }

/-- Does a lead make a load target in use? (R57, R73, R113) -/
def usedBy (L : Lead) (t : LoadTarget) (s : State) : Bool :=
  match (s.lead L).scene with
  | none => false
  | some n =>
    match t with
    | .tuning i => s.scenes[n].tuning == i
    | .map i => (s.lead L).map == i
    | .scene i => n == i

/-- Is a load target in use, by either lead? (R57, R73, R113) -/
def inUse (t : LoadTarget) (s : State) : Bool := usedBy .a t s || usedBy .b t s

/-- The content of a load buffer installed in one step; none is INVALID (R56, R72, R112). -/
def install (t : LoadTarget) (bs : List Byte) (s : State) : Option State :=
  match t with
  | .tuning i => (tuningOfBytes bs).map fun rows => { s with tuning := s.tuning.set i rows }
  | .map i => (mapOfBytes bs).map fun m => { s with maps := s.maps.set i m }
  | .scene i => (sceneOfBytes bs).map fun c => { s with scenes := s.scenes.set i c }

/-- LOAD_COMMIT (R181). -/
def actLoadCommit (_r : Req) (s : State) : Answer :=
  match s.load with
  | none => answer .noLoad s
  | some l =>
    if inUse l.target s then answer .inUse s
    else
      match install l.target l.buffer { s with load := none } with
      | none => answer .invalid { s with load := none }
      | some s1 => answer .done s1

/-- The bytes of an installed table (R182, R189). -/
def tableBytes (t : LoadTarget) (s : State) : List Byte :=
  match t with
  | .tuning i => bytesOfTuning s.tuning[i]
  | .map i => bytesOfMap s.maps[i]
  | .scene i => bytesOfScene s.scenes[i]

/-- READ_TABLE (R182). -/
def actReadTable (r : Req) (s : State) : Answer :=
  let offset := num2 (byteAt r.body 2) (byteAt r.body 3)
  let length := (byteAt r.body 4).toNat
  match targetOfBytes (byteAt r.body 0) (byteAt r.body 1) with
  | none => answer .range s
  | some t =>
    if 96 < length ∨ (tableBytes t s).length ≤ offset then answer .range s
    else { status := .done, body := ((tableBytes t s).drop offset).take length, state := s }

/-! ### Cues (R137, R138, R142 to R145) -/

/-- CUE_NOW (R138). -/
def actCueNow (r : Req) (s : State) : Answer :=
  match leadOfByte (byteAt r.body 0),
    cueOfBytes (byteAt r.body 1) (byteAt r.body 2) (byteAt r.body 3) with
  | some L, some c =>
    if (s.gateway (immediateGateway L)).enabled then
      answer .done (setPending (immediateGateway L) c .request s)
    else answer .closed s
  | _, _ => answer .range s

/-- A timed cue that has passed the lateness judgement: FULL, or accepted; `late` says that CUE_LATE is
raised on acceptance (R142, steps 4 and 5; R143). -/
def enterTimed (e : TimedEntry) (late : Bool) (s : State) : Answer :=
  if Config.timedSize ≤ s.timed.length then
    answer .full (raise .cueOverflow (.lead e.lead) s)
  else
    let s1 := handOff e.lead { s with timed := insertEntry s.ltu.count e s.timed }
    answer .done (if late then raise .cueLate (.lead e.lead) s1 else s1)

/-- CUE_AT (R142, R143). -/
def actCueAt (r : Req) (s : State) : Answer :=
  let due := num4 (byteAt r.body 0) (byteAt r.body 1) (byteAt r.body 2) (byteAt r.body 3)
  match leadOfByte (byteAt r.body 4),
    cueOfBytes (byteAt r.body 5) (byteAt r.body 6) (byteAt r.body 7) with
  | some L, some c =>
    let d := serialDiff s.ltu.count due
    let now : TimedEntry := { due := s.ltu.count, lead := L, cue := c, mark := true }
    if (s.gateway (timedGateway L)).enabled = false then answer .closed s
    else if Config.cueHorizon < d then answer .range s
    else if 0 < d then enterTimed { now with due := due, mark := false } false s
    else if -d ≤ s.config.lateWindow then enterTimed now false s
    else
      match s.config.latePolicy with
      | .apply => enterTimed now true s
      | .drop => answer .late (raise .cueLate (.lead L) s)
  | _, _ => answer .range s

/-- CUE_FLUSH (R144). -/
def actCueFlush (r : Req) (s : State) : Answer :=
  match leadOfByte (byteAt r.body 0) with
  | some L =>
    answer .done
      (clearPending (timedGateway L) { s with timed := s.timed.filter fun e => e.lead != L })
  | none => answer .range s

/-- The configuration a GATEWAY_SET gives a pedal gateway; none is RANGE (R137, R188). A MOMENT gateway
stores no release cue. -/
def pedalGatewayOf (body : List Byte) : Option Gateway :=
  let flags := byteAt body 1
  match leadOfByte (byteAt body 3),
    flaggedCue (flags.getLsbD 3) (byteAt body 4) (byteAt body 5) (byteAt body 6),
    flaggedCue (flags.getLsbD 4) (byteAt body 7) (byteAt body 8) (byteAt body 9) with
  | some L, some press, some release =>
    some
      { enabled := flags.getLsbD 0
        priority := min 15 (byteAt body 2).toNat
        lead := L
        type := if flags.getLsbD 1 then .span else .moment
        press := press
        release := if flags.getLsbD 1 then release else none
        stuckClose := flags.getLsbD 2
        pending := none }
  | _, _, _ => none

/-- After a timed gateway has been set, a lead's due entry is handed over (R137, R141). -/
def handOffAfterSet (g : Fin 8) (s : State) : State :=
  if g = timedGateway .a then handOff .a s
  else if g = timedGateway .b then handOff .b s
  else s

/-- GATEWAY_SET (R137). For G4 to G7 only enabled and priority are read; a timed gateway that can take a
due entry takes it at once (R141). -/
def actGatewaySet (r : Req) (s : State) : Answer :=
  match finOf 8 (byteAt r.body 0).toNat with
  | none => answer .range s
  | some g =>
    if g.val < 4 then
      match pedalGatewayOf r.body with
      | none => answer .range s
      | some x => answer .done (s.setGateway g x)
    else
      answer .done
        (handOffAfterSet g
          (s.setGateway g
            { s.gateway g with
              enabled := (byteAt r.body 1).getLsbD 0
              priority := min 15 (byteAt r.body 2).toNat
              pending := none }))

/-- PORT_SET (R145). -/
def actPortSet (r : Req) (s : State) : Answer :=
  match leadOfByte (byteAt r.body 0) with
  | some L => answer .done (s.setThreshold L (min 15 (byteAt r.body 1).toNat))
  | none => answer .range s

/-! ### Pictures (R110, R160, R165, R183, R190) -/

/-- The link state's code (R187). -/
def linkCode : LinkState → Nat
  | .seeking => 0
  | .relocking => 1
  | .locked => 2
  | .holdover => 3

/-- The note state's code (R187). -/
def noteCode : NoteState → Nat
  | .silent => 0
  | .voiced _ => 1
  | .trailing _ => 2

/-- The voice state's code (R187). -/
def voiceCode : VoiceState → Nat
  | .off => 0
  | .idle => 1
  | .rising => 2
  | .sounding => 3
  | .falling => 4
  | .muted => 5

/-- A lead's nine bytes of the state picture (R190). -/
def leadPicture (c : LeadChannel) : List Byte :=
  [byte1 (noteCode c.note + flagBit c.held 4 + flagBit c.silenced 8 + flagBit c.scene.isSome 16
      + flagBit c.transition.isSome 32),
    byte1 (c.note.note?.getD 0)]
    ++ bytes2 c.estimate
    ++ [byte1 c.confidence, indexByte c.scene, byte1 c.map.val, byte1 c.key.val,
      (match c.transition with | some t => byte1 t.level | none => 0)]

/-- A voice's owner code (R190). -/
def ownerCode : Option Lead → Nat
  | none => 0
  | some .a => 1
  | some .b => 2

/-- A voice's eight bytes of the state picture (R110, R190). -/
def voicePicture (x : Voice) : List Byte :=
  [byte1 (voiceCode x.state + 16 * ownerCode x.owner),
    (match x.part with | some p => byte1 p.slot.val | none => 0xFF#8)]
    ++ bytes2 x.envelope ++ bytes2 (x.currentStep - 4096)
    ++ bytes2 (x.distance / Config.headUnit).toNat

/-- The state picture of READ_STATE (R183, R190). -/
def statePicture (s : State) : List Byte :=
  byte1 (linkCode s.ltu.link) :: bytes4 s.ltu.count
    ++ leadPicture s.leadA ++ leadPicture s.leadB
    ++ allVoices.flatMap fun v => voicePicture (s.voice v)

/-- READ_STATE (R183). -/
def actReadState (_r : Req) (s : State) : Answer :=
  { status := .done, body := statePicture s, state := s }

/-- A fault kind's byte of the fault picture (R190). -/
def faultByte (f : FaultRecord) : Byte :=
  byte1 (flagBit f.status 1 + flagBit f.detectMask 2 + flagBit f.reportMask 4
    + match f.severity with | .notice => 0 | .mute => 8)

/-- The pointer's byte of the fault picture (R190). -/
def pointerByte : Option FaultKind → Byte
  | some k => byte1 (128 + (faultCode k).val)
  | none => 0

/-- READ_FAULTS (R160, R190). -/
def actReadFaults (_r : Req) (s : State) : Answer :=
  { status := .done
    body := (faultKinds.map fun k => faultByte (s.fault k)) ++ [pointerByte s.pointer]
    state := s }

/-- A counter's bytes of the counter picture (R190). -/
def counterBytes (c : Counter) : List Byte :=
  bytes4 c.count ++ [byte1 c.selector, byte1 (flagBit c.inhibit 1)]

/-- READ_COUNTERS (R165, R190). -/
def actReadCounters (_r : Req) (s : State) : Answer :=
  { status := .done
    body := counterBytes s.counters[0] ++ counterBytes s.counters[1] ++ counterBytes s.counters[2]
      ++ counterBytes s.counters[3]
    state := s }

/-! ### Faults, counters and reset (R157, R158, R164, R184) -/

/-- FAULT_CLEAR (R157). -/
def actFaultClear (r : Req) (s : State) : Answer :=
  match kindSetOfBytes (byteAt r.body 0) (byteAt r.body 1) with
  | some ks => answer .done (clearKinds ks s)
  | none => answer .range s

/-- FAULT_SETUP (R158, R188). -/
def actFaultSetup (r : Req) (s : State) : Answer :=
  match kindSetOfBytes (byteAt r.body 0) (byteAt r.body 1) with
  | none => answer .range s
  | some ks =>
    let detect := byteAt r.body 2 != 0
    let report := byteAt r.body 3 != 0
    match (byteAt r.body 4).toNat with
    | 0 => answer .done (setupKinds ks detect report .notice s)
    | 1 => answer .done (setupKinds ks detect report .mute s)
    | _ => answer .range s

/-- COUNTER_SETUP (R164, R188). -/
def actCounterSetup (r : Req) (s : State) : Answer :=
  match finOf 4 (byteAt r.body 0).toNat with
  | none => answer .range s
  | some i =>
    let sel := (byteAt r.body 1).toNat
    let flags := byteAt r.body 2
    answer .done
      { s with
        counters := s.counters.set i
          { count := if flags.getLsbD 1 then 0 else s.counters[i].count
            selector := if 1 ≤ sel ∧ sel ≤ 14 then sel else 0
            inhibit := flags.getLsbD 0 } }

/-- ENGINE_RESET (R184). -/
def actEngineReset (_r : Req) (s : State) : Answer := answer .done (engineReset s)

/-! ### Execution (R176) -/

/-- The two checks that precede every execution, for a request of a known kind: a body of another length
than the kind requires is answered INVALID (R176). -/
def checked (k : ReqKind) (act : Req → State → Answer) (r : Req) (s : State) : Answer :=
  if bodyLengthOk k r.body.length then act r s else answer .invalid s

/-- What a request of a kind does (R176). -/
def actOf : ReqKind → Req → State → Answer
  | .identify => actIdentify
  | .readCap => actReadCap
  | .configure => actConfigure
  | .readConfig => actReadConfig
  | .loadBegin => actLoadBegin
  | .loadData => actLoadData
  | .loadCommit => actLoadCommit
  | .loadAbort => actLoadAbort
  | .readTable => actReadTable
  | .cueNow => actCueNow
  | .cueAt => actCueAt
  | .cueFlush => actCueFlush
  | .gatewaySet => actGatewaySet
  | .portSet => actPortSet
  | .readState => actReadState
  | .readFaults => actReadFaults
  | .faultClear => actFaultClear
  | .faultSetup => actFaultSetup
  | .counterSetup => actCounterSetup
  | .readCounters => actReadCounters
  | .engineReset => actEngineReset

/-- A message executed as a request: UNKNOWN for a kind that is no request kind, else the kind's act
behind its length check (R176). -/
def executeKind (kind : Byte) (r : Req) (s : State) : Answer :=
  match kindOfByte kind with
  | none => answer .unknown s
  | some k => checked k (actOf k) r s

/-- An accepted message taken whole as a request, in the frame of its LAST: accepted, executed with
`act` and answered, or discarded with REQUEST_DROP (R176). -/
def takeRequest (act : Req → State → Answer) (r : Req) (s : State) : State :=
  let a := acceptRequest r s
  if a.2 then finishRequest r (act r a.1) else raise .requestDrop .none a.1

end Sys2Proof.Machine
end

