-- ==== Sys2Proof/Machine/Lane.lean ====
section
/-! DEFINITION. The Control Lane Unit: message assembly, routes, abandonment, relay, the relay FIFO and the
out lane's arbiter (10, R166 to R176). -/

namespace Sys2Proof.Machine

/-! ### Abandonment (R169) -/

/-- The message under assembly is cut through. -/
def cutting (s : State) : Bool :=
  match s.assembly with
  | some a =>
    match a.route with
    | .relay .cut => true
    | .consumeAndRelay .cut => true
    | .relay .capture => false
    | .relay .drop => false
    | .consumeAndRelay .capture => false
    | .consumeAndRelay .drop => false
    | .consume => false
  | none => false

/-- The message under assembly is abandoned: the buffer becomes EMPTY and a cut-through ends. CTRL_RUNON
is raised by the caller (R169). -/
def abandon (s : State) : State :=
  { s with assembly := none
           sender := match s.sender with
             | .cut => .none
             | .none => .none
             | .fifo k => .fifo k
             | .queue k => .queue k }

/-- One gap frame at the buffer; the flag says that the message was abandoned (R168, R169). -/
def gapFrame (s : State) : State × Bool :=
  match s.assembly with
  | none => (s, false)
  | some a =>
    if Config.gapLimit ≤ a.gap + 1 then (abandon s, true)
    else ({ s with assembly := some { a with gap := a.gap + 1 } }, false)

/-! ### Assembly of a good lane frame (R168, R170, R171) -/

/-- The relay mode chosen at a START frame (R171). -/
def relayMode (s : State) : RelayMode :=
  if Config.fifoSize ≤ s.fifo.length then .drop
  else if s.sender = .none ∧ s.fifo = [] then .cut
  else .capture

/-- The route a destination byte chooses (R171). -/
def routeOf (s : State) (dest : Byte) : Route :=
  if dest = s.nodeAddr then .consume
  else if dest = 63#8 then .consumeAndRelay (relayMode s)
  else .relay (relayMode s)

/-- The relay mode of a route, if it relays. -/
def Route.mode : Route → Option RelayMode
  | .consume => none
  | .consumeAndRelay m => some m
  | .relay m => some m

/-- What a lane frame does at the assembly buffer: the state, the fault kinds it raises, and the request
it completes, with its kind byte. -/
structure LaneResult where
  state : State
  raised : List FaultKind
  request : Option (Byte × Req)

/-- A START frame at an EMPTY buffer (R168, R171): a DROP mode raises RELAY_DROP. -/
def beginMessage (bytes : List Byte) (s : State) : LaneResult :=
  let route := routeOf s (byteAt bytes 0)
  { state := { s with assembly := some { bytes := bytes, gap := 0, route := route } }
    raised := if route.mode = some .drop then [.relayDrop] else []
    request := none }

/-- A complete message is judged and, if accepted, captured or handed over as a request (R170, R174,
R176). -/
def judgeMessage (a : Assembly) (s : State) : LaneResult :=
  let s1 := { s with assembly := none }
  if messageOk a.bytes then
    { state := if a.route.mode = some .capture then { s1 with fifo := s1.fifo ++ [a.bytes] } else s1
      raised := []
      request := match a.route with
        | .consume => some (requestOf a.bytes false)
        | .consumeAndRelay _ => some (requestOf a.bytes true)
        | .relay _ => none }
  else { state := s1, raised := [.ctrlCheck], request := none }

/-- A MORE or LAST frame's bytes at the buffer; `last` completes the message. More than 103 bytes abandon
it (R168, R169). -/
def appendBytes (bytes : List Byte) (last : Bool) (s : State) : LaneResult :=
  match s.assembly with
  | none => { state := s, raised := [], request := none }
  | some a =>
    let a1 := { a with bytes := a.bytes ++ bytes, gap := 0 }
    if Config.messageMax < a1.bytes.length then
      { state := abandon s, raised := [.ctrlRunon], request := none }
    else if last then judgeMessage a1 s
    else { state := { s with assembly := some a1 }, raised := [], request := none }

/-- A good lane frame at the assembly buffer (R168). -/
def assemble (lane : LaneIn) (s : State) : LaneResult :=
  match lane with
  | .idle =>
    let g := gapFrame s
    { state := g.1, raised := if g.2 then [.ctrlRunon] else [], request := none }
  | .start bytes =>
    match s.assembly with
    | none => beginMessage bytes s
    | some _ =>
      let r := beginMessage bytes (abandon s)
      { r with raised := .ctrlRunon :: r.raised }
  | .more bytes => appendBytes bytes false s
  | .last bytes => appendBytes bytes true s

/-! ### The out lane (R172 to R175) -/

/-- The lane bytes of the next frame of a message sent in the device's own cut, and the bytes sent after
it; none after its LAST (R172, R186). -/
def nextPiece (bytes : List Byte) (sent : Nat) : List Byte × Option Nat :=
  if sent = 0 then
    let k := min 7 (bytes.length - 1)
    (encodeLane 1 (bytes.take k), some k)
  else if 7 < bytes.length - sent then
    (encodeLane 2 ((bytes.drop sent).take 7), some (sent + 7))
  else (encodeLane 3 (bytes.drop sent), none)

/-- The bytes of an outbound queue item, none for a reservation (R175). -/
def OutItem.bytes : OutItem → Option (List Byte)
  | .reservation => none
  | .reply m => some (messageBytes m)
  | .notice m => some (messageBytes m)

/-- What the out lane carries of one frame: the state, and whether a message was relayed with it. The
"message relayed" event is the caller's to count, in the place the frame gives it (R173, R174, R185). -/
structure LaneSent where
  state : State
  relayed : Bool

/-- A lane that relays no message with this frame. -/
def LaneSent.quiet (s : State) : LaneSent := { state := s, relayed := false }

/-- The "message relayed" event of a lane frame, counted at once (R163, R173, R174). -/
def LaneSent.counted (r : LaneSent) : State :=
  if r.relayed then countEvent .relayed r.state else r.state

/-- The next frame of the relay FIFO's head, `sent` bytes on: with its LAST it leaves the FIFO and is
relayed (R172, R174). -/
def sendFifo (sent : Nat) (s : State) : LaneSent :=
  match s.fifo with
  | [] => .quiet { s with laneOut := idleLane, sender := .none }
  | m :: rest =>
    let p := nextPiece m sent
    match p.2 with
    | some k => .quiet { s with laneOut := p.1, sender := .fifo k }
    | none => { state := { s with laneOut := p.1, sender := .none, fifo := rest }, relayed := true }

/-- The next frame of the outbound queue's head, `sent` bytes on: with its LAST it leaves the queue (R172,
R175). -/
def sendQueue (sent : Nat) (s : State) : State :=
  match s.outq with
  | [] => { s with laneOut := idleLane, sender := .none }
  | m :: rest =>
    match m.bytes with
    | none => { s with laneOut := idleLane, sender := .none }
    | some bytes =>
      let p := nextPiece bytes sent
      match p.2 with
      | some k => { s with laneOut := p.1, sender := .queue k }
      | none => { s with laneOut := p.1, sender := .none, outq := rest }

/-- A free lane goes to the FIFO head, then to the queue head, else it carries IDLE (R172). -/
def giveFreeLane (s : State) : LaneSent := if s.fifo = [] then .quiet (sendQueue 0 s) else sendFifo 0 s

/-- The lane of a frame that passes a cut-through message on: copied unchanged, IDLE for a gap; the frame
of its LAST frees the lane, and with it the message is relayed (R173). -/
def copyLane (lane : LaneIn) (raw : List Byte) (s : State) : LaneSent :=
  match lane with
  | .idle => .quiet { s with laneOut := idleLane }
  | .start _ => .quiet { s with laneOut := raw, sender := .cut }
  | .more _ => .quiet { s with laneOut := raw }
  | .last _ => { state := { s with laneOut := raw, sender := .none }, relayed := true }

/-- The out lane of a good lane frame, after assembly; `wasCut` says that the sender was CUT before it. A
cut-through abandoned in this frame leaves IDLE, unless this frame's START begins another (R169, R172,
R173). -/
def sendLane (lane : LaneIn) (raw : List Byte) (wasCut : Bool) (s : State) : LaneSent :=
  let starts := match lane with
    | .start _ => cutting s
    | .idle => false
    | .more _ => false
    | .last _ => false
  if starts then copyLane lane raw s
  else if wasCut then
    if s.sender = .cut then copyLane lane raw s else .quiet { s with laneOut := idleLane }
  else
    match s.sender with
    | .fifo k => sendFifo k s
    | .queue k => .quiet (sendQueue k s)
    | .none => giveFreeLane s
    | .cut => .quiet { s with laneOut := idleLane }

/-! ### Loss (R27) -/

/-- What a loss declaration does to the lane: assembly abandoned, cut-through ended, the relay FIFO
emptied, an own message rewound to its first byte (R27). CTRL_RUNON is raised by the caller. -/
def cleanLane (s : State) : State :=
  { s with assembly := none, sender := .none, fifo := [] }

end Sys2Proof.Machine
end

