-- ==== Sys2Proof/Machine/Frames.lean ====
section
/-! DEFINITION. One frame time, whole: the Link Timing Unit, the frame's audio, its lane, the events that
fall in it and the orders the manual leaves free; losses, phantom frames and local ticks (01, 02). -/

namespace Sys2Proof.Machine

/-! ### What is still to be taken in a frame -/

/-- Things of one frame whose order the manual leaves free (R91, R149, R159, R185). A pedal line carries
the stuck limit that stood as the frame began (R178). -/
inductive Task where
  | occurrence (k : FaultKind) (sc : Scope)
  | relayed
  | pedal (l : LineId) (limit : Nat)
  | request (kind : Byte) (r : Req)
  | block (L : Lead)
  deriving DecidableEq, Repr

/-- A state with the things of its frame that are still to be taken. -/
structure Pass where
  state : State
  late : List Task

/-- Things of the frame join what is still to be taken. -/
def Pass.add (p : Pass) (ts : List Task) : Pass := { p with late := p.late ++ ts }

/-- Fault kinds of scope NONE as things still to be taken. -/
def occurrences (ks : List FaultKind) : List Task := ks.map fun k => .occurrence k .none

/-! ### Loss (R26 to R29) -/

/-- The Link Timing Unit's record after a loss: the tick counter is set by the kind of loss (R20,
R26). -/
def Ltu.lost (u : Ltu) : Ltu := { u with link := .holdover, goodRun := 0, badRun := 0 }

/-- CTRL_RUNON and LINK_LOSS of a loss declaration; which comes first is free (R27, R28, R159). -/
def raiseLoss (assembling : Bool) (s : State) : State :=
  if assembling then
    if s.nextOrder 2 = 0 then raise .linkLoss .device (raise .ctrlRunon .none s.drawn)
    else raise .ctrlRunon .none (raise .linkLoss .device s.drawn)
  else raise .linkLoss .device s

/-- The loss action in force (R29). -/
def lossEffect (s : State) : State :=
  match s.config.lossAction with
  | .holdover => s
  | .engine => engineReset s

/-- A loss declaration: link, lane, faults, loss action (R26 to R29). -/
def declareLoss (s : State) : State :=
  lossEffect (raiseLoss s.assembly.isSome (cleanLane { s with ltu := s.ltu.lost }))

/-! ### Taking the things of a frame -/

/-- One thing of a frame, in the link state the frame is processed in. -/
def runTask (ls : LinkState) (t : Task) (s : State) : State :=
  match t with
  | .occurrence k sc => raise k sc s
  | .relayed => countEvent .relayed s
  | .pedal l limit => pedalWork limit l s
  | .request kind r => finishRequest r (executeKind kind r s)
  | .block L => blockWork ls L s

/-- Several things in a free order: each next one is drawn from those left. `fuel` is their number. -/
def runTasks (ls : LinkState) (fuel : Nat) (ts : List Task) (s : State) : State :=
  match fuel with
  | 0 => s
  | fuel + 1 =>
    match ts with
    | [] => s
    | [t] => runTask ls t s
    | t :: t' :: rest =>
      let i := s.nextOrder (t :: t' :: rest).length
      runTasks ls fuel ((t :: t' :: rest).eraseIdx i)
        (runTask ls ((t :: t' :: rest).getD i t) s.drawn)

/-- Some of the things still to be taken, none to all, are taken here in a free order: a draw names the
next one, or leaves the rest for later (R91, R159). `fuel` is their number. -/
def takeSome (ls : LinkState) (fuel : Nat) (p : Pass) : Pass :=
  match fuel with
  | 0 => p
  | fuel + 1 =>
    match p.late with
    | [] => p
    | t :: rest =>
      let i := p.state.nextOrder (rest.length + 2)
      if i ≤ rest.length then
        takeSome ls fuel
          { state := runTask ls ((t :: rest).getD i t) p.state.drawn, late := (t :: rest).eraseIdx i }
      else { p with state := p.state.drawn }

/-- Does this frame's sample of a line do more than move its timers? (R130, R131) -/
def lineActs (limit : Nat) (s : State) (l : LineId) : Bool :=
  let s1 := debounceLine l s
  let p := s.pedal l
  (decide (Config.debounceFrames ≤ p.debounce + 1) && p.level != some (rawLevel s.pedalPins l))
    || stuckDue (s1.pedal l).timed limit

/-- Is a line judged stuck in this frame with its gateway enabled? Such a line may be taken among the
voices (R91, R131). -/
def lineRaises (limit : Nat) (s : State) (l : LineId) : Bool :=
  let s1 := debounceLine l s
  stuckDue (s1.pedal l).timed limit && (s.gateway (lineGateway l)).enabled

/-- The lines that raise PEDAL_STUCK in this frame, to be taken from its beginning. -/
def raisingLines (limit : Nat) (s : State) : List Task :=
  (allLines.filter (lineRaises limit s)).map fun l => .pedal l limit

/-- The lines that raise nothing in this frame, taken at its end. -/
def quietLines (limit : Nat) (s : State) : List LineId :=
  allLines.filter fun l => !lineRaises limit s l

/-- The end of a frame: everything left of it, in a free order. Lines that only move their timers, with
nothing else left, are taken in order: no order shows there. -/
def finishFrame (ls : LinkState) (limit : Nat) (lines : List LineId) (p : Pass) : State :=
  if p.late = [] ∧ (lines.filter (lineActs limit p.state)).length ≤ 1 then
    lines.foldl (fun s l => pedalWork limit l s) p.state
  else
    let ts := p.late ++ lines.map fun l => .pedal l limit
    runTasks ls ts.length ts p.state

/-- The block work of a frame whose count is 63 mod 64 (R18, R37). -/
def blockTasks (s : State) : List Task :=
  if isBlockEnd s.ltu.count then [.block .a, .block .b] else []

/-! ### The audio of a frame (R9, steps 3 to 5) -/

/-- The voices' work in a free order, with the occurrences of the frame among it: before each voice some
of the things still to be taken may be taken, and the next voice is drawn. A fall end's ENTRY_SKIPPED
joins what is to be taken (R91, R93, R107). `fuel` is the number of voices, `ys` their samples. -/
def voicesDrawn (ls : LinkState) (fuel : Nat) (vs : List VoiceId) (ys : List Int) (p : Pass) :
    Pass × List Int :=
  match fuel with
  | 0 => (p, ys)
  | fuel + 1 =>
    match vs with
    | [] => (p, ys)
    | v :: rest =>
      let q := takeSome ls p.late.length p
      let i := q.state.nextOrder (v :: rest).length
      let w := (v :: rest).getD i v
      let r := voiceWork w q.state.drawn
      voicesDrawn ls fuel ((v :: rest).eraseIdx i) (ys.set w.val r.sample)
        (Pass.add { q with state := r.state }
          (r.skipped.toList.map fun L => .occurrence .entrySkipped (.lead L)))

/-- The work of the eight voices in one frame. With no occurrence in the frame no order shows, and they
work V0 to V7; else in a free order, with the occurrences among them (R91, R107). -/
def voicesFrame (ls : LinkState) (p : Pass) : Pass × List Int :=
  let q := voicesWork allVoices p.state
  if p.late = [] ∧ q.skipped = [] then ({ p with state := q.state }, q.samples)
  else voicesDrawn ls 8 allVoices (List.replicate 8 0) p

/-- The claimed slots and voice samples of one frame. -/
structure Mix where
  pass : Pass
  claims : List (Option (Fin 24))
  samples : List Int

/-- The OUTPUT_CLIP of a frame processed in LOCKED with saturated slots: the voices that name one of them,
and the lowest of them (R109). The voices are read after their work in the frame (DESIGN CHOICE: a slot taken in
it is named already; log entry 26). -/
def clipTask (ls : LinkState) (s : State) (clipped : List (Fin 24)) : List Task :=
  match clipped with
  | [] => []
  | k :: _ => if ls = .locked then [.occurrence .outputClip (.voices (voicesOn s clipped) k)] else []

/-- Histories, voices and mixer of one processed frame. Saturation in LOCKED raises OUTPUT_CLIP once
(R9, R15, R107 to R109). The claims are read before the voices' work, so a slot taken at the end of a fall joins
the set, and the old one leaves it, from the next frame on. R92 and R98 say so of an assign and of a voice gone
OFF; R93 names no frame (DESIGN CHOICE; log entry 26). -/
def audioFrame (ls : LinkState) (xa xb : Int) (p : Pass) : Mix :=
  let s1 := appendSamples xa xb p.state
  let cs := claims s1
  let r := voicesFrame ls { p with state := s1 }
  { pass := r.1.add (clipTask ls r.1.state (clippedSlots cs r.2)), claims := cs, samples := r.2 }

/-! ### The outgoing frame (R8 to R13) -/

/-- What a claimed slot carries, by the link state the frame is processed in (R8). -/
def claimedSample (ls : LinkState) (cs : List (Option (Fin 24))) (ys : List Int) (k : Fin 24) : Int :=
  if ls = .locked then saturate (slotSum cs ys k) else 0

/-- The outgoing bytes of a slot: as received, or the claimed sample (R8, R10). -/
def outSlot (ls : LinkState) (bytes : List Byte) (cs : List (Option (Fin 24))) (ys : List Int)
    (k : Fin 24) : List Byte :=
  if claimed cs k then sampleBytes (claimedSample ls cs ys k) else slotBytes bytes k.val

/-- The outgoing bytes before the check: sync word, count and unclaimed slots as received, claimed slots,
lane (R10, R11). -/
def outBody (ls : LinkState) (bytes : List Byte) (cs : List (Option (Fin 24))) (ys : List Int)
    (lane : List Byte) : List Byte :=
  bytes.take 6 ++ allSlots.flatMap (outSlot ls bytes cs ys) ++ lane

/-- A check inverted in all sixteen bits (R13). -/
def poisoned (c : Word16) : Word16 := ~~~c

/-- The outgoing frame: with the correct check, or poisoned (R12, R13). -/
def outFrame (good : Bool) (body : List Byte) : List Byte :=
  let c := crc (body.drop 2)
  body ++ checkBytes (if good then c else poisoned c)

/-! ### The Link Timing Unit at a frame (R18, R22 to R25, R30) -/

/-- The ticks since the start of the frame in hand, as the receiver noted it, within the tick counter's
range (R20; log entry 8). -/
def noticedTicks (r : Receiver) : Nat := min 2047 (r.sinceStart.getD 0)

/-- The record on entry to RELOCKING, but for the count (R20, R22, R30). -/
def Ltu.relocking (u : Ltu) (ticks : Nat) : Ltu :=
  { u with link := .relocking, tick := ticks, goodRun := 0, badRun := 0 }

/-- The record after a good frame in a running state, but for the count (R23, R24). -/
def Ltu.afterGood (u : Ltu) (inOrder : Bool) : Ltu :=
  match u.link with
  | .relocking =>
    if inOrder then
      if Config.lockRun ≤ u.goodRun + 1 then
        { u with link := .locked, goodRun := Config.lockRun, badRun := 0 }
      else { u with goodRun := u.goodRun + 1, badRun := 0 }
    else { u with goodRun := 0, badRun := 0 }
  | .locked => { u with badRun := 0 }
  | .seeking => u
  | .holdover => u

/-- The record after a bad frame in a running state, but for the count (R23, R24). -/
def Ltu.afterBad (u : Ltu) : Ltu :=
  { u with goodRun := match u.link with
             | .relocking => 0
             | .seeking => u.goodRun
             | .locked => u.goodRun
             | .holdover => u.goodRun
           badRun := u.badRun + 1 }

/-- Does a good frame of count `c` show a slip? In lock by any difference from held + 1; at a relock by a
signed serial difference of more than 4 from it (R24, R30). -/
def slips (u : Ltu) (c : Word32) : Bool :=
  match u.link with
  | .locked => decide (c ≠ u.count + 1)
  | .holdover => decide (4 < (serialDiff (u.count + 1) c).natAbs)
  | .seeking => false
  | .relocking => false

/-- The Link Timing Unit takes a good frame of count `c`: state, runs and count; LINK_SLIP is raised where
it slips (R18, R22 to R24, R30). -/
def ltuGood (c : Word32) (p : Pass) : Pass :=
  let s := p.state
  let u := s.ltu
  let u1 := match u.link with
    | .seeking => u.relocking (noticedTicks s.receiver)
    | .holdover => u.relocking (noticedTicks s.receiver)
    | .relocking => u.afterGood (decide (c = u.count + 1))
    | .locked => u.afterGood (decide (c = u.count + 1))
  let s1 := adoptCount c { s with ltu := u1 }
  Pass.add { p with state := s1 } (if slips u c then [.occurrence .linkSlip .device] else [])

/-- The Link Timing Unit takes a bad frame in a running state: FRAME_CHECK and the expected count (R3,
R18, R23 to R25). -/
def ltuBad (p : Pass) : Pass :=
  let s := p.state
  Pass.add { p with state := adoptCount (s.ltu.count + 1) { s with ltu := s.ltu.afterBad } }
    [.occurrence .frameCheck .device]

/-! ### Frames -/

/-- The out lane of a good frame, and the acceptance of the request, if any, that the frame completes. The
request is answered as a thing to be taken once the frame has left; a discarded one leaves its REQUEST_DROP
to be taken. A message relayed in such a frame counts before or after the request's execution; in another
frame it counts at once (R9, R165, R172, R176, R185; log entries 11, 14). -/
def sendAndAccept (raw : List Byte) (wasCut : Bool) (request : Option (Byte × Req)) (p : Pass) :
    Pass × List Task :=
  let r := sendLane (decodeLane raw) raw wasCut p.state
  match request with
  | none => ({ p with state := r.counted }, [])
  | some q =>
    let a := acceptRequest q.2 r.state
    let p := Pass.add { p with state := a.1 } (if r.relayed then [.relayed] else [])
    if a.2 then (p, [.request q.1 q.2])
    else (p.add [.occurrence .requestDrop .none], [])

/-- Does a completed request take a place of the outbound queue for its reply? (R176) -/
def reserves (request : Option (Byte × Req)) : Bool :=
  match request with
  | some q => !q.2.broadcast
  | none => false

/-- The audio and the out lane of a good frame. A reservation stands before every notice of its frame
(R185), so the lane of a frame that completes a request for a reply is served first; else some of the
frame's occurrences may be taken before it. -/
def audioAndLane (ls : LinkState) (xs : Int × Int) (lane : Pass → Pass × List Task) (first : Bool)
    (p : Pass) : Mix × List Task :=
  if first then
    let a := lane p
    (audioFrame ls xs.1 xs.2 a.1, a.2)
  else
    let m := audioFrame ls xs.1 xs.2 p
    let a := lane (takeSome ls m.pass.late.length m.pass)
    ({ m with pass := a.1 }, a.2)

/-- The samples a good frame gives the two leads (R4). -/
def leadSamples (s : State) (bytes : List Byte) : Int × Int :=
  (slotSample bytes s.config.slotA.val,
    match s.config.slotB with
    | some k => slotSample bytes k.val
    | none => 0)

/-- The samples a bad frame gives the two leads in a running state: each lead's previous sample, and 0 for
lead B while its slot is absent (R5; log entry 25). -/
def heldSamples (s : State) : Int × Int :=
  (lastSample s.leadA.history,
    match s.config.slotB with
    | some _ => lastSample s.leadB.history
    | none => 0)

/-- A good frame, whole (R9, R16). -/
def goodFrame (bytes : List Byte) (s : State) : State :=
  let limit := s.config.stuckLimit
  let raw := laneBytes bytes
  let p := ltuGood (frameCount bytes) { state := s, late := [] }
  let ls := p.state.ltu.link
  let r := assemble (decodeLane raw) p.state
  let m := audioAndLane ls (leadSamples s bytes)
    (sendAndAccept raw (decide (p.state.sender = .cut)) r.request) (reserves r.request)
    { state := r.state, late := p.late ++ occurrences r.raised ++ raisingLines limit p.state }
  let t := m.1.pass.state
  let out := outFrame true (outBody ls bytes m.1.claims m.1.samples t.laneOut)
  finishFrame ls limit (quietLines limit p.state)
    { state := { t with linkOut := some out }, late := m.1.pass.late ++ m.2 ++ blockTasks t }

/-- A bad frame in RELOCKING or LOCKED, whole: its lane is a gap at the buffer and IDLE at the output, and
on the eighth in a row the loss is declared when its processing is complete (R3, R5, R9, R11, R13, R14,
R25, R26, R168). -/
def badFrame (bytes : List Byte) (s : State) : State :=
  let limit := s.config.stuckLimit
  let ls := s.ltu.link
  let xs := heldSamples s
  let p := ltuBad { state := s, late := [] }
  let g := gapFrame p.state
  let m := audioFrame ls xs.1 xs.2
    { state := g.1
      late := p.late ++ occurrences (if g.2 then [.ctrlRunon] else []) ++ raisingLines limit p.state }
  let t := m.pass.state
  let out := outFrame false (outBody ls bytes m.claims m.samples idleLane)
  let u := finishFrame ls limit (quietLines limit p.state)
    { state := { t with linkOut := some out }, late := m.pass.late ++ blockTasks t }
  if Config.lossRun ≤ p.state.ltu.badRun then declareLoss u else u

/-- A bad frame in SEEKING or HOLDOVER: FRAME_CHECK, and passed on poisoned with claimed slots 0 and an
IDLE lane; it is not processed (R16). -/
def passBadFrame (bytes : List Byte) (s : State) : State :=
  let out := outFrame false (outBody s.ltu.link bytes (claims s) [] idleLane)
  { raise .frameCheck .device s with linkOut := some out }

/-- The last byte of a frame arrives (R1, R3, R9, R16): the receiver goes on expecting frame starts, and
its note of this frame's start has served. Bytes that are no frame are discarded. -/
def arriveFrame (bytes : List Byte) (pins : PedalPins) (s : State) : State :=
  if isFrame bytes then
    let s1 := { s with pedalPins := pins }
    let s2 :=
      if frameGood bytes then goodFrame bytes s1
      else if s.ltu.link.running then badFrame bytes s1
      else passBadFrame bytes s1
    { s2 with receiver := { framed := true, sinceStart := none } }
  else s

/-- The rest of a phantom frame once its count is adopted: samples of 0, no frame out, no lane (R15, R21);
its event is counted. -/
def phantomWork (s : State) : State :=
  let limit := s.config.stuckLimit
  let ls := s.ltu.link
  let s1 := countEvent .phantom s
  let m := audioFrame ls 0 0 { state := s1, late := raisingLines limit s1 }
  let t := m.pass.state
  finishFrame ls limit (quietLines limit s1)
    { state := { t with linkOut := none }, late := m.pass.late ++ blockTasks t }

/-- A phantom frame in SEEKING or HOLDOVER: held count + 1, tick counter 0 (R18, R20, R21). -/
def phantomFrame (s : State) : State :=
  phantomWork (adoptCount (s.ltu.count + 1) { s with ltu := { s.ltu with tick := 0 } })

/-- A loss by silence: a frame started but not whole is discarded, held count + 4, the declaration with
tick counter 0, then the phantom frame (R18, R26, R28). -/
def silenceLoss (s : State) : State :=
  let s1 := adoptCount (s.ltu.count + 4)
    { s with receiver := { s.receiver with sinceStart := none } }
  phantomWork (declareLoss { s1 with ltu := { s1.ltu with tick := 0 } })

/-! ### Local ticks (R20) -/

/-- The receiver's note after some ticks, kept within the tick counter's range (R20; log entry 8). -/
def Receiver.after (r : Receiver) (ticks : Nat) : Receiver :=
  { r with sinceStart := r.sinceStart.map fun n => min 2047 (n + ticks) }

/-- One tick of the local crystal: the tick counter, and the phantom frame or the loss it brings (R20,
R21, R26). While RESET_N is low nothing counts (R17). -/
def localTick (s : State) : State :=
  if s.resetLow then s
  else
    let s1 := { s with receiver := s.receiver.after 1 }
    if s.ltu.link.running then
      if Config.silenceTicks ≤ s.ltu.tick + 1 then silenceLoss s1
      else { s1 with ltu := { s1.ltu with tick := s1.ltu.tick + 1 } }
    else if Config.ticksPerFrame ≤ s.ltu.tick + 1 then phantomFrame s1
    else { s1 with ltu := { s1.ltu with tick := s1.ltu.tick + 1 } }

/-! ### The receiver (R1, R20) -/

/-- A recognised frame start: in RELOCKING and LOCKED it sets the tick counter to 0 (R1, R20). -/
def startFrame (s : State) : State :=
  { s with
    receiver := { framed := true, sinceStart := some 0 }
    ltu := if s.ltu.link.running then { s.ltu with tick := 0 } else s.ltu }

/-- The receiver loses its footing and searches afresh; what it had of a frame is discarded (R1). -/
def loseSync (s : State) : State :=
  { s with receiver := { framed := false, sinceStart := none } }

end Sys2Proof.Machine
end

