-- ==== Sys2Proof/Machine/Events.lean ====
section
/-! DEFINITION. The meanings of the rows that are events: resets, the receiver, frames, and the events that
a frame takes by itself and that a command can take alone (log entries 6, 9, 10). -/

namespace Sys2Proof.Machine

/-- A command's effect, answered as the next state. While RESET_N is held low the device does nothing
(R16, R17; log entry 9). -/
def whenReleased (s t : State) : Host.Outcome State Fault Refusal :=
  .next (if s.resetLow then s else t)

/-! ### Resets and the receiver -/

/-- POWER_ON_RESET (R17, R166): RESET_N is released; every block is at its power-on values. -/
def execPowerOnReset (straps : BitVec 6) (s : State) : Host.Outcome State Fault Refusal :=
  .next (powerOn straps s)

/-- RESET_N_HELD_LOW (R16, R17): the device stops until POWER_ON_RESET; no frame leaves. -/
def execResetNHeldLow (s : State) : Host.Outcome State Fault Refusal :=
  .next { s with resetLow := true, linkOut := none }

/-- FRAME_START (R1, R20). -/
def execFrameStart (s : State) : Host.Outcome State Fault Refusal :=
  whenReleased s (startFrame s)

/-- SYNC_SEARCH (R1). -/
def execSyncSearch (s : State) : Host.Outcome State Fault Refusal :=
  whenReleased s (loseSync s)

/-! ### Frames and the link -/

/-- FRAME_ARRIVAL (R9, R16). -/
def execFrameArrival (bytes : List Byte) (pins : PedalPins) (s : State) :
    Host.Outcome State Fault Refusal :=
  whenReleased s (arriveFrame bytes pins s)

/-- The good run reaches 16: RELOCKING becomes LOCKED (R23). -/
def achieveLock (s : State) : State :=
  if s.ltu.link = .relocking ∧ Config.lockRun ≤ s.ltu.goodRun + 1 then
    { s with ltu := { s.ltu with link := .locked, goodRun := Config.lockRun } }
  else s

/-- LOCK_ACHIEVED (R23): the good run stands one short of 16 in RELOCKING, and reaches it. -/
def execLockAchieved (s : State) : Host.Outcome State Fault Refusal :=
  whenReleased s (achieveLock s)

/-- The bad run reaches 8 in a running state: the link is lost (R26). -/
def loseByBadFrames (s : State) : State :=
  if s.ltu.link.running ∧ Config.lossRun ≤ s.ltu.badRun + 1 then declareLoss s else s

/-- LOSS_BY_BAD_FRAMES (R26): the bad run stands one short of 8, and reaches it. -/
def execLossByBadFrames (s : State) : Host.Outcome State Fault Refusal :=
  whenReleased s (loseByBadFrames s)

/-- LOSS_BY_SILENCE (R26): in a running state the tick counter runs on to 2,048 with no frame start. -/
def execLossBySilence (pins : PedalPins) (s : State) : Host.Outcome State Fault Refusal :=
  whenReleased s
    (if s.ltu.link.running then silenceLoss { s with pedalPins := pins } else s)

/-- PHANTOM_FRAME (R21): in SEEKING or HOLDOVER the tick counter runs on to 512, and the receiver's note
of a frame start with it (R20). -/
def execPhantomFrame (pins : PedalPins) (s : State) : Host.Outcome State Fault Refusal :=
  whenReleased s
    (if s.ltu.link.running then s
     else phantomFrame
      { s with pedalPins := pins
               receiver := s.receiver.after (Config.ticksPerFrame - s.ltu.tick) })

/-! ### Voice events -/

/-- The frame with crossfade index 31 is over: the second head becomes the main head (R103). -/
def endCrossfade (v : VoiceId) (s : State) : State :=
  match (s.voice v).crossfade with
  | some c => if 31 ≤ c.index then s.setVoice v (s.voice v).crossfadeDone else s
  | none => s

/-- CROSSFADE_END (R103). -/
def execCrossfadeEnd (v : VoiceId) (s : State) : Host.Outcome State Fault Refusal :=
  whenReleased s (endCrossfade v s)

/-- A RISING voice's envelope reaches 4,096 by its next step: SOUNDING (R97). -/
def endRise (v : VoiceId) (s : State) : State :=
  if (s.voice v).state = .rising
      ∧ Config.fullEnvelope ≤ (s.voice v).envelope + (s.voice v).increment then
    s.setVoice v (s.voice v).riseDone
  else s

/-- RISE_END (R97). -/
def execRiseEnd (v : VoiceId) (s : State) : Host.Outcome State Fault Refusal :=
  whenReleased s (endRise v s)

/-- A FALLING voice's envelope reaches 0 by its next step: the fall ends (R97, R98). -/
def finishFall (v : VoiceId) (s : State) : State :=
  if (s.voice v).state = .falling ∧ (s.voice v).envelope ≤ (s.voice v).increment then
    endFallNow v s
  else s

/-- FALL_END (R98). -/
def execFallEnd (v : VoiceId) (s : State) : Host.Outcome State Fault Refusal :=
  whenReleased s (finishFall v s)

/-! ### Cue events -/

/-- The level a line changes to from a debounced level. -/
def PedalLevel.flip : PedalLevel → PedalLevel
  | .released => .pressed
  | .pressed => .released

/-- A line whose debounce timer stands one short of 384 reaches it: the level changes and the edge is
reported (R130). -/
def reachDebounce (l : LineId) (s : State) : State :=
  match (s.pedal l).level with
  | some level =>
    if Config.debounceFrames ≤ (s.pedal l).debounce + 1 then pedalEdge l level.flip s else s
  | none => s

/-- PEDAL_EDGE (R130). -/
def execPedalEdge (l : LineId) (s : State) : Host.Outcome State Fault Refusal :=
  whenReleased s (reachDebounce l s)

/-- A line whose stuck timer's next step reaches the limit is judged (R131). -/
def reachStuck (l : LineId) (s : State) : State :=
  if stuckDue (s.pedal l).timed s.config.stuckLimit then
    judgeStuck l (s.setPedal l (s.pedal l).timed)
  else s

/-- PEDAL_STUCK_JUDGEMENT (R131). -/
def execPedalStuckJudgement (l : LineId) (s : State) : Host.Outcome State Fault Refusal :=
  whenReleased s (reachStuck l s)

/-- The entry at a place of the queue becomes due when the held count is its due count; the hand-off
follows (R140, R141). -/
def markDue (k : Nat) (s : State) : State :=
  match s.timed[k]? with
  | some e =>
    if e.mark = false ∧ e.due = s.ltu.count then
      handOff e.lead { s with timed := s.timed.set k { e with mark := true } }
    else s
  | none => s

/-- TIMED_CUE_DUE (R140). -/
def execTimedCueDue (k : Fin 16) (s : State) : Host.Outcome State Fault Refusal :=
  whenReleased s (markDue k.val s)

/-- TIMED_HANDOFF (R141). -/
def execTimedHandoff (L : Lead) (s : State) : Host.Outcome State Fault Refusal :=
  whenReleased s (handOff L s)

/-! ### Block work -/

/-- Both leads' block work at a count that is a block end, either lead first (R37). -/
def takeBlockEnd (s : State) : State :=
  if isBlockEnd s.ltu.count then runTasks s.ltu.link 2 [.block .a, .block .b] s else s

/-- BLOCK_END (R37). -/
def execBlockEnd (s : State) : Host.Outcome State Fault Refusal :=
  whenReleased s (takeBlockEnd s)

/-! ### Lane events -/

/-- The gap count reaches 9: the message under assembly is abandoned with CTRL_RUNON (R169). -/
def reachGapLimit (s : State) : State :=
  match s.assembly with
  | some a =>
    if s.ltu.link.running ∧ Config.gapLimit ≤ a.gap + 1 then raise .ctrlRunon .none (abandon s)
    else s
  | none => s

/-- GAP_LIMIT (R169). -/
def execGapLimit (s : State) : Host.Outcome State Fault Refusal :=
  whenReleased s (reachGapLimit s)

/-- The out lane is given to the relay FIFO's head, or goes on with it (R172). -/
def sendFromFifo (s : State) : State :=
  if s.ltu.link.running then
    match s.sender with
    | .none => if s.fifo = [] then s else (sendFifo 0 s).counted
    | .fifo k => (sendFifo k s).counted
    | .cut => s
    | .queue _ => s
  else s

/-- FIFO_SEND (R172): one lane frame of the relay FIFO's head. -/
def execFifoSend (s : State) : Host.Outcome State Fault Refusal :=
  whenReleased s (sendFromFifo s)

/-- The out lane is given to the outbound queue's head, behind the FIFO, or goes on with it (R172). -/
def sendFromQueue (s : State) : State :=
  if s.ltu.link.running then
    match s.sender with
    | .none => if s.fifo = [] ∧ s.outq ≠ [] then sendQueue 0 s else s
    | .queue k => sendQueue k s
    | .cut => s
    | .fifo _ => s
  else s

/-- QUEUE_SEND (R172): one lane frame of the outbound queue's head. -/
def execQueueSend (s : State) : Host.Outcome State Fault Refusal :=
  whenReleased s (sendFromQueue s)

end Sys2Proof.Machine
end

