-- ==== Sys2Proof/Machine/RequestRows.lean ====
section
/-! DEFINITION. The meanings of the rows that are requests: each is a message accepted for this node and
taken whole in the frame of its LAST (R176; log entry 7). -/

namespace Sys2Proof.Machine

/-- UNKNOWN_REQUEST (R176): answered UNKNOWN. A kind byte that does name a request is no unknown request,
and nothing happens. -/
def execUnknownRequest (kind : Byte) (r : Req) (s : State) : Host.Outcome State Fault Refusal :=
  whenReleased s
    (match kindOfByte kind with
      | none => takeRequest (fun _ s => answer .unknown s) r s
      | some _ => s)

/-- IDENTIFY (R177, R176). -/
def execIdentify (r : Req) (s : State) : Host.Outcome State Fault Refusal :=
  whenReleased s (takeRequest (checked .identify actIdentify) r s)

/-- READ_CAP (R177, R176). -/
def execReadCap (r : Req) (s : State) : Host.Outcome State Fault Refusal :=
  whenReleased s (takeRequest (checked .readCap actReadCap) r s)

/-- CONFIGURE (R178, R176). -/
def execConfigure (r : Req) (s : State) : Host.Outcome State Fault Refusal :=
  whenReleased s (takeRequest (checked .configure actConfigure) r s)

/-- READ_CONFIG (R179, R176). -/
def execReadConfig (r : Req) (s : State) : Host.Outcome State Fault Refusal :=
  whenReleased s (takeRequest (checked .readConfig actReadConfig) r s)

/-- LOAD_BEGIN (R180, R176). -/
def execLoadBegin (r : Req) (s : State) : Host.Outcome State Fault Refusal :=
  whenReleased s (takeRequest (checked .loadBegin actLoadBegin) r s)

/-- LOAD_DATA (R180, R176). -/
def execLoadData (r : Req) (s : State) : Host.Outcome State Fault Refusal :=
  whenReleased s (takeRequest (checked .loadData actLoadData) r s)

/-- LOAD_COMMIT (R181, R176). -/
def execLoadCommit (r : Req) (s : State) : Host.Outcome State Fault Refusal :=
  whenReleased s (takeRequest (checked .loadCommit actLoadCommit) r s)

/-- LOAD_ABORT (R180, R176). -/
def execLoadAbort (r : Req) (s : State) : Host.Outcome State Fault Refusal :=
  whenReleased s (takeRequest (checked .loadAbort actLoadAbort) r s)

/-- READ_TABLE (R182, R176). -/
def execReadTable (r : Req) (s : State) : Host.Outcome State Fault Refusal :=
  whenReleased s (takeRequest (checked .readTable actReadTable) r s)

/-- CUE_NOW (R138, R176). -/
def execCueNow (r : Req) (s : State) : Host.Outcome State Fault Refusal :=
  whenReleased s (takeRequest (checked .cueNow actCueNow) r s)

/-- CUE_AT (R142, R176). -/
def execCueAt (r : Req) (s : State) : Host.Outcome State Fault Refusal :=
  whenReleased s (takeRequest (checked .cueAt actCueAt) r s)

/-- CUE_FLUSH (R144, R176). -/
def execCueFlush (r : Req) (s : State) : Host.Outcome State Fault Refusal :=
  whenReleased s (takeRequest (checked .cueFlush actCueFlush) r s)

/-- GATEWAY_SET (R137, R176). -/
def execGatewaySet (r : Req) (s : State) : Host.Outcome State Fault Refusal :=
  whenReleased s (takeRequest (checked .gatewaySet actGatewaySet) r s)

/-- PORT_SET (R145, R176). -/
def execPortSet (r : Req) (s : State) : Host.Outcome State Fault Refusal :=
  whenReleased s (takeRequest (checked .portSet actPortSet) r s)

/-- READ_STATE (R183, R176). -/
def execReadState (r : Req) (s : State) : Host.Outcome State Fault Refusal :=
  whenReleased s (takeRequest (checked .readState actReadState) r s)

/-- READ_FAULTS (R160, R176). -/
def execReadFaults (r : Req) (s : State) : Host.Outcome State Fault Refusal :=
  whenReleased s (takeRequest (checked .readFaults actReadFaults) r s)

/-- FAULT_CLEAR (R157, R176). -/
def execFaultClear (r : Req) (s : State) : Host.Outcome State Fault Refusal :=
  whenReleased s (takeRequest (checked .faultClear actFaultClear) r s)

/-- FAULT_SETUP (R158, R176). -/
def execFaultSetup (r : Req) (s : State) : Host.Outcome State Fault Refusal :=
  whenReleased s (takeRequest (checked .faultSetup actFaultSetup) r s)

/-- COUNTER_SETUP (R164, R176). -/
def execCounterSetup (r : Req) (s : State) : Host.Outcome State Fault Refusal :=
  whenReleased s (takeRequest (checked .counterSetup actCounterSetup) r s)

/-- READ_COUNTERS (R165, R176). -/
def execReadCounters (r : Req) (s : State) : Host.Outcome State Fault Refusal :=
  whenReleased s (takeRequest (checked .readCounters actReadCounters) r s)

/-- ENGINE_RESET (R184, R176). -/
def execEngineReset (r : Req) (s : State) : Host.Outcome State Fault Refusal :=
  whenReleased s (takeRequest (checked .engineReset actEngineReset) r s)

end Sys2Proof.Machine
end

