-- ==== Sys2Proof/Machine/Dispatch.lean ====
section
/-! DEFINITION. Dispatch: one arm per row of the opcode table. -/

namespace Sys2Proof.Machine

def exec (i : Instr) (s : State) : Host.Outcome State Fault Refusal :=
  match i with
  | .powerOnReset straps => Sys2Proof.Machine.execPowerOnReset straps s
  | .frameStart => Sys2Proof.Machine.execFrameStart s
  | .frameArrival bytes pins => Sys2Proof.Machine.execFrameArrival bytes pins s
  | .lockAchieved => Sys2Proof.Machine.execLockAchieved s
  | .lossByBadFrames => Sys2Proof.Machine.execLossByBadFrames s
  | .lossBySilence pins => Sys2Proof.Machine.execLossBySilence pins s
  | .phantomFrame pins => Sys2Proof.Machine.execPhantomFrame pins s
  | .crossfadeEnd v => Sys2Proof.Machine.execCrossfadeEnd v s
  | .riseEnd v => Sys2Proof.Machine.execRiseEnd v s
  | .fallEnd v => Sys2Proof.Machine.execFallEnd v s
  | .pedalEdge l => Sys2Proof.Machine.execPedalEdge l s
  | .pedalStuckJudgement l => Sys2Proof.Machine.execPedalStuckJudgement l s
  | .timedCueDue k => Sys2Proof.Machine.execTimedCueDue k s
  | .timedHandoff lead => Sys2Proof.Machine.execTimedHandoff lead s
  | .blockEnd => Sys2Proof.Machine.execBlockEnd s
  | .gapLimit => Sys2Proof.Machine.execGapLimit s
  | .fifoSend => Sys2Proof.Machine.execFifoSend s
  | .queueSend => Sys2Proof.Machine.execQueueSend s
  | .unknownRequest kind r => Sys2Proof.Machine.execUnknownRequest kind r s
  | .identify r => Sys2Proof.Machine.execIdentify r s
  | .readCap r => Sys2Proof.Machine.execReadCap r s
  | .configure r => Sys2Proof.Machine.execConfigure r s
  | .readConfig r => Sys2Proof.Machine.execReadConfig r s
  | .loadBegin r => Sys2Proof.Machine.execLoadBegin r s
  | .loadData r => Sys2Proof.Machine.execLoadData r s
  | .loadCommit r => Sys2Proof.Machine.execLoadCommit r s
  | .loadAbort r => Sys2Proof.Machine.execLoadAbort r s
  | .readTable r => Sys2Proof.Machine.execReadTable r s
  | .cueNow r => Sys2Proof.Machine.execCueNow r s
  | .cueAt r => Sys2Proof.Machine.execCueAt r s
  | .cueFlush r => Sys2Proof.Machine.execCueFlush r s
  | .gatewaySet r => Sys2Proof.Machine.execGatewaySet r s
  | .portSet r => Sys2Proof.Machine.execPortSet r s
  | .readState r => Sys2Proof.Machine.execReadState r s
  | .readFaults r => Sys2Proof.Machine.execReadFaults r s
  | .faultClear r => Sys2Proof.Machine.execFaultClear r s
  | .faultSetup r => Sys2Proof.Machine.execFaultSetup r s
  | .counterSetup r => Sys2Proof.Machine.execCounterSetup r s
  | .readCounters r => Sys2Proof.Machine.execReadCounters r s
  | .engineReset r => Sys2Proof.Machine.execEngineReset r s
  | .resetNHeldLow => Sys2Proof.Machine.execResetNHeldLow s
  | .syncSearch => Sys2Proof.Machine.execSyncSearch s

end Sys2Proof.Machine
end

