-- ==== Sys2Proof/Safety.lean ====
section
/-! DEFINITION. What a safe run is: the laws of the OH-428's state that every step keeps, and the terms in
which the statements speak of answers, losses and messages on the lane. -/

namespace Sys2Proof.Safety

open Sys2Proof.Machine

/-! ### Answers -/

/-- A request that is answered: the device is out of reset, the request is no broadcast, and the outbound
queue has room for its reply and holds no reservation of another (R175, R176). -/
def Answerable (r : Req) (s : State) : Prop :=
  s.resetLow = false ∧ r.broadcast = false ∧ s.outq.length < 8 ∧ OutItem.reservation ∉ s.outq

/-- The state `s` with one accepted message counted and a reply of this status and body at the queue's
tail (R163, R175, R176, R190). -/
def answered (r : Req) (st : Status) (body : List Byte) (s : State) : State :=
  { s with
    counters := s.counters.map fun c =>
      if c.selector = 10 ∧ c.inhibit = false then { c with count := c.count + 1 } else c
    outq := s.outq ++
      [.reply { dest := r.source, source := s.nodeAddr, kind := statusByte st, tag := r.tag, body := body }] }

/-- `t` holds the node address, configuration, tables, open load and thresholds that `s` holds. -/
def StandsAs (s t : State) : Prop :=
  t.nodeAddr = s.nodeAddr ∧ t.config = s.config ∧ t.tuning = s.tuning ∧ t.maps = s.maps
    ∧ t.scenes = s.scenes ∧ t.load = s.load ∧ t.thresholdA = s.thresholdA ∧ t.thresholdB = s.thresholdB

/-- Each counter that selects the code has counted one event of it from `s` to `t`, but where the request
executed is a COUNTER_SETUP (R162, R164). -/
def CountedAs (code : Nat) (kind : Option ReqKind) (s t : State) : Prop :=
  kind ≠ some .counterSetup →
    ∀ i : Fin 4, (s.counters[i]).selector = code → t.counters[i] = (s.counters[i]).after code

/-- A counter after `n` events of the code it selects, mod 2³² (R162). -/
def countedTimes (c : Counter) (n : Nat) : Counter :=
  if c.inhibit then c else { c with count := c.count + BitVec.ofNat 32 n }

/-- Each counter that selects the code has counted `n` events of it from `s` to `t` (R162). -/
def CountsTimes (code n : Nat) (s t : State) : Prop :=
  ∀ i : Fin 4, (s.counters[i]).selector = code → t.counters[i] = countedTimes s.counters[i] n

/-- The state as a request finds it when it executes: its message counted, and a reservation at the
queue's tail (R163, R175, R176). -/
def reserved (s : State) : State :=
  { s with counters := s.counters.map fun c => c.after 10, outq := s.outq ++ [.reservation] }

/-- The state `u` with the reply of this status in the place at which the queue of `s` ended (R175, R176,
R190). -/
def repliedIn (r : Req) (st : Status) (s u : State) : State :=
  { u with outq := u.outq.set s.outq.length (.reply
      { dest := r.source, source := s.nodeAddr, kind := statusByte st, tag := r.tag, body := [] }) }

/-! ### Occurrences -/

/-- Is a voice in the scope of an occurrence? (R151) -/
def voiceInScope (sc : Scope) (s : State) (v : VoiceId) : Bool :=
  match sc with
  | .none => false
  | .device => decide ((s.voice v).state ≠ .off)
  | .lead L => decide ((s.voice v).owner = some L)
  | .voices vs _ => decide (v ∈ vs)

/-- The scope item of a notice: a lead's code, a slot, or FF hexadecimal where there is none (R190). -/
def scopeItemByte (sc : Scope) : Byte :=
  match sc with
  | .none => 0xFF
  | .device => 0xFF
  | .lead .a => 0
  | .lead .b => 1
  | .voices _ slot => BitVec.ofNat 8 slot.val

/-! ### The lane -/

/-- The lane state a loss leaves (R27). -/
def LaneCleared (s : State) : Prop := s.assembly = none ∧ s.sender = .none ∧ s.fifo = []

/-- A relay mode as a START frame chooses it (R171). -/
def chosenMode (s : State) : RelayMode :=
  if 2 ≤ s.fifo.length then .drop
  else if s.sender = .none ∧ s.fifo = [] then .cut
  else .capture

/-- A route as a START frame's destination byte chooses it (R171). -/
def chosenRoute (s : State) (dest : Byte) : Route :=
  if dest = s.nodeAddr then .consume
  else if dest = 63#8 then .consumeAndRelay (chosenMode s)
  else .relay (chosenMode s)

/-- What abandonment leaves of assembly and sender (R169). -/
def abandoned (s : State) : State :=
  { s with assembly := none, sender := if s.sender = .cut then .none else s.sender }

/-- The lane frames in which the device sends a message, from byte `sent` on; `fuel` bounds them (R172). -/
def lanePieces (fuel : Nat) (bytes : List Byte) (sent : Nat) : List (List Byte) :=
  match fuel with
  | 0 => []
  | fuel + 1 =>
    match nextPiece bytes sent with
    | (piece, none) => [piece]
    | (piece, some k) => piece :: lanePieces fuel bytes k

/-- A run of good lane frames at the assembly buffer: the state left, every fault kind raised, and the
last request completed (R168). -/
def receiveLanes : List (List Byte) → State → LaneResult
  | [], s => { state := s, raised := [], request := none }
  | lane :: rest, s =>
    let r := assemble (decodeLane lane) s
    let q := receiveLanes rest r.state
    { state := q.state, raised := r.raised ++ q.raised
      request := match q.request with
        | some x => some x
        | none => r.request }

/-- The lane of a good frame carries the relay FIFO's head from byte `k` on; `u` holds the lane's records
behind assembly. With its LAST the message leaves (R172, R174). -/
def FifoServed (k : Nat) (u t : State) : Prop :=
  ∀ m rest, u.fifo = m :: rest →
    let piece := nextPiece m k
    t.laneOut = piece.1
    ∧ (∀ j, piece.2 = some j → t.sender = .fifo j ∧ t.fifo = u.fifo)
    ∧ (piece.2 = none → t.sender = .none ∧ t.fifo = rest)

/-- The lane of a good frame carries the outbound queue's head from byte `k` on, as the queue stood before
the frame. With its LAST the message leaves; what the frame adds stands behind, and a `silent` frame adds
nothing (R172, R175). -/
def QueueServed (silent : Prop) (k : Nat) (s u t : State) : Prop :=
  ∀ item rest bytes, s.outq = item :: rest → item.bytes = some bytes →
    let piece := nextPiece bytes k
    let holds := fun q => ∃ new, t.outq = q ++ new ∧ (silent → new = [])
    t.laneOut = piece.1 ∧ t.fifo = u.fifo
    ∧ (∀ j, piece.2 = some j → t.sender = .queue j ∧ holds s.outq)
    ∧ (piece.2 = none → t.sender = .none ∧ holds rest)

/-- The lane of a good frame goes on with a cut-through message: what arrives is copied, a gap leaves IDLE,
its LAST frees the lane; abandoned in this frame, it leaves IDLE and a free lane (R169, R173). -/
def CutServed (lane : LaneIn) (raw : List Byte) (u t : State) : Prop :=
  t.fifo = u.fifo
  ∧ (u.sender ≠ .cut → t.laneOut = List.replicate 8 0 ∧ t.sender = .none)
  ∧ (u.sender = .cut → match lane with
    | .idle => t.laneOut = List.replicate 8 0 ∧ t.sender = .cut
    | .start _ => t.laneOut = raw ∧ t.sender = .cut
    | .more _ => t.laneOut = raw ∧ t.sender = .cut
    | .last _ => t.laneOut = raw ∧ t.sender = .none)

/-- A good frame relays a message: the LAST of one cut through, or of the relay FIFO's head (R173, R174). -/
def RelaysMessage (lane : LaneIn) (s u : State) : Prop :=
  (s.sender = .cut ∧ u.sender = .cut ∧ ∃ m, lane = .last m)
    ∨ ∃ k m rest, s.sender = .fifo k ∧ u.fifo = m :: rest ∧ (nextPiece m k).2 = none

/-- The out lane of a good frame from `s` to `t`; `u` holds the lane's records behind assembly and `request`
is what the frame completes. First a START that begins a cut-through; else the message that holds the lane;
else, on a free lane, the FIFO's head, the outbound queue's head, or IDLE (R169, R172 to R175). With nothing
to send, a notice of the frame itself may be sent at once, but for a frame that completes a request for a
reply (log entry 11). -/
def OutLane (silent : Prop) (lane : LaneIn) (raw : List Byte) (request : Option (Byte × Req))
    (s u t : State) : Prop :=
  let begins := (∃ m, lane = .start m)
    ∧ ∃ a, u.assembly = some a ∧ (a.route = .relay .cut ∨ a.route = .consumeAndRelay .cut)
  let kind := request.bind fun q => kindOfByte q.1
  (begins → t.laneOut = raw ∧ t.sender = .cut ∧ t.fifo = u.fifo)
  ∧ (¬begins →
    (s.sender = .none →
      FifoServed 0 u t
      ∧ (u.fifo = [] → QueueServed silent 0 s u t
        ∧ (s.outq = [] → t.fifo = u.fifo ∧
          ((t.laneOut = List.replicate 8 0 ∧ t.sender = .none)
          ∨ (¬silent ∧ (∀ q, request = some q → q.2.broadcast = true)
            ∧ ∃ m rest, t.outq = .notice m :: rest
              ∧ t.laneOut = (nextPiece (messageBytes m) 0).1
              ∧ some t.sender = (nextPiece (messageBytes m) 0).2.map Sender.queue)))))
    ∧ (∀ k, s.sender = .fifo k → FifoServed k u t)
    ∧ (∀ k, s.sender = .queue k → QueueServed silent k s u t)
    ∧ (s.sender = .cut → s.assembly ≠ none → CutServed lane raw u t))
  ∧ (begins ∨ s.sender = .cut ∨ (∃ k, s.sender = .fifo k) ∨ (s.sender = .none ∧ u.fifo ≠ []) →
    s.outq <+: t.outq)
  ∧ (RelaysMessage lane s u → CountedAs 11 kind s t)
  ∧ (¬RelaysMessage lane s u → kind ≠ some .counterSetup →
    ∀ i : Fin 4, (s.counters[i]).selector = 11 → t.counters[i] = s.counters[i])

/-! ### Block work -/

/-- The evaluation of a history under a lead's scene (R38 to R45). -/
def evaluationOf (s : State) (L : Lead) (h : List Int) : Evaluation :=
  let p := s.params L
  evaluate (meanAbs h) (diffSums h) p.gate p.threshold p.tolerance

/-- The lead's estimate after the evaluation of a history (R46). -/
def estimateOf (s : State) (L : Lead) (h : List Int) : Nat :=
  if (evaluationOf s L h).voiced then (evaluationOf s L h).period else (s.lead L).estimate

/-- The note decision on the evaluation of a history, under a lead's scene and note (R60 to R65). -/
def decisionOf (s : State) (L : Lead) (h : List Int) : Decision :=
  let x := s.lead L
  let p := s.params L
  decideNote (s.rows L) p.hysteresis p.hold x.note x.unvoicedCount (evaluationOf s L h).voiced
    (estimateOf s L h)

/-- A lead's record `c` after the block work on the history `h`: the evaluation of `h` and the note decision
on it, under the lead's scene and note as they stand in `s` (R37 to R46, R60 to R65). -/
def Judged (s : State) (L : Lead) (h : List Int) (c : LeadChannel) : Prop :=
  let e := evaluationOf s L h
  let d := decisionOf s L h
  c.history = h ∧ c.voiced = e.voiced ∧ c.confidence = e.confidence ∧ c.estimate = estimateOf s L h
    ∧ c.splicePeriod = (if e.voiced then (e.period + 8) / 16 else (s.lead L).splicePeriod)
    ∧ c.note = d.note ∧ c.unvoicedCount = d.count

/-- The events of both leads' evaluations and decisions on the histories `h`: a voiced block by lead, a note
change by lead, and unmatched blocks of either (R48, R68, R163). -/
def JudgementsCounted (h : Lead → List Int) (s t : State) : Prop :=
  let e := fun L => evaluationOf s L (h L)
  let d := fun L => decisionOf s L (h L)
  CountsTimes 1 (e .a).voiced.toNat s t ∧ CountsTimes 2 (e .b).voiced.toNat s t
    ∧ CountsTimes 3 (d .a).changed.toNat s t ∧ CountsTimes 4 (d .b).changed.toNat s t
    ∧ CountsTimes 5 ((d .a).unmatched.toNat + (d .b).unmatched.toNat) s t

/-- A lead's history with the sample a frame gives it (R35). -/
def withSample (xs : Int × Int) (s : State) (L : Lead) : List Int :=
  ((match L with | .a => xs.1 | .b => xs.2) :: (s.lead L).history).take 2048

/-- The leads after a processed frame from `s` to `t` that gives them the samples `xs`: at a block end the
block work on the history with its new sample, with its events; else nothing but the history and frozen notes
changes, and no such event is counted (R9, R18, R21, R35, R37, R48, R68). -/
def LeadsJudged (xs : Int × Int) (s t : State) : Prop :=
  let h := withSample xs s
  (t.ltu.count.toNat % 64 = 63 → (∀ L, Judged s L (h L) (t.lead L)) ∧ JudgementsCounted h s t)
  ∧ (t.ltu.count.toNat % 64 ≠ 63 →
    (∀ L, t.lead L = { s.lead L with history := h L, frozen := (t.lead L).frozen })
    ∧ ∀ code, 1 ≤ code → code ≤ 5 → CountsTimes code 0 s t)

/-- The state `t` is `u` after both leads' block work, either lead first, but for the pedal lines and the free
orders drawn (R37). -/
def BlockWorkDone (ls : LinkState) (u t : State) : Prop :=
  ∃ L L' : Lead, L ≠ L'
    ∧ t = { blockWork ls L' (blockWork ls L u) with pedals := t.pedals, draws := t.draws }

/-- The timed cue queue and the gateways after a processed frame from `s` to `t` off a block end: the timed
ones as the held count's change and its hand-off leave them, a line's gateway as its line's work does, the
immediate ones as they were (R131, R135, R136, R138, R140, R141). -/
def CuesMoved (pins : PedalPins) (s t : State) : Prop :=
  t.ltu.count.toNat % 64 ≠ 63 →
    let u := adoptCount t.ltu.count s
    t.timed = u.timed ∧ t.gateway 6 = u.gateway 6 ∧ t.gateway 7 = u.gateway 7
    ∧ t.gateway 4 = s.gateway 4 ∧ t.gateway 5 = s.gateway 5
    ∧ ∀ l, t.gateway (lineGateway l) =
      (pedalWork s.config.stuckLimit l { s with pedalPins := pins }).gateway (lineGateway l)

/-- An occurrence of kind `k` with scope DEVICE in a frame from `s` to `t` off a block end, at severity MUTE and
a clear-to-set transition: every voice that is not OFF is muted by it, and an OFF voice stays as it is (R99,
R151, R154). Told for voices that a frame cannot take OFF. -/
def DeviceMuted (k : FaultKind) (s t : State) : Prop :=
  (s.fault k).severity = .mute → (s.fault k).status = false → (s.fault k).detectMask = false →
    t.ltu.count.toNat % 64 ≠ 63 → ∀ v,
      ((s.voice v).state = .off → t.voice v = s.voice v)
      ∧ ((s.voice v).state ≠ .off → (s.voice v).state ≠ .falling → (s.voice v).releaseMark = false →
        (s.voice v).pendingPart = none → k ∈ (t.voice v).faults)

/-! ### Record layouts (11, Table records) -/

/-- A tuning table lies in these bytes: the row count, and each row in five bytes, note, lo and hi (R189). -/
def TuningLaid (bs : List Byte) (rows : List TuningRow) : Prop :=
  let b := fun i => (byteAt bs i).toNat
  bs.length = 1 + 5 * rows.length ∧ b 0 = rows.length
    ∧ ∀ (j : Nat) (_ : j < rows.length), rows[j] =
      { note := b (1 + 5 * j)
        lo := b (2 + 5 * j) * 256 + b (3 + 5 * j)
        hi := b (4 + 5 * j) * 256 + b (5 + 5 * j) }

/-- The conditions of an installed tuning table, as chapter 04 words them (R54, R55). -/
def TuningInstalled (rows : List TuningRow) : Prop :=
  rows.length ≤ 64
    ∧ (∀ r ∈ rows, r.note ≤ 127 ∧ 640 ≤ r.lo ∧ r.lo ≤ r.hi ∧ r.hi ≤ 10240)
    ∧ rows.Pairwise fun r r' => r.note < r'.note ∧ r'.hi < r.lo

/-- The voice entry that five bytes of a scene record say, before any clamp; none for a voice, column or
slot out of range (R112). -/
def EntryLaid (bs : List Byte) (i : Nat) (e : SceneEntry) : Prop :=
  let b := fun i => (byteAt bs i).toNat
  b i = e.voice.val * 16 + e.part.column.val ∧ b (i + 1) = e.part.slot.val ∧ b (i + 2) = e.part.level
    ∧ (BitVec.ofNat 16 (b (i + 3) * 256 + b (i + 4))).toInt = e.part.detune

/-- A scene record lies in these bytes, with no field clamped but the fade length code. In byte 1 the
presence of the map is bit 2, of the key bit 1 and of the next scene bit 0 (log entry 21). -/
def SceneLaid (bs : List Byte) (c : Scene) : Prop :=
  let b := fun i => (byteAt bs i).toNat
  let f := fun i => (byteAt bs 1).getLsbD i
  bs.length = 16 + 5 * c.entries.length ∧ b 0 = c.entries.length ∧ b 2 = c.tuning.val
    ∧ c.map.map Fin.val = (if f 2 then some (b 3) else none)
    ∧ c.key.map Fin.val = (if f 1 then some (b 4) else none)
    ∧ c.next.map Fin.val = (if f 0 then some (b 15) else none)
    ∧ c.fade = (match b 1 / 16 % 8 with | 0 => 256 | 1 => 512 | 2 => 1024 | 3 => 2048 | _ => 4096)
    ∧ c.gate = (b 5 * 256 + b 6) * 256 + b 7
    ∧ c.threshold = b 8 ∧ c.tolerance = b 9 ∧ c.hysteresis = b 10 ∧ c.hold = b 11
    ∧ c.weight = b 12 ∧ c.glide = b 13 * 256 + b 14
    ∧ ∀ (j : Nat) (_ : j < c.entries.length), EntryLaid bs (16 + 5 * j) c.entries[j]

/-- A scene record with its musical fields clamped as they are stored (R112). -/
def sceneClamped (c : Scene) : Scene :=
  { c with gate := max 1 (min 8388607 c.gate), weight := min 16 c.weight, glide := min 4096 c.glide
           entries := c.entries.map fun e =>
             { e with part := { e.part with level := min 128 e.part.level
                                            detune := max (-256) (min 256 e.part.detune) } } }

/-- A load buffer that is no scene record: its length, a field out of range, or a voice named twice
(R112). -/
def SceneRefused (bs : List Byte) : Prop :=
  let b := fun i => (byteAt bs i).toNat
  let f := fun i => (byteAt bs 1).getLsbD i
  bs.length < 16 ∨ 4 < b 0 ∨ bs.length ≠ 16 + 5 * b 0
    ∨ 2 ≤ b 2 ∨ (f 2 = true ∧ 16 ≤ b 3) ∨ (f 1 = true ∧ 12 ≤ b 4) ∨ (f 0 = true ∧ 32 ≤ b 15)
    ∨ ∃ j < b 0, 8 ≤ b (16 + 5 * j) / 16 ∨ 4 ≤ b (16 + 5 * j) % 16 ∨ 24 ≤ b (17 + 5 * j)
      ∨ ∃ k < j, b (16 + 5 * k) / 16 = b (16 + 5 * j) / 16

/-- A scene record as it is returned: fields as they stand, an absent field's value byte 0, and no bit set
that the layout leaves unnamed (R189). -/
def SceneReturned (bs : List Byte) (c : Scene) : Prop :=
  SceneLaid bs c ∧ (byteAt bs 1).toNat < 80 ∧ (byteAt bs 1).getLsbD 3 = false
    ∧ (c.map = none → byteAt bs 3 = 0) ∧ (c.key = none → byteAt bs 4 = 0)
    ∧ (c.next = none → byteAt bs 15 = 0)

/-- The configuration block of READ_CONFIG: each field in its byte, absent values 0 (R179, R188, R189). -/
def ConfigLaid (bs : List Byte) (c : ConfigRecord) : Prop :=
  let b := fun i => (byteAt bs i).toNat
  bs.length = 10
    ∧ b 0 = (if c.slotB.isSome then 1 else 0) + (if c.startA.isSome then 2 else 0)
      + (if c.startB.isSome then 4 else 0)
    ∧ b 1 = c.slotA.val ∧ b 2 = (c.slotB.map Fin.val).getD 0
    ∧ b 3 = (match c.lossAction with | .holdover => 0 | .engine => 1)
    ∧ b 4 = (match c.latePolicy with | .apply => 0 | .drop => 1)
    ∧ b 5 * 256 + b 6 = c.lateWindow ∧ b 7 = c.stuckLimit
    ∧ b 8 = (c.startA.map Fin.val).getD 0 ∧ b 9 = (c.startB.map Fin.val).getD 0

/-! ### Rounding and the mixer's sums -/

/-- `q` is the quotient `n / d` rounded to the nearest integer, halves away from zero (00_scope.md,
Numbers), for `d > 0`. -/
def Rounded (q n d : Int) : Prop :=
  2 * (q * d - n).natAbs ≤ d.natAbs
    ∧ (2 * (q * d - n).natAbs = d.natAbs → n.natAbs < (q * d).natAbs)

/-- No occurrence but OUTPUT_CLIP can mute a voice: a kind of severity MUTE is masked or already set (R152,
R154). -/
def NoMuteDue (s : State) : Prop :=
  ∀ k, k ≠ .outputClip → (s.fault k).severity = .mute →
    (s.fault k).status = true ∨ (s.fault k).detectMask = true

/-- The voice sample of a frame that gives the leads the samples `xs`, when no mute reaches the voice before
its work; 0 for a voice that does not run (R101 to R107). -/
def voiceSample (s : State) (xs : Int × Int) (v : VoiceId) : Int :=
  match (s.voice v).runs, (s.voice v).owner with
  | true, some L =>
    ((s.voice v).frame
      (((match L with | .a => xs.1 | .b => xs.2) :: (s.lead L).history).take 2048)
      (s.lead L).splicePeriod).2.1
  | _, _ => 0

/-- The record of a voice after a frame that gives the leads the samples `xs`, when no mute reaches it
(R107). -/
def voiceAfter (s : State) (xs : Int × Int) (v : VoiceId) : Voice :=
  let fed : State :=
    { s with leadA := { s.leadA with history := (xs.1 :: s.leadA.history).take 2048 }
             leadB := { s.leadB with history := (xs.2 :: s.leadB.history).take 2048 } }
  (voiceWork v fed).state.voice v

/-- The exact sum of a slot: the samples of the voices that claim it (R7, R108). -/
def slotTotal (s : State) (xs : Int × Int) (k : Fin 24) : Int :=
  ((allVoices.filter fun v => (s.voice v).claims == some k).map (voiceSample s xs)).sum

/-- A claimed slot whose exact sum lies outside the sample range (R108). -/
def Clips (s : State) (xs : Int × Int) (k : Fin 24) : Prop :=
  claimed (claims s) k = true ∧ (slotTotal s xs k < -8388608 ∨ 8388607 < slotTotal s xs k)

/-- OUTPUT_CLIP of one frame from `s` to `t`, processed in link state `ls` (R109, R151, R154, R155): set when
a claimed slot saturates in LOCKED, unless masked; and, at a clear-to-set transition off a block end, at
severity MUTE the voices muted are those that claim a saturated slot after the frame's voice work, and the
notice, where the other kinds report nothing, names the lowest saturated slot. For a slot taken at the end of a
fall in that work it is the model's choice (log entry 26). -/
def ClipRaised (ls : LinkState) (xs : Int × Int) (s t : State) : Prop :=
  ((t.fault .outputClip).status = true ↔ (s.fault .outputClip).status = true
      ∨ ((s.fault .outputClip).detectMask = false ∧ ls = .locked ∧ ∃ k, Clips s xs k))
    ∧ (ls = .locked → (s.fault .outputClip).status = false → (s.fault .outputClip).detectMask = false →
      t.ltu.count.toNat % 64 ≠ 63 →
      ((s.fault .outputClip).severity = .mute → (∀ v, .outputClip ∉ (s.voice v).faults) →
        ∀ v, .outputClip ∈ (t.voice v).faults ↔ ∃ k, Clips s xs k ∧ (t.voice v).claims = some k)
      ∧ ((∀ k, (s.fault k).reportMask = decide (k ≠ .outputClip)) → s.outq = [] → s.sender = .none →
        ∀ k, Clips s xs k → (∀ j, j < k → ¬Clips s xs j) →
          t.outq = [.notice { dest := 0, source := s.nodeAddr, kind := 0x60, tag := 0
                              body := [12, BitVec.ofNat 8 k.val] ++ bytes4 t.ltu.count }]))

/-! ### Pedal lines -/

/-- The level a pin reads as: low as PRESSED (R130). -/
def pinLevel (high : Bool) : PedalLevel := if high then .released else .pressed

/-- A line's record after a processed frame, by the stuck limit in seconds and its pin (R130 to R132; log
entry 20 for a line with no level yet). The level follows the pin at the first sample and in the 384th frame
that differs; then the stuck timer moves, and the mark is cleared by a release and set when the timer stands
at the limit. -/
def pedalAfter (limit : Nat) (high : Bool) (p : PedalLine) : PedalLine :=
  let level :=
    match p.level with
    | none => pinLevel high
    | some l => if 384 ≤ p.debounce + 1 then pinLevel high else l
  let stuck := if level = .pressed then min 5760000 (p.stuck + 1) else 0
  let released := decide (p.level = some .pressed ∧ level = .released)
  { level := some level
    debounce := if level = pinLevel high then 0 else p.debounce + 1
    stuck := stuck
    stuckMark := (p.stuckMark && !released) || decide (level = .pressed ∧ limit * 48000 ≤ stuck) }

/-- A line's level changes in this frame, with an edge (R130, R132). -/
def PedalEdges (high : Bool) (p : PedalLine) : Prop :=
  ∃ l, p.level = some l ∧ l ≠ pinLevel high ∧ 384 ≤ p.debounce + 1

/-- A line is judged stuck in this frame (R131). -/
def PedalJudged (limit : Nat) (high : Bool) (p : PedalLine) : Prop :=
  p.stuckMark = false ∧ (pedalAfter limit high p).stuckMark = true

/-- No line has an edge or a stuck judgement in this frame (R130, R131). -/
def QuietLines (pins : PedalPins) (s : State) : Prop :=
  ∀ l : LineId, (s.pedal l).level = some (pinLevel pins[l])
    ∧ ¬PedalJudged s.config.stuckLimit pins[l] (s.pedal l)

/-! ### Loss by silence -/

/-- What a loss by silence leaves (R18, R20, R21, R26 to R29): the Link Timing Unit in HOLDOVER with the count
four on, the lane cleared, the outbound queue's messages kept in their order, LINK_LOSS set unless masked, and
CTRL_RUNON too where a message was under assembly, no frame out, one sample of 0 in each history, after the
reset that a loss action ENGINE makes, a frame started but not whole discarded, and configuration, tables,
thresholds and lane bytes as they were. Its phantom frame is counted, and where nothing was reset it does the
work of such a frame: leads, pedal lines, timed cues, and LINK_LOSS with scope DEVICE. -/
def SilenceLost (pins : PedalPins) (s t : State) : Prop :=
  t.ltu = { link := .holdover, count := s.ltu.count + 4, tick := 0, goodRun := 0, badRun := 0 }
    ∧ t.receiver = { s.receiver with sinceStart := none }
    ∧ LaneCleared t ∧ s.outq <+: t.outq ∧ t.linkOut = none
    ∧ ((s.fault .linkLoss).detectMask = false → (t.fault .linkLoss).status = true)
    ∧ (s.assembly ≠ none → (s.fault .ctrlRunon).detectMask = false → (t.fault .ctrlRunon).status = true)
    ∧ (∀ L, (t.lead L).history = ((0 : Int) :: (match s.config.lossAction with
        | .holdover => (s.lead L).history
        | .engine => List.replicate 2048 0)).take 2048)
    ∧ t.config = s.config ∧ t.tuning = s.tuning ∧ t.maps = s.maps ∧ t.scenes = s.scenes
    ∧ t.thresholdA = s.thresholdA ∧ t.thresholdB = s.thresholdB ∧ t.laneOut = s.laneOut
    ∧ CountsTimes 12 1 s t
    ∧ (s.config.lossAction = .holdover → t.load = s.load
      ∧ LeadsJudged (0, 0) s t ∧ CuesMoved pins s t ∧ DeviceMuted .linkLoss s t
      ∧ ∀ l, t.pedal l = pedalAfter s.config.stuckLimit pins[l] (s.pedal l))

/-! ### Scene application -/

/-- The record of a voice gone OFF (R90, R98). -/
def goneRecord (x : Voice) : Voice :=
  { x with state := .off, owner := none, part := none, pendingPart := none, releaseMark := false
           envelope := 0, crossfade := none, faults := [] }

/-- What SCENE(n) makes of the voices its lead owns that the scene does not list: the left column of R116,
by R95 and R98. A fall from envelope 0 ends in the same event. -/
def ReleasedByScene (L : Lead) (n : Fin 32) (s t : State) : Prop :=
  ∀ v : VoiceId, (s.voice v).owner = some L → (∀ e ∈ s.scenes[n].entries, e.voice ≠ v) →
    let x := s.voice v
    let inc := 4096 / s.scenes[n].fade
    let fresh := ∀ M, (t.lead M).frozen[v] = none
    let same := ∀ M, (t.lead M).frozen[v] = (s.lead M).frozen[v]
    (x.state = .idle ∨ x.state = .muted → t.voice v = goneRecord x ∧ fresh)
    ∧ (x.state = .rising ∨ x.state = .sounding →
      (x.envelope ≠ 0 → same ∧ t.voice v =
        { x with state := .falling, dest := .off, releaseMark := true, pendingPart := none
                 increment := inc })
      ∧ (x.envelope = 0 → t.voice v = goneRecord { x with dest := .off, increment := inc } ∧ fresh))
    ∧ (x.state = .falling → same ∧ t.voice v =
      { x with dest := if x.faults = [] then .off else x.dest, releaseMark := true, pendingPart := none })

/-- What SCENE(n) makes of the voices its lead owns that the scene lists: the right column of R116, by R93,
R95 and R98. A voice that takes its entry in this event goes OFF where the slot is a lead input slot. -/
def ReassignedByScene (L : Lead) (n : Fin 32) (s t : State) : Prop :=
  ∀ e ∈ s.scenes[n].entries, (s.voice e.voice).owner = some L →
    let x := s.voice e.voice
    let inc := 4096 / s.scenes[n].fade
    let fresh := ∀ M, (t.lead M).frozen[e.voice] = none
    let same := ∀ M, (t.lead M).frozen[e.voice] = (s.lead M).frozen[e.voice]
    let taken := fun y : Voice =>
      if s.isLeadSlot e.part.slot = true then goneRecord y
      else { y with state := if x.faults = [] then .idle else .muted
                    part := some e.part, pendingPart := none }
    (x.state = .idle ∨ x.state = .muted → t.voice e.voice = taken x ∧ fresh)
    ∧ (x.state = .rising ∨ x.state = .sounding →
      (x.envelope ≠ 0 → same ∧ t.voice e.voice =
        { x with state := .falling, dest := .reassign, releaseMark := false, pendingPart := some e.part
                 increment := inc })
      ∧ (x.envelope = 0 → fresh ∧ t.voice e.voice = taken
        { x with dest := .reassign, releaseMark := false, increment := inc, crossfade := none }))
    ∧ (x.state = .falling → same ∧ t.voice e.voice =
      { x with dest := if x.faults = [] then .reassign else x.dest, releaseMark := false
               pendingPart := some e.part })

/-- What SCENE(n) makes of the voices its lead does not own: a listed OFF voice is assigned unless its slot
is a lead input slot, and every other one stays as it is (R92, R117). -/
def AssignedByScene (L : Lead) (n : Fin 32) (s t : State) : Prop :=
  ∀ v : VoiceId, (s.voice v).owner ≠ some L →
    let x := s.voice v
    (∀ e ∈ s.scenes[n].entries, e.voice = v → x.state = .off → s.isLeadSlot e.part.slot = false →
      (∀ M, (t.lead M).frozen[v] = none)
      ∧ t.voice v =
        { x with state := .idle, owner := some L, part := some e.part, pendingPart := none
                 releaseMark := false, envelope := 0, crossfade := none, faults := [] })
    ∧ ((∀ e ∈ s.scenes[n].entries, e.voice = v → x.state ≠ .off ∨ s.isLeadSlot e.part.slot = true) →
      (∀ M, (t.lead M).frozen[v] = (s.lead M).frozen[v]) ∧ t.voice v = x)

/-- What SCENE(n) makes of the eight voices when its ENTRY_SKIPPED mutes none (R116, R117). -/
def SceneVoices (L : Lead) (n : Fin 32) (s t : State) : Prop :=
  ReleasedByScene L n s t ∧ ReassignedByScene L n s t ∧ AssignedByScene L n s t

/-- SCENE(n) skips an entry: of a voice of another owner that is not OFF or whose slot is a lead input slot,
or, by a slot clash, of a voice of the lead that was to take it at once (R117, R118). -/
def SkipsEntry (L : Lead) (n : Fin 32) (s : State) : Prop :=
  ∃ e ∈ s.scenes[n].entries,
    let x := s.voice e.voice
    (x.owner ≠ some L ∧ (x.state ≠ .off ∨ s.isLeadSlot e.part.slot = true))
      ∨ (x.owner = some L ∧ (x.state = .idle ∨ x.state = .muted) ∧ s.isLeadSlot e.part.slot = true)

/-- A slot clash at the end of a fall that SCENE(n) starts at envelope 0: an ENTRY_SKIPPED of its own (R93,
R95). -/
def ClashesAtZero (L : Lead) (n : Fin 32) (s : State) : Prop :=
  ∃ e ∈ s.scenes[n].entries,
    let x := s.voice e.voice
    x.owner = some L ∧ (x.state = .rising ∨ x.state = .sounding) ∧ x.envelope = 0
      ∧ s.isLeadSlot e.part.slot = true

/-- An ENTRY_SKIPPED would mute voices: unmasked, clear, and of severity MUTE (R152, R154). -/
def SkipMutes (s : State) : Prop :=
  (s.fault .entrySkipped).detectMask = false ∧ (s.fault .entrySkipped).status = false
    ∧ (s.fault .entrySkipped).severity = .mute

/-! ### The laws every step keeps -/

/-- A running voice's heads stay within the history (R105): the main head checked in every frame lies
within 99 (not reached) to 1,024 samples; in a crossfade at index `i` each head has moved for `i − 1`
frames, by at most 3 samples down or 0.75 up a frame, from where the splice found or put it. -/
def HeadOk (x : Voice) : Prop :=
  match x.crossfade with
  | none => 99 * 16384 < x.distance ∧ x.distance ≤ 1024 * 16384
  | some c =>
    1 ≤ c.index ∧ c.index ≤ 31
      ∧ 96 * 16384 - 49152 * ((c.index : Int) - 1) < x.distance
      ∧ x.distance ≤ 1024 * 16384 + 12288 * (c.index : Int)
      ∧ 192 * 16384 - 49152 * ((c.index : Int) - 1) < c.d2
      ∧ c.d2 < 960 * 16384 + 12288 * ((c.index : Int) - 1)

/-- Splice periods lie within 40..640, steps within 4,096..65,536, and running heads in bounds (R44, R46,
R81, R105). -/
def HeadsInBounds (s : State) : Prop :=
  (∀ L, 40 ≤ (s.lead L).splicePeriod ∧ (s.lead L).splicePeriod ≤ 640)
    ∧ ∀ v, 4096 ≤ (s.voice v).currentStep ∧ (s.voice v).currentStep ≤ 65536
      ∧ ((s.voice v).runs = true → HeadOk (s.voice v))

/-- The bounds of the device's queues and buffers (R139, R168, R174, R175, R180). -/
def QueuesBounded (s : State) : Prop :=
  s.outq.length ≤ 8 ∧ s.outq.countP OutItem.isNotice ≤ 7
    ∧ s.fifo.length ≤ 2 ∧ (∀ m ∈ s.fifo, messageOk m = true ∧ m.length ≤ 103)
    ∧ s.timed.length ≤ 16
    ∧ (∀ l, s.load = some l → l.buffer.length ≤ 512)
    ∧ ∀ a, s.assembly = some a → a.bytes.length ≤ 103 ∧ a.gap ≤ 8
      ∧ (a.route.mode = some .capture → s.fifo.length ≤ 1)

/-- No reply is left unformed: the outbound queue holds no reservation between steps (R175, R176). -/
def NoReservation (s : State) : Prop := OutItem.reservation ∉ s.outq

/-- The order of the timed cue queue: a due entry stands at the held count, another after it, and the
distances ahead of the held count never fall along the list (R139). -/
def TimedOrdered (s : State) : Prop :=
  (∀ e ∈ s.timed,
      if e.mark then e.due = s.ltu.count
      else 0 < ahead s.ltu.count e.due ∧ ahead s.ltu.count e.due ≤ 2147483648)
    ∧ s.timed.Pairwise fun x y => ahead s.ltu.count x.due ≤ ahead s.ltu.count y.due

/-- The Fault Unit's law: a valid pointer names a kind that is set and not detect-masked, a masked kind is
clear, a kind of scope NONE has severity NOTICE, and a voice holds a kind only while it is set (R153,
R154, R158). -/
def FaultLaw (s : State) : Prop :=
  (∀ k, s.pointer = some k → (s.fault k).status = true ∧ (s.fault k).detectMask = false)
    ∧ (∀ k, (s.fault k).detectMask = true → (s.fault k).status = false)
    ∧ (∀ k, scopeNone k = true → (s.fault k).severity = .notice)
    ∧ ∀ v, ∀ k ∈ (s.voice v).faults, (s.fault k).status = true

/-- The law of one voice record (R89, R97 to R99). -/
structure VoiceOk (x : Voice) : Prop where
  owner_iff : x.state = .off ↔ x.owner = none
  part_iff : x.part = none ↔ x.owner = none
  pending_falls : x.pendingPart ≠ none → x.state = .falling ∧ (x.dest = .reassign ∨ x.dest = .muted)
  mark_falls : x.releaseMark = true → x.state = .falling ∧ (x.dest = .off ∨ x.dest = .muted)
  mark_or_pending : x.releaseMark = true → x.pendingPart = none
  falls_off : x.state = .falling → x.dest = .off → x.releaseMark = true
  falls_reassign : x.state = .falling → x.dest = .reassign → x.pendingPart ≠ none
  falls_muted : x.state = .falling → x.dest = .muted → x.faults ≠ []
  faults_mute : x.faults ≠ [] → x.state = .muted ∨ (x.state = .falling ∧ x.dest = .muted)
  muted_faults : x.state = .muted → x.faults ≠ []
  envelope_le : x.envelope ≤ 4096
  envelope_full : x.state = .sounding → x.envelope = 4096
  envelope_zero : x.runs = false → x.envelope = 0
  crossfade_runs : x.crossfade ≠ none → x.runs = true
  faults_nodup : x.faults.Nodup
  faults_scope : ∀ k ∈ x.faults, scopeNone k = false
  increment_mem : x.increment ∈ [1, 2, 4, 8, 16]

/-- Every voice keeps its law; with it, every scene's fade length is one of the five, and kinds of scope
NONE have severity NOTICE (R89, R111, R158). -/
def VoiceLaw (s : State) : Prop :=
  (∀ v, VoiceOk (s.voice v))
    ∧ (∀ n : Fin 32, s.scenes[n].fade ∈ [256, 512, 1024, 2048, 4096])
    ∧ ∀ k, scopeNone k = true → (s.fault k).severity = .notice

/-- No slot is at the same time a lead input slot and a claimed slot (R7). -/
def LeadSlotsFree (s : State) : Prop :=
  ∀ v, (s.voice v).state ≠ .off → ∀ p, (s.voice v).part = some p → s.isLeadSlot p.slot = false

/-- A scene record within its ranges (R111). -/
def SceneOk (c : Scene) : Prop :=
  1 ≤ c.gate ∧ c.gate ≤ 8388607 ∧ c.threshold ≤ 255 ∧ c.tolerance ≤ 255 ∧ c.hysteresis ≤ 255
    ∧ c.hold ≤ 255 ∧ c.weight ≤ 16 ∧ c.glide ≤ 4096 ∧ c.fade ∈ [256, 512, 1024, 2048, 4096]
    ∧ c.entries.length ≤ 4 ∧ distinctVoices c.entries = true
    ∧ ∀ e ∈ c.entries, e.part.level ≤ 128 ∧ -256 ≤ e.part.detune ∧ e.part.detune ≤ 256

/-- A map within its ranges (R71). -/
def MapOk (m : List MapEntry) : Prop :=
  m.length = 48 ∧ ∀ i : Int, some i ∈ m → -24 ≤ i ∧ i ≤ 24

/-- A tuning table within its size and conditions (R54, R55). -/
def TuningOk (rows : List TuningRow) : Prop := rows.length ≤ 64 ∧ tuningOk rows = true

/-- The tables and the configuration record lie within their ranges (R54, R55, R71, R111, R132, R143). -/
def TablesLaw (s : State) : Prop :=
  (∀ i : Fin 2, TuningOk s.tuning[i]) ∧ (∀ i : Fin 16, MapOk s.maps[i])
    ∧ (∀ i : Fin 32, SceneOk s.scenes[i])
    ∧ s.config.lateWindow ≤ 4800 ∧ 1 ≤ s.config.stuckLimit ∧ s.config.stuckLimit ≤ 120

/-- The Link Timing Unit's law (R17, R20, R23, R24, R26). -/
def LtuLaw (s : State) : Prop :=
  s.ltu.tick ≤ 2047 ∧ s.ltu.badRun ≤ 7
    ∧ match s.ltu.link with
      | .locked => s.ltu.goodRun = 16
      | .relocking => s.ltu.goodRun ≤ 15
      | .seeking => s.ltu.goodRun = 0 ∧ s.ltu.badRun = 0
      | .holdover => s.ltu.goodRun = 0 ∧ s.ltu.badRun = 0

/-- Each history holds 2,048 samples, each within the sample range (R33, R35). -/
def HistoryLaw (s : State) : Prop :=
  ∀ L, (s.lead L).history.length = 2048
    ∧ ∀ x ∈ (s.lead L).history, -8388608 ≤ x ∧ x ≤ 8388607

/-- The Cue Unit's law: a disabled gateway holds no cue, a MOMENT gateway no release cue, priorities,
thresholds and current levels are at most 15, and pedal timers stay within their ranges (R122, R130,
R133, R137, R145). -/
def CueUnitLaw (s : State) : Prop :=
  (∀ g, ((s.gateway g).enabled = false → (s.gateway g).pending = none)
      ∧ (s.gateway g).priority ≤ 15
      ∧ ((s.gateway g).type = .moment → (s.gateway g).release = none))
    ∧ s.thresholdA ≤ 15 ∧ s.thresholdB ≤ 15
    ∧ (∀ L t, (s.lead L).transition = some t → t.level ≤ 15)
    ∧ ∀ l, (s.pedal l).debounce ≤ 383 ∧ (s.pedal l).stuck ≤ 5760000

/-- What holds of every state of a safe run. -/
structure Safe (s : State) : Prop where
  heads : HeadsInBounds s
  queues : QueuesBounded s
  replies : NoReservation s
  timed : TimedOrdered s
  faults : FaultLaw s
  voices : VoiceLaw s
  slots : LeadSlotsFree s
  tables : TablesLaw s
  link : LtuLaw s
  histories : HistoryLaw s
  cues : CueUnitLaw s

end Sys2Proof.Safety
end

