-- ==== Sys2Proof/WellFormed.lean ====
section
/-! DEFINITION. The checks a command must pass to be one that the stage link can deliver. The machine
answers every command, well formed or not; these say which ones a partner of the device can form. -/

namespace Sys2Proof

/-- A frame is 88 bytes that begin with the sync word 9C35 hexadecimal (R1). -/
abbrev frameShape (bytes : List Byte) : Bool :=
  bytes.length == 88 && bytes.take 2 == [0x9C#8, 0x35#8]

/-- A command is well formed: a frame has the frame's shape, a request's body the length its kind
requires (R187), an unknown request a kind that names none and a body a message can carry (R166). -/
abbrev WellFormed (i : Instr) : Bool :=
  match i with
  | .frameArrival bytes _ => frameShape bytes
  | .unknownRequest kind r => kindOfByte kind == none && decide (r.body.length ≤ 96)
  | .identify r => bodyLengthOk .identify r.body.length
  | .readCap r => bodyLengthOk .readCap r.body.length
  | .configure r => bodyLengthOk .configure r.body.length
  | .readConfig r => bodyLengthOk .readConfig r.body.length
  | .loadBegin r => bodyLengthOk .loadBegin r.body.length
  | .loadData r => bodyLengthOk .loadData r.body.length
  | .loadCommit r => bodyLengthOk .loadCommit r.body.length
  | .loadAbort r => bodyLengthOk .loadAbort r.body.length
  | .readTable r => bodyLengthOk .readTable r.body.length
  | .cueNow r => bodyLengthOk .cueNow r.body.length
  | .cueAt r => bodyLengthOk .cueAt r.body.length
  | .cueFlush r => bodyLengthOk .cueFlush r.body.length
  | .gatewaySet r => bodyLengthOk .gatewaySet r.body.length
  | .portSet r => bodyLengthOk .portSet r.body.length
  | .readState r => bodyLengthOk .readState r.body.length
  | .readFaults r => bodyLengthOk .readFaults r.body.length
  | .faultClear r => bodyLengthOk .faultClear r.body.length
  | .faultSetup r => bodyLengthOk .faultSetup r.body.length
  | .counterSetup r => bodyLengthOk .counterSetup r.body.length
  | .readCounters r => bodyLengthOk .readCounters r.body.length
  | .engineReset r => bodyLengthOk .engineReset r.body.length
  | .powerOnReset _ | .frameStart | .lockAchieved | .lossByBadFrames | .lossBySilence _
  | .phantomFrame _ | .crossfadeEnd _ | .riseEnd _ | .fallEnd _ | .pedalEdge _
  | .pedalStuckJudgement _ | .timedCueDue _ | .timedHandoff _ | .blockEnd | .gapLimit
  | .fifoSend | .queueSend | .resetNHeldLow | .syncSearch => true

end Sys2Proof
end

