-- ==== Sys2Proof/Certificates/Slice0/Obligations.lean ====
section
/-! DEFINITION. The statements for the provers. Each docstring names the rules a statement rests on, and
the log entry where it speaks of a choice of the model. -/

open Sys2Proof Sys2Proof.Machine Sys2Proof.Safety

/-! ### The queue of commands, resets and ticks -/

/-- A step takes the command at the front of the queue and runs exec on it with the queue's rest. -/
def Obligations.StepTakesFrontCommand : Prop :=
  ∀ (s : State) (c : Instr) (rest : List Instr), s.pending = c :: rest →
    step s = exec c { s with pending := rest }

/-- Every command answers a next state in every state; none touches the queue (for POWER_ON_RESET the
model's choice, log entry 4), only POWER_ON_RESET takes an address (R166), and only the two reset rows move
the reset pin (R17). -/
def Obligations.EveryCommandAnswers : Prop :=
  ∀ (c : Instr) (s : State), ∃ t, exec c s = .next t ∧ t.pending = s.pending
    ∧ ((∀ straps, c ≠ .powerOnReset straps) →
        t.nodeAddr = s.nodeAddr ∧ (c ≠ .resetNHeldLow → t.resetLow = s.resetLow))

/-- On an empty queue a step is one tick of the local crystal (the model's choice, log entry 2): the tick
counter moves by 1 below its limit, and in SEEKING and HOLDOVER the 512th tick makes the phantom frame that
the row PHANTOM_FRAME makes, with the held count on by 1 and the tick counter at 0. In RELOCKING and LOCKED
the tick counter reaching 2,048, by a tick as by the row LOSS_BY_SILENCE, loses the link: HOLDOVER, the
count four on, the lane cleared, LINK_LOSS set unless masked, and CTRL_RUNON with it where a message was
under assembly, no frame out, a phantom frame counted, and one sample of 0 in each history, after the reset
a loss action ENGINE makes; where nothing is reset the phantom frame does its work (R15, R18, R20, R21, R26
to R29, R151, R163). The receiver's note follows the ticks within 2,047 (log entry 8), and the row stands
for the ticks that lack, so it acts at whatever tick counter (log entry 10). -/
def Obligations.TicksMeasureSilence : Prop :=
  (∀ s : State, s.pending = [] → s.resetLow = false →
    let noted := { s.receiver with
      sinceStart := s.receiver.sinceStart.map fun n => min 2047 (n + 1) }
    (s.ltu.link.running = true → s.ltu.tick < 2047 →
      step s = .next { s with receiver := noted, ltu := { s.ltu with tick := s.ltu.tick + 1 } })
    ∧ (s.ltu.link.running = false → s.ltu.tick < 511 →
      step s = .next { s with receiver := noted, ltu := { s.ltu with tick := s.ltu.tick + 1 } })
    ∧ (s.ltu.link.running = false → s.ltu.tick = 511 →
      step s = exec (.phantomFrame s.pedalPins) s
      ∧ ∃ t, step s = .next t ∧ t.ltu = { s.ltu with count := s.ltu.count + 1, tick := 0 }))
  ∧ (∀ s : State, s.resetLow = false → s.ltu.link.running = true →
    (∀ pins, ∃ t, exec (.lossBySilence pins) s = .next t ∧ SilenceLost pins s t)
    ∧ (s.pending = [] → s.ltu.tick = 2047 → step s = exec (.lossBySilence s.pedalPins) s))

/-- POWER_ON_RESET puts every block at its power-on values and takes the address from the straps (R17, R34,
R54, R71, R90, R111, R132, R133, R139, R145, R150, R161, R166, R168, R172, R174, R175, R178, R180). It is the
state after reset, but for the address; the waiting commands stay (log entry 4). -/
def Obligations.PowerOnResetValues : Prop :=
  ∀ (straps : BitVec 6) (s : State), ∃ t, exec (.powerOnReset straps) s = .next t
    ∧ t.pending = s.pending ∧ t.resetLow = false
    ∧ t = { State.reset with pending := s.pending, pedalPins := s.pedalPins, draws := s.draws
                             nodeAddr := t.nodeAddr }
    ∧ State.reset.pending = []
    ∧ t.nodeAddr = (if straps = 0 then 1 else if straps = 63 then 62 else straps.setWidth 8)
    ∧ t.ltu = { link := .seeking, count := 0, tick := 0, goodRun := 0, badRun := 0 }
    ∧ (∀ L, t.lead L =
        { history := List.replicate 2048 0, estimate := 4096, confidence := 0, voiced := false
          splicePeriod := 256, note := .silent, unvoicedCount := 0, scene := none, map := 0, key := 0
          held := false, frozen := Vector.replicate 8 none, silenced := false, transition := none
          startFlag := true })
    ∧ (∀ v, t.voice v =
        { state := .off, owner := none, part := none, pendingPart := none, releaseMark := false
          dest := .idle, envelope := 0, increment := 4, currentStep := 16384, targetStep := 16384
          distance := 320 * 16384, crossfade := none, faults := [] })
    ∧ (∀ i : Fin 2, t.tuning[i] = []) ∧ (∀ i : Fin 16, t.maps[i] = List.replicate 48 none)
    ∧ (∀ i : Fin 32, t.scenes[i] =
        { tuning := 0, map := none, key := none, gate := 1024, threshold := 128, tolerance := 16
          hysteresis := 8, hold := 8, weight := 0, glide := 0, fade := 1024, next := none
          entries := [] })
    ∧ t.load = none
    ∧ t.config =
        { slotA := 0, slotB := some 1, lossAction := .holdover, latePolicy := .apply
          lateWindow := 480, stuckLimit := 30, startA := none, startB := none }
    ∧ (∀ l, (t.pedal l).debounce = 0 ∧ (t.pedal l).stuck = 0 ∧ (t.pedal l).stuckMark = false)
    ∧ (∀ g, (t.gateway g).enabled = decide (4 ≤ g.val) ∧ (t.gateway g).priority = 8
        ∧ (t.gateway g).pending = none
        ∧ (g.val < 4 → (t.gateway g).lead = .a ∧ (t.gateway g).type = .moment
          ∧ (t.gateway g).press = none ∧ (t.gateway g).release = none
          ∧ (t.gateway g).stuckClose = false))
    ∧ t.timed = [] ∧ t.thresholdA = 0 ∧ t.thresholdB = 0
    ∧ (∀ k, t.fault k =
        { status := false, detectMask := false, reportMask := false, severity := .notice })
    ∧ t.pointer = none
    ∧ (∀ i : Fin 4, t.counters[i] = { count := 0, selector := 0, inhibit := false })
    ∧ t.assembly = none ∧ t.fifo = [] ∧ t.outq = [] ∧ t.sender = .none

/-! ### The receiver and the link -/

/-- A recognised frame start sets the tick counter to 0 in RELOCKING and LOCKED and leaves it elsewhere; a
lost footing discards the frame in hand; the good run reaching 16 in RELOCKING locks the link; RESET_N held
low stops the device, and while it is low every command but the two reset rows, and every tick, leaves the
device as it is (R1, R16, R17, R20, R23; log entries 6, 8, 9). -/
def Obligations.ReceiverAndHeldReset : Prop :=
  (∀ link : LinkState, link.running = true ↔ link = .relocking ∨ link = .locked) ∧
  (∀ s : State,
    exec .resetNHeldLow s = .next { s with resetLow := true, linkOut := none }
    ∧ (s.resetLow = false →
      exec .frameStart s = .next
        { s with receiver := { framed := true, sinceStart := some 0 }
                 ltu := { s.ltu with tick := if s.ltu.link.running then 0 else s.ltu.tick } }
      ∧ exec .syncSearch s = .next { s with receiver := { framed := false, sinceStart := none } }
      ∧ (s.ltu.link = .relocking → s.ltu.goodRun = 15 →
        exec .lockAchieved s = .next
          { s with ltu := { s.ltu with link := .locked, goodRun := 16 } })))
  ∧ (∀ s : State, s.resetLow = true →
    (∀ c, (∀ straps, c ≠ .powerOnReset straps) → c ≠ .resetNHeldLow → exec c s = .next s)
    ∧ (s.pending = [] → step s = .next s))

/-- The bad run reaching 8 loses the link: the count is left, the lane is cleared, the outbound queue keeps
its messages, LINK_LOSS is set unless masked, CTRL_RUNON too where a message was under assembly and not
where none was, and the rest is as the loss action says. LINK_LOSS is raised with scope DEVICE and CTRL_RUNON
with scope NONE, either first, and the loss action comes behind them (R20, R26 to R29, R151, R159, R169).
That the row, commanded alone, acts with the bad run one short of 8 is the model's choice (log entry 6). -/
def Obligations.BadFramesLoseTheLink : Prop :=
  ∀ s : State, s.resetLow = false → s.ltu.link.running = true → s.ltu.badRun = 7 →
    ∃ t, exec .lossByBadFrames s = .next t
      ∧ t.ltu = { s.ltu with link := .holdover, goodRun := 0, badRun := 0 }
      ∧ LaneCleared t ∧ s.outq <+: t.outq
      ∧ ((s.fault .linkLoss).detectMask = false → (t.fault .linkLoss).status = true)
      ∧ (s.assembly ≠ none → (s.fault .ctrlRunon).detectMask = false →
        (t.fault .ctrlRunon).status = true)
      ∧ (s.assembly = none → t.fault .ctrlRunon = s.fault .ctrlRunon)
      ∧ (s.config.lossAction = .holdover →
        t = { s with ltu := t.ltu, assembly := none, sender := .none, fifo := []
                     voices := t.voices, faults := t.faults, pointer := t.pointer
                     counters := t.counters, outq := t.outq, draws := t.draws })
      ∧ (s.config.lossAction = .engine →
        t = { engineReset s with
              ltu := t.ltu, assembly := none, sender := .none, fifo := []
              faults := t.faults, pointer := t.pointer, counters := t.counters
              outq := t.outq, draws := t.draws })
      ∧ let cleared := { s with ltu := t.ltu, assembly := none, sender := .none, fifo := [] }
        let drawn := { cleared with draws := s.draws + 1 }
        let act := fun u => match s.config.lossAction with
          | .holdover => u
          | .engine => engineReset u
        (s.assembly = none → t = act (raise .linkLoss .device cleared))
        ∧ (s.assembly ≠ none →
          t = act (raise .linkLoss .device (raise .ctrlRunon .none drawn))
          ∨ t = act (raise .ctrlRunon .none (raise .linkLoss .device drawn)))

/-- A good frame leaves with its sync word, count bytes and unclaimed slots as received and a correct check;
a claimed slot carries 0 outside LOCKED, and 0 where no voice naming it runs. In LOCKED, with no mute due
before the voices' work, it carries the saturated sum of the samples of the voices that claim it, and a
frame without a LAST raises OUTPUT_CLIP when a sum saturates. On a free lane with an empty FIFO a START for
another node is passed on unchanged and cut through, and so is a MORE of a message cut through. What else
the out lane carries is LaneEvents'. The lane's assembly is taken, and every fault kind it raises is set
unless masked, told for a frame that completes no request. Where the lane carries no LAST each pedal line
takes its sample (log entry 20), and off a block end with no mute due each voice does its work of the frame.
A slot is claimed by the voices that are not OFF and name it (R7, R8, R10, R12, R106 to R109, R130, R131,
R168 to R173). The slots claimed in a frame are those before its voices' work, and the voices of an OUTPUT_CLIP
those that name a slot after it: the model's choice for a slot taken at the end of a fall (log entry 26). -/
def Obligations.GoodFrameLeaves : Prop :=
  (∀ (s : State) (k : Fin 24), claimed (claims s) k = true ↔ ∃ v, (s.voice v).claims = some k)
  ∧ (allVoices.Nodup ∧ ∀ v : VoiceId, v ∈ allVoices)
  ∧ (∀ (x : Voice) (k : Fin 24),
    x.claims = some k ↔ x.state ≠ .off ∧ ∃ p, x.part = some p ∧ p.slot = k)
  ∧ ∀ (bytes : List Byte) (pins : PedalPins) (s : State), s.resetLow = false →
    isFrame bytes = true → frameGood bytes = true →
    ∃ t out, exec (.frameArrival bytes pins) s = .next t ∧ t.linkOut = some out
      ∧ out.length = 88 ∧ frameGood out = true ∧ out.take 6 = bytes.take 6
      ∧ laneBytes out = t.laneOut
      ∧ (∀ k : Fin 24, claimed (claims s) k = false → slotBytes out k.val = slotBytes bytes k.val)
      ∧ (∀ k : Fin 24, claimed (claims s) k = true → t.ltu.link ≠ .locked →
        slotBytes out k.val = [0, 0, 0])
      ∧ (∀ k : Fin 24, claimed (claims s) k = true →
        (∀ v, (s.voice v).claims = some k → (s.voice v).runs = false) →
        slotBytes out k.val = [0, 0, 0])
      ∧ (∀ m, decodeLane (laneBytes bytes) = .start m → byteAt m 0 ≠ s.nodeAddr →
        s.assembly = none → s.sender = .none → s.fifo = [] →
        laneBytes out = laneBytes bytes ∧ t.sender = .cut)
      ∧ (∀ m a, decodeLane (laneBytes bytes) = .more m → s.assembly = some a → s.sender = .cut →
        a.bytes.length + m.length ≤ 103 → laneBytes out = laneBytes bytes ∧ t.sender = .cut)
      ∧ (NoMuteDue s →
        (t.ltu.link = .locked → ∀ k : Fin 24, claimed (claims s) k = true →
          slotBytes out k.val = sampleBytes
            (max (-8388608) (min 8388607 (slotTotal s (leadSamples s bytes) k))))
        ∧ ((byteAt bytes 78).toNat / 16 ≠ 3 → ClipRaised t.ltu.link (leadSamples s bytes) s t))
      ∧ ((byteAt bytes 78).toNat / 16 ≠ 3 →
        (∀ l, t.pedal l = pedalAfter s.config.stuckLimit pins[l] (s.pedal l))
        ∧ (NoMuteDue s → (s.fault .outputClip).severity = .notice → t.ltu.count.toNat % 64 ≠ 63 →
          ∀ v, t.voice v = voiceAfter s (leadSamples s bytes) v))
      ∧ t.assembly = (assemble (decodeLane (laneBytes bytes)) s).state.assembly
      ∧ ((assemble (decodeLane (laneBytes bytes)) s).request = none →
        ∀ k ∈ (assemble (decodeLane (laneBytes bytes)) s).raised,
          (s.fault k).detectMask = false → (t.fault k).status = true)

/-- The Link Timing Unit at a good frame, and the slip it judges: in lock any count but held + 1, at a
relock a signed serial difference of more than 4 from it (R18, R19, R22 to R25, R30). The status is told
for a frame whose lane carries no LAST, so that no request clears it in the same frame. The tick counter on
entry to RELOCKING is the receiver's note, within 2,047 and 0 without one (the model's, log entry 8).
And the timed cue queue at the count's change, in order and at a jump: who becomes due, the order that
follows, and the hand-off; off a block end and without a LAST that is all the frame does to it and to the two
timed gateways, and each line works at its own. LINK_SLIP has scope DEVICE, told by whom it mutes (R31, R131,
R135, R136, R139 to R141, R151). -/
def Obligations.GoodFrameLink : Prop :=
  (∀ (bytes : List Byte) (pins : PedalPins) (s : State), s.resetLow = false →
    isFrame bytes = true → frameGood bytes = true →
    ∃ t, exec (.frameArrival bytes pins) s = .next t
      ∧ t.ltu = (match s.ltu.link with
        | .locked => { s.ltu with count := frameCount bytes, badRun := 0 }
        | .relocking =>
          if frameCount bytes = s.ltu.count + 1 then
            if 15 ≤ s.ltu.goodRun then
              { s.ltu with link := .locked, count := frameCount bytes, goodRun := 16, badRun := 0 }
            else { s.ltu with count := frameCount bytes, goodRun := s.ltu.goodRun + 1, badRun := 0 }
          else { s.ltu with count := frameCount bytes, goodRun := 0, badRun := 0 }
        | .seeking =>
          { link := .relocking, count := frameCount bytes
            tick := min 2047 (s.receiver.sinceStart.getD 0), goodRun := 0, badRun := 0 }
        | .holdover =>
          { link := .relocking, count := frameCount bytes
            tick := min 2047 (s.receiver.sinceStart.getD 0), goodRun := 0, badRun := 0 })
      ∧ ((byteAt bytes 78).toNat / 16 ≠ 3 →
        ((t.fault .linkSlip).status = true ↔
          (s.fault .linkSlip).status = true ∨ ((s.fault .linkSlip).detectMask = false
            ∧ ((s.ltu.link = .locked ∧ frameCount bytes ≠ s.ltu.count + 1)
              ∨ (s.ltu.link = .holdover
                ∧ 4 < (serialDiff (s.ltu.count + 1) (frameCount bytes)).natAbs))))
        ∧ (((s.ltu.link = .locked ∧ frameCount bytes ≠ s.ltu.count + 1)
            ∨ (s.ltu.link = .holdover
              ∧ 4 < (serialDiff (s.ltu.count + 1) (frameCount bytes)).natAbs)) →
          DeviceMuted .linkSlip s t)
        ∧ CuesMoved pins s t))
  ∧ (∀ a b : Word32, serialDiff a b = (b - a).toInt ∧ ahead a b = (b - a).toNat
    ∧ (atOrBefore a b = true ↔ 0 ≤ serialDiff a b))
  ∧ ∀ (count : Word32) (s : State),
    let moved := { s with ltu := { s.ltu with count := count } }
    (count = s.ltu.count + 1 → adoptCount count s = handOff .b (handOff .a
      { moved with timed := s.timed.map fun e =>
          if e.mark then { e with due := count }
          else if e.due = count then { e with mark := true } else e }))
    ∧ (count ≠ s.ltu.count + 1 → ∃ rest : List TimedEntry,
      adoptCount count s = handOff .b (handOff .a
        { moved with
          timed := ((s.timed.filter fun e => e.mark || atOrBefore e.due count).map fun e =>
            { e with mark := true, due := count }) ++ rest })
      ∧ (rest.Pairwise fun x y => ahead count x.due ≤ ahead count y.due)
      ∧ ∀ d, (rest.filter fun e => e.due == d)
        = s.timed.filter fun e => !e.mark && !atOrBefore e.due count && e.due == d)

/-- A good frame whose lane carries no LAST (so that no request executes in it) gives each history the sample
of the lead's slot, lead B 0 where its slot is absent, and leaves configuration, tables, open load and
thresholds as they are. At a block end each lead's record takes the evaluation of that history and the note
decision on it, with their events counted; at another count it keeps them; no phantom frame is counted (R4, R5,
R9, R18, R21, R35, R37 to R46, R48, R60 to R65, R68, R163). In a frame with nothing else to do, the frame at a
block end does both leads' block work and no more, once the lane of the frame is chosen: the lane is IDLE, and a
notice of the block work stays queued. That block work comes behind the lane is the model's choice (log entry
13); no rule says it. -/
def Obligations.GoodFrameSamples : Prop :=
  (∀ (s : State) (bytes : List Byte), leadSamples s bytes =
    (slotSample bytes s.config.slotA.val, match s.config.slotB with
      | some k => slotSample bytes k.val
      | none => 0))
  ∧ ∀ (bytes : List Byte) (pins : PedalPins) (s : State), s.resetLow = false →
    isFrame bytes = true → frameGood bytes = true → (byteAt bytes 78).toNat / 16 ≠ 3 →
    ∃ t, exec (.frameArrival bytes pins) s = .next t
      ∧ t.leadA.history = (slotSample bytes s.config.slotA.val :: s.leadA.history).take 2048
      ∧ t.leadB.history = ((match s.config.slotB with
          | some k => slotSample bytes k.val
          | none => 0) :: s.leadB.history).take 2048
      ∧ t = { s with
        pedalPins := pins, receiver := { framed := true, sinceStart := none }, ltu := t.ltu
        leadA := t.leadA, leadB := t.leadB, voices := t.voices, pedals := t.pedals
        gateways := t.gateways, timed := t.timed, faults := t.faults, pointer := t.pointer
        counters := t.counters, assembly := t.assembly, fifo := t.fifo, outq := t.outq
        sender := t.sender, laneOut := t.laneOut, linkOut := t.linkOut, draws := t.draws }
      ∧ LeadsJudged (leadSamples s bytes) s t ∧ CountsTimes 12 0 s t
      ∧ ((frameCount bytes).toNat % 64 = 63 → frameCount bytes = s.ltu.count + 1 →
        decodeLane (laneBytes bytes) = .idle → s.assembly = none → s.sender = .none → s.fifo = [] →
        s.outq = [] → (∀ v, (s.voice v).runs = false) → QuietLines pins s →
        BlockWorkDone t.ltu.link { adoptCount (frameCount bytes) s with
          ltu := t.ltu, pedalPins := pins, receiver := t.receiver, linkOut := t.linkOut
          laneOut := List.replicate 8 0
          leadA := { s.leadA with history := withSample (leadSamples s bytes) s .a }
          leadB := { s.leadB with history := withSample (leadSamples s bytes) s .b } } t)

/-- A bad frame in RELOCKING or LOCKED: the count advances, the run grows, the eighth loses the link,
FRAME_CHECK is set unless masked, each history repeats its newest sample (lead B's while its slot is
present) where no loss action ENGINE resets it, and the frame leaves poisoned with an IDLE lane, unclaimed
slots as received and, in RELOCKING, claimed slots 0. In LOCKED, with no mute due before the voices' work, a
claimed slot carries the saturated sum of the samples of the voices that claim it, and OUTPUT_CLIP is raised
when a sum saturates. Each pedal line takes its sample (log entry 20), and off a block end with no mute due
each voice does its work of the frame, and the count's change is all that happens to the timed cue queue and
the timed gateways; at a block end each lead is judged, and with nothing else to do the frame does both
leads' block work and no more. FRAME_CHECK and LINK_LOSS have scope DEVICE, told by whom they mute. The
frame is a gap for a message under assembly: the ninth in a row abandons it with CTRL_RUNON. A loss clears
the lane, with LINK_LOSS, and CTRL_RUNON for a message under assembly (R3, R5, R8, R9, R10, R13, R14, R18,
R23 to R28, R37 to R46, R60 to R65, R106 to R109, R130, R131, R140, R141, R151, R163, R168, R169; log entry
25 for lead B without a slot). The slots claimed in a frame are those before its voices' work, and the voices
of an OUTPUT_CLIP those that name a slot after it: the model's choice for a slot taken at the end of a fall (log
entry 26). -/
def Obligations.BadFrameRunning : Prop :=
  (∀ s : State, heldSamples s = (s.leadA.history.headD 0, match s.config.slotB with
    | some _ => s.leadB.history.headD 0
    | none => 0))
  ∧ ∀ (bytes : List Byte) (pins : PedalPins) (s : State), s.resetLow = false →
    isFrame bytes = true → frameGood bytes = false → s.ltu.link.running = true →
    ∃ t out, exec (.frameArrival bytes pins) s = .next t ∧ t.linkOut = some out
      ∧ t.ltu = (if s.ltu.badRun < 7 then
          { s.ltu with count := s.ltu.count + 1, badRun := s.ltu.badRun + 1
                       goodRun := if s.ltu.link = .relocking then 0 else s.ltu.goodRun }
        else { s.ltu with link := .holdover, count := s.ltu.count + 1, goodRun := 0, badRun := 0 })
      ∧ ((s.fault .frameCheck).detectMask = false → (t.fault .frameCheck).status = true)
      ∧ s.outq <+: t.outq
      ∧ (s.ltu.badRun < 7 ∨ s.config.lossAction = .holdover →
        t.leadA.history = (s.leadA.history.headD 0 :: s.leadA.history).take 2048
        ∧ (s.config.slotB.isSome = true →
          t.leadB.history = (s.leadB.history.headD 0 :: s.leadB.history).take 2048)
        ∧ t = { s with
          pedalPins := pins, receiver := { framed := true, sinceStart := none }, ltu := t.ltu
          leadA := t.leadA, leadB := t.leadB, voices := t.voices, pedals := t.pedals
          gateways := t.gateways, timed := t.timed, faults := t.faults, pointer := t.pointer
          counters := t.counters, assembly := t.assembly, fifo := t.fifo, outq := t.outq
          sender := t.sender, linkOut := t.linkOut, draws := t.draws })
      ∧ (s.ltu.badRun < 7 ∨ s.config.lossAction = .holdover →
        LeadsJudged (heldSamples s) s t ∧ CuesMoved pins s t ∧ CountsTimes 12 0 s t
        ∧ DeviceMuted .frameCheck s t ∧ (7 ≤ s.ltu.badRun → DeviceMuted .linkLoss s t))
      ∧ (s.ltu.badRun < 7 → (s.ltu.count + 1).toNat % 64 = 63 → (s.fault .frameCheck).detectMask = true →
        s.assembly = none → (∀ v, (s.voice v).runs = false) → QuietLines pins s →
        BlockWorkDone s.ltu.link { adoptCount (s.ltu.count + 1) s with
          ltu := t.ltu, pedalPins := pins, receiver := t.receiver, linkOut := t.linkOut
          leadA := { s.leadA with history := withSample (heldSamples s) s .a }
          leadB := { s.leadB with history := withSample (heldSamples s) s .b } } t)
      ∧ (s.ltu.badRun < 7 →
        (s.assembly = none → t.assembly = none ∧ t.sender = s.sender ∧ t.fifo = s.fifo
          ∧ t.fault .ctrlRunon = s.fault .ctrlRunon)
        ∧ ∀ a, s.assembly = some a →
          (a.gap < 8 → t.assembly = some { a with gap := a.gap + 1 } ∧ t.sender = s.sender
            ∧ t.fifo = s.fifo ∧ t.fault .ctrlRunon = s.fault .ctrlRunon)
          ∧ (8 ≤ a.gap → t.assembly = (abandoned s).assembly ∧ t.sender = (abandoned s).sender
            ∧ t.fifo = s.fifo
            ∧ ((s.fault .ctrlRunon).detectMask = false → (t.fault .ctrlRunon).status = true)))
      ∧ out.length = 88 ∧ out.take 6 = bytes.take 6 ∧ laneBytes out = List.replicate 8 0
      ∧ out.drop 86 = checkBytes (~~~(crc (checkedPart out))) ∧ frameGood out = false
      ∧ (∀ k : Fin 24, claimed (claims s) k = false → slotBytes out k.val = slotBytes bytes k.val)
      ∧ (∀ k : Fin 24, claimed (claims s) k = true → s.ltu.link = .relocking →
        slotBytes out k.val = [0, 0, 0])
      ∧ (NoMuteDue s →
        (s.ltu.link = .locked → ∀ k : Fin 24, claimed (claims s) k = true →
          slotBytes out k.val = sampleBytes
            (max (-8388608) (min 8388607 (slotTotal s (heldSamples s) k))))
        ∧ (s.ltu.badRun < 7 → ClipRaised s.ltu.link (heldSamples s) s t)
        ∧ (s.ltu.badRun < 7 → (s.fault .outputClip).severity = .notice →
          t.ltu.count.toNat % 64 ≠ 63 → ∀ v, t.voice v = voiceAfter s (heldSamples s) v))
      ∧ (s.ltu.badRun < 7 ∨ s.config.lossAction = .holdover →
        ∀ l, t.pedal l = pedalAfter s.config.stuckLimit pins[l] (s.pedal l))
      ∧ (7 ≤ s.ltu.badRun → LaneCleared t
        ∧ ((s.fault .linkLoss).detectMask = false → (t.fault .linkLoss).status = true)
        ∧ (s.assembly ≠ none → (s.fault .ctrlRunon).detectMask = false →
          (t.fault .ctrlRunon).status = true))

/-- A bad frame in SEEKING or HOLDOVER is passed on poisoned and does nothing but raise FRAME_CHECK with scope
DEVICE; bytes that are no frame are discarded (R1, R3, R8, R16, R151; log entry 18). -/
def Obligations.BadFramePassed : Prop :=
  ∀ (bytes : List Byte) (pins : PedalPins) (s : State), s.resetLow = false →
    (isFrame bytes = false → exec (.frameArrival bytes pins) s = .next s)
    ∧ (isFrame bytes = true → frameGood bytes = false → s.ltu.link.running = false →
      ∃ t out, exec (.frameArrival bytes pins) s = .next t
        ∧ t = { s with pedalPins := pins, receiver := { framed := true, sinceStart := none }
                       linkOut := some out, voices := t.voices, faults := t.faults
                       pointer := t.pointer, counters := t.counters, outq := t.outq }
        ∧ t = { raise .frameCheck .device s with
          pedalPins := pins, receiver := { framed := true, sinceStart := none }, linkOut := some out }
        ∧ ((s.fault .frameCheck).detectMask = false → (t.fault .frameCheck).status = true)
        ∧ s.outq <+: t.outq
        ∧ out.length = 88 ∧ out.take 6 = bytes.take 6 ∧ laneBytes out = List.replicate 8 0
        ∧ out.drop 86 = checkBytes (~~~(crc (checkedPart out))) ∧ frameGood out = false
        ∧ ∀ k : Fin 24, slotBytes out k.val =
            if claimed (claims s) k = true then [0, 0, 0] else slotBytes bytes k.val)

/-- A phantom frame: held count + 1, the tick counter 0, a sample of 0 in each history, no frame out, and
the lane untouched but for notices at the outbound queue's tail. The row stands for the ticks that lack to
512, and the receiver's note takes them within 2,047 (log entries 8, 10). Each pedal line takes its sample
(log entry 20); off a block end each line does its work at its gateway, with no mute due each voice does its
work of the frame, and the count's change is all that happens to the timed cue queue and the timed gateways;
at a block end each lead is judged, and with no voice running and no line to act the frame does both leads'
block work and no more. One phantom frame is counted (R5, R15, R18, R20, R21, R37 to R46, R48, R60 to R65,
R68, R101, R107, R130, R131, R140, R141, R163). -/
def Obligations.PhantomFrameMade : Prop :=
  ∀ (pins : PedalPins) (s : State), s.resetLow = false → s.ltu.link.running = false →
    ∃ t, exec (.phantomFrame pins) s = .next t
      ∧ t.ltu = { s.ltu with count := s.ltu.count + 1, tick := 0 }
      ∧ (∀ L, (t.lead L).history = ((0 : Int) :: (s.lead L).history).take 2048)
      ∧ t = { s with ltu := t.ltu, pedalPins := pins, linkOut := none, leadA := t.leadA
                     receiver := { s.receiver with
                       sinceStart := (s.receiver.sinceStart.map fun n =>
                         min 2047 (n + (512 - s.ltu.tick))) }
                     leadB := t.leadB, voices := t.voices, pedals := t.pedals
                     gateways := t.gateways, timed := t.timed, faults := t.faults
                     pointer := t.pointer, counters := t.counters, outq := t.outq
                     draws := t.draws }
      ∧ s.outq <+: t.outq
      ∧ (∀ l, t.pedal l = pedalAfter s.config.stuckLimit pins[l] (s.pedal l))
      ∧ LeadsJudged (0, 0) s t ∧ CuesMoved pins s t ∧ CountsTimes 12 1 s t
      ∧ (t.ltu.count.toNat % 64 ≠ 63 → NoMuteDue s → ∀ v, t.voice v = voiceAfter s (0, 0) v)
      ∧ (t.ltu.count.toNat % 64 = 63 → (∀ v, (s.voice v).runs = false) → QuietLines pins s →
        BlockWorkDone s.ltu.link { adoptCount (s.ltu.count + 1) s with
          ltu := t.ltu, pedalPins := pins, receiver := t.receiver, linkOut := none
          leadA := { s.leadA with history := withSample (0, 0) s .a }
          leadB := { s.leadB with history := withSample (0, 0) s .b }
          counters := s.counters.map fun c => c.after 12 } t)

/-! ### Block work, the tracker and the note decision -/

/-- BLOCK_END at a block end: each lead's record takes the evaluation of its history and the note decision
on it, under its scene as it stood; link, configuration, tables, pedal lines, load and lane are left, and the
outbound queue only grows. The voiced blocks, note changes and unmatched blocks of both leads are counted. At
another count nothing happens. One lead's work follows the other's whole, in
either order, each by its five steps. The completion check ends a transition exactly when no voice of the
lead is RISING or FALLING, with its TRANSITION_DONE notice or, for want of room, NOTICE_DROP (R37 to R46,
R48, R60 to R65, R68, R117, R123, R156, R163, R190; log entry 6). -/
def Obligations.BlockEndWork : Prop :=
  (∀ s : State, s.resetLow = false →
    (s.ltu.count.toNat % 64 ≠ 63 → exec .blockEnd s = .next s)
    ∧ (s.ltu.count.toNat % 64 = 63 → ∃ t, exec .blockEnd s = .next t
      ∧ t = { s with leadA := t.leadA, leadB := t.leadB, voices := t.voices, gateways := t.gateways
                     timed := t.timed, faults := t.faults, pointer := t.pointer
                     counters := t.counters, outq := t.outq, draws := t.draws }
      ∧ s.outq <+: t.outq
      ∧ (∀ L, Judged s L (s.lead L).history (t.lead L))
      ∧ JudgementsCounted (fun L => (s.lead L).history) s t)
    ∧ (s.ltu.count.toNat % 64 = 63 → ∃ L L' : Lead, L ≠ L' ∧ exec .blockEnd s = .next
        (blockWork s.ltu.link L' (blockWork s.ltu.link L { s with draws := s.draws + 1 }))))
  ∧ (∀ (ls : LinkState) (L : Lead) (s : State), blockWork ls L s =
    checkCompletion L (retargetLead L (cueStep ls L (decideLead L (trackLead L s)))))
  ∧ ∀ (L : Lead) (s : State),
    let t := checkCompletion L s
    ((s.lead L).transition = none → t = s)
    ∧ ∀ tr, (s.lead L).transition = some tr →
      ((∃ v, (s.voice v).owner = some L
        ∧ ((s.voice v).state = .rising ∨ (s.voice v).state = .falling)) → t = s)
      ∧ ((∀ v, (s.voice v).owner = some L →
          (s.voice v).state ≠ .rising ∧ (s.voice v).state ≠ .falling) →
        let done := s.setLead L { s.lead L with transition := none }
        (s.outq.length < 8 → s.outq.countP OutItem.isNotice < 7 →
          t = { done with outq := s.outq ++ [.notice
            { dest := 0, source := s.nodeAddr, kind := 0x61, tag := 0
              body := (match L with | .a => 0 | .b => 1) :: (match tr.kind with
                | .scene n => [0, BitVec.ofNat 8 n.val]
                | .silence => [5, 255]
                | .resume => [6, 255]) ++ bytes4 s.ltu.count }] })
        ∧ (8 ≤ s.outq.length ∨ 7 ≤ s.outq.countP OutItem.isNotice →
          t = { done with faults := t.faults, pointer := t.pointer, counters := t.counters }
          ∧ ((s.fault .noticeDrop).detectMask = false → (t.fault .noticeDrop).status = true)))

/-- One lead's block work leaves the other lead's record as it is, but for frozen notes, and every voice
that is not OFF and that the other lead owns (R33, R85, R117, R119). -/
def Obligations.BlockWorkKeepsOtherLead : Prop :=
  ∀ (ls : LinkState) (L L' : Lead) (s : State), L ≠ L' →
    (blockWork ls L s).lead L' =
      { s.lead L' with frozen := ((blockWork ls L s).lead L').frozen }
    ∧ ∀ v, (s.voice v).owner = some L' → (s.voice v).state ≠ .off →
      (blockWork ls L s).voice v = s.voice v

/-- The tracker's candidate is the smallest lag whose sum is within the tolerance of the smallest sum, its
refined period lies within 640..10,240 with the gaps that the ends leave, and the confidence within 0..255.
Between the ends the period is moved by the vertex of the parabola through three sums, rounded and held to
half a sample; the confidence is the candidate's sum against the mean sum; and a block is voiced by the three
tests together. The mean absolute value and the 601 difference sums are those of the history (R39 to R45). -/
def Obligations.TrackerAnswersInRange : Prop :=
  (∀ h : List Int, h.length = 2048 →
    let x := fun i : Nat => h.getD i 0
    meanAbs h = ((List.range 256).map fun i => (x i).natAbs).sum / 256
    ∧ (diffSums h).length = 601
    ∧ ∀ j, j < 601 → (diffSums h).getD j 0 =
      ((List.range 256).map fun i => (x i - x (i + (40 + j))).natAbs).sum)
  ∧ ∀ (sums : List Nat) (tol : Nat), sums.length = 601 →
    (smallest sums ∈ sums ∧ ∀ x ∈ sums, smallest sums ≤ x)
    ∧ candidate sums tol < 601
    ∧ sums.getD (candidate sums tol) 0 ≤ smallest sums + smallest sums * tol / 256
    ∧ (∀ j, j < candidate sums tol → smallest sums + smallest sums * tol / 256 < sums.getD j 0)
    ∧ (∀ i, i < 601 →
      (i = 0 → refinedPeriod sums i = 640) ∧ (i = 600 → refinedPeriod sums i = 10240)
      ∧ (1 ≤ i → i ≤ 599 →
        16 * (i + 40) - 8 ≤ refinedPeriod sums i ∧ refinedPeriod sums i ≤ 16 * (i + 40) + 8))
    ∧ (∀ i, 1 ≤ i → i ≤ 599 →
      let before : Int := sums.getD (i - 1) 0
      let after : Int := sums.getD (i + 1) 0
      let den : Int := 2 * (before - 2 * sums.getD i 0 + after)
      (den ≤ 0 → refinedPeriod sums i = 16 * (i + 40))
      ∧ (0 < den → ∃ q, Rounded q (16 * (before - after)) den
        ∧ (refinedPeriod sums i : Int) = 16 * ((i : Int) + 40) + max (-8) (min 8 q)))
    ∧ ∀ mean gate threshold,
      let e := evaluate mean sums gate threshold tol
      let c := candidate sums tol
      e.confidence ≤ 255 ∧ e.period = refinedPeriod sums c
      ∧ e.confidence = 255 - min 255 (256 * sums.getD c 0 / (sums.sum / 601 + 1))
      ∧ (e.voiced = true ↔ gate ≤ mean ∧ 0 < sums.sum / 601 ∧ threshold ≤ e.confidence)

/-- In a table that meets its conditions no two rows share a note or a period, and a note change is a
voiced block that finds the row of its period, of another note than the lead held. The decision whole: a lead
with a note whose row stands keeps it in the widened band, changes, keeps it unmatched, trails or drops it; a
lead with no note, or whose note has no row, finds one or is SILENT (R55, R58, R61 to R65). -/
def Obligations.NoteLookup : Prop :=
  ∀ rows : List TuningRow, tuningOk rows = true →
    (∀ r ∈ rows, ∀ r' ∈ rows, r.note = r'.note → r = r')
    ∧ (∀ r ∈ rows, ∀ r' ∈ rows, ∀ p, r.lo ≤ p → p ≤ r.hi → r'.lo ≤ p → p ≤ r'.hi → r = r')
    ∧ (∀ (h hold : Nat) (note : NoteState) (count : Nat) (voiced : Bool) (p : Nat),
      (decideNote rows h hold note count voiced p).changed = true →
        voiced = true ∧ (decideNote rows h hold note count voiced p).count = 0
        ∧ ∃ r ∈ rows, r.lo ≤ p ∧ p ≤ r.hi ∧ note.note? ≠ some r.note
          ∧ (decideNote rows h hold note count voiced p).note = .voiced r.note)
    ∧ ∀ (h hold : Nat) (note : NoteState) (count p : Nat),
      let d := fun voiced => decideNote rows h hold note count voiced p
      (∀ r ∈ rows, note.note? = some r.note →
        (r.lo ≤ p + h → p ≤ r.hi + h →
          d true = { note := .voiced r.note, count := 0, changed := false, unmatched := false })
        ∧ (p + h < r.lo ∨ r.hi + h < p →
          (∀ m ∈ rows, m.lo ≤ p → p ≤ m.hi →
            d true = { note := .voiced m.note, count := 0, changed := true, unmatched := false })
          ∧ ((∀ m ∈ rows, p < m.lo ∨ m.hi < p) →
            d true = { note := .voiced r.note, count := 0, changed := false, unmatched := true }))
        ∧ (count < hold →
          d false = { note := .trailing r.note, count := count + 1, changed := false, unmatched := false })
        ∧ (hold ≤ count →
          d false = { note := .silent, count := count + 1, changed := false, unmatched := false }))
      ∧ ((∀ r ∈ rows, note.note? ≠ some r.note) →
        (∀ m ∈ rows, m.lo ≤ p → p ≤ m.hi →
          d true = { note := .voiced m.note, count := 0, changed := true, unmatched := false })
        ∧ ((∀ m ∈ rows, p < m.lo ∨ m.hi < p) →
          d true = { note := .silent, count := 0, changed := false, unmatched := true })
        ∧ d false = { note := .silent, count := count, changed := false, unmatched := false })

/-! ### Harmony targets, hold and release -/

/-- The target chain: natural correction at weight 0 or without a centre, full snap at weight 16, the clamp
behind the detune, and the glide's three cases; and the step table: 49 entries, each the nearest integer to
16,384 × 2^(e/12), said in integers by the twelfth powers of its two half-way neighbours. At every weight 0
to 16 the corrected step is the proportional mix, rounded to nearest. The HTU step of a lead writes its
voices alone: a rise from 320 samples, a reversed fall, a fall to IDLE, or a glide, by state and interval. And
what the chain starts from: the interval by note, silenced flag, hold and map entry, the note centre, the
parameters of the lead's scene, and the ramp increment (R38, R58, R60, R66, R74, R76 to R82, R86, R87, R94,
R95). -/
def Obligations.TargetsAndSteps : Prop :=
  ((∀ (e : Int) (w p16 pc : Nat), 0 < pc →
    correctedStep e (some pc) 0 p16 = baseStep e ∧ correctedStep e none w p16 = baseStep e
    ∧ correctedStep e (some pc) 16 p16 = roundDiv ((baseStep e : Int) * p16) pc)
  ∧ (∀ (e : Int) (c : Option Nat) (w p16 : Nat) (detune : Int),
    4096 ≤ targetOf e c w p16 detune ∧ targetOf e c w p16 detune ≤ 65536
    ∧ (4096 ≤ correctedStep e c w p16 + detune → correctedStep e c w p16 + detune ≤ 65536 →
      (targetOf e c w p16 detune : Int) = correctedStep e c w p16 + detune)
    ∧ (correctedStep e c w p16 + detune < 4096 → targetOf e c w p16 detune = 4096)
    ∧ (65536 < correctedStep e c w p16 + detune → targetOf e c w p16 detune = 65536))
  ∧ (∀ (e : Int) (w p16 pc : Nat), 0 < pc → w ≤ 16 →
    Rounded (correctedStep e (some pc) w p16) (baseStep e * ((16 - w) * pc + w * p16 : Nat)) (16 * pc))
  ∧ ∀ c t g : Nat,
    (g = 0 → glideTo c t g = t)
    ∧ (c ≤ t + g → t ≤ c + g → glideTo c t g = t)
    ∧ (0 < g → c + g < t → glideTo c t g = c + g)
    ∧ (0 < g → t + g < c → glideTo c t g + g = c))
  ∧ (stepTable.length = 49 ∧ ∀ i : Fin 49,
    (2 * baseStep ((i.val : Int) - 24) - 1) ^ 12 ≤ 2 ^ (156 + i.val)
      ∧ 2 ^ (156 + i.val) < (2 * baseStep ((i.val : Int) - 24) + 1) ^ 12)
  ∧ (∀ (L : Lead) (s : State),
    let t := retargetLead L s
    t = { s with voices := t.voices }
    ∧ ∀ v : VoiceId,
      let x := s.voice v
      let inc := rampIncrement s (some L)
      (x.owner ≠ some L ∨ x.state = .off ∨ x.state = .muted → t.voice v = x)
      ∧ (x.owner = some L →
        (interval s L v = none →
          (x.state = .idle ∨ x.state = .falling → t.voice v = x)
          ∧ (x.state = .rising ∨ x.state = .sounding → t.voice v =
            if x.envelope = 0 then
              { x with state := .idle, dest := .idle, increment := inc, releaseMark := false
                       pendingPart := none, crossfade := none }
            else { x with state := .falling, dest := .idle, increment := inc, releaseMark := false
                          pendingPart := none }))
        ∧ ∀ e, interval s L v = some e →
          let target := targetOf e (noteCentre L s) (s.params L).weight (s.lead L).estimate
            (match x.part with | some p => p.detune | none => 0)
          let y := { x with targetStep := target
                            currentStep := glideTo x.currentStep target (s.params L).glide }
          (x.state = .idle → x.faults = [] → t.voice v =
            { x with state := .rising, envelope := 0, increment := inc, distance := 320 * 16384
                     crossfade := none, targetStep := target, currentStep := target })
          ∧ (x.state = .idle → x.faults ≠ [] → t.voice v = x)
          ∧ (x.state = .rising ∨ x.state = .sounding → t.voice v = y)
          ∧ (x.state = .falling → x.dest ≠ .idle → t.voice v = y)
          ∧ (x.state = .falling → x.dest = .idle → t.voice v =
            { y with state := if x.envelope = 4096 then .sounding else .rising, increment := inc })))
  ∧ (∀ n d : Int, 0 < d → Rounded (roundDiv n d) n d)
  ∧ ∀ (L : Lead) (s : State),
    let x := s.lead L
    let entry := fun (n : Nat) (column : Fin 4) =>
      (s.maps[x.map]).getD (4 * (((n : Int) - x.key.val) % 12).toNat + column.val) none
    (x.note = .silent → (∀ v, interval s L v = none) ∧ noteCentre L s = none)
    ∧ (x.silenced = true → (∀ v, interval s L v = none) ∧ ∀ n y, openInterval s L n y = none)
    ∧ (∀ n : Nat, x.silenced = false →
      (∀ y : Voice, (y.part = none → openInterval s L n y = none)
        ∧ ∀ p, y.part = some p → openInterval s L n y = entry n p.column)
      ∧ (x.note = .voiced n ∨ x.note = .trailing n → ∀ v : VoiceId,
        (x.held = true →
          (x.frozen[v] = none → interval s L v = none)
          ∧ ∀ f, x.frozen[v] = some f →
            (((f : Int) - n).natAbs ≤ 24 → interval s L v = some ((f : Int) - n))
            ∧ (24 < ((f : Int) - n).natAbs → interval s L v = none))
        ∧ (x.held = false → ∀ p, (s.voice v).part = some p → interval s L v = entry n p.column)))
    ∧ (∀ n : Nat, x.note = .voiced n ∨ x.note = .trailing n →
      ((∀ r ∈ s.rows L, r.note ≠ n) → noteCentre L s = none)
      ∧ ∀ r ∈ s.rows L, r.note = n → (∀ r' ∈ s.rows L, r'.note = n → r' = r) →
        noteCentre L s = some ((r.lo + r.hi) / 2))
    ∧ (x.scene = none → s.rows L = s.tuning[0] ∧ rampIncrement s (some L) = 4
      ∧ s.params L =
        { tuning := 0, map := none, key := none, gate := 1024, threshold := 128, tolerance := 16
          hysteresis := 8, hold := 8, weight := 0, glide := 0, fade := 1024, next := none, entries := [] })
    ∧ ∀ n, x.scene = some n → s.params L = s.scenes[n] ∧ s.rows L = s.tuning[s.scenes[n].tuning]
      ∧ rampIncrement s (some L) = 4096 / s.scenes[n].fade

/-- HOLD freezes, for each voice the lead owns that is RISING or SOUNDING and has an interval, the note it
sings, within 0..127; every other frozen note is absent; a SILENT lead is left alone. Just held, such a
voice keeps its interval. RELEASE clears the flag and the notes of a held lead alone (R78, R84 to R86). -/
def Obligations.HoldAndRelease : Prop :=
  ∀ (L : Lead) (s : State),
    ((s.lead L).note.note? = none → holdLead L s = s)
    ∧ (∀ n, (s.lead L).note.note? = some n →
      holdLead L s = s.setLead L
        { s.lead L with held := true, frozen := ((holdLead L s).lead L).frozen }
      ∧ ∀ v : VoiceId,
        (((s.voice v).owner ≠ some L ∨ ((s.voice v).state ≠ .rising ∧ (s.voice v).state ≠ .sounding)
            ∨ openInterval s L n (s.voice v) = none) →
          ((holdLead L s).lead L).frozen[v] = none)
        ∧ ∀ e, (s.voice v).owner = some L →
          ((s.voice v).state = .rising ∨ (s.voice v).state = .sounding) →
          openInterval s L n (s.voice v) = some e →
          ((0 ≤ (n : Int) + e ∧ (n : Int) + e ≤ 127) →
            ((holdLead L s).lead L).frozen[v] = some ((n : Int) + e).toNat
            ∧ (-24 ≤ e → e ≤ 24 → interval (holdLead L s) L v = some e))
          ∧ (¬(0 ≤ (n : Int) + e ∧ (n : Int) + e ≤ 127) →
            ((holdLead L s).lead L).frozen[v] = none))
    ∧ ((s.lead L).held = false → releaseHold L s = s)
    ∧ ((s.lead L).held = true →
      releaseHold L s = s.setLead L
        { s.lead L with held := false, frozen := Vector.replicate 8 none })

/-! ### Voices -/

/-- CROSSFADE_END after index 31, and RISE_END of a rise whose next step reaches 4,096 (R97, R103; log
entry 6). -/
def Obligations.CrossfadeAndRiseEnd : Prop :=
  ∀ (v : VoiceId) (s : State), s.resetLow = false →
    (∀ d2, (s.voice v).crossfade = some { d2 := d2, index := 31 } →
      exec (.crossfadeEnd v) s = .next
        (s.setVoice v { s.voice v with distance := d2, crossfade := none }))
    ∧ ((s.voice v).state = .rising → 4096 ≤ (s.voice v).envelope + (s.voice v).increment →
      exec (.riseEnd v) s = .next
        (s.setVoice v { s.voice v with envelope := 4096, state := .sounding }))

/-- FALL_END by destination, release mark and pending assignment: IDLE, OFF, a new assignment or MUTED; a
pending slot that has become a lead input slot sends the voice OFF and raises ENTRY_SKIPPED with scope its
owner. Where a voice goes OFF or takes an assignment its frozen notes of both leads become absent (R85, R93,
R98; log entry 6). -/
def Obligations.FallEndTable : Prop :=
  (∀ (v : VoiceId) (s : State), clearFrozen v s = { s with
    leadA := { s.leadA with frozen := s.leadA.frozen.set v none }
    leadB := { s.leadB with frozen := s.leadB.frozen.set v none } }) ∧
  ∀ (v : VoiceId) (s : State), s.resetLow = false →
    (s.voice v).state = .falling → (s.voice v).envelope ≤ (s.voice v).increment →
    let x := { s.voice v with envelope := 0, crossfade := none }
    let gone := clearFrozen v (s.setVoice v
      { x with state := .off, owner := none, part := none, pendingPart := none
               releaseMark := false, faults := [] })
    (x.dest = .idle → exec (.fallEnd v) s = .next (s.setVoice v { x with state := .idle }))
    ∧ (x.dest = .off → exec (.fallEnd v) s = .next gone)
    ∧ (x.dest = .muted → x.releaseMark = true → exec (.fallEnd v) s = .next gone)
    ∧ (x.dest = .muted → x.releaseMark = false → x.pendingPart = none →
      exec (.fallEnd v) s = .next (s.setVoice v { x with state := .muted }))
    ∧ ∀ p, x.pendingPart = some p →
      (x.dest = .reassign ∨ (x.dest = .muted ∧ x.releaseMark = false)) →
      (s.isLeadSlot p.slot = false →
        exec (.fallEnd v) s = .next (clearFrozen v (s.setVoice v
          { x with state := if x.faults = [] then .idle else .muted
                   part := some p, pendingPart := none })))
      ∧ (s.isLeadSlot p.slot = true → ∀ L, x.owner = some L →
        exec (.fallEnd v) s = .next (raise .entrySkipped (.lead L) gone)
        ∧ ∃ t, exec (.fallEnd v) s = .next t ∧ (t.voice v).state = .off ∧ (t.voice v).owner = none
          ∧ t = { s with leadA := t.leadA, leadB := t.leadB, voices := t.voices
                         faults := t.faults, pointer := t.pointer, counters := t.counters
                         outq := t.outq }
          ∧ ((s.fault .entrySkipped).detectMask = false →
            (t.fault .entrySkipped).status = true))

/-- The splice check, whole periods away by the least whole number that reaches the target; otherwise no
splice (R102). -/
def Obligations.SpliceBand : Prop :=
  ∀ (d : Int) (p : Nat), 40 ≤ p → p ≤ 640 →
    (d < 128 * 16384 → ∃ k : Nat, 1 ≤ k
      ∧ spliceTarget d p = some (d + (k * p * 16384 : Nat))
      ∧ 320 * 16384 ≤ d + (k * p * 16384 : Nat)
      ∧ ∀ j : Nat, 1 ≤ j → j < k → d + (j * p * 16384 : Nat) < 320 * 16384)
    ∧ (1024 * 16384 < d → ∃ k : Nat, 1 ≤ k
      ∧ spliceTarget d p = some (d - (k * p * 16384 : Nat))
      ∧ d - (k * p * 16384 : Nat) ≤ 832 * 16384
      ∧ ∀ j : Nat, 1 ≤ j → j < k → 832 * 16384 < d - (j * p * 16384 : Nat))
    ∧ (128 * 16384 ≤ d → d ≤ 1024 * 16384 → spliceTarget d p = none)

/-- A head's value is the rounded interpolation of the two samples that bracket it and lies between them; a
voice sample lies within its output's magnitude: full level and envelope pass it, level 0 gives 0. The work
of a frame on a running voice: every head advances by 16,384 less the current step, a splice starts a
crossfade, the output is the head's value or the blend, the index advances and after 31 the second head
takes over, the envelope takes its step, the sample is formed with it, and a rise or fall that ended takes
the voice to SOUNDING or to its destination, as FALL_END does (log entry 6). A splice is counted, and no
other voice is touched; a voice that does not run does nothing (R97, R98, R101 to R104, R106, R107, R163).
-/
def Obligations.HeadAndSample : Prop :=
  (∀ x : Voice, x.runs = true ↔ x.state = .rising ∨ x.state = .sounding ∨ x.state = .falling)
  ∧ (∀ (h : List Int) (i : Nat), sampleAt h i = h.getD i 0) ∧
  (∀ (h : List Int) (d : Int),
    let q := (d / 16384).toNat
    min (sampleAt h q) (sampleAt h (q + 1)) ≤ headValue h d
      ∧ headValue h d ≤ max (sampleAt h q) (sampleAt h (q + 1))
      ∧ (d % 16384 = 0 → headValue h d = sampleAt h q)
      ∧ Rounded (headValue h d - sampleAt h q)
        ((sampleAt h (q + 1) - sampleAt h q) * (d % 16384)) 16384)
  ∧ (∀ (x : Voice) (p : Assignment) (y : Int), x.part = some p → p.level ≤ 128 → x.envelope ≤ 4096 →
    (x.sample y).natAbs ≤ y.natAbs
      ∧ (p.level = 128 → x.envelope = 4096 → x.sample y = y)
      ∧ (p.level = 0 ∨ x.envelope = 0 → x.sample y = 0))
  ∧ (∀ (x : Voice) (h : List Int) (period : Nat),
    let d := x.distance + (16384 - (x.currentStep : Int))
    let env : Nat := match x.state with
      | .rising => min 4096 (x.envelope + x.increment)
      | .falling => x.envelope - x.increment
      | .off | .idle | .sounding | .muted => x.envelope
    let f := x.frame h period
    ∃ y : Int, (∀ p, x.part = some p → Rounded f.2.1 (y * p.level * env) 524288)
      ∧ (x.crossfade = none → y = headValue h d
        ∧ (spliceTarget d period = none →
          f.1 = { x with distance := d, envelope := env } ∧ f.2.2 = false)
        ∧ ∀ d2, spliceTarget d period = some d2 → f.2.2 = true
          ∧ f.1 = { x with distance := d, envelope := env, crossfade := some { d2 := d2, index := 1 } })
      ∧ ∀ c, x.crossfade = some c →
        let e := c.d2 + (16384 - (x.currentStep : Int))
        Rounded y (headValue h d * (32 - (c.index : Int)) + headValue h e * c.index) 32 ∧ f.2.2 = false
        ∧ (c.index < 31 → f.1 =
          { x with distance := d, envelope := env, crossfade := some { d2 := e, index := c.index + 1 } })
        ∧ (31 ≤ c.index → f.1 = { x with distance := e, envelope := env, crossfade := none }))
  ∧ ∀ (v : VoiceId) (s : State), s.resetLow = false →
    let x := s.voice v
    let w := voiceWork v s
    (x.runs = false → w.state = s ∧ w.sample = 0)
    ∧ ∀ L, x.owner = some L → x.runs = true →
      let f := x.frame (s.lead L).history (s.lead L).splicePeriod
      w.sample = f.2.1 ∧ (∀ v', v' ≠ v → w.state.voice v' = s.voice v')
      ∧ w.state = { s with leadA := w.state.leadA, leadB := w.state.leadB, voices := w.state.voices
                           counters := if f.2.2 then s.counters.map fun c => c.after 9 else s.counters }
      ∧ (x.state = .rising → w.state.voice v =
        if f.1.envelope = 4096 then { f.1 with state := .sounding } else f.1)
      ∧ (x.state = .sounding ∨ (x.state = .falling ∧ f.1.envelope ≠ 0) → w.state.voice v = f.1)
      ∧ (x.state = .falling → f.1.envelope = 0 → ∃ u, exec (.fallEnd v) (s.setVoice v f.1) = .next u
        ∧ w.state.voice v = u.voice v ∧ w.state.leadA = u.leadA ∧ w.state.leadB = u.leadB)

/-! ### Scenes and cue ports -/

/-- Applying a scene: the lead's record takes scene, map, key and transition and keeps all else but frozen
notes; an unlisted voice of the lead goes OFF from IDLE or MUTED and falls with its release mark set from
RISING or SOUNDING above envelope 0; a listed voice that is OFF, on a slot that is no lead input slot, is
assigned; and nothing but the leads, the voices and what an occurrence touches changes. For a scene that
lists no voice twice, every voice by owner, listing and state: released or reassigned by the table,
assigned, or left; ENTRY_SKIPPED is raised once with scope the lead where an entry is skipped, and not where
none is; and where it mutes it mutes the voices the lead owns when the application is complete. The other
cues: STEP applies the next scene or counts code 14; CHORD sets key and map; SILENCE sets the flag, sends
the lead's voices a fall to IDLE and starts a transition; RESUME clears the flag and starts one; a cue that
starts none raises the level of one in flight to its priority (R75, R84, R85, R92, R93, R95, R96, R98, R115
to R122, R125, R152). -/
def Obligations.SceneApplied : Prop :=
  (∀ (L : Lead) (n : Fin 32) (prio : Nat) (s : State),
    let t := applyScene L n prio s
    t = { s with leadA := t.leadA, leadB := t.leadB, voices := t.voices, faults := t.faults
                 pointer := t.pointer, counters := t.counters, outq := t.outq }
    ∧ t.lead L = { s.lead L with
        scene := some n
        map := s.scenes[n].map.getD (s.lead L).map
        key := s.scenes[n].key.getD (s.lead L).key
        transition := some { level := prio, kind := .scene n }
        frozen := (t.lead L).frozen }
    ∧ (∀ v, (s.voice v).owner = some L → (∀ e ∈ s.scenes[n].entries, e.voice ≠ v) →
      ((s.voice v).state = .idle ∨ (s.voice v).state = .muted → (t.voice v).state = .off)
      ∧ ((s.voice v).state = .rising ∨ (s.voice v).state = .sounding → (s.voice v).envelope ≠ 0 →
        (t.voice v).state = .falling ∧ (t.voice v).releaseMark = true))
    ∧ ∀ e ∈ s.scenes[n].entries, distinctVoices s.scenes[n].entries = true →
      (s.voice e.voice).state = .off → (s.voice e.voice).owner = none →
      s.isLeadSlot e.part.slot = false →
      (t.voice e.voice).owner = some L ∧ (t.voice e.voice).part = some e.part)
  ∧ (∀ (L : Lead) (n : Fin 32) (prio : Nat) (s : State),
    distinctVoices s.scenes[n].entries = true →
    let t := applyScene L n prio s
    let once := raise .entrySkipped (.lead L) s
    (∀ M, M ≠ L → t.lead M = { s.lead M with frozen := (t.lead M).frozen })
    ∧ (¬SkipMutes s ∨ (¬SkipsEntry L n s ∧ ¬ClashesAtZero L n s) → SceneVoices L n s t)
    ∧ (¬SkipsEntry L n s → ¬ClashesAtZero L n s →
      t.faults = s.faults ∧ t.pointer = s.pointer ∧ t.counters = s.counters ∧ t.outq = s.outq)
    ∧ (SkipsEntry L n s → ¬ClashesAtZero L n s →
      (t.faults = once.faults ∧ t.pointer = once.pointer ∧ t.counters = once.counters
        ∧ t.outq = once.outq)
      ∧ (SkipMutes s → ∃ q, SceneVoices L n s q ∧ ∀ v, t.voice v =
        if (q.voice v).owner = some L then
          (q.voice v).mutedBy .entrySkipped (4096 / s.scenes[n].fade)
        else q.voice v))
    ∧ (ClashesAtZero L n s → (s.fault .entrySkipped).detectMask = false →
      (t.fault .entrySkipped).status = true))
  ∧ ∀ (L : Lead) (prio : Nat) (s : State),
    let raised := (s.lead L).transition.map fun x => { x with level := prio }
    (∀ n, applyCue L (.scene n) prio s = applyScene L n prio s)
    ∧ (∀ c n, (s.lead L).scene = some c → s.scenes[c].next = some n →
      applyCue L .step prio s = applyScene L n prio s)
    ∧ ((∀ c, (s.lead L).scene = some c → s.scenes[c].next = none) →
      applyCue L .step prio s = { s.setLead L { s.lead L with transition := raised } with
        counters := s.counters.map fun c => c.after 14 })
    ∧ (∀ key map, applyCue L (.chord key map) prio s = s.setLead L
      { s.lead L with key := key.getD (s.lead L).key, map := map.getD (s.lead L).map
                      transition := raised })
    ∧ applyCue L .hold prio s =
      (holdLead L s).setLead L { (holdLead L s).lead L with transition := raised }
    ∧ applyCue L .release prio s =
      (releaseHold L s).setLead L { (releaseHold L s).lead L with transition := raised }
    ∧ applyCue L .resume prio s = s.setLead L
      { s.lead L with silenced := false, transition := some { level := prio, kind := .resume } }
    ∧ let t := applyCue L .silence prio s
      t = { s.setLead L { s.lead L with
              silenced := true, transition := some { level := prio, kind := .silence } } with
            voices := t.voices }
      ∧ ∀ v : VoiceId,
        let x := s.voice v
        let fall := { x with dest := .idle, releaseMark := false, pendingPart := none
                             increment := rampIncrement s (some L) }
        (x.owner = some L → (x.state = .rising ∨ x.state = .sounding) →
          (x.envelope ≠ 0 → t.voice v = { fall with state := .falling })
          ∧ (x.envelope = 0 → t.voice v = { fall with state := .idle, crossfade := none }))
        ∧ (x.owner ≠ some L ∨ (x.state ≠ .rising ∧ x.state ≠ .sounding) → t.voice v = x)

/-- A gateway is a candidate by the five conditions together: delegated to the lead, enabled, with a cue
pending, above the port's threshold, and above the level of a transition in flight. A port's winner is a
candidate of the highest priority, of the lowest number among equals, and there is
one exactly when there is a candidate. The winner's slot is emptied, its cue applied with the gateway's
priority and counted with code 6, and with code 7 where a transition was in flight at the choice; after a
timed gateway the lead's next due entry is handed over. At a block end in LOCKED with the start flag set the
flag is cleared, and a configured start scene is applied at priority 15 in the port's place (R126, R129, R141,
R146, R163). -/
def Obligations.PortChoosesHighest : Prop :=
  ∀ (L : Lead) (s : State),
    (∀ g, isCandidate L s g = true ↔
      (match g with
        | 0 | 1 | 2 | 3 => (s.gateway g).lead = L
        | 4 | 6 => L = .a
        | 5 | 7 => L = .b)
      ∧ (s.gateway g).enabled = true ∧ (s.gateway g).pending ≠ none
      ∧ (match L with | .a => s.thresholdA | .b => s.thresholdB) < (s.gateway g).priority
      ∧ ∀ tr, (s.lead L).transition = some tr → tr.level < (s.gateway g).priority)
    ∧ (portWinner L s = none ↔ ∀ g, isCandidate L s g = false)
    ∧ (∀ g, portWinner L s = some g →
      isCandidate L s g = true
      ∧ ∀ g', isCandidate L s g' = true →
        (s.gateway g').priority < (s.gateway g).priority
          ∨ ((s.gateway g').priority = (s.gateway g).priority ∧ g.val ≤ g'.val))
    ∧ (portWinner L s = none → portStep L s = s)
    ∧ (∀ g c, portWinner L s = some g → (s.gateway g).pending = some c →
      let emptied := s.setGateway g { s.gateway g with pending := none }
      let applied := applyCue L c.cue (s.gateway g).priority emptied
      let t := portStep L s
      t = { applied with gateways := t.gateways, timed := t.timed, counters := t.counters }
      ∧ (∀ i : Fin 4, t.counters[i] =
        if (s.lead L).transition = none then (applied.counters[i]).after 6
        else ((applied.counters[i]).after 6).after 7)
      ∧ (g ≠ timedGateway L → t.gateways = emptied.gateways ∧ t.timed = s.timed)
      ∧ (g = timedGateway L →
        t.gateways = (handOff L emptied).gateways ∧ t.timed = (handOff L emptied).timed))
    ∧ s.startScene L = (match L with | .a => s.config.startA | .b => s.config.startB)
    ∧ ∀ ls,
      let cleared := s.setLead L { s.lead L with startFlag := false }
      (ls ≠ .locked ∨ (s.lead L).startFlag = false → cueStep ls L s = portStep L s)
      ∧ (ls = .locked → (s.lead L).startFlag = true →
        (s.startScene L = none → cueStep ls L s = portStep L cleared)
        ∧ ∀ n, s.startScene L = some n → cueStep ls L s = applyScene L n 15 cleared)

/-! ### Pedals and timed cues -/

/-- PEDAL_EDGE at the 384th differing sample: a press sets the press cue pending; a release acts in SPAN
alone, where it withdraws a press cue still pending or sets the release cue, in the place of any other cue
pending. PEDAL_STUCK_JUDGEMENT when the stuck timer's next step reaches the limit: the mark is set, an
enabled gateway raises PEDAL_STUCK with scope its lead and, with stuck close, is disabled with an empty
slot, a cue cleared so counted as dropped; a disabled one raises nothing (log entry 6). In a processed frame
the line's record follows its pin: the first sample sets the level (log entry 20), the debounce timer counts
differing samples alone, the stuck timer and the mark follow; an edge and a stuck judgement do at the
gateway what the two rows do, and else nothing but the line's record changes (R130 to R132, R134 to R136).
-/
def Obligations.PedalsTaken : Prop :=
  (∀ l : LineId, (lineGateway l).val = l.val) ∧
  (∀ (l : LineId) (s : State), s.resetLow = false → (s.pedal l).debounce = 383 →
    let g := lineGateway l
    let x := s.gateway g
    let pressed := s.setPedal l { s.pedal l with level := some .pressed, debounce := 0 }
    let released :=
      s.setPedal l { s.pedal l with level := some .released, debounce := 0, stuckMark := false }
    ((s.pedal l).level = some .released →
      (x.press = none ∨ x.enabled = false → exec (.pedalEdge l) s = .next pressed)
      ∧ ∀ c, x.press = some c → x.enabled = true →
        (x.pending = none → exec (.pedalEdge l) s = .next
          (pressed.setGateway g { x with pending := some { cue := c, origin := .press } }))
        ∧ (x.pending ≠ none → exec (.pedalEdge l) s = .next
          ((countEvent .cueDropped pressed).setGateway g
            { x with pending := some { cue := c, origin := .press } })))
    ∧ ((s.pedal l).level = some .pressed →
      (x.type = .moment → exec (.pedalEdge l) s = .next released)
      ∧ (x.type = .span →
        (∀ c, x.pending = some { cue := c, origin := .press } →
          (x.release = none → exec (.pedalEdge l) s = .next
            (countEvent .cueDropped (released.setGateway g { x with pending := none })))
          ∧ (x.release ≠ none → exec (.pedalEdge l) s = .next
            (countEvent .cueDropped
              (countEvent .cueDropped (released.setGateway g { x with pending := none })))))
        ∧ (x.pending = none → x.enabled = true → ∀ c, x.release = some c →
          exec (.pedalEdge l) s = .next
            (released.setGateway g { x with pending := some { cue := c, origin := .release } }))
        ∧ (∀ p, x.pending = some p → p.origin ≠ .press →
          (x.enabled = true → ∀ c, x.release = some c → exec (.pedalEdge l) s = .next
            ((countEvent .cueDropped released).setGateway g
              { x with pending := some { cue := c, origin := .release } }))
          ∧ (x.release = none ∨ x.enabled = false → exec (.pedalEdge l) s = .next released))
        ∧ (x.pending = none → (x.release = none ∨ x.enabled = false) →
          exec (.pedalEdge l) s = .next released))))
  ∧ (∀ (l : LineId) (s : State), s.resetLow = false → (s.pedal l).level = some .pressed →
    (s.pedal l).stuckMark = false →
    s.config.stuckLimit * 48000 ≤ min 5760000 ((s.pedal l).stuck + 1) →
    let g := lineGateway l
    let x := s.gateway g
    let marked := s.setPedal l
      { s.pedal l with stuck := min 5760000 ((s.pedal l).stuck + 1), stuckMark := true }
    (x.enabled = false → exec (.pedalStuckJudgement l) s = .next marked)
    ∧ (x.enabled = true →
      let raised := raise .pedalStuck (.lead x.lead) marked
      let closed := raised.setGateway g { x with enabled := false, pending := none }
      (x.stuckClose = false → exec (.pedalStuckJudgement l) s = .next raised)
      ∧ (x.stuckClose = true → exec (.pedalStuckJudgement l) s = .next
        (if x.pending = none then closed else countEvent .cueDropped closed)))
    ∧ (x.enabled = true → ∃ t, exec (.pedalStuckJudgement l) s = .next t
      ∧ t = { marked with gateways := t.gateways, voices := t.voices, faults := t.faults
                          pointer := t.pointer, counters := t.counters, outq := t.outq }
      ∧ ((s.fault .pedalStuck).detectMask = false → (t.fault .pedalStuck).status = true)
      ∧ (x.stuckClose = false → t.gateways = s.gateways)
      ∧ (x.stuckClose = true →
        t.gateways = s.gateways.set g { x with enabled := false, pending := none })))
  ∧ ∀ (limit : Nat) (l : LineId) (s : State), s.resetLow = false →
    let p := s.pedal l
    let high := s.pedalPins[l]
    let t := pedalWork limit l s
    t.pedal l = pedalAfter limit high p
    ∧ (¬PedalEdges high p → ¬PedalJudged limit high p → t = s.setPedal l (pedalAfter limit high p))
    ∧ (PedalEdges high p → ¬PedalJudged limit high p → ∃ u, exec (.pedalEdge l) s = .next u
      ∧ t = u.setPedal l (pedalAfter limit high p))
    ∧ (¬PedalEdges high p → PedalJudged limit high p → p.level = some .pressed →
      limit = s.config.stuckLimit → ∃ u, exec (.pedalStuckJudgement l) s = .next u
      ∧ t = u.setPedal l (pedalAfter limit high p))

/-- TIMED_CUE_DUE marks an entry whose due count is the held count and hands it over where it is its lead's
earliest and the gateway is free; TIMED_HANDOFF hands over a lead's earliest entry when it is due and the
gateway is enabled and empty, and else does nothing. The hand-off of other statements is that row's (R140,
R141; log entry 6). -/
def Obligations.TimedCueHandedOver : Prop :=
  (timedGateway .a = 6 ∧ timedGateway .b = 7)
  ∧ (∀ (L : Lead) (s : State), s.resetLow = false → exec (.timedHandoff L) s = .next (handOff L s)
    ∧ ((∀ x ∈ s.timed, x.lead ≠ L) → handOff L s = s)) ∧
  ∀ (s : State) (pre post : List TimedEntry) (e : TimedEntry), s.resetLow = false →
    s.timed = pre ++ e :: post →
    let g := timedGateway e.lead
    let free := (s.gateway g).enabled = true ∧ (s.gateway g).pending = none
    let handed := { s with timed := pre ++ post }.setGateway g
      { s.gateway g with pending := some { cue := e.cue, origin := .queue } }
    (∀ k : Fin 16, k.val = pre.length → e.mark = false → e.due = s.ltu.count →
      (¬free → exec (.timedCueDue k) s = .next
        { s with timed := pre ++ { e with mark := true } :: post })
      ∧ (free → (∀ x ∈ pre, x.lead ≠ e.lead) → exec (.timedCueDue k) s = .next handed))
    ∧ ((∀ x ∈ pre, x.lead ≠ e.lead) →
      (e.mark = true → free → exec (.timedHandoff e.lead) s = .next handed)
      ∧ (e.mark = false ∨ ¬free → exec (.timedHandoff e.lead) s = .next s))

/-! ### Faults -/

/-- An occurrence by its kind's record: nothing when masked; one event when already set; else status,
pointer, mutes and notice, with NOTICE_DROP, unless masked, where the notice finds no room. And the mute of
a voice by its state: an IDLE voice is MUTED at once, a RISING or SOUNDING one falls to MUTED from its
envelope (at envelope 0 the fall ends at once), a FALLING one turns its destination, and the kind joins the
set once. The voices in scope are none for NONE, those not OFF for DEVICE, those of the lead for LEAD, and
those handed over for VOICE (R95, R99, R151 to R156, R175, R190). -/
def Obligations.OccurrenceTaken : Prop :=
  (∀ (k : FaultKind) (sc : Scope) (s : State), (∀ vs slot, sc = .voices vs slot → vs.Nodup) →
    let t := raise k sc s
    ((s.fault k).detectMask = true → t = s)
    ∧ ((s.fault k).detectMask = false → (s.fault k).status = true →
      t = { s with counters := s.counters.map fun c => c.after 13 })
    ∧ ((s.fault k).detectMask = false → (s.fault k).status = false →
      t = { s with voices := t.voices, faults := t.faults, pointer := t.pointer
                   counters := t.counters, outq := t.outq }
      ∧ t.fault k = { s.fault k with status := true }
      ∧ t.pointer = (match s.pointer with | some p => some p | none => some k)
      ∧ ((s.fault k).severity = .notice → t.voices = s.voices)
      ∧ ((s.fault k).severity = .mute → ∀ v, t.voice v =
        if voiceInScope sc s v then
          (s.voice v).mutedBy k (rampIncrement s (s.voice v).owner)
        else s.voice v)
      ∧ ((s.fault k).reportMask = true ∨ (s.outq.length < 8 ∧ s.outq.countP OutItem.isNotice < 7) →
        (∀ k', k' ≠ k → t.fault k' = s.fault k')
        ∧ t.counters = s.counters.map fun c => c.after 13)
      ∧ ((s.fault k).reportMask = true → t.outq = s.outq)
      ∧ ((s.fault k).reportMask = false → s.outq.length < 8 → s.outq.countP OutItem.isNotice < 7 →
        t.outq = s.outq ++ [.notice
          { dest := 0, source := s.nodeAddr, kind := 0x60, tag := 0
            body := [BitVec.ofNat 8 (faultCode k).val, scopeItemByte sc] ++ bytes4 s.ltu.count }])
      ∧ ((s.fault k).reportMask = false →
        8 ≤ s.outq.length ∨ 7 ≤ s.outq.countP OutItem.isNotice →
        t.outq = s.outq
        ∧ (k ≠ .noticeDrop → (s.fault .noticeDrop).detectMask = false →
          (t.fault .noticeDrop).status = true))))
  ∧ (∀ x : OutItem, x.isNotice = true ↔ ∃ m, x = .notice m)
  ∧ ∀ (x : Voice) (k : FaultKind) (inc : Nat),
    let joined := { x with faults := if k ∈ x.faults then x.faults else x.faults ++ [k] }
    (x.state = .off → x.mutedBy k inc = x)
    ∧ (x.state = .idle → x.mutedBy k inc = { joined with state := .muted })
    ∧ (x.state = .rising ∨ x.state = .sounding →
      (x.envelope ≠ 0 → x.mutedBy k inc =
        { joined with state := .falling, dest := .muted, increment := inc })
      ∧ (x.envelope = 0 → x.mutedBy k inc =
        { joined with state := .muted, dest := .muted, increment := inc, crossfade := none }))
    ∧ (x.state = .falling → x.mutedBy k inc = { joined with dest := .muted })
    ∧ (x.state = .muted → x.mutedBy k inc = joined)

/-! ### The control lane -/

/-- FIFO_SEND, QUEUE_SEND and GAP_LIMIT: the START, MORE and LAST frames of a message sent in the device's own
cut, what leaves with the LAST, and the ninth gap frame (log entry 6). And the out lane of every good frame:
what it carries on a free lane, for a sender FIFO or QUEUE, and for a message cut through, what leaves with the
LAST, and when a relayed message is counted (R169, R172 to R175, R185, R186; log entry 11). -/
def Obligations.LaneEvents : Prop :=
  ((∀ m, (OutItem.reply m).bytes = some (messageBytes m) ∧ (OutItem.notice m).bytes = some (messageBytes m))
    ∧ OutItem.reservation.bytes = none
    ∧ ∀ m : List Byte,
      nextPiece m 0 = (encodeLane 1 (m.take (min 7 (m.length - 1))), some (min 7 (m.length - 1)))
      ∧ ∀ k, 0 < k →
        (k + 7 < m.length → nextPiece m k = (encodeLane 2 ((m.drop k).take 7), some (k + 7)))
        ∧ (m.length ≤ k + 7 → nextPiece m k = (encodeLane 3 (m.drop k), none))) ∧
  (∀ s : State, s.resetLow = false → s.ltu.link.running = true →
    (∀ m rest, s.fifo = m :: rest →
      (s.sender = .none → 2 ≤ m.length → exec .fifoSend s = .next
        { s with laneOut := encodeLane 1 (m.take (min 7 (m.length - 1)))
                 sender := .fifo (min 7 (m.length - 1)) })
      ∧ ∀ k, 0 < k → s.sender = .fifo k →
        (k + 7 < m.length → exec .fifoSend s = .next
          { s with laneOut := encodeLane 2 ((m.drop k).take 7), sender := .fifo (k + 7) })
        ∧ (m.length ≤ k + 7 → exec .fifoSend s = .next
          { s with laneOut := encodeLane 3 (m.drop k), sender := .none, fifo := rest
                   counters := s.counters.map fun c => c.after 11 }))
    ∧ (∀ m item rest, s.outq = item :: rest → (item = .reply m ∨ item = .notice m) →
      (s.sender = .none → s.fifo = [] → exec .queueSend s = .next
        { s with laneOut := encodeLane 1 ((messageBytes m).take (min 7 ((messageBytes m).length - 1)))
                 sender := .queue (min 7 ((messageBytes m).length - 1)) })
      ∧ ∀ k, 0 < k → s.sender = .queue k →
        (k + 7 < (messageBytes m).length → exec .queueSend s = .next
          { s with laneOut := encodeLane 2 (((messageBytes m).drop k).take 7)
                   sender := .queue (k + 7) })
        ∧ ((messageBytes m).length ≤ k + 7 → exec .queueSend s = .next
          { s with laneOut := encodeLane 3 ((messageBytes m).drop k), sender := .none
                   outq := rest }))
    ∧ ∀ a, s.assembly = some a → a.gap = 8 → ∃ t, exec .gapLimit s = .next t
      ∧ t = { s with assembly := none
                     sender := if s.sender = .cut then .none else s.sender
                     faults := t.faults, pointer := t.pointer, counters := t.counters
                     outq := t.outq }
      ∧ t = raise .ctrlRunon .none (abandoned s)
      ∧ ((s.fault .ctrlRunon).detectMask = false → (t.fault .ctrlRunon).status = true))
  ∧ ∀ (bytes : List Byte) (pins : PedalPins) (s : State), s.resetLow = false →
    isFrame bytes = true → frameGood bytes = true → OutItem.reservation ∉ s.outq →
    let lane := decodeLane (laneBytes bytes)
    let r := assemble lane s
    let silent := (∀ k, (s.fault k).reportMask = true) ∧ r.request = none
      ∧ (frameCount bytes).toNat % 64 ≠ 63
    ∃ t out, exec (.frameArrival bytes pins) s = .next t ∧ t.linkOut = some out
      ∧ laneBytes out = t.laneOut
      ∧ OutLane silent lane (laneBytes bytes) r.request s r.state t

/-- A message sent in the device's own cut and received by a node it names, or by every node as a broadcast,
arrives whole: no fault, the request with every field, the buffer EMPTY again; it fills max(2, ceil(n / 7))
frames; a broadcast is dropped from the relay with RELAY_DROP at a full FIFO, or captured into it. And each
lane frame at the buffer: a START chooses route and mode, one at a FIFO of two messages takes mode DROP with
RELAY_DROP whatever holds the lane (the model's reading, log entry 19), and one that
meets a message under assembly abandons it with CTRL_RUNON, as do bytes past 103 and the ninth gap; a LAST
hands on or captures a well-formed message and discards any other with CTRL_CHECK (R166 to R174, R186). -/
def Obligations.LaneRoundTrip : Prop :=
  (∀ (s : State) (m : Message), s.assembly = none → m.body.length ≤ 96 →
    let lanes := lanePieces 16 (messageBytes m) 0
    let r := receiveLanes lanes s
    lanes.length = max 2 (((messageBytes m).length + 6) / 7)
      ∧ (m.dest = s.nodeAddr → r.raised = [] ∧ r.state = s
        ∧ r.request = some (m.kind,
          { source := m.source, tag := m.tag, broadcast := false, body := m.body }))
      ∧ (m.dest = 63 → s.nodeAddr ≠ 63 →
        r.raised = (if 2 ≤ s.fifo.length then [.relayDrop] else [])
        ∧ r.request = some (m.kind,
          { source := m.source, tag := m.tag, broadcast := true, body := m.body })
        ∧ r.state = { s with fifo := if chosenMode s = .capture then s.fifo ++ [messageBytes m]
                                     else s.fifo }))
  ∧ (∀ (s : State) (bytes : List Byte),
    let started := fun u : State =>
      { u with
        assembly := some { bytes := bytes, gap := 0, route := chosenRoute u (byteAt bytes 0) } }
    let dropped := decide (byteAt bytes 0 ≠ s.nodeAddr ∧ 2 ≤ s.fifo.length)
    (s.assembly = none →
      assemble (.start bytes) s =
        { state := started s, raised := if dropped then [.relayDrop] else [], request := none }
      ∧ assemble (.more bytes) s = { state := s, raised := [], request := none }
      ∧ assemble (.last bytes) s = { state := s, raised := [], request := none }
      ∧ assemble .idle s = { state := s, raised := [], request := none })
    ∧ ∀ a, s.assembly = some a →
      let whole := a.bytes ++ bytes
      assemble (.start bytes) s =
        { state := started (abandoned s)
          raised := .ctrlRunon :: if dropped then [.relayDrop] else [], request := none }
      ∧ (a.gap < 8 → assemble .idle s =
        { state := { s with assembly := some { a with gap := a.gap + 1 } }, raised := []
          request := none })
      ∧ (8 ≤ a.gap → assemble .idle s =
        { state := abandoned s, raised := [.ctrlRunon], request := none })
      ∧ (103 < whole.length →
        assemble (.more bytes) s = { state := abandoned s, raised := [.ctrlRunon], request := none }
        ∧ assemble (.last bytes) s =
          { state := abandoned s, raised := [.ctrlRunon], request := none })
      ∧ (whole.length ≤ 103 →
        assemble (.more bytes) s =
          { state := { s with assembly := some { a with bytes := whole, gap := 0 } }, raised := []
            request := none }
        ∧ (messageOk whole = false → assemble (.last bytes) s =
          { state := { s with assembly := none }, raised := [.ctrlCheck], request := none })
        ∧ (messageOk whole = true → assemble (.last bytes) s =
          { state := { s with
              assembly := none
              fifo := if a.route.mode = some .capture then s.fifo ++ [whole] else s.fifo }
            raised := []
            request := match a.route with
              | .consume => some (requestOf whole false)
              | .consumeAndRelay _ => some (requestOf whole true)
              | .relay _ => none })))
  ∧ (∀ (r : Route) (m : RelayMode), r.mode = some m ↔ r = .relay m ∨ r = .consumeAndRelay m)
  ∧ ∀ bytes : List Byte, messageOk bytes = true ↔
    bytes.length = 7 + (byteAt bytes 4).toNat
      ∧ bytes.drop (bytes.length - 2) = checkBytes (crc (bytes.take (bytes.length - 2)))

/-! ### Requests as such -/

/-- The kind byte names the row and the row its kind byte, both ways, for every well-formed request command; and
the formats as chapters 01, 10 and 11 lay them out: the request kinds with their codes and body lengths, the
statuses, the fields of a frame, its check with the manual's check value, lane markers, and messages (R1 to R4,
R166, R167, R186, R187). -/
def Obligations.RequestKindsRoundTrip : Prop :=
  (∀ (i : Instr) (kind : Byte) (r : Req), WellFormed i = true → messageOf i = some (kind, r) →
    commandOf kind r = i)
  ∧ (∀ (kind : Byte) (r : Req), messageOf (commandOf kind r) = some (kind, r))
  ∧ (∀ (k k' : ReqKind) (b : Byte), (kindOfByte b = some k ↔ kindByte k = b)
    ∧ (kindByte k = kindByte k' → k = k'))
  ∧ ([.identify, .readCap, .configure, .readConfig, .loadBegin, .loadData, .loadCommit, .loadAbort, .readTable,
      .cueNow, .cueAt, .cueFlush, .gatewaySet, .portSet, .readState, .readFaults, .faultClear, .faultSetup,
      .counterSetup, .readCounters, .engineReset].map kindByte = (List.range' 1 21).map (BitVec.ofNat 8))
  ∧ (∀ r : Req, [Instr.identify r, .readCap r, .configure r, .readConfig r, .loadBegin r, .loadData r,
      .loadCommit r, .loadAbort r, .readTable r, .cueNow r, .cueAt r, .cueFlush r, .gatewaySet r, .portSet r,
      .readState r, .readFaults r, .faultClear r, .faultSetup r, .counterSetup r, .readCounters r,
      .engineReset r].map messageOf = (List.range' 1 21).map fun n => some (BitVec.ofNat 8 n, r))
  ∧ (∀ (k : ReqKind) (n : Nat), bodyLengthOk k n = true ↔
    match k with
    | .loadData => n ≤ 96
    | .identify | .readConfig | .loadCommit | .loadAbort | .readState | .readFaults | .readCounters
    | .engineReset => n = 0
    | .readCap | .cueFlush => n = 1
    | .loadBegin | .portSet | .faultClear => n = 2
    | .counterSetup => n = 3
    | .cueNow => n = 4
    | .readTable | .faultSetup => n = 5
    | .cueAt => n = 8
    | .configure | .gatewaySet => n = 10)
  ∧ ([Status.done, .busy, .range, .inUse, .invalid, .noLoad, .full, .late, .closed, .unknown].map statusByte
    = (List.range' 0x40 10).map (BitVec.ofNat 8))
  ∧ (∀ bytes : List Byte,
    let b := byteAt bytes
    (isFrame bytes = true ↔ bytes.length = 88 ∧ b 0 = 0x9C ∧ b 1 = 0x35)
    ∧ (frameGood bytes = true ↔ bytes.drop 86 = checkBytes (crc ((bytes.drop 2).take 84)))
    ∧ checkedPart bytes = (bytes.drop 2).take 84
    ∧ frameCount bytes = b 2 ++ b 3 ++ b 4 ++ b 5
    ∧ laneBytes bytes = (bytes.drop 78).take 8
    ∧ ∀ k : Nat, slotBytes bytes k = (bytes.drop (6 + 3 * k)).take 3
      ∧ slotSample bytes k = (b (6 + 3 * k) ++ b (7 + 3 * k) ++ b (8 + 3 * k) : BitVec 24).toInt)
  ∧ (∀ x : Int, -8388608 ≤ x → x ≤ 8388607 →
    (sampleBytes x).length = 3 ∧ slotSample (List.replicate 6 0 ++ sampleBytes x) 0 = x)
  ∧ (∀ w : Word32, (bytes4 w).length = 4
    ∧ byteAt (bytes4 w) 0 ++ byteAt (bytes4 w) 1 ++ byteAt (bytes4 w) 2 ++ byteAt (bytes4 w) 3 = w)
  ∧ ((∀ (bytes : List Byte) (b : Byte), crc [] = 0xFFFF ∧ crc (bytes ++ [b]) =
      ([b.getLsbD 7, b.getLsbD 6, b.getLsbD 5, b.getLsbD 4, b.getLsbD 3, b.getLsbD 2, b.getLsbD 1,
        b.getLsbD 0].foldl (fun (r : Word16) bit =>
          if r.msb = bit then r <<< 1 else (r <<< 1) ^^^ 0x1021) (crc bytes)))
    ∧ crc [0x31, 0x32, 0x33, 0x34, 0x35, 0x36, 0x37, 0x38, 0x39] = 0x29B1
    ∧ ∀ c : Word16, ∃ hi lo : Byte, checkBytes c = [hi, lo] ∧ hi ++ lo = c)
  ∧ (∀ lane : List Byte,
    let kind := (byteAt lane 0).toNat / 16
    let count := (byteAt lane 0).toNat % 16
    let data := (lane.drop 1).take count
    (count = 0 ∨ 8 ≤ count ∨ kind = 0 ∨ 4 ≤ kind → decodeLane lane = .idle)
    ∧ (1 ≤ count → count ≤ 7 → (kind = 1 → decodeLane lane = .start data)
      ∧ (kind = 2 → decodeLane lane = .more data) ∧ (kind = 3 → decodeLane lane = .last data)))
  ∧ (∀ (kind : Nat) (data : List Byte), data.length ≤ 7 → encodeLane kind data =
    BitVec.ofNat 8 (16 * kind + data.length) :: (data ++ List.replicate (7 - data.length) 0))
  ∧ (∀ d c b a : Byte, num2 b a = (b ++ a).toNat ∧ num4 d c b a = d ++ c ++ b ++ a)
  ∧ (∀ (bytes : List Byte) (broadcast : Bool), requestOf bytes broadcast = (byteAt bytes 2,
    { source := byteAt bytes 1, tag := byteAt bytes 3, broadcast := broadcast
      body := (bytes.drop 5).take (byteAt bytes 4).toNat }))
  ∧ ∀ m : Message,
    let front := m.dest :: m.source :: m.kind :: m.tag :: BitVec.ofNat 8 m.body.length :: m.body
    messageBytes m = front ++ checkBytes (crc front)

/-- A request that is answered is counted and executed by the rule of its kind, and its reply takes the place
reserved before the execution; a broadcast is counted and executed, and forms no reply. A good frame
whose LAST completes a well-formed message executes it as its route says: for this node alone, the request is
counted and executed on the tables, configuration, load and thresholds as they stood, and its reply stands
behind what the queue held and before every notice of the frame; a broadcast is counted and executed with no
reply; a message for another node is not executed; and a queue that stays full drops the request with
REQUEST_DROP (log entry 11). In a frame with nothing else to do, the frame does what the request's row does
(log entry 7) on the state the frame has brought (R9, R170, R175, R176, R185, R191). -/
def Obligations.RequestsExecuted : Prop :=
  (∀ (kind : Byte) (r : Req) (s : State), Answerable r s →
    let a := executeKind kind r (reserved s)
    exec (commandOf kind r) s = .next { a.state with
      outq := a.state.outq.set s.outq.length (.reply
        { dest := r.source, source := s.nodeAddr, kind := statusByte a.status, tag := r.tag
          body := a.body }) }) ∧
  (∀ (kind : Byte) (r : Req) (s : State), s.resetLow = false → r.broadcast = true →
    ∃ t, exec (commandOf kind r) s = .next t
      ∧ t = (executeKind kind r (countEvent .accepted s)).state
      ∧ ∀ m, OutItem.reply m ∈ t.outq → OutItem.reply m ∈ s.outq)
  ∧ ∀ (bytes : List Byte) (pins : PedalPins) (s : State) (a : Assembly) (last : List Byte),
    s.resetLow = false → isFrame bytes = true → frameGood bytes = true →
    s.assembly = some a → decodeLane (laneBytes bytes) = .last last →
    (a.bytes ++ last).length ≤ 103 → messageOk (a.bytes ++ last) = true →
    let whole := a.bytes ++ last
    let kind := byteAt whole 2
    let r := fun broadcast : Bool =>
      ({ source := byteAt whole 1, tag := byteAt whole 3, broadcast := broadcast
         body := (whole.drop 5).take (byteAt whole 4).toNat } : Req)
    ∃ t, exec (.frameArrival bytes pins) s = .next t
      ∧ (a.route = .consume → s.outq.length < 8 → OutItem.reservation ∉ s.outq →
        CountedAs 10 (kindOfByte kind) s t
        ∧ ∃ u pre post, StandsAs s u ∧ StandsAs (executeKind kind (r false) u).state t
          ∧ t.outq = pre ++ .reply
            { dest := byteAt whole 1, source := s.nodeAddr, tag := byteAt whole 3
              kind := statusByte (executeKind kind (r false) u).status
              body := (executeKind kind (r false) u).body } :: post
          ∧ pre <:+ s.outq ∧ ∀ x ∈ post, x.isNotice = true)
      ∧ (∀ mode, a.route = .consumeAndRelay mode → CountedAs 10 (kindOfByte kind) s t
        ∧ (∃ u, StandsAs s u ∧ StandsAs (executeKind kind (r true) u).state t)
        ∧ ∀ m, OutItem.reply m ∈ t.outq → OutItem.reply m ∈ s.outq)
      ∧ (∀ mode, a.route = .relay mode → StandsAs s t
        ∧ (∀ i : Fin 4, (s.counters[i]).selector = 10 → t.counters[i] = s.counters[i])
        ∧ ∀ m, OutItem.reply m ∈ t.outq → OutItem.reply m ∈ s.outq)
      ∧ (a.route = .consume → 8 ≤ s.outq.length → (∀ k, s.sender ≠ .queue k) →
        StandsAs s t ∧ CountedAs 10 none s t ∧ t.outq = s.outq
        ∧ ((s.fault .requestDrop).detectMask = false → (t.fault .requestDrop).status = true))
      ∧ (a.route = .consume → frameCount bytes = s.ltu.count + 1 →
        (frameCount bytes).toNat % 64 ≠ 63 → s.timed = [] → (∀ v, (s.voice v).runs = false) →
        s.outq = [] → s.fifo = [] → s.sender = .none → 1 ≤ s.config.stuckLimit →
        (∀ l : LineId, (s.pedal l).level = some (pinLevel pins[l])
          ∧ ¬PedalJudged s.config.stuckLimit pins[l] (s.pedal l)) →
        ∃ w, exec (commandOf kind (r false))
            { s with pedalPins := pins, ltu := t.ltu, assembly := none, laneOut := List.replicate 8 0
                     leadA := { s.leadA with
                       history := ((leadSamples s bytes).1 :: s.leadA.history).take 2048 }
                     leadB := { s.leadB with
                       history := ((leadSamples s bytes).2 :: s.leadB.history).take 2048 } } = .next w
          ∧ t = { w with receiver := { framed := true, sinceStart := none }, linkOut := t.linkOut
                         pedals := t.pedals, draws := t.draws })

/-- A request that meets 8 messages in the outbound queue is counted with code 10, discarded unexecuted and
raises REQUEST_DROP, whose occurrences are the only other events (R163, R176). -/
def Obligations.FullQueueDropsRequest : Prop :=
  ∀ (kind : Byte) (r : Req) (s : State), s.resetLow = false → r.broadcast = false →
    8 ≤ s.outq.length → ∃ t, exec (commandOf kind r) s = .next t
      ∧ t = { s with faults := t.faults, pointer := t.pointer, counters := t.counters }
      ∧ t = raise .requestDrop .none { s with counters := s.counters.map fun c => c.after 10 }
      ∧ (∀ i : Fin 4, (s.counters[i]).selector ≠ 13 → t.counters[i] = (s.counters[i]).after 10)
      ∧ ((s.fault .requestDrop).detectMask = false → (t.fault .requestDrop).status = true)

/-- The two checks before every execution, UNKNOWN and INVALID, and what a refusal changes: nothing, but
for a commit's closed load and, at a timed cue, what an occurrence touches (R176, R181, R142, R143). -/
def Obligations.RefusalsChangeNothing : Prop :=
  (∀ (kind : Byte) (r : Req) (s : State), Answerable r s →
    (kindOfByte kind = none →
      exec (.unknownRequest kind r) s = .next (answered r .unknown [] s))
    ∧ ∀ k, kindOfByte kind = some k → bodyLengthOk k r.body.length = false →
      exec (commandOf kind r) s = .next (answered r .invalid [] s))
  ∧ ∀ (kind : Byte) (r : Req) (s : State), (executeKind kind r s).status ≠ .done →
    (executeKind kind r s).body = []
    ∧ (kindOfByte kind ≠ some .loadCommit → kindOfByte kind ≠ some .cueAt →
      (executeKind kind r s).state = s)
    ∧ (kindOfByte kind = some .loadCommit → (executeKind kind r s).state = s
      ∨ ((executeKind kind r s).status = .invalid
        ∧ (executeKind kind r s).state = { s with load := none }))
    ∧ (kindOfByte kind = some .cueAt →
      (executeKind kind r s).state =
        { s with voices := (executeKind kind r s).state.voices
                 faults := (executeKind kind r s).state.faults
                 pointer := (executeKind kind r s).state.pointer
                 counters := (executeKind kind r s).state.counters
                 outq := (executeKind kind r s).state.outq })

/-! ### Identity, configuration and pictures -/

/-- IDENTIFY gives the first index; READ_CAP gives the fixed chain of five records, the node address in the
first, and RANGE for any other index (R177, R190). -/
def Obligations.IdentityChain : Prop :=
  ∀ (r : Req) (s : State), Answerable r s →
    (r.body = [] → exec (.identify r) s = .next (answered r .done [1] s))
    ∧ (r.body = [1] → exec (.readCap r) s = .next (answered r .done
        [1, 2, 0x1D, 0x3A, 0x04, 0x28, 1, s.nodeAddr] s))
    ∧ (r.body = [2] → exec (.readCap r) s = .next (answered r .done [2, 3, 24, 2, 8, 64] s))
    ∧ (r.body = [3] → exec (.readCap r) s = .next (answered r .done
        [3, 4, 2, 64, 16, 32, 2, 0] s))
    ∧ (r.body = [4] → exec (.readCap r) s = .next (answered r .done [4, 5, 8, 16, 16] s))
    ∧ (r.body = [5] → exec (.readCap r) s = .next (answered r .done [5, 0, 13, 4] s))
    ∧ ∀ i : Byte, r.body = [i] → i.toNat = 0 ∨ 6 ≤ i.toNat →
      exec (.readCap r) s = .next (answered r .range [] s)

/-- CONFIGURE judged whole: RANGE, then IN_USE for a lead slot that is the output slot of a voice not OFF,
else every field stored, the window and the limit clamped (R6, R178, R188). -/
def Obligations.ConfigureStores : Prop :=
  ∀ (r : Req) (s : State), Answerable r s → r.body.length = 10 →
    let b := fun i => (byteAt r.body i).toNat
    let f := fun i => (byteAt r.body 0).getLsbD i
    (24 ≤ b 1 ∨ (f 0 = true ∧ 24 ≤ b 2) ∨ 1 < b 3 ∨ 1 < b 4 ∨ (f 1 = true ∧ 32 ≤ b 8)
        ∨ (f 2 = true ∧ 32 ≤ b 9) →
      exec (.configure r) s = .next (answered r .range [] s))
    ∧ (b 1 < 24 → (f 0 = true → b 2 < 24) → b 3 ≤ 1 → b 4 ≤ 1 → (f 1 = true → b 8 < 32) →
        (f 2 = true → b 9 < 32) → ∃ c : ConfigRecord,
      c.slotA.val = b 1 ∧ c.slotB.map Fin.val = (if f 0 then some (b 2) else none)
      ∧ c.lossAction = (if b 3 = 0 then .holdover else .engine)
      ∧ c.latePolicy = (if b 4 = 0 then .apply else .drop)
      ∧ c.lateWindow = min 4800 (b 5 * 256 + b 6) ∧ c.stuckLimit = max 1 (min 120 (b 7))
      ∧ c.startA.map Fin.val = (if f 1 then some (b 8) else none)
      ∧ c.startB.map Fin.val = (if f 2 then some (b 9) else none)
      ∧ ((∃ v p, (s.voice v).state ≠ .off ∧ (s.voice v).part = some p
            ∧ (p.slot = c.slotA ∨ c.slotB = some p.slot)) →
          exec (.configure r) s = .next (answered r .inUse [] s))
      ∧ ((∀ v p, (s.voice v).state ≠ .off → (s.voice v).part = some p →
            p.slot ≠ c.slotA ∧ c.slotB ≠ some p.slot) →
          exec (.configure r) s = .next (answered r .done [] { s with config := c })))

/-- READ_CONFIG returns the configuration block, READ_TABLE the bytes of the installed table from the offset
on, or RANGE, and neither changes anything; RecordsReadBack says where each field stands (R179, R182,
R188). -/
def Obligations.ConfigAndTablesRead : Prop :=
  ∀ (r : Req) (s : State), Answerable r s →
    (r.body = [] → exec (.readConfig r) s = .next (answered r .done (bytesOfConfig s.config) s))
    ∧ ∀ kind index hi lo len : Byte, r.body = [kind, index, hi, lo, len] →
      let offset := hi.toNat * 256 + lo.toNat
      (2 < kind.toNat ∨ (kind = 0 ∧ 2 ≤ index.toNat) ∨ (kind = 1 ∧ 16 ≤ index.toNat)
          ∨ (kind = 2 ∧ 32 ≤ index.toNat) ∨ 96 < len.toNat →
        exec (.readTable r) s = .next (answered r .range [] s))
      ∧ (len.toNat ≤ 96 →
        (∀ i : Fin 2, kind = 0 → index.toNat = i.val →
          exec (.readTable r) s = .next (if (bytesOfTuning s.tuning[i]).length ≤ offset then
              answered r .range [] s
            else answered r .done (((bytesOfTuning s.tuning[i]).drop offset).take len.toNat) s))
        ∧ (∀ i : Fin 16, kind = 1 → index.toNat = i.val →
          exec (.readTable r) s = .next (if (bytesOfMap s.maps[i]).length ≤ offset then
              answered r .range [] s
            else answered r .done (((bytesOfMap s.maps[i]).drop offset).take len.toNat) s))
        ∧ (∀ i : Fin 32, kind = 2 → index.toNat = i.val →
          exec (.readTable r) s = .next (if (bytesOfScene s.scenes[i]).length ≤ offset then
              answered r .range [] s
            else answered r .done (((bytesOfScene s.scenes[i]).drop offset).take len.toNat) s)))

/-- READ_STATE returns 87 bytes: link state and held count, nine bytes a lead, eight a voice, and changes
nothing; absent values are 0, the note of a SILENT lead with them, and bits without a name are 0 (R110, R183,
R189, R190). Fields are told for states whose fields fit their bytes. -/
def Obligations.StateRead : Prop :=
  ∀ (r : Req) (s : State), Answerable r s → r.body = [] →
    ∃ b, exec (.readState r) s = .next (answered r .done b s) ∧ b.length = 87
      ∧ byteAt b 0 = (match s.ltu.link with
        | .seeking => 0 | .relocking => 1 | .locked => 2 | .holdover => 3)
      ∧ num4 (byteAt b 1) (byteAt b 2) (byteAt b 3) (byteAt b 4) = s.ltu.count
      ∧ (∀ L,
        let j := match L with | Lead.a => 5 | Lead.b => 14
        let c := s.lead L
        (byteAt b j).toNat % 4 = (match c.note with
          | .silent => 0 | .voiced _ => 1 | .trailing _ => 2)
        ∧ (byteAt b j).getLsbD 2 = c.held ∧ (byteAt b j).getLsbD 3 = c.silenced
        ∧ (byteAt b j).getLsbD 4 = c.scene.isSome ∧ (byteAt b j).getLsbD 5 = c.transition.isSome
        ∧ (byteAt b j).toNat < 64
        ∧ (c.note = .silent → byteAt b (j + 1) = 0)
        ∧ (∀ n, c.note = .voiced n ∨ c.note = .trailing n → n ≤ 127 → (byteAt b (j + 1)).toNat = n)
        ∧ (c.estimate ≤ 10240 → num2 (byteAt b (j + 2)) (byteAt b (j + 3)) = c.estimate)
        ∧ (c.confidence ≤ 255 → (byteAt b (j + 4)).toNat = c.confidence)
        ∧ (c.scene = none → byteAt b (j + 5) = 0)
        ∧ (∀ n, c.scene = some n → (byteAt b (j + 5)).toNat = n.val)
        ∧ (byteAt b (j + 6)).toNat = c.map.val ∧ (byteAt b (j + 7)).toNat = c.key.val
        ∧ (c.transition = none → byteAt b (j + 8) = 0)
        ∧ ∀ t, c.transition = some t → t.level ≤ 15 → (byteAt b (j + 8)).toNat = t.level)
      ∧ ∀ v : VoiceId,
        let j := 23 + 8 * v.val
        let x := s.voice v
        (byteAt b j).toNat % 8 = (match x.state with
          | .off => 0 | .idle => 1 | .rising => 2 | .sounding => 3 | .falling => 4 | .muted => 5)
        ∧ (byteAt b j).getLsbD 3 = false
        ∧ (byteAt b j).toNat / 16 = (match x.owner with
          | none => 0 | some .a => 1 | some .b => 2)
        ∧ byteAt b (j + 1) = (match x.part with | some p => BitVec.ofNat 8 p.slot.val | none => 255)
        ∧ (x.envelope ≤ 4096 → num2 (byteAt b (j + 2)) (byteAt b (j + 3)) = x.envelope)
        ∧ (4096 ≤ x.currentStep → x.currentStep ≤ 65536 →
          num2 (byteAt b (j + 4)) (byteAt b (j + 5)) + 4096 = x.currentStep)
        ∧ (0 ≤ x.distance → x.distance < 65536 * 16384 →
          (num2 (byteAt b (j + 6)) (byteAt b (j + 7)) : Int) = x.distance / 16384)

/-- READ_FAULTS returns 14 bytes, a byte a kind and the pointer's, READ_COUNTERS 24, six a counter; reading
changes nothing (R160, R165, R190). -/
def Obligations.FaultsAndCountersRead : Prop :=
  ∀ (r : Req) (s : State), Answerable r s → r.body = [] →
    (∃ b, exec (.readFaults r) s = .next (answered r .done b s) ∧ b.length = 14
      ∧ (∀ k : FaultKind,
        (byteAt b (faultCode k).val).toNat =
          (if (s.fault k).status then 1 else 0) + (if (s.fault k).detectMask then 2 else 0)
            + (if (s.fault k).reportMask then 4 else 0)
            + (if (s.fault k).severity = .mute then 8 else 0))
      ∧ (byteAt b 13).toNat = (match s.pointer with
        | some k => 128 + (faultCode k).val
        | none => 0))
    ∧ ∃ b, exec (.readCounters r) s = .next (answered r .done b s) ∧ b.length = 24
      ∧ ∀ i : Fin 4,
        let c := (countEvent .accepted s).counters[i]
        num4 (byteAt b (6 * i.val)) (byteAt b (6 * i.val + 1)) (byteAt b (6 * i.val + 2))
            (byteAt b (6 * i.val + 3)) = c.count
        ∧ (c.selector ≤ 14 → (byteAt b (6 * i.val + 4)).toNat = c.selector)
        ∧ (byteAt b (6 * i.val + 5)).toNat = (if c.inhibit then 1 else 0)

/-! ### Loads -/

/-- LOAD_BEGIN, LOAD_DATA and LOAD_ABORT: RANGE, BUSY, NO_LOAD, the 512-byte limit and the open load;
LOAD_COMMIT: NO_LOAD, IN_USE with the load left open while a lead's scene or map names the target, INVALID
with the load closed, else the content installed whole and the load closed; RecordsReadBack says which
buffers are read and as what (R56, R57, R72, R73, R112, R113, R180, R181, R188). -/
def Obligations.LoadsTaken : Prop :=
  (∀ (r : Req) (s : State), Answerable r s →
    (∀ kind index : Byte, r.body = [kind, index] →
      (2 < kind.toNat ∨ (kind = 0 ∧ 2 ≤ index.toNat) ∨ (kind = 1 ∧ 16 ≤ index.toNat)
          ∨ (kind = 2 ∧ 32 ≤ index.toNat) →
        exec (.loadBegin r) s = .next (answered r .range [] s))
      ∧ ∀ t : LoadTarget,
        (match t with
          | .tuning i => kind = 0 ∧ index.toNat = i.val
          | .map i => kind = 1 ∧ index.toNat = i.val
          | .scene i => kind = 2 ∧ index.toNat = i.val) →
        exec (.loadBegin r) s = .next
          (if s.load = none then
            answered r .done [] { s with load := some { target := t, buffer := [] } }
          else answered r .busy [] s))
    ∧ (r.body.length ≤ 96 →
      (s.load = none → exec (.loadData r) s = .next (answered r .noLoad [] s))
      ∧ ∀ l, s.load = some l →
        (512 < l.buffer.length + r.body.length →
          exec (.loadData r) s = .next (answered r .range [] s))
        ∧ (l.buffer.length + r.body.length ≤ 512 → exec (.loadData r) s = .next (answered r .done []
          { s with load := some { target := l.target, buffer := l.buffer ++ r.body } })))
    ∧ (r.body = [] → exec (.loadAbort r) s = .next
      (if s.load = none then answered r .noLoad [] s
      else answered r .done [] { s with load := none })))
  ∧ (∀ (r : Req) (s : State), Answerable r s → r.body = [] →
    (s.load = none → exec (.loadCommit r) s = .next (answered r .noLoad [] s))
    ∧ ∀ t buffer, s.load = some { target := t, buffer := buffer } →
      let used := ∃ L n, (s.lead L).scene = some n ∧ (match t with
        | .tuning i => s.scenes[n].tuning = i
        | .map i => (s.lead L).map = i
        | .scene i => n = i)
      (used → exec (.loadCommit r) s = .next (answered r .inUse [] s))
      ∧ (¬used → match t with
        | .tuning i => exec (.loadCommit r) s = .next (match tuningOfBytes buffer with
          | none => answered r .invalid [] { s with load := none }
          | some rows =>
            answered r .done [] { s with load := none, tuning := s.tuning.set i rows })
        | .map i => exec (.loadCommit r) s = .next (
          if buffer.length = 48 then
            answered r .done [] { s with
              load := none
              maps := s.maps.set i (buffer.map fun b =>
                if b = 0x80#8 then none else some (max (-24) (min 24 b.toInt))) }
          else answered r .invalid [] { s with load := none })
        | .scene i => exec (.loadCommit r) s = .next (match sceneOfBytes buffer with
          | none => answered r .invalid [] { s with load := none }
          | some c => answered r .done [] { s with load := none, scenes := s.scenes.set i c })))

/-- Every table and configuration that keeps its law reads back from its own bytes, and what passes a commit
keeps the law. Where each field stands: a tuning table is read from a buffer exactly when it lies there and
meets its conditions; a scene is read exactly from a buffer that none of the refusals meets, each field at its
place and clamped as it is stored; and each record is returned with its fields at their places (R54 to R56,
R71, R72, R111, R112, R178, R179, R188, R189; log entry 21 for the presence bits of a scene). -/
def Obligations.RecordsReadBack : Prop :=
  (∀ rows, TuningOk rows → tuningOfBytes (bytesOfTuning rows) = some rows)
  ∧ (∀ m, MapOk m → mapOfBytes (bytesOfMap m) = some m)
  ∧ (∀ c, SceneOk c → sceneOfBytes (bytesOfScene c) = some c)
  ∧ (∀ c : ConfigRecord, c.lateWindow ≤ 4800 → 1 ≤ c.stuckLimit → c.stuckLimit ≤ 120 →
    (bytesOfConfig c).length = 10 ∧ configOfBody (bytesOfConfig c) = some c)
  ∧ (∀ bs rows, tuningOfBytes bs = some rows → TuningOk rows ∧ bytesOfTuning rows = bs)
  ∧ (∀ bs m, mapOfBytes bs = some m → MapOk m)
  ∧ (∀ bs c, sceneOfBytes bs = some c → SceneOk c)
  ∧ ((∀ bs rows, tuningOfBytes bs = some rows ↔ TuningLaid bs rows ∧ TuningInstalled rows)
    ∧ (∀ rows, TuningOk rows ↔ TuningInstalled rows)
    ∧ ∀ rows, TuningOk rows → TuningLaid (bytesOfTuning rows) rows)
  ∧ (∀ bs, mapOfBytes bs = if bs.length = 48 then some (bs.map fun b =>
      if b = 0x80#8 then none else some (max (-24) (min 24 b.toInt))) else none)
  ∧ (∀ m, MapOk m → (bytesOfMap m).length = 48 ∧ ∀ (j : Nat) (_ : j < m.length),
    (byteAt (bytesOfMap m) j).toInt = (m[j]).getD (-128))
  ∧ (∀ bs, (sceneOfBytes bs = none ↔ SceneRefused bs)
    ∧ ∀ c, sceneOfBytes bs = some c → ∃ raw, SceneLaid bs raw ∧ c = sceneClamped raw)
  ∧ (∀ c, SceneOk c → SceneReturned (bytesOfScene c) c)
  ∧ (∀ es : List SceneEntry, distinctVoices es = true ↔ es.Pairwise fun e e' => e.voice ≠ e'.voice)
  ∧ ∀ c : ConfigRecord, c.lateWindow ≤ 4800 → c.stuckLimit ≤ 120 → ConfigLaid (bytesOfConfig c) c

/-! ### Cue requests -/

/-- CUE_NOW: RANGE for a bad lead or cue, CLOSED for a disabled gateway, else the cue pending in G4 or G5,
replacing one that waits there; PORT_SET stores the threshold, clamped (R134, R138, R145). -/
def Obligations.CueNowAndPortSet : Prop :=
  ∀ (r : Req) (s : State), Answerable r s →
    (∀ lead k a b : Byte, r.body = [lead, k, a, b] →
      (2 ≤ lead.toNat ∨ cueOfBytes k a b = none →
        exec (.cueNow r) s = .next (answered r .range [] s))
      ∧ ∀ (L : Lead) (c : Cue), lead = (match L with | .a => 0 | .b => 1) →
        cueOfBytes k a b = some c →
        let g : Fin 8 := match L with | .a => 4 | .b => 5
        ((s.gateway g).enabled = false → exec (.cueNow r) s = .next (answered r .closed [] s))
        ∧ ((s.gateway g).enabled = true → (s.gateway g).pending = none →
          exec (.cueNow r) s = .next (answered r .done [] (s.setGateway g
            { s.gateway g with pending := some { cue := c, origin := .request } })))
        ∧ ((s.gateway g).enabled = true → (s.gateway g).pending ≠ none →
          exec (.cueNow r) s = .next (countEvent .cueDropped (answered r .done [] (s.setGateway g
            { s.gateway g with pending := some { cue := c, origin := .request } })))))
    ∧ ∀ lead t : Byte, r.body = [lead, t] →
      (2 ≤ lead.toNat → exec (.portSet r) s = .next (answered r .range [] s))
      ∧ (lead = 0 → exec (.portSet r) s = .next
        (answered r .done [] { s with thresholdA := min 15 t.toNat }))
      ∧ (lead = 1 → exec (.portSet r) s = .next
        (answered r .done [] { s with thresholdB := min 15 t.toNat }))

/-- The cue bytes that are valid, and what they say (R128, R187, R188). -/
def Obligations.CueBytes : Prop :=
  ∀ k a b : Byte,
    (cueOfBytes k a b = none ↔ 7 ≤ k.toNat ∨ (k = 0 ∧ 32 ≤ a.toNat)
      ∨ (k = 2 ∧ ((12 ≤ a.toNat ∧ a ≠ 255) ∨ (16 ≤ b.toNat ∧ b ≠ 255) ∨ (a = 255 ∧ b = 255))))
    ∧ (∀ n : Fin 32, cueOfBytes k a b = some (.scene n) ↔ k = 0 ∧ a.toNat = n.val)
    ∧ (cueOfBytes k a b = some .step ↔ k = 1) ∧ (cueOfBytes k a b = some .hold ↔ k = 3)
    ∧ (cueOfBytes k a b = some .release ↔ k = 4) ∧ (cueOfBytes k a b = some .silence ↔ k = 5)
    ∧ (cueOfBytes k a b = some .resume ↔ k = 6)
    ∧ ∀ key map, cueOfBytes k a b = some (.chord key map) → k = 2
      ∧ (match key with | some i => a.toNat = i.val | none => a = 255)
      ∧ (match map with | some i => b.toNat = i.val | none => b = 255)

/-- CUE_FLUSH: RANGE for a bad lead; else every entry of the lead leaves the queue, the others keep their
order, the lead's timed gateway is emptied, nothing else is touched and nothing is counted as dropped
(R144). -/
def Obligations.CueFlushed : Prop :=
  ∀ (r : Req) (s : State), Answerable r s → ∀ lead : Byte, r.body = [lead] →
    (2 ≤ lead.toNat → exec (.cueFlush r) s = .next (answered r .range [] s))
    ∧ ∀ L : Lead, lead = (match L with | .a => 0 | .b => 1) →
      let g : Fin 8 := match L with | .a => 6 | .b => 7
      exec (.cueFlush r) s = .next (answered r .done []
        { s with timed := s.timed.filter fun e => e.lead ≠ L
                 gateways := s.gateways.set g { s.gateways[g] with pending := none } })

/-- CUE_AT judged in order: RANGE, CLOSED, RANGE too far ahead, late beyond the window under DROP (LATE)
or APPLY, FULL, or accepted, with the entry's place and the hand-off; CUE_LATE and CUE_OVERFLOW have scope the
request's lead (R139, R141 to R143, R151). -/
def Obligations.CueAtJudged : Prop :=
  ∀ (r : Req) (s : State), Answerable r s → ∀ d3 d2 d1 d0 lead k a b : Byte,
    r.body = [d3, d2, d1, d0, lead, k, a, b] →
    (2 ≤ lead.toNat ∨ cueOfBytes k a b = none → exec (.cueAt r) s = .next (answered r .range [] s))
    ∧ ∀ (L : Lead) (c : Cue), lead = (match L with | .a => 0 | .b => 1) → cueOfBytes k a b = some c →
      let g := timedGateway L
      let due := num4 d3 d2 d1 d0
      let d := serialDiff s.ltu.count due
      let late : Bool := decide (d < -(s.config.lateWindow : Int))
      ((s.gateway g).enabled = false → exec (.cueAt r) s = .next (answered r .closed [] s))
      ∧ ((s.gateway g).enabled = true →
        (16777216 < d → exec (.cueAt r) s = .next (answered r .range [] s))
        ∧ (0 < d → d ≤ 16777216 → s.timed.length < 16 → ∃ pre post, s.timed = pre ++ post
          ∧ (∀ x ∈ pre, ahead s.ltu.count x.due ≤ d) ∧ (∀ x ∈ post.head?, d < ahead s.ltu.count x.due)
          ∧ exec (.cueAt r) s = .next (answered r .done [] (handOff L { s with
            timed := pre ++ { due := due, lead := L, cue := c, mark := false } :: post })))
        ∧ (d ≤ 0 → s.timed.length < 16 → (late = true → s.config.latePolicy = .apply) →
          ∃ pre post t, s.timed = pre ++ post ∧ (∀ x ∈ pre, x.mark = true)
          ∧ (∀ x ∈ post.head?, x.mark = false)
          ∧ exec (.cueAt r) s = .next t
          ∧ t = { s with timed := t.timed, gateways := t.gateways, voices := t.voices
                         faults := t.faults, pointer := t.pointer, counters := t.counters
                         outq := t.outq }
          ∧ (late = false → t = answered r .done [] (handOff L { s with
            timed := pre ++ { due := s.ltu.count, lead := L, cue := c, mark := true } :: post }))
          ∧ (late = true →
            t = repliedIn r .done s (raise .cueLate (.lead L) (reserved (handOff L { s with
              timed := pre ++ { due := s.ltu.count, lead := L, cue := c, mark := true } :: post })))
            ∧ t.timed = (handOff L { s with
              timed := pre ++ { due := s.ltu.count, lead := L, cue := c, mark := true } :: post }).timed
            ∧ t.gateways = (handOff L { s with
              timed := pre ++ { due := s.ltu.count, lead := L, cue := c, mark := true } :: post }).gateways
            ∧ t.outq[s.outq.length]? = some (.reply
              { dest := r.source, source := s.nodeAddr, kind := 0x40, tag := r.tag, body := [] })
            ∧ ((s.fault .cueLate).detectMask = false → (t.fault .cueLate).status = true)))
        ∧ (d ≤ 0 → late = true → s.config.latePolicy = .drop →
          ∃ t, exec (.cueAt r) s = .next t
          ∧ t = { s with voices := t.voices, faults := t.faults, pointer := t.pointer
                         counters := t.counters, outq := t.outq }
          ∧ t.outq[s.outq.length]? = some (.reply
            { dest := r.source, source := s.nodeAddr, kind := 0x47, tag := r.tag, body := [] })
          ∧ t = repliedIn r .late s (raise .cueLate (.lead L) (reserved s))
          ∧ ((s.fault .cueLate).detectMask = false → (t.fault .cueLate).status = true))
        ∧ (d ≤ 16777216 → 16 ≤ s.timed.length → (late = true → s.config.latePolicy = .apply) →
          ∃ t, exec (.cueAt r) s = .next t
          ∧ t = { s with voices := t.voices, faults := t.faults, pointer := t.pointer
                         counters := t.counters, outq := t.outq }
          ∧ t.outq[s.outq.length]? = some (.reply
            { dest := r.source, source := s.nodeAddr, kind := 0x46, tag := r.tag, body := [] })
          ∧ t = repliedIn r .full s (raise .cueOverflow (.lead L) (reserved s))
          ∧ (t.fault .cueLate) = (s.fault .cueLate)
          ∧ ((s.fault .cueOverflow).detectMask = false → (t.fault .cueOverflow).status = true)))

/-- GATEWAY_SET: RANGE for a bad gateway, lead or carried cue; else a pedal gateway's configuration replaced
whole, its slot emptied and a MOMENT gateway's release cue dropped; for G4 to G7 enabled and priority alone,
a lead's due entry handed over at once to a timed gateway (R137, R141, R188). -/
def Obligations.GatewaySetStored : Prop :=
  ∀ (r : Req) (s : State), Answerable r s → r.body.length = 10 →
    let b := fun i => byteAt r.body i
    let f := fun i => (byteAt r.body 1).getLsbD i
    let cue := fun (i : Nat) => cueOfBytes (b i) (b (i + 1)) (b (i + 2))
    (8 ≤ (b 0).toNat → exec (.gatewaySet r) s = .next (answered r .range [] s))
    ∧ (∀ g : Fin 8, (b 0).toNat = g.val → g.val < 4 →
      (2 ≤ (b 3).toNat ∨ (f 3 = true ∧ cue 4 = none) ∨ (f 4 = true ∧ cue 7 = none) →
        exec (.gatewaySet r) s = .next (answered r .range [] s))
      ∧ ∀ (L : Lead) (press release : Option Cue), b 3 = (match L with | .a => 0 | .b => 1) →
        (if f 3 then cue 4 = press ∧ press ≠ none else press = none) →
        (if f 4 then cue 7 = release ∧ release ≠ none else release = none) →
        exec (.gatewaySet r) s = .next (answered r .done [] (s.setGateway g
          { enabled := f 0, priority := min 15 (b 2).toNat, lead := L
            type := if f 1 then .span else .moment, press := press
            release := if f 1 then release else none
            stuckClose := f 2, pending := none })))
    ∧ ∀ g : Fin 8, (b 0).toNat = g.val → 4 ≤ g.val →
      let set := s.setGateway g
        { s.gateway g with enabled := f 0, priority := min 15 (b 2).toNat, pending := none }
      exec (.gatewaySet r) s = .next (answered r .done []
        (if g = 6 then handOff .a set else if g = 7 then handOff .b set else set))

/-! ### Fault requests, counters and the engine reset -/

/-- FAULT_CLEAR and FAULT_SETUP: RANGE for a code above 12 or a severity above 1; else the named kinds'
records, one unmute at every voice for the kinds cleared, and the pointer. The unmute of a voice that keeps
its law: each named kind leaves the set; a MUTED voice whose set empties becomes IDLE, one falling to MUTED
falls on to OFF, REASSIGN or IDLE, and a voice that still holds a kind stays as it was (R100, R153, R157,
R158, R188). -/
def Obligations.FaultsClearedAndSet : Prop :=
  (∀ (r : Req) (s : State), Answerable r s → ∀ hi lo : Byte,
    let named := fun k : FaultKind => (BitVec.ofNat 16 (hi.toNat * 256 + lo.toNat)).getLsbD (faultCode k).val
    let ks := faultKinds.filter named
    let pointer := match s.pointer with
      | some k => if named k then none else some k
      | none => none
    (r.body = [hi, lo] →
      (32 ≤ hi.toNat → exec (.faultClear r) s = .next (answered r .range [] s))
      ∧ (hi.toNat < 32 → ∃ t, exec (.faultClear r) s = .next (answered r .done [] t)
        ∧ t = { s with faults := t.faults, voices := s.voices.map fun x => x.unmutedBy ks
                       pointer := pointer }
        ∧ ∀ k, t.fault k = if named k then { s.fault k with status := false } else s.fault k))
    ∧ ∀ detect report sev : Byte, r.body = [hi, lo, detect, report, sev] →
      (32 ≤ hi.toNat ∨ 2 ≤ sev.toNat → exec (.faultSetup r) s = .next (answered r .range [] s))
      ∧ (hi.toNat < 32 → sev.toNat < 2 → ∃ t, exec (.faultSetup r) s = .next (answered r .done [] t)
        ∧ t = { s with
          faults := t.faults
          voices := if detect = 0 then s.voices else s.voices.map fun x => x.unmutedBy ks
          pointer := if detect = 0 then s.pointer else pointer }
        ∧ ∀ k, t.fault k = if named k then
            { status := (s.fault k).status && decide (detect = 0)
              detectMask := decide (detect ≠ 0), reportMask := decide (report ≠ 0)
              severity := if sev = 1 ∧ 5 ≤ (faultCode k).val then .mute else .notice }
          else s.fault k))
  ∧ (faultKinds = [.ctrlCheck, .ctrlRunon, .relayDrop, .requestDrop, .noticeDrop, .linkLoss, .linkSlip,
      .frameCheck, .pedalStuck, .cueLate, .cueOverflow, .entrySkipped, .outputClip]
    ∧ faultKinds.map (fun k => (faultCode k).val) = List.range 13
    ∧ ∀ k, scopeNone k = decide ((faultCode k).val ≤ 4))
  ∧ (∀ (x : Voice) (ks : List FaultKind), VoiceOk x →
    (x.unmutedBy ks).faults = x.faults.filter (fun k => !ks.contains k)
    ∧ ((∃ k ∈ x.faults, k ∉ ks) →
      (x.unmutedBy ks).state = x.state ∧ (x.unmutedBy ks).dest = x.dest)
    ∧ ((∀ k ∈ x.faults, k ∈ ks) →
      (x.state = .muted → (x.unmutedBy ks).state = .idle ∧ (x.unmutedBy ks).envelope = 0)
      ∧ (x.state = .falling → x.dest = .muted →
        (x.unmutedBy ks).state = .falling
        ∧ (x.unmutedBy ks).dest =
          (if x.releaseMark then .off else if x.pendingPart ≠ none then .reassign else .idle)))
    ∧ x.unmutedBy ks = { x with state := (x.unmutedBy ks).state, dest := (x.unmutedBy ks).dest
                                faults := (x.unmutedBy ks).faults })

/-- COUNTER_SETUP: RANGE for a counter above 3; else the selector, outside 1..14 stored as 0, the inhibit flag
and the zeroing. An event of a code adds 1, mod 2³², to each counter that selects it and is not inhibited (R162
to R164, R188). -/
def Obligations.CounterStored : Prop :=
  (∀ (e : Event) (s : State), countEvent e s = { s with counters := s.counters.map fun c => c.after (match e with
    | .voicedBlock .a => 1 | .voicedBlock .b => 2 | .noteChange .a => 3 | .noteChange .b => 4
    | .unmatched => 5 | .cueApplied => 6 | .cueDuringTransition => 7 | .cueDropped => 8 | .splice => 9
    | .accepted => 10 | .relayed => 11 | .phantom => 12 | .faultOccurrence => 13 | .stepNoNext => 14) })
  ∧ (∀ (c : Counter) (code : Nat), c.after code =
    if c.selector = code ∧ c.inhibit = false then { c with count := c.count + 1 } else c) ∧
  ∀ (r : Req) (s : State), Answerable r s → ∀ n sel flags : Byte, r.body = [n, sel, flags] →
    (4 ≤ n.toNat → exec (.counterSetup r) s = .next (answered r .range [] s))
    ∧ ∀ i : Fin 4, n.toNat = i.val → ∃ t, exec (.counterSetup r) s = .next t
      ∧ t = { answered r .done [] s with counters := t.counters }
      ∧ (∀ j, j ≠ i → t.counters[j] = (s.counters[j]).after 10)
      ∧ t.counters[i] =
        { count := if flags.getLsbD 1 then 0 else ((s.counters[i]).after 10).count
          selector := if 1 ≤ sel.toNat ∧ sel.toNat ≤ 14 then sel.toNat else 0
          inhibit := flags.getLsbD 0 }

/-- ENGINE_RESET: every voice and lead record at its reset values, every pending cue and timed cue gone, the
pedal timers restarted, an open load closed; all else kept, and the reply queued (R34, R90, R126, R132, R133,
R139, R180, R184). -/
def Obligations.EngineResetTaken : Prop :=
  ∀ (r : Req) (s : State), Answerable r s → r.body = [] →
    ∃ t, exec (.engineReset r) s = .next (answered r .done [] t) ∧ t = engineReset s
      ∧ t = { s with leadA := t.leadA, leadB := t.leadB, voices := t.voices, pedals := t.pedals
                     gateways := t.gateways, timed := [], load := none }
      ∧ (∀ L, t.lead L =
        { history := List.replicate 2048 0, estimate := 4096, confidence := 0, voiced := false
          splicePeriod := 256, note := .silent, unvoicedCount := 0, scene := none, map := 0, key := 0
          held := false, frozen := Vector.replicate 8 none, silenced := false, transition := none
          startFlag := true })
      ∧ (∀ v, t.voice v =
        { state := .off, owner := none, part := none, pendingPart := none, releaseMark := false
          dest := .idle, envelope := 0, increment := 4, currentStep := 16384, targetStep := 16384
          distance := 320 * 16384, crossfade := none, faults := [] })
      ∧ (∀ l, t.pedal l = { s.pedal l with debounce := 0, stuck := 0, stuckMark := false })
      ∧ (∀ g, t.gateway g = { s.gateway g with pending := none })
      ∧ ∀ k : Fin 24, claimed (claims t) k = false

/-! ### The laws every step keeps -/

/-- The laws hold in a state of the device right after power-on reset. -/
def Obligations.LawsHoldAtReset : Prop := Safe State.reset

/-- Every step keeps splice periods within 40..640, steps within 4,096..65,536 and every running head
within the history (R36, R44, R46, R81, R105). -/
def Obligations.StepKeepsHeadsInBounds : Prop :=
  ∀ s t : State, HeadsInBounds s → step s = .next t → HeadsInBounds t

/-- Every step keeps the bounds of the queues and buffers (R139, R168, R174, R175, R180). -/
def Obligations.StepKeepsQueuesBounded : Prop :=
  ∀ s t : State, QueuesBounded s → step s = .next t → QueuesBounded t

/-- Every step leaves no reservation in the outbound queue, when none stood in it before (R175, R176). -/
def Obligations.StepLeavesNoReservation : Prop :=
  ∀ s t : State, NoReservation s → step s = .next t → NoReservation t

/-- Every step keeps the timed cue queue in its order (R139). -/
def Obligations.StepKeepsTimedOrder : Prop :=
  ∀ s t : State, TimedOrdered s → step s = .next t → TimedOrdered t

/-- Every step keeps the Fault Unit's law (R153, R154, R158). -/
def Obligations.StepKeepsFaultLaw : Prop :=
  ∀ s t : State, FaultLaw s → step s = .next t → FaultLaw t

/-- Every step keeps the law of the voice records (R89, R97 to R99). -/
def Obligations.StepKeepsVoiceLaw : Prop :=
  ∀ s t : State, VoiceLaw s → step s = .next t → VoiceLaw t

/-- No step makes a slot both a lead input slot and a claimed slot (R4, R7). -/
def Obligations.StepKeepsLeadSlotsFree : Prop :=
  (∀ (s : State) (k : Fin 24), s.isLeadSlot k = true ↔ k = s.config.slotA ∨ s.config.slotB = some k)
  ∧ ∀ s t : State, LeadSlotsFree s → step s = .next t → LeadSlotsFree t

/-- Every step keeps tables and configuration within their ranges (R54, R55, R71, R111, R132, R143). -/
def Obligations.StepKeepsTablesLaw : Prop :=
  ∀ s t : State, TablesLaw s → step s = .next t → TablesLaw t

/-- Every step keeps the Link Timing Unit's law (R17, R20, R23, R24, R26). -/
def Obligations.StepKeepsLtuLaw : Prop :=
  ∀ s t : State, LtuLaw s → step s = .next t → LtuLaw t

/-- Every step keeps each history at 2,048 samples of the sample range (R33, R35). -/
def Obligations.StepKeepsHistories : Prop :=
  ∀ s t : State, HistoryLaw s → step s = .next t → HistoryLaw t

/-- Every step keeps the Cue Unit's law (R122, R130, R133, R137, R145). -/
def Obligations.StepKeepsCueUnitLaw : Prop :=
  ∀ s t : State, CueUnitLaw s → step s = .next t → CueUnitLaw t
end

