-- ==== Sys2Proof/Laws/State.lean ====
section
/-! SUPPORT. The small lemmas of the named updates of State: what each reads back, and one lemma for every
field it leaves alone. -/

namespace Sys2Proof.Machine

/-! ### A voice -/

@[simp] theorem State.voice_setVoice (s : State) (v : VoiceId) (x : Voice) :
    (s.setVoice v x).voice v = x := by
  simp [State.setVoice, State.voice]

theorem State.voice_setVoice_ne (s : State) (v w : VoiceId) (x : Voice) (h : v ≠ w) :
    (s.setVoice v x).voice w = s.voice w := by
  have h' : v.val ≠ w.val := fun e => h (Fin.ext e)
  simp [State.setVoice, State.voice, h']

@[simp] theorem State.setVoice_setVoice (s : State) (v : VoiceId) (x y : Voice) :
    (s.setVoice v x).setVoice v y = s.setVoice v y := by
  simp [State.setVoice]

@[simp] theorem State.setVoice_voice (s : State) (v : VoiceId) : s.setVoice v (s.voice v) = s := by
  simp [State.setVoice, State.voice]

@[simp] theorem State.lead_setVoice (s : State) (v : VoiceId) (x : Voice) (L : Lead) :
    (s.setVoice v x).lead L = s.lead L := by cases L <;> rfl

@[simp] theorem State.setVoice_pending (s : State) (v : VoiceId) (x : Voice) :
    (s.setVoice v x).pending = s.pending := rfl
@[simp] theorem State.setVoice_resetLow (s : State) (v : VoiceId) (x : Voice) :
    (s.setVoice v x).resetLow = s.resetLow := rfl
@[simp] theorem State.setVoice_nodeAddr (s : State) (v : VoiceId) (x : Voice) :
    (s.setVoice v x).nodeAddr = s.nodeAddr := rfl
@[simp] theorem State.setVoice_pedalPins (s : State) (v : VoiceId) (x : Voice) :
    (s.setVoice v x).pedalPins = s.pedalPins := rfl
@[simp] theorem State.setVoice_receiver (s : State) (v : VoiceId) (x : Voice) :
    (s.setVoice v x).receiver = s.receiver := rfl
@[simp] theorem State.setVoice_ltu (s : State) (v : VoiceId) (x : Voice) :
    (s.setVoice v x).ltu = s.ltu := rfl
@[simp] theorem State.setVoice_config (s : State) (v : VoiceId) (x : Voice) :
    (s.setVoice v x).config = s.config := rfl
@[simp] theorem State.setVoice_tuning (s : State) (v : VoiceId) (x : Voice) :
    (s.setVoice v x).tuning = s.tuning := rfl
@[simp] theorem State.setVoice_maps (s : State) (v : VoiceId) (x : Voice) :
    (s.setVoice v x).maps = s.maps := rfl
@[simp] theorem State.setVoice_scenes (s : State) (v : VoiceId) (x : Voice) :
    (s.setVoice v x).scenes = s.scenes := rfl
@[simp] theorem State.setVoice_load (s : State) (v : VoiceId) (x : Voice) :
    (s.setVoice v x).load = s.load := rfl
@[simp] theorem State.setVoice_leadA (s : State) (v : VoiceId) (x : Voice) :
    (s.setVoice v x).leadA = s.leadA := rfl
@[simp] theorem State.setVoice_leadB (s : State) (v : VoiceId) (x : Voice) :
    (s.setVoice v x).leadB = s.leadB := rfl
@[simp] theorem State.setVoice_pedals (s : State) (v : VoiceId) (x : Voice) :
    (s.setVoice v x).pedals = s.pedals := rfl
@[simp] theorem State.setVoice_gateways (s : State) (v : VoiceId) (x : Voice) :
    (s.setVoice v x).gateways = s.gateways := rfl
@[simp] theorem State.setVoice_timed (s : State) (v : VoiceId) (x : Voice) :
    (s.setVoice v x).timed = s.timed := rfl
@[simp] theorem State.setVoice_thresholdA (s : State) (v : VoiceId) (x : Voice) :
    (s.setVoice v x).thresholdA = s.thresholdA := rfl
@[simp] theorem State.setVoice_thresholdB (s : State) (v : VoiceId) (x : Voice) :
    (s.setVoice v x).thresholdB = s.thresholdB := rfl
@[simp] theorem State.setVoice_faults (s : State) (v : VoiceId) (x : Voice) :
    (s.setVoice v x).faults = s.faults := rfl
@[simp] theorem State.setVoice_pointer (s : State) (v : VoiceId) (x : Voice) :
    (s.setVoice v x).pointer = s.pointer := rfl
@[simp] theorem State.setVoice_counters (s : State) (v : VoiceId) (x : Voice) :
    (s.setVoice v x).counters = s.counters := rfl
@[simp] theorem State.setVoice_assembly (s : State) (v : VoiceId) (x : Voice) :
    (s.setVoice v x).assembly = s.assembly := rfl
@[simp] theorem State.setVoice_fifo (s : State) (v : VoiceId) (x : Voice) :
    (s.setVoice v x).fifo = s.fifo := rfl
@[simp] theorem State.setVoice_outq (s : State) (v : VoiceId) (x : Voice) :
    (s.setVoice v x).outq = s.outq := rfl
@[simp] theorem State.setVoice_sender (s : State) (v : VoiceId) (x : Voice) :
    (s.setVoice v x).sender = s.sender := rfl
@[simp] theorem State.setVoice_laneOut (s : State) (v : VoiceId) (x : Voice) :
    (s.setVoice v x).laneOut = s.laneOut := rfl
@[simp] theorem State.setVoice_linkOut (s : State) (v : VoiceId) (x : Voice) :
    (s.setVoice v x).linkOut = s.linkOut := rfl
@[simp] theorem State.setVoice_draws (s : State) (v : VoiceId) (x : Voice) :
    (s.setVoice v x).draws = s.draws := rfl

/-! ### A gateway -/

@[simp] theorem State.gateway_setGateway (s : State) (g : Fin 8) (x : Gateway) :
    (s.setGateway g x).gateway g = x := by
  simp [State.setGateway, State.gateway]

theorem State.gateway_setGateway_ne (s : State) (g h : Fin 8) (x : Gateway) (n : g ≠ h) :
    (s.setGateway g x).gateway h = s.gateway h := by
  have n' : g.val ≠ h.val := fun e => n (Fin.ext e)
  simp [State.setGateway, State.gateway, n']

@[simp] theorem State.setGateway_setGateway (s : State) (g : Fin 8) (x y : Gateway) :
    (s.setGateway g x).setGateway g y = s.setGateway g y := by
  simp [State.setGateway]

@[simp] theorem State.setGateway_pending (s : State) (g : Fin 8) (x : Gateway) :
    (s.setGateway g x).pending = s.pending := rfl
@[simp] theorem State.setGateway_resetLow (s : State) (g : Fin 8) (x : Gateway) :
    (s.setGateway g x).resetLow = s.resetLow := rfl
@[simp] theorem State.setGateway_nodeAddr (s : State) (g : Fin 8) (x : Gateway) :
    (s.setGateway g x).nodeAddr = s.nodeAddr := rfl
@[simp] theorem State.setGateway_pedalPins (s : State) (g : Fin 8) (x : Gateway) :
    (s.setGateway g x).pedalPins = s.pedalPins := rfl
@[simp] theorem State.setGateway_receiver (s : State) (g : Fin 8) (x : Gateway) :
    (s.setGateway g x).receiver = s.receiver := rfl
@[simp] theorem State.setGateway_ltu (s : State) (g : Fin 8) (x : Gateway) :
    (s.setGateway g x).ltu = s.ltu := rfl
@[simp] theorem State.setGateway_config (s : State) (g : Fin 8) (x : Gateway) :
    (s.setGateway g x).config = s.config := rfl
@[simp] theorem State.setGateway_tuning (s : State) (g : Fin 8) (x : Gateway) :
    (s.setGateway g x).tuning = s.tuning := rfl
@[simp] theorem State.setGateway_maps (s : State) (g : Fin 8) (x : Gateway) :
    (s.setGateway g x).maps = s.maps := rfl
@[simp] theorem State.setGateway_scenes (s : State) (g : Fin 8) (x : Gateway) :
    (s.setGateway g x).scenes = s.scenes := rfl
@[simp] theorem State.setGateway_load (s : State) (g : Fin 8) (x : Gateway) :
    (s.setGateway g x).load = s.load := rfl
@[simp] theorem State.setGateway_leadA (s : State) (g : Fin 8) (x : Gateway) :
    (s.setGateway g x).leadA = s.leadA := rfl
@[simp] theorem State.setGateway_leadB (s : State) (g : Fin 8) (x : Gateway) :
    (s.setGateway g x).leadB = s.leadB := rfl
@[simp] theorem State.setGateway_voices (s : State) (g : Fin 8) (x : Gateway) :
    (s.setGateway g x).voices = s.voices := rfl
@[simp] theorem State.setGateway_pedals (s : State) (g : Fin 8) (x : Gateway) :
    (s.setGateway g x).pedals = s.pedals := rfl
@[simp] theorem State.setGateway_timed (s : State) (g : Fin 8) (x : Gateway) :
    (s.setGateway g x).timed = s.timed := rfl
@[simp] theorem State.setGateway_thresholdA (s : State) (g : Fin 8) (x : Gateway) :
    (s.setGateway g x).thresholdA = s.thresholdA := rfl
@[simp] theorem State.setGateway_thresholdB (s : State) (g : Fin 8) (x : Gateway) :
    (s.setGateway g x).thresholdB = s.thresholdB := rfl
@[simp] theorem State.setGateway_faults (s : State) (g : Fin 8) (x : Gateway) :
    (s.setGateway g x).faults = s.faults := rfl
@[simp] theorem State.setGateway_pointer (s : State) (g : Fin 8) (x : Gateway) :
    (s.setGateway g x).pointer = s.pointer := rfl
@[simp] theorem State.setGateway_counters (s : State) (g : Fin 8) (x : Gateway) :
    (s.setGateway g x).counters = s.counters := rfl
@[simp] theorem State.setGateway_assembly (s : State) (g : Fin 8) (x : Gateway) :
    (s.setGateway g x).assembly = s.assembly := rfl
@[simp] theorem State.setGateway_fifo (s : State) (g : Fin 8) (x : Gateway) :
    (s.setGateway g x).fifo = s.fifo := rfl
@[simp] theorem State.setGateway_outq (s : State) (g : Fin 8) (x : Gateway) :
    (s.setGateway g x).outq = s.outq := rfl
@[simp] theorem State.setGateway_sender (s : State) (g : Fin 8) (x : Gateway) :
    (s.setGateway g x).sender = s.sender := rfl
@[simp] theorem State.setGateway_laneOut (s : State) (g : Fin 8) (x : Gateway) :
    (s.setGateway g x).laneOut = s.laneOut := rfl
@[simp] theorem State.setGateway_linkOut (s : State) (g : Fin 8) (x : Gateway) :
    (s.setGateway g x).linkOut = s.linkOut := rfl
@[simp] theorem State.setGateway_draws (s : State) (g : Fin 8) (x : Gateway) :
    (s.setGateway g x).draws = s.draws := rfl

/-! ### A pedal line -/

@[simp] theorem State.pedal_setPedal (s : State) (l : LineId) (x : PedalLine) :
    (s.setPedal l x).pedal l = x := by
  simp [State.setPedal, State.pedal]

theorem State.pedal_setPedal_ne (s : State) (l m : LineId) (x : PedalLine) (h : l ≠ m) :
    (s.setPedal l x).pedal m = s.pedal m := by
  have h' : l.val ≠ m.val := fun e => h (Fin.ext e)
  simp [State.setPedal, State.pedal, h']

@[simp] theorem State.setPedal_setPedal (s : State) (l : LineId) (x y : PedalLine) :
    (s.setPedal l x).setPedal l y = s.setPedal l y := by
  simp [State.setPedal]

@[simp] theorem State.setPedal_pending (s : State) (l : LineId) (x : PedalLine) :
    (s.setPedal l x).pending = s.pending := rfl
@[simp] theorem State.setPedal_resetLow (s : State) (l : LineId) (x : PedalLine) :
    (s.setPedal l x).resetLow = s.resetLow := rfl
@[simp] theorem State.setPedal_nodeAddr (s : State) (l : LineId) (x : PedalLine) :
    (s.setPedal l x).nodeAddr = s.nodeAddr := rfl
@[simp] theorem State.setPedal_pedalPins (s : State) (l : LineId) (x : PedalLine) :
    (s.setPedal l x).pedalPins = s.pedalPins := rfl
@[simp] theorem State.setPedal_receiver (s : State) (l : LineId) (x : PedalLine) :
    (s.setPedal l x).receiver = s.receiver := rfl
@[simp] theorem State.setPedal_ltu (s : State) (l : LineId) (x : PedalLine) :
    (s.setPedal l x).ltu = s.ltu := rfl
@[simp] theorem State.setPedal_config (s : State) (l : LineId) (x : PedalLine) :
    (s.setPedal l x).config = s.config := rfl
@[simp] theorem State.setPedal_tuning (s : State) (l : LineId) (x : PedalLine) :
    (s.setPedal l x).tuning = s.tuning := rfl
@[simp] theorem State.setPedal_maps (s : State) (l : LineId) (x : PedalLine) :
    (s.setPedal l x).maps = s.maps := rfl
@[simp] theorem State.setPedal_scenes (s : State) (l : LineId) (x : PedalLine) :
    (s.setPedal l x).scenes = s.scenes := rfl
@[simp] theorem State.setPedal_load (s : State) (l : LineId) (x : PedalLine) :
    (s.setPedal l x).load = s.load := rfl
@[simp] theorem State.setPedal_leadA (s : State) (l : LineId) (x : PedalLine) :
    (s.setPedal l x).leadA = s.leadA := rfl
@[simp] theorem State.setPedal_leadB (s : State) (l : LineId) (x : PedalLine) :
    (s.setPedal l x).leadB = s.leadB := rfl
@[simp] theorem State.setPedal_voices (s : State) (l : LineId) (x : PedalLine) :
    (s.setPedal l x).voices = s.voices := rfl
@[simp] theorem State.setPedal_gateways (s : State) (l : LineId) (x : PedalLine) :
    (s.setPedal l x).gateways = s.gateways := rfl
@[simp] theorem State.setPedal_timed (s : State) (l : LineId) (x : PedalLine) :
    (s.setPedal l x).timed = s.timed := rfl
@[simp] theorem State.setPedal_thresholdA (s : State) (l : LineId) (x : PedalLine) :
    (s.setPedal l x).thresholdA = s.thresholdA := rfl
@[simp] theorem State.setPedal_thresholdB (s : State) (l : LineId) (x : PedalLine) :
    (s.setPedal l x).thresholdB = s.thresholdB := rfl
@[simp] theorem State.setPedal_faults (s : State) (l : LineId) (x : PedalLine) :
    (s.setPedal l x).faults = s.faults := rfl
@[simp] theorem State.setPedal_pointer (s : State) (l : LineId) (x : PedalLine) :
    (s.setPedal l x).pointer = s.pointer := rfl
@[simp] theorem State.setPedal_counters (s : State) (l : LineId) (x : PedalLine) :
    (s.setPedal l x).counters = s.counters := rfl
@[simp] theorem State.setPedal_assembly (s : State) (l : LineId) (x : PedalLine) :
    (s.setPedal l x).assembly = s.assembly := rfl
@[simp] theorem State.setPedal_fifo (s : State) (l : LineId) (x : PedalLine) :
    (s.setPedal l x).fifo = s.fifo := rfl
@[simp] theorem State.setPedal_outq (s : State) (l : LineId) (x : PedalLine) :
    (s.setPedal l x).outq = s.outq := rfl
@[simp] theorem State.setPedal_sender (s : State) (l : LineId) (x : PedalLine) :
    (s.setPedal l x).sender = s.sender := rfl
@[simp] theorem State.setPedal_laneOut (s : State) (l : LineId) (x : PedalLine) :
    (s.setPedal l x).laneOut = s.laneOut := rfl
@[simp] theorem State.setPedal_linkOut (s : State) (l : LineId) (x : PedalLine) :
    (s.setPedal l x).linkOut = s.linkOut := rfl
@[simp] theorem State.setPedal_draws (s : State) (l : LineId) (x : PedalLine) :
    (s.setPedal l x).draws = s.draws := rfl

/-! ### A fault record -/

/-- The codes tell the kinds apart (09, Fault kinds). -/
theorem faultCode_injective (j k : FaultKind) (h : faultCode j = faultCode k) : j = k := by
  cases j <;> cases k <;> first | rfl | (exact absurd h (by decide))

@[simp] theorem State.fault_setFault (s : State) (k : FaultKind) (x : FaultRecord) :
    (s.setFault k x).fault k = x := by
  simp [State.setFault, State.fault]

theorem State.fault_setFault_ne (s : State) (j k : FaultKind) (x : FaultRecord) (h : j ≠ k) :
    (s.setFault j x).fault k = s.fault k := by
  have h' : (faultCode j).val ≠ (faultCode k).val :=
    fun e => h (faultCode_injective j k (Fin.ext e))
  simp [State.setFault, State.fault, h']

@[simp] theorem State.setFault_pending (s : State) (k : FaultKind) (x : FaultRecord) :
    (s.setFault k x).pending = s.pending := rfl
@[simp] theorem State.setFault_resetLow (s : State) (k : FaultKind) (x : FaultRecord) :
    (s.setFault k x).resetLow = s.resetLow := rfl
@[simp] theorem State.setFault_nodeAddr (s : State) (k : FaultKind) (x : FaultRecord) :
    (s.setFault k x).nodeAddr = s.nodeAddr := rfl
@[simp] theorem State.setFault_pedalPins (s : State) (k : FaultKind) (x : FaultRecord) :
    (s.setFault k x).pedalPins = s.pedalPins := rfl
@[simp] theorem State.setFault_receiver (s : State) (k : FaultKind) (x : FaultRecord) :
    (s.setFault k x).receiver = s.receiver := rfl
@[simp] theorem State.setFault_ltu (s : State) (k : FaultKind) (x : FaultRecord) :
    (s.setFault k x).ltu = s.ltu := rfl
@[simp] theorem State.setFault_config (s : State) (k : FaultKind) (x : FaultRecord) :
    (s.setFault k x).config = s.config := rfl
@[simp] theorem State.setFault_tuning (s : State) (k : FaultKind) (x : FaultRecord) :
    (s.setFault k x).tuning = s.tuning := rfl
@[simp] theorem State.setFault_maps (s : State) (k : FaultKind) (x : FaultRecord) :
    (s.setFault k x).maps = s.maps := rfl
@[simp] theorem State.setFault_scenes (s : State) (k : FaultKind) (x : FaultRecord) :
    (s.setFault k x).scenes = s.scenes := rfl
@[simp] theorem State.setFault_load (s : State) (k : FaultKind) (x : FaultRecord) :
    (s.setFault k x).load = s.load := rfl
@[simp] theorem State.setFault_leadA (s : State) (k : FaultKind) (x : FaultRecord) :
    (s.setFault k x).leadA = s.leadA := rfl
@[simp] theorem State.setFault_leadB (s : State) (k : FaultKind) (x : FaultRecord) :
    (s.setFault k x).leadB = s.leadB := rfl
@[simp] theorem State.setFault_voices (s : State) (k : FaultKind) (x : FaultRecord) :
    (s.setFault k x).voices = s.voices := rfl
@[simp] theorem State.setFault_pedals (s : State) (k : FaultKind) (x : FaultRecord) :
    (s.setFault k x).pedals = s.pedals := rfl
@[simp] theorem State.setFault_gateways (s : State) (k : FaultKind) (x : FaultRecord) :
    (s.setFault k x).gateways = s.gateways := rfl
@[simp] theorem State.setFault_timed (s : State) (k : FaultKind) (x : FaultRecord) :
    (s.setFault k x).timed = s.timed := rfl
@[simp] theorem State.setFault_thresholdA (s : State) (k : FaultKind) (x : FaultRecord) :
    (s.setFault k x).thresholdA = s.thresholdA := rfl
@[simp] theorem State.setFault_thresholdB (s : State) (k : FaultKind) (x : FaultRecord) :
    (s.setFault k x).thresholdB = s.thresholdB := rfl
@[simp] theorem State.setFault_pointer (s : State) (k : FaultKind) (x : FaultRecord) :
    (s.setFault k x).pointer = s.pointer := rfl
@[simp] theorem State.setFault_counters (s : State) (k : FaultKind) (x : FaultRecord) :
    (s.setFault k x).counters = s.counters := rfl
@[simp] theorem State.setFault_assembly (s : State) (k : FaultKind) (x : FaultRecord) :
    (s.setFault k x).assembly = s.assembly := rfl
@[simp] theorem State.setFault_fifo (s : State) (k : FaultKind) (x : FaultRecord) :
    (s.setFault k x).fifo = s.fifo := rfl
@[simp] theorem State.setFault_outq (s : State) (k : FaultKind) (x : FaultRecord) :
    (s.setFault k x).outq = s.outq := rfl
@[simp] theorem State.setFault_sender (s : State) (k : FaultKind) (x : FaultRecord) :
    (s.setFault k x).sender = s.sender := rfl
@[simp] theorem State.setFault_laneOut (s : State) (k : FaultKind) (x : FaultRecord) :
    (s.setFault k x).laneOut = s.laneOut := rfl
@[simp] theorem State.setFault_linkOut (s : State) (k : FaultKind) (x : FaultRecord) :
    (s.setFault k x).linkOut = s.linkOut := rfl
@[simp] theorem State.setFault_draws (s : State) (k : FaultKind) (x : FaultRecord) :
    (s.setFault k x).draws = s.draws := rfl

/-! ### A lead channel -/

@[simp] theorem State.lead_setLead (s : State) (L : Lead) (c : LeadChannel) :
    (s.setLead L c).lead L = c := by cases L <;> rfl

theorem State.lead_setLead_ne (s : State) (L M : Lead) (c : LeadChannel) (h : L ≠ M) :
    (s.setLead L c).lead M = s.lead M := by
  cases L <;> cases M <;> first | rfl | (exact absurd rfl h)

@[simp] theorem State.setLead_setLead (s : State) (L : Lead) (c d : LeadChannel) :
    (s.setLead L c).setLead L d = s.setLead L d := by cases L <;> rfl

@[simp] theorem State.voice_setLead (s : State) (L : Lead) (c : LeadChannel) (v : VoiceId) :
    (s.setLead L c).voice v = s.voice v := by cases L <;> rfl

@[simp] theorem State.setLead_pending (s : State) (L : Lead) (c : LeadChannel) :
    (s.setLead L c).pending = s.pending := by
  cases L <;> rfl
@[simp] theorem State.setLead_resetLow (s : State) (L : Lead) (c : LeadChannel) :
    (s.setLead L c).resetLow = s.resetLow := by
  cases L <;> rfl
@[simp] theorem State.setLead_nodeAddr (s : State) (L : Lead) (c : LeadChannel) :
    (s.setLead L c).nodeAddr = s.nodeAddr := by
  cases L <;> rfl
@[simp] theorem State.setLead_pedalPins (s : State) (L : Lead) (c : LeadChannel) :
    (s.setLead L c).pedalPins = s.pedalPins := by
  cases L <;> rfl
@[simp] theorem State.setLead_receiver (s : State) (L : Lead) (c : LeadChannel) :
    (s.setLead L c).receiver = s.receiver := by
  cases L <;> rfl
@[simp] theorem State.setLead_ltu (s : State) (L : Lead) (c : LeadChannel) :
    (s.setLead L c).ltu = s.ltu := by
  cases L <;> rfl
@[simp] theorem State.setLead_config (s : State) (L : Lead) (c : LeadChannel) :
    (s.setLead L c).config = s.config := by
  cases L <;> rfl
@[simp] theorem State.setLead_tuning (s : State) (L : Lead) (c : LeadChannel) :
    (s.setLead L c).tuning = s.tuning := by
  cases L <;> rfl
@[simp] theorem State.setLead_maps (s : State) (L : Lead) (c : LeadChannel) :
    (s.setLead L c).maps = s.maps := by
  cases L <;> rfl
@[simp] theorem State.setLead_scenes (s : State) (L : Lead) (c : LeadChannel) :
    (s.setLead L c).scenes = s.scenes := by
  cases L <;> rfl
@[simp] theorem State.setLead_load (s : State) (L : Lead) (c : LeadChannel) :
    (s.setLead L c).load = s.load := by
  cases L <;> rfl
@[simp] theorem State.setLead_voices (s : State) (L : Lead) (c : LeadChannel) :
    (s.setLead L c).voices = s.voices := by
  cases L <;> rfl
@[simp] theorem State.setLead_pedals (s : State) (L : Lead) (c : LeadChannel) :
    (s.setLead L c).pedals = s.pedals := by
  cases L <;> rfl
@[simp] theorem State.setLead_gateways (s : State) (L : Lead) (c : LeadChannel) :
    (s.setLead L c).gateways = s.gateways := by
  cases L <;> rfl
@[simp] theorem State.setLead_timed (s : State) (L : Lead) (c : LeadChannel) :
    (s.setLead L c).timed = s.timed := by
  cases L <;> rfl
@[simp] theorem State.setLead_thresholdA (s : State) (L : Lead) (c : LeadChannel) :
    (s.setLead L c).thresholdA = s.thresholdA := by
  cases L <;> rfl
@[simp] theorem State.setLead_thresholdB (s : State) (L : Lead) (c : LeadChannel) :
    (s.setLead L c).thresholdB = s.thresholdB := by
  cases L <;> rfl
@[simp] theorem State.setLead_faults (s : State) (L : Lead) (c : LeadChannel) :
    (s.setLead L c).faults = s.faults := by
  cases L <;> rfl
@[simp] theorem State.setLead_pointer (s : State) (L : Lead) (c : LeadChannel) :
    (s.setLead L c).pointer = s.pointer := by
  cases L <;> rfl
@[simp] theorem State.setLead_counters (s : State) (L : Lead) (c : LeadChannel) :
    (s.setLead L c).counters = s.counters := by
  cases L <;> rfl
@[simp] theorem State.setLead_assembly (s : State) (L : Lead) (c : LeadChannel) :
    (s.setLead L c).assembly = s.assembly := by
  cases L <;> rfl
@[simp] theorem State.setLead_fifo (s : State) (L : Lead) (c : LeadChannel) :
    (s.setLead L c).fifo = s.fifo := by
  cases L <;> rfl
@[simp] theorem State.setLead_outq (s : State) (L : Lead) (c : LeadChannel) :
    (s.setLead L c).outq = s.outq := by
  cases L <;> rfl
@[simp] theorem State.setLead_sender (s : State) (L : Lead) (c : LeadChannel) :
    (s.setLead L c).sender = s.sender := by
  cases L <;> rfl
@[simp] theorem State.setLead_laneOut (s : State) (L : Lead) (c : LeadChannel) :
    (s.setLead L c).laneOut = s.laneOut := by
  cases L <;> rfl
@[simp] theorem State.setLead_linkOut (s : State) (L : Lead) (c : LeadChannel) :
    (s.setLead L c).linkOut = s.linkOut := by
  cases L <;> rfl
@[simp] theorem State.setLead_draws (s : State) (L : Lead) (c : LeadChannel) :
    (s.setLead L c).draws = s.draws := by
  cases L <;> rfl

/-! ### A threshold -/

@[simp] theorem State.threshold_setThreshold (s : State) (L : Lead) (t : Nat) :
    (s.setThreshold L t).threshold L = t := by cases L <;> rfl

@[simp] theorem State.setThreshold_pending (s : State) (L : Lead) (t : Nat) :
    (s.setThreshold L t).pending = s.pending := by
  cases L <;> rfl
@[simp] theorem State.setThreshold_resetLow (s : State) (L : Lead) (t : Nat) :
    (s.setThreshold L t).resetLow = s.resetLow := by
  cases L <;> rfl
@[simp] theorem State.setThreshold_nodeAddr (s : State) (L : Lead) (t : Nat) :
    (s.setThreshold L t).nodeAddr = s.nodeAddr := by
  cases L <;> rfl
@[simp] theorem State.setThreshold_pedalPins (s : State) (L : Lead) (t : Nat) :
    (s.setThreshold L t).pedalPins = s.pedalPins := by
  cases L <;> rfl
@[simp] theorem State.setThreshold_receiver (s : State) (L : Lead) (t : Nat) :
    (s.setThreshold L t).receiver = s.receiver := by
  cases L <;> rfl
@[simp] theorem State.setThreshold_ltu (s : State) (L : Lead) (t : Nat) :
    (s.setThreshold L t).ltu = s.ltu := by
  cases L <;> rfl
@[simp] theorem State.setThreshold_config (s : State) (L : Lead) (t : Nat) :
    (s.setThreshold L t).config = s.config := by
  cases L <;> rfl
@[simp] theorem State.setThreshold_tuning (s : State) (L : Lead) (t : Nat) :
    (s.setThreshold L t).tuning = s.tuning := by
  cases L <;> rfl
@[simp] theorem State.setThreshold_maps (s : State) (L : Lead) (t : Nat) :
    (s.setThreshold L t).maps = s.maps := by
  cases L <;> rfl
@[simp] theorem State.setThreshold_scenes (s : State) (L : Lead) (t : Nat) :
    (s.setThreshold L t).scenes = s.scenes := by
  cases L <;> rfl
@[simp] theorem State.setThreshold_load (s : State) (L : Lead) (t : Nat) :
    (s.setThreshold L t).load = s.load := by
  cases L <;> rfl
@[simp] theorem State.setThreshold_leadA (s : State) (L : Lead) (t : Nat) :
    (s.setThreshold L t).leadA = s.leadA := by
  cases L <;> rfl
@[simp] theorem State.setThreshold_leadB (s : State) (L : Lead) (t : Nat) :
    (s.setThreshold L t).leadB = s.leadB := by
  cases L <;> rfl
@[simp] theorem State.setThreshold_voices (s : State) (L : Lead) (t : Nat) :
    (s.setThreshold L t).voices = s.voices := by
  cases L <;> rfl
@[simp] theorem State.setThreshold_pedals (s : State) (L : Lead) (t : Nat) :
    (s.setThreshold L t).pedals = s.pedals := by
  cases L <;> rfl
@[simp] theorem State.setThreshold_gateways (s : State) (L : Lead) (t : Nat) :
    (s.setThreshold L t).gateways = s.gateways := by
  cases L <;> rfl
@[simp] theorem State.setThreshold_timed (s : State) (L : Lead) (t : Nat) :
    (s.setThreshold L t).timed = s.timed := by
  cases L <;> rfl
@[simp] theorem State.setThreshold_faults (s : State) (L : Lead) (t : Nat) :
    (s.setThreshold L t).faults = s.faults := by
  cases L <;> rfl
@[simp] theorem State.setThreshold_pointer (s : State) (L : Lead) (t : Nat) :
    (s.setThreshold L t).pointer = s.pointer := by
  cases L <;> rfl
@[simp] theorem State.setThreshold_counters (s : State) (L : Lead) (t : Nat) :
    (s.setThreshold L t).counters = s.counters := by
  cases L <;> rfl
@[simp] theorem State.setThreshold_assembly (s : State) (L : Lead) (t : Nat) :
    (s.setThreshold L t).assembly = s.assembly := by
  cases L <;> rfl
@[simp] theorem State.setThreshold_fifo (s : State) (L : Lead) (t : Nat) :
    (s.setThreshold L t).fifo = s.fifo := by
  cases L <;> rfl
@[simp] theorem State.setThreshold_outq (s : State) (L : Lead) (t : Nat) :
    (s.setThreshold L t).outq = s.outq := by
  cases L <;> rfl
@[simp] theorem State.setThreshold_sender (s : State) (L : Lead) (t : Nat) :
    (s.setThreshold L t).sender = s.sender := by
  cases L <;> rfl
@[simp] theorem State.setThreshold_laneOut (s : State) (L : Lead) (t : Nat) :
    (s.setThreshold L t).laneOut = s.laneOut := by
  cases L <;> rfl
@[simp] theorem State.setThreshold_linkOut (s : State) (L : Lead) (t : Nat) :
    (s.setThreshold L t).linkOut = s.linkOut := by
  cases L <;> rfl
@[simp] theorem State.setThreshold_draws (s : State) (L : Lead) (t : Nat) :
    (s.setThreshold L t).draws = s.draws := by
  cases L <;> rfl

/-! ### A drawn order -/

@[simp] theorem State.drawn_pending (s : State) : (s.drawn).pending = s.pending := rfl
@[simp] theorem State.drawn_resetLow (s : State) : (s.drawn).resetLow = s.resetLow := rfl
@[simp] theorem State.drawn_nodeAddr (s : State) : (s.drawn).nodeAddr = s.nodeAddr := rfl
@[simp] theorem State.drawn_pedalPins (s : State) : (s.drawn).pedalPins = s.pedalPins := rfl
@[simp] theorem State.drawn_receiver (s : State) : (s.drawn).receiver = s.receiver := rfl
@[simp] theorem State.drawn_ltu (s : State) : (s.drawn).ltu = s.ltu := rfl
@[simp] theorem State.drawn_config (s : State) : (s.drawn).config = s.config := rfl
@[simp] theorem State.drawn_tuning (s : State) : (s.drawn).tuning = s.tuning := rfl
@[simp] theorem State.drawn_maps (s : State) : (s.drawn).maps = s.maps := rfl
@[simp] theorem State.drawn_scenes (s : State) : (s.drawn).scenes = s.scenes := rfl
@[simp] theorem State.drawn_load (s : State) : (s.drawn).load = s.load := rfl
@[simp] theorem State.drawn_leadA (s : State) : (s.drawn).leadA = s.leadA := rfl
@[simp] theorem State.drawn_leadB (s : State) : (s.drawn).leadB = s.leadB := rfl
@[simp] theorem State.drawn_voices (s : State) : (s.drawn).voices = s.voices := rfl
@[simp] theorem State.drawn_pedals (s : State) : (s.drawn).pedals = s.pedals := rfl
@[simp] theorem State.drawn_gateways (s : State) : (s.drawn).gateways = s.gateways := rfl
@[simp] theorem State.drawn_timed (s : State) : (s.drawn).timed = s.timed := rfl
@[simp] theorem State.drawn_thresholdA (s : State) : (s.drawn).thresholdA = s.thresholdA := rfl
@[simp] theorem State.drawn_thresholdB (s : State) : (s.drawn).thresholdB = s.thresholdB := rfl
@[simp] theorem State.drawn_faults (s : State) : (s.drawn).faults = s.faults := rfl
@[simp] theorem State.drawn_pointer (s : State) : (s.drawn).pointer = s.pointer := rfl
@[simp] theorem State.drawn_counters (s : State) : (s.drawn).counters = s.counters := rfl
@[simp] theorem State.drawn_assembly (s : State) : (s.drawn).assembly = s.assembly := rfl
@[simp] theorem State.drawn_fifo (s : State) : (s.drawn).fifo = s.fifo := rfl
@[simp] theorem State.drawn_outq (s : State) : (s.drawn).outq = s.outq := rfl
@[simp] theorem State.drawn_sender (s : State) : (s.drawn).sender = s.sender := rfl
@[simp] theorem State.drawn_laneOut (s : State) : (s.drawn).laneOut = s.laneOut := rfl
@[simp] theorem State.drawn_linkOut (s : State) : (s.drawn).linkOut = s.linkOut := rfl

/-! ### A counted event -/

@[simp] theorem countEvent_pending (s : State) (e : Event) :
    (countEvent e s).pending = s.pending := rfl
@[simp] theorem countEvent_resetLow (s : State) (e : Event) :
    (countEvent e s).resetLow = s.resetLow := rfl
@[simp] theorem countEvent_nodeAddr (s : State) (e : Event) :
    (countEvent e s).nodeAddr = s.nodeAddr := rfl
@[simp] theorem countEvent_pedalPins (s : State) (e : Event) :
    (countEvent e s).pedalPins = s.pedalPins := rfl
@[simp] theorem countEvent_receiver (s : State) (e : Event) :
    (countEvent e s).receiver = s.receiver := rfl
@[simp] theorem countEvent_ltu (s : State) (e : Event) : (countEvent e s).ltu = s.ltu := rfl
@[simp] theorem countEvent_config (s : State) (e : Event) :
    (countEvent e s).config = s.config := rfl
@[simp] theorem countEvent_tuning (s : State) (e : Event) :
    (countEvent e s).tuning = s.tuning := rfl
@[simp] theorem countEvent_maps (s : State) (e : Event) : (countEvent e s).maps = s.maps := rfl
@[simp] theorem countEvent_scenes (s : State) (e : Event) :
    (countEvent e s).scenes = s.scenes := rfl
@[simp] theorem countEvent_load (s : State) (e : Event) : (countEvent e s).load = s.load := rfl
@[simp] theorem countEvent_leadA (s : State) (e : Event) : (countEvent e s).leadA = s.leadA := rfl
@[simp] theorem countEvent_leadB (s : State) (e : Event) : (countEvent e s).leadB = s.leadB := rfl
@[simp] theorem countEvent_voices (s : State) (e : Event) :
    (countEvent e s).voices = s.voices := rfl
@[simp] theorem countEvent_pedals (s : State) (e : Event) :
    (countEvent e s).pedals = s.pedals := rfl
@[simp] theorem countEvent_gateways (s : State) (e : Event) :
    (countEvent e s).gateways = s.gateways := rfl
@[simp] theorem countEvent_timed (s : State) (e : Event) : (countEvent e s).timed = s.timed := rfl
@[simp] theorem countEvent_thresholdA (s : State) (e : Event) :
    (countEvent e s).thresholdA = s.thresholdA := rfl
@[simp] theorem countEvent_thresholdB (s : State) (e : Event) :
    (countEvent e s).thresholdB = s.thresholdB := rfl
@[simp] theorem countEvent_faults (s : State) (e : Event) :
    (countEvent e s).faults = s.faults := rfl
@[simp] theorem countEvent_pointer (s : State) (e : Event) :
    (countEvent e s).pointer = s.pointer := rfl
@[simp] theorem countEvent_assembly (s : State) (e : Event) :
    (countEvent e s).assembly = s.assembly := rfl
@[simp] theorem countEvent_fifo (s : State) (e : Event) : (countEvent e s).fifo = s.fifo := rfl
@[simp] theorem countEvent_outq (s : State) (e : Event) : (countEvent e s).outq = s.outq := rfl
@[simp] theorem countEvent_sender (s : State) (e : Event) :
    (countEvent e s).sender = s.sender := rfl
@[simp] theorem countEvent_laneOut (s : State) (e : Event) :
    (countEvent e s).laneOut = s.laneOut := rfl
@[simp] theorem countEvent_linkOut (s : State) (e : Event) :
    (countEvent e s).linkOut = s.linkOut := rfl
@[simp] theorem countEvent_draws (s : State) (e : Event) : (countEvent e s).draws = s.draws := rfl

/-! ### A message queued -/

@[simp] theorem enqueue_pending (s : State) (m : OutItem) : (enqueue m s).pending = s.pending := rfl
@[simp] theorem enqueue_resetLow (s : State) (m : OutItem) :
    (enqueue m s).resetLow = s.resetLow := rfl
@[simp] theorem enqueue_nodeAddr (s : State) (m : OutItem) :
    (enqueue m s).nodeAddr = s.nodeAddr := rfl
@[simp] theorem enqueue_pedalPins (s : State) (m : OutItem) :
    (enqueue m s).pedalPins = s.pedalPins := rfl
@[simp] theorem enqueue_receiver (s : State) (m : OutItem) :
    (enqueue m s).receiver = s.receiver := rfl
@[simp] theorem enqueue_ltu (s : State) (m : OutItem) : (enqueue m s).ltu = s.ltu := rfl
@[simp] theorem enqueue_config (s : State) (m : OutItem) : (enqueue m s).config = s.config := rfl
@[simp] theorem enqueue_tuning (s : State) (m : OutItem) : (enqueue m s).tuning = s.tuning := rfl
@[simp] theorem enqueue_maps (s : State) (m : OutItem) : (enqueue m s).maps = s.maps := rfl
@[simp] theorem enqueue_scenes (s : State) (m : OutItem) : (enqueue m s).scenes = s.scenes := rfl
@[simp] theorem enqueue_load (s : State) (m : OutItem) : (enqueue m s).load = s.load := rfl
@[simp] theorem enqueue_leadA (s : State) (m : OutItem) : (enqueue m s).leadA = s.leadA := rfl
@[simp] theorem enqueue_leadB (s : State) (m : OutItem) : (enqueue m s).leadB = s.leadB := rfl
@[simp] theorem enqueue_voices (s : State) (m : OutItem) : (enqueue m s).voices = s.voices := rfl
@[simp] theorem enqueue_pedals (s : State) (m : OutItem) : (enqueue m s).pedals = s.pedals := rfl
@[simp] theorem enqueue_gateways (s : State) (m : OutItem) :
    (enqueue m s).gateways = s.gateways := rfl
@[simp] theorem enqueue_timed (s : State) (m : OutItem) : (enqueue m s).timed = s.timed := rfl
@[simp] theorem enqueue_thresholdA (s : State) (m : OutItem) :
    (enqueue m s).thresholdA = s.thresholdA := rfl
@[simp] theorem enqueue_thresholdB (s : State) (m : OutItem) :
    (enqueue m s).thresholdB = s.thresholdB := rfl
@[simp] theorem enqueue_faults (s : State) (m : OutItem) : (enqueue m s).faults = s.faults := rfl
@[simp] theorem enqueue_pointer (s : State) (m : OutItem) : (enqueue m s).pointer = s.pointer := rfl
@[simp] theorem enqueue_counters (s : State) (m : OutItem) :
    (enqueue m s).counters = s.counters := rfl
@[simp] theorem enqueue_assembly (s : State) (m : OutItem) :
    (enqueue m s).assembly = s.assembly := rfl
@[simp] theorem enqueue_fifo (s : State) (m : OutItem) : (enqueue m s).fifo = s.fifo := rfl
@[simp] theorem enqueue_sender (s : State) (m : OutItem) : (enqueue m s).sender = s.sender := rfl
@[simp] theorem enqueue_laneOut (s : State) (m : OutItem) : (enqueue m s).laneOut = s.laneOut := rfl
@[simp] theorem enqueue_linkOut (s : State) (m : OutItem) : (enqueue m s).linkOut = s.linkOut := rfl
@[simp] theorem enqueue_draws (s : State) (m : OutItem) : (enqueue m s).draws = s.draws := rfl

/-! ### Frozen notes of a voice number cleared -/

@[simp] theorem clearFrozen_pending (s : State) (v : VoiceId) :
    (clearFrozen v s).pending = s.pending := rfl
@[simp] theorem clearFrozen_resetLow (s : State) (v : VoiceId) :
    (clearFrozen v s).resetLow = s.resetLow := rfl
@[simp] theorem clearFrozen_nodeAddr (s : State) (v : VoiceId) :
    (clearFrozen v s).nodeAddr = s.nodeAddr := rfl
@[simp] theorem clearFrozen_pedalPins (s : State) (v : VoiceId) :
    (clearFrozen v s).pedalPins = s.pedalPins := rfl
@[simp] theorem clearFrozen_receiver (s : State) (v : VoiceId) :
    (clearFrozen v s).receiver = s.receiver := rfl
@[simp] theorem clearFrozen_ltu (s : State) (v : VoiceId) : (clearFrozen v s).ltu = s.ltu := rfl
@[simp] theorem clearFrozen_config (s : State) (v : VoiceId) :
    (clearFrozen v s).config = s.config := rfl
@[simp] theorem clearFrozen_tuning (s : State) (v : VoiceId) :
    (clearFrozen v s).tuning = s.tuning := rfl
@[simp] theorem clearFrozen_maps (s : State) (v : VoiceId) : (clearFrozen v s).maps = s.maps := rfl
@[simp] theorem clearFrozen_scenes (s : State) (v : VoiceId) :
    (clearFrozen v s).scenes = s.scenes := rfl
@[simp] theorem clearFrozen_load (s : State) (v : VoiceId) : (clearFrozen v s).load = s.load := rfl
@[simp] theorem clearFrozen_voices (s : State) (v : VoiceId) :
    (clearFrozen v s).voices = s.voices := rfl
@[simp] theorem clearFrozen_pedals (s : State) (v : VoiceId) :
    (clearFrozen v s).pedals = s.pedals := rfl
@[simp] theorem clearFrozen_gateways (s : State) (v : VoiceId) :
    (clearFrozen v s).gateways = s.gateways := rfl
@[simp] theorem clearFrozen_timed (s : State) (v : VoiceId) :
    (clearFrozen v s).timed = s.timed := rfl
@[simp] theorem clearFrozen_thresholdA (s : State) (v : VoiceId) :
    (clearFrozen v s).thresholdA = s.thresholdA := rfl
@[simp] theorem clearFrozen_thresholdB (s : State) (v : VoiceId) :
    (clearFrozen v s).thresholdB = s.thresholdB := rfl
@[simp] theorem clearFrozen_faults (s : State) (v : VoiceId) :
    (clearFrozen v s).faults = s.faults := rfl
@[simp] theorem clearFrozen_pointer (s : State) (v : VoiceId) :
    (clearFrozen v s).pointer = s.pointer := rfl
@[simp] theorem clearFrozen_counters (s : State) (v : VoiceId) :
    (clearFrozen v s).counters = s.counters := rfl
@[simp] theorem clearFrozen_assembly (s : State) (v : VoiceId) :
    (clearFrozen v s).assembly = s.assembly := rfl
@[simp] theorem clearFrozen_fifo (s : State) (v : VoiceId) : (clearFrozen v s).fifo = s.fifo := rfl
@[simp] theorem clearFrozen_outq (s : State) (v : VoiceId) : (clearFrozen v s).outq = s.outq := rfl
@[simp] theorem clearFrozen_sender (s : State) (v : VoiceId) :
    (clearFrozen v s).sender = s.sender := rfl
@[simp] theorem clearFrozen_laneOut (s : State) (v : VoiceId) :
    (clearFrozen v s).laneOut = s.laneOut := rfl
@[simp] theorem clearFrozen_linkOut (s : State) (v : VoiceId) :
    (clearFrozen v s).linkOut = s.linkOut := rfl
@[simp] theorem clearFrozen_draws (s : State) (v : VoiceId) :
    (clearFrozen v s).draws = s.draws := rfl

@[simp] theorem countEvent_lead (e : Event) (s : State) (L : Lead) :
    (countEvent e s).lead L = s.lead L := by cases L <;> rfl

@[simp] theorem countEvent_voice (e : Event) (s : State) (v : VoiceId) :
    (countEvent e s).voice v = s.voice v := rfl

@[simp] theorem countEvent_fault (e : Event) (s : State) (k : FaultKind) :
    (countEvent e s).fault k = s.fault k := rfl

@[simp] theorem enqueue_outq (m : OutItem) (s : State) : (enqueue m s).outq = s.outq ++ [m] := rfl

end Sys2Proof.Machine
end

