-- ==== Sys2Proof/Laws/Only.lean ====
section
/-! SUPPORT. Two relations that say what an operation leaves alone: `OnlyFaults`, for what an occurrence of
a fault touches, and `OnlyEngine`, for what the work of a frame touches behind the lane. Each is reflexive
and transitive, so that a chain of operations is one step of the relation. -/

namespace Sys2Proof.Machine

/-- A state without what an occurrence touches (R152). -/
def State.withoutFaults (s : State) : State :=
  { s with voices := State.reset.voices, faults := State.reset.faults, pointer := none
           counters := State.reset.counters, outq := [] }

/-- `t` differs from `s` in voices, Fault Unit, counters and a longer outbound queue alone (R152). -/
structure OnlyFaults (s t : State) : Prop where
  rest : t.withoutFaults = s.withoutFaults
  queue : s.outq <+: t.outq

theorem OnlyFaults.refl (s : State) : OnlyFaults s s := ⟨rfl, List.prefix_refl _⟩

theorem OnlyFaults.trans {s t u : State} (h : OnlyFaults s t) (k : OnlyFaults t u) : OnlyFaults s u :=
  ⟨k.rest.trans h.rest, h.queue.trans k.queue⟩

/-- Read as an update of `s`. -/
theorem OnlyFaults.eq {s t : State} (h : OnlyFaults s t) :
    t = { s with voices := t.voices, faults := t.faults, pointer := t.pointer
                 counters := t.counters, outq := t.outq } := by
  have h := h.rest
  cases s; cases t
  simp only [State.withoutFaults, State.mk.injEq] at h ⊢
  simp [h]

theorem OnlyFaults.pending {s t : State} (h : OnlyFaults s t) : t.pending = s.pending :=
  (congrArg State.pending h.rest :)
theorem OnlyFaults.resetLow {s t : State} (h : OnlyFaults s t) : t.resetLow = s.resetLow :=
  (congrArg State.resetLow h.rest :)
theorem OnlyFaults.nodeAddr {s t : State} (h : OnlyFaults s t) : t.nodeAddr = s.nodeAddr :=
  (congrArg State.nodeAddr h.rest :)
theorem OnlyFaults.ltu {s t : State} (h : OnlyFaults s t) : t.ltu = s.ltu :=
  (congrArg State.ltu h.rest :)
theorem OnlyFaults.config {s t : State} (h : OnlyFaults s t) : t.config = s.config :=
  (congrArg State.config h.rest :)
theorem OnlyFaults.tuning {s t : State} (h : OnlyFaults s t) : t.tuning = s.tuning :=
  (congrArg State.tuning h.rest :)
theorem OnlyFaults.maps {s t : State} (h : OnlyFaults s t) : t.maps = s.maps :=
  (congrArg State.maps h.rest :)
theorem OnlyFaults.scenes {s t : State} (h : OnlyFaults s t) : t.scenes = s.scenes :=
  (congrArg State.scenes h.rest :)
theorem OnlyFaults.load {s t : State} (h : OnlyFaults s t) : t.load = s.load :=
  (congrArg State.load h.rest :)
theorem OnlyFaults.leadA {s t : State} (h : OnlyFaults s t) : t.leadA = s.leadA :=
  (congrArg State.leadA h.rest :)
theorem OnlyFaults.leadB {s t : State} (h : OnlyFaults s t) : t.leadB = s.leadB :=
  (congrArg State.leadB h.rest :)
theorem OnlyFaults.lead {s t : State} (h : OnlyFaults s t) (L : Lead) : t.lead L = s.lead L := by
  cases L
  · exact h.leadA
  · exact h.leadB
theorem OnlyFaults.pedals {s t : State} (h : OnlyFaults s t) : t.pedals = s.pedals :=
  (congrArg State.pedals h.rest :)
theorem OnlyFaults.gateways {s t : State} (h : OnlyFaults s t) : t.gateways = s.gateways :=
  (congrArg State.gateways h.rest :)
theorem OnlyFaults.timed {s t : State} (h : OnlyFaults s t) : t.timed = s.timed :=
  (congrArg State.timed h.rest :)
theorem OnlyFaults.assembly {s t : State} (h : OnlyFaults s t) : t.assembly = s.assembly :=
  (congrArg State.assembly h.rest :)
theorem OnlyFaults.fifo {s t : State} (h : OnlyFaults s t) : t.fifo = s.fifo :=
  (congrArg State.fifo h.rest :)
theorem OnlyFaults.sender {s t : State} (h : OnlyFaults s t) : t.sender = s.sender :=
  (congrArg State.sender h.rest :)
theorem OnlyFaults.params {s t : State} (h : OnlyFaults s t) (L : Lead) : t.params L = s.params L := by
  unfold State.params
  rw [h.lead, h.scenes]

/-- A state without what the work of a frame behind the lane touches. -/
def State.withoutEngine (s : State) : State :=
  { s with leadA := LeadChannel.reset, leadB := LeadChannel.reset, voices := State.reset.voices
           pedals := State.reset.pedals, gateways := State.reset.gateways, timed := []
           faults := State.reset.faults, pointer := none, counters := State.reset.counters
           outq := [], draws := 0 }

/-- `t` differs from `s` in the engine (leads, voices, Cue Unit), the Fault Unit, counters, the count of
drawn orders and a longer outbound queue alone. -/
structure OnlyEngine (s t : State) : Prop where
  rest : t.withoutEngine = s.withoutEngine
  queue : s.outq <+: t.outq

theorem OnlyEngine.refl (s : State) : OnlyEngine s s := ⟨rfl, List.prefix_refl _⟩

theorem OnlyEngine.trans {s t u : State} (h : OnlyEngine s t) (k : OnlyEngine t u) : OnlyEngine s u :=
  ⟨k.rest.trans h.rest, h.queue.trans k.queue⟩

/-- Read as an update of `s`. -/
theorem OnlyEngine.eq {s t : State} (h : OnlyEngine s t) :
    t = { s with leadA := t.leadA, leadB := t.leadB, voices := t.voices, pedals := t.pedals
                 gateways := t.gateways, timed := t.timed, faults := t.faults, pointer := t.pointer
                 counters := t.counters, outq := t.outq, draws := t.draws } := by
  have h := h.rest
  cases s; cases t
  simp only [State.withoutEngine, State.mk.injEq] at h ⊢
  simp [h]

theorem OnlyFaults.engine {s t : State} (h : OnlyFaults s t) : OnlyEngine s t :=
  ⟨(congrArg State.withoutEngine h.rest :), h.queue⟩

theorem OnlyEngine.pending {s t : State} (h : OnlyEngine s t) : t.pending = s.pending :=
  (congrArg State.pending h.rest :)
theorem OnlyEngine.resetLow {s t : State} (h : OnlyEngine s t) : t.resetLow = s.resetLow :=
  (congrArg State.resetLow h.rest :)
theorem OnlyEngine.nodeAddr {s t : State} (h : OnlyEngine s t) : t.nodeAddr = s.nodeAddr :=
  (congrArg State.nodeAddr h.rest :)
theorem OnlyEngine.ltu {s t : State} (h : OnlyEngine s t) : t.ltu = s.ltu :=
  (congrArg State.ltu h.rest :)
theorem OnlyEngine.config {s t : State} (h : OnlyEngine s t) : t.config = s.config :=
  (congrArg State.config h.rest :)
theorem OnlyEngine.tuning {s t : State} (h : OnlyEngine s t) : t.tuning = s.tuning :=
  (congrArg State.tuning h.rest :)
theorem OnlyEngine.maps {s t : State} (h : OnlyEngine s t) : t.maps = s.maps :=
  (congrArg State.maps h.rest :)
theorem OnlyEngine.scenes {s t : State} (h : OnlyEngine s t) : t.scenes = s.scenes :=
  (congrArg State.scenes h.rest :)
theorem OnlyEngine.assembly {s t : State} (h : OnlyEngine s t) : t.assembly = s.assembly :=
  (congrArg State.assembly h.rest :)
theorem OnlyEngine.fifo {s t : State} (h : OnlyEngine s t) : t.fifo = s.fifo :=
  (congrArg State.fifo h.rest :)
theorem OnlyEngine.sender {s t : State} (h : OnlyEngine s t) : t.sender = s.sender :=
  (congrArg State.sender h.rest :)

/-! ### Single updates -/

/-- A new voice record touches the voices alone. -/
theorem OnlyFaults.setVoice (s : State) (v : VoiceId) (x : Voice) : OnlyFaults s (s.setVoice v x) :=
  ⟨rfl, List.prefix_refl _⟩

/-- A new fault record touches the Fault Unit alone. -/
theorem OnlyFaults.setFault (s : State) (k : FaultKind) (x : FaultRecord) :
    OnlyFaults s (s.setFault k x) :=
  ⟨rfl, List.prefix_refl _⟩

/-- A new lead record touches the engine alone. -/
theorem OnlyEngine.setLead (s : State) (L : Lead) (c : LeadChannel) : OnlyEngine s (s.setLead L c) := by
  cases L <;> exact ⟨rfl, List.prefix_refl _⟩

/-- A new gateway touches the engine alone. -/
theorem OnlyEngine.setGateway (s : State) (g : Fin 8) (x : Gateway) :
    OnlyEngine s (s.setGateway g x) :=
  ⟨rfl, List.prefix_refl _⟩

/-- A new pedal line touches the engine alone. -/
theorem OnlyEngine.setPedal (s : State) (l : LineId) (x : PedalLine) :
    OnlyEngine s (s.setPedal l x) :=
  ⟨rfl, List.prefix_refl _⟩

/-- Cleared frozen notes touch the engine alone (R85). -/
theorem OnlyEngine.clearFrozen (v : VoiceId) (s : State) : OnlyEngine s (clearFrozen v s) :=
  ⟨rfl, List.prefix_refl _⟩

/-- A drawn order touches the count of drawn orders alone. -/
theorem OnlyEngine.drawn (s : State) : OnlyEngine s s.drawn := ⟨rfl, List.prefix_refl _⟩

/-- A fold of operations that keep the relation keeps it. -/
theorem OnlyFaults.foldl {α : Type} (f : State → α → State) (h : ∀ s a, OnlyFaults s (f s a)) :
    ∀ (l : List α) (s : State), OnlyFaults s (l.foldl f s)
  | [], s => OnlyFaults.refl s
  | a :: l, s => (h s a).trans (OnlyFaults.foldl f h l (f s a))

theorem OnlyEngine.foldl {α : Type} (f : State → α → State) (h : ∀ s a, OnlyEngine s (f s a)) :
    ∀ (l : List α) (s : State), OnlyEngine s (l.foldl f s)
  | [], s => OnlyEngine.refl s
  | a :: l, s => (h s a).trans (OnlyEngine.foldl f h l (f s a))

end Sys2Proof.Machine
end

