-- ==== Sys2Proof/Laws/Faults.lean ====
section
/-! SUPPORT. What the fault and counter operations can do: an occurrence touches voices, Fault Unit,
counters and the tail of the outbound queue alone (R152); a status once set stays set through any
occurrence; a mute request by the voice's state (R99, R100). -/

namespace Sys2Proof.Machine

/-! ### Counters -/

/-- A counter counts an event of its own code alone, and only while not inhibited (R162). -/
theorem Counter.after_ne (c : Counter) (code : Nat) (h : c.selector ≠ code ∨ c.inhibit = true) :
    c.after code = c := by
  rcases h with h | h <;> simp [Counter.after, h]

theorem Counter.after_eq (c : Counter) (code : Nat) (h : c.selector = code) (n : c.inhibit = false) :
    c.after code = { c with count := c.count + 1 } := by
  simp [Counter.after, h, n]

theorem countEvent_onlyFaults (e : Event) (s : State) : OnlyFaults s (countEvent e s) :=
  ⟨rfl, List.prefix_refl _⟩

/-- The device's own events have codes 1 to 14 (R163). -/
theorem eventCode_range (e : Event) : 1 ≤ eventCode e ∧ eventCode e ≤ 14 := by
  rcases e with L | L | _ <;> first | cases L <;> decide | decide

/-! ### Mute and unmute (R99, R100) -/

theorem mem_addFault (k j : FaultKind) (ks : List FaultKind) :
    j ∈ addFault k ks ↔ j ∈ ks ∨ j = k := by
  unfold addFault
  split <;> rename_i h
  · exact ⟨Or.inl, fun q => q.elim id fun e => e ▸ h⟩
  · simp

theorem addFault_nodup (k : FaultKind) (ks : List FaultKind) (h : ks.Nodup) :
    (addFault k ks).Nodup := by
  unfold addFault
  split
  · exact h
  · rename_i n
    exact List.nodup_append.2 ⟨h, List.nodup_singleton k, by
      intro a ha b hb e
      simp only [List.mem_singleton] at hb
      exact n (hb ▸ e ▸ ha)⟩

/-- A mute request keeps a voice's owner, assignments, release mark, steps and main head (R99). -/
theorem Voice.mutedBy_keeps (x : Voice) (k : FaultKind) (inc : Nat) :
    (x.mutedBy k inc).owner = x.owner ∧ (x.mutedBy k inc).part = x.part
      ∧ (x.mutedBy k inc).pendingPart = x.pendingPart
      ∧ (x.mutedBy k inc).releaseMark = x.releaseMark
      ∧ (x.mutedBy k inc).envelope = x.envelope
      ∧ (x.mutedBy k inc).currentStep = x.currentStep
      ∧ (x.mutedBy k inc).targetStep = x.targetStep
      ∧ (x.mutedBy k inc).distance = x.distance
      ∧ ((x.mutedBy k inc).crossfade = x.crossfade ∨ (x.mutedBy k inc).crossfade = none) := by
  unfold Voice.mutedBy
  split <;> try split
  all_goals simp

/-- A mute request neither makes a voice OFF nor starts its heads (R99). -/
theorem Voice.mutedBy_state (x : Voice) (k : FaultKind) (inc : Nat) :
    ((x.mutedBy k inc).state = .off ↔ x.state = .off)
      ∧ ((x.mutedBy k inc).runs = true → x.runs = true) := by
  unfold Voice.mutedBy
  split <;> rename_i h <;> try split
  all_goals simp [Voice.runs, h]

/-- After a mute request the kind is in the fault set of a voice that is not OFF (R99). -/
theorem Voice.mutedBy_faults (x : Voice) (k : FaultKind) (inc : Nat) :
    (x.mutedBy k inc).faults = if x.state = .off then x.faults else addFault k x.faults := by
  unfold Voice.mutedBy
  cases h : x.state <;> simp only [reduceCtorEq, if_false, if_true] <;> (try split) <;> rfl

/-- An unmute request takes the kinds it names out of the fault set (R100). -/
theorem Voice.unmutedBy_faults (x : Voice) (ks : List FaultKind) :
    (x.unmutedBy ks).faults = x.faults.filter fun k => !ks.contains k := by
  unfold Voice.unmutedBy
  simp only
  split
  · rename_i h; rw [h]
  · split
    · rfl
    · rename_i h
      simp only [ne_eq, not_not] at h
      rw [h]
      split <;> try split
      all_goals rfl

/-- An unmute request neither makes a voice OFF nor starts its heads (R100). -/
theorem Voice.unmutedBy_state (x : Voice) (ks : List FaultKind) :
    ((x.unmutedBy ks).state = .off ↔ x.state = .off) ∧ (x.unmutedBy ks).runs = x.runs := by
  unfold Voice.unmutedBy
  simp only
  split
  · simp
  · split
    · simp [Voice.runs]
    · split <;> rename_i h <;> try split
      all_goals simp [Voice.runs, h]

theorem muteVoice_onlyFaults (k : FaultKind) (s : State) (v : VoiceId) :
    OnlyFaults s (muteVoice k s v) := OnlyFaults.setVoice ..

@[simp] theorem muteVoice_faults (k : FaultKind) (s : State) (v : VoiceId) :
    (muteVoice k s v).faults = s.faults := rfl
@[simp] theorem muteVoice_pointer (k : FaultKind) (s : State) (v : VoiceId) :
    (muteVoice k s v).pointer = s.pointer := rfl
@[simp] theorem muteVoice_counters (k : FaultKind) (s : State) (v : VoiceId) :
    (muteVoice k s v).counters = s.counters := rfl
@[simp] theorem muteVoice_outq (k : FaultKind) (s : State) (v : VoiceId) :
    (muteVoice k s v).outq = s.outq := rfl

/-- A property of every voice that a mute keeps is kept by muting several. -/
theorem muteVoices_keep (P : Voice → Prop) (k : FaultKind) (h : ∀ x inc, P x → P (x.mutedBy k inc)) :
    ∀ (vs : List VoiceId) (s : State), (∀ v, P (s.voice v)) →
      ∀ v, P ((vs.foldl (muteVoice k) s).voice v)
  | [], _, q => q
  | w :: vs, s, q => by
    refine muteVoices_keep P k h vs (muteVoice k s w) fun v => ?_
    unfold muteVoice
    by_cases e : w = v
    · subst e; rw [State.voice_setVoice]; exact h _ _ (q w)
    · rw [State.voice_setVoice_ne _ _ _ _ e]; exact q v

/-- Muting several voices leaves the Fault Unit, the counters and the outbound queue alone. -/
theorem muteVoices_rest (k : FaultKind) : ∀ (vs : List VoiceId) (s : State),
    (vs.foldl (muteVoice k) s).faults = s.faults ∧ (vs.foldl (muteVoice k) s).pointer = s.pointer
      ∧ (vs.foldl (muteVoice k) s).counters = s.counters
      ∧ (vs.foldl (muteVoice k) s).outq = s.outq
  | [], _ => ⟨rfl, rfl, rfl, rfl⟩
  | w :: vs, s => by simpa using muteVoices_rest k vs (muteVoice k s w)

/-! ### Occurrences (R152) -/

/-- The Fault Unit's part of a clear-to-set transition: status and pointer (R152, steps 1 and 2). -/
def kindSet (k : FaultKind) (s : State) : State :=
  { s.setFault k { s.fault k with status := true } with
    pointer := match s.pointer with | some p => some p | none => some k }

theorem setKind_mute (k : FaultKind) (sc : Scope) (s : State) (h : (s.fault k).severity = .mute) :
    setKind k sc s = (inScope sc (kindSet k s)).foldl (muteVoice k) (kindSet k s) :=
  congrArg (fun v => match v with
    | .mute => (inScope sc (kindSet k s)).foldl (muteVoice k) (kindSet k s)
    | .notice => kindSet k s) h

theorem setKind_notice (k : FaultKind) (sc : Scope) (s : State)
    (h : (s.fault k).severity = .notice) : setKind k sc s = kindSet k s :=
  congrArg (fun v => match v with
    | .mute => (inScope sc (kindSet k s)).foldl (muteVoice k) (kindSet k s)
    | .notice => kindSet k s) h

theorem setKind_onlyFaults (k : FaultKind) (sc : Scope) (s : State) : OnlyFaults s (setKind k sc s) := by
  have h : OnlyFaults s (kindSet k s) := ⟨rfl, List.prefix_refl _⟩
  cases q : (s.fault k).severity
  · rw [setKind_notice k sc s q]; exact h
  · rw [setKind_mute k sc s q]; exact h.trans (OnlyFaults.foldl _ (muteVoice_onlyFaults k) _ _)

/-- Setting a kind writes its record and the pointer, and leaves counters and queue alone (R152 to
R154). -/
theorem setKind_records (k : FaultKind) (sc : Scope) (s : State) :
    (setKind k sc s).faults = (kindSet k s).faults
      ∧ (setKind k sc s).pointer = (match s.pointer with | some p => some p | none => some k)
      ∧ (setKind k sc s).counters = s.counters ∧ (setKind k sc s).outq = s.outq := by
  cases q : (s.fault k).severity
  · rw [setKind_notice k sc s q]; exact ⟨rfl, rfl, rfl, rfl⟩
  · rw [setKind_mute k sc s q]; exact muteVoices_rest k _ _

/-- Setting a kind sets its status and keeps every other record (R152). -/
theorem setKind_fault (k j : FaultKind) (sc : Scope) (s : State) :
    (setKind k sc s).fault j = if j = k then { s.fault k with status := true } else s.fault j := by
  have h : (setKind k sc s).fault j = (kindSet k s).fault j := by
    unfold State.fault
    rw [(setKind_records k sc s).1]
  have e : (kindSet k s).fault j = (s.setFault k { s.fault k with status := true }).fault j := rfl
  rw [h, e]
  split
  · rename_i e; subst e; rw [State.fault_setFault]
  · rename_i e; exact State.fault_setFault_ne _ _ _ _ fun q => e q.symm

theorem enqueue_onlyFaults (m : OutItem) (s : State) : OnlyFaults s (enqueue m s) :=
  ⟨rfl, List.prefix_append _ _⟩

/-- An occurrence touches what its offer touches and nothing more (R152). -/
theorem occur_onlyFaults (k : FaultKind) (sc : Scope) (offer : Message → State → State) (s : State)
    (h : ∀ m t, OnlyFaults t (offer m t)) : OnlyFaults s (occur k sc offer s) := by
  unfold occur
  split
  · exact OnlyFaults.refl s
  · split
    · exact countEvent_onlyFaults _ s
    · have q := (countEvent_onlyFaults .faultOccurrence s).trans (setKind_onlyFaults k sc _)
      simp only
      split
      · exact q
      · exact q.trans (h _ _)

theorem offerSilently_onlyFaults (m : Message) (s : State) : OnlyFaults s (offerSilently m s) := by
  unfold offerSilently
  split
  · exact enqueue_onlyFaults _ s
  · exact OnlyFaults.refl s

theorem offerNotice_onlyFaults (m : Message) (s : State) : OnlyFaults s (offerNotice m s) := by
  unfold offerNotice
  split
  · exact enqueue_onlyFaults _ s
  · exact occur_onlyFaults _ _ _ s offerSilently_onlyFaults

/-- Everything an occurrence can touch (R152). -/
theorem raise_onlyFaults (k : FaultKind) (sc : Scope) (s : State) : OnlyFaults s (raise k sc s) :=
  occur_onlyFaults _ _ _ s offerNotice_onlyFaults

/-! ### A status once set stays set, and settings stay as they are -/

/-- No kind is cleared and no mask or severity changes from `s` to `t`. -/
def StatusGrows (s t : State) : Prop :=
  ∀ j, ((s.fault j).status = true → (t.fault j).status = true)
    ∧ (t.fault j).detectMask = (s.fault j).detectMask
    ∧ (t.fault j).reportMask = (s.fault j).reportMask ∧ (t.fault j).severity = (s.fault j).severity

theorem StatusGrows.refl (s : State) : StatusGrows s s := fun _ => ⟨id, rfl, rfl, rfl⟩

theorem StatusGrows.trans {s t u : State} (h : StatusGrows s t) (k : StatusGrows t u) :
    StatusGrows s u := fun j =>
  ⟨fun q => (k j).1 ((h j).1 q), (k j).2.1.trans (h j).2.1, (k j).2.2.1.trans (h j).2.2.1,
    (k j).2.2.2.trans (h j).2.2.2⟩

/-- Operations that leave the Fault Unit's records alone. -/
theorem StatusGrows.of_faults {s t : State} (h : t.faults = s.faults) : StatusGrows s t := fun j => by
  have q : t.fault j = s.fault j := by unfold State.fault; rw [h]
  rw [q]
  exact ⟨id, rfl, rfl, rfl⟩

theorem setKind_statusGrows (k : FaultKind) (sc : Scope) (s : State) :
    StatusGrows s (setKind k sc s) := fun j => by
  rw [setKind_fault]
  split
  · rename_i e; subst e; exact ⟨fun _ => rfl, rfl, rfl, rfl⟩
  · exact ⟨id, rfl, rfl, rfl⟩

theorem occur_statusGrows (k : FaultKind) (sc : Scope) (offer : Message → State → State) (s : State)
    (h : ∀ m t, StatusGrows t (offer m t)) : StatusGrows s (occur k sc offer s) := by
  unfold occur
  split
  · exact StatusGrows.refl s
  · split
    · exact StatusGrows.of_faults rfl
    · have q : StatusGrows s (setKind k sc (countEvent .faultOccurrence s)) :=
        (StatusGrows.of_faults (t := countEvent .faultOccurrence s) rfl).trans
          (setKind_statusGrows k sc _)
      simp only
      split
      · exact q
      · exact q.trans (h _ _)

theorem offerSilently_statusGrows (m : Message) (s : State) : StatusGrows s (offerSilently m s) := by
  unfold offerSilently
  split
  · exact StatusGrows.of_faults rfl
  · exact StatusGrows.refl s

theorem offerNotice_statusGrows (m : Message) (s : State) : StatusGrows s (offerNotice m s) := by
  unfold offerNotice
  split
  · exact StatusGrows.of_faults rfl
  · exact occur_statusGrows _ _ _ s offerSilently_statusGrows

/-- No occurrence clears a kind or changes a setting (R152). -/
theorem raise_statusGrows (k : FaultKind) (sc : Scope) (s : State) : StatusGrows s (raise k sc s) :=
  occur_statusGrows _ _ _ s offerNotice_statusGrows

/-- A kind that is not detect-masked is set after its occurrence (R152). -/
theorem raise_sets (k : FaultKind) (sc : Scope) (s : State) (h : (s.fault k).detectMask = false) :
    ((raise k sc s).fault k).status = true := by
  have q : ((setKind k sc (countEvent .faultOccurrence s)).fault k).status = true := by
    rw [setKind_fault]; simp
  unfold raise occur
  rw [h]
  simp only [Bool.false_eq_true, if_false]
  split
  · assumption
  · split
    · exact q
    · exact (offerNotice_statusGrows _ _ k).1 q

/-- A detect-masked kind's occurrence does nothing (R152). -/
theorem raise_masked (k : FaultKind) (sc : Scope) (s : State) (h : (s.fault k).detectMask = true) :
    raise k sc s = s := by
  unfold raise occur
  rw [h]
  rfl

end Sys2Proof.Machine
end

