-- ==== Sys2Proof/Laws/Voices.lean ====
section
/-! SUPPORT. What the voice operations can do: they touch voices, frozen notes and what an occurrence
touches (R85, R92 to R100); each request leaves every other voice in place when it raises nothing; the
work of a frame on one voice (R107). -/

namespace Sys2Proof.Machine

/-! ### The relation of the voice operations -/

/-- A lead's record without its frozen notes. -/
def LeadChannel.withoutFrozen (c : LeadChannel) : LeadChannel :=
  { c with frozen := LeadChannel.reset.frozen }

/-- A state without what a voice operation touches. -/
def State.withoutVoices (s : State) : State :=
  { s.withoutFaults with leadA := s.leadA.withoutFrozen, leadB := s.leadB.withoutFrozen }

/-- `t` differs from `s` in voices, frozen notes, Fault Unit, counters and a longer outbound queue
alone. -/
structure OnlyVoices (s t : State) : Prop where
  rest : t.withoutVoices = s.withoutVoices
  queue : s.outq <+: t.outq

theorem OnlyVoices.refl (s : State) : OnlyVoices s s := ⟨rfl, List.prefix_refl _⟩

theorem OnlyVoices.trans {s t u : State} (h : OnlyVoices s t) (k : OnlyVoices t u) : OnlyVoices s u :=
  ⟨k.rest.trans h.rest, h.queue.trans k.queue⟩

/-- A state without its frozen notes. -/
def State.withoutFrozen (s : State) : State :=
  { s with leadA := s.leadA.withoutFrozen, leadB := s.leadB.withoutFrozen }

theorem OnlyFaults.toVoices {s t : State} (h : OnlyFaults s t) : OnlyVoices s t :=
  ⟨(congrArg State.withoutFrozen h.rest :), h.queue⟩

theorem OnlyVoices.engine {s t : State} (h : OnlyVoices s t) : OnlyEngine s t :=
  ⟨(congrArg State.withoutEngine h.rest :), h.queue⟩

theorem OnlyVoices.pending {s t : State} (h : OnlyVoices s t) : t.pending = s.pending :=
  (congrArg State.pending h.rest :)
theorem OnlyVoices.ltu {s t : State} (h : OnlyVoices s t) : t.ltu = s.ltu :=
  (congrArg State.ltu h.rest :)
theorem OnlyVoices.config {s t : State} (h : OnlyVoices s t) : t.config = s.config :=
  (congrArg State.config h.rest :)
theorem OnlyVoices.tuning {s t : State} (h : OnlyVoices s t) : t.tuning = s.tuning :=
  (congrArg State.tuning h.rest :)
theorem OnlyVoices.maps {s t : State} (h : OnlyVoices s t) : t.maps = s.maps :=
  (congrArg State.maps h.rest :)
theorem OnlyVoices.scenes {s t : State} (h : OnlyVoices s t) : t.scenes = s.scenes :=
  (congrArg State.scenes h.rest :)
theorem OnlyVoices.pedals {s t : State} (h : OnlyVoices s t) : t.pedals = s.pedals :=
  (congrArg State.pedals h.rest :)
theorem OnlyVoices.gateways {s t : State} (h : OnlyVoices s t) : t.gateways = s.gateways :=
  (congrArg State.gateways h.rest :)
theorem OnlyVoices.timed {s t : State} (h : OnlyVoices s t) : t.timed = s.timed :=
  (congrArg State.timed h.rest :)
theorem OnlyVoices.draws {s t : State} (h : OnlyVoices s t) : t.draws = s.draws :=
  (congrArg State.draws h.rest :)

/-- A lead's record but for its frozen notes. -/
theorem OnlyVoices.lead {s t : State} (h : OnlyVoices s t) (L : Lead) :
    (t.lead L).withoutFrozen = (s.lead L).withoutFrozen := by
  cases L
  · exact (congrArg State.leadA h.rest :)
  · exact (congrArg State.leadB h.rest :)

/-- A lead's record with its frozen notes put back. -/
theorem OnlyVoices.lead_eq {s t : State} (h : OnlyVoices s t) (L : Lead) :
    t.lead L = { s.lead L with frozen := (t.lead L).frozen } := by
  have q := h.lead L
  generalize t.lead L = c at q
  generalize s.lead L = d at q
  cases c; cases d
  simp only [LeadChannel.withoutFrozen, LeadChannel.mk.injEq] at q ⊢
  simp [q]

theorem OnlyVoices.params {s t : State} (h : OnlyVoices s t) (L : Lead) : t.params L = s.params L := by
  unfold State.params
  rw [h.lead_eq L, h.scenes]

theorem OnlyVoices.isLeadSlot {s t : State} (h : OnlyVoices s t) (k : Fin 24) :
    t.isLeadSlot k = s.isLeadSlot k := by
  unfold State.isLeadSlot
  rw [h.config]

theorem OnlyVoices.setVoice (s : State) (v : VoiceId) (x : Voice) : OnlyVoices s (s.setVoice v x) :=
  ⟨rfl, List.prefix_refl _⟩

theorem OnlyVoices.clearFrozen (v : VoiceId) (s : State) : OnlyVoices s (clearFrozen v s) :=
  ⟨rfl, List.prefix_refl _⟩

theorem OnlyVoices.foldl {α : Type} (f : State → α → State) (h : ∀ s a, OnlyVoices s (f s a)) :
    ∀ (l : List α) (s : State), OnlyVoices s (l.foldl f s)
  | [], s => OnlyVoices.refl s
  | a :: l, s => (h s a).trans (OnlyVoices.foldl f h l (f s a))

/-! ### Requests and ends of falls -/

theorem goOff_onlyVoices (v : VoiceId) (s : State) : OnlyVoices s (goOff v s) :=
  (OnlyVoices.setVoice ..).trans (OnlyVoices.clearFrozen ..)

@[simp] theorem goOff_voice (v : VoiceId) (s : State) : (goOff v s).voice v = (s.voice v).goneOff :=
  State.voice_setVoice s v _

theorem goOff_voice_ne (v w : VoiceId) (s : State) (h : v ≠ w) : (goOff v s).voice w = s.voice w :=
  State.voice_setVoice_ne s v w _ h

theorem takePart_onlyVoices (v : VoiceId) (p : Assignment) (s : State) :
    OnlyVoices s (takePart v p s) := by
  unfold takePart
  split
  · exact goOff_onlyVoices v s
  · exact (OnlyVoices.setVoice ..).trans (OnlyVoices.clearFrozen ..)

/-- A voice that takes an assignment takes it, or goes OFF where the slot is a lead input slot (R93). -/
theorem takePart_voice (v : VoiceId) (p : Assignment) (s : State) :
    (takePart v p s).voice v =
      if s.isLeadSlot p.slot then (s.voice v).goneOff else (s.voice v).tookPart p := by
  unfold takePart
  split
  · exact State.voice_setVoice s v _
  · exact State.voice_setVoice s v _

theorem takePart_voice_ne (v w : VoiceId) (p : Assignment) (s : State) (h : v ≠ w) :
    (takePart v p s).voice w = s.voice w := by
  unfold takePart
  split <;> exact State.voice_setVoice_ne s v w _ h

theorem raiseSkipped_onlyFaults (L : Option Lead) (s : State) : OnlyFaults s (raiseSkipped L s) := by
  cases L
  · exact OnlyFaults.refl s
  · exact raise_onlyFaults ..

/-- The end of a fall raises nothing by itself (R98). -/
theorem endFall_onlyVoices (v : VoiceId) (s : State) : OnlyVoices s (endFall v s).1 := by
  have h (x : Voice) : OnlyVoices s (s.setVoice v x) := OnlyVoices.setVoice s v x
  unfold endFall
  simp only
  split
  · exact (h _).trans (OnlyVoices.setVoice ..)
  · exact (h _).trans (goOff_onlyVoices ..)
  · split
    · exact (h _).trans (takePart_onlyVoices ..)
    · exact (h _).trans (OnlyVoices.setVoice ..)
  · split
    · exact (h _).trans (goOff_onlyVoices ..)
    · split
      · exact (h _).trans (takePart_onlyVoices ..)
      · exact (h _).trans (OnlyVoices.setVoice ..)

theorem endFall_voice_ne (v w : VoiceId) (s : State) (h : v ≠ w) :
    (endFall v s).1.voice w = s.voice w := by
  have k (x : Voice) : (s.setVoice v x).voice w = s.voice w := State.voice_setVoice_ne s v w x h
  unfold endFall
  simp only
  split
  · rw [State.setVoice_setVoice]; exact k _
  · rw [goOff_voice_ne _ _ _ h]; exact k _
  · split
    · exact (takePart_voice_ne _ _ _ _ h).trans (k _)
    · rw [State.setVoice_setVoice]; exact k _
  · split
    · rw [goOff_voice_ne _ _ _ h]; exact k _
    · split
      · exact (takePart_voice_ne _ _ _ _ h).trans (k _)
      · rw [State.setVoice_setVoice]; exact k _

theorem endFallNow_onlyVoices (v : VoiceId) (s : State) : OnlyVoices s (endFallNow v s) :=
  (endFall_onlyVoices v s).trans (raiseSkipped_onlyFaults _ _).toVoices

theorem riseVoice_onlyVoices (v : VoiceId) (s : State) : OnlyVoices s (riseVoice v s) := by
  unfold riseVoice
  simp only
  repeat' split
  all_goals first | exact OnlyVoices.refl s | exact OnlyVoices.setVoice ..

theorem riseVoice_voice_ne (v w : VoiceId) (s : State) (h : v ≠ w) :
    (riseVoice v s).voice w = s.voice w := by
  unfold riseVoice
  simp only
  repeat' split
  all_goals first | rfl | exact State.voice_setVoice_ne s v w _ h

/-- Two causes start heads: none starts them but a rise from IDLE, at 320 samples and with no crossfade; a
fall to IDLE is turned round in place (R94). -/
theorem riseVoice_voice (v : VoiceId) (s : State) :
    (riseVoice v s).voice v = s.voice v
      ∨ ((s.voice v).state = .idle ∧ (s.voice v).faults = []
        ∧ (riseVoice v s).voice v =
          { s.voice v with state := .rising, envelope := 0, crossfade := none
                           increment := rampIncrement s (s.voice v).owner
                           distance := Config.startDistance })
      ∨ ((s.voice v).state = .falling ∧ (s.voice v).dest = .idle
        ∧ (riseVoice v s).voice v =
          { s.voice v with
            state := if (s.voice v).envelope = Config.fullEnvelope then .sounding else .rising
            increment := rampIncrement s (s.voice v).owner }) := by
  unfold riseVoice
  simp only
  split
  · rename_i h
    split
    · rename_i q
      refine Or.inr (Or.inl ⟨h, q, ?_⟩)
      rw [State.voice_setVoice]
    · exact Or.inl rfl
  · rename_i h
    split
    · rename_i q
      refine Or.inr (Or.inr ⟨h, q, ?_⟩)
      rw [State.voice_setVoice]
    all_goals exact Or.inl rfl
  all_goals exact Or.inl rfl

theorem startFall_onlyVoices (d : FallDest) (m : Bool) (p : Option Assignment) (v : VoiceId)
    (s : State) : OnlyVoices s (startFall d m p v s) := by
  unfold startFall
  simp only
  split
  · exact (OnlyVoices.setVoice ..).trans (endFallNow_onlyVoices ..)
  · exact OnlyVoices.setVoice ..

theorem fallToIdle_onlyVoices (v : VoiceId) (s : State) : OnlyVoices s (fallToIdle v s) := by
  unfold fallToIdle
  split
  all_goals first | exact OnlyVoices.refl s | exact startFall_onlyVoices ..

theorem releaseVoice_onlyVoices (v : VoiceId) (s : State) : OnlyVoices s (releaseVoice v s) := by
  unfold releaseVoice
  simp only
  split
  all_goals first
    | exact OnlyVoices.refl s | exact startFall_onlyVoices .. | exact goOff_onlyVoices ..
    | (split <;> exact OnlyVoices.setVoice ..)

theorem reassignVoice_onlyVoices (v : VoiceId) (p : Assignment) (s : State) :
    OnlyVoices s (reassignVoice v p s) := by
  unfold reassignVoice
  simp only
  split
  all_goals first
    | exact OnlyVoices.refl s | exact startFall_onlyVoices .. | exact takePart_onlyVoices ..
    | (split <;> exact OnlyVoices.setVoice ..)

theorem assignVoice_onlyVoices (v : VoiceId) (L : Lead) (p : Assignment) (s : State) :
    OnlyVoices s (assignVoice v L p s) := by
  unfold assignVoice
  simp only
  split
  all_goals first
    | exact OnlyVoices.refl s
    | exact (OnlyVoices.setVoice ..).trans (OnlyVoices.clearFrozen ..)

/-! ### Read heads (R101 to R103) -/

theorem Voice.spliceCheck_some (x : Voice) (p : Nat) (c : Crossfade) (h : x.crossfade = some c) :
    x.spliceCheck p = (x, false) := by
  unfold Voice.spliceCheck
  rw [h]

/-- Within the band no splice is made (R102). -/
theorem spliceTarget_within (d : Int) (p : Nat) (h : 2097152 ≤ d) (k : d ≤ 16777216) :
    spliceTarget d p = none := by
  unfold spliceTarget
  simp only
  rw [if_neg (by omega), if_neg (by omega)]

/-- The least whole number not below a quotient. -/
theorem ceilDiv_le (n d : Int) (h : 0 < d) : n ≤ ceilDiv n d * d := by
  unfold ceilDiv
  have := Int.ediv_mul_le (-n) (Int.ne_of_gt h)
  linarith

theorem ceilDiv_lt (n d : Int) (h : 0 < d) : (ceilDiv n d - 1) * d < n := by
  unfold ceilDiv
  have := Int.lt_ediv_add_one_mul_self (-n) h
  linarith

/-- The heads' frame keeps everything but heads and envelope (R101 to R103, R97). -/
theorem Voice.frame_keeps (x : Voice) (h : List Int) (p : Nat) :
    (x.frame h p).1.state = x.state ∧ (x.frame h p).1.owner = x.owner
      ∧ (x.frame h p).1.part = x.part ∧ (x.frame h p).1.pendingPart = x.pendingPart
      ∧ (x.frame h p).1.releaseMark = x.releaseMark ∧ (x.frame h p).1.dest = x.dest
      ∧ (x.frame h p).1.increment = x.increment ∧ (x.frame h p).1.currentStep = x.currentStep
      ∧ (x.frame h p).1.targetStep = x.targetStep ∧ (x.frame h p).1.faults = x.faults := by
  unfold Voice.frame Voice.ramped Voice.crossfadeStep Voice.crossfadeDone Voice.spliceCheck
    Voice.advanced
  simp only
  repeat' split
  all_goals simp_all

theorem endRamp_onlyVoices (v : VoiceId) (s : State) : OnlyVoices s (endRamp v s).1 := by
  unfold endRamp
  simp only
  repeat' split
  all_goals first
    | exact OnlyVoices.refl s | exact endFall_onlyVoices v s | exact OnlyVoices.setVoice ..

/-- The work of one voice raises nothing by itself (R107). -/
theorem voiceWork_onlyVoices (v : VoiceId) (s : State) : OnlyVoices s (voiceWork v s).state := by
  unfold voiceWork
  simp only
  split
  · refine OnlyVoices.trans ?_ (endRamp_onlyVoices v _)
    split
    · exact (OnlyVoices.setVoice ..).trans (countEvent_onlyFaults ..).toVoices
    · exact OnlyVoices.setVoice ..
  · exact OnlyVoices.refl s

theorem voicesWork_onlyVoices : ∀ (vs : List VoiceId) (s : State),
    OnlyVoices s (voicesWork vs s).state
  | [], s => OnlyVoices.refl s
  | v :: vs, s => (voiceWork_onlyVoices v s).trans (voicesWork_onlyVoices vs _)

/-- One sample a voice (R106). -/
theorem voicesWork_length : ∀ (vs : List VoiceId) (s : State),
    (voicesWork vs s).samples.length = vs.length
  | [], _ => rfl
  | _ :: vs, _ => congrArg (· + 1) (voicesWork_length vs _)

end Sys2Proof.Machine
end

