-- ==== Sys2Proof/Laws/Cues.lean ====
section
/-! SUPPORT. What the harmony, scene and cue operations can do: hold, scenes and cues touch the engine and
what an occurrence touches (05, 07); gateways and the timed cue queue (08); one lead's block work (R37). -/

namespace Sys2Proof.Machine

/-! ### Harmony -/

theorem setVoice_riseVoice_onlyVoices (v : VoiceId) (x : Voice) (s : State) :
    OnlyVoices s (riseVoice v (s.setVoice v x)) :=
  (OnlyVoices.setVoice ..).trans (riseVoice_onlyVoices ..)

theorem retargetVoice_onlyVoices (L : Lead) (v : VoiceId) (s : State) :
    OnlyVoices s (retargetVoice L v s) := by
  unfold retargetVoice
  simp only
  repeat' split
  all_goals first
    | exact OnlyVoices.refl s | exact OnlyVoices.setVoice .. | exact fallToIdle_onlyVoices ..
    | exact setVoice_riseVoice_onlyVoices ..

theorem retargetLead_onlyVoices (L : Lead) (s : State) : OnlyVoices s (retargetLead L s) :=
  OnlyVoices.foldl _ (fun s v => by
    split
    · exact retargetVoice_onlyVoices L v s
    · exact OnlyVoices.refl s) allVoices s

theorem trackLead_onlyEngine (L : Lead) (s : State) : OnlyEngine s (trackLead L s) := by
  unfold trackLead
  simp only
  split
  · exact (OnlyEngine.setLead ..).trans (countEvent_onlyFaults ..).engine
  · exact OnlyEngine.setLead ..

theorem decideLead_onlyEngine (L : Lead) (s : State) : OnlyEngine s (decideLead L s) := by
  unfold decideLead
  simp only
  split <;> split
  all_goals first
    | exact (OnlyEngine.setLead ..).trans
        ((countEvent_onlyFaults ..).engine.trans (countEvent_onlyFaults ..).engine)
    | exact (OnlyEngine.setLead ..).trans (countEvent_onlyFaults ..).engine
    | exact OnlyEngine.setLead ..

theorem holdLead_onlyEngine (L : Lead) (s : State) : OnlyEngine s (holdLead L s) := by
  unfold holdLead
  split
  · exact OnlyEngine.refl s
  · exact OnlyEngine.setLead ..

theorem releaseHold_onlyEngine (L : Lead) (s : State) : OnlyEngine s (releaseHold L s) := by
  unfold releaseHold
  split
  · exact OnlyEngine.setLead ..
  · exact OnlyEngine.refl s

/-! ### Scenes -/

theorem reachOwned_onlyVoices (r : Scene) (acc : State × Nat) (v : VoiceId) :
    OnlyVoices acc.1 (reachOwned r acc v).1 := by
  unfold reachOwned
  split
  · exact releaseVoice_onlyVoices ..
  · exact reassignVoice_onlyVoices ..

theorem takeEntry_onlyVoices (L : Lead) (owned : List VoiceId) (acc : State × Nat) (e : SceneEntry) :
    OnlyVoices acc.1 (takeEntry L owned acc e).1 := by
  unfold takeEntry
  split
  · exact OnlyVoices.refl _
  · split
    · exact assignVoice_onlyVoices ..
    · exact OnlyVoices.refl _

theorem reachAll_onlyVoices (r : Scene) : ∀ (vs : List VoiceId) (acc : State × Nat),
    OnlyVoices acc.1 (vs.foldl (reachOwned r) acc).1
  | [], acc => OnlyVoices.refl acc.1
  | v :: vs, acc => (reachOwned_onlyVoices r acc v).trans (reachAll_onlyVoices r vs _)

theorem takeAll_onlyVoices (L : Lead) (owned : List VoiceId) :
    ∀ (es : List SceneEntry) (acc : State × Nat),
      OnlyVoices acc.1 (es.foldl (takeEntry L owned) acc).1
  | [], acc => OnlyVoices.refl acc.1
  | e :: es, acc => (takeEntry_onlyVoices L owned acc e).trans (takeAll_onlyVoices L owned es _)

/-- The three steps of a scene, after the lead's record has taken it (R115 to R118). -/
theorem applySteps_onlyVoices (L : Lead) (n : Fin 32) (s : State) :
    OnlyVoices (s.setLead L ((s.lead L).withScene n s.scenes[n])) (applySteps L n s) := by
  have h := (reachAll_onlyVoices s.scenes[n] (ownedVoices s L)
    (s.setLead L ((s.lead L).withScene n s.scenes[n]), 0)).trans
    (takeAll_onlyVoices L (ownedVoices s L) s.scenes[n].entries _)
  unfold applySteps
  simp only
  split
  · exact h
  · exact h.trans (raise_onlyFaults ..).toVoices

theorem startTransition_onlyEngine (L : Lead) (level : Nat) (k : TransitionKind) (s : State) :
    OnlyEngine s (startTransition L level k s) := OnlyEngine.setLead ..

theorem raiseLevel_onlyEngine (L : Lead) (prio : Nat) (s : State) :
    OnlyEngine s (raiseLevel L prio s) := by
  unfold raiseLevel
  split
  · exact OnlyEngine.setLead ..
  · exact OnlyEngine.refl s

theorem applyScene_onlyEngine (L : Lead) (n : Fin 32) (prio : Nat) (s : State) :
    OnlyEngine s (applyScene L n prio s) :=
  ((OnlyEngine.setLead s L _).trans (applySteps_onlyVoices L n s).engine).trans
    (startTransition_onlyEngine ..)

theorem silenceLead_onlyEngine (L : Lead) (s : State) : OnlyEngine s (silenceLead L s) :=
  (OnlyEngine.setLead ..).trans
    (OnlyVoices.foldl _ (fun s v => fallToIdle_onlyVoices v s) _ _).engine

/-- Everything a cue can touch (R128). -/
theorem applyCue_onlyEngine (L : Lead) (c : Cue) (prio : Nat) (s : State) :
    OnlyEngine s (applyCue L c prio s) := by
  have ignored : OnlyEngine s (raiseLevel L prio (countEvent .stepNoNext s)) :=
    (countEvent_onlyFaults ..).engine.trans (raiseLevel_onlyEngine ..)
  unfold applyCue
  split
  · exact applyScene_onlyEngine ..
  · unfold applyStep
    split
    · split
      · exact applyScene_onlyEngine ..
      · exact ignored
    · exact ignored
  · exact (OnlyEngine.setLead ..).trans (raiseLevel_onlyEngine ..)
  · exact (holdLead_onlyEngine ..).trans (raiseLevel_onlyEngine ..)
  · exact (releaseHold_onlyEngine ..).trans (raiseLevel_onlyEngine ..)
  · exact (silenceLead_onlyEngine ..).trans (startTransition_onlyEngine ..)
  · exact (OnlyEngine.setLead ..).trans (startTransition_onlyEngine ..)

theorem checkCompletion_onlyEngine (L : Lead) (s : State) : OnlyEngine s (checkCompletion L s) := by
  unfold checkCompletion
  split
  · exact OnlyEngine.refl s
  · split
    · exact (OnlyEngine.setLead ..).trans (offerNotice_onlyFaults ..).engine
    · exact OnlyEngine.refl s

/-! ### Gateways and the timed cue queue -/

theorem setPending_onlyEngine (g : Fin 8) (c : Cue) (o : Origin) (s : State) :
    OnlyEngine s (setPending g c o s) := by
  unfold setPending
  simp only
  split
  · split
    · exact (countEvent_onlyFaults ..).engine.trans (OnlyEngine.setGateway ..)
    · exact OnlyEngine.setGateway ..
  · exact OnlyEngine.refl s

/-- A cue set pending in an enabled, empty gateway (R134). -/
theorem setPending_empty (g : Fin 8) (c : Cue) (o : Origin) (s : State)
    (h : (s.gateway g).enabled = true) (k : (s.gateway g).pending = none) :
    setPending g c o s =
      s.setGateway g { s.gateway g with pending := some { cue := c, origin := o } } := by
  simp only [setPending, h, k, if_true]

/-- A cue that replaces one counts it as dropped (R134). -/
theorem setPending_replaces (g : Fin 8) (c d : Cue) (o p : Origin) (s : State)
    (h : (s.gateway g).enabled = true)
    (k : (s.gateway g).pending = some { cue := d, origin := p }) :
    setPending g c o s =
      (countEvent .cueDropped s).setGateway g
        { s.gateway g with pending := some { cue := c, origin := o } } := by
  simp only [setPending, h, k, if_true]

/-- A disabled gateway takes no cue (R134). -/
theorem setPending_disabled (g : Fin 8) (c : Cue) (o : Origin) (s : State)
    (h : (s.gateway g).enabled = false) : setPending g c o s = s := by
  simp [setPending, h]

theorem setPendingOption_onlyEngine (g : Fin 8) (c : Option Cue) (o : Origin) (s : State) :
    OnlyEngine s (setPending? g c o s) := by
  unfold setPending?
  split
  · exact setPending_onlyEngine ..
  · exact OnlyEngine.refl s

/-- The hand-off moves a lead's earliest entry to its timed gateway, or does nothing (R141). -/
theorem handOff_cases (L : Lead) (s : State) :
    handOff L s = s
      ∨ ∃ e, s.timed.find? (fun e => e.lead == L) = some e ∧ e.mark = true
        ∧ (s.gateway (timedGateway L)).enabled = true
        ∧ (s.gateway (timedGateway L)).pending = none
        ∧ handOff L s =
          { s with timed := s.timed.eraseP fun e => e.lead == L }.setGateway (timedGateway L)
            { s.gateway (timedGateway L) with
              pending := some { cue := e.cue, origin := .queue } } := by
  unfold handOff
  split
  · exact Or.inl rfl
  · rename_i e h
    split
    · rename_i k
      refine Or.inr ⟨e, h, k.1, k.2.1, k.2.2, ?_⟩
      exact setPending_empty _ _ _ { s with timed := s.timed.eraseP fun e => e.lead == L } k.2.1 k.2.2
    · exact Or.inl rfl

theorem handOff_onlyEngine (L : Lead) (s : State) : OnlyEngine s (handOff L s) := by
  rcases handOff_cases L s with h | ⟨e, _, _, _, _, h⟩ <;> rw [h]
  · exact OnlyEngine.refl s
  · exact ⟨rfl, List.prefix_refl _⟩

/-- What a new held count touches beside the count: gateways and the timed cue queue (R18, R140, R141). -/
theorem adoptCount_onlyEngine (count : Word32) (s : State) :
    OnlyEngine { s with ltu := { s.ltu with count := count } } (adoptCount count s) := by
  unfold adoptCount
  simp only
  split
  all_goals
    unfold handOffBoth
    refine OnlyEngine.trans ?_ ((handOff_onlyEngine ..).trans (handOff_onlyEngine ..))
    exact ⟨rfl, List.prefix_refl _⟩

/-- After a count is adopted it is the held count (R18). -/
theorem adoptCount_ltu (count : Word32) (s : State) :
    (adoptCount count s).ltu = { s.ltu with count := count } :=
  (adoptCount_onlyEngine count s).ltu

/-! ### Pedals -/

theorem releaseEdge_onlyEngine (g : Fin 8) (s : State) : OnlyEngine s (releaseEdge g s) := by
  have c : OnlyEngine s (countEvent .cueDropped (clearPending g s)) :=
    (OnlyEngine.setGateway ..).trans (countEvent_onlyFaults ..).engine
  unfold releaseEdge
  simp only
  repeat' split
  all_goals first
    | exact OnlyEngine.refl s | exact setPendingOption_onlyEngine ..
    | exact c.trans (countEvent_onlyFaults ..).engine | exact c

theorem pedalEdge_onlyEngine (l : LineId) (level : PedalLevel) (s : State) :
    OnlyEngine s (pedalEdge l level s) := by
  unfold pedalEdge
  simp only
  split
  · exact (OnlyEngine.setPedal ..).trans (setPendingOption_onlyEngine ..)
  · exact (OnlyEngine.setPedal ..).trans (releaseEdge_onlyEngine ..)

theorem debounceLine_onlyEngine (l : LineId) (s : State) : OnlyEngine s (debounceLine l s) := by
  unfold debounceLine
  simp only
  repeat' split
  all_goals first | exact OnlyEngine.setPedal .. | exact pedalEdge_onlyEngine ..

theorem judgeStuck_onlyEngine (l : LineId) (s : State) : OnlyEngine s (judgeStuck l s) := by
  have h : OnlyEngine s (s.setPedal l { s.pedal l with stuckMark := true }) :=
    OnlyEngine.setPedal ..
  unfold judgeStuck
  simp only
  repeat' split
  · exact (h.trans (raise_onlyFaults ..).engine).trans
      ((OnlyEngine.setGateway ..).trans (countEvent_onlyFaults ..).engine)
  · exact (h.trans (raise_onlyFaults ..).engine).trans (OnlyEngine.setGateway ..)
  · exact h.trans (raise_onlyFaults ..).engine
  · exact h

theorem pedalWork_onlyEngine (limit : Nat) (l : LineId) (s : State) :
    OnlyEngine s (pedalWork limit l s) := by
  have h := (debounceLine_onlyEngine l s).trans
    (OnlyEngine.setPedal _ l ((debounceLine l s).pedal l).timed)
  unfold pedalWork
  simp only
  split
  · exact h.trans (judgeStuck_onlyEngine ..)
  · exact h

/-! ### Ports and block work -/

theorem portStep_onlyEngine (L : Lead) (s : State) : OnlyEngine s (portStep L s) := by
  unfold portStep
  split
  · exact OnlyEngine.refl s
  · rename_i g _
    split
    · exact OnlyEngine.refl s
    · rename_i c _
      have h : OnlyEngine s (countEvent .cueApplied
          (applyCue L c.cue (s.gateway g).priority (clearPending g s))) :=
        ((OnlyEngine.setGateway ..).trans (applyCue_onlyEngine ..)).trans
          (countEvent_onlyFaults ..).engine
      simp only
      repeat' split
      · exact (h.trans (countEvent_onlyFaults ..).engine).trans (handOff_onlyEngine ..)
      · exact h.trans (handOff_onlyEngine ..)
      · exact h.trans (countEvent_onlyFaults ..).engine
      · exact h

theorem cueStep_onlyEngine (ls : LinkState) (L : Lead) (s : State) :
    OnlyEngine s (cueStep ls L s) := by
  unfold cueStep
  simp only
  repeat' split
  · exact (OnlyEngine.setLead ..).trans (applyScene_onlyEngine ..)
  · exact (OnlyEngine.setLead ..).trans (portStep_onlyEngine ..)
  · exact portStep_onlyEngine ..

/-- Everything one lead's block work can touch (R37). -/
theorem blockWork_onlyEngine (ls : LinkState) (L : Lead) (s : State) :
    OnlyEngine s (blockWork ls L s) :=
  ((((trackLead_onlyEngine L s).trans (decideLead_onlyEngine L _)).trans
    (cueStep_onlyEngine ls L _)).trans (retargetLead_onlyVoices L _).engine).trans
    (checkCompletion_onlyEngine L _)

end Sys2Proof.Machine
end

