-- ==== Sys2Proof/Laws/Requests.lean ====
section
/-! SUPPORT. What requests can do: acceptance and reply (R175, R176), and the part of the state that no
request touches (R177 to R185). -/

namespace Sys2Proof.Machine

/-! ### Acceptance and reply -/

/-- A reply fills the first reservation (R175). -/
theorem fillReservation_append (m : Message) : ∀ (xs ys : List OutItem), OutItem.reservation ∉ xs →
    fillReservation m (xs ++ .reservation :: ys) = xs ++ .reply m :: ys
  | [], _, _ => rfl
  | .reservation :: _, _, h => absurd (List.mem_cons_self) h
  | .reply n :: xs, ys, h => by
    show OutItem.reply n :: fillReservation m (xs ++ .reservation :: ys) = _
    rw [fillReservation_append m xs ys fun q => h (List.mem_cons_of_mem _ q)]
    rfl
  | .notice n :: xs, ys, h => by
    show OutItem.notice n :: fillReservation m (xs ++ .reservation :: ys) = _
    rw [fillReservation_append m xs ys fun q => h (List.mem_cons_of_mem _ q)]
    rfl

/-- A reply keeps the queue's length and its number of notices (R175). -/
theorem fillReservation_counts (m : Message) : ∀ q : List OutItem,
    (fillReservation m q).length = q.length
      ∧ (fillReservation m q).countP OutItem.isNotice = q.countP OutItem.isNotice
  | [] => ⟨rfl, rfl⟩
  | .reservation :: _ => ⟨rfl, by simp [fillReservation, OutItem.isNotice]⟩
  | .reply _ :: q => by
    have h := fillReservation_counts m q
    simp [fillReservation, OutItem.isNotice, h.1, h.2]
  | .notice _ :: q => by
    have h := fillReservation_counts m q
    simp [fillReservation, List.countP_cons, h.1, h.2]

/-- A broadcast request is counted and executed (R176). -/
theorem takeRequest_broadcast (act : Req → State → Answer) (r : Req) (s : State)
    (h : r.broadcast = true) : takeRequest act r s = (act r (countEvent .accepted s)).state := by
  simp [takeRequest, acceptRequest, finishRequest, h]

/-- A request that finds room is counted, gets its reservation, and is executed and answered (R176). -/
theorem takeRequest_room (act : Req → State → Answer) (r : Req) (s : State)
    (h : r.broadcast = false) (q : s.outq.length < 8) :
    takeRequest act r s =
      finishRequest r (act r (enqueue .reservation (countEvent .accepted s))) := by
  have n : ¬Config.queueSize ≤ (countEvent .accepted s).outq.length := by
    show ¬8 ≤ s.outq.length
    omega
  simp only [takeRequest, acceptRequest, h, Bool.false_eq_true, if_false, if_neg n, if_true]

/-- A request that finds 8 messages is counted and discarded with REQUEST_DROP (R176). -/
theorem takeRequest_full (act : Req → State → Answer) (r : Req) (s : State)
    (h : r.broadcast = false) (q : 8 ≤ s.outq.length) :
    takeRequest act r s = raise .requestDrop .none (countEvent .accepted s) := by
  have n : Config.queueSize ≤ (countEvent .accepted s).outq.length := q
  simp only [takeRequest, acceptRequest, h, Bool.false_eq_true, if_false, if_pos n]

/-- The reply of an answer whose state holds its reservation behind `xs` (R175, R190). -/
theorem finishRequest_reply (r : Req) (a : Answer) (xs ys : List OutItem) (h : r.broadcast = false)
    (n : OutItem.reservation ∉ xs) (q : a.state.outq = xs ++ .reservation :: ys) :
    finishRequest r a =
      { a.state with outq := xs ++ .reply (replyMessage a.state r a.status a.body) :: ys } := by
  simp only [finishRequest, h, Bool.false_eq_true, if_false, q, fillReservation_append _ xs ys n]

/-! ### What no request touches -/

/-- A state without what a request can touch. -/
def State.withoutRequests (s : State) : State :=
  { s.withoutEngine with
    config := ConfigRecord.reset, tuning := State.reset.tuning, maps := State.reset.maps
    scenes := State.reset.scenes, load := none, thresholdA := 0, thresholdB := 0 }

/-- `t` keeps link, lane, address, pins and waiting commands of `s`, and its outbound queue starts as that
of `s`. -/
structure OnlyRequest (s t : State) : Prop where
  rest : t.withoutRequests = s.withoutRequests
  queue : s.outq <+: t.outq

theorem OnlyRequest.refl (s : State) : OnlyRequest s s := ⟨rfl, List.prefix_refl _⟩

theorem OnlyRequest.trans {s t u : State} (h : OnlyRequest s t) (k : OnlyRequest t u) :
    OnlyRequest s u :=
  ⟨k.rest.trans h.rest, h.queue.trans k.queue⟩

theorem OnlyEngine.request {s t : State} (h : OnlyEngine s t) : OnlyRequest s t :=
  ⟨(congrArg State.withoutRequests h.rest :), h.queue⟩

theorem OnlyRequest.pending {s t : State} (h : OnlyRequest s t) : t.pending = s.pending :=
  (congrArg State.pending h.rest :)
theorem OnlyRequest.resetLow {s t : State} (h : OnlyRequest s t) : t.resetLow = s.resetLow :=
  (congrArg State.resetLow h.rest :)
theorem OnlyRequest.nodeAddr {s t : State} (h : OnlyRequest s t) : t.nodeAddr = s.nodeAddr :=
  (congrArg State.nodeAddr h.rest :)
theorem OnlyRequest.pedalPins {s t : State} (h : OnlyRequest s t) : t.pedalPins = s.pedalPins :=
  (congrArg State.pedalPins h.rest :)
theorem OnlyRequest.receiver {s t : State} (h : OnlyRequest s t) : t.receiver = s.receiver :=
  (congrArg State.receiver h.rest :)
theorem OnlyRequest.ltu {s t : State} (h : OnlyRequest s t) : t.ltu = s.ltu :=
  (congrArg State.ltu h.rest :)
theorem OnlyRequest.assembly {s t : State} (h : OnlyRequest s t) : t.assembly = s.assembly :=
  (congrArg State.assembly h.rest :)
theorem OnlyRequest.fifo {s t : State} (h : OnlyRequest s t) : t.fifo = s.fifo :=
  (congrArg State.fifo h.rest :)
theorem OnlyRequest.sender {s t : State} (h : OnlyRequest s t) : t.sender = s.sender :=
  (congrArg State.sender h.rest :)
theorem OnlyRequest.laneOut {s t : State} (h : OnlyRequest s t) : t.laneOut = s.laneOut :=
  (congrArg State.laneOut h.rest :)
theorem OnlyRequest.linkOut {s t : State} (h : OnlyRequest s t) : t.linkOut = s.linkOut :=
  (congrArg State.linkOut h.rest :)

theorem setThreshold_onlyRequest (s : State) (L : Lead) (t : Nat) :
    OnlyRequest s (s.setThreshold L t) := by
  cases L <;> exact ⟨rfl, List.prefix_refl _⟩

theorem engineReset_onlyRequest (s : State) : OnlyRequest s (engineReset s) :=
  ⟨rfl, List.prefix_refl _⟩

/-- Records changed kind by kind touch the Fault Unit alone (R157, R158). -/
theorem mapKinds_onlyFaults (ks : List FaultKind) (f : FaultKind → FaultRecord → FaultRecord)
    (s : State) : OnlyFaults s (mapKinds ks f s) :=
  OnlyFaults.foldl _ (fun s k => OnlyFaults.setFault s k _) ks s

theorem clearKinds_onlyFaults (ks : List FaultKind) (s : State) : OnlyFaults s (clearKinds ks s) :=
  (mapKinds_onlyFaults ks _ s).trans ⟨rfl, List.prefix_refl _⟩

theorem setupKinds_onlyFaults (ks : List FaultKind) (detect report : Bool) (sev : Severity)
    (s : State) : OnlyFaults s (setupKinds ks detect report sev s) := by
  unfold setupKinds
  simp only
  split
  · exact (mapKinds_onlyFaults ..).trans (clearKinds_onlyFaults ..)
  · exact mapKinds_onlyFaults ..

theorem enterTimed_onlyEngine (e : TimedEntry) (late : Bool) (s : State) :
    OnlyEngine s (enterTimed e late s).state := by
  have h : OnlyEngine s
      (handOff e.lead { s with timed := insertEntry s.ltu.count e s.timed }) :=
    OnlyEngine.trans (t := { s with timed := insertEntry s.ltu.count e s.timed })
      ⟨rfl, List.prefix_refl _⟩ (handOff_onlyEngine ..)
  unfold enterTimed
  split
  · exact (raise_onlyFaults ..).engine
  · simp only [answer]
    split
    · exact h.trans (raise_onlyFaults ..).engine
    · exact h

theorem actCueAt_onlyEngine (r : Req) (s : State) : OnlyEngine s (actCueAt r s).state := by
  unfold actCueAt
  simp only
  repeat' split
  all_goals first
    | exact OnlyEngine.refl s | exact enterTimed_onlyEngine ..
    | exact (raise_onlyFaults .cueLate _ s).engine

theorem handOffAfterSet_onlyEngine (g : Fin 8) (s : State) :
    OnlyEngine s (handOffAfterSet g s) := by
  unfold handOffAfterSet
  split
  · exact handOff_onlyEngine ..
  · split
    · exact handOff_onlyEngine ..
    · exact OnlyEngine.refl s

theorem actGatewaySet_onlyEngine (r : Req) (s : State) : OnlyEngine s (actGatewaySet r s).state := by
  unfold actGatewaySet
  split
  · exact OnlyEngine.refl s
  · split
    · split
      · exact OnlyEngine.refl s
      · exact OnlyEngine.setGateway ..
    · exact (OnlyEngine.setGateway ..).trans (handOffAfterSet_onlyEngine ..)

theorem actLoadCommit_onlyRequest (r : Req) (s : State) : OnlyRequest s (actLoadCommit r s).state := by
  unfold actLoadCommit
  split
  · exact OnlyRequest.refl s
  · split
    · exact OnlyRequest.refl s
    · split
      · exact ⟨rfl, List.prefix_refl _⟩
      · rename_i l _ _ _ h
        unfold install at h
        split at h <;> simp only [Option.map_eq_some_iff] at h <;> obtain ⟨_, _, rfl⟩ := h
        all_goals exact ⟨rfl, List.prefix_refl _⟩

/-- Everything a request of any kind can touch (R177 to R185). -/
theorem actOf_onlyRequest (k : ReqKind) (r : Req) (s : State) : OnlyRequest s (actOf k r s).state := by
  cases k
  case loadCommit => exact actLoadCommit_onlyRequest r s
  case cueAt => exact (actCueAt_onlyEngine r s).request
  case gatewaySet => exact (actGatewaySet_onlyEngine r s).request
  case engineReset => exact engineReset_onlyRequest s
  case faultClear =>
    show OnlyRequest s (actFaultClear r s).state
    unfold actFaultClear
    split
    · exact (clearKinds_onlyFaults ..).engine.request
    · exact OnlyRequest.refl s
  case faultSetup =>
    show OnlyRequest s (actFaultSetup r s).state
    unfold actFaultSetup
    split
    · exact OnlyRequest.refl s
    · simp only
      split
      · exact (setupKinds_onlyFaults ..).engine.request
      · exact (setupKinds_onlyFaults ..).engine.request
      · exact OnlyRequest.refl s
  case portSet =>
    show OnlyRequest s (actPortSet r s).state
    unfold actPortSet
    split
    · exact setThreshold_onlyRequest ..
    · exact OnlyRequest.refl s
  case cueNow =>
    show OnlyRequest s (actCueNow r s).state
    unfold actCueNow
    repeat' split
    all_goals first
      | exact OnlyRequest.refl s | exact (setPending_onlyEngine ..).request
  case configure =>
    show OnlyRequest s (actConfigure r s).state
    unfold actConfigure
    repeat' split
    all_goals first | exact OnlyRequest.refl s | exact ⟨rfl, List.prefix_refl _⟩
  case cueFlush =>
    show OnlyRequest s (actCueFlush r s).state
    unfold actCueFlush
    split
    · exact ⟨rfl, List.prefix_refl _⟩
    · exact OnlyRequest.refl s
  case counterSetup =>
    show OnlyRequest s (actCounterSetup r s).state
    unfold actCounterSetup
    split
    · exact OnlyRequest.refl s
    · exact ⟨rfl, List.prefix_refl _⟩
  case readCap =>
    show OnlyRequest s (actReadCap r s).state
    unfold actReadCap
    simp only
    split <;> exact OnlyRequest.refl s
  case readTable =>
    show OnlyRequest s (actReadTable r s).state
    unfold actReadTable
    simp only
    repeat' split
    all_goals exact OnlyRequest.refl s
  case loadBegin =>
    show OnlyRequest s (actLoadBegin r s).state
    unfold actLoadBegin
    repeat' split
    all_goals first | exact OnlyRequest.refl s | exact ⟨rfl, List.prefix_refl _⟩
  case loadData =>
    show OnlyRequest s (actLoadData r s).state
    unfold actLoadData
    repeat' split
    all_goals first | exact OnlyRequest.refl s | exact ⟨rfl, List.prefix_refl _⟩
  case loadAbort =>
    show OnlyRequest s (actLoadAbort r s).state
    unfold actLoadAbort
    split
    · exact OnlyRequest.refl s
    · exact ⟨rfl, List.prefix_refl _⟩
  all_goals exact OnlyRequest.refl s

/-- Everything a message executed as a request can touch (R176). -/
theorem executeKind_onlyRequest (kind : Byte) (r : Req) (s : State) :
    OnlyRequest s (executeKind kind r s).state := by
  unfold executeKind
  split
  · exact OnlyRequest.refl s
  · unfold checked
    split
    · exact actOf_onlyRequest ..
    · exact OnlyRequest.refl s

/-- A reply, if one is formed, touches the outbound queue alone (R175). -/
theorem finishRequest_rest (r : Req) (a : Answer) :
    finishRequest r a = { a.state with outq := (finishRequest r a).outq } := by
  unfold finishRequest
  split <;> rfl

end Sys2Proof.Machine
end

