-- ==== Sys2Proof/Laws/Lane.lean ====
section
/-! SUPPORT. What the lane operations and the order of a frame's work can do: the lane the device writes
reads back (R186), the pieces of a message, the out lane (R172, R173); and one induction each for the
tasks and the voices of a frame in their drawn orders, so that an invariant needs only their parts. -/

namespace Sys2Proof.Machine

/-! ### Lane frames (R172, R186) -/

/-- A lane frame the device writes has eight bytes (R186). -/
theorem encodeLane_length (kind : Nat) (bytes : List Byte) (h : bytes.length ≤ 7) :
    (encodeLane kind bytes).length = 8 := by
  simp [encodeLane]
  omega

/-- A lane frame the device writes reads back as its kind and bytes (R186). -/
theorem decodeLane_encodeLane (bytes : List Byte) (h : 1 ≤ bytes.length) (n : bytes.length ≤ 7) :
    decodeLane (encodeLane 1 bytes) = .start bytes ∧ decodeLane (encodeLane 2 bytes) = .more bytes
      ∧ decodeLane (encodeLane 3 bytes) = .last bytes := by
  have marker (k : Nat) (q : k ≤ 3) : (byte1 (k * 16 + bytes.length)).toNat = k * 16 + bytes.length := by
    simp only [byte1, BitVec.toNat_ofNat]
    omega
  have first (k : Nat) : byteAt (encodeLane k bytes) 0 = byte1 (k * 16 + bytes.length) := rfl
  have rest (k : Nat) : ((encodeLane k bytes).drop 1).take bytes.length = bytes := by
    simp [encodeLane]
  refine ⟨?_, ?_, ?_⟩ <;>
    (simp only [decodeLane, first]; rw [marker _ (by omega)])
  · rw [show (1 * 16 + bytes.length) / 16 = 1 by omega,
      show (1 * 16 + bytes.length) % 16 = bytes.length by omega, if_pos ⟨h, n⟩, rest]
    rfl
  · rw [show (2 * 16 + bytes.length) / 16 = 2 by omega,
      show (2 * 16 + bytes.length) % 16 = bytes.length by omega, if_pos ⟨h, n⟩, rest]
    rfl
  · rw [show (3 * 16 + bytes.length) / 16 = 3 by omega,
      show (3 * 16 + bytes.length) % 16 = bytes.length by omega, if_pos ⟨h, n⟩, rest]
    rfl

/-- A piece fills one lane frame, and the bytes sent grow (R172). -/
theorem nextPiece_length (bytes : List Byte) (sent : Nat) (h : 1 ≤ bytes.length) :
    (nextPiece bytes sent).1.length = 8 ∧ ∀ k, (nextPiece bytes sent).2 = some k →
      k ≤ bytes.length := by
  unfold nextPiece
  split
  · refine ⟨encodeLane_length _ _ (by simp), ?_⟩
    intro k q
    have q : min 7 (bytes.length - 1) = k := Option.some.inj q
    omega
  · split
    · refine ⟨encodeLane_length _ _ (by simp), ?_⟩
      intro k q
      have q : sent + 7 = k := Option.some.inj q
      omega
    · refine ⟨encodeLane_length _ _ (by simp; omega), ?_⟩
      intro k q
      exact absurd q (by simp)

/-- A message of this device has at least seven bytes and is well formed in its length (R166). -/
theorem messageBytes_length (m : Message) : (messageBytes m).length = 7 + m.body.length := by
  simp [messageBytes, checkBytes, bytes2]
  omega

/-! ### Assembly (R168) -/

/-- A lane frame at the assembly buffer touches buffer, sender and FIFO alone; the FIFO only grows, by one
message, and a cut-through is the only sender that can end (R168 to R171). -/
theorem assemble_rest (lane : LaneIn) (s : State) :
    (assemble lane s).state =
        { s with assembly := (assemble lane s).state.assembly
                 sender := (assemble lane s).state.sender
                 fifo := (assemble lane s).state.fifo }
      ∧ s.fifo <+: (assemble lane s).state.fifo
      ∧ ((assemble lane s).state.sender = s.sender
        ∨ (s.sender = .cut ∧ (assemble lane s).state.sender = .none)) := by
  have drop : (abandon s).sender = s.sender ∨ (s.sender = .cut ∧ (abandon s).sender = .none) := by
    unfold abandon
    cases s.sender <;> simp
  have append (bytes : List Byte) (last : Bool) :
      (appendBytes bytes last s).state =
          { s with assembly := (appendBytes bytes last s).state.assembly
                   sender := (appendBytes bytes last s).state.sender
                   fifo := (appendBytes bytes last s).state.fifo }
        ∧ s.fifo <+: (appendBytes bytes last s).state.fifo
        ∧ ((appendBytes bytes last s).state.sender = s.sender
          ∨ (s.sender = .cut ∧ (appendBytes bytes last s).state.sender = .none)) := by
    unfold appendBytes
    split
    · exact ⟨rfl, List.prefix_refl _, Or.inl rfl⟩
    · simp only
      split
      · exact ⟨rfl, List.prefix_refl _, drop⟩
      · split
        · unfold judgeMessage
          simp only
          split
          · split
            · exact ⟨rfl, List.prefix_append _ _, Or.inl rfl⟩
            · exact ⟨rfl, List.prefix_refl _, Or.inl rfl⟩
          · exact ⟨rfl, List.prefix_refl _, Or.inl rfl⟩
        · exact ⟨rfl, List.prefix_refl _, Or.inl rfl⟩
  unfold assemble
  split
  · simp only
    unfold gapFrame
    split
    · exact ⟨rfl, List.prefix_refl _, Or.inl rfl⟩
    · split
      · exact ⟨rfl, List.prefix_refl _, drop⟩
      · exact ⟨rfl, List.prefix_refl _, Or.inl rfl⟩
  · split
    · exact ⟨rfl, List.prefix_refl _, Or.inl rfl⟩
    · exact ⟨rfl, List.prefix_refl _, drop⟩
  · exact append _ _
  · exact append _ _

/-! ### The out lane (R172 to R175) -/

@[simp] theorem LaneSent.quiet_state (s : State) : (LaneSent.quiet s).state = s := rfl
@[simp] theorem LaneSent.quiet_relayed (s : State) : (LaneSent.quiet s).relayed = false := rfl
@[simp] theorem LaneSent.quiet_counted (s : State) : (LaneSent.quiet s).counted = s := rfl

/-- Counting a relayed message touches the counters alone (R162). -/
theorem LaneSent.counted_onlyFaults (r : LaneSent) : OnlyFaults r.state r.counted := by
  unfold LaneSent.counted
  split
  · exact countEvent_onlyFaults ..
  · exact OnlyFaults.refl _

/-- Everything a frame of the out lane touches: lane bytes, sender, FIFO and outbound queue; the two lists lose
their heads at most, and a message is relayed only by a frame that frees the lane. -/
structure LaneStep (s : State) (r : LaneSent) : Prop where
  rest : r.state = { s with laneOut := r.state.laneOut, sender := r.state.sender
                            fifo := r.state.fifo, outq := r.state.outq }
  fifo : r.state.fifo = s.fifo ∨ (r.relayed = true ∧ ∃ m, s.fifo = m :: r.state.fifo)
  outq : r.state.outq = s.outq ∨ (r.relayed = false ∧ ∃ x, s.outq = x :: r.state.outq)
  free : r.relayed = true → r.state.sender = .none

/-- Such a frame that leaves both lists. -/
theorem LaneStep.kept (s : State) (lane : List Byte) (x : Sender) :
    LaneStep s (.quiet { s with laneOut := lane, sender := x }) :=
  ⟨rfl, Or.inl rfl, Or.inl rfl, nofun⟩

theorem sendFifo_step (sent : Nat) (s : State) : LaneStep s (sendFifo sent s) := by
  unfold sendFifo
  split
  · exact .kept ..
  · rename_i m rest e
    simp only
    split
    · exact .kept ..
    · exact ⟨rfl, Or.inr ⟨rfl, m, e⟩, Or.inl rfl, fun _ => rfl⟩

theorem sendQueue_step (sent : Nat) (s : State) : LaneStep s (.quiet (sendQueue sent s)) := by
  unfold sendQueue
  split
  · exact .kept ..
  · rename_i m rest e
    split
    · exact .kept ..
    · simp only
      split
      · exact .kept ..
      · exact ⟨rfl, Or.inl rfl, Or.inr ⟨rfl, m, e⟩, nofun⟩

theorem copyLane_step (lane : LaneIn) (raw : List Byte) (s : State) :
    LaneStep s (copyLane lane raw s) := by
  cases lane
  · exact .kept s _ s.sender
  · exact .kept ..
  · exact .kept s _ s.sender
  · exact ⟨rfl, Or.inl rfl, Or.inl rfl, fun _ => rfl⟩

/-- The out lane of any good frame is such a frame (R172). -/
theorem sendLane_step (lane : LaneIn) (raw : List Byte) (wasCut : Bool) (s : State) :
    LaneStep s (sendLane lane raw wasCut s) := by
  have free : LaneStep s (giveFreeLane s) := by
    unfold giveFreeLane
    split
    · exact sendQueue_step ..
    · exact sendFifo_step ..
  have go (starts : Bool) : LaneStep s
      (if starts then copyLane lane raw s
      else if wasCut then
        if s.sender = .cut then copyLane lane raw s else .quiet { s with laneOut := idleLane }
      else
        match s.sender with
        | .fifo k => sendFifo k s
        | .queue k => .quiet (sendQueue k s)
        | .none => giveFreeLane s
        | .cut => .quiet { s with laneOut := idleLane }) := by
    repeat' split
    · exact copyLane_step ..
    · exact copyLane_step ..
    · exact .kept s _ s.sender
    · exact sendFifo_step ..
    · exact sendQueue_step ..
    · exact free
    · exact .kept s _ s.sender
  exact go _

/-! ### The order of a frame's work -/

/-- What every task of a list and every draw keeps, the list taken in any drawn order keeps (R185). -/
theorem runTasks_keeps (P : State → Prop) (ls : LinkState) (draw : ∀ s, P s → P s.drawn) :
    ∀ (fuel : Nat) (ts : List Task) (s : State), (∀ t ∈ ts, ∀ s, P s → P (runTask ls t s)) → P s →
      P (runTasks ls fuel ts s)
  | 0, _, _, _, h => h
  | fuel + 1, [], _, _, h => h
  | fuel + 1, [t], s, k, h => k t List.mem_cons_self s h
  | fuel + 1, t :: t' :: rest, s, k, h => by
    have m : (t :: t' :: rest).getD (s.nextOrder (t :: t' :: rest).length) t ∈ t :: t' :: rest := by
      rw [List.getD_eq_getElem?_getD]
      cases q : (t :: t' :: rest)[s.nextOrder (t :: t' :: rest).length]?
      · exact List.mem_cons_self
      · exact List.mem_of_getElem? q
    refine runTasks_keeps P ls draw fuel _ _ (fun u q => k u ?_) (k _ m _ (draw s h))
    exact List.mem_of_mem_eraseIdx q

/-- What the tasks at hand and every draw keep, some of the tasks taken keep; what is left was at hand
(R91, R159). -/
theorem takeSome_keeps (P : State → Prop) (ls : LinkState) (draw : ∀ s, P s → P s.drawn) :
    ∀ (fuel : Nat) (p : Pass), (∀ t ∈ p.late, ∀ s, P s → P (runTask ls t s)) → P p.state →
      P (takeSome ls fuel p).state ∧ ∀ t ∈ (takeSome ls fuel p).late, t ∈ p.late
  | 0, _, _, h => ⟨h, fun _ m => m⟩
  | fuel + 1, p, k, h => by
    unfold takeSome
    split
    · exact ⟨h, fun _ m => m⟩
    · rename_i t rest e
      simp only
      split
      · rename_i lt
        have m : (t :: rest).getD (p.state.nextOrder (rest.length + 2)) t ∈ t :: rest := by
          rw [List.getD_eq_getElem?_getD, List.getElem?_eq_getElem (by simp; omega)]
          exact List.getElem_mem _
        have r := takeSome_keeps P ls draw fuel
          { state := runTask ls ((t :: rest).getD (p.state.nextOrder (rest.length + 2)) t) p.state.drawn
            late := (t :: rest).eraseIdx (p.state.nextOrder (rest.length + 2)) }
          (fun u q => k u (e ▸ List.mem_of_mem_eraseIdx q)) (k _ (e ▸ m) _ (draw _ h))
        exact ⟨r.1, fun u q => e ▸ List.mem_of_mem_eraseIdx (r.2 u q)⟩
      · exact ⟨draw _ h, fun _ m => m⟩

/-- What the tasks at hand, each voice's work, its ENTRY_SKIPPED and every draw keep, the voices' work in
any order keeps; what is left was at hand or is such an ENTRY_SKIPPED; and there is one sample a voice
(R91, R107). -/
theorem voicesDrawn_keeps (P : State → Prop) (ls : LinkState) (draw : ∀ s, P s → P s.drawn)
    (work : ∀ v s, P s → P (voiceWork v s).state)
    (skip : ∀ L s, P s → P (raise .entrySkipped (.lead L) s)) :
    ∀ (fuel : Nat) (vs : List VoiceId) (ys : List Int) (p : Pass),
      (∀ t ∈ p.late, ∀ s, P s → P (runTask ls t s)) → P p.state →
      P (voicesDrawn ls fuel vs ys p).1.state
        ∧ (∀ t ∈ (voicesDrawn ls fuel vs ys p).1.late,
          t ∈ p.late ∨ ∃ L, t = .occurrence .entrySkipped (.lead L))
        ∧ (voicesDrawn ls fuel vs ys p).2.length = ys.length
  | 0, _, _, _, _, h => ⟨h, fun _ m => Or.inl m, rfl⟩
  | fuel + 1, [], _, _, _, h => ⟨h, fun _ m => Or.inl m, rfl⟩
  | fuel + 1, v :: rest, ys, p, k, h => by
    unfold voicesDrawn
    simp only
    have hq := takeSome_keeps P ls draw p.late.length p k h
    generalize takeSome ls p.late.length p = q at hq ⊢
    generalize (v :: rest).getD (q.state.nextOrder (v :: rest).length) v = w
    have late : ∀ t ∈ q.late ++ ((voiceWork w q.state.drawn).skipped.toList.map fun L =>
        Task.occurrence .entrySkipped (.lead L)),
        t ∈ p.late ∨ ∃ L, t = .occurrence .entrySkipped (.lead L) := by
      intro t m
      rcases List.mem_append.1 m with m | m
      · exact Or.inl (hq.2 t m)
      · obtain ⟨L, _, rfl⟩ := List.mem_map.1 m
        exact Or.inr ⟨L, rfl⟩
    have r := voicesDrawn_keeps P ls draw work skip fuel
      ((v :: rest).eraseIdx (q.state.nextOrder (v :: rest).length))
      (ys.set w.val (voiceWork w q.state.drawn).sample)
      (Pass.add { q with state := (voiceWork w q.state.drawn).state }
        ((voiceWork w q.state.drawn).skipped.toList.map fun L => .occurrence .entrySkipped (.lead L)))
      (fun t m => by
        rcases late t m with m | ⟨L, rfl⟩
        · exact k t m
        · exact skip L)
      (work w _ (draw _ hq.1))
    refine ⟨r.1, fun t m => ?_, by rw [r.2.2, List.length_set]⟩
    rcases r.2.1 t m with m | m
    · exact late t m
    · exact Or.inr m

/-- The voices' work of a frame, in order or drawn: what it keeps, what it leaves, eight samples (R107). -/
theorem voicesFrame_keeps (P : State → Prop) (ls : LinkState) (draw : ∀ s, P s → P s.drawn)
    (work : ∀ v s, P s → P (voiceWork v s).state)
    (skip : ∀ L s, P s → P (raise .entrySkipped (.lead L) s)) (p : Pass)
    (late : ∀ t ∈ p.late, ∀ s, P s → P (runTask ls t s)) (h : P p.state) :
    P (voicesFrame ls p).1.state
      ∧ (∀ t ∈ (voicesFrame ls p).1.late,
        t ∈ p.late ∨ ∃ L, t = .occurrence .entrySkipped (.lead L))
      ∧ (voicesFrame ls p).2.length = 8 := by
  have go : ∀ (vs : List VoiceId) (s : State), P s → P (voicesWork vs s).state := by
    intro vs
    induction vs with
    | nil => exact fun _ q => q
    | cons v vs ih => exact fun s q => ih _ (work v s q)
  have hq := And.intro (go allVoices p.state h) (voicesWork_length allVoices p.state)
  unfold voicesFrame
  simp only
  generalize voicesWork allVoices p.state = q at hq ⊢
  split
  · exact ⟨hq.1, fun _ m => Or.inl m, hq.2⟩
  · have r := voicesDrawn_keeps P ls draw work skip 8 allVoices (List.replicate 8 0) p late h
    exact ⟨r.1, r.2.1, r.2.2.trans List.length_replicate⟩

/-- What the lines' work, the tasks left and every draw keep, the end of a frame keeps (R185). -/
theorem finishFrame_keeps (P : State → Prop) (ls : LinkState) (limit : Nat)
    (draw : ∀ s, P s → P s.drawn) (work : ∀ l s, P s → P (pedalWork limit l s))
    (lines : List LineId) (p : Pass) (late : ∀ t ∈ p.late, ∀ s, P s → P (runTask ls t s))
    (h : P p.state) : P (finishFrame ls limit lines p) := by
  unfold finishFrame
  simp only
  split
  · have go : ∀ (lines : List LineId) (s : State), P s →
        P (lines.foldl (fun s l => pedalWork limit l s) s) := by
      intro lines
      induction lines with
      | nil => exact fun _ q => q
      | cons l lines ih => exact fun s q => ih _ (work l s q)
    exact go lines _ h
  · refine runTasks_keeps P ls draw _ _ _ (fun t m => ?_) h
    rcases List.mem_append.1 m with q | q
    · exact late t q
    · obtain ⟨l, _, rfl⟩ := List.mem_map.1 q
      exact work l

/-- A task that may be taken among the voices: an occurrence, a relayed message's event or a pedal line. -/
def Task.early : Task → Prop
  | .occurrence _ _ => True
  | .relayed => True
  | .pedal _ _ => True
  | .request _ _ => False
  | .block _ => False

/-- Such a task touches the engine alone. -/
theorem Task.early_onlyEngine (ls : LinkState) (t : Task) (h : t.early) (s : State) :
    OnlyEngine s (runTask ls t s) := by
  cases t
  · exact (raise_onlyFaults ..).engine
  · exact (countEvent_onlyFaults ..).engine
  · exact pedalWork_onlyEngine ..
  · exact h.elim
  · exact h.elim

/-- The occurrences and lines of a frame that stand before its audio are early tasks. -/
theorem occurrences_early (ks : List FaultKind) : ∀ t ∈ occurrences ks, t.early := by
  intro t m
  obtain ⟨k, _, rfl⟩ := List.mem_map.1 m
  trivial

theorem raisingLines_early (limit : Nat) (s : State) : ∀ t ∈ raisingLines limit s, t.early := by
  intro t m
  obtain ⟨l, _, rfl⟩ := List.mem_map.1 m
  trivial

/-- Samples appended touch the leads' histories alone (R35). -/
theorem appendSamples_onlyEngine (xa xb : Int) (s : State) : OnlyEngine s (appendSamples xa xb s) :=
  ⟨rfl, List.prefix_refl _⟩

/-- Some early tasks taken touch the engine alone. -/
theorem takeSome_onlyEngine (ls : LinkState) (fuel : Nat) (p : Pass) (early : ∀ t ∈ p.late, t.early) :
    OnlyEngine p.state (takeSome ls fuel p).state
      ∧ ∀ t ∈ (takeSome ls fuel p).late, t.early := by
  have h := takeSome_keeps (OnlyEngine p.state) ls (fun t h => h.trans (OnlyEngine.drawn t)) fuel p
    (fun t m _ h => h.trans (t.early_onlyEngine ls (early t m) _)) (OnlyEngine.refl _)
  exact ⟨h.1, fun t m => early t (h.2 t m)⟩

/-- Everything the audio of a frame can touch, behind early tasks; what is left are early tasks (R9, steps
3 to 5). -/
theorem audioFrame_onlyEngine (ls : LinkState) (xa xb : Int) (p : Pass)
    (early : ∀ t ∈ p.late, t.early) :
    OnlyEngine p.state (audioFrame ls xa xb p).pass.state
      ∧ (∀ t ∈ (audioFrame ls xa xb p).pass.late, t.early)
      ∧ (audioFrame ls xa xb p).samples.length = 8 := by
  have h := voicesFrame_keeps (OnlyEngine p.state) ls (fun t h => h.trans (OnlyEngine.drawn t))
    (fun v _ h => h.trans (voiceWork_onlyVoices v _).engine)
    (fun L _ h => h.trans (raise_onlyFaults _ (.lead L) _).engine)
    { p with state := appendSamples xa xb p.state }
    (fun t m _ h => h.trans (t.early_onlyEngine ls (early t m) _))
    (appendSamples_onlyEngine xa xb p.state)
  refine ⟨h.1, fun t m => ?_, h.2.2⟩
  rcases List.mem_append.1 m with m | m
  · rcases h.2.1 t m with m | ⟨L, rfl⟩
    · exact early t m
    · trivial
  · unfold clipTask at m
    split at m
    · cases m
    · split at m
      · cases List.mem_singleton.1 m
        trivial
      · cases m

/-! ### The outgoing frame (R12, R13) -/

/-- A check is two bytes that give it back (R2). -/
theorem checkBytes_injective (c d : Word16) (h : checkBytes c = checkBytes d) : c = d := by
  have q : (byte1 (c.toNat / 256)).toNat = (byte1 (d.toNat / 256)).toNat
      ∧ (byte1 c.toNat).toNat = (byte1 d.toNat).toNat := by
    simp only [checkBytes, bytes2, List.cons.injEq, and_true] at h
    exact ⟨congrArg BitVec.toNat h.1, congrArg BitVec.toNat h.2⟩
  simp only [byte1, BitVec.toNat_ofNat] at q
  have hc := c.isLt
  have hd := d.isLt
  exact BitVec.eq_of_toNat_eq (by omega)

theorem checkBytes_length (c : Word16) : (checkBytes c).length = 2 := rfl

/-- A poisoned check is never the correct one (R13). -/
theorem poisoned_ne (c : Word16) : poisoned c ≠ c := by
  intro h
  have q := congrArg (fun w : Word16 => w.getLsbD 0) h
  simp [poisoned] at q

/-- A frame built with its correct check is good (R3, R12). -/
theorem outFrame_good (body : List Byte) (h : body.length = 86) :
    frameGood (outFrame true body) = true := by
  have part : checkedPart (outFrame true body) = body.drop 2 := by
    unfold checkedPart outFrame
    rw [List.drop_append_of_le_length (by omega),
      List.take_append_of_le_length (by simp [h]), List.take_of_length_le (by simp [h])]
  have tail : (outFrame true body).drop 86 = checkBytes (crc (body.drop 2)) := by
    simp [outFrame, ← h]
  simp [frameGood, part, tail]

/-- A frame built with a poisoned check is bad, and its check is the inverse of the correct one (R3,
R13). -/
theorem outFrame_bad (body : List Byte) (h : body.length = 86) :
    frameGood (outFrame false body) = false
      ∧ (outFrame false body).drop 86 = checkBytes (~~~(crc (checkedPart (outFrame false body)))) := by
  have part : checkedPart (outFrame false body) = body.drop 2 := by
    unfold checkedPart outFrame
    rw [List.drop_append_of_le_length (by omega),
      List.take_append_of_le_length (by simp [h]), List.take_of_length_le (by simp [h])]
  have tail : (outFrame false body).drop 86 = checkBytes (poisoned (crc (body.drop 2))) := by
    simp [outFrame, ← h]
  refine ⟨?_, by rw [part, tail]; rfl⟩
  have n : checkBytes (crc (body.drop 2)) ≠ checkBytes (poisoned (crc (body.drop 2))) :=
    fun e => poisoned_ne _ (checkBytes_injective _ _ e).symm
  simp [frameGood, part, tail, n]

end Sys2Proof.Machine
end

