-- ==== Sys2Proof/Laws/PerInstr.lean ====
section
/-! SUPPORT. The per-command law of the request kinds: a well-formed command that a message spells is the
command its kind byte and body name (R187). -/

namespace Sys2Proof.Laws.RequestKind

/-- A well-formed request command is the one its own message names; a row that is no request has no message
(R187). -/
def Statement (i : Instr) : Prop :=
  ∀ (kind : Byte) (r : Req), WellFormed i = true → messageOf i = some (kind, r) →
    commandOf kind r = i

/-- A row that is no request has no message. -/
theorem of_event {i : Instr} (h : messageOf i = none) : Statement i := fun _ _ _ m => by
  rw [h] at m; cases m

/-- A row whose message names it. -/
theorem of_message {i : Instr} {k : Byte} {q : Req} (h : messageOf i = some (k, q))
    (c : commandOf k q = i) : Statement i := fun _ _ _ m => by
  rw [h] at m; cases m; exact c

theorem powerOnReset (straps : BitVec 6) : Statement (.powerOnReset straps) := of_event rfl
theorem frameStart : Statement .frameStart := of_event rfl
theorem frameArrival (bytes : List Byte) (pins : PedalPins) : Statement (.frameArrival bytes pins) := of_event rfl
theorem lockAchieved : Statement .lockAchieved := of_event rfl
theorem lossByBadFrames : Statement .lossByBadFrames := of_event rfl
theorem lossBySilence (pins : PedalPins) : Statement (.lossBySilence pins) := of_event rfl
theorem phantomFrame (pins : PedalPins) : Statement (.phantomFrame pins) := of_event rfl
theorem crossfadeEnd (v : VoiceId) : Statement (.crossfadeEnd v) := of_event rfl
theorem riseEnd (v : VoiceId) : Statement (.riseEnd v) := of_event rfl
theorem fallEnd (v : VoiceId) : Statement (.fallEnd v) := of_event rfl
theorem pedalEdge (l : LineId) : Statement (.pedalEdge l) := of_event rfl
theorem pedalStuckJudgement (l : LineId) : Statement (.pedalStuckJudgement l) := of_event rfl
theorem timedCueDue (k : Fin 16) : Statement (.timedCueDue k) := of_event rfl
theorem timedHandoff (L : Lead) : Statement (.timedHandoff L) := of_event rfl
theorem blockEnd : Statement .blockEnd := of_event rfl
theorem gapLimit : Statement .gapLimit := of_event rfl
theorem fifoSend : Statement .fifoSend := of_event rfl
theorem queueSend : Statement .queueSend := of_event rfl
/-- A kind byte that names no request stays unknown (R176). -/
theorem unknownRequest (kind : Byte) (r : Req) : Statement (.unknownRequest kind r) := fun k q w m => by
  obtain ⟨rfl, rfl⟩ : kind = k ∧ r = q := by simpa [messageOf] using m
  have n : kindOfByte kind = none := by
    simp only [WellFormed, Bool.and_eq_true, beq_iff_eq] at w
    exact w.1
  simp [commandOf, n]
theorem identify (r : Req) : Statement (.identify r) := of_message rfl rfl
theorem readCap (r : Req) : Statement (.readCap r) := of_message rfl rfl
theorem configure (r : Req) : Statement (.configure r) := of_message rfl rfl
theorem readConfig (r : Req) : Statement (.readConfig r) := of_message rfl rfl
theorem loadBegin (r : Req) : Statement (.loadBegin r) := of_message rfl rfl
theorem loadData (r : Req) : Statement (.loadData r) := of_message rfl rfl
theorem loadCommit (r : Req) : Statement (.loadCommit r) := of_message rfl rfl
theorem loadAbort (r : Req) : Statement (.loadAbort r) := of_message rfl rfl
theorem readTable (r : Req) : Statement (.readTable r) := of_message rfl rfl
theorem cueNow (r : Req) : Statement (.cueNow r) := of_message rfl rfl
theorem cueAt (r : Req) : Statement (.cueAt r) := of_message rfl rfl
theorem cueFlush (r : Req) : Statement (.cueFlush r) := of_message rfl rfl
theorem gatewaySet (r : Req) : Statement (.gatewaySet r) := of_message rfl rfl
theorem portSet (r : Req) : Statement (.portSet r) := of_message rfl rfl
theorem readState (r : Req) : Statement (.readState r) := of_message rfl rfl
theorem readFaults (r : Req) : Statement (.readFaults r) := of_message rfl rfl
theorem faultClear (r : Req) : Statement (.faultClear r) := of_message rfl rfl
theorem faultSetup (r : Req) : Statement (.faultSetup r) := of_message rfl rfl
theorem counterSetup (r : Req) : Statement (.counterSetup r) := of_message rfl rfl
theorem readCounters (r : Req) : Statement (.readCounters r) := of_message rfl rfl
theorem engineReset (r : Req) : Statement (.engineReset r) := of_message rfl rfl
theorem resetNHeldLow : Statement .resetNHeldLow := of_event rfl
theorem syncSearch : Statement .syncSearch := of_event rfl

end Sys2Proof.Laws.RequestKind
end

