-- ==== Sys2Proof/Tests/Slice0.lean ====
section
/-! SUPPORT. The model's own tests: ill-formed commands refused, values worked out in the manual, one step of
each kind on a small state, and for every statement with hypotheses a state and operands that meet them. -/

namespace Sys2Proof.Tests

open Sys2Proof.Machine Sys2Proof.Safety

/-! ### Helpers -/

/-- A small state in lock: node 12 at held count 1,000, with empty histories. -/
def small : State :=
  { State.reset with
    nodeAddr := 12
    ltu := { link := .locked, count := 1000, tick := 5, goodRun := 16, badRun := 2 }
    leadA := { LeadChannel.reset with history := [] }
    leadB := { LeadChannel.reset with history := [] } }

/-- The small state with another Link Timing Unit record. -/
def linked (link : LinkState) (tick good bad : Nat) : State :=
  { small with ltu := { link := link, count := 1000, tick := tick, goodRun := good, badRun := bad } }

/-- The small state with voice V0 at a record. -/
def singing (x : Voice) : State := small.setVoice 0 x

/-- A voice of lead A on column 1 and slot 5, with its heads at 320 samples. -/
def sounding : Voice :=
  { Voice.reset with
    state := .sounding, owner := some .a, part := some { column := 1, slot := 5, level := 100, detune := 0 }
    envelope := 4096 }

/-- The small state with gateway `g` at a record. -/
def gated (g : Fin 8) (x : Gateway) : State := small.setGateway g x

/-- A state whose record of a kind is as given. -/
def recorded (k : FaultKind) (f : FaultRecord) : State := small.setFault k f

/-- A notice of the small state. -/
def aNotice : OutItem := .notice (noticeMessage small 0x60 [])

/-- A reply of the small state. -/
def aReply : OutItem := .reply (noticeMessage small 0x40 [])

/-- A pedal gateway with a press and a release cue. -/
def spanGateway : Gateway :=
  { Gateway.pedalReset with
    enabled := true, type := .span, press := some .hold, release := some .release, stuckClose := true }

/-- A request from node 5 with tag 9. -/
def tell (body : List Byte) : Req := { source := 5, tag := 9, broadcast := false, body := body }

/-- The state after an outcome, if there is one. -/
def after (o : Host.Outcome State Fault Refusal) : Option State :=
  match o with
  | .next t => some t
  | .fault _ => none
  | .refused _ => none

/-- What an outcome's state answers at one place. -/
def seen {α : Type} (f : State → α) (o : Host.Outcome State Fault Refusal) : Option α :=
  (after o).map f

/-- The reply at the outbound queue's head: its kind and body. -/
def replied (o : Host.Outcome State Fault Refusal) : Option (Byte × List Byte) :=
  (seen State.outq o).bind fun q => match q with
    | .reply m :: _ => some (m.kind, m.body)
    | _ => none

/-- A request to the small state is answered. -/
theorem tell_answerable (body : List Byte) : Answerable (tell body) small :=
  ⟨rfl, rfl, by decide, by decide⟩

/-- A request to any state out of reset with an empty outbound queue is answered. -/
theorem tell_answerable_of (body : List Byte) (s : State) (h : s.resetLow = false) (q : s.outq = []) :
    Answerable (tell body) s :=
  ⟨h, rfl, by rw [q]; decide, by rw [q]; decide⟩

/-! ### Ill-formed commands -/

theorem test_frame_too_short : WellFormed (.frameArrival [0x9C, 0x35] (Vector.replicate 4 true)) = false := by
  decide
theorem test_frame_wrong_sync :
    WellFormed (.frameArrival (List.replicate 88 0) (Vector.replicate 4 true)) = false := by decide
theorem test_known_kind_not_unknown : WellFormed (.unknownRequest 0x01 (tell [])) = false := by decide
theorem test_unknown_body_too_long : WellFormed (.unknownRequest 0x16 (tell (List.replicate 97 0))) = false := by
  decide
theorem test_identify_body : WellFormed (.identify (tell [0])) = false := by decide
theorem test_readCap_body : WellFormed (.readCap (tell [])) = false := by decide
theorem test_configure_body : WellFormed (.configure (tell (List.replicate 9 0))) = false := by decide
theorem test_readConfig_body : WellFormed (.readConfig (tell [0])) = false := by decide
theorem test_loadBegin_body : WellFormed (.loadBegin (tell [0])) = false := by decide
theorem test_loadData_body : WellFormed (.loadData (tell (List.replicate 97 0))) = false := by decide
theorem test_loadCommit_body : WellFormed (.loadCommit (tell [0])) = false := by decide
theorem test_loadAbort_body : WellFormed (.loadAbort (tell [0])) = false := by decide
theorem test_readTable_body : WellFormed (.readTable (tell (List.replicate 4 0))) = false := by decide
theorem test_cueNow_body : WellFormed (.cueNow (tell (List.replicate 3 0))) = false := by decide
theorem test_cueAt_body : WellFormed (.cueAt (tell (List.replicate 7 0))) = false := by decide
theorem test_cueFlush_body : WellFormed (.cueFlush (tell [])) = false := by decide
theorem test_gatewaySet_body : WellFormed (.gatewaySet (tell (List.replicate 9 0))) = false := by decide
theorem test_portSet_body : WellFormed (.portSet (tell [0])) = false := by decide
theorem test_readState_body : WellFormed (.readState (tell [0])) = false := by decide
theorem test_readFaults_body : WellFormed (.readFaults (tell [0])) = false := by decide
theorem test_faultClear_body : WellFormed (.faultClear (tell [0])) = false := by decide
theorem test_faultSetup_body : WellFormed (.faultSetup (tell (List.replicate 4 0))) = false := by decide
theorem test_counterSetup_body : WellFormed (.counterSetup (tell [0, 0])) = false := by decide
theorem test_readCounters_body : WellFormed (.readCounters (tell [0])) = false := by decide
theorem test_engineReset_body : WellFormed (.engineReset (tell [0])) = false := by decide

/-! ### Values of the manual -/

/-- R2's check value of the nine ASCII digits 1 to 9. -/
theorem test_crc_check_value :
    crc [0x31, 0x32, 0x33, 0x34, 0x35, 0x36, 0x37, 0x38, 0x39] = 0x29B1#16 := by decide +kernel

/-- Chapter 3, worked tracker case: candidate's confidence and refinement. -/
theorem test_tracker_case :
    confidence 30100 (1448410000 / 601) = 252 ∧ refinement 41200 30100 36900 = 2
      ∧ (16 * 218 + 2 + 8) / 16 = 218 := by decide

/-- The example tuning table of chapter 4. -/
def exampleTable : List TuningRow :=
  [⟨55, 3807, 4033⟩, ⟨56, 3594, 3806⟩, ⟨57, 3392, 3593⟩, ⟨58, 3202, 3391⟩, ⟨60, 2852, 3021⟩]

theorem test_example_table :
    tuningOk exampleTable = true ∧ exampleTable.map TuningRow.centre = [3920, 3700, 3492, 3296, 2936] := by
  decide

/-- Chapter 4, worked note-decision sequence: block ends 1, 2, 3, 6, 9, 10 and 12. -/
theorem test_note_sequence :
    (decideNote exampleTable 8 3 .silent 0 true 3490).note = .voiced 57
      ∧ (decideNote exampleTable 8 3 (.voiced 57) 0 true 3596).note = .voiced 57
      ∧ (decideNote exampleTable 8 3 (.voiced 57) 0 true 3612).note = .voiced 56
      ∧ (decideNote exampleTable 8 3 (.voiced 56) 0 true 3100).unmatched = true
      ∧ (decideNote exampleTable 8 3 (.trailing 56) 2 false 0).note = .trailing 56
      ∧ (decideNote exampleTable 8 3 (.trailing 56) 3 false 0).note = .silent
      ∧ (decideNote exampleTable 8 3 .silent 4 true 2940).note = .voiced 60 := by decide

/-- Chapter 5, worked arithmetic case: V0's and V6's targets, and V0's glide. -/
theorem test_targets :
    targetOf 4 (some 3492) 16 3530 6 = 20874 ∧ targetOf (-5) (some 3492) 16 3530 0 = 12408
      ∧ targetOf 4 (some 3492) 0 3530 6 = 20649 ∧ glideTo 18390 20874 256 = 18646
      ∧ glideTo 20694 20874 256 = 20874 := by decide

/-- Chapter 6, worked back splice: the 701st frame. -/
theorem test_back_splice :
    let x := { sounding with currentStep := 20874, distance := 2099880 }
    let h := List.replicate 127 0 ++ [50000, 58000]
    (x.frame h 218).1.distance = 2095390
      ∧ (x.frame h 218).1.crossfade = some { d2 := 5667102, index := 1 }
      ∧ (x.frame h 218).2.1 = 44641 ∧ (x.frame h 218).2.2 = true := by decide

/-- Chapter 6, worked forward splice. -/
theorem test_forward_splice :
    spliceTarget 16777216 218 = none ∧ spliceTarget 16785408 218 = some (16785408 - 218 * 16384) := by
  decide

/-- Chapter 1, R4: a sample of −1 is three bytes FF. -/
theorem test_sample_bytes : sampleBytes (-1) = [0xFF, 0xFF, 0xFF] ∧ sampleBytes (-8388608) = [0x80, 0, 0] := by
  decide

/-- Chapter 2, Example: a difference of 9 slips at a relock, one of 4 does not (R30). -/
theorem test_slip_at_relock :
    slips { link := .holdover, count := 7030040, tick := 0, goodRun := 0, badRun := 0 } 7030050 = true
      ∧ slips { link := .holdover, count := 7030040, tick := 0, goodRun := 0, badRun := 0 } 7030045 = false := by
  decide

/-- Chapter 8, Example: the timed queue after its third CUE_AT. -/
theorem test_timed_order :
    (([⟨2000191, .a, .chord (some 7) none, false⟩, ⟨2000063, .a, .hold, false⟩,
        ⟨2000191, .b, .scene 3, false⟩] : List TimedEntry).foldl
      (fun es e => insertEntry 2000030 e es) []).map (fun e => (e.due, e.lead))
      = [(2000063, .a), (2000191, .a), (2000191, .b)] := by decide

/-- Chapter 11, Example: CUE_NOW asks lead B for CHORD with key root 9 and no map. -/
theorem test_cueNow_example :
    seen (fun t => (t.gateway 5).pending) (exec (.cueNow (tell [1, 2, 9, 0xFF])) small)
        = some (some { cue := .chord (some 9) none, origin := .request })
      ∧ replied (exec (.cueNow (tell [1, 2, 0xFF, 0xFF])) small) = some (0x42, []) := by decide

/-- R166: straps 0 and 63. -/
theorem test_straps :
    seen State.nodeAddr (exec (.powerOnReset 0) small) = some 1
      ∧ seen State.nodeAddr (exec (.powerOnReset 63) small) = some 62 := by decide

/-- R186 and R172: a reply of 7 bytes leaves as a START of 6 and a LAST of 1. -/
theorem test_own_cut :
    (nextPiece [12, 0, 0x0A, 7, 0, 1, 2] 0).1 = [0x16, 12, 0, 0x0A, 7, 0, 1, 0]
      ∧ (nextPiece [12, 0, 0x0A, 7, 0, 1, 2] 6).1 = [0x31, 2, 0, 0, 0, 0, 0, 0] := by decide

/-- R187: the kind bytes of chapter 11's request table, first, middle and last, and two that name none. -/
theorem test_kind_bytes :
    kindOfByte 0x01 = some .identify ∧ kindOfByte 0x0A = some .cueNow
      ∧ kindOfByte 0x15 = some .engineReset ∧ kindOfByte 0 = none ∧ kindOfByte 0x16 = none := by decide

/-- The opcode table gives no row bits, so no table word spells a command. -/
theorem test_no_table_word : decodeTableWord 8 1 = none := rfl

/-! ### The hypotheses of the statements are met: queue, resets, ticks, link -/

theorem test_met_StepTakesFrontCommand :
    ({ small with pending := [.frameStart, .gapLimit] } : State).pending = .frameStart :: [.gapLimit] := rfl

theorem test_met_EveryCommandAnswers :
    (∀ straps, Instr.frameStart ≠ .powerOnReset straps) ∧ Instr.frameStart ≠ .resetNHeldLow :=
  ⟨fun _ h => (by cases h), fun h => (by cases h)⟩

/-- Each clause at the last tick before its limit, and at the limit. -/
theorem test_met_TicksMeasureSilence :
    small.pending = [] ∧ small.resetLow = false
      ∧ ((linked .locked 2046 16 0).ltu.link.running = true ∧ (linked .locked 2046 16 0).ltu.tick < 2047)
      ∧ ((linked .holdover 510 0 0).ltu.link.running = false ∧ (linked .holdover 510 0 0).ltu.tick < 511)
      ∧ ((linked .seeking 511 0 0).ltu.link.running = false ∧ (linked .seeking 511 0 0).ltu.tick = 511)
      ∧ ((linked .relocking 2047 3 0).ltu.link.running = true
        ∧ (linked .relocking 2047 3 0).ltu.tick = 2047) := by decide

/-- A message under assembly when the link is lost, CTRL_RUNON not masked, and none. -/
theorem test_met_losses_assembling :
    ({ linked .locked 2047 16 7 with
        assembly := some { bytes := [12], gap := 0, route := .consume } } : State).assembly ≠ none
      ∧ ((linked .locked 2047 16 7).fault .ctrlRunon).detectMask = false
      ∧ (linked .locked 2047 16 7).assembly = none ∧ 7 ≤ (linked .locked 2047 16 7).ltu.badRun := by decide

theorem test_met_ReceiverAndHeldReset :
    (linked .relocking 0 15 0).resetLow = false ∧ (linked .relocking 0 15 0).ltu.link = .relocking
      ∧ (linked .relocking 0 15 0).ltu.goodRun = 15
      ∧ ({ small with resetLow := true } : State).resetLow = true
      ∧ ({ small with resetLow := true } : State).pending = []
      ∧ (∀ straps, Instr.gapLimit ≠ .powerOnReset straps) ∧ Instr.gapLimit ≠ .resetNHeldLow :=
  ⟨rfl, rfl, rfl, rfl, rfl, fun _ h => (by cases h), fun h => by cases h⟩

/-- Both loss actions, and LINK_LOSS not masked. -/
theorem test_met_BadFramesLoseTheLink :
    (linked .locked 0 16 7).resetLow = false ∧ (linked .locked 0 16 7).ltu.link.running = true
      ∧ (linked .locked 0 16 7).ltu.badRun = 7
      ∧ ((linked .locked 0 16 7).fault .linkLoss).detectMask = false
      ∧ (linked .locked 0 16 7).config.lossAction = .holdover
      ∧ ({ linked .locked 0 16 7 with
          config := { ConfigRecord.reset with lossAction := .engine } } : State).config.lossAction
        = .engine := by decide

/-- A frame with a count, 24 silent slots and a lane, its check correct or poisoned. -/
def frameOf (good : Bool) (count : Word32) (lane : List Byte) : List Byte :=
  outFrame good ([0x9C, 0x35] ++ bytes4 count ++ List.replicate 72 0 ++ lane)

theorem frameOf_true_good (count : Word32) : frameGood (frameOf true count idleLane) = true :=
  outFrame_good _ rfl

theorem frameOf_false_bad (count : Word32) : frameGood (frameOf false count idleLane) = false :=
  (outFrame_bad _ rfl).1

theorem frameOf_isFrame (good : Bool) (count : Word32) : isFrame (frameOf good count idleLane) = true := by
  cases good <;> rfl

theorem frameOf_lane (good : Bool) (count : Word32) :
    (byteAt (frameOf good count idleLane) 78).toNat / 16 ≠ 3 := by
  cases good <;> exact (by decide : ((0 : Byte).toNat / 16 ≠ 3))

/-- A claimed and an unclaimed slot, a claimed slot whose voice does not run, and a state out of lock. -/
theorem test_met_GoodFrameLeaves :
    small.resetLow = false ∧ isFrame (frameOf true 1001 idleLane) = true
      ∧ frameGood (frameOf true 1001 idleLane) = true
      ∧ claimed (claims (singing { sounding with state := .idle, envelope := 0 })) 5 = true
      ∧ claimed (claims (singing { sounding with state := .idle, envelope := 0 })) 4 = false
      ∧ ((singing { sounding with state := .idle, envelope := 0 }).voice 0).runs = false
      ∧ (linked .seeking 0 0 0).ltu.link ≠ .locked :=
  ⟨rfl, frameOf_isFrame _ _, frameOf_true_good _, by decide⟩

/-- A START for node 20 on a free lane; a MORE that fills a message cut through to 103 bytes. -/
theorem test_met_GoodFrameLeaves_cut :
    isFrame (frameOf true 1001 (encodeLane 1 [20, 0, 1])) = true
      ∧ frameGood (frameOf true 1001 (encodeLane 1 [20, 0, 1])) = true
      ∧ decodeLane (laneBytes (frameOf true 1001 (encodeLane 1 [20, 0, 1]))) = .start [20, 0, 1]
      ∧ byteAt [20, 0, 1] 0 ≠ small.nodeAddr ∧ small.assembly = none ∧ small.sender = .none
      ∧ small.fifo = [] ∧ isFrame (frameOf true 1001 (encodeLane 2 (List.replicate 7 9))) = true
      ∧ frameGood (frameOf true 1001 (encodeLane 2 (List.replicate 7 9))) = true
      ∧ decodeLane (laneBytes (frameOf true 1001 (encodeLane 2 (List.replicate 7 9))))
        = .more (List.replicate 7 9)
      ∧ ({ small with
          assembly := some { bytes := List.replicate 96 20, gap := 0, route := .relay .cut }
          sender := .cut } : State).sender = .cut
      ∧ (List.replicate 96 (20 : Byte)).length + (List.replicate 7 (9 : Byte)).length ≤ 103 :=
  ⟨rfl, outFrame_good _ rfl, rfl, by decide, rfl, rfl, rfl, rfl, outFrame_good _ rfl, rfl, rfl, by decide⟩

/-- Two voices of lead A on slot 5 at full level, over a history of samples of 6,000,000, with OUTPUT_CLIP at
severity MUTE and all other kinds silent: each voice sample is 6,000,000, and the sum lies past 8,388,607. -/
def loud : State :=
  let x := { sounding with part := some { column := 1, slot := 5, level := 128, detune := 0 } }
  { (small.setVoice 0 x).setVoice 3 x with
    leadA := { LeadChannel.reset with history := List.replicate 400 6000000 }
    faults := (Vector.replicate 13 { FaultRecord.reset with reportMask := true }).set 12
      { FaultRecord.reset with severity := .mute } }

theorem loud_samples :
    (loud.voice 0).claims = some 5 ∧ voiceSample loud (0, 0) 0 = 6000000
      ∧ slotTotal loud (0, 0) 5 = 12000000 ∧ slotTotal loud (0, 0) 4 = 0 := by
  decide +kernel

/-- A slot that saturates with all that its OUTPUT_CLIP is told under, and no mute due: the kinds that may
mute are OUTPUT_CLIP alone, or already set, or masked. -/
theorem test_met_GoodFrameLeaves_mixer :
    loud.ltu.link = .locked ∧ claimed (claims loud) 5 = true
      ∧ leadSamples loud (frameOf true 1001 idleLane) = (0, 0) ∧ Clips loud (0, 0) 5
      ∧ ((loud.fault .outputClip).status = false ∧ (loud.fault .outputClip).detectMask = false
        ∧ (loud.fault .outputClip).severity = .mute ∧ ∀ v, .outputClip ∉ (loud.voice v).faults)
      ∧ (loud.outq = [] ∧ loud.sender = .none ∧ loud.ltu.count.toNat % 64 ≠ 63)
      ∧ (∀ k, (loud.fault k).reportMask = decide (k ≠ .outputClip)) ∧ NoMuteDue loud
      ∧ (∀ f : FaultRecord, f.status = true ∨ f.detectMask = true → NoMuteDue (recorded .linkSlip f)) := by
  refine ⟨rfl, by decide, rfl, ⟨by decide, by decide +kernel⟩, by decide, by decide, ?_, ?_, ?_⟩
  · intro k; cases k <;> rfl
  · intro k h m
    cases k <;> first | exact absurd m (by decide) | exact absurd rfl h
  · intro f hf k _ m
    cases k <;> first | exact hf | cases (show Severity.notice = .mute from m)

/-- A START that finds a message under assembly raises CTRL_RUNON, and the other lane raises nothing. -/
theorem test_met_GoodFrameLeaves_lane :
    (assemble (decodeLane (encodeLane 1 [20, 0, 1]))
        { small with assembly := some { bytes := [12], gap := 0, route := .consume } }).raised
        = [.ctrlRunon]
      ∧ (assemble (decodeLane idleLane) small).request = none
      ∧ (small.fault .ctrlRunon).detectMask = false := by decide

theorem test_met_GoodFrameLink :
    small.resetLow = false ∧ isFrame (frameOf true 1002 idleLane) = true
      ∧ frameGood (frameOf true 1002 idleLane) = true
      ∧ (byteAt (frameOf true 1002 idleLane) 78).toNat / 16 ≠ 3 :=
  ⟨rfl, frameOf_isFrame _ _, frameOf_true_good _, frameOf_lane _ _⟩

/-- A count in order, one that repeats and one past a gap, off a block end; entries at, before and after the
new count. -/
theorem test_met_GoodFrameLink_queue :
    (1001 : Word32) = small.ltu.count + 1 ∧ (1000 : Word32) ≠ small.ltu.count + 1
      ∧ (1002 : Word32) ≠ small.ltu.count + 1 ∧ (1002 : Word32).toNat % 64 ≠ 63
      ∧ atOrBefore 1002 (1002 : Word32) = true ∧ atOrBefore 1003 (1002 : Word32) = false := by decide

theorem test_met_GoodFrameSamples :
    small.resetLow = false ∧ isFrame (frameOf true 1001 idleLane) = true
      ∧ frameGood (frameOf true 1001 idleLane) = true
      ∧ (byteAt (frameOf true 1001 idleLane) 78).toNat / 16 ≠ 3 :=
  ⟨rfl, frameOf_isFrame _ _, frameOf_true_good _, frameOf_lane _ _⟩

/-- The last bad frame before a loss and the eighth in a row, an empty assembly buffer, RELOCKING, and a
claimed and an unclaimed slot. -/
theorem test_met_BadFrameRunning :
    isFrame (frameOf false 0 idleLane) = true ∧ frameGood (frameOf false 0 idleLane) = false
      ∧ (linked .relocking 0 3 6).resetLow = false ∧ (linked .relocking 0 3 6).ltu.link.running = true
      ∧ (linked .relocking 0 3 6).ltu.badRun < 7 ∧ (linked .relocking 0 3 6).assembly = none
      ∧ (linked .locked 0 16 7).ltu.link.running = true
      ∧ (linked .locked 0 16 7).config.lossAction = .holdover ∧ small.config.slotB.isSome = true
      ∧ (small.fault .frameCheck).detectMask = false
      ∧ claimed (claims (singing sounding)) 5 = true ∧ claimed (claims (singing sounding)) 4 = false
      ∧ ({ linked .relocking 0 3 6 with voices := (singing sounding).voices } : State).ltu.link
        = .relocking :=
  ⟨frameOf_isFrame _ _, frameOf_false_bad _, by decide⟩

/-- A frame off a block end in which nothing can mute a voice. -/
theorem test_met_frames_voices :
    NoMuteDue small ∧ (small.fault .outputClip).severity = .notice
      ∧ (1001 : Word32).toNat % 64 ≠ 63 := by
  refine ⟨?_, by decide⟩
  intro k _ m
  cases k <;> cases (show Severity.notice = .mute from m)

/-- The saturating state is in LOCKED, short of a loss; a bad frame repeats its newest samples. -/
theorem test_met_BadFrameRunning_mixer :
    loud.ltu.link = .locked ∧ loud.ltu.badRun < 7 ∧ heldSamples loud = (6000000, 0) := by decide

theorem test_met_BadFramePassed :
    isFrame [0x9C] = false ∧ isFrame (frameOf false 0 idleLane) = true
      ∧ frameGood (frameOf false 0 idleLane) = false ∧ (linked .seeking 0 0 0).resetLow = false
      ∧ (linked .seeking 0 0 0).ltu.link.running = false
      ∧ ((linked .seeking 0 0 0).fault .frameCheck).detectMask = false :=
  ⟨by decide, frameOf_isFrame _ _, frameOf_false_bad _, by decide⟩

theorem test_met_PhantomFrameMade :
    (linked .holdover 0 0 0).resetLow = false ∧ (linked .holdover 0 0 0).ltu.link.running = false := by
  decide

/-- Frames whose count is a block end, in order and after a gap, and the last count before one; for a bad or
a phantom frame the held count decides. -/
theorem test_met_frames_blockEnd :
    let s : State := { small with ltu := { small.ltu with count := 1022 } }
    frameCount (frameOf true 1023 idleLane) = s.ltu.count + 1
      ∧ (frameCount (frameOf true 1087 idleLane)).toNat % 64 = 63
      ∧ ((s.ltu.count + 1).toNat % 64 = 63 ∧ s.ltu.count.toNat % 64 ≠ 63)
      ∧ s.ltu.badRun < 7 ∧ (linked .locked 0 16 7).config.lossAction = .holdover := by decide

/-- The small state one frame before a block end, its lines as their pins and FRAME_CHECK masked. -/
def resting : State :=
  { recorded .frameCheck { FaultRecord.reset with detectMask := true } with
    ltu := { small.ltu with count := 1022 }
    pedals := Vector.replicate 4 { PedalLine.reset with level := some .released } }

/-- A block end with nothing else to do, for a good, a bad and a phantom frame. -/
theorem test_met_frames_quiet :
    (frameCount (frameOf true 1023 idleLane) = resting.ltu.count + 1
        ∧ (resting.ltu.count + 1).toNat % 64 = 63
        ∧ decodeLane (laneBytes (frameOf true 1023 idleLane)) = .idle)
      ∧ (resting.resetLow = false ∧ resting.assembly = none ∧ resting.sender = .none ∧ resting.fifo = []
        ∧ resting.outq = [] ∧ ∀ v, (resting.voice v).runs = false)
      ∧ (resting.ltu.link.running = true ∧ resting.ltu.badRun < 7
        ∧ (resting.fault .frameCheck).detectMask = true)
      ∧ ({ resting with ltu := { resting.ltu with link := .holdover } } : State).ltu.link.running = false
      ∧ QuietLines (Vector.replicate 4 true) resting := by
  unfold QuietLines PedalJudged
  decide

/-- A kind of severity MUTE, clear and unmasked; an OFF voice, and voices that are not OFF and not FALLING
without mark or pending assignment; a slip in lock, and at a relock by 5; a loss by silence off a block end. -/
theorem test_met_DeviceMuted :
    (∀ k, let s := recorded k { FaultRecord.reset with severity := .mute }
        (s.fault k).severity = .mute ∧ (s.fault k).status = false ∧ (s.fault k).detectMask = false)
      ∧ ((singing sounding).voice 1).state = .off
      ∧ (sounding.state ≠ .off ∧ sounding.state ≠ .falling ∧ sounding.releaseMark = false
        ∧ sounding.pendingPart = none)
      ∧ (small.ltu.link = .locked ∧ frameCount (frameOf true 1002 idleLane) ≠ small.ltu.count + 1
        ∧ (1002 : Word32).toNat % 64 ≠ 63)
      ∧ ((linked .holdover 0 0 0).ltu.link = .holdover
        ∧ 4 < (serialDiff (small.ltu.count + 1) (frameCount (frameOf true 1006 idleLane))).natAbs)
      ∧ (small.config.lossAction = .holdover ∧ (small.ltu.count + 4).toNat % 64 ≠ 63) := by
  refine ⟨?_, by decide⟩
  intro k; cases k <;> decide

/-- A gap one short of the ninth, the ninth, and no message under assembly. -/
theorem test_met_BadFrameRunning_gap :
    let s := fun gap : Nat =>
      ({ linked .locked 0 16 6 with
          assembly := some { bytes := [63], gap := gap, route := .relay .cut }, sender := .cut } : State)
    (∃ a, (s 7).assembly = some a ∧ a.gap < 8) ∧ (∃ a, (s 8).assembly = some a ∧ 8 ≤ a.gap)
      ∧ (s 8).ltu.badRun < 7 ∧ (small.assembly = none ∧ (small.fault .ctrlRunon).detectMask = false) :=
  ⟨⟨_, rfl, by decide⟩, ⟨_, rfl, by decide⟩, by decide, by decide⟩

/-! ### Block work, tracker, targets -/

/-- Counts 62 and 63 mod 64. -/
theorem test_met_BlockEndWork :
    small.resetLow = false
      ∧ ({ small with ltu := { small.ltu with count := 1022 } } : State).ltu.count.toNat % 64 ≠ 63
      ∧ ({ small with ltu := { small.ltu with count := 1023 } } : State).ltu.count.toNat % 64 = 63 := by
  decide

/-- No transition; one with a voice of the lead fading, and with none; room for a notice at 7 messages and 6
notices, none at 8 messages or at 7 notices. -/
theorem test_met_BlockEndWork_completion :
    let going := fun x : Voice => (singing x).setLead .a
      { LeadChannel.reset with history := [], transition := some { level := 3, kind := .silence } }
    (small.lead .a).transition = none
      ∧ ((going sounding).lead .a).transition = some { level := 3, kind := .silence }
      ∧ (((going { sounding with state := .rising }).voice 0).owner = some .a
        ∧ ((going { sounding with state := .rising }).voice 0).state = .rising)
      ∧ (∀ v, ((going sounding).voice v).owner = some .a →
        ((going sounding).voice v).state ≠ .rising ∧ ((going sounding).voice v).state ≠ .falling)
      ∧ ((aReply :: List.replicate 6 aNotice).length < 8
        ∧ (aReply :: List.replicate 6 aNotice).countP OutItem.isNotice < 7)
      ∧ 8 ≤ (aNotice :: List.replicate 7 aReply).length
      ∧ 7 ≤ (List.replicate 7 aNotice).countP OutItem.isNotice := by decide

theorem test_met_BlockWorkKeepsOtherLead :
    Lead.b ≠ Lead.a ∧ ((singing sounding).voice 0).owner = some .a
      ∧ ((singing sounding).voice 0).state ≠ .off := by decide

/-- The ends of the lag range and their neighbours. -/
theorem test_met_TrackerAnswersInRange :
    (List.replicate 601 7).length = 601 ∧ (0 < 601 ∧ 600 < 601 ∧ 1 ≤ 599)
      ∧ candidate (List.replicate 601 7) 0 = 0 := by decide +kernel

/-- A history of 2,048 samples. -/
theorem test_met_TrackerAnswersInRange_sums : (List.replicate 2048 (0 : Int)).length = 2048 :=
  List.length_replicate

/-- A flat and a bent triple of sums, at both inner ends of the lag range. -/
theorem test_met_TrackerAnswersInRange_parabola :
    let bent := (List.replicate 601 7).set 1 0 |>.set 599 0
    (1 ≤ 1 ∧ 599 ≤ 599) ∧ bent.length = 601
      ∧ (2 * ((bent.getD 0 0 : Int) - 2 * bent.getD 1 0 + bent.getD 2 0) = 28
        ∧ 2 * ((bent.getD 598 0 : Int) - 2 * bent.getD 599 0 + bent.getD 600 0) = 28)
      ∧ 2 * ((bent.getD 299 0 : Int) - 2 * bent.getD 300 0 + bent.getD 301 0) ≤ 0 := by decide +kernel

/-- Note 57's widened band 3,384 to 3,601 at its ends and just outside; periods with a row and without; counts
at the hold and below it; a note with no row. -/
theorem test_met_NoteLookup_decision :
    NoteState.note? (.trailing 57) = some 57
      ∧ (3392 ≤ 3384 + 8 ∧ 3601 ≤ 3593 + 8) ∧ (3383 + 8 < 3392 ∧ 3593 + 8 < 3602)
      ∧ (∃ m ∈ exampleTable, m.lo ≤ 3602 ∧ 3602 ≤ m.hi)
      ∧ (∀ m ∈ exampleTable, 3100 < m.lo ∨ m.hi < 3100) ∧ (2 < 3 ∧ 3 ≤ 3)
      ∧ (∀ r ∈ exampleTable, NoteState.silent.note? ≠ some r.note)
      ∧ (∀ r ∈ exampleTable, NoteState.note? (.voiced 59) ≠ some r.note) := by decide

/-- Row 3 of the example table at both ends of its band, and a note change onto it. -/
theorem test_met_NoteLookup :
    tuningOk exampleTable = true ∧ (⟨57, 3392, 3593⟩ : TuningRow) ∈ exampleTable
      ∧ (3392 ≤ 3392 ∧ 3593 ≤ 3593)
      ∧ (decideNote exampleTable 8 3 .silent 0 true 3392).changed = true
      ∧ (decideNote exampleTable 8 3 (.voiced 56) 0 true 3490).changed = true := by decide

/-- A centre; sums at and within the clamp's ends; each of the glide's cases at its boundary. -/
theorem test_met_TargetsAndSteps :
    0 < 3492
      ∧ (4096 ≤ correctedStep (-24) none 0 0 + 0 ∧ correctedStep 24 none 0 0 + 0 ≤ 65536)
      ∧ (8 ≤ 8 + 0 ∧ 20694 ≤ 20874 + 256 ∧ 20874 ≤ 20694 + 256)
      ∧ (0 < 256 ∧ 20617 + 256 < 20874) ∧ (0 < 256 ∧ 20874 + 256 < 21131) := by decide

/-- Lead A on note 57 with map 0 giving +4 on column 1, and V0 sounding. -/
def harmonised : State :=
  { (singing sounding).setLead .a
      { LeadChannel.reset with history := [], note := .voiced 57, estimate := 3490 } with
    maps := State.reset.maps.set 0 (List.replicate 48 (some 4)) }

/-- Weights 0 to 16; sums just outside the clamp's ends. -/
theorem test_met_TargetsAndSteps_weights :
    (0 ≤ 16 ∧ 16 ≤ 16) ∧ correctedStep (-24) none 0 0 + (-1) < 4096
      ∧ 65536 < correctedStep 24 none 0 0 + 1 := by decide

/-- Voices by state, owner, interval, envelope and fault set. -/
theorem test_met_TargetsAndSteps_retarget :
    let made := fun x : Voice => harmonised.setVoice 0 x
    interval harmonised .a 0 = some 4
      ∧ interval { harmonised with maps := State.reset.maps.set 0 (List.replicate 48 none) } .a 0 = none
      ∧ (harmonised.voice 1).owner ≠ some .a ∧ (harmonised.voice 1).state = .off
      ∧ ((made { sounding with state := .idle, envelope := 0 }).voice 0).faults = []
      ∧ ((made { sounding with faults := [.linkLoss] }).voice 0).faults ≠ []
      ∧ ((made { sounding with state := .rising, envelope := 0 }).voice 0).envelope = 0
      ∧ ((made { sounding with state := .falling, dest := .idle }).voice 0).envelope = 4096
      ∧ ((made { sounding with state := .falling, dest := .off }).voice 0).dest ≠ .idle := by decide

/-- R74: in key 2 note 62 reads row 0, note 57 row 7 and note 50 row 0, at the voice's column. -/
theorem test_map_rows :
    let s := { small.setLead .a { LeadChannel.reset with history := [], key := 2 } with
      maps := State.reset.maps.set 0 ((List.range 48).map fun i => some (i : Int)) }
    [62, 57, 50].map (fun n => openInterval s .a n { sounding with part := sounding.part.map fun p =>
      { p with column := 3 } }) = [some 3, some 31, some 3] := by decide

/-- A SILENT lead and one with a note; silenced and not; held with a frozen note absent, 24 away and 25 away;
not held; a note with one row in the table and a note with none; a lead with a scene and without. -/
theorem test_met_TargetsAndSteps_chain :
    let led := fun c : LeadChannel => harmonised.setLead .a c
    let held := fun f : Option Nat =>
      { harmonised.leadA with held := true, frozen := Vector.replicate 8 f }
    let tuned : State := { harmonised with tuning := State.reset.tuning.set 0 exampleTable }
    ((small.lead .a).note = .silent ∧ (harmonised.lead .a).note = .voiced 57)
      ∧ ((led { harmonised.leadA with silenced := true }).lead .a).silenced = true
      ∧ ((harmonised.lead .a).silenced = false ∧ (harmonised.lead .a).held = false
        ∧ (harmonised.voice 0).part = sounding.part)
      ∧ (((led (held none)).lead .a).held = true ∧ ((led (held none)).lead .a).frozen[(0 : VoiceId)] = none)
      ∧ (((led (held (some 81))).lead .a).frozen[(0 : VoiceId)] = some 81
        ∧ ((81 : Int) - 57).natAbs ≤ 24 ∧ 24 < ((82 : Int) - 57).natAbs)
      ∧ ((⟨57, 3392, 3593⟩ : TuningRow) ∈ tuned.rows .a
        ∧ (∀ r ∈ tuned.rows .a, r.note = 57 → r = ⟨57, 3392, 3593⟩) ∧ ∀ r ∈ tuned.rows .a, r.note ≠ 59)
      ∧ (small.lead .a).scene = none
      ∧ ((led { harmonised.leadA with scene := some 2 }).lead .a).scene = some 2 := by decide

/-- No note; a note; a voice not owned, one not sounding, one at REST; one frozen; one out of 0..127; both
states of the hold flag. -/
theorem test_met_HoldAndRelease :
    (small.lead .a).note.note? = none ∧ (harmonised.lead .a).note.note? = some 57
      ∧ (harmonised.voice 1).owner ≠ some .a
      ∧ openInterval { harmonised with maps := State.reset.maps } .a 57 (harmonised.voice 0) = none
      ∧ ((harmonised.voice 0).owner = some .a ∧ (harmonised.voice 0).state = .sounding
        ∧ openInterval harmonised .a 57 (harmonised.voice 0) = some 4
        ∧ (0 ≤ (57 : Int) + 4 ∧ (57 : Int) + 4 ≤ 127))
      ∧ (openInterval harmonised .a 124 (harmonised.voice 0) = some 4
        ∧ ¬(0 ≤ (124 : Int) + 4 ∧ (124 : Int) + 4 ≤ 127))
      ∧ (small.lead .a).held = false
      ∧ ((small.setLead .a { LeadChannel.reset with held := true }).lead .a).held = true := by decide

/-! ### Voices -/

/-- Index 31, and a rise whose next step just reaches 4,096. -/
theorem test_met_CrossfadeAndRiseEnd :
    (singing sounding).resetLow = false
      ∧ ((singing { sounding with crossfade := some { d2 := 5527912, index := 31 } }).voice 0).crossfade
        = some { d2 := 5527912, index := 31 }
      ∧ ((singing { sounding with state := .rising, envelope := 4092 }).voice 0).state = .rising
      ∧ 4096 ≤ ((singing { sounding with state := .rising, envelope := 4092 }).voice 0).envelope
        + ((singing { sounding with state := .rising, envelope := 4092 }).voice 0).increment := by decide

/-- A fall whose next step just reaches 0. -/
def fallen (d : FallDest) (mark : Bool) (p : Option Assignment) : Voice :=
  { sounding with state := .falling, envelope := 4, dest := d, releaseMark := mark, pendingPart := p }

/-- Every destination; a pending slot that is free and one that is a lead input slot. -/
theorem test_met_FallEndTable :
    ((singing (fallen .idle false none)).voice 0).state = .falling
      ∧ ((singing (fallen .idle false none)).voice 0).envelope
        ≤ ((singing (fallen .idle false none)).voice 0).increment
      ∧ (fallen .off true none).dest = .off
      ∧ ((fallen .muted true none).dest = .muted ∧ (fallen .muted true none).releaseMark = true)
      ∧ ((fallen .muted false none).releaseMark = false ∧ (fallen .muted false none).pendingPart = none)
      ∧ (fallen .reassign false (some { column := 0, slot := 6, level := 9, detune := 0 })).pendingPart
        = some { column := 0, slot := 6, level := 9, detune := 0 }
      ∧ (fallen .reassign false none).dest = .reassign
      ∧ small.isLeadSlot 6 = false ∧ small.isLeadSlot 1 = true ∧ (fallen .muted false none).owner = some .a
      ∧ (small.fault .entrySkipped).detectMask = false := by decide

/-- FALL_END takes a falling voice to its destination (R98). -/
theorem test_fallEnd :
    seen (fun t => (t.voice 0).state) (exec (.fallEnd 0) (singing (fallen .off true none))) = some .off
      ∧ seen (fun t => (t.voice 0).state)
        (exec (.fallEnd 0) (singing { fallen .muted false none with faults := [.linkLoss] }))
        = some .muted := by decide

/-- The ends of the band and just outside it, at both ends of the splice period. -/
theorem test_met_SpliceBand :
    (40 ≤ 40 ∧ 640 ≤ 640) ∧ (2097151 : Int) < 128 * 16384 ∧ (1024 * 16384 : Int) < 16777217
      ∧ (128 * 16384 : Int) ≤ 2097152 ∧ (16777216 : Int) ≤ 1024 * 16384 := by decide

theorem test_met_HeadAndSample :
    (5242880 : Int) % 16384 = 0
      ∧ sounding.part = some { column := 1, slot := 5, level := 100, detune := 0 } ∧ 128 ≤ 128
      ∧ sounding.envelope = 4096 ∧ ({ sounding with envelope := 0 } : Voice).envelope = 0 := by decide

/-- No crossfade with a splice and without one; indexes 30 and 31; each state that runs, with a rise and a fall
that end in the frame; a voice that does not run. -/
theorem test_met_HeadAndSample_frame :
    (sounding.crossfade = none ∧ spliceTarget 5242880 256 = none ∧ spliceTarget 2097151 256 ≠ none)
      ∧ (({ sounding with crossfade := some { d2 := 7, index := 30 } } : Voice).crossfade
          = some { d2 := 7, index := 30 } ∧ 30 < 31 ∧ 31 ≤ 31)
      ∧ (Voice.reset.runs = false ∧ sounding.runs = true ∧ sounding.owner = some .a)
      ∧ (({ sounding with state := .rising, envelope := 4092 } : Voice).frame [] 256).1.envelope = 4096
      ∧ ((fallen .off true none).frame [] 256).1.envelope = 0
      ∧ (({ fallen .off true none with envelope := 5 } : Voice).frame [] 256).1.envelope ≠ 0 := by decide

/-! ### Scenes, ports, pedals, timed cues -/

/-- The small state with scene 2 of one entry for V6 on slot 8. -/
def staged : State :=
  { singing sounding with
    scenes := State.reset.scenes.set 2
      { Scene.empty with entries := [⟨6, { column := 2, slot := 8, level := 90, detune := 0 }⟩] } }

/-- An unlisted voice, IDLE and sounding, and a listed OFF voice on a free slot. -/
theorem test_met_SceneApplied :
    (staged.voice 0).owner = some .a ∧ (∀ e ∈ staged.scenes[2].entries, e.voice ≠ 0)
      ∧ ((singing { sounding with state := .idle, envelope := 0 }).voice 0).state = .idle
      ∧ ((staged.voice 0).state = .sounding ∧ (staged.voice 0).envelope ≠ 0)
      ∧ distinctVoices staged.scenes[2].entries = true
      ∧ (∀ e ∈ staged.scenes[2].entries,
        (staged.voice e.voice).state = .off ∧ (staged.voice e.voice).owner = none
          ∧ staged.isLeadSlot e.part.slot = false) := by decide

/-- Lead A's scene 2 with four entries: V0 sounding and V1 IDLE of its own, V2 OFF, V3 of lead B; V1's slot as
given; V4 of lead A is not listed. -/
def reached (slot : Fin 24) (x : Voice) : State :=
  let entry := fun (v : VoiceId) (k : Fin 24) =>
    ({ voice := v, part := { column := 0, slot := k, level := 9, detune := 0 } } : SceneEntry)
  { (((singing x).setVoice 1 { sounding with state := .idle, envelope := 0 }).setVoice 3
      { sounding with owner := some .b }).setVoice 4 { fallen .muted false none with faults := [.linkLoss] } with
    scenes := State.reset.scenes.set 2
      { Scene.empty with entries := [entry 0 8, entry 1 slot, entry 2 9] } }

/-- An application that skips nothing, and one that skips V1's entry for a lead input slot, with ENTRY_SKIPPED
muting and not; a fall from envelope 0 with a clash; a listed voice of the other lead. -/
theorem test_met_SceneApplied_table :
    distinctVoices (reached 7 sounding).scenes[(2 : Fin 32)].entries = true
      ∧ (¬SkipsEntry .a 2 (reached 7 sounding) ∧ ¬ClashesAtZero .a 2 (reached 7 sounding))
      ∧ (SkipsEntry .a 2 (reached 0 sounding) ∧ ¬ClashesAtZero .a 2 (reached 0 sounding))
      ∧ SkipsEntry .b 2 (reached 7 sounding)
      ∧ ClashesAtZero .a 2 { reached 7 { sounding with state := .rising, envelope := 0 } with
        config := { ConfigRecord.reset with slotB := some 8 } }
      ∧ (¬SkipMutes small ∧ (small.fault .entrySkipped).detectMask = false)
      ∧ SkipMutes (recorded .entrySkipped { FaultRecord.reset with severity := .mute }) := by
  unfold SkipsEntry ClashesAtZero SkipMutes
  decide

/-- R116, R117: V0 falls to REASSIGN, V1 takes its entry at once, V2 is assigned, V3 is left, V4 falls on to OFF
by its release mark. -/
theorem test_applyScene_table :
    let t := applyScene .a 2 5 (reached 7 sounding)
    ((t.voice 0).state, (t.voice 0).dest, (t.voice 1).part.map Assignment.slot) = (.falling, .reassign, some 7)
      ∧ ((t.voice 2).owner, (t.voice 3).owner) = (some .a, some .b)
      ∧ ((t.voice 4).dest, (t.voice 4).releaseMark) = (.muted, true)
      ∧ (t.fault .entrySkipped).status = false := by decide

/-- A lead with a current scene that has a next scene, and without; a voice that SILENCE reaches at full
envelope and at 0, and one it does not. -/
theorem test_met_SceneApplied_cues :
    let led := fun n => { small.setLead .a { LeadChannel.reset with history := [], scene := some 2 } with
      scenes := State.reset.scenes.set 2 { Scene.empty with next := n } }
    ((led (some 9)).lead .a).scene = some 2 ∧ (led (some 9)).scenes[(2 : Fin 32)].next = some 9
      ∧ (led none).scenes[(2 : Fin 32)].next = none ∧ (small.lead .a).scene = none
      ∧ ((staged.voice 0).owner = some .a ∧ (staged.voice 0).state = .sounding
        ∧ (staged.voice 0).envelope ≠ 0)
      ∧ ((singing { sounding with state := .rising, envelope := 0 }).voice 0).envelope = 0
      ∧ (staged.voice 1).owner ≠ some .a := by decide

/-- Chapter 8, Example: G4 wins over G6 at the same priority, and G1 waits behind the level. -/
theorem test_port_choice :
    let g1 := { spanGateway with priority := 5, pending := some { cue := .step, origin := .press } }
    let s := ((small.setGateway 1 g1).setGateway 4
        { Gateway.fixedReset .a with
          pending := some { cue := .chord (some 9) none, origin := .request } }).setGateway 6
        { Gateway.fixedReset .a with pending := some { cue := .scene 14, origin := .queue } }
    let t := { s.setLead .a { LeadChannel.reset with
      history := [], transition := some { level := 6, kind := .scene 2 } } with thresholdA := 2 }
    isCandidate .a t 1 = false ∧ isCandidate .a t 6 = true ∧ portWinner .a t = some 4 := by decide

/-- A port with a winner that is a timed gateway and one that is not, with a transition in flight and without;
the start flag set in LOCKED, with a start scene and without. -/
theorem test_met_PortChoosesHighest :
    let cue : PendingCue := { cue := .hold, origin := .queue }
    let six := gated 6 { Gateway.fixedReset .a with pending := some cue }
    let four := gated 4 { Gateway.fixedReset .a with pending := some cue }
    let going := six.setLead .a
      { LeadChannel.reset with history := [], transition := some { level := 7, kind := .resume } }
    portWinner .a small = none
      ∧ (portWinner .a six = some 6 ∧ (six.gateway 6).pending = some cue ∧ timedGateway .a = 6)
      ∧ (portWinner .a four = some 4 ∧ (six.lead .a).transition = none)
      ∧ (portWinner .a going = some 6 ∧ (going.lead .a).transition ≠ none)
      ∧ ((six.lead .a).startFlag = true ∧ six.startScene .a = none)
      ∧ ({ six with config := { ConfigRecord.reset with startA := some 4 } } : State).startScene .a
        = some 4
      ∧ ((six.setLead .a { LeadChannel.reset with startFlag := false }).lead .a).startFlag = false := by
  decide

/-- A line one sample short of its debounce, before a press and before a release. -/
def edging (level : PedalLevel) (g : Gateway) : State :=
  (small.setPedal 1 { PedalLine.reset with level := some level, debounce := 383 }).setGateway 1 g

/-- Each case of a press, of a release and of a stuck line, the timer one short of its limit. -/
theorem test_met_PedalsTaken :
    ((edging .released spanGateway).resetLow = false ∧ ((edging .released spanGateway).pedal 1).debounce = 383
        ∧ ((edging .released spanGateway).pedal 1).level = some .released)
      ∧ (Gateway.pedalReset.press = none ∧ spanGateway.press = some .hold ∧ spanGateway.enabled = true
        ∧ spanGateway.pending = none)
      ∧ (({ spanGateway with pending := some { cue := .step, origin := .request } } : Gateway).pending ≠ none
        ∧ Origin.request ≠ .press ∧ Origin.release ≠ .press)
      ∧ ((edging .pressed spanGateway).pedal 1).level = some .pressed
      ∧ (Gateway.pedalReset.type = .moment ∧ spanGateway.type = .span ∧ spanGateway.release ≠ none)
      ∧ (({ spanGateway with pending := some { cue := .hold, origin := .press } } : Gateway).pending
          = some { cue := .hold, origin := .press }
        ∧ ({ spanGateway with release := none } : Gateway).release = none)
      ∧ (let s := small.setPedal 1 { PedalLine.reset with level := some .pressed, stuck := 1439999 }
        (s.pedal 1).level = some .pressed ∧ (s.pedal 1).stuckMark = false
          ∧ s.config.stuckLimit * 48000 ≤ min 5760000 ((s.pedal 1).stuck + 1))
      ∧ (Gateway.pedalReset.enabled = false ∧ spanGateway.stuckClose = true
        ∧ ({ spanGateway with stuckClose := false } : Gateway).stuckClose = false) := by decide

/-- A line with no level yet; one that agrees with its pin; one in its 383rd and in its 384th frame that differs;
the stuck timer one short of the limit and not yet, and a mark already set. -/
theorem test_met_PedalsTaken_frames :
    let line := fun (level : PedalLevel) (n stuck : Nat) (mark : Bool) =>
      ({ level := some level, debounce := n, stuck := stuck, stuckMark := mark } : PedalLine)
    (¬PedalEdges true PedalLine.reset ∧ ¬PedalEdges true (line .released 383 0 false)
        ∧ ¬PedalEdges false (line .released 382 0 false))
      ∧ (PedalEdges false (line .released 383 0 false) ∧ PedalEdges true (line .pressed 383 9 true))
      ∧ PedalJudged 30 false (line .pressed 0 1439999 false)
      ∧ (¬PedalJudged 30 false (line .pressed 0 1439998 false)
        ∧ ¬PedalJudged 30 false (line .pressed 0 1439999 true)) := by
  refine ⟨⟨?_, ?_, ?_⟩, ⟨⟨_, rfl, by decide⟩, ⟨_, rfl, by decide⟩⟩, ⟨rfl, rfl⟩, ?_, ?_⟩
  · rintro ⟨l, h, -⟩; cases h
  · rintro ⟨l, h, n, -⟩; cases h; exact n rfl
  · rintro ⟨l, h, -, n⟩; cases h; exact absurd n (by decide)
  · rintro ⟨-, h⟩; exact absurd h (by decide)
  · rintro ⟨h, -⟩; cases h

/-- R130, R132: the first sample sets the level, and the 384th that differs changes it. -/
theorem test_pedalWork :
    ((pedalWork 30 0 { small with pedalPins := Vector.replicate 4 false }).pedal 0).level = some .pressed
      ∧ ((pedalWork 30 1 { edging .pressed spanGateway with pedalPins := Vector.replicate 4 true }).pedal 1).level
        = some .released := by decide

/-- Chapter 8, Example: a hold withdrawn counts two drops and leaves the slot empty. -/
theorem test_hold_withdrawn :
    let s := { edging .pressed { spanGateway with pending := some { cue := .hold, origin := .press } } with
      counters := State.reset.counters.set 0 { count := 0, selector := 8, inhibit := false } }
    seen (fun t => (t.counters[0].count, (t.gateway 1).pending)) (exec (.pedalEdge 1) s)
      = some (2, none) := by decide +kernel

/-- Two entries of lead A at the held count and later, with G6 free, and G6 occupied. -/
def queued (mark : Bool) : State :=
  { small with timed := [⟨1000, .a, .hold, mark⟩, ⟨1005, .b, .step, false⟩] }

theorem test_met_TimedCueHandedOver :
    ((queued false).resetLow = false
        ∧ (queued false).timed = [] ++ ⟨1000, .a, .hold, false⟩ :: [⟨1005, .b, .step, false⟩])
      ∧ ((0 : Fin 16).val = ([] : List TimedEntry).length ∧ (1000 : Word32) = (queued false).ltu.count)
      ∧ (((queued false).gateway 6).enabled = true ∧ ((queued false).gateway 6).pending = none)
      ∧ ((gated 6 { Gateway.fixedReset .a with
          pending := some { cue := .step, origin := .queue } }).gateway 6).pending ≠ none
      ∧ (queued true).timed = [] ++ ⟨1000, .a, .hold, true⟩ :: [⟨1005, .b, .step, false⟩]
      ∧ (∀ x ∈ small.timed, x.lead ≠ .a) := by decide

theorem test_timedHandoff :
    seen (fun t => ((t.gateway 6).pending, t.timed.length)) (exec (.timedHandoff .a) (queued true))
      = some (some { cue := .hold, origin := .queue }, 1) := by decide

/-! ### Faults and the lane -/

/-- A masked, a set and a clear kind; room at 7 messages and 6 notices, none at 8 or at 7. -/
theorem test_met_OccurrenceTaken :
    ((recorded .linkLoss { FaultRecord.reset with detectMask := true }).fault .linkLoss).detectMask = true
      ∧ ((recorded .linkLoss { FaultRecord.reset with status := true }).fault .linkLoss).status = true
      ∧ ((recorded .linkLoss { FaultRecord.reset with severity := .mute }).fault .linkLoss).severity = .mute
      ∧ ((recorded .linkLoss { FaultRecord.reset with reportMask := true }).fault .linkLoss).reportMask = true
      ∧ ((small.fault .linkLoss).detectMask = false ∧ (small.fault .linkLoss).status = false
        ∧ (small.fault .linkLoss).severity = .notice ∧ (small.fault .linkLoss).reportMask = false)
      ∧ ((aReply :: List.replicate 6 aNotice).length < 8
        ∧ (aReply :: List.replicate 6 aNotice).countP OutItem.isNotice < 7)
      ∧ 8 ≤ (List.replicate 8 aReply).length
      ∧ 7 ≤ (List.replicate 7 aNotice).countP OutItem.isNotice
      ∧ FaultKind.linkLoss ≠ .noticeDrop ∧ (small.fault .noticeDrop).detectMask = false
      ∧ ([0, 3] : List VoiceId).Nodup := by decide

/-- The scopes by voice: V0 of lead A sounds and V1 is OFF. -/
theorem test_scopes :
    (∀ v, voiceInScope .none (singing sounding) v = false)
      ∧ [Scope.device, .lead .a, .lead .b, .voices [0, 3] 5].map
        (fun sc => inScope sc (singing sounding)) = [[0], [0], [], [0, 3]] := by decide

/-- Voices by state, at envelope 0 and above it. -/
theorem test_met_OccurrenceTaken_mutes :
    Voice.reset.state = .off ∧ ({ sounding with state := .idle } : Voice).state = .idle
      ∧ (sounding.state = .sounding ∧ sounding.envelope ≠ 0)
      ∧ (({ sounding with state := .rising, envelope := 0 } : Voice).state = .rising
        ∧ ({ sounding with state := .rising, envelope := 0 } : Voice).envelope = 0)
      ∧ ({ sounding with state := .falling } : Voice).state = .falling
      ∧ ({ sounding with state := .muted } : Voice).state = .muted := by decide

/-- The small state with a message of `n` bytes at the relay FIFO's head and a sender. -/
def relaying (n : Nat) (sender : Sender) : State :=
  { small with fifo := [List.replicate n 1], sender := sender }

/-- Messages of the shortest START, of one more MORE frame, and of exactly one LAST frame; the same in the
outbound queue; the ninth gap frame. -/
theorem test_met_LaneEvents :
    ((relaying 7 .none).resetLow = false ∧ (relaying 7 .none).ltu.link.running = true
        ∧ (relaying 7 .none).fifo = List.replicate 7 1 :: [] ∧ (relaying 7 .none).sender = .none
        ∧ 2 ≤ (List.replicate 7 (1 : Byte)).length)
      ∧ (0 < 7 ∧ (relaying 15 (.fifo 7)).sender = .fifo 7 ∧ 7 + 7 < (List.replicate 15 (1 : Byte)).length)
      ∧ (List.replicate 14 (1 : Byte)).length ≤ 7 + 7
      ∧ (({ small with outq := [aReply] } : State).outq = aReply :: []
        ∧ ({ small with outq := [aNotice] } : State).fifo = [])
      ∧ (({ small with outq := [aReply], sender := .queue 6 } : State).sender = .queue 6
        ∧ (messageBytes (noticeMessage small 0x40 [])).length ≤ 6 + 7)
      ∧ 6 + 7 < (messageBytes (noticeMessage small 0x40 (List.replicate 7 0))).length
      ∧ (({ small with assembly := some { bytes := [63], gap := 8, route := .consume } } : State).assembly
          = some { bytes := [63], gap := 8, route := .consume }
        ∧ (small.fault .ctrlRunon).detectMask = false) := by decide

/-- Good frames for each choice of the out lane: a START that begins a cut-through and one that is consumed; a
free lane with a FIFO head, a queue head and nothing; each sender in the midst of a message and at its last
piece; and a frame that stays silent. -/
theorem test_met_LaneEvents_frames :
    let lane := fun bytes => decodeLane (laneBytes (frameOf true 1001 bytes))
    let cut : State :=
      { small with assembly := some { bytes := [20, 5], gap := 7, route := .relay .cut }, sender := .cut }
    (isFrame (frameOf true 1001 idleLane) = true ∧ frameGood (frameOf true 1001 idleLane) = true
        ∧ OutItem.reservation ∉ ({ small with outq := [aReply] } : State).outq)
      ∧ ((∃ a, (assemble (.start [20]) small).state.assembly = some a ∧ a.route = .relay .cut)
        ∧ (¬∃ a, (assemble (.start [12]) small).state.assembly = some a
          ∧ (a.route = .relay .cut ∨ a.route = .consumeAndRelay .cut)) ∧ small.sender = .none)
      ∧ ((assemble (lane idleLane) (relaying 7 .none)).state.fifo = List.replicate 7 1 :: []
        ∧ (assemble (lane idleLane) small).state.fifo = [] ∧ aReply.bytes ≠ none ∧ small.outq = [])
      ∧ ((nextPiece (List.replicate 15 1) 7).2 = some 14 ∧ (nextPiece (List.replicate 14 1) 7).2 = none)
      ∧ RelaysMessage (lane idleLane) (relaying 14 (.fifo 7)) (relaying 14 (.fifo 7))
      ∧ RelaysMessage (.last [1]) cut (assemble (.last [1]) cut).state
      ∧ ¬RelaysMessage (lane idleLane) cut (assemble .idle cut).state
      ∧ (cut.assembly ≠ none ∧ (assemble .idle cut).state.sender = .cut
        ∧ (assemble (.start [12]) cut).state.sender ≠ .cut)
      ∧ (∀ k, (({ small with faults := Vector.replicate 13 { FaultRecord.reset with reportMask := true } } :
            State).fault k).reportMask = true)
      ∧ (assemble (lane idleLane) small).request = none := by
  refine ⟨⟨frameOf_isFrame _ _, frameOf_true_good _, by decide⟩,
    ⟨⟨_, rfl, rfl⟩, ?_, rfl⟩, by decide +kernel, by decide,
    Or.inr ⟨7, _, [], rfl, rfl, by decide⟩, Or.inl ⟨rfl, by decide, _, rfl⟩, ?_, by decide, ?_,
    by decide +kernel⟩
  · rintro ⟨a, h, n⟩; cases h; exact absurd n (by decide)
  · rintro (⟨-, -, m, h⟩ | ⟨k, m, rest, h, -⟩)
    · exact absurd (show LaneIn.idle = .last m from h) nofun
    · cases h
  · intro k; cases k <;> rfl

theorem test_fifoSend_last :
    seen (fun t => (t.fifo, t.laneOut)) (exec .fifoSend (relaying 14 (.fifo 7)))
      = some ([], [0x37, 1, 1, 1, 1, 1, 1, 1]) := by decide

theorem test_gapLimit :
    seen (fun t => (t.assembly, (t.fault .ctrlRunon).status))
        (exec .gapLimit { small with assembly := some { bytes := [63], gap := 8, route := .consume } })
      = some (none, true) := by decide

/-- An empty body and the longest, for a message to this node. -/
theorem test_met_LaneRoundTrip :
    small.assembly = none ∧ (List.replicate 96 (0 : Byte)).length ≤ 96 ∧ ([] : List Byte).length ≤ 96
      ∧ (12 : Byte) = small.nodeAddr := by decide

/-- The broadcast address; a free and a full FIFO; each lane frame with a message under assembly: 103 bytes
and 104, the gap one short of 9 frames and at 8, a message that is well formed and one that is not. -/
theorem test_met_LaneRoundTrip_frames :
    let held : Assembly := { bytes := List.replicate 96 20, gap := 7, route := .relay .capture }
    (63 : Byte) ≠ small.nodeAddr
      ∧ (2 ≤ ({ small with fifo := [[1], [2]] } : State).fifo.length ∧ small.fifo.length < 2)
      ∧ ((20 : Byte) ≠ small.nodeAddr ∧ small.assembly = none)
      ∧ ({ small with assembly := some held } : State).assembly = some held
      ∧ (held.gap < 8 ∧ 8 ≤ ({ held with gap := 8 } : Assembly).gap)
      ∧ ((held.bytes ++ List.replicate 7 0).length ≤ 103
        ∧ 103 < (held.bytes ++ List.replicate 8 0).length)
      ∧ messageOk (messageBytes (noticeMessage small 0x40 [])) = true
      ∧ messageOk (held.bytes ++ [0]) = false := by decide +kernel

/-! ### Requests -/

/-- Samples at the ends of their range; lane markers of every sort at both ends of the count; the longest bytes
of a lane frame. -/
theorem test_met_RequestKindsRoundTrip_formats :
    ((-8388608 : Int) ≤ -8388608 ∧ (8388607 : Int) ≤ 8388607)
      ∧ ([0x10, 0x18, 0x07, 0x41] : List Byte).map (fun m => decodeLane [m, 1, 2, 3, 4, 5, 6, 7])
        = List.replicate 4 .idle
      ∧ ([0x11, 0x27, 0x31] : List Byte).map (fun m => decodeLane [m, 1, 2, 3, 4, 5, 6, 7])
        = [.start [1], .more [1, 2, 3, 4, 5, 6, 7], .last [1]]
      ∧ (List.replicate 7 (0 : Byte)).length ≤ 7 := by decide

theorem test_met_RequestKindsRoundTrip :
    WellFormed (.cueNow (tell [0, 1, 0, 0])) = true
      ∧ messageOf (.cueNow (tell [0, 1, 0, 0])) = some (0x0A, tell [0, 1, 0, 0])
      ∧ kindOfByte 0x15 = some .engineReset ∧ kindByte .engineReset = kindByte .engineReset := by decide

/-- READ_CONFIG from node 5, tag 9, of seven bytes, as a message to a destination. -/
def asking (dest : Byte) : List Byte :=
  messageBytes { dest := dest, source := 5, kind := 0x04, tag := 9, body := [] }

/-- The small state with the first six bytes of that message gathered, by a route; its lines as their pins. -/
def gathering (dest : Byte) (route : Route) : State :=
  { small with
    assembly := some { bytes := (asking dest).take 6, gap := 0, route := route }
    pedals := Vector.replicate 4 { PedalLine.reset with level := some .released } }

/-- The frame of the LAST. -/
def lastFrame (dest : Byte) : List Byte := frameOf true 1001 (encodeLane 3 ((asking dest).drop 6))

/-- A broadcast; a LAST that completes a message for this node, for all and for another, with a free queue, a
full one, and nothing else to do in the frame. -/
theorem test_met_RequestsExecuted :
    (small.resetLow = false ∧ ({ tell [] with broadcast := true } : Req).broadcast = true)
      ∧ (isFrame (lastFrame 12) = true ∧ frameGood (lastFrame 12) = true)
      ∧ decodeLane (laneBytes (lastFrame 12)) = .last ((asking 12).drop 6)
      ∧ (messageOk (asking 12) = true ∧ (asking 12).take 6 ++ (asking 12).drop 6 = asking 12
        ∧ (asking 12).length ≤ 103 ∧ kindOfByte (byteAt (asking 12) 2) ≠ some .counterSetup)
      ∧ ((gathering 12 .consume).outq.length < 8 ∧ OutItem.reservation ∉ (gathering 12 .consume).outq)
      ∧ (∀ k, (gathering 12 .consume).sender ≠ .queue k)
      ∧ (∀ dest route, ∃ a, (gathering dest route).assembly = some a ∧ a.route = route)
      ∧ (messageOk (asking 63) = true ∧ messageOk (asking 20) = true)
      ∧ 8 ≤ ({ gathering 12 .consume with outq := List.replicate 8 aReply } : State).outq.length
      ∧ (frameCount (lastFrame 12) = (gathering 12 .consume).ltu.count + 1
        ∧ (frameCount (lastFrame 12)).toNat % 64 ≠ 63)
      ∧ ((gathering 12 .consume).timed = [] ∧ (gathering 12 .consume).fifo = []
        ∧ (∀ v, ((gathering 12 .consume).voice v).runs = false)
        ∧ 1 ≤ (gathering 12 .consume).config.stuckLimit)
      ∧ ∀ l : LineId, ((gathering 12 .consume).pedal l).level
          = some (pinLevel (Vector.replicate 4 true : PedalPins)[l])
        ∧ ¬PedalJudged (gathering 12 .consume).config.stuckLimit (Vector.replicate 4 true : PedalPins)[l]
          ((gathering 12 .consume).pedal l) := by
  unfold PedalJudged
  exact ⟨by decide, ⟨rfl, outFrame_good _ rfl⟩, rfl, by decide +kernel, by decide, fun k h => (by cases h),
    fun _ _ => ⟨_, rfl, rfl⟩, by decide +kernel, by decide, by decide +kernel, by decide, by decide⟩

theorem test_met_FullQueueDropsRequest :
    ({ small with outq := List.replicate 8 aReply } : State).resetLow = false
      ∧ (tell []).broadcast = false
      ∧ 8 ≤ ({ small with outq := List.replicate 8 aReply } : State).outq.length
      ∧ (small.fault .requestDrop).detectMask = false
      ∧ (small.counters[(0 : Fin 4)]).selector ≠ 13 := by decide

theorem test_full_queue_drops :
    seen (fun t => ((t.fault .requestDrop).status, t.outq.length))
        (exec (.identify (tell [])) { small with outq := List.replicate 8 aReply })
      = some (true, 8) := by decide

/-- An unknown kind, a known kind with another length, and a refusal of each of the three sorts: a plain one,
a commit's and a timed cue's. -/
theorem test_met_RefusalsChangeNothing :
    Answerable (tell []) small ∧ kindOfByte 0x16 = none ∧ kindOfByte 0x02 = some .readCap
      ∧ bodyLengthOk .readCap (tell []).body.length = false
      ∧ (executeKind 0x02 (tell [6]) small).status ≠ .done
      ∧ ((executeKind 0x07 (tell []) small).status ≠ .done ∧ kindOfByte 0x07 = some .loadCommit)
      ∧ ((executeKind 0x0B (tell [0, 0, 0, 0, 2, 1, 0, 0]) small).status ≠ .done
        ∧ kindOfByte 0x0B = some .cueAt) :=
  ⟨tell_answerable _, by decide⟩

theorem test_met_IdentityChain :
    Answerable (tell []) small ∧ (tell []).body = []
      ∧ Answerable (tell [5]) small ∧ (tell [5]).body = [5]
      ∧ Answerable (tell [6]) small ∧ (tell [6]).body = [6] ∧ 6 ≤ (6 : Byte).toNat
      ∧ Answerable (tell [0]) small ∧ (tell [0]).body = [0] ∧ (0 : Byte).toNat = 0 :=
  ⟨tell_answerable _, rfl, tell_answerable _, rfl, tell_answerable _, rfl, by decide,
    tell_answerable _, rfl, by decide⟩

theorem test_identity :
    replied (exec (.readCap (tell [1])) small) = some (0x40, [1, 2, 0x1D, 0x3A, 0x04, 0x28, 1, 12]) := by
  decide

/-- A body past each bound by one, one at each bound, and one that meets a voice's slot. -/
theorem test_met_ConfigureStores :
    Answerable (tell [7, 23, 23, 1, 1, 0xFF, 0xFF, 0, 31, 31]) small
      ∧ (tell [7, 23, 23, 1, 1, 0xFF, 0xFF, 0, 31, 31]).body.length = 10
      ∧ ((7 : Byte).getLsbD 0 = true ∧ (23 : Byte).toNat < 24 ∧ (1 : Byte).toNat ≤ 1
        ∧ (31 : Byte).toNat < 32)
      ∧ (24 ≤ (24 : Byte).toNat ∧ 1 < (2 : Byte).toNat ∧ 32 ≤ (32 : Byte).toNat)
      ∧ (((singing sounding).voice 0).state ≠ .off
        ∧ ((singing sounding).voice 0).part = some { column := 1, slot := 5, level := 100, detune := 0 }) :=
  ⟨tell_answerable _, by decide⟩

theorem test_configure :
    seen (fun t => (t.config.lateWindow, t.config.stuckLimit, t.config.slotA))
        (exec (.configure (tell [7, 23, 22, 1, 1, 0xFF, 0xFF, 0, 31, 31])) small) = some (4800, 1, 23)
      ∧ replied (exec (.configure (tell [0, 5, 0, 0, 0, 0, 0, 9, 0, 0])) (singing sounding))
        = some (0x43, []) := by decide

theorem test_met_ConfigAndTablesRead :
    Answerable (tell []) small ∧ (tell []).body = []
      ∧ Answerable (tell [2, 31, 0, 15, 96]) small
      ∧ (tell [2, 31, 0, 15, 96]).body = [2, 31, 0, 15, 96]
      ∧ ((96 : Byte).toNat ≤ 96 ∧ 96 < (97 : Byte).toNat ∧ (31 : Byte).toNat = (31 : Fin 32).val
        ∧ 32 ≤ (32 : Byte).toNat ∧ 16 ≤ (16 : Byte).toNat ∧ 2 ≤ (2 : Byte).toNat ∧ 2 < (3 : Byte).toNat) :=
  ⟨tell_answerable _, rfl, tell_answerable _, rfl, by decide⟩

/-- The empty scene of 16 bytes, read from its last byte and from past it. -/
theorem test_readTable :
    replied (exec (.readTable (tell [2, 31, 0, 15, 96])) small) = some (0x40, [0])
      ∧ replied (exec (.readTable (tell [2, 31, 0, 16, 96])) small) = some (0x42, []) := by decide

/-- A state whose picture fields stand at the ends of their ranges. -/
theorem test_met_StateRead :
    Answerable (tell []) small ∧ (tell []).body = []
      ∧ ((small.lead .a).note = .silent ∧ (small.lead .a).scene = none ∧ (small.lead .a).transition = none)
      ∧ ((harmonised.lead .a).note = .voiced 57 ∧ 57 ≤ 127 ∧ (harmonised.lead .a).estimate ≤ 10240
        ∧ (harmonised.lead .a).confidence ≤ 255)
      ∧ ((small.setLead .a { LeadChannel.reset with scene := some 31 }).lead .a).scene = some 31
      ∧ ((small.setLead .a { LeadChannel.reset with
          transition := some { level := 15, kind := .resume } }).lead .a).transition
        = some { level := 15, kind := .resume }
      ∧ ((singing sounding).voice 0).envelope ≤ 4096
      ∧ (4096 ≤ sounding.currentStep ∧ sounding.currentStep ≤ 65536)
      ∧ (0 ≤ sounding.distance ∧ sounding.distance < 65536 * 16384) :=
  ⟨tell_answerable _, rfl, by decide⟩

theorem test_met_FaultsAndCountersRead :
    Answerable (tell []) small ∧ (tell []).body = []
      ∧ ((countEvent .accepted small).counters[(0 : Fin 4)]).selector ≤ 14 :=
  ⟨tell_answerable _, rfl, by decide +kernel⟩

theorem test_readFaults :
    replied (exec (.readFaults (tell [])) { recorded .outputClip
        { status := true, detectMask := false, reportMask := true, severity := .mute } with
          pointer := some .outputClip })
      = some (0x40, [0, 0, 0, 0, 0, 0, 0, 0, 0, 0, 0, 0, 13, 140]) := by decide

/-- A lead whose scene names tuning table 1 and map 3, with an open load of 500 bytes for it. -/
def loading (t : LoadTarget) (n : Nat) : State :=
  { small.setLead .a { LeadChannel.reset with history := [], scene := some 2, map := 3 } with
    load := some { target := t, buffer := List.replicate n 0 }
    scenes := State.reset.scenes.set 2 { Scene.empty with tuning := 1 } }

/-- Loads closed and open; 12 and 13 more bytes on 500; targets in use and free. -/
theorem test_met_LoadsTaken :
    Answerable (tell [0, 1]) small ∧ (tell [0, 1]).body = [0, 1] ∧ (1 : Byte).toNat = (1 : Fin 2).val
      ∧ (2 < (3 : Byte).toNat ∧ 2 ≤ (2 : Byte).toNat ∧ 16 ≤ (16 : Byte).toNat ∧ 32 ≤ (32 : Byte).toNat)
      ∧ small.load = none
      ∧ ((loading (.map 3) 500).load = some { target := .map 3, buffer := List.replicate 500 0 }
        ∧ 512 < (List.replicate 500 (0 : Byte)).length + (List.replicate 13 (0 : Byte)).length
        ∧ (List.replicate 500 (0 : Byte)).length + (List.replicate 12 (0 : Byte)).length ≤ 512)
      ∧ (((loading (.map 3) 500).lead .a).scene = some 2 ∧ ((loading (.map 3) 500).lead .a).map = 3
        ∧ (loading (.tuning 1) 0).scenes[(2 : Fin 32)].tuning = 1)
      ∧ (((loading (.map 4) 48).lead .a).map ≠ 4 ∧ ((loading (.map 4) 48).lead .b).scene = none) :=
  ⟨tell_answerable _, rfl, by decide +kernel⟩

theorem test_loadCommit :
    replied (exec (.loadCommit (tell [])) (loading (.map 3) 48)) = some (0x43, [])
      ∧ replied (exec (.loadCommit (tell [])) (loading (.map 4) 47)) = some (0x44, [])
      ∧ seen (fun t => (t.load, t.maps[(4 : Fin 16)])) (exec (.loadCommit (tell [])) (loading (.map 4) 48))
        = some (none, List.replicate 48 (some 0)) := by decide

/-- Records at the ends of their ranges. -/
theorem test_met_RecordsReadBack :
    TuningOk exampleTable ∧ MapOk (List.replicate 48 (some 24))
      ∧ SceneOk staged.scenes[(2 : Fin 32)]
      ∧ (({ ConfigRecord.reset with lateWindow := 4800, stuckLimit := 120 } : ConfigRecord).lateWindow ≤ 4800
        ∧ 1 ≤ (120 : Nat) ∧ (120 : Nat) ≤ 120)
      ∧ tuningOfBytes (bytesOfTuning exampleTable) = some exampleTable
      ∧ mapOfBytes (List.replicate 48 0x7F) = some (List.replicate 48 (some 24))
      ∧ (sceneOfBytes (bytesOfScene Scene.empty)).isSome = true :=
  ⟨⟨by decide, by decide⟩,
    ⟨by decide, fun i h => by
      have := List.eq_of_mem_replicate h
      cases this
      decide⟩,
    by unfold SceneOk; decide, by decide⟩

/-- A load buffer of a scene: entry count, byte 1, map, key and next scene bytes, and entries. -/
def sceneBuffer (n bits map key next : Byte) (entries : List Byte) : List Byte :=
  [n, bits, 1, map, key, 0, 0, 0, 0, 0, 0, 0, 17, 0xFF, 0xFF, next] ++ entries

/-- Buffers that each refusal of a scene meets, by one past its bound. -/
theorem test_met_RecordsReadBack_refused :
    [sceneBuffer 5 0 0 0 0 [], sceneBuffer 1 0 0 0 0 [], sceneBuffer 0 4 16 0 0 [],
      sceneBuffer 0 2 0 12 0 [], sceneBuffer 0 1 0 0 32 [], sceneBuffer 1 0 0 0 0 [0x80, 0, 0, 0, 0],
      sceneBuffer 1 0 0 0 0 [0x74, 0, 0, 0, 0], sceneBuffer 1 0 0 0 0 [0x73, 24, 0, 0, 0],
      sceneBuffer 2 0 0 0 0 [0x70, 2, 0, 0, 0, 0x73, 3, 0, 0, 0]].all
      (fun bs => (sceneOfBytes bs).isNone) = true := by decide

/-- R112: a buffer at every bound is read, and its musical fields are clamped. -/
theorem test_scene_clamped :
    let c := sceneOfBytes (sceneBuffer 1 0x57 15 11 31 [0x73, 23, 200, 0xFE, 0xFF])
    c.map (fun c => [c.gate, c.weight, c.glide, c.fade]) = some [1, 16, 4096, 4096]
      ∧ c.map (fun c => c.entries.map fun e => (e.part.level, e.part.detune)) = some [(128, -256)] := by
  decide

/-- R189: the bytes of a scene and of a tuning table that were never loaded. -/
theorem test_never_loaded :
    bytesOfScene Scene.empty = [0, 0x20, 0, 0, 0, 0, 4, 0, 128, 16, 8, 8, 0, 0, 0, 0]
      ∧ bytesOfTuning [] = [0] := by decide

/-- A bad lead, a bad cue, a disabled gateway, an empty and an occupied one; both port leads. -/
theorem test_met_CueNowAndPortSet :
    Answerable (tell [1, 3, 0, 0]) small ∧ (tell [1, 3, 0, 0]).body = [1, 3, 0, 0]
      ∧ (2 ≤ (2 : Byte).toNat ∧ cueOfBytes 7 0 0 = none ∧ cueOfBytes 3 0 0 = some .hold)
      ∧ ((gated 5 { Gateway.fixedReset .b with enabled := false }).gateway 5).enabled = false
      ∧ ((small.gateway 5).enabled = true ∧ (small.gateway 5).pending = none)
      ∧ ((gated 5 { Gateway.fixedReset .b with
          pending := some { cue := .step, origin := .request } }).gateway 5).pending ≠ none
      ∧ Answerable (tell [1, 0xFF]) small ∧ (tell [1, 0xFF]).body = [1, 0xFF] :=
  ⟨tell_answerable _, rfl, by decide, by decide, by decide,
    by decide, tell_answerable [1, 0xFF], rfl⟩

theorem test_portSet :
    seen (fun t => (t.thresholdA, t.thresholdB)) (exec (.portSet (tell [1, 0xFF])) small)
      = some (0, 15) := by decide

theorem test_met_CueFlushed :
    Answerable (tell [0]) small ∧ (tell [0]).body = [0] ∧ 2 ≤ (2 : Byte).toNat := 
  ⟨tell_answerable _, rfl, by decide⟩

theorem test_cueFlush :
    seen (fun t => t.timed.map TimedEntry.lead) (exec (.cueFlush (tell [0])) (queued false))
      = some [.b] := by decide

/-- The held count is 1,000 and the window 480. Differences of 1 and 2²⁴, 0 and −480, −481, past the horizon;
15 and 16 entries; DROP and APPLY; a closed gateway. -/
theorem test_met_CueAtJudged :
    Answerable (tell [0, 0, 3, 0xE9, 0, 3, 0, 0]) small
      ∧ (tell [0, 0, 3, 0xE9, 0, 3, 0, 0]).body = [0, 0, 3, 0xE9, 0, 3, 0, 0]
      ∧ cueOfBytes 3 0 0 = some .hold
      ∧ serialDiff small.ltu.count (num4 0 0 3 0xE9) = 1
      ∧ serialDiff small.ltu.count (num4 1 0 3 0xE8) = 16777216
      ∧ 16777216 < serialDiff small.ltu.count (num4 1 0 3 0xE9)
      ∧ serialDiff small.ltu.count (num4 0 0 3 0xE8) = 0
      ∧ serialDiff small.ltu.count (num4 0 0 2 8) = -(small.config.lateWindow : Int)
      ∧ serialDiff small.ltu.count (num4 0 0 2 7) < -(small.config.lateWindow : Int)
      ∧ small.config.latePolicy = .apply
      ∧ ({ small with config := { ConfigRecord.reset with latePolicy := .drop } } : State).config.latePolicy
        = .drop
      ∧ ({ small with timed := List.replicate 15 ⟨1001, .b, .hold, false⟩ } : State).timed.length < 16
      ∧ 16 ≤ ({ small with timed := List.replicate 16 ⟨1001, .b, .hold, false⟩ } : State).timed.length
      ∧ ((small.gateway 6).enabled = true
        ∧ ((gated 6 { Gateway.fixedReset .a with enabled := false }).gateway 6).enabled = false)
      ∧ ((small.fault .cueLate).detectMask = false ∧ (small.fault .cueOverflow).detectMask = false) :=
  ⟨tell_answerable _, rfl, by decide⟩

/-- One past the late window under DROP is refused LATE; at the window it is due now and handed over. -/
theorem test_cueAt_late :
    replied (exec (.cueAt (tell [0, 0, 2, 7, 0, 3, 0, 0]))
        { small with config := { ConfigRecord.reset with latePolicy := .drop } }) = some (0x47, [])
      ∧ seen (fun t => (t.gateway 6).pending) (exec (.cueAt (tell [0, 0, 2, 8, 0, 3, 0, 0])) small)
        = some (some { cue := .hold, origin := .queue }) := by decide

/-- Gateway 8; a pedal gateway with a bad lead or a bad carried cue, and one with both cues; G6 and G7. -/
theorem test_met_GatewaySetStored :
    Answerable (tell [3, 0x1B, 20, 1, 3, 0, 0, 4, 0, 0]) small
      ∧ (tell [3, 0x1B, 20, 1, 3, 0, 0, 4, 0, 0]).body.length = 10
      ∧ (8 ≤ (8 : Byte).toNat ∧ (3 : Byte).toNat = (3 : Fin 8).val ∧ (3 : Fin 8).val < 4
        ∧ 4 ≤ (6 : Fin 8).val ∧ (7 : Byte).toNat = (7 : Fin 8).val)
      ∧ ((0x1B : Byte).getLsbD 3 = true ∧ (0x1B : Byte).getLsbD 4 = true ∧ 2 ≤ (2 : Byte).toNat
        ∧ cueOfBytes 7 0 0 = none ∧ cueOfBytes 3 0 0 = some .hold ∧ cueOfBytes 4 0 0 = some .release
        ∧ (0 : Byte).getLsbD 3 = false) :=
  ⟨tell_answerable _, by decide⟩

theorem test_gatewaySet :
    seen (fun t => t.gateway 3) (exec (.gatewaySet (tell [3, 0x1B, 20, 1, 3, 0, 0, 4, 0, 0])) small)
      = some
        { enabled := true, priority := 15, lead := .b, type := .span, press := some .hold
          release := some .release, stuckClose := false, pending := none } := by decide

/-- Codes 0 to 12 are nameable and 13 is not; a voice with a kind that is named and one that is not. -/
theorem test_met_FaultsClearedAndSet :
    Answerable (tell [0x1F, 0xFF]) small ∧ (tell [0x1F, 0xFF]).body = [0x1F, 0xFF]
      ∧ ((0x1F : Byte).toNat < 32 ∧ 32 ≤ (0x20 : Byte).toNat ∧ (1 : Byte).toNat < 2 ∧ 2 ≤ (2 : Byte).toNat)
      ∧ Answerable (tell [0x1F, 0xFF, 1, 1, 1]) small
      ∧ (tell [0x1F, 0xFF, 1, 1, 1]).body = [0x1F, 0xFF, 1, 1, 1]
      ∧ VoiceOk { fallen .muted false none with faults := [.linkLoss] }
      ∧ VoiceOk { sounding with state := .muted, envelope := 0, faults := [.linkLoss, .cueLate] }
      ∧ (∃ k ∈ [FaultKind.linkLoss, .cueLate], k ∉ [FaultKind.linkLoss])
      ∧ (∀ k ∈ [FaultKind.linkLoss], k ∈ [FaultKind.linkLoss]) :=
  ⟨tell_answerable _, rfl, by decide, tell_answerable _, rfl,
    by constructor <;> decide, by constructor <;> decide, by decide, by decide⟩

theorem test_faultClear_unmutes :
    seen (fun t => ((t.voice 0).state, (t.fault .linkLoss).status)) (exec (.faultClear (tell [0, 0x20]))
        ((recorded .linkLoss { FaultRecord.reset with status := true }).setVoice 0
          { sounding with state := .muted, envelope := 0, faults := [.linkLoss] }))
      = some (.idle, false) := by decide +kernel

theorem test_met_CounterStored :
    Answerable (tell [3, 14, 3]) small ∧ (tell [3, 14, 3]).body = [3, 14, 3]
      ∧ (3 : Byte).toNat = (3 : Fin 4).val ∧ (0 : Fin 4) ≠ 3 ∧ 4 ≤ (4 : Byte).toNat :=
  ⟨tell_answerable _, rfl, by decide⟩

theorem test_counterSetup :
    seen (fun t => t.counters[(3 : Fin 4)]) (exec (.counterSetup (tell [3, 15, 1])) small)
      = some { count := 0, selector := 0, inhibit := true } := by decide +kernel

theorem test_met_EngineResetTaken :
    Answerable (tell []) small ∧ (tell []).body = [] := ⟨tell_answerable _, rfl⟩

/-- The states the request clauses are met in are answerable as well. -/
theorem test_answerable_states (body : List Byte) :
    Answerable (tell body) (singing sounding) ∧ Answerable (tell body) (queued false)
      ∧ Answerable (tell body) (loading (.map 3) 500) ∧ Answerable (tell body) harmonised
      ∧ Answerable (tell body) (gated 5 { Gateway.fixedReset .b with enabled := false })
      ∧ Answerable (tell body) (gated 6 { Gateway.fixedReset .a with enabled := false }) :=
  by refine ⟨?_, ?_, ?_, ?_, ?_, ?_⟩ <;> exact tell_answerable_of _ _ rfl rfl

/-! ### Single steps -/

theorem test_phantomFrame :
    seen (fun t => (t.ltu.count, t.linkOut)) (exec (.phantomFrame (Vector.replicate 4 true))
      (linked .holdover 100 0 0)) = some (1001, none) := by decide

/-- R20: FRAME_START at tick 0, then PHANTOM_FRAME: 512 ticks have passed since the start. A loss by silence
discards the frame in hand (R26). -/
theorem test_receiver_note :
    ((after (exec .frameStart (linked .holdover 0 0 0))).bind fun t =>
        seen (fun u => u.receiver.sinceStart) (exec (.phantomFrame (Vector.replicate 4 true)) t))
        = some (some 512)
      ∧ ((after (exec .frameStart (linked .locked 0 16 0))).bind fun t =>
        seen (fun u => u.receiver.sinceStart) (exec (.lossBySilence (Vector.replicate 4 true)) t))
        = some none := by decide

theorem test_lockAchieved :
    seen (fun t => (t.ltu.link, t.ltu.goodRun)) (exec .lockAchieved (linked .relocking 0 15 0))
      = some (.locked, 16) := by decide

theorem test_lossByBadFrames :
    seen (fun t => (t.ltu.link, t.ltu.count, (t.fault .linkLoss).status, t.outq.length))
      (exec .lossByBadFrames (linked .locked 0 16 7)) = some (.holdover, 1000, true, 1) := by
  decide

theorem test_idle_tick :
    seen (fun t => t.ltu.tick) (step (linked .locked 2046 16 0)) = some 2047
      ∧ seen (fun t => (t.ltu.link, t.ltu.count, t.ltu.tick)) (step (linked .locked 2047 16 0))
        = some (.holdover, 1004, 0) := by decide

theorem test_loadBegin_busy :
    replied (exec (.loadBegin (tell [0, 1])) (loading (.map 3) 5)) = some (0x41, [])
      ∧ replied (exec (.loadData (tell [1, 2])) small) = some (0x45, []) := by decide

theorem test_faultSetup_scopeNone :
    seen (fun t => ((t.fault .ctrlCheck).severity, (t.fault .linkLoss).severity))
      (exec (.faultSetup (tell [0x1F, 0xFF, 0, 0, 1])) small) = some (.notice, .mute) := by
  decide

theorem test_engineReset :
    seen (fun t => ((t.voice 0).state, t.timed)) (exec (.engineReset (tell []))
      { singing sounding with timed := [⟨1001, .b, .hold, false⟩] }) = some (.off, []) := by
  decide

theorem test_unknown :
    replied (exec (.unknownRequest 0x16 (tell [])) small) = some (0x49, []) := by decide

/-! ### The laws are met by a state in the midst of a show -/

/-- A state with a crossfading voice, one falling to MUTED with a part pending, one MUTED, a set kind, cues
and messages waiting, an open load and a message under assembly. -/
def show12 : State :=
  { State.reset with
    nodeAddr := 12
    ltu := { link := .locked, count := 1000, tick := 2047, goodRun := 16, badRun := 7 }
    config := { ConfigRecord.reset with lateWindow := 4800, stuckLimit := 120 }
    tuning := State.reset.tuning.set 0 exampleTable
    scenes := State.reset.scenes.set 2 { Scene.empty with
      fade := 4096
      entries := [⟨0, { column := 1, slot := 5, level := 128, detune := -256 }⟩] }
    load := some { target := .map 3, buffer := List.replicate 512 0 }
    leadA := { LeadChannel.reset with
      splicePeriod := 640, scene := some 2, note := .voiced 57
      transition := some { level := 15, kind := .scene 2 } }
    leadB := { LeadChannel.reset with splicePeriod := 40 }
    voices := ((State.reset.voices.set 0
        { sounding with currentStep := 65536, crossfade := some { d2 := 5667102, index := 1 } }).set 1
        { sounding with
          state := .falling, dest := .muted, envelope := 8, faults := [.linkLoss]
          pendingPart := some { column := 0, slot := 6, level := 9, detune := 0 } }).set 2
        { sounding with state := .muted, envelope := 0, faults := [.linkLoss, .cueLate] }
    pedals := State.reset.pedals.set 0
      { level := some .pressed, debounce := 383, stuck := 5760000, stuckMark := true }
    gateways := State.reset.gateways.set 1
      { spanGateway with priority := 15, pending := some { cue := .hold, origin := .press } }
    timed := [⟨1000, .a, .hold, true⟩, ⟨1001, .b, .step, false⟩, ⟨1001, .a, .release, false⟩]
    thresholdA := 15
    faults := (State.reset.faults.set 5 { FaultRecord.reset with status := true, severity := .mute }).set 9
      { FaultRecord.reset with status := true, severity := .mute }
    pointer := some .linkLoss
    assembly := some { bytes := List.replicate 103 63, gap := 8, route := .relay .capture }
    fifo := [messageBytes (noticeMessage State.reset 0x60 [])]
    outq := aReply :: List.replicate 7 aNotice }

theorem show12_voice_law (v : VoiceId) : VoiceOk (show12.voice v) := by
  have off : VoiceOk Voice.reset := by constructor <;> decide
  match v with
  | 0 => constructor <;> decide
  | 1 => constructor <;> decide
  | 2 => constructor <;> decide
  | 3 | 4 | 5 | 6 | 7 => exact off

theorem show12_timed : TimedOrdered show12 := ⟨by decide, by decide +kernel⟩

theorem show12_scene_fades : ∀ n : Fin 32, show12.scenes[n].fade ∈ [256, 512, 1024, 2048, 4096] := by
  decide

theorem show12_severity (k : FaultKind) (h : scopeNone k = true) :
    (show12.fault k).severity = .notice := by
  cases k <;> first | rfl | exact absurd h (by decide)

theorem show12_faults : FaultLaw show12 := by
  refine ⟨?_, ?_, show12_severity, by decide⟩
  · intro k h
    cases h
    decide
  · intro k h
    cases k <;> exact absurd h (by decide)

theorem show12_heads : HeadsInBounds show12 := by
  refine ⟨fun L => by cases L <;> decide, fun v => ?_⟩
  match v with
  | 0 => exact ⟨by decide, by decide, fun _ => by
      show 1 ≤ 1 ∧ 1 ≤ 31 ∧ _
      refine ⟨by decide, by decide, ?_⟩
      decide⟩
  | 1 => exact ⟨by decide, by decide, fun _ => by
      show 99 * 16384 < (show12.voice 1).distance ∧ _
      decide⟩
  | 2 | 3 | 4 | 5 | 6 | 7 => exact ⟨by decide, by decide, fun h => absurd h (by decide)⟩

theorem show12_tables : TablesLaw show12 := by
  refine ⟨by unfold TuningOk; decide, fun i => ?_, by unfold SceneOk; decide +kernel, by decide,
    by decide, by decide⟩
  have h : show12.maps[i] = List.replicate 48 none := by
    revert i; decide
  rw [h]
  exact ⟨by decide, fun j m => by cases List.eq_of_mem_replicate m⟩

theorem show12_queues : QueuesBounded show12 := by
  refine ⟨by decide, by decide, by decide, by decide +kernel, by decide, ?_, ?_⟩
  · intro l h
    cases h
    decide +kernel
  · intro a h
    cases h
    decide +kernel

theorem show12_cues : CueUnitLaw show12 := by
  refine ⟨by decide, by decide, by decide, ?_, by decide +kernel⟩
  intro L t h
  cases L
  · cases h
    decide
  · cases h

/-- A state that meets every law, each bound at its end, and whose next step answers: the hypotheses of the
statements that say what every step keeps. -/
theorem test_met_laws : Safe show12 ∧ ∃ t, step show12 = .next t :=
  ⟨{ heads := show12_heads
     queues := show12_queues
     replies := by unfold NoReservation; decide
     timed := show12_timed
     faults := show12_faults
     voices := ⟨show12_voice_law, show12_scene_fades, show12_severity⟩
     slots := by unfold LeadSlotsFree; intro v h p q; revert p q; revert v; decide
     tables := show12_tables
     link := ⟨by decide, by decide, rfl⟩
     histories := fun L => by
       cases L <;> exact ⟨List.length_replicate, fun x h => by
         cases List.eq_of_mem_replicate h
         decide⟩
     cues := show12_cues }, _, rfl⟩

end Sys2Proof.Tests
end

