-- ==== Sys2Proof/Proofs/CueFlush.lean ====
section
/-! PROOF. How an answerable request is answered in full (R163, R175, R176), and from it CUE_FLUSH
(R144). -/

namespace Sys2Proof.Proofs.CueFlush

open Sys2Proof Sys2Proof.Machine Sys2Proof.Safety

/-! ### Answerable requests -/

/-- `reserved` is what acceptance leaves of a request that finds room (R163, R175, R176). -/
theorem enqueue_countEvent_accepted (s : State) :
    enqueue .reservation (countEvent .accepted s) = reserved s := rfl

/-- A device out of reset does what the command does (R16, R17). -/
theorem whenReleased_of_released {s : State} (h : s.resetLow = false) (t : State) :
    whenReleased s t = .next t := by
  simp [whenReleased, h]

/-- A kind's act runs when the body has the length the kind requires (R176). -/
theorem checked_of_bodyLengthOk {k : ReqKind} {r : Req} (h : bodyLengthOk k r.body.length = true)
    (act : Req → State → Answer) (s : State) : checked k act r s = act r s := by
  simp [checked, h]

/-- Once its message is counted and its reply reserved, an act that answers `u` for `s` leaves, as the whole
request, `answered` of `u`: the reply stands where the reservation stood. -/
theorem takeRequest_answered {act : Req → State → Answer} {r : Req} {s u : State} {st : Status}
    {body : List Byte} (ha : Answerable r s) (hq : u.outq = s.outq)
    (hact : act r (reserved s) = { status := st, body := body, state := reserved u }) :
    takeRequest act r s = answered r st body u := by
  obtain ⟨-, hbroadcast, hroom, hfree⟩ := ha
  have hqueue : (reserved u).outq = s.outq ++ .reservation :: [] := by rw [← hq]; rfl
  calc takeRequest act r s
      = finishRequest r { status := st, body := body, state := reserved u } := by
        rw [takeRequest_room act r s hbroadcast hroom, enqueue_countEvent_accepted, hact]
    _ = { reserved u with outq := s.outq ++ [.reply (replyMessage (reserved u) r st body)] } :=
        finishRequest_reply r _ s.outq [] hbroadcast hfree hqueue
    _ = answered r st body u := by rw [← hq]; rfl

/-! ### The lead of a request -/

/-- A lead byte outside A..B names no lead (R187). -/
theorem leadOfByte_of_two_le {b : Byte} (h : 2 ≤ b.toNat) : leadOfByte b = none := by
  have h0 : b.toNat ≠ 0 := by omega
  have h1 : b.toNat ≠ 1 := by omega
  simp [leadOfByte, h0, h1]

/-! ### CUE_FLUSH -/

/-- The state a flush of a lead's timed cues leaves: the lead's entries out of the queue and its timed gateway
empty (R144). -/
def flushed (L : Lead) (s : State) : State :=
  clearPending (timedGateway L) { s with timed := s.timed.filter fun e => e.lead != L }

theorem flushed_outq (L : Lead) (s : State) : (flushed L s).outq = s.outq := rfl

/-- A flush touches neither the counters nor the outbound queue, so it may be taken before the request is
accepted. -/
theorem flushed_reserved (L : Lead) (s : State) : flushed L (reserved s) = reserved (flushed L s) := rfl

theorem flushed_eq (L : Lead) (s : State) :
    flushed L s =
      { s with timed := s.timed.filter fun e => e.lead ≠ L
               gateways := s.gateways.set (timedGateway L)
                 { s.gateways[timedGateway L] with pending := none } } := by
  have hkept : (fun e : TimedEntry => e.lead != L) = fun e => decide (e.lead ≠ L) :=
    funext fun e => by simp [bne, beq_eq_decide]
  unfold flushed
  rw [hkept]
  rfl

theorem actCueFlush_of_lead {r : Req} {L : Lead} (h : leadOfByte (byteAt r.body 0) = some L) (s : State) :
    actCueFlush r s = { status := .done, body := [], state := flushed L s } := by
  simp only [actCueFlush, h]
  rfl

theorem actCueFlush_of_no_lead {r : Req} (h : leadOfByte (byteAt r.body 0) = none) (s : State) :
    actCueFlush r s = { status := .range, body := [], state := s } := by
  simp only [actCueFlush, h]
  rfl

/-- An answerable CUE_FLUSH of one body byte is taken by its act (R176). -/
theorem exec_cueFlush {r : Req} {s u : State} {st : Status} {lead : Byte} (ha : Answerable r s)
    (hbody : r.body = [lead]) (hq : u.outq = s.outq)
    (hact : actCueFlush r (reserved s) = { status := st, body := [], state := reserved u }) :
    exec (.cueFlush r) s = .next (answered r st [] u) := by
  have hlength : bodyLengthOk .cueFlush r.body.length = true := by rw [hbody]; rfl
  have htaken : takeRequest (checked .cueFlush actCueFlush) r s = answered r st [] u :=
    takeRequest_answered ha hq ((checked_of_bodyLengthOk hlength _ _).trans hact)
  show whenReleased s (takeRequest (checked .cueFlush actCueFlush) r s) = _
  rw [whenReleased_of_released ha.1, htaken]

/-- CUE_FLUSH without a lead is refused and touches nothing (R144). -/
theorem exec_cueFlush_of_no_lead {r : Req} {s : State} {lead : Byte} (ha : Answerable r s)
    (hbody : r.body = [lead]) (h : leadOfByte lead = none) :
    exec (.cueFlush r) s = .next (answered r .range [] s) :=
  exec_cueFlush ha hbody rfl (actCueFlush_of_no_lead (by rw [hbody]; exact h) _)

/-- CUE_FLUSH of a lead is answered DONE on the flushed state (R144). -/
theorem exec_cueFlush_of_lead {r : Req} {s : State} {lead : Byte} {L : Lead} (ha : Answerable r s)
    (hbody : r.body = [lead]) (h : leadOfByte lead = some L) :
    exec (.cueFlush r) s = .next (answered r .done [] (flushed L s)) := by
  refine exec_cueFlush ha hbody (flushed_outq L s) ?_
  rw [actCueFlush_of_lead (by rw [hbody]; exact h), flushed_reserved]

/-- Settles O43: the act runs on the state with the message counted and the reply reserved, and a flush
leaves both as they are. -/
theorem cueFlushed : Obligations.CueFlushed := by
  intro r s ha lead hbody
  refine ⟨fun hbad => exec_cueFlush_of_no_lead ha hbody (leadOfByte_of_two_le hbad), fun L hL => ?_⟩
  cases L with
  | a =>
    have hlead : leadOfByte lead = some .a := by rw [hL]; rfl
    rw [exec_cueFlush_of_lead ha hbody hlead, flushed_eq]
    rfl
  | b =>
    have hlead : leadOfByte lead = some .b := by rw [hL]; rfl
    rw [exec_cueFlush_of_lead ha hbody hlead, flushed_eq]
    rfl

end Sys2Proof.Proofs.CueFlush
end

