-- ==== Sys2Proof/Proofs/IdentityChain.lean ====
section
/-! PROOF. IDENTIFY and READ_CAP (R177): the capability records as a chain, and each request answered from it
with nothing else touched. -/

namespace Sys2Proof.Proofs.IdentityChain

open Sys2Proof Sys2Proof.Machine Sys2Proof.Safety Sys2Proof.Proofs.CueFlush

/-- A request of the length its kind requires, whose act only reads the state, is answered on the state as it
stood (R176). -/
theorem taken_of_act_reads {k : ReqKind} {act : Req → State → Answer} {r : Req} {s : State} {st : Status}
    {body : List Byte} (ha : Answerable r s) (hlength : bodyLengthOk k r.body.length = true)
    (hact : act r (reserved s) = { status := st, body := body, state := reserved s }) :
    whenReleased s (takeRequest (checked k act) r s) = .next (answered r st body s) := by
  have htaken : takeRequest (checked k act) r s = answered r st body s :=
    takeRequest_answered ha rfl ((checked_of_bodyLengthOk hlength _ _).trans hact)
  rw [whenReleased_of_released ha.1, htaken]

/-! ### The capability records -/

/-- The records tell of the device's build and address only, which acceptance of a request leaves alone
(R177, R190). -/
theorem capability_reserved (s : State) (index : Nat) :
    capability (reserved s) index = capability s index := rfl

/-- The chain has the indexes 1 to 5 (R177). -/
theorem capability_eq_none {index : Nat} (h : index = 0 ∨ 6 ≤ index) (s : State) :
    capability s index = none := by
  obtain rfl | hpast := h
  · rfl
  · obtain ⟨n, rfl⟩ := Nat.exists_eq_add_of_le' hpast
    rfl

theorem actReadCap_of_record {r : Req} {s : State} {record : List Byte}
    (h : capability s (byteAt r.body 0).toNat = some record) :
    actReadCap r s = { status := .done, body := byteAt r.body 0 :: record, state := s } := by
  simp only [actReadCap, h]

theorem actReadCap_of_no_record {r : Req} {s : State}
    (h : capability s (byteAt r.body 0).toNat = none) :
    actReadCap r s = { status := .range, body := [], state := s } := by
  simp only [actReadCap, h]
  rfl

/-! ### IDENTIFY and READ_CAP -/

/-- IDENTIFY is answered with the index of the first record (R177). -/
theorem exec_identify {r : Req} {s : State} (ha : Answerable r s) (hbody : r.body = []) :
    exec (.identify r) s = .next (answered r .done [1] s) := by
  have hlength : bodyLengthOk .identify r.body.length = true := by rw [hbody]; rfl
  exact taken_of_act_reads (act := actIdentify) ha hlength rfl

/-- READ_CAP of one body byte is taken by its act (R176). -/
theorem exec_readCap {r : Req} {s : State} {st : Status} {i : Byte} {body : List Byte}
    (ha : Answerable r s) (hbody : r.body = [i])
    (hact : actReadCap r (reserved s) = { status := st, body := body, state := reserved s }) :
    exec (.readCap r) s = .next (answered r st body s) := by
  have hlength : bodyLengthOk .readCap r.body.length = true := by rw [hbody]; rfl
  exact taken_of_act_reads ha hlength hact

/-- READ_CAP of an index in the chain gives the index and its record (R177). -/
theorem exec_readCap_of_record {r : Req} {s : State} {i : Byte} {record : List Byte}
    (ha : Answerable r s) (hbody : r.body = [i]) (h : capability s i.toNat = some record) :
    exec (.readCap r) s = .next (answered r .done (i :: record) s) := by
  have hindex : byteAt r.body 0 = i := by rw [hbody]; rfl
  refine exec_readCap ha hbody ?_
  rw [actReadCap_of_record (by rw [hindex, capability_reserved, h]), hindex]

/-- READ_CAP of any other index is answered RANGE (R177). -/
theorem exec_readCap_of_no_record {r : Req} {s : State} {i : Byte} (ha : Answerable r s)
    (hbody : r.body = [i]) (h : capability s i.toNat = none) :
    exec (.readCap r) s = .next (answered r .range [] s) := by
  have hindex : byteAt r.body 0 = i := by rw [hbody]; rfl
  exact exec_readCap ha hbody (actReadCap_of_no_record (by rw [hindex, capability_reserved, h]))

/-- Settles O34: each of the five records is `capability` at its index, and outside 1 to 5 there is none. -/
theorem identityChain : Obligations.IdentityChain := by
  intro r s ha
  have chain {i : Byte} {record : List Byte} (hcap : capability s i.toNat = some record)
      (hbody : r.body = [i]) : exec (.readCap r) s = .next (answered r .done (i :: record) s) :=
    exec_readCap_of_record ha hbody hcap
  exact ⟨exec_identify ha, chain rfl, chain rfl, chain rfl, chain rfl, chain rfl,
    fun _ hbody hout => exec_readCap_of_no_record ha hbody (capability_eq_none hout s)⟩

end Sys2Proof.Proofs.IdentityChain
end

