-- ==== Sys2Proof/Proofs/StepParts.lean ====
section
/-! PROOF. What a step is made of. A law of the leads, voices, tables or the Cue Unit reads a part of the state
that the link, the lane and the counters never touch; such a law holds after every step when the few operations
on that part keep it. -/

namespace Sys2Proof.Proofs.StepParts

open Sys2Proof Sys2Proof.Machine Sys2Proof.Safety

/-- The part of the state that the laws of leads, voices, tables, Fault Unit and Cue Unit read: of the link it
holds the count alone, of the control lane nothing. -/
def lawPart (s : State) : State :=
  { s with pending := [], resetLow := false, nodeAddr := 0, pedalPins := State.reset.pedalPins
           receiver := State.reset.receiver, ltu := { State.reset.ltu with count := s.ltu.count }
           counters := State.reset.counters, assembly := none, fifo := [], outq := [], sender := .none
           laneOut := [], linkOut := none, draws := 0 }

/-- The operations on `lawPart` that a step is made of keep `P`. A sample that a frame gives a lead lies in the
sample range or repeats the newest one (R4, R5, R15). -/
structure KeptByParts (P : State → Prop) : Prop where
  frame : ∀ {s t}, P s → lawPart t = lawPart s → P t
  reset : P State.reset
  engineReset : ∀ {s}, P s → P (engineReset s)
  adoptCount : ∀ (c : Word32) {s}, P s → P (adoptCount c s)
  samples : ∀ {xa xb s}, (-8388608 ≤ xa ∧ xa ≤ 8388607) ∨ xa = lastSample s.leadA.history →
    (-8388608 ≤ xb ∧ xb ≤ 8388607) ∨ xb = lastSample s.leadB.history →
    P s → P (appendSamples xa xb s)
  raise : ∀ (k : FaultKind) (sc : Scope) {s}, P s → P (raise k sc s)
  voiceWork : ∀ (v : VoiceId) {s}, P s → P (voiceWork v s).state
  pedalWork : ∀ (limit : Nat) (l : LineId) {s}, P s → P (pedalWork limit l s)
  blockWork : ∀ (ls : LinkState) (L : Lead) {s}, P s → P (blockWork ls L s)
  execute : ∀ (kind : Byte) (r : Req) {s}, P s → P (executeKind kind r s).state
  endCrossfade : ∀ (v : VoiceId) {s}, P s → P (endCrossfade v s)
  endRise : ∀ (v : VoiceId) {s}, P s → P (endRise v s)
  finishFall : ∀ (v : VoiceId) {s}, P s → P (finishFall v s)
  reachDebounce : ∀ (l : LineId) {s}, P s → P (reachDebounce l s)
  reachStuck : ∀ (l : LineId) {s}, P s → P (reachStuck l s)
  markDue : ∀ (k : Nat) {s}, P s → P (markDue k s)
  handOff : ∀ (L : Lead) {s}, P s → P (handOff L s)

section
variable {P : State → Prop} (K : KeptByParts P)
include K

/-! ### Requests and losses -/

theorem finishRequest_keeps (r : Req) (a : Answer) (h : P a.state) : P (finishRequest r a) := by
  rw [finishRequest_rest]
  exact K.frame h rfl

theorem acceptRequest_keeps (r : Req) {s : State} (h : P s) : P (acceptRequest r s).1 := by
  unfold acceptRequest
  simp only
  split
  · exact K.frame h rfl
  · split <;> exact K.frame h rfl

/-- An act that agrees with the execution of some kind byte, taken whole as a request. -/
theorem takeRequest_keeps {act : Req → State → Answer} (r : Req) {s : State}
    (hact : ∀ {u}, P u → P (act r u).state) (h : P s) : P (takeRequest act r s) := by
  have ha := acceptRequest_keeps K r h
  unfold takeRequest
  simp only
  split
  · exact finishRequest_keeps K r _ (hact ha)
  · exact K.raise _ _ ha

theorem cleanLane_keeps {s : State} (h : P s) : P (cleanLane { s with ltu := s.ltu.lost }) :=
  K.frame h rfl

theorem declareLoss_keeps {s : State} (h : P s) : P (declareLoss s) := by
  have hraised (b : Bool) {u : State} (hu : P u) : P (raiseLoss b u) := by
    have hd : P u.drawn := K.frame hu rfl
    unfold raiseLoss
    split
    · split
      · exact K.raise _ _ (K.raise _ _ hd)
      · exact K.raise _ _ (K.raise _ _ hd)
    · exact K.raise _ _ hu
  have hr := hraised s.assembly.isSome (cleanLane_keeps K h)
  unfold declareLoss lossEffect
  split
  · exact hr
  · exact K.engineReset hr

/-! ### The things of a frame -/

theorem drawn_keeps (s : State) (h : P s) : P s.drawn := K.frame h rfl

theorem runTask_keeps (ls : LinkState) (t : Task) (s : State) (h : P s) : P (runTask ls t s) := by
  cases t with
  | occurrence k sc => exact K.raise k sc h
  | relayed => exact K.frame h rfl
  | pedal l limit => exact K.pedalWork limit l h
  | request kind r => exact finishRequest_keeps K r _ (K.execute kind r h)
  | block L => exact K.blockWork ls L h

theorem finishFrame_keeps_of_parts (ls : LinkState) (limit : Nat) (lines : List LineId) (p : Pass)
    (h : P p.state) : P (finishFrame ls limit lines p) :=
  finishFrame_keeps P ls limit (drawn_keeps K) (fun l _ => K.pedalWork limit l) lines p
    (fun t _ => runTask_keeps K ls t) h

theorem takeSome_keeps_of_parts (ls : LinkState) (fuel : Nat) (p : Pass) (h : P p.state) :
    P (takeSome ls fuel p).state :=
  (takeSome_keeps P ls (drawn_keeps K) fuel p (fun t _ => runTask_keeps K ls t) h).1

theorem audioFrame_keeps (ls : LinkState) {xa xb : Int} (p : Pass)
    (ha : (-8388608 ≤ xa ∧ xa ≤ 8388607) ∨ xa = lastSample p.state.leadA.history)
    (hb : (-8388608 ≤ xb ∧ xb ≤ 8388607) ∨ xb = lastSample p.state.leadB.history)
    (h : P p.state) : P (audioFrame ls xa xb p).pass.state :=
  (voicesFrame_keeps P ls (drawn_keeps K) (fun v _ => K.voiceWork v) (fun _ _ => K.raise _ _)
    { p with state := appendSamples xa xb p.state } (fun t _ => runTask_keeps K ls t)
    (K.samples ha hb h)).1

theorem phantomWork_keeps {s : State} (h : P s) : P (phantomWork s) := by
  have h0 : P (countEvent .phantom s) := K.frame h rfl
  have haudio := audioFrame_keeps K s.ltu.link (xa := 0) (xb := 0)
    { state := countEvent .phantom s
      late := raisingLines s.config.stuckLimit (countEvent .phantom s) }
    (Or.inl (by decide)) (Or.inl (by decide)) h0
  exact finishFrame_keeps_of_parts K _ _ _ _ (K.frame haudio rfl)

theorem phantomFrame_keeps {s : State} (h : P s) : P (phantomFrame s) :=
  phantomWork_keeps K (K.adoptCount _ (K.frame h rfl))

theorem silenceLoss_keeps {s : State} (h : P s) : P (silenceLoss s) := by
  have hdiscarded : P { s with receiver := { s.receiver with sinceStart := none } } := K.frame h rfl
  have hadopted := K.adoptCount (s.ltu.count + 4) hdiscarded
  exact phantomWork_keeps K (declareLoss_keeps K (K.frame hadopted rfl))

end

/-! ### Frames -/

/-- A sample of a slot lies in the sample range (R4). -/
theorem slotSample_range (bytes : List Byte) (k : Nat) :
    -8388608 ≤ slotSample bytes k ∧ slotSample bytes k ≤ 8388607 := by
  unfold slotSample
  have hlo := BitVec.le_toInt (BitVec.ofNat 24 (((byteAt bytes (6 + 3 * k)).toNat * 256
    + (byteAt bytes (7 + 3 * k)).toNat) * 256 + (byteAt bytes (8 + 3 * k)).toNat))
  have hhi := BitVec.toInt_lt (x := BitVec.ofNat 24 (((byteAt bytes (6 + 3 * k)).toNat * 256
    + (byteAt bytes (7 + 3 * k)).toNat) * 256 + (byteAt bytes (8 + 3 * k)).toNat))
  norm_num at hlo hhi
  omega

theorem leadSamples_range (s : State) (bytes : List Byte) :
    (-8388608 ≤ (leadSamples s bytes).1 ∧ (leadSamples s bytes).1 ≤ 8388607)
      ∧ (-8388608 ≤ (leadSamples s bytes).2 ∧ (leadSamples s bytes).2 ≤ 8388607) := by
  refine ⟨slotSample_range .., ?_⟩
  unfold leadSamples
  simp only
  split
  · exact slotSample_range ..
  · decide

/-- The hand-off moves no lead's record (R141). -/
theorem handOff_leads (L : Lead) (s : State) :
    (handOff L s).leadA = s.leadA ∧ (handOff L s).leadB = s.leadB := by
  rcases handOff_cases L s with h | ⟨e, _, _, _, _, h⟩ <;> rw [h] <;> exact ⟨rfl, rfl⟩

/-- A new held count leaves the leads' records (R18). -/
theorem adoptCount_leads (c : Word32) (s : State) :
    (adoptCount c s).leadA = s.leadA ∧ (adoptCount c s).leadB = s.leadB := by
  unfold adoptCount handOffBoth
  simp only
  split <;>
    exact ⟨((handOff_leads ..).1.trans (handOff_leads ..).1), ((handOff_leads ..).2.trans (handOff_leads ..).2)⟩

/-- A gap at the buffer touches buffer and sender alone (R168, R169). -/
theorem gapFrame_rest (s : State) :
    (gapFrame s).1 = { s with assembly := (gapFrame s).1.assembly, sender := (gapFrame s).1.sender } := by
  unfold gapFrame
  split
  · rfl
  · split <;> rfl

section
variable {P : State → Prop} (K : KeptByParts P)
include K

theorem ltuGood_keeps (c : Word32) (p : Pass) (h : P p.state) : P (ltuGood c p).state := by
  have hcount (ticks : Nat) (inOrder : Bool) :
      (match p.state.ltu.link with
        | .seeking => p.state.ltu.relocking ticks
        | .holdover => p.state.ltu.relocking ticks
        | .relocking => p.state.ltu.afterGood inOrder
        | .locked => p.state.ltu.afterGood inOrder).count = p.state.ltu.count := by
    unfold Ltu.afterGood Ltu.relocking
    repeat' split
    all_goals rfl
  refine K.adoptCount c (K.frame h ?_)
  exact congrArg (fun n => { lawPart p.state with ltu := { State.reset.ltu with count := n } }) (hcount _ _)

theorem ltuBad_keeps (p : Pass) (h : P p.state) : P (ltuBad p).state :=
  K.adoptCount _ (K.frame h rfl)

theorem assemble_keeps (lane : LaneIn) {s : State} (h : P s) : P (assemble lane s).state := by
  rw [(assemble_rest lane s).1]
  exact K.frame h rfl

theorem sendAndAccept_keeps (raw : List Byte) (wasCut : Bool) (request : Option (Byte × Req)) (p : Pass)
    (h : P p.state) : P (sendAndAccept raw wasCut request p).1.state := by
  have hsent : P (sendLane (decodeLane raw) raw wasCut p.state).state := by
    rw [(sendLane_step (decodeLane raw) raw wasCut p.state).rest]
    exact K.frame h rfl
  unfold sendAndAccept
  simp only
  split
  · unfold LaneSent.counted
    split
    · exact K.frame hsent rfl
    · exact hsent
  · have ha := acceptRequest_keeps K (Prod.snd ‹Byte × Req›) hsent
    split <;> exact ha

theorem audioAndLane_keeps (ls : LinkState) (xs : Int × Int) (lane : Pass → Pass × List Task)
    (first : Bool) (p : Pass) (ha : -8388608 ≤ xs.1 ∧ xs.1 ≤ 8388607) (hb : -8388608 ≤ xs.2 ∧ xs.2 ≤ 8388607)
    (hlane : ∀ q, P q.state → P (lane q).1.state) (h : P p.state) :
    P (audioAndLane ls xs lane first p).1.pass.state := by
  unfold audioAndLane
  split
  · exact audioFrame_keeps K ls _ (Or.inl ha) (Or.inl hb) (hlane p h)
  · exact hlane _ (takeSome_keeps_of_parts K ls _ _ (audioFrame_keeps K ls p (Or.inl ha) (Or.inl hb) h))

theorem goodFrame_keeps (bytes : List Byte) {s : State} (h : P s) : P (goodFrame bytes s) := by
  unfold goodFrame
  have hassembled := assemble_keeps K (decodeLane (laneBytes bytes))
    (ltuGood_keeps K (frameCount bytes) { state := s, late := [] } h)
  refine finishFrame_keeps_of_parts K _ _ _ _ (K.frame (s := Mix.pass _ |>.state) ?_ rfl)
  exact audioAndLane_keeps K _ _ _ _ _ (leadSamples_range s bytes).1 (leadSamples_range s bytes).2
    (fun q => sendAndAccept_keeps K _ _ _ q) hassembled

/-- A bad frame repeats the newest sample of each history, which its count and gap have left alone (R5). -/
theorem badFrame_keeps (bytes : List Byte) {s : State} (h : P s) : P (badFrame bytes s) := by
  have hp : P (ltuBad { state := s, late := [] }).state := ltuBad_keeps K _ h
  have hg : P (gapFrame (ltuBad { state := s, late := [] }).state).1 := by
    rw [gapFrame_rest]
    exact K.frame hp rfl
  have hleads := adoptCount_leads (s.ltu.count + 1) { s with ltu := s.ltu.afterBad }
  have hA : (gapFrame (ltuBad { state := s, late := [] }).state).1.leadA = s.leadA := by
    rw [gapFrame_rest]
    exact hleads.1
  have hB : (gapFrame (ltuBad { state := s, late := [] }).state).1.leadB = s.leadB := by
    rw [gapFrame_rest]
    exact hleads.2
  have ha : (heldSamples s).1 = lastSample s.leadA.history := rfl
  have hb : (-8388608 ≤ (heldSamples s).2 ∧ (heldSamples s).2 ≤ 8388607)
      ∨ (heldSamples s).2 = lastSample s.leadB.history := by
    unfold heldSamples
    cases s.config.slotB with
    | none => exact Or.inl (show -8388608 ≤ (0 : Int) ∧ (0 : Int) ≤ 8388607 by decide)
    | some _ => exact Or.inr rfl
  rw [← hA] at ha
  rw [← hB] at hb
  have hfinished (lines : List LineId) (late late' : List Task) (out : List Byte) :
      P (finishFrame s.ltu.link s.config.stuckLimit lines
        { state := { (audioFrame s.ltu.link (heldSamples s).1 (heldSamples s).2
            { state := (gapFrame (ltuBad { state := s, late := [] }).state).1, late := late }).pass.state with
              linkOut := some out }
          late := late' }) :=
    finishFrame_keeps_of_parts K _ _ _ _ (K.frame (audioFrame_keeps K _ _ (Or.inr ha) hb hg) rfl)
  unfold badFrame
  simp only
  split
  · exact declareLoss_keeps K (hfinished _ _ _ _)
  · exact hfinished _ _ _ _

/-- A bad frame in SEEKING or HOLDOVER raises FRAME_CHECK (R16). -/
theorem passBadFrame_keeps (bytes : List Byte) {s : State} (h : P s) : P (passBadFrame bytes s) :=
  K.frame (K.raise .frameCheck .device h) rfl

theorem arriveFrame_keeps (bytes : List Byte) (pins : PedalPins) {s : State} (h : P s) :
    P (arriveFrame bytes pins s) := by
  have h1 : P { s with pedalPins := pins } := K.frame h rfl
  have hpassed (b c : Bool) : P (if b then goodFrame bytes { s with pedalPins := pins }
      else if c then badFrame bytes { s with pedalPins := pins }
      else passBadFrame bytes { s with pedalPins := pins }) := by
    split
    · exact goodFrame_keeps K bytes h1
    · split
      · exact badFrame_keeps K bytes h1
      · exact passBadFrame_keeps K bytes h1
  unfold arriveFrame
  split
  · exact K.frame (hpassed _ _) rfl
  · exact h

/-! ### Commands and steps -/

theorem localTick_keeps {s : State} (h : P s) : P (localTick s) := by
  have h1 : P { s with receiver := s.receiver.after 1 } := K.frame h rfl
  unfold localTick
  simp only
  split
  · exact h
  · split
    · split
      · exact silenceLoss_keeps K h1
      · exact K.frame h rfl
    · split
      · exact phantomFrame_keeps K h1
      · exact K.frame h rfl

theorem powerOn_keeps (straps : BitVec 6) (s : State) : P (powerOn straps s) := K.frame K.reset rfl

theorem startFrame_keeps {s : State} (h : P s) : P (startFrame s) := by
  refine K.frame h ?_
  unfold startFrame
  split <;> rfl

theorem achieveLock_keeps {s : State} (h : P s) : P (achieveLock s) := by
  unfold achieveLock
  split
  · exact K.frame h rfl
  · exact h

theorem loseByBadFrames_keeps {s : State} (h : P s) : P (loseByBadFrames s) := by
  unfold loseByBadFrames
  split
  · exact declareLoss_keeps K h
  · exact h

theorem takeBlockEnd_keeps {s : State} (h : P s) : P (takeBlockEnd s) := by
  unfold takeBlockEnd
  split
  · exact runTasks_keeps P _ (drawn_keeps K) _ _ _ (fun t _ => runTask_keeps K _ t) h
  · exact h

theorem reachGapLimit_keeps {s : State} (h : P s) : P (reachGapLimit s) := by
  unfold reachGapLimit
  split
  · split
    · exact K.raise _ _ (K.frame h rfl)
    · exact h
  · exact h

theorem sendFromFifo_keeps {s : State} (h : P s) : P (sendFromFifo s) := by
  have hsent (k : Nat) : P (sendFifo k s).counted := by
    have hq : P (sendFifo k s).state := by
      rw [(sendFifo_step k s).rest]
      exact K.frame h rfl
    unfold LaneSent.counted
    split
    · exact K.frame hq rfl
    · exact hq
  unfold sendFromFifo
  repeat' split
  all_goals first | exact h | exact hsent _

theorem sendFromQueue_keeps {s : State} (h : P s) : P (sendFromQueue s) := by
  have hsent (k : Nat) : P (sendQueue k s) := by
    have hq : P (LaneSent.quiet (sendQueue k s)).state := by
      rw [(sendQueue_step k s).rest]
      exact K.frame h rfl
    exact hq
  unfold sendFromQueue
  repeat' split
  all_goals first | exact h | exact hsent _

/-- A request of each kind is executed as its kind byte says (R176, R187). -/
theorem checked_keeps (k : ReqKind) (r : Req) {s : State} (h : P s) : P (checked k (actOf k) r s).state := by
  have hkind : executeKind (kindByte k) r s = checked k (actOf k) r s := by cases k <;> rfl
  rw [← hkind]
  exact K.execute _ r h

omit K in
/-- What a command does when RESET_N is not low, it does or leaves the state (R17). -/
theorem whenReleased_keeps {s u t : State} (h : P s) (hu : P u) (e : whenReleased s u = .next t) : P t := by
  have e : (if s.resetLow then s else u) = t := by simpa [whenReleased] using e
  subst e
  split
  · exact h
  · exact hu

theorem exec_keeps (c : Instr) {s t : State} (h : P s) (e : exec c s = .next t) : P t := by
  have request (k : ReqKind) (r : Req) {t : State}
      (e : whenReleased s (takeRequest (checked k (actOf k)) r s) = .next t) : P t :=
    whenReleased_keeps h (takeRequest_keeps K r (checked_keeps K k r) h) e
  cases c with
  | powerOnReset straps => cases e; exact powerOn_keeps K straps s
  | resetNHeldLow => cases e; exact K.frame h rfl
  | frameStart => exact whenReleased_keeps h (startFrame_keeps K h) e
  | syncSearch => exact whenReleased_keeps h (K.frame h rfl : P (loseSync s)) e
  | frameArrival bytes pins => exact whenReleased_keeps h (arriveFrame_keeps K bytes pins h) e
  | lockAchieved => exact whenReleased_keeps h (achieveLock_keeps K h) e
  | lossByBadFrames => exact whenReleased_keeps h (loseByBadFrames_keeps K h) e
  | lossBySilence pins =>
    refine whenReleased_keeps h ?_ e
    split
    · exact silenceLoss_keeps K (K.frame h rfl)
    · exact h
  | phantomFrame pins =>
    refine whenReleased_keeps h ?_ e
    split
    · exact h
    · exact phantomFrame_keeps K (K.frame h rfl)
  | crossfadeEnd v => exact whenReleased_keeps h (K.endCrossfade v h) e
  | riseEnd v => exact whenReleased_keeps h (K.endRise v h) e
  | fallEnd v => exact whenReleased_keeps h (K.finishFall v h) e
  | pedalEdge l => exact whenReleased_keeps h (K.reachDebounce l h) e
  | pedalStuckJudgement l => exact whenReleased_keeps h (K.reachStuck l h) e
  | timedCueDue k => exact whenReleased_keeps h (K.markDue k.val h) e
  | timedHandoff L => exact whenReleased_keeps h (K.handOff L h) e
  | blockEnd => exact whenReleased_keeps h (takeBlockEnd_keeps K h) e
  | gapLimit => exact whenReleased_keeps h (reachGapLimit_keeps K h) e
  | fifoSend => exact whenReleased_keeps h (sendFromFifo_keeps K h) e
  | queueSend => exact whenReleased_keeps h (sendFromQueue_keeps K h) e
  | unknownRequest kind r =>
    refine whenReleased_keeps h ?_ e
    split
    · exact takeRequest_keeps K r (fun hu => hu) h
    · exact h
  | identify r => exact request .identify r e
  | readCap r => exact request .readCap r e
  | configure r => exact request .configure r e
  | readConfig r => exact request .readConfig r e
  | loadBegin r => exact request .loadBegin r e
  | loadData r => exact request .loadData r e
  | loadCommit r => exact request .loadCommit r e
  | loadAbort r => exact request .loadAbort r e
  | readTable r => exact request .readTable r e
  | cueNow r => exact request .cueNow r e
  | cueAt r => exact request .cueAt r e
  | cueFlush r => exact request .cueFlush r e
  | gatewaySet r => exact request .gatewaySet r e
  | portSet r => exact request .portSet r e
  | readState r => exact request .readState r e
  | readFaults r => exact request .readFaults r e
  | faultClear r => exact request .faultClear r e
  | faultSetup r => exact request .faultSetup r e
  | counterSetup r => exact request .counterSetup r e
  | readCounters r => exact request .readCounters r e
  | engineReset r => exact request .engineReset r e

/-- A law of `lawPart` that its operations keep holds after every step. -/
theorem step_keeps {s t : State} (h : P s) (e : step s = .next t) : P t := by
  unfold step at e
  split at e
  · cases e
    exact localTick_keeps K h
  · rename_i c rest _
    have htaken : P { s with pending := rest } := K.frame h rfl
    exact exec_keeps K c htaken e

end

end Sys2Proof.Proofs.StepParts
end

