-- ==== Sys2Proof/Proofs/RequestMoves.lean ====
section
/-! PROOF. What executing a request can make of the state, in one list of cases (R176 to R185), so that a law
needs to look at each case once. -/

namespace Sys2Proof.Proofs.RequestMoves

open Sys2Proof Sys2Proof.Machine Sys2Proof.Safety

/-- The states that executing a request can leave behind `s`. -/
inductive RequestMove (s : State) : State → Prop where
  | unchanged : RequestMove s s
  | configured (body : List Byte) (c : ConfigRecord) (valid : configOfBody body = some c)
      (freeA : slotTaken s c.slotA = false) (freeB : ∀ k, c.slotB = some k → slotTaken s k = false) :
      RequestMove s { s with config := c }
  | loading (l : Option OpenLoad) (size : ∀ x, l = some x → x.buffer.length ≤ 512) :
      RequestMove s { s with load := l }
  | tuned (bs : List Byte) (i : Fin 2) (rows : List TuningRow) (valid : tuningOfBytes bs = some rows) :
      RequestMove s { s with load := none, tuning := s.tuning.set i rows }
  | mapped (bs : List Byte) (i : Fin 16) (m : List MapEntry) (valid : mapOfBytes bs = some m) :
      RequestMove s { s with load := none, maps := s.maps.set i m }
  | staged (bs : List Byte) (i : Fin 32) (c : Scene) (valid : sceneOfBytes bs = some c) :
      RequestMove s { s with load := none, scenes := s.scenes.set i c }
  | pended (L : Lead) (c : Cue) : RequestMove s (setPending (immediateGateway L) c .request s)
  | late (L : Lead) : RequestMove s (raise .cueLate (.lead L) s)
  | entered (e : TimedEntry) (late : Bool)
      (valid : (e.mark = true ∧ e.due = s.ltu.count)
        ∨ (e.mark = false ∧ 0 < serialDiff s.ltu.count e.due ∧ serialDiff s.ltu.count e.due ≤ 16777216)) :
      RequestMove s (enterTimed e late s).state
  | flushed (L : Lead) :
      RequestMove s (clearPending (timedGateway L) { s with timed := s.timed.filter fun e => e.lead != L })
  | pedalGateway (body : List Byte) (g : Fin 8) (x : Gateway) (low : g.val < 4)
      (valid : pedalGatewayOf body = some x) : RequestMove s (s.setGateway g x)
  | fixedGateway (g : Fin 8) (enabled : Bool) (n : Nat) (high : ¬g.val < 4) :
      RequestMove s (handOffAfterSet g
        (s.setGateway g { s.gateway g with enabled := enabled, priority := min 15 n, pending := none }))
  | threshold (L : Lead) (n : Nat) : RequestMove s (s.setThreshold L (min 15 n))
  | cleared (ks : List FaultKind) : RequestMove s (clearKinds ks s)
  | setup (ks : List FaultKind) (detect report : Bool) (sev : Severity) :
      RequestMove s (setupKinds ks detect report sev s)
  | counters (cs : Vector Counter 4) : RequestMove s { s with counters := cs }
  | engineReset : RequestMove s (engineReset s)

theorem actConfigure_move (r : Req) (s : State) : RequestMove s (actConfigure r s).state := by
  unfold actConfigure
  split
  · exact .unchanged
  · rename_i c valid
    cases hB : c.slotB with
    | none =>
      simp only [Bool.or_false]
      split
      · exact .unchanged
      · rename_i free
        exact .configured _ c valid (by simpa using free) (by simp [hB])
    | some b =>
      simp only
      split
      · exact .unchanged
      · rename_i free
        simp only [Bool.or_eq_true, not_or, Bool.not_eq_true] at free
        exact .configured _ c valid free.1 (by simp [hB, free.2])

theorem actLoadBegin_move (r : Req) (s : State) : RequestMove s (actLoadBegin r s).state := by
  unfold actLoadBegin
  split
  · exact .unchanged
  · split
    · exact .unchanged
    · exact .loading _ fun x hx => by cases hx; exact Nat.zero_le _

theorem actLoadData_move (r : Req) (s : State) : RequestMove s (actLoadData r s).state := by
  unfold actLoadData
  split
  · exact .unchanged
  · split
    · exact .unchanged
    · rename_i room
      exact .loading _ fun x hx => by cases hx; simpa using room

theorem actLoadAbort_move (r : Req) (s : State) : RequestMove s (actLoadAbort r s).state := by
  unfold actLoadAbort
  split
  · exact .unchanged
  · exact .loading none nofun

theorem actLoadCommit_move (r : Req) (s : State) : RequestMove s (actLoadCommit r s).state := by
  unfold actLoadCommit
  split
  · exact .unchanged
  · split
    · exact .unchanged
    · rename_i l _ _
      cases e : install l.target l.buffer { s with load := none } with
      | none => exact .loading none nofun
      | some u =>
        unfold install at e
        split at e <;> simp only [Option.map_eq_some_iff] at e <;> obtain ⟨x, valid, rfl⟩ := e
        · exact .tuned _ _ x valid
        · exact .mapped _ _ x valid
        · exact .staged _ _ x valid

theorem actCueNow_move (r : Req) (s : State) : RequestMove s (actCueNow r s).state := by
  unfold actCueNow
  split
  · split
    · exact .pended ..
    · exact .unchanged
  · exact .unchanged

theorem actCueAt_move (r : Req) (s : State) : RequestMove s (actCueAt r s).state := by
  unfold actCueAt
  simp only
  split
  · split
    · exact .unchanged
    · split
      · exact .unchanged
      · rename_i near
        split
        · rename_i after
          exact .entered _ _ (Or.inr ⟨rfl, after, by simpa using near⟩)
        · split
          · exact .entered _ _ (Or.inl ⟨rfl, rfl⟩)
          · split
            · exact .entered _ _ (Or.inl ⟨rfl, rfl⟩)
            · exact .late _
  · exact .unchanged

theorem actCueFlush_move (r : Req) (s : State) : RequestMove s (actCueFlush r s).state := by
  unfold actCueFlush
  split
  · exact .flushed _
  · exact .unchanged

theorem actGatewaySet_move (r : Req) (s : State) : RequestMove s (actGatewaySet r s).state := by
  unfold actGatewaySet
  split
  · exact .unchanged
  · split
    · rename_i low
      split
      · exact .unchanged
      · rename_i valid
        exact .pedalGateway _ _ _ low valid
    · rename_i high
      exact .fixedGateway _ _ _ high

theorem actPortSet_move (r : Req) (s : State) : RequestMove s (actPortSet r s).state := by
  unfold actPortSet
  split
  · exact .threshold ..
  · exact .unchanged

theorem actFaultClear_move (r : Req) (s : State) : RequestMove s (actFaultClear r s).state := by
  unfold actFaultClear
  split
  · exact .cleared _
  · exact .unchanged

theorem actFaultSetup_move (r : Req) (s : State) : RequestMove s (actFaultSetup r s).state := by
  unfold actFaultSetup
  split
  · exact .unchanged
  · simp only
    split
    · exact .setup ..
    · exact .setup ..
    · exact .unchanged

theorem actCounterSetup_move (r : Req) (s : State) : RequestMove s (actCounterSetup r s).state := by
  unfold actCounterSetup
  split
  · exact .unchanged
  · exact .counters _

theorem actReadCap_move (r : Req) (s : State) : RequestMove s (actReadCap r s).state := by
  unfold actReadCap
  simp only
  split <;> exact .unchanged

theorem actReadTable_move (r : Req) (s : State) : RequestMove s (actReadTable r s).state := by
  unfold actReadTable
  simp only
  repeat' split
  all_goals exact .unchanged

/-- What a request of each kind can do (R177 to R185). -/
theorem actOf_move (k : ReqKind) (r : Req) (s : State) : RequestMove s (actOf k r s).state := by
  cases k with
  | identify => exact .unchanged
  | readCap => exact actReadCap_move r s
  | configure => exact actConfigure_move r s
  | readConfig => exact .unchanged
  | loadBegin => exact actLoadBegin_move r s
  | loadData => exact actLoadData_move r s
  | loadCommit => exact actLoadCommit_move r s
  | loadAbort => exact actLoadAbort_move r s
  | readTable => exact actReadTable_move r s
  | cueNow => exact actCueNow_move r s
  | cueAt => exact actCueAt_move r s
  | cueFlush => exact actCueFlush_move r s
  | gatewaySet => exact actGatewaySet_move r s
  | portSet => exact actPortSet_move r s
  | readState => exact .unchanged
  | readFaults => exact .unchanged
  | faultClear => exact actFaultClear_move r s
  | faultSetup => exact actFaultSetup_move r s
  | counterSetup => exact actCounterSetup_move r s
  | readCounters => exact .unchanged
  | engineReset => exact .engineReset

/-- What a message executed as a request can do (R176). -/
theorem executeKind_move (kind : Byte) (r : Req) (s : State) :
    RequestMove s (executeKind kind r s).state := by
  unfold executeKind
  split
  · exact .unchanged
  · unfold checked
    split
    · exact actOf_move ..
    · exact .unchanged

end Sys2Proof.Proofs.RequestMoves
end

