-- ==== Sys2Proof/Proofs/Tracker.lean ====
section
/-! PROOF. Rounding, and the pitch tracker on any list of 601 sums: the candidate exists, and the refined period
and the confidence lie in their ranges (R39 to R45). -/

namespace Sys2Proof.Proofs.Tracker

open Sys2Proof Sys2Proof.Machine Sys2Proof.Safety

/-! ### Rounding -/

/-- Two signs of one bound: `m` is `q * d`, and `2 * n` lies within `d` of `2 * m`. -/
theorem rounded_of_bounds {q n d m : Int} (hd : 0 < d) (hm : q * d = m)
    (hpos : 0 ≤ n → 2 * m ≤ 2 * n + d ∧ 2 * n < 2 * m + d)
    (hneg : n < 0 → 2 * n - d ≤ 2 * m ∧ 2 * m < 2 * n + d) : Rounded q n d := by
  unfold Rounded
  rw [hm]
  rcases lt_or_ge n 0 with h | h
  · have := hneg h
    omega
  · have := hpos h
    omega

/-- The quotient of the model's rounding is the nearest integer, halves away from zero (00_scope.md,
Numbers). -/
theorem roundDiv_rounded (n : Int) {d : Int} (hd : 0 < d) : Rounded (roundDiv n d) n d := by
  have bounds (x : Int) : 2 * ((2 * x + d) / (2 * d) * d) ≤ 2 * x + d
      ∧ 2 * x < 2 * ((2 * x + d) / (2 * d) * d) + d := by
    have hlo := Int.ediv_mul_le (2 * x + d) (b := 2 * d) (by omega)
    have hhi := Int.lt_ediv_add_one_mul_self (2 * x + d) (b := 2 * d) (by omega)
    constructor <;> linarith
  unfold roundDiv
  split
  · exact rounded_of_bounds hd rfl (fun _ => bounds n) (by omega)
  · have := bounds (-n)
    refine rounded_of_bounds hd rfl (by omega) fun _ => ?_
    rw [Int.neg_mul]
    omega

/-! ### The sums of a history -/

/-- The first samples of a history that is long enough, by their places. -/
theorem take_eq_map_range (h : List Int) (n : Nat) (hn : n ≤ h.length) :
    h.take n = (List.range n).map fun i => h.getD i 0 := by
  apply List.ext_getElem
  · simpa using hn
  · intro i hi _
    have hlt : i < h.length := by simp at hi; omega
    simp [List.getD_eq_getElem?_getD, hlt]

theorem meanAbs_eq (h : List Int) (hl : h.length = 2048) :
    meanAbs h = ((List.range 256).map fun i => (h.getD i 0).natAbs).sum / 256 := by
  unfold meanAbs
  rw [take_eq_map_range h 256 (by omega), List.map_map]
  rfl

theorem diffSum_eq (h : List Int) (hl : h.length = 2048) (lag : Nat) (hlag : lag ≤ 640) :
    diffSum h lag = ((List.range 256).map fun i => (h.getD i 0 - h.getD (i + lag) 0).natAbs).sum := by
  unfold diffSum
  congr 1
  apply List.ext_getElem
  · simp [hl]
    omega
  · intro i hi _
    have hi : i < 256 := by simp at hi; omega
    have h0 : i < h.length := by omega
    have h1 : i + lag < h.length := by omega
    simp [List.getD_eq_getElem?_getD, h0, h1, Nat.add_comm lag i]

theorem diffSums_length (h : List Int) : (diffSums h).length = 601 := by
  simp [diffSums]

theorem diffSums_getD (h : List Int) (hl : h.length = 2048) (j : Nat) (hj : j < 601) :
    (diffSums h).getD j 0 =
      ((List.range 256).map fun i => (h.getD i 0 - h.getD (i + (40 + j)) 0).natAbs).sum := by
  rw [← diffSum_eq h hl (40 + j) (by omega)]
  simp [diffSums, List.getD_eq_getElem?_getD, hj]

/-! ### The candidate -/

/-- The least of a start value and a list is one of them, and not above any. -/
theorem foldl_min_mem_le (a : Nat) (l : List Nat) :
    l.foldl min a ∈ a :: l ∧ ∀ x ∈ a :: l, l.foldl min a ≤ x := by
  induction l generalizing a with
  | nil => simp
  | cons b l ih =>
    obtain ⟨hmem, hle⟩ := ih (min a b)
    simp only [List.foldl_cons, List.mem_cons] at hmem hle ⊢
    refine ⟨?_, ?_⟩
    · rcases hmem with e | m
      · rcases min_choice a b with h | h <;> rw [e, h] <;> simp
      · exact Or.inr (Or.inr m)
    · have h0 := hle (min a b) (Or.inl rfl)
      rintro x (rfl | rfl | m)
      · exact h0.trans (min_le_left ..)
      · exact h0.trans (min_le_right ..)
      · exact hle x (Or.inr m)

theorem smallest_mem_le (sums : List Nat) (h : sums ≠ []) :
    smallest sums ∈ sums ∧ ∀ x ∈ sums, smallest sums ≤ x := by
  cases sums with
  | nil => exact absurd rfl h
  | cons a l =>
    have := foldl_min_mem_le a (a :: l)
    simpa [smallest] using this

/-- The smallest sum meets the bound, so there is a candidate (R41). -/
theorem candidate_lt (sums : List Nat) (tol : Nat) (h : sums ≠ []) : candidate sums tol < sums.length := by
  refine List.findIdx_lt_length_of_exists ⟨smallest sums, (smallest_mem_le sums h).1, ?_⟩
  simp [candidateBound]

theorem candidate_meets (sums : List Nat) (tol : Nat) (h : sums ≠ []) :
    sums.getD (candidate sums tol) 0 ≤ smallest sums + smallest sums * tol / 256 := by
  have hlt := candidate_lt sums tol h
  have hp := List.findIdx_getElem (w := hlt)
  rw [List.getD_eq_getElem?_getD, List.getElem?_eq_getElem hlt]
  exact of_decide_eq_true hp

theorem before_candidate (sums : List Nat) (tol j : Nat) (h : sums ≠ []) (hj : j < candidate sums tol) :
    smallest sums + smallest sums * tol / 256 < sums.getD j 0 := by
  have hlt : j < sums.length := hj.trans (candidate_lt sums tol h)
  have hn := List.not_of_lt_findIdx hj
  rw [List.getD_eq_getElem?_getD, List.getElem?_eq_getElem hlt]
  exact Nat.lt_of_not_le (of_decide_eq_false hn)

/-! ### The refined period -/

theorem refinement_range (before at' after : Nat) :
    -8 ≤ refinement before at' after ∧ refinement before at' after ≤ 8 := by
  unfold refinement clampInt
  simp only
  split <;> omega

/-- Between the ends the period is the candidate's with its offset (R43, R44). -/
theorem refinedPeriod_inner (sums : List Nat) (i : Nat) (h1 : 1 ≤ i) (h2 : i ≤ 599) :
    (refinedPeriod sums i : Int) = 16 * ((i : Int) + 40)
      + refinement (sums.getD (i - 1) 0) (sums.getD i 0) (sums.getD (i + 1) 0) := by
  have := refinement_range (sums.getD (i - 1) 0) (sums.getD i 0) (sums.getD (i + 1) 0)
  unfold refinedPeriod
  rw [if_pos ⟨h1, h2⟩, Int.toNat_of_nonneg (by omega)]

theorem refinedPeriod_near (sums : List Nat) (i : Nat) (h1 : 1 ≤ i) (h2 : i ≤ 599) :
    16 * (i + 40) - 8 ≤ refinedPeriod sums i ∧ refinedPeriod sums i ≤ 16 * (i + 40) + 8 := by
  have := refinement_range (sums.getD (i - 1) 0) (sums.getD i 0) (sums.getD (i + 1) 0)
  have := refinedPeriod_inner sums i h1 h2
  omega

theorem refinedPeriod_outer (sums : List Nat) (i : Nat) (h : i = 0 ∨ 600 ≤ i) :
    refinedPeriod sums i = 16 * (i + 40) := by
  unfold refinedPeriod
  rw [if_neg (by omega)]

/-- A candidate's refined period lies within 640..10,240 (R44). -/
theorem refinedPeriod_range (sums : List Nat) (i : Nat) (h : i < 601) :
    640 ≤ refinedPeriod sums i ∧ refinedPeriod sums i ≤ 10240 := by
  by_cases hi : 1 ≤ i ∧ i ≤ 599
  · have := refinedPeriod_near sums i hi.1 hi.2
    omega
  · have := refinedPeriod_outer sums i (by omega)
    omega

theorem evaluate_period_range (mean : Nat) (sums : List Nat) (gate threshold tol : Nat)
    (h : sums.length = 601) :
    640 ≤ (evaluate mean sums gate threshold tol).period
      ∧ (evaluate mean sums gate threshold tol).period ≤ 10240 := by
  have hne : sums ≠ [] := by rintro rfl; cases h
  exact refinedPeriod_range _ _ (h ▸ candidate_lt sums tol hne)

/-- The offset of a parabola that opens upward is its rounded vertex, held to half a sample (R43). -/
theorem refinement_vertex (before at' after : Nat)
    (h : 0 < 2 * ((before : Int) - 2 * at' + after)) :
    ∃ q, Rounded q (16 * ((before : Int) - after)) (2 * ((before : Int) - 2 * at' + after))
      ∧ refinement before at' after = max (-8) (min 8 q) := by
  refine ⟨_, roundDiv_rounded _ h, ?_⟩
  unfold refinement clampInt
  simp only
  rw [if_neg (by omega)]

theorem refinement_flat (before at' after : Nat)
    (h : 2 * ((before : Int) - 2 * at' + after) ≤ 0) : refinement before at' after = 0 := by
  unfold refinement
  simp only
  rw [if_pos h]

/-- Settles O15: the candidate is found because the smallest sum meets its own bound. -/
theorem trackerAnswersInRange : Obligations.TrackerAnswersInRange := by
  refine ⟨fun h hl => ⟨meanAbs_eq h hl, diffSums_length h, diffSums_getD h hl⟩, ?_⟩
  intro sums tol hl
  have hne : sums ≠ [] := by rintro rfl; cases hl
  refine ⟨smallest_mem_le sums hne, hl ▸ candidate_lt sums tol hne, candidate_meets sums tol hne,
    fun j => before_candidate sums tol j hne, ?_, ?_, ?_⟩
  · intro i _
    refine ⟨fun h => ?_, fun h => ?_, refinedPeriod_near sums i⟩
    · rw [refinedPeriod_outer sums i (Or.inl h), h]
    · rw [refinedPeriod_outer sums i (Or.inr h.ge), h]
  · intro i h1 h2 before after den
    have hinner := refinedPeriod_inner sums i h1 h2
    refine ⟨fun h => ?_, fun h => ?_⟩
    · rw [refinement_flat _ _ _ h] at hinner
      omega
    · obtain ⟨q, hq, hr⟩ := refinement_vertex _ _ _ h
      exact ⟨q, hq, by rw [hinner, hr]⟩
  · intro mean gate threshold e c
    refine ⟨?_, rfl, rfl, ?_⟩
    · exact Nat.sub_le _ _
    · simp only [e, evaluate, Bool.and_eq_true, decide_eq_true_eq, and_assoc]

end Sys2Proof.Proofs.Tracker
end

