-- ==== Sys2Proof/Proofs/BlockParts.lean ====
section
/-! PROOF. What one lead's block work is made of (R37): writes of the lead's record, occurrences, requests to
voices, and a timed gateway's hand-off. A law that these keep, block work keeps. -/

namespace Sys2Proof.Proofs.BlockParts

open Sys2Proof Sys2Proof.Machine Sys2Proof.Safety Sys2Proof.Proofs.StepParts Sys2Proof.Proofs.Tracker

/-- A level a transition may take: at most 15, or the priority of a gateway (R122, R126, R129). -/
def LevelFrom (s : State) (n : Nat) : Prop := n ≤ 15 ∨ ∃ g, n = (s.gateway g).priority

/-- A lead's record that block work may write in the place of `c`: the history stays, the splice period stays
within what a voiced block gives, and a transition's level is one that a cue may give it. -/
structure RecordStep (s : State) (c d : LeadChannel) : Prop where
  history : d.history = c.history
  period : d.splicePeriod = c.splicePeriod ∨ (40 ≤ d.splicePeriod ∧ d.splicePeriod ≤ 640)
  level : ∀ t, d.transition = some t → c.transition = some t ∨ LevelFrom s t.level

/-- A record whose history, splice period and transition stay. -/
theorem RecordStep.of_same {s : State} {c d : LeadChannel} (hh : d.history = c.history)
    (hp : d.splicePeriod = c.splicePeriod) (ht : d.transition = c.transition) : RecordStep s c d :=
  ⟨hh, Or.inl hp, fun _ h => Or.inl (ht ▸ h)⟩

/-- The parts of block work keep `P`. -/
structure KeptByBlockParts (P : State → Prop) : Prop where
  frame : ∀ {s t}, P s → lawPart t = lawPart s → t.outq = s.outq → P t
  raise : ∀ (k : FaultKind) (sc : Scope) {s}, P s → P (raise k sc s)
  offer : ∀ (m : Message) {s}, P s → P (offerNotice m s)
  record : ∀ (L : Lead) {s d}, RecordStep s (s.lead L) d → P s → P (s.setLead L d)
  clearPending : ∀ (g : Fin 8) {s}, P s → P (clearPending g s)
  handOff : ∀ (L : Lead) {s}, P s → P (handOff L s)
  release : ∀ (v : VoiceId) {s}, P s → P (releaseVoice v s)
  reassign : ∀ (v : VoiceId) (p : Assignment) {s}, P s → P (reassignVoice v p s)
  assign : ∀ (v : VoiceId) (L : Lead) (p : Assignment) {s}, s.isLeadSlot p.slot = false →
    P s → P (assignVoice v L p s)
  fall : ∀ (v : VoiceId) {s}, P s → P (fallToIdle v s)
  retarget : ∀ (L : Lead) (v : VoiceId) {s}, P s → P (retargetVoice L v s)

section
variable {P : State → Prop} (K : KeptByBlockParts P)
include K

theorem countEvent_keeps (e : Event) {s : State} (h : P s) : P (countEvent e s) :=
  K.frame h rfl rfl

/-! ### Tracker and note decision -/

theorem trackLead_keeps (L : Lead) {s : State} (h : P s) : P (trackLead L s) := by
  have hset : P (s.setLead L ((s.lead L).tracked (evaluate (meanAbs (s.lead L).history)
      (diffSums (s.lead L).history) (s.params L).gate (s.params L).threshold (s.params L).tolerance))) := by
    refine K.record L ?_ h
    have hperiod := evaluate_period_range (meanAbs (s.lead L).history) (diffSums (s.lead L).history)
      (s.params L).gate (s.params L).threshold (s.params L).tolerance (diffSums_length _)
    unfold LeadChannel.tracked
    split
    · exact ⟨rfl, Or.inr ⟨by simp only; omega, by simp only; omega⟩, fun _ h => Or.inl h⟩
    · exact .of_same rfl rfl rfl
  unfold trackLead
  simp only
  split
  · exact countEvent_keeps K _ hset
  · exact hset

theorem decideLead_keeps (L : Lead) {s : State} (h : P s) : P (decideLead L s) := by
  have hset (n : NoteState) (k : Nat) :
      P (s.setLead L { s.lead L with note := n, unvoicedCount := k }) :=
    K.record L (.of_same rfl rfl rfl) h
  have hevent (b : Bool) (e : Event) {u : State} (hu : P u) : P (if b then countEvent e u else u) := by
    split
    · exact countEvent_keeps K _ hu
    · exact hu
  exact hevent _ _ (hevent _ _ (hset _ _))

/-! ### Cues -/

theorem reachOwned_keeps (r : Scene) (acc : State × Nat) (v : VoiceId) (h : P acc.1) :
    P (reachOwned r acc v).1 := by
  unfold reachOwned
  split
  · exact K.release v h
  · exact K.reassign v _ h

theorem takeEntry_keeps (L : Lead) (owned : List VoiceId) (acc : State × Nat) (e : SceneEntry)
    (h : P acc.1) : P (takeEntry L owned acc e).1 := by
  unfold takeEntry
  split
  · exact h
  · split
    · rename_i free
      exact K.assign _ L _ free.2 h
    · exact h

omit K in
/-- What each step of a fold keeps of its first part, the fold keeps. -/
theorem foldl_fst_keeps {α : Type} (f : State × Nat → α → State × Nat)
    (hf : ∀ acc a, P acc.1 → P (f acc a).1) : ∀ (l : List α) (acc : State × Nat), P acc.1 →
      P (l.foldl f acc).1
  | [], _, h => h
  | a :: l, acc, h => foldl_fst_keeps f hf l (f acc a) (hf acc a h)

omit K in
theorem foldl_keeps {α : Type} (f : State → α → State) (hf : ∀ s a, P s → P (f s a)) :
    ∀ (l : List α) (s : State), P s → P (l.foldl f s)
  | [], _, h => h
  | a :: l, s, h => foldl_keeps f hf l (f s a) (hf s a h)

theorem applySteps_keeps (L : Lead) (n : Fin 32) {s : State} (h : P s) : P (applySteps L n s) := by
  have hset : P (s.setLead L ((s.lead L).withScene n s.scenes[n])) :=
    K.record L (.of_same rfl rfl rfl) h
  have hvoices := foldl_fst_keeps (takeEntry L (ownedVoices s L)) (takeEntry_keeps K L (ownedVoices s L))
    s.scenes[n].entries _
    (foldl_fst_keeps (reachOwned s.scenes[n]) (reachOwned_keeps K s.scenes[n]) (ownedVoices s L)
      (s.setLead L ((s.lead L).withScene n s.scenes[n]), 0) hset)
  unfold applySteps
  simp only
  split
  · exact hvoices
  · exact K.raise _ _ hvoices

theorem startTransition_keeps (L : Lead) (level : Nat) (k : TransitionKind) {s : State}
    (hl : LevelFrom s level) (h : P s) : P (startTransition L level k s) :=
  K.record L ⟨rfl, Or.inl rfl, fun t ht => Or.inr (by cases ht; exact hl)⟩ h

theorem raiseLevel_keeps (L : Lead) (prio : Nat) {s : State} (hl : LevelFrom s prio) (h : P s) :
    P (raiseLevel L prio s) := by
  unfold raiseLevel
  split
  · exact K.record L ⟨rfl, Or.inl rfl, fun t ht => Or.inr (by cases ht; exact hl)⟩ h
  · exact h

omit K in
/-- A level stays allowed while the gateways stay. -/
theorem LevelFrom.of_gateways {s t : State} {n : Nat} (h : LevelFrom s n) (e : t.gateways = s.gateways) :
    LevelFrom t n := by
  unfold LevelFrom State.gateway at *
  rwa [e]

omit K in
theorem setLead_gateways (L : Lead) (c : LeadChannel) (s : State) : (s.setLead L c).gateways = s.gateways := by
  cases L <;> rfl

theorem applyScene_keeps (L : Lead) (n : Fin 32) (prio : Nat) {s : State} (hl : LevelFrom s prio)
    (h : P s) : P (applyScene L n prio s) :=
  startTransition_keeps K L prio _
    (hl.of_gateways ((applySteps_onlyVoices L n s).gateways.trans (setLead_gateways ..)))
    (applySteps_keeps K L n h)

theorem silenceLead_keeps (L : Lead) {s : State} (h : P s) : P (silenceLead L s) :=
  foldl_keeps _ (fun _ v => K.fall v) _ _ (K.record L (.of_same rfl rfl rfl) h)

theorem applyCue_keeps (L : Lead) (c : Cue) (prio : Nat) {s : State} (hl : LevelFrom s prio) (h : P s) :
    P (applyCue L c prio s) := by
  have ignored : P (raiseLevel L prio (countEvent .stepNoNext s)) :=
    raiseLevel_keeps K L prio hl (countEvent_keeps K _ h)
  have written {d : LeadChannel} (hd : RecordStep s (s.lead L) d) : P (raiseLevel L prio (s.setLead L d)) :=
    raiseLevel_keeps K L prio (hl.of_gateways (setLead_gateways ..)) (K.record L hd h)
  cases c with
  | scene n => exact applyScene_keeps K L n prio hl h
  | step =>
    unfold applyCue applyStep
    simp only
    split
    · split
      · exact applyScene_keeps K L _ prio hl h
      · exact ignored
    · exact ignored
  | chord key map => exact written (.of_same rfl rfl rfl)
  | hold =>
    unfold applyCue holdLead
    simp only
    split
    · exact raiseLevel_keeps K L prio hl h
    · exact written (.of_same rfl rfl rfl)
  | release =>
    unfold applyCue releaseHold
    simp only
    split
    · exact written (.of_same rfl rfl rfl)
    · exact raiseLevel_keeps K L prio hl h
  | silence =>
    refine startTransition_keeps K L prio _ (hl.of_gateways ?_) (silenceLead_keeps K L h)
    exact (OnlyVoices.foldl _ (fun s v => fallToIdle_onlyVoices v s) _ _).gateways.trans (setLead_gateways ..)
  | resume =>
    exact startTransition_keeps K L prio _ (hl.of_gateways (setLead_gateways ..))
      (K.record L (.of_same rfl rfl rfl) h)

/-! ### The port and the targets -/

omit K in
/-- Emptying a gateway keeps every priority. -/
theorem clearPending_priority (g j : Fin 8) (s : State) :
    ((clearPending g s).gateway j).priority = (s.gateway j).priority := by
  unfold clearPending
  by_cases e : g = j
  · subst e
    rw [State.gateway_setGateway]
  · rw [State.gateway_setGateway_ne _ _ _ _ e]

theorem portStep_keeps (L : Lead) {s : State} (h : P s) : P (portStep L s) := by
  unfold portStep
  split
  · exact h
  · rename_i g _
    split
    · exact h
    · rename_i c _
      have hcue : P (countEvent .cueApplied (applyCue L c.cue (s.gateway g).priority (clearPending g s))) :=
        countEvent_keeps K _ (applyCue_keeps K L _ _ (Or.inr ⟨g, (clearPending_priority g g s).symm⟩)
          (K.clearPending g h))
      simp only
      repeat' split
      · exact K.handOff L (countEvent_keeps K _ hcue)
      · exact K.handOff L hcue
      · exact countEvent_keeps K _ hcue
      · exact hcue

theorem cueStep_keeps (ls : LinkState) (L : Lead) {s : State} (h : P s) : P (cueStep ls L s) := by
  have hcleared : P (s.setLead L { s.lead L with startFlag := false }) :=
    K.record L (.of_same rfl rfl rfl) h
  unfold cueStep
  simp only
  repeat' split
  · exact applyScene_keeps K L _ 15 (Or.inl (Nat.le_refl 15)) hcleared
  · exact portStep_keeps K L hcleared
  · exact portStep_keeps K L h

theorem retargetLead_keeps (L : Lead) {s : State} (h : P s) : P (retargetLead L s) :=
  foldl_keeps _ (fun s v hs => by
    split
    · exact K.retarget L v hs
    · exact hs) _ _ h

end

/-! ### The completion check and the whole block work -/

section
variable {P : State → Prop} (K : KeptByBlockParts P)
include K

theorem checkCompletion_keeps (L : Lead) {s : State} (h : P s) : P (checkCompletion L s) := by
  unfold checkCompletion
  split
  · exact h
  · split
    · exact K.offer _ (K.record L ⟨rfl, Or.inl rfl, nofun⟩ h)
    · exact h

/-- One lead's block work keeps what its parts keep (R37). -/
theorem blockWork_keeps (ls : LinkState) (L : Lead) {s : State} (h : P s) : P (blockWork ls L s) :=
  checkCompletion_keeps K L (retargetLead_keeps K L (cueStep_keeps K ls L
    (decideLead_keeps K L (trackLead_keeps K L h))))

end

end Sys2Proof.Proofs.BlockParts
end

