-- ==== Sys2Proof/Proofs/RecordRanges.lean ====
section
/-! PROOF. Tables and configuration lie within their ranges (R54, R55, R71, R111, R178): what a load buffer or a
CONFIGURE body can install, and that nothing else writes them. -/

namespace Sys2Proof.Proofs.RecordRanges

open Sys2Proof Sys2Proof.Machine Sys2Proof.Safety Sys2Proof.Proofs.StepParts Sys2Proof.Proofs.RequestMoves

/-! ### What is read is within its ranges -/

theorem tuningOfBytes_ok {bs : List Byte} {rows : List TuningRow} (h : tuningOfBytes bs = some rows) :
    TuningOk rows := by
  unfold tuningOfBytes at h
  simp only at h
  split at h
  · rename_i size
    split at h
    · rename_i ok
      cases h
      exact ⟨by simpa using size.2.1, ok⟩
    · cases h
  · cases h

theorem mapEntryOfByte_range {b : Byte} {i : Int} (h : mapEntryOfByte b = some i) : -24 ≤ i ∧ i ≤ 24 := by
  unfold mapEntryOfByte clampInt at h
  split at h
  · cases h
  · cases h
    omega

theorem mapOfBytes_ok {bs : List Byte} {m : List MapEntry} (h : mapOfBytes bs = some m) : MapOk m := by
  unfold mapOfBytes at h
  split at h
  · rename_i size
    cases h
    refine ⟨by simpa using size, fun i hi => ?_⟩
    obtain ⟨b, _, hb⟩ := List.mem_map.1 hi
    exact mapEntryOfByte_range hb
  · cases h

theorem fadeOfCode_mem (c : Nat) : fadeOfCode c ∈ [256, 512, 1024, 2048, 4096] := by
  unfold fadeOfCode
  split <;> simp

/-- All readings that succeed come out in order, one for each. -/
theorem allSome_eq_some {α : Type} : ∀ {xs : List (Option α)} {ys : List α},
    allSome xs = some ys ↔ xs = ys.map some
  | [], ys => by cases ys <;> simp [allSome]
  | none :: xs, ys => by cases ys <;> simp [allSome]
  | some x :: xs, ys => by
    cases ys with
    | nil => simp [allSome]
    | cons y ys => simp [allSome, allSome_eq_some (xs := xs), and_comm]

/-- A voice entry that is read has its level and detune within their ranges (R112). -/
theorem sceneEntryAt_range {bs : List Byte} {i : Nat} {e : SceneEntry} (h : sceneEntryAt bs i = some e) :
    e.part.level ≤ 128 ∧ -256 ≤ e.part.detune ∧ e.part.detune ≤ 256 := by
  unfold sceneEntryAt clampInt at h
  split at h
  · cases h
    refine ⟨Nat.min_le_left .., ?_, ?_⟩ <;> simp only <;> omega
  · cases h

theorem sceneOfBytes_ok {bs : List Byte} {c : Scene} (h : sceneOfBytes bs = some c) : SceneOk c := by
  unfold sceneOfBytes at h
  simp only at h
  split at h
  · rename_i size
    split at h
    · rename_i entries _ _ _ _ read
      split at h
      · rename_i distinct
        have heq := allSome_eq_some.1 read
        have hlen : entries.length = (byteAt bs 0).toNat := by
          have := congrArg List.length heq
          simpa using this.symm
        have hbyte (i : Nat) : (byteAt bs i).toNat ≤ 255 := by
          have := (byteAt bs i).isLt
          omega
        cases h
        refine ⟨by simp only; omega, by simp only; omega, hbyte 8, hbyte 9, hbyte 10, hbyte 11,
          Nat.min_le_left .., Nat.min_le_left .., fadeOfCode_mem _, by simp only; omega, distinct, ?_⟩
        intro e he
        have hmem : some e ∈ (List.range (byteAt bs 0).toNat).map fun j => sceneEntryAt bs (16 + 5 * j) := by
          rw [heq]
          exact List.mem_map_of_mem he
        obtain ⟨j, _, hj⟩ := List.mem_map.1 hmem
        exact sceneEntryAt_range hj
      · cases h
    · cases h
  · cases h

theorem configOfBody_range {body : List Byte} {c : ConfigRecord} (h : configOfBody body = some c) :
    c.lateWindow ≤ 4800 ∧ 1 ≤ c.stuckLimit ∧ c.stuckLimit ≤ 120 := by
  unfold configOfBody at h
  simp only at h
  split at h
  · split at h
    · cases h
      refine ⟨Nat.min_le_left .., ?_, ?_⟩ <;> simp only <;> omega
    · cases h
  · cases h

/-! ### The law -/

theorem tablesLaw_congr {s t : State} (hc : t.config = s.config) (ht : t.tuning = s.tuning)
    (hm : t.maps = s.maps) (hs : t.scenes = s.scenes) (h : TablesLaw s) : TablesLaw t := by
  unfold TablesLaw at *
  rwa [hc, ht, hm, hs]

theorem tablesLaw_of_onlyEngine {s t : State} (e : OnlyEngine s t) (h : TablesLaw s) : TablesLaw t :=
  tablesLaw_congr e.config e.tuning e.maps e.scenes h

/-- A place of a table list written with a record that keeps `Q`. -/
theorem set_keeps {α : Type} {n : Nat} {Q : α → Prop} {xs : Vector α n} (h : ∀ i : Fin n, Q xs[i]) (j : Fin n)
    {x : α} (hx : Q x) (i : Fin n) : Q (xs.set j x)[i] := by
  simp only [Fin.getElem_fin, Vector.getElem_set]
  split
  · exact hx
  · exact h i

theorem tablesLaw_reset : TablesLaw State.reset := by
  refine ⟨by unfold TuningOk; decide, fun i => ?_, by unfold SceneOk; decide +kernel, by decide, by decide,
    by decide⟩
  have hrest : State.reset.maps[i] = List.replicate 48 none := by simp [State.reset]
  rw [hrest]
  exact ⟨by decide, fun j m => by cases List.eq_of_mem_replicate m⟩

theorem tablesLaw_request {s t : State} (m : RequestMove s t) (h : TablesLaw s) : TablesLaw t := by
  obtain ⟨htuning, hmaps, hscenes, hconfig⟩ := id h
  cases m with
  | configured body c valid _ _ => exact ⟨htuning, hmaps, hscenes, configOfBody_range valid⟩
  | tuned bs i rows valid => exact ⟨set_keeps htuning i (tuningOfBytes_ok valid), hmaps, hscenes, hconfig⟩
  | mapped bs i m valid => exact ⟨htuning, set_keeps hmaps i (mapOfBytes_ok valid), hscenes, hconfig⟩
  | staged bs i c valid => exact ⟨htuning, hmaps, set_keeps hscenes i (sceneOfBytes_ok valid), hconfig⟩
  | pended L c => exact tablesLaw_of_onlyEngine (setPending_onlyEngine ..) h
  | late L => exact tablesLaw_of_onlyEngine (raise_onlyFaults ..).engine h
  | entered e late valid => exact tablesLaw_of_onlyEngine (enterTimed_onlyEngine ..) h
  | fixedGateway g enabled n high =>
    exact tablesLaw_of_onlyEngine ((OnlyEngine.setGateway ..).trans (handOffAfterSet_onlyEngine ..)) h
  | threshold L n => cases L <;> exact h
  | cleared ks => exact tablesLaw_of_onlyEngine (clearKinds_onlyFaults ..).engine h
  | setup ks detect report sev => exact tablesLaw_of_onlyEngine (setupKinds_onlyFaults ..).engine h
  | unchanged | loading _ _ | flushed _ | pedalGateway _ _ _ _ _ | counters _ | engineReset => exact h

/-! ### The rows that act alone touch the engine alone -/

theorem endCrossfade_onlyVoices (v : VoiceId) (s : State) : OnlyVoices s (endCrossfade v s) := by
  unfold endCrossfade
  split
  · split
    · exact OnlyVoices.setVoice ..
    · exact OnlyVoices.refl s
  · exact OnlyVoices.refl s

theorem endRise_onlyVoices (v : VoiceId) (s : State) : OnlyVoices s (endRise v s) := by
  unfold endRise
  split
  · exact OnlyVoices.setVoice ..
  · exact OnlyVoices.refl s

theorem finishFall_onlyVoices (v : VoiceId) (s : State) : OnlyVoices s (finishFall v s) := by
  unfold finishFall
  split
  · exact endFallNow_onlyVoices ..
  · exact OnlyVoices.refl s

theorem reachDebounce_onlyEngine (l : LineId) (s : State) : OnlyEngine s (reachDebounce l s) := by
  unfold reachDebounce
  split
  · split
    · exact pedalEdge_onlyEngine ..
    · exact OnlyEngine.refl s
  · exact OnlyEngine.refl s

theorem reachStuck_onlyEngine (l : LineId) (s : State) : OnlyEngine s (reachStuck l s) := by
  unfold reachStuck
  split
  · exact (OnlyEngine.setPedal ..).trans (judgeStuck_onlyEngine ..)
  · exact OnlyEngine.refl s

theorem markDue_onlyEngine (k : Nat) (s : State) : OnlyEngine s (markDue k s) := by
  unfold markDue
  split
  · rename_i e _
    split
    · exact OnlyEngine.trans (t := { s with timed := s.timed.set k { e with mark := true } })
        ⟨rfl, List.prefix_refl _⟩ (handOff_onlyEngine ..)
    · exact OnlyEngine.refl s
  · exact OnlyEngine.refl s

theorem tablesLaw_keptByParts : KeptByParts TablesLaw where
  frame h e := tablesLaw_congr (congrArg State.config e :) (congrArg State.tuning e :)
    (congrArg State.maps e :) (congrArg State.scenes e :) h
  reset := tablesLaw_reset
  engineReset h := h
  adoptCount c s h := tablesLaw_of_onlyEngine (adoptCount_onlyEngine c s) h
  samples _ _ h := h
  raise _ _ _ h := tablesLaw_of_onlyEngine (raise_onlyFaults ..).engine h
  voiceWork _ _ h := tablesLaw_of_onlyEngine (voiceWork_onlyVoices ..).engine h
  pedalWork _ _ _ h := tablesLaw_of_onlyEngine (pedalWork_onlyEngine ..) h
  blockWork _ _ _ h := tablesLaw_of_onlyEngine (blockWork_onlyEngine ..) h
  execute kind r s h := tablesLaw_request (executeKind_move kind r s) h
  endCrossfade _ _ h := tablesLaw_of_onlyEngine (endCrossfade_onlyVoices ..).engine h
  endRise _ _ h := tablesLaw_of_onlyEngine (endRise_onlyVoices ..).engine h
  finishFall _ _ h := tablesLaw_of_onlyEngine (finishFall_onlyVoices ..).engine h
  reachDebounce _ _ h := tablesLaw_of_onlyEngine (reachDebounce_onlyEngine ..) h
  reachStuck _ _ h := tablesLaw_of_onlyEngine (reachStuck_onlyEngine ..) h
  markDue _ _ h := tablesLaw_of_onlyEngine (markDue_onlyEngine ..) h
  handOff _ _ h := tablesLaw_of_onlyEngine (handOff_onlyEngine ..) h

/-- Settles O57: a commit and a CONFIGURE alone write tables and configuration, and both read them within their
ranges. -/
theorem stepKeepsTablesLaw : Obligations.StepKeepsTablesLaw :=
  fun _ _ h e => step_keeps tablesLaw_keptByParts h e

end Sys2Proof.Proofs.RecordRanges
end

