-- ==== Sys2Proof/Proofs/CueLaws.lean ====
section
/-! PROOF. The laws of histories, of the timed cue queue and of the Cue Unit (R33, R35, R130, R133, R139): each
rests on what the Cue Unit's own operations do. -/

namespace Sys2Proof.Proofs.CueLaws

open Sys2Proof Sys2Proof.Machine Sys2Proof.Safety Sys2Proof.Proofs.StepParts Sys2Proof.Proofs.RequestMoves
  Sys2Proof.Proofs.BlockParts Sys2Proof.Proofs.RecordRanges

/-! ### What pedals and pending cues touch -/

/-- A state without what the pedal lines and the pending cues touch. -/
def withoutPedals (s : State) : State :=
  { s.withoutFaults with pedals := State.reset.pedals, gateways := State.reset.gateways }

/-- `t` differs from `s` in pedal lines, gateways and what an occurrence touches alone. -/
def OnlyPedals (s t : State) : Prop := withoutPedals t = withoutPedals s

theorem OnlyPedals.trans {s t u : State} (h : OnlyPedals s t) (k : OnlyPedals t u) : OnlyPedals s u :=
  Eq.trans k h

theorem OnlyPedals.of_faults {s t : State} (h : OnlyFaults s t) : OnlyPedals s t :=
  (congrArg (fun u : State => { u with pedals := State.reset.pedals, gateways := State.reset.gateways })
    h.rest :)

theorem OnlyPedals.setPedal (s : State) (l : LineId) (p : PedalLine) : OnlyPedals s (s.setPedal l p) :=
  Eq.refl (withoutPedals s)

theorem OnlyPedals.leads {s t : State} (h : OnlyPedals s t) : t.leadA = s.leadA ∧ t.leadB = s.leadB :=
  ⟨(congrArg State.leadA h :), (congrArg State.leadB h :)⟩

theorem OnlyPedals.timed {s t : State} (h : OnlyPedals s t) : t.timed = s.timed :=
  (congrArg State.timed h :)

theorem OnlyPedals.ltu {s t : State} (h : OnlyPedals s t) : t.ltu = s.ltu :=
  (congrArg State.ltu h :)

theorem setPending_onlyPedals (g : Fin 8) (c : Cue) (o : Origin) (s : State) :
    OnlyPedals s (setPending g c o s) := by
  unfold setPending
  simp only
  repeat' split
  all_goals exact Eq.refl (withoutPedals s)

theorem setPendingOption_onlyPedals (g : Fin 8) (c : Option Cue) (o : Origin) (s : State) :
    OnlyPedals s (setPending? g c o s) := by
  unfold setPending?
  split
  · exact setPending_onlyPedals ..
  · exact Eq.refl (withoutPedals s)

theorem releaseEdge_onlyPedals (g : Fin 8) (s : State) : OnlyPedals s (releaseEdge g s) := by
  unfold releaseEdge
  simp only
  repeat' split
  all_goals first
    | exact Eq.refl (withoutPedals s) | exact setPendingOption_onlyPedals ..

theorem pedalEdge_onlyPedals (l : LineId) (level : PedalLevel) (s : State) :
    OnlyPedals s (pedalEdge l level s) := by
  cases level with
  | pressed => exact (OnlyPedals.setPedal s l _).trans (setPendingOption_onlyPedals _ _ _ _)
  | released => exact (OnlyPedals.setPedal s l _).trans (releaseEdge_onlyPedals _ _)

theorem debounceLine_onlyPedals (l : LineId) (s : State) : OnlyPedals s (debounceLine l s) := by
  unfold debounceLine
  simp only
  repeat' split
  all_goals first | exact Eq.refl (withoutPedals s) | exact pedalEdge_onlyPedals ..

theorem judgeStuck_onlyPedals (l : LineId) (s : State) : OnlyPedals s (judgeStuck l s) := by
  have hraised (k : FaultKind) (sc : Scope) (p : PedalLine) : OnlyPedals s (raise k sc (s.setPedal l p)) :=
    (OnlyPedals.setPedal s l p).trans (OnlyPedals.of_faults (raise_onlyFaults k sc _))
  unfold judgeStuck
  simp only
  repeat' split
  · exact hraised _ _ _
  · exact hraised _ _ _
  · exact hraised _ _ _
  · exact Eq.refl (withoutPedals s)

theorem pedalWork_onlyPedals (limit : Nat) (l : LineId) (s : State) : OnlyPedals s (pedalWork limit l s) := by
  have htimed := (debounceLine_onlyPedals l s).trans
    (OnlyPedals.setPedal _ l ((debounceLine l s).pedal l).timed)
  unfold pedalWork
  simp only
  split
  · exact htimed.trans (judgeStuck_onlyPedals l _)
  · exact htimed

theorem reachDebounce_onlyPedals (l : LineId) (s : State) : OnlyPedals s (reachDebounce l s) := by
  unfold reachDebounce
  repeat' split
  all_goals first | exact Eq.refl (withoutPedals s) | exact pedalEdge_onlyPedals ..

theorem reachStuck_onlyPedals (l : LineId) (s : State) : OnlyPedals s (reachStuck l s) := by
  unfold reachStuck
  split
  · exact (OnlyPedals.setPedal s l _).trans (judgeStuck_onlyPedals l _)
  · exact Eq.refl (withoutPedals s)

/-! ### Histories -/

theorem historyLaw_congr {s t : State} (e : ∀ L, (t.lead L).history = (s.lead L).history)
    (h : HistoryLaw s) : HistoryLaw t := fun L => by
  rw [e L]
  exact h L

theorem historyLaw_of_leads {s t : State} (e : t.leadA = s.leadA ∧ t.leadB = s.leadB) (h : HistoryLaw s) :
    HistoryLaw t :=
  historyLaw_congr (fun L => by
    cases L
    · exact congrArg LeadChannel.history e.1
    · exact congrArg LeadChannel.history e.2) h

theorem historyLaw_of_onlyVoices {s t : State} (e : OnlyVoices s t) (h : HistoryLaw s) : HistoryLaw t :=
  historyLaw_congr (fun L => (congrArg LeadChannel.history (e.lead L) :)) h

theorem pushSample_ok {x : Int} {h : List Int} (hx : (-8388608 ≤ x ∧ x ≤ 8388607) ∨ x = lastSample h)
    (hl : h.length = 2048) (hr : ∀ y ∈ h, -8388608 ≤ y ∧ y ≤ 8388607) :
    (pushSample x h).length = 2048 ∧ ∀ y ∈ pushSample x h, -8388608 ≤ y ∧ y ≤ 8388607 := by
  have hnew : -8388608 ≤ x ∧ x ≤ 8388607 := by
    rcases hx with hx | rfl
    · exact hx
    · cases h with
      | nil => cases hl
      | cons y ys => exact hr y List.mem_cons_self
  refine ⟨by simp [pushSample, hl], fun y hy => ?_⟩
  rcases List.mem_cons.1 (List.mem_of_mem_take hy) with rfl | m
  · exact hnew
  · exact hr y m

theorem historyLaw_reset_records {s : State} (ha : s.leadA = LeadChannel.reset) (hb : s.leadB = LeadChannel.reset) :
    HistoryLaw s := fun L => by
  have e : s.lead L = LeadChannel.reset := by cases L <;> assumption
  rw [e]
  exact ⟨List.length_replicate, fun x hx => by cases List.eq_of_mem_replicate hx; decide⟩

theorem lead_setLead (s : State) (L M : Lead) (c : LeadChannel) :
    (s.setLead L c).lead M = if M = L then c else s.lead M := by
  cases L <;> cases M <;> rfl

theorem historyLaw_blockParts : KeptByBlockParts HistoryLaw where
  frame h e _ := historyLaw_of_leads ⟨(congrArg State.leadA e :), (congrArg State.leadB e :)⟩ h
  raise _ _ _ h := historyLaw_of_onlyVoices (raise_onlyFaults ..).toVoices h
  offer _ _ h := historyLaw_of_onlyVoices (offerNotice_onlyFaults ..).toVoices h
  record L s d hd h := historyLaw_congr (fun M => by
    rw [lead_setLead]
    split
    · rename_i e
      rw [e]
      exact hd.history
    · rfl) h
  clearPending _ _ h := h
  handOff L s h := historyLaw_of_leads (handOff_leads L s) h
  release _ _ h := historyLaw_of_onlyVoices (releaseVoice_onlyVoices ..) h
  reassign _ _ _ h := historyLaw_of_onlyVoices (reassignVoice_onlyVoices ..) h
  assign _ _ _ _ _ h := historyLaw_of_onlyVoices (assignVoice_onlyVoices ..) h
  fall _ _ h := historyLaw_of_onlyVoices (fallToIdle_onlyVoices ..) h
  retarget _ _ _ h := historyLaw_of_onlyVoices (retargetVoice_onlyVoices ..) h

theorem enterTimed_leads (e : TimedEntry) (late : Bool) (s : State) :
    (enterTimed e late s).state.leadA = s.leadA ∧ (enterTimed e late s).state.leadB = s.leadB := by
  have hin := handOff_leads e.lead { s with timed := insertEntry s.ltu.count e s.timed }
  unfold enterTimed
  split
  · exact ⟨(raise_onlyFaults ..).leadA, (raise_onlyFaults ..).leadB⟩
  · cases late
    · exact hin
    · exact ⟨((raise_onlyFaults ..).leadA).trans hin.1, ((raise_onlyFaults ..).leadB).trans hin.2⟩

theorem handOffAfterSet_leads (g : Fin 8) (s : State) :
    (handOffAfterSet g s).leadA = s.leadA ∧ (handOffAfterSet g s).leadB = s.leadB := by
  unfold handOffAfterSet
  repeat' split
  all_goals first | exact handOff_leads .. | exact ⟨rfl, rfl⟩

theorem markDue_leads (k : Nat) (s : State) :
    (markDue k s).leadA = s.leadA ∧ (markDue k s).leadB = s.leadB := by
  unfold markDue
  repeat' split
  all_goals first | exact handOff_leads _ { s with timed := _ } | exact ⟨rfl, rfl⟩

theorem historyLaw_request {s t : State} (m : RequestMove s t) (h : HistoryLaw s) : HistoryLaw t := by
  cases m with
  | pended L c => exact historyLaw_of_leads (setPending_onlyPedals ..).leads h
  | late L => exact historyLaw_of_onlyVoices (raise_onlyFaults ..).toVoices h
  | entered e late valid => exact historyLaw_of_leads (enterTimed_leads e late s) h
  | fixedGateway g enabled n high => exact historyLaw_of_leads (handOffAfterSet_leads g _) h
  | threshold L n => cases L <;> exact h
  | cleared ks => exact historyLaw_of_onlyVoices (clearKinds_onlyFaults ..).toVoices h
  | setup ks detect report sev => exact historyLaw_of_onlyVoices (setupKinds_onlyFaults ..).toVoices h
  | engineReset => exact historyLaw_reset_records rfl rfl
  | unchanged | configured _ _ _ _ _ | loading _ _ | tuned _ _ _ _ | mapped _ _ _ _ | staged _ _ _ _
  | flushed _ | pedalGateway _ _ _ _ _ | counters _ => exact h

theorem historyLaw_keptByParts : KeptByParts HistoryLaw where
  frame h e := historyLaw_of_leads ⟨(congrArg State.leadA e :), (congrArg State.leadB e :)⟩ h
  reset := historyLaw_reset_records rfl rfl
  engineReset _ := historyLaw_reset_records rfl rfl
  adoptCount c s h := historyLaw_of_leads (adoptCount_leads c s) h
  samples ha hb h := fun L => by
    cases L
    · exact pushSample_ok ha (h .a).1 (h .a).2
    · exact pushSample_ok hb (h .b).1 (h .b).2
  raise _ _ _ h := historyLaw_of_onlyVoices (raise_onlyFaults ..).toVoices h
  voiceWork _ _ h := historyLaw_of_onlyVoices (voiceWork_onlyVoices ..) h
  pedalWork _ _ _ h := historyLaw_of_leads (pedalWork_onlyPedals ..).leads h
  blockWork ls L _ h := blockWork_keeps historyLaw_blockParts ls L h
  execute kind r s h := historyLaw_request (executeKind_move kind r s) h
  endCrossfade _ _ h := historyLaw_of_onlyVoices (endCrossfade_onlyVoices ..) h
  endRise _ _ h := historyLaw_of_onlyVoices (endRise_onlyVoices ..) h
  finishFall _ _ h := historyLaw_of_onlyVoices (finishFall_onlyVoices ..) h
  reachDebounce _ _ h := historyLaw_of_leads (reachDebounce_onlyPedals ..).leads h
  reachStuck _ _ h := historyLaw_of_leads (reachStuck_onlyPedals ..).leads h
  markDue _ _ h := historyLaw_of_leads (markDue_leads ..) h
  handOff _ _ h := historyLaw_of_leads (handOff_leads ..) h

/-- Settles O59: every sample appended lies in the sample range or repeats one that does, and nothing else writes
a history but the resets. -/
theorem stepKeepsHistories : Obligations.StepKeepsHistories :=
  fun _ _ h e => step_keeps historyLaw_keptByParts h e

/-! ### The timed cue queue -/

/-- An entry stands as its mark says: at the held count, or after it (R139). -/
def EntryOk (count : Word32) (e : TimedEntry) : Prop :=
  if e.mark then e.due = count else 0 < ahead count e.due ∧ ahead count e.due ≤ 2147483648

/-- A list of entries in the order of R139 at a held count. -/
def Ordered (count : Word32) (es : List TimedEntry) : Prop :=
  (∀ e ∈ es, EntryOk count e) ∧ es.Pairwise fun x y => ahead count x.due ≤ ahead count y.due

theorem timedOrdered_iff (s : State) : TimedOrdered s ↔ Ordered s.ltu.count s.timed := Iff.rfl

theorem Ordered.sublist {count : Word32} {es fs : List TimedEntry} (h : Ordered count es)
    (sub : fs.Sublist es) : Ordered count fs :=
  ⟨fun e m => h.1 e (sub.subset m), h.2.sublist sub⟩

theorem ahead_self (c : Word32) : ahead c c = 0 := by simp [ahead]

theorem EntryOk.ahead_marked {count : Word32} {e : TimedEntry} (h : EntryOk count e) (m : e.mark = true) :
    ahead count e.due = 0 := by
  unfold EntryOk at h
  rw [if_pos m] at h
  rw [h, ahead_self]

/-- One step forward brings an entry that waits one nearer (R139). -/
theorem ahead_succ (count due : Word32) (h : 0 < ahead count due) :
    ahead (count + 1) due = ahead count due - 1 := by
  unfold ahead at *
  bv_omega

theorem eq_of_ahead_eq_zero {count due : Word32} (h : ahead count due = 0) : due = count := by
  unfold ahead at h
  bv_omega

/-- At a step forward an entry keeps its place in time: due entries follow the count, the one whose count it is
becomes due. -/
theorem inOrder_ahead {count : Word32} {e : TimedEntry} (h : EntryOk count e) :
    EntryOk (count + 1) (e.inOrder (count + 1))
      ∧ ahead (count + 1) (e.inOrder (count + 1)).due = ahead count e.due - 1 := by
  unfold EntryOk at h
  unfold TimedEntry.inOrder
  by_cases m : e.mark = true
  · rw [if_pos m] at h
    simp [EntryOk, m, h, ahead_self]
  · rw [if_neg m] at h
    have hstep := ahead_succ count e.due h.1
    rw [if_neg m]
    by_cases hd : e.due = count + 1
    · rw [if_pos hd]
      exact ⟨by simp [EntryOk, hd], hstep⟩
    · rw [if_neg hd]
      have hnz : ahead (count + 1) e.due ≠ 0 := fun z => hd (eq_of_ahead_eq_zero z)
      refine ⟨?_, hstep⟩
      unfold EntryOk
      rw [if_neg m]
      omega

theorem Ordered.inOrder {count : Word32} {es : List TimedEntry} (h : Ordered count es) :
    Ordered (count + 1) (es.map fun e => e.inOrder (count + 1)) := by
  refine ⟨fun e m => ?_, ?_⟩
  · obtain ⟨x, hx, rfl⟩ := List.mem_map.1 m
    exact (inOrder_ahead (h.1 x hx)).1
  · rw [List.pairwise_map]
    refine h.2.imp_of_mem fun {x y} hx hy hxy => ?_
    rw [(inOrder_ahead (h.1 x hx)).2, (inOrder_ahead (h.1 y hy)).2]
    omega

theorem mem_insertByDistance (count : Word32) (e x : TimedEntry) (es : List TimedEntry) :
    x ∈ insertByDistance count e es ↔ x = e ∨ x ∈ es := by
  induction es with
  | nil => simp [insertByDistance]
  | cons y ys ih =>
    unfold insertByDistance
    split
    · simp only [List.mem_cons, ih]
      tauto
    · simp

/-- An entry put behind every one at most as far ahead keeps the distances in order (R140). -/
theorem insertByDistance_pairwise (count : Word32) (e : TimedEntry) (es : List TimedEntry)
    (h : es.Pairwise fun x y => ahead count x.due ≤ ahead count y.due) :
    (insertByDistance count e es).Pairwise fun x y => ahead count x.due ≤ ahead count y.due := by
  induction es with
  | nil => simp [insertByDistance]
  | cons y ys ih =>
    obtain ⟨hy, hys⟩ := List.pairwise_cons.1 h
    unfold insertByDistance
    split
    · rename_i le
      refine List.pairwise_cons.2 ⟨fun x m => ?_, ih hys⟩
      rcases (mem_insertByDistance count e x ys).1 m with rfl | m
      · exact le
      · exact hy x m
    · rename_i gt
      refine List.pairwise_cons.2 ⟨fun x m => ?_, h⟩
      rcases List.mem_cons.1 m with rfl | m
      · omega
      · have := hy x m
        omega

theorem Ordered.insertByDistance {count : Word32} {es : List TimedEntry} {e : TimedEntry}
    (h : Ordered count es) (he : EntryOk count e) : Ordered count (insertByDistance count e es) :=
  ⟨fun x m => by
    rcases (mem_insertByDistance count e x es).1 m with rfl | m
    · exact he
    · exact h.1 x m, insertByDistance_pairwise count e es h.2⟩

theorem sortByDistance_ordered {count : Word32} {es : List TimedEntry} (h : ∀ e ∈ es, EntryOk count e) :
    Ordered count (sortByDistance count es) := by
  have go : ∀ (es acc : List TimedEntry), (∀ e ∈ es, EntryOk count e) → Ordered count acc →
      Ordered count (es.foldl (fun acc e => Machine.insertByDistance count e acc) acc) := by
    intro es
    induction es with
    | nil => exact fun acc _ h => h
    | cons e es ih =>
      intro acc he hacc
      exact ih _ (fun x m => he x (List.mem_cons_of_mem _ m))
        (hacc.insertByDistance (he e List.mem_cons_self))
  exact go es [] h ⟨nofun, List.Pairwise.nil⟩

/-- Of two counts that differ, the one that is not at or before the other lies ahead of it (00_scope.md). -/
theorem ahead_of_not_atOrBefore {count due : Word32} (h : ¬ahead due count < 2147483648) :
    0 < ahead count due ∧ ahead count due ≤ 2147483648 := by
  have hc := count.isLt
  have hd := due.isLt
  simp only [ahead, BitVec.toNat_sub] at h ⊢
  omega

/-- After a jump every entry stands as its mark says: what is at or before the count is due, the rest is at most
half the counts ahead (R140). -/
theorem atJump_ok (count : Word32) (e : TimedEntry) : EntryOk count (e.atJump count) := by
  unfold TimedEntry.atJump
  by_cases m : e.mark = true
  · simp [EntryOk, m]
  · rw [if_neg m]
    by_cases b : atOrBefore e.due count = true
    · rw [if_pos b]
      simp [EntryOk]
    · rw [if_neg b]
      unfold EntryOk
      rw [if_neg m]
      exact ahead_of_not_atOrBefore (by simpa [atOrBefore] using b)

/-- Entries that are due may stand before any others. -/
theorem Ordered.append_marked {count : Word32} {ms es : List TimedEntry} (hm : ∀ e ∈ ms, EntryOk count e)
    (mark : ∀ e ∈ ms, e.mark = true) (h : Ordered count es) : Ordered count (ms ++ es) := by
  have hzero (e) (m : e ∈ ms) : ahead count e.due = 0 := (hm e m).ahead_marked (mark e m)
  refine ⟨fun e m => (List.mem_append.1 m).elim (hm e) (h.1 e), List.pairwise_append.2 ⟨?_, h.2, ?_⟩⟩
  · exact List.pairwise_of_forall_mem_list fun x hx y _ => by rw [hzero x hx]; exact Nat.zero_le _
  · intro x hx y _
    rw [hzero x hx]
    exact Nat.zero_le _

theorem reorderAtJump_ordered (count : Word32) (es : List TimedEntry) :
    Ordered count (reorderAtJump count es) := by
  have hok : ∀ e ∈ es.map fun e => e.atJump count, EntryOk count e := fun e m => by
    obtain ⟨x, _, rfl⟩ := List.mem_map.1 m
    exact atJump_ok count x
  exact Ordered.append_marked (fun e m => hok e (List.mem_of_mem_filter m))
    (fun e m => (List.mem_filter.1 m).2)
    (sortByDistance_ordered fun e m => hok e (List.mem_of_mem_filter m))

theorem Ordered.insertEntry {count : Word32} {es : List TimedEntry} {e : TimedEntry} (h : Ordered count es)
    (he : EntryOk count e) : Ordered count (insertEntry count e es) := by
  unfold Machine.insertEntry
  split
  · rename_i m
    have hrest : Ordered count (e :: es.dropWhile fun x => x.mark) :=
      Ordered.append_marked (ms := [e]) (by simpa using he) (by simpa using m)
        (h.sublist (List.dropWhile_sublist _))
    exact Ordered.append_marked (fun x hx => h.1 x ((List.takeWhile_sublist _).subset hx))
      (fun x hx => List.mem_takeWhile_imp hx) hrest
  · exact h.insertByDistance he

/-- An entry that CUE_AT accepts stands as its mark says (R142). -/
theorem entryOk_of_valid {count : Word32} {e : TimedEntry}
    (h : (e.mark = true ∧ e.due = count)
      ∨ (e.mark = false ∧ 0 < serialDiff count e.due ∧ serialDiff count e.due ≤ 16777216)) :
    EntryOk count e := by
  unfold EntryOk
  rcases h with ⟨m, d⟩ | ⟨m, d, d'⟩
  · rw [if_pos m]
    exact d
  · rw [if_neg (by simp [m])]
    have lt : ahead count e.due < 4294967296 := (e.due - count).isLt
    unfold serialDiff at d d'
    split at d <;> rename_i near
    · exact ⟨by omega, by omega⟩
    · omega

theorem timedOrdered_congr {s t : State} (ht : t.timed = s.timed) (hc : t.ltu.count = s.ltu.count)
    (h : TimedOrdered s) : TimedOrdered t := by
  unfold TimedOrdered at *
  rwa [ht, hc]

theorem timedOrdered_of_onlyVoices {s t : State} (e : OnlyVoices s t) (h : TimedOrdered s) : TimedOrdered t :=
  timedOrdered_congr e.timed (congrArg Ltu.count e.ltu) h

theorem timedOrdered_of_onlyPedals {s t : State} (e : OnlyPedals s t) (h : TimedOrdered s) : TimedOrdered t :=
  timedOrdered_congr e.timed (congrArg Ltu.count e.ltu) h

theorem timedOrdered_handOff (L : Lead) {s : State} (h : TimedOrdered s) : TimedOrdered (handOff L s) := by
  rcases handOff_cases L s with e | ⟨_, _, _, _, _, e⟩ <;> rw [e]
  · exact h
  · exact Ordered.sublist h (List.eraseP_sublist)

theorem timedOrdered_adoptCount (c : Word32) {s : State} (h : TimedOrdered s) :
    TimedOrdered (adoptCount c s) := by
  unfold adoptCount
  simp only
  split
  · rename_i e
    refine timedOrdered_handOff .b (timedOrdered_handOff .a ?_)
    rw [timedOrdered_iff, e]
    exact Ordered.inOrder h
  · exact timedOrdered_handOff .b (timedOrdered_handOff .a (reorderAtJump_ordered c s.timed))

theorem timedOrdered_handOffAfterSet (g : Fin 8) {s : State} (h : TimedOrdered s) :
    TimedOrdered (handOffAfterSet g s) := by
  unfold handOffAfterSet
  repeat' split
  all_goals first | exact timedOrdered_handOff _ h | exact h

theorem timedOrdered_enterTimed {e : TimedEntry} (late : Bool) {s : State} (he : EntryOk s.ltu.count e)
    (h : TimedOrdered s) : TimedOrdered (enterTimed e late s).state := by
  have hin : TimedOrdered (handOff e.lead { s with timed := insertEntry s.ltu.count e s.timed }) :=
    timedOrdered_handOff _ (Ordered.insertEntry h he)
  unfold enterTimed
  split
  · exact timedOrdered_of_onlyVoices (raise_onlyFaults ..).toVoices h
  · cases late
    · exact hin
    · exact timedOrdered_of_onlyVoices (raise_onlyFaults ..).toVoices hin

/-- An entry that waits in an ordered queue is never at the held count, so the row finds nothing to mark. -/
theorem timedOrdered_markDue (k : Nat) {s : State} (h : TimedOrdered s) : TimedOrdered (markDue k s) := by
  unfold markDue
  split
  · rename_i e he
    split
    · rename_i due
      have hok := h.1 e (List.mem_of_getElem? he)
      rw [if_neg (by simp [due.1]), due.2, ahead_self] at hok
      omega
    · exact h
  · exact h

theorem timedOrdered_blockParts : KeptByBlockParts TimedOrdered where
  frame h e _ := timedOrdered_congr (congrArg State.timed e :) (congrArg (fun u => u.ltu.count) e :) h
  raise _ _ _ h := timedOrdered_of_onlyVoices (raise_onlyFaults ..).toVoices h
  offer _ _ h := timedOrdered_of_onlyVoices (offerNotice_onlyFaults ..).toVoices h
  record L _ _ _ h := by cases L <;> exact h
  clearPending _ _ h := h
  handOff L _ h := timedOrdered_handOff L h
  release _ _ h := timedOrdered_of_onlyVoices (releaseVoice_onlyVoices ..) h
  reassign _ _ _ h := timedOrdered_of_onlyVoices (reassignVoice_onlyVoices ..) h
  assign _ _ _ _ _ h := timedOrdered_of_onlyVoices (assignVoice_onlyVoices ..) h
  fall _ _ h := timedOrdered_of_onlyVoices (fallToIdle_onlyVoices ..) h
  retarget _ _ _ h := timedOrdered_of_onlyVoices (retargetVoice_onlyVoices ..) h

theorem timedOrdered_request {s t : State} (m : RequestMove s t) (h : TimedOrdered s) : TimedOrdered t := by
  cases m with
  | pended L c => exact timedOrdered_of_onlyPedals (setPending_onlyPedals ..) h
  | late L => exact timedOrdered_of_onlyVoices (raise_onlyFaults ..).toVoices h
  | entered e late valid => exact timedOrdered_enterTimed late (entryOk_of_valid valid) h
  | flushed L => exact Ordered.sublist h List.filter_sublist
  | fixedGateway g enabled n high => exact timedOrdered_handOffAfterSet g h
  | threshold L n => cases L <;> exact h
  | cleared ks => exact timedOrdered_of_onlyVoices (clearKinds_onlyFaults ..).toVoices h
  | setup ks detect report sev => exact timedOrdered_of_onlyVoices (setupKinds_onlyFaults ..).toVoices h
  | engineReset => exact ⟨nofun, List.Pairwise.nil⟩
  | unchanged | configured _ _ _ _ _ | loading _ _ | tuned _ _ _ _ | mapped _ _ _ _ | staged _ _ _ _
  | pedalGateway _ _ _ _ _ | counters _ => exact h

theorem timedOrdered_keptByParts : KeptByParts TimedOrdered where
  frame h e := timedOrdered_congr (congrArg State.timed e :) (congrArg (fun u => u.ltu.count) e :) h
  reset := ⟨nofun, List.Pairwise.nil⟩
  engineReset _ := ⟨nofun, List.Pairwise.nil⟩
  adoptCount c _ h := timedOrdered_adoptCount c h
  samples _ _ h := h
  raise _ _ _ h := timedOrdered_of_onlyVoices (raise_onlyFaults ..).toVoices h
  voiceWork _ _ h := timedOrdered_of_onlyVoices (voiceWork_onlyVoices ..) h
  pedalWork _ _ _ h := timedOrdered_of_onlyPedals (pedalWork_onlyPedals ..) h
  blockWork ls L _ h := blockWork_keeps timedOrdered_blockParts ls L h
  execute kind r s h := timedOrdered_request (executeKind_move kind r s) h
  endCrossfade _ _ h := timedOrdered_of_onlyVoices (endCrossfade_onlyVoices ..) h
  endRise _ _ h := timedOrdered_of_onlyVoices (endRise_onlyVoices ..) h
  finishFall _ _ h := timedOrdered_of_onlyVoices (finishFall_onlyVoices ..) h
  reachDebounce _ _ h := timedOrdered_of_onlyPedals (reachDebounce_onlyPedals ..) h
  reachStuck _ _ h := timedOrdered_of_onlyPedals (reachStuck_onlyPedals ..) h
  markDue k _ h := timedOrdered_markDue k h
  handOff L _ h := timedOrdered_handOff L h

/-- Settles O53: a step of the count brings every entry one nearer, a jump sorts them afresh, an accepted entry
takes its place, and all else takes entries out. -/
theorem stepKeepsTimedOrder : Obligations.StepKeepsTimedOrder :=
  fun _ _ h e => step_keeps timedOrdered_keptByParts h e

end Sys2Proof.Proofs.CueLaws
end

