-- ==== Sys2Proof/Proofs/CueUnit.lean ====
section
/-! PROOF. The Cue Unit's law (R122, R130, R133, R137, R145): gateways, pedal lines, thresholds and levels each
keep a law of their own under the writes of the Cue Unit. -/

namespace Sys2Proof.Proofs.CueUnit

open Sys2Proof Sys2Proof.Machine Sys2Proof.Safety Sys2Proof.Proofs.StepParts Sys2Proof.Proofs.RequestMoves
  Sys2Proof.Proofs.BlockParts Sys2Proof.Proofs.RecordRanges Sys2Proof.Proofs.CueLaws

/-! ### The law of one record -/

/-- The law of one gateway (R133, R137). -/
def GatewayOk (x : Gateway) : Prop :=
  (x.enabled = false → x.pending = none) ∧ x.priority ≤ 15 ∧ (x.type = .moment → x.release = none)

/-- The law of one pedal line's timers (R130, R131). -/
def PedalOk (p : PedalLine) : Prop := p.debounce ≤ 383 ∧ p.stuck ≤ 5760000

/-- The law of a lead's current level (R122). -/
def LevelOk (c : LeadChannel) : Prop := ∀ t, c.transition = some t → t.level ≤ 15

theorem cueUnitLaw_iff (s : State) : CueUnitLaw s ↔
    (∀ g, GatewayOk (s.gateway g)) ∧ s.thresholdA ≤ 15 ∧ s.thresholdB ≤ 15
      ∧ (∀ L, LevelOk (s.lead L)) ∧ ∀ l, PedalOk (s.pedal l) := Iff.rfl

/-- A gateway whose pending slot is emptied. -/
theorem GatewayOk.emptied {x : Gateway} (h : GatewayOk x) : GatewayOk { x with pending := none } :=
  ⟨fun _ => rfl, h.2⟩

theorem PedalOk.timed {p : PedalLine} (h : PedalOk p) : PedalOk p.timed := by
  unfold PedalLine.timed
  split
  · exact ⟨h.1, Nat.min_le_left ..⟩
  · exact ⟨h.1, Nat.zero_le _⟩
  · exact ⟨h.1, Nat.zero_le _⟩

/-- A pedal gateway read from a request: its priority is clamped, its slot empty, and a MOMENT gateway has no
release cue (R137). -/
theorem pedalGatewayOf_ok {body : List Byte} {x : Gateway} (h : pedalGatewayOf body = some x) : GatewayOk x := by
  unfold pedalGatewayOf at h
  simp only at h
  split at h
  · cases h
    refine ⟨fun _ => rfl, Nat.min_le_left .., fun moment => ?_⟩
    simp only at moment ⊢
    split at moment
    · cases moment
    · rename_i span
      rw [if_neg span]
  · cases h

/-! ### The law under writes -/

theorem cueUnitLaw_congr {s t : State} (hg : t.gateways = s.gateways) (hp : t.pedals = s.pedals)
    (hA : t.thresholdA = s.thresholdA) (hB : t.thresholdB = s.thresholdB)
    (hl : ∀ L, (t.lead L).transition = (s.lead L).transition) (h : CueUnitLaw s) : CueUnitLaw t := by
  unfold CueUnitLaw State.gateway State.pedal at *
  simpa only [hg, hp, hA, hB, hl] using h

theorem cueUnitLaw_frame {s t : State} (h : CueUnitLaw s) (e : lawPart t = lawPart s) : CueUnitLaw t :=
  cueUnitLaw_congr (congrArg State.gateways e :) (congrArg State.pedals e :) (congrArg State.thresholdA e :)
    (congrArg State.thresholdB e :) (fun L => (congrArg (fun u => (u.lead L).transition) e :)) h

theorem cueUnitLaw_of_onlyVoices {s t : State} (e : OnlyVoices s t) (h : CueUnitLaw s) : CueUnitLaw t :=
  cueUnitLaw_congr e.gateways e.pedals (congrArg State.thresholdA e.rest :) (congrArg State.thresholdB e.rest :)
    (fun L => (congrArg LeadChannel.transition (e.lead L) :)) h

theorem cueUnitLaw_raise (k : FaultKind) (sc : Scope) {s : State} (h : CueUnitLaw s) :
    CueUnitLaw (raise k sc s) :=
  cueUnitLaw_of_onlyVoices (raise_onlyFaults k sc s).toVoices h

theorem cueUnitLaw_setGateway (g : Fin 8) {x : Gateway} {s : State} (h : CueUnitLaw s) (hx : GatewayOk x) :
    CueUnitLaw (s.setGateway g x) := by
  refine ⟨fun j => ?_, h.2⟩
  by_cases e : g = j
  · subst e
    rw [State.gateway_setGateway]
    exact hx
  · rw [State.gateway_setGateway_ne _ _ _ _ e]
    exact h.1 j

theorem cueUnitLaw_setPedal (l : LineId) {p : PedalLine} {s : State} (h : CueUnitLaw s) (hp : PedalOk p) :
    CueUnitLaw (s.setPedal l p) := by
  obtain ⟨hg, hA, hB, hl, hpedals⟩ := h
  refine ⟨hg, hA, hB, hl, fun j => ?_⟩
  by_cases e : l = j
  · subst e
    rw [State.pedal_setPedal]
    exact hp
  · rw [State.pedal_setPedal_ne _ _ _ _ e]
    exact hpedals j

theorem cueUnitLaw_setLead (L : Lead) {c : LeadChannel} {s : State} (h : CueUnitLaw s) (hc : LevelOk c) :
    CueUnitLaw (s.setLead L c) := by
  obtain ⟨hg, hA, hB, hl, hp⟩ := h
  cases L
  · exact ⟨hg, hA, hB, fun M => by cases M; exacts [hc, hl .b], hp⟩
  · exact ⟨hg, hA, hB, fun M => by cases M; exacts [hl .a, hc], hp⟩

theorem CueUnitLaw.pedal {s : State} (h : CueUnitLaw s) (l : LineId) : PedalOk (s.pedal l) :=
  ((cueUnitLaw_iff s).1 h).2.2.2.2 l

/-! ### The Cue Unit's operations -/

theorem cueUnitLaw_setPending (g : Fin 8) (c : Cue) (o : Origin) {s : State} (h : CueUnitLaw s) :
    CueUnitLaw (setPending g c o s) := by
  unfold setPending
  simp only
  split
  · rename_i enabled
    have hx : GatewayOk { s.gateway g with pending := some { cue := c, origin := o } } :=
      ⟨fun off => absurd (off.symm.trans enabled) nofun, (h.1 g).2⟩
    split
    · exact cueUnitLaw_setGateway g (cueUnitLaw_frame h rfl) hx
    · exact cueUnitLaw_setGateway g h hx
  · exact h

theorem cueUnitLaw_setPendingOption (g : Fin 8) (c : Option Cue) (o : Origin) {s : State} (h : CueUnitLaw s) :
    CueUnitLaw (setPending? g c o s) := by
  cases c with
  | none => exact h
  | some c => exact cueUnitLaw_setPending g c o h

theorem cueUnitLaw_clearPending (g : Fin 8) {s : State} (h : CueUnitLaw s) : CueUnitLaw (clearPending g s) :=
  cueUnitLaw_setGateway g h (GatewayOk.emptied (h.1 g))

theorem cueUnitLaw_handOff (L : Lead) {s : State} (h : CueUnitLaw s) : CueUnitLaw (handOff L s) := by
  rcases handOff_cases L s with e | ⟨x, hx, _, enabled, empty, e⟩ <;> rw [e]
  · exact h
  · refine cueUnitLaw_setGateway _ (cueUnitLaw_congr rfl rfl rfl rfl (fun _ => rfl) h) ?_
    exact ⟨fun off => by simp_all, (h.1 _).2⟩

theorem cueUnitLaw_handOffAfterSet (g : Fin 8) {s : State} (h : CueUnitLaw s) :
    CueUnitLaw (handOffAfterSet g s) := by
  unfold handOffAfterSet
  split
  · exact cueUnitLaw_handOff .a h
  · split
    · exact cueUnitLaw_handOff .b h
    · exact h

theorem cueUnitLaw_adoptCount (c : Word32) {s : State} (h : CueUnitLaw s) : CueUnitLaw (adoptCount c s) := by
  unfold adoptCount
  simp only
  split
  · exact cueUnitLaw_handOff .b (cueUnitLaw_handOff .a (cueUnitLaw_congr rfl rfl rfl rfl (fun _ => rfl) h))
  · exact cueUnitLaw_handOff .b (cueUnitLaw_handOff .a (cueUnitLaw_congr rfl rfl rfl rfl (fun _ => rfl) h))

theorem cueUnitLaw_releaseEdge (g : Fin 8) {s : State} (h : CueUnitLaw s) : CueUnitLaw (releaseEdge g s) := by
  unfold releaseEdge
  simp only
  split
  · exact h
  · split
    · split
      · exact cueUnitLaw_frame (cueUnitLaw_clearPending g h) rfl
      · exact cueUnitLaw_frame (cueUnitLaw_clearPending g h) rfl
    · exact cueUnitLaw_setPendingOption g _ _ h
    · exact cueUnitLaw_setPendingOption g _ _ h
    · exact cueUnitLaw_setPendingOption g _ _ h
    · exact cueUnitLaw_setPendingOption g _ _ h

theorem cueUnitLaw_pedalEdge (l : LineId) (level : PedalLevel) {s : State} (h : CueUnitLaw s) :
    CueUnitLaw (pedalEdge l level s) := by
  have hset {p : PedalLine} (hd : p.debounce = 0) (hs : p.stuck = (s.pedal l).stuck) :
      CueUnitLaw (s.setPedal l p) :=
    cueUnitLaw_setPedal l h ⟨hd ▸ Nat.zero_le _, hs ▸ (CueUnitLaw.pedal h l).2⟩
  cases level with
  | pressed => exact cueUnitLaw_setPendingOption _ _ _ (hset rfl rfl)
  | released => exact cueUnitLaw_releaseEdge _ (hset rfl rfl)

theorem cueUnitLaw_debounceLine (l : LineId) {s : State} (h : CueUnitLaw s) :
    CueUnitLaw (debounceLine l s) := by
  have hstuck := (CueUnitLaw.pedal h l).2
  unfold debounceLine
  simp only
  split
  · exact cueUnitLaw_setPedal l h ⟨Nat.zero_le _, hstuck⟩
  · split
    · exact cueUnitLaw_setPedal l h ⟨Nat.zero_le _, hstuck⟩
    · split
      · exact cueUnitLaw_pedalEdge l _ h
      · rename_i short
        exact cueUnitLaw_setPedal l h ⟨Nat.le_of_lt_succ (Nat.not_le.1 short), hstuck⟩

theorem cueUnitLaw_judgeStuck (l : LineId) {s : State} (h : CueUnitLaw s) : CueUnitLaw (judgeStuck l s) := by
  have hmarked : CueUnitLaw (s.setPedal l { s.pedal l with stuckMark := true }) :=
    cueUnitLaw_setPedal l h (CueUnitLaw.pedal h l)
  have hclosed (k : FaultKind) (sc : Scope) {x : Gateway} (hx : GatewayOk x) (g : Fin 8) : CueUnitLaw
      ((raise k sc (s.setPedal l { s.pedal l with stuckMark := true })).setGateway g
        { x with enabled := false, pending := none }) :=
    cueUnitLaw_setGateway g (cueUnitLaw_raise k sc hmarked) ⟨fun _ => rfl, hx.2⟩
  have hx := hmarked.1 (lineGateway l)
  unfold judgeStuck
  simp only
  split
  · split
    · split
      · exact cueUnitLaw_frame (hclosed _ _ hx _) rfl
      · exact hclosed _ _ hx _
    · exact cueUnitLaw_raise _ _ hmarked
  · exact hmarked

theorem cueUnitLaw_pedalWork (limit : Nat) (l : LineId) {s : State} (h : CueUnitLaw s) :
    CueUnitLaw (pedalWork limit l s) := by
  have hd := cueUnitLaw_debounceLine l h
  have htimed := cueUnitLaw_setPedal l hd (PedalOk.timed (CueUnitLaw.pedal hd l))
  unfold pedalWork
  simp only
  split
  · exact cueUnitLaw_judgeStuck l htimed
  · exact htimed

theorem cueUnitLaw_reachDebounce (l : LineId) {s : State} (h : CueUnitLaw s) :
    CueUnitLaw (reachDebounce l s) := by
  unfold reachDebounce
  split
  · split
    · exact cueUnitLaw_pedalEdge l _ h
    · exact h
  · exact h

theorem cueUnitLaw_reachStuck (l : LineId) {s : State} (h : CueUnitLaw s) : CueUnitLaw (reachStuck l s) := by
  unfold reachStuck
  split
  · exact cueUnitLaw_judgeStuck l (cueUnitLaw_setPedal l h (PedalOk.timed (CueUnitLaw.pedal h l)))
  · exact h

theorem cueUnitLaw_markDue (k : Nat) {s : State} (h : CueUnitLaw s) : CueUnitLaw (markDue k s) := by
  unfold markDue
  split
  · split
    · exact cueUnitLaw_handOff _ (cueUnitLaw_congr rfl rfl rfl rfl (fun _ => rfl) h)
    · exact h
  · exact h

theorem cueUnitLaw_setThreshold (L : Lead) (n : Nat) {s : State} (h : CueUnitLaw s) :
    CueUnitLaw (s.setThreshold L (min 15 n)) := by
  obtain ⟨hg, hA, hB, hrest⟩ := h
  cases L
  · exact ⟨hg, Nat.min_le_left .., hB, hrest⟩
  · exact ⟨hg, hA, Nat.min_le_left .., hrest⟩

/-! ### Resets -/

theorem levelOk_reset : LevelOk LeadChannel.reset := nofun

theorem lead_reset (L : Lead) : State.reset.lead L = LeadChannel.reset := by cases L <;> rfl

theorem cueUnitLaw_reset : CueUnitLaw State.reset := by
  rw [cueUnitLaw_iff]
  refine ⟨by unfold GatewayOk; decide, by decide, by decide, fun L => ?_, by unfold PedalOk; decide⟩
  rw [lead_reset]
  exact levelOk_reset

theorem cueUnitLaw_engineReset {s : State} (h : CueUnitLaw s) : CueUnitLaw (engineReset s) := by
  obtain ⟨hg, hA, hB, _, _⟩ := h
  refine ⟨fun g => ?_, hA, hB, fun L => ?_, fun l => ?_⟩
  · have : (engineReset s).gateway g = { s.gateway g with pending := none } := by
      simp [engineReset, State.gateway]
    rw [this]
    exact GatewayOk.emptied (hg g)
  · cases L <;> exact levelOk_reset
  · have : (engineReset s).pedal l = (s.pedal l).engineReset := by simp [engineReset, State.pedal]
    rw [this]
    exact ⟨Nat.zero_le _, Nat.zero_le _⟩

/-! ### The law -/

theorem cueUnitLaw_blockParts : KeptByBlockParts CueUnitLaw where
  frame h e _ := cueUnitLaw_frame h e
  raise k sc _ h := cueUnitLaw_raise k sc h
  offer _ _ h := cueUnitLaw_of_onlyVoices (offerNotice_onlyFaults ..).toVoices h
  record L s d hd h := cueUnitLaw_setLead L h fun t ht => by
    rcases hd.level t ht with old | low | ⟨g, e⟩
    · exact ((cueUnitLaw_iff s).1 h).2.2.2.1 L t old
    · exact low
    · exact e ▸ (h.1 g).2.1
  clearPending g _ h := cueUnitLaw_clearPending g h
  handOff L _ h := cueUnitLaw_handOff L h
  release _ _ h := cueUnitLaw_of_onlyVoices (releaseVoice_onlyVoices ..) h
  reassign _ _ _ h := cueUnitLaw_of_onlyVoices (reassignVoice_onlyVoices ..) h
  assign _ _ _ _ _ h := cueUnitLaw_of_onlyVoices (assignVoice_onlyVoices ..) h
  fall _ _ h := cueUnitLaw_of_onlyVoices (fallToIdle_onlyVoices ..) h
  retarget _ _ _ h := cueUnitLaw_of_onlyVoices (retargetVoice_onlyVoices ..) h

theorem cueUnitLaw_enterTimed (e : TimedEntry) (late : Bool) {s : State} (h : CueUnitLaw s) :
    CueUnitLaw (enterTimed e late s).state := by
  have hin : CueUnitLaw (handOff e.lead { s with timed := insertEntry s.ltu.count e s.timed }) :=
    cueUnitLaw_handOff _ (cueUnitLaw_congr rfl rfl rfl rfl (fun _ => rfl) h)
  unfold enterTimed
  split
  · exact cueUnitLaw_raise _ _ h
  · cases late
    · exact hin
    · exact cueUnitLaw_raise _ _ hin

theorem cueUnitLaw_request {s t : State} (m : RequestMove s t) (h : CueUnitLaw s) : CueUnitLaw t := by
  cases m with
  | pended L c => exact cueUnitLaw_setPending _ c _ h
  | late L => exact cueUnitLaw_raise _ _ h
  | entered e late valid => exact cueUnitLaw_enterTimed e late h
  | flushed L => exact cueUnitLaw_clearPending _ (cueUnitLaw_congr rfl rfl rfl rfl (fun _ => rfl) h)
  | pedalGateway body g x low valid => exact cueUnitLaw_setGateway g h (pedalGatewayOf_ok valid)
  | fixedGateway g enabled n high =>
    exact cueUnitLaw_handOffAfterSet g
      (cueUnitLaw_setGateway g h ⟨fun _ => rfl, Nat.min_le_left .., (h.1 g).2.2⟩)
  | threshold L n => exact cueUnitLaw_setThreshold L n h
  | cleared ks => exact cueUnitLaw_of_onlyVoices (clearKinds_onlyFaults ..).toVoices h
  | setup ks detect report sev => exact cueUnitLaw_of_onlyVoices (setupKinds_onlyFaults ..).toVoices h
  | engineReset => exact cueUnitLaw_engineReset h
  | unchanged | configured _ _ _ _ _ | loading _ _ | tuned _ _ _ _ | mapped _ _ _ _ | staged _ _ _ _
  | counters _ => exact cueUnitLaw_congr rfl rfl rfl rfl (fun _ => rfl) h

theorem cueUnitLaw_keptByParts : KeptByParts CueUnitLaw where
  frame := cueUnitLaw_frame
  reset := cueUnitLaw_reset
  engineReset h := cueUnitLaw_engineReset h
  adoptCount c _ h := cueUnitLaw_adoptCount c h
  samples {_ _ s} _ _ h := cueUnitLaw_congr (s := s) rfl rfl rfl rfl (fun L => by cases L <;> rfl) h
  raise k sc _ h := cueUnitLaw_raise k sc h
  voiceWork _ _ h := cueUnitLaw_of_onlyVoices (voiceWork_onlyVoices ..) h
  pedalWork limit l _ h := cueUnitLaw_pedalWork limit l h
  blockWork ls L _ h := blockWork_keeps cueUnitLaw_blockParts ls L h
  execute kind r s h := cueUnitLaw_request (executeKind_move kind r s) h
  endCrossfade _ _ h := cueUnitLaw_of_onlyVoices (endCrossfade_onlyVoices ..) h
  endRise _ _ h := cueUnitLaw_of_onlyVoices (endRise_onlyVoices ..) h
  finishFall _ _ h := cueUnitLaw_of_onlyVoices (finishFall_onlyVoices ..) h
  reachDebounce l _ h := cueUnitLaw_reachDebounce l h
  reachStuck l _ h := cueUnitLaw_reachStuck l h
  markDue k _ h := cueUnitLaw_markDue k h
  handOff L _ h := cueUnitLaw_handOff L h

/-- Settles O60: a cue is set pending only in an enabled gateway, what a request stores is clamped, a transition's
level is a gateway's priority or 15, and the debounce timer ends with the edge. -/
theorem stepKeepsCueUnitLaw : Obligations.StepKeepsCueUnitLaw :=
  fun _ _ h e => step_keeps cueUnitLaw_keptByParts h e

end Sys2Proof.Proofs.CueUnit
end

