-- ==== Sys2Proof/Proofs/LinkParts.lean ====
section
/-! PROOF. What each command does to link, receiver, reset pin, address and waiting commands (R17 to R30, R166):
everything in a frame behind the Link Timing Unit leaves them, so that a whole frame does to them what its first
step does. -/

namespace Sys2Proof.Proofs.LinkParts

open Sys2Proof Sys2Proof.Machine Sys2Proof.Safety

/-- The part of the state that the engine, the requests and the lane never touch. -/
def linkPart (s : State) : State :=
  { State.reset with
    pending := s.pending, resetLow := s.resetLow, nodeAddr := s.nodeAddr, pedalPins := s.pedalPins
    receiver := s.receiver, ltu := s.ltu }

theorem linkPart_of_onlyRequest {s t : State} (h : OnlyRequest s t) : linkPart t = linkPart s :=
  (congrArg linkPart h.rest :)

theorem linkPart_of_onlyEngine {s t : State} (h : OnlyEngine s t) : linkPart t = linkPart s :=
  linkPart_of_onlyRequest h.request

theorem ltu_of_linkPart {s t : State} (h : linkPart t = linkPart s) : t.ltu = s.ltu :=
  (congrArg State.ltu h :)

/-! ### The things of a frame -/

theorem finishRequest_linkPart (r : Req) (a : Answer) : linkPart (finishRequest r a) = linkPart a.state := by
  rw [finishRequest_rest]
  rfl

theorem runTask_linkPart (ls : LinkState) (t : Task) (s : State) : linkPart (runTask ls t s) = linkPart s := by
  cases t with
  | occurrence k sc => exact linkPart_of_onlyEngine (raise_onlyFaults k sc s).engine
  | relayed => rfl
  | pedal l limit => exact linkPart_of_onlyEngine (pedalWork_onlyEngine limit l s)
  | request kind r =>
    exact (finishRequest_linkPart r _).trans (linkPart_of_onlyRequest (executeKind_onlyRequest kind r s))
  | block L => exact linkPart_of_onlyEngine (blockWork_onlyEngine ls L s)

theorem takeSome_linkPart (ls : LinkState) (fuel : Nat) (p : Pass) :
    linkPart (takeSome ls fuel p).state = linkPart p.state :=
  (takeSome_keeps (fun s => linkPart s = linkPart p.state) ls (fun _ h => h) fuel p
    (fun t _ _ h => (runTask_linkPart ls t _).trans h) rfl).1

theorem finishFrame_linkPart (ls : LinkState) (limit : Nat) (lines : List LineId) (p : Pass) :
    linkPart (finishFrame ls limit lines p) = linkPart p.state :=
  finishFrame_keeps (fun s => linkPart s = linkPart p.state) ls limit (fun _ h => h)
    (fun l _ h => (linkPart_of_onlyEngine (pedalWork_onlyEngine limit l _)).trans h) lines p
    (fun t _ _ h => (runTask_linkPart ls t _).trans h) rfl

theorem runTasks_linkPart (ls : LinkState) (fuel : Nat) (ts : List Task) (s : State) :
    linkPart (runTasks ls fuel ts s) = linkPart s :=
  runTasks_keeps (fun u => linkPart u = linkPart s) ls (fun _ h => h) fuel ts s
    (fun t _ _ h => (runTask_linkPart ls t _).trans h) rfl

theorem audioFrame_linkPart (ls : LinkState) (xa xb : Int) (p : Pass) :
    linkPart (audioFrame ls xa xb p).pass.state = linkPart p.state :=
  (voicesFrame_keeps (fun s => linkPart s = linkPart p.state) ls (fun _ h => h)
    (fun v _ h => (linkPart_of_onlyEngine (voiceWork_onlyVoices v _).engine).trans h)
    (fun L _ h => (linkPart_of_onlyEngine (raise_onlyFaults .entrySkipped (.lead L) _).engine).trans h)
    { p with state := appendSamples xa xb p.state }
    (fun t _ _ h => (runTask_linkPart ls t _).trans h) rfl).1

theorem assemble_linkPart (lane : LaneIn) (s : State) : linkPart (assemble lane s).state = linkPart s := by
  rw [(assemble_rest lane s).1]
  rfl

theorem gapFrame_linkPart (s : State) : linkPart (gapFrame s).1 = linkPart s := by
  rw [StepParts.gapFrame_rest]
  rfl

theorem counted_linkPart (r : LaneSent) : linkPart r.counted = linkPart r.state :=
  linkPart_of_onlyEngine (LaneSent.counted_onlyFaults r).engine

theorem laneStep_linkPart {s : State} {r : LaneSent} (h : LaneStep s r) : linkPart r.state = linkPart s := by
  rw [h.rest]
  rfl

theorem acceptRequest_linkPart (r : Req) (s : State) : linkPart (acceptRequest r s).1 = linkPart s := by
  unfold acceptRequest
  simp only
  split
  · rfl
  · split <;> rfl

theorem sendAndAccept_linkPart (raw : List Byte) (wasCut : Bool) (request : Option (Byte × Req)) (p : Pass) :
    linkPart (sendAndAccept raw wasCut request p).1.state = linkPart p.state := by
  have hsent := laneStep_linkPart (sendLane_step (decodeLane raw) raw wasCut p.state)
  unfold sendAndAccept
  simp only
  split
  · exact (counted_linkPart _).trans hsent
  · split <;> exact (acceptRequest_linkPart ..).trans hsent

theorem audioAndLane_linkPart (ls : LinkState) (xs : Int × Int) (lane : Pass → Pass × List Task) (first : Bool)
    (p : Pass) (hlane : ∀ q, linkPart (lane q).1.state = linkPart q.state) :
    linkPart (audioAndLane ls xs lane first p).1.pass.state = linkPart p.state := by
  unfold audioAndLane
  split
  · exact (audioFrame_linkPart ..).trans (hlane p)
  · exact (hlane _).trans ((takeSome_linkPart ..).trans (audioFrame_linkPart ..))

/-! ### Losses and frames -/

theorem lossEffect_linkPart (s : State) : linkPart (lossEffect s) = linkPart s := by
  unfold lossEffect
  split <;> rfl

theorem raiseLoss_linkPart (b : Bool) (s : State) : linkPart (raiseLoss b s) = linkPart s := by
  have h (k : FaultKind) (sc : Scope) (u : State) : linkPart (raise k sc u) = linkPart u :=
    linkPart_of_onlyEngine (raise_onlyFaults k sc u).engine
  unfold raiseLoss
  split
  · split
    · exact (h ..).trans (h ..)
    · exact (h ..).trans (h ..)
  · exact h ..

/-- A loss declaration moves the Link Timing Unit to HOLDOVER, and nothing else of the link (R26). -/
theorem declareLoss_linkPart (s : State) : linkPart (declareLoss s) = linkPart { s with ltu := s.ltu.lost } :=
  (lossEffect_linkPart _).trans (raiseLoss_linkPart ..)

theorem adoptCount_linkPart (c : Word32) (s : State) :
    linkPart (adoptCount c s) = linkPart { s with ltu := { s.ltu with count := c } } :=
  linkPart_of_onlyEngine (adoptCount_onlyEngine c s)

/-- A good frame does to the link what its Link Timing Unit does first (R9). -/
theorem goodFrame_linkPart (bytes : List Byte) (s : State) :
    linkPart (goodFrame bytes s) = linkPart (ltuGood (frameCount bytes) { state := s, late := [] }).state := by
  unfold goodFrame
  exact (finishFrame_linkPart ..).trans ((audioAndLane_linkPart _ _ _ _ _ fun q =>
    sendAndAccept_linkPart _ _ _ q).trans (assemble_linkPart ..))

/-- A bad frame in a running state does to the link what its Link Timing Unit does first, and then what the
eighth in a row brings (R9, R26). -/
theorem badFrame_linkPart (bytes : List Byte) (s : State) :
    linkPart (badFrame bytes s) =
      let u := (ltuBad { state := s, late := [] }).state
      linkPart (if Config.lossRun ≤ u.ltu.badRun then { u with ltu := u.ltu.lost } else u) := by
  have hdone (lines : List LineId) (late : List Task) (late' : List Task) (out : Option (List Byte)) :
      linkPart (finishFrame s.ltu.link s.config.stuckLimit lines
        { state := { (audioFrame s.ltu.link (heldSamples s).1 (heldSamples s).2
            { state := (gapFrame (ltuBad { state := s, late := [] }).state).1, late := late }).pass.state with
              linkOut := out }
          late := late' }) = linkPart (ltuBad { state := s, late := [] }).state :=
    (finishFrame_linkPart ..).trans ((audioFrame_linkPart ..).trans (gapFrame_linkPart _))
  unfold badFrame
  simp only
  split
  · rw [declareLoss_linkPart]
    exact congrArg (fun u : State => { u with ltu := u.ltu.lost }) (hdone _ _ _ _)
  · exact hdone _ _ _ _

theorem phantomWork_linkPart (s : State) : linkPart (phantomWork s) = linkPart s := by
  unfold phantomWork
  exact (finishFrame_linkPart ..).trans (audioFrame_linkPart ..)

/-- A phantom frame: the held count on by 1, the tick counter 0 (R18, R20, R21). -/
theorem phantomFrame_linkPart (s : State) :
    linkPart (phantomFrame s) =
      linkPart { s with ltu := { s.ltu with count := s.ltu.count + 1, tick := 0 } } :=
  (phantomWork_linkPart _).trans (adoptCount_linkPart ..)

/-- A loss by silence: HOLDOVER, the held count on by 4, the tick counter 0, no frame in hand (R18, R26, R28). -/
theorem silenceLoss_linkPart (s : State) :
    linkPart (silenceLoss s) =
      linkPart { s with
        receiver := { s.receiver with sinceStart := none }
        ltu := { link := .holdover, count := s.ltu.count + 4, tick := 0, goodRun := 0, badRun := 0 } } := by
  unfold silenceLoss
  refine (phantomWork_linkPart _).trans ((declareLoss_linkPart _).trans ?_)
  exact congrArg (fun u : State => { u with ltu := { u.ltu.lost with tick := 0 } })
    (adoptCount_linkPart (s.ltu.count + 4) { s with receiver := { s.receiver with sinceStart := none } })

theorem passBadFrame_linkPart (bytes : List Byte) (s : State) : linkPart (passBadFrame bytes s) = linkPart s :=
  (linkPart_of_onlyEngine (raise_onlyFaults .frameCheck .device s).engine :)

/-! ### Requests -/

theorem takeRequest_linkPart {act : Req → State → Answer} (r : Req) (s : State)
    (hact : ∀ u, linkPart (act r u).state = linkPart u) : linkPart (takeRequest act r s) = linkPart s := by
  unfold takeRequest
  simp only
  split
  · exact (finishRequest_linkPart ..).trans ((hact _).trans (acceptRequest_linkPart r s))
  · exact (linkPart_of_onlyEngine (raise_onlyFaults .requestDrop .none _).engine).trans (acceptRequest_linkPart r s)

theorem checked_linkPart (k : ReqKind) (r : Req) (s : State) :
    linkPart (checked k (actOf k) r s).state = linkPart s := by
  unfold checked
  split
  · exact linkPart_of_onlyRequest (actOf_onlyRequest k r s)
  · rfl

/-! ### The Link Timing Unit's law -/

/-- The law of the Link Timing Unit's record (R17, R20, R23, R24, R26). -/
def LtuOk (u : Ltu) : Prop :=
  u.tick ≤ 2047 ∧ u.badRun ≤ 7
    ∧ match u.link with
      | .locked => u.goodRun = 16
      | .relocking => u.goodRun ≤ 15
      | .seeking => u.goodRun = 0 ∧ u.badRun = 0
      | .holdover => u.goodRun = 0 ∧ u.badRun = 0

theorem ltuLaw_iff (s : State) : LtuLaw s ↔ LtuOk s.ltu := by
  unfold LtuLaw LtuOk
  cases s.ltu.link <;> exact Iff.rfl

/-- A count and a tick counter within its range. -/
theorem LtuOk.timed {u : Ltu} (h : LtuOk u) (c : Word32) {n : Nat} (hn : n ≤ 2047) :
    LtuOk { u with count := c, tick := n } := ⟨hn, h.2⟩

theorem LtuOk.lost {u : Ltu} (h : u.tick ≤ 2047) : LtuOk u.lost := ⟨h, Nat.zero_le 7, rfl, rfl⟩

theorem LtuOk.relocking (u : Ltu) {n : Nat} (hn : n ≤ 2047) : LtuOk (u.relocking n) :=
  ⟨hn, Nat.zero_le 7, Nat.zero_le 15⟩

theorem noticedTicks_le (r : Receiver) : noticedTicks r ≤ 2047 := Nat.min_le_left ..

/-- A good frame in a running state ends the bad run, and the good run is 16 in LOCKED alone (R23, R24). -/
theorem LtuOk.afterGood {u : Ltu} (h : LtuOk u) (inOrder : Bool) : LtuOk (u.afterGood inOrder) := by
  obtain ⟨link, count, tick, good, bad⟩ := u
  obtain ⟨ht, hb, hrun⟩ := h
  cases link
  · exact ⟨ht, hb, hrun⟩
  · unfold Ltu.afterGood
    simp only
    split
    · split
      · exact ⟨ht, Nat.zero_le 7, rfl⟩
      · rename_i short
        exact ⟨ht, Nat.zero_le 7, Nat.le_of_lt_succ (Nat.not_le.1 short)⟩
    · exact ⟨ht, Nat.zero_le 7, Nat.zero_le 15⟩
  · exact ⟨ht, Nat.zero_le 7, hrun⟩
  · exact ⟨ht, hb, hrun⟩

/-- A bad frame in a running state: the law holds while the bad run stays below 8 (R24, R26). -/
theorem LtuOk.afterBad {u : Ltu} (h : LtuOk u) (running : u.link.running = true) (short : u.badRun + 1 < 8) :
    LtuOk u.afterBad := by
  obtain ⟨link, count, tick, good, bad⟩ := u
  obtain ⟨ht, _, hrun⟩ := h
  refine ⟨ht, Nat.le_of_lt_succ short, ?_⟩
  cases link
  · cases running
  · exact Nat.zero_le 15
  · exact hrun
  · cases running

/-- The Link Timing Unit at a good frame outside the running states: RELOCKING (R22, R30). -/
theorem ltuGood_ltu_entering (c : Word32) {s : State} (h : s.ltu.link.running = false) :
    (ltuGood c { state := s, late := [] }).state.ltu =
      { s.ltu.relocking (noticedTicks s.receiver) with count := c } := by
  unfold ltuGood Pass.add
  simp only
  rw [adoptCount_ltu]
  cases e : s.ltu.link <;> simp only [e] at h ⊢ <;> cases h

/-- The Link Timing Unit at a good frame in a running state (R23, R24). -/
theorem ltuGood_ltu_running (c : Word32) {s : State} (h : s.ltu.link.running = true) :
    (ltuGood c { state := s, late := [] }).state.ltu =
      { s.ltu.afterGood (decide (c = s.ltu.count + 1)) with count := c } := by
  unfold ltuGood Pass.add
  simp only
  rw [adoptCount_ltu]
  cases e : s.ltu.link <;> simp only [e] at h ⊢ <;> cases h

theorem ltuGood_ok (c : Word32) {s : State} (h : LtuOk s.ltu) :
    LtuOk (ltuGood c { state := s, late := [] }).state.ltu := by
  cases running : s.ltu.link.running
  · rw [ltuGood_ltu_entering c running]
    exact LtuOk.relocking s.ltu (noticedTicks_le _)
  · rw [ltuGood_ltu_running c running]
    exact h.afterGood _

/-- The Link Timing Unit at a bad frame in a running state (R18, R23, R24). -/
theorem ltuBad_ltu (s : State) :
    (ltuBad { state := s, late := [] }).state.ltu = { s.ltu.afterBad with count := s.ltu.count + 1 } :=
  adoptCount_ltu ..

/-! ### Steps -/

/-- `t` keeps waiting commands, address and reset pin of `s`, and the Link Timing Unit's law. -/
structure LinkStep (s t : State) : Prop where
  pending : t.pending = s.pending
  nodeAddr : t.nodeAddr = s.nodeAddr
  resetLow : t.resetLow = s.resetLow
  law : LtuOk s.ltu → LtuOk t.ltu

theorem LinkStep.refl (s : State) : LinkStep s s := ⟨rfl, rfl, rfl, id⟩

/-- A state that agrees with such a state on the link. -/
theorem LinkStep.of_linkPart {s u t : State} (h : LinkStep s u) (e : linkPart t = linkPart u) : LinkStep s t where
  pending := Eq.trans (congrArg State.pending e :) h.pending
  nodeAddr := Eq.trans (congrArg State.nodeAddr e :) h.nodeAddr
  resetLow := Eq.trans (congrArg State.resetLow e :) h.resetLow
  law k := by
    rw [ltu_of_linkPart e]
    exact h.law k

theorem linkStep_of_linkPart {s t : State} (e : linkPart t = linkPart s) : LinkStep s t :=
  (LinkStep.refl s).of_linkPart e

theorem linkStep_declareLoss (s : State) : LinkStep s (declareLoss s) :=
  LinkStep.of_linkPart (u := { s with ltu := s.ltu.lost }) ⟨rfl, rfl, rfl, fun h => .lost h.1⟩
    (declareLoss_linkPart s)

theorem linkStep_phantomFrame (s : State) : LinkStep s (phantomFrame s) :=
  LinkStep.of_linkPart (u := { s with ltu := { s.ltu with count := s.ltu.count + 1, tick := 0 } })
    ⟨rfl, rfl, rfl, fun h => h.timed _ (Nat.zero_le 2047)⟩ (phantomFrame_linkPart s)

theorem linkStep_silenceLoss (s : State) : LinkStep s (silenceLoss s) :=
  LinkStep.of_linkPart
    (u := { s with
      receiver := { s.receiver with sinceStart := none }
      ltu := { link := .holdover, count := s.ltu.count + 4, tick := 0, goodRun := 0, badRun := 0 } })
    ⟨rfl, rfl, rfl, fun _ => ⟨Nat.zero_le 2047, Nat.zero_le 7, rfl, rfl⟩⟩ (silenceLoss_linkPart s)

theorem linkStep_goodFrame (bytes : List Byte) (s : State) : LinkStep s (goodFrame bytes s) := by
  refine LinkStep.of_linkPart ⟨?_, ?_, ?_, ltuGood_ok (frameCount bytes)⟩ (goodFrame_linkPart bytes s)
  · exact (congrArg State.pending (adoptCount_linkPart _ _) :)
  · exact (congrArg State.nodeAddr (adoptCount_linkPart _ _) :)
  · exact (congrArg State.resetLow (adoptCount_linkPart _ _) :)

theorem linkStep_badFrame (bytes : List Byte) {s : State} (running : s.ltu.link.running = true) :
    LinkStep s (badFrame bytes s) := by
  have hcount := adoptCount_linkPart (s.ltu.count + 1) { s with ltu := s.ltu.afterBad }
  have hltu := ltuBad_ltu s
  refine LinkStep.of_linkPart ?_ (badFrame_linkPart bytes s)
  split
  · refine ⟨(congrArg State.pending hcount :), (congrArg State.nodeAddr hcount :),
      (congrArg State.resetLow hcount :), fun h => .lost ?_⟩
    rw [hltu]
    exact h.1
  · rename_i short
    refine ⟨(congrArg State.pending hcount :), (congrArg State.nodeAddr hcount :),
      (congrArg State.resetLow hcount :), fun h => ?_⟩
    rw [hltu] at short ⊢
    exact h.afterBad running (Nat.not_le.1 short)

theorem linkStep_arriveFrame (bytes : List Byte) (pins : PedalPins) (s : State) :
    LinkStep s (arriveFrame bytes pins s) := by
  have hpassed : LinkStep s (if frameGood bytes then goodFrame bytes { s with pedalPins := pins }
      else if s.ltu.link.running then badFrame bytes { s with pedalPins := pins }
      else passBadFrame bytes { s with pedalPins := pins }) := by
    split
    · obtain ⟨hp, hn, hr, hl⟩ := linkStep_goodFrame bytes { s with pedalPins := pins }
      exact ⟨hp, hn, hr, hl⟩
    · split
      · rename_i running
        obtain ⟨hp, hn, hr, hl⟩ := linkStep_badFrame bytes (s := { s with pedalPins := pins }) running
        exact ⟨hp, hn, hr, hl⟩
      · exact LinkStep.of_linkPart (u := { s with pedalPins := pins }) ⟨rfl, rfl, rfl, id⟩
          (passBadFrame_linkPart bytes _)
  obtain ⟨hp, hn, hr, hl⟩ := hpassed
  unfold arriveFrame
  split
  · exact ⟨hp, hn, hr, hl⟩
  · exact .refl s

theorem linkStep_startFrame (s : State) : LinkStep s (startFrame s) := by
  refine ⟨rfl, rfl, rfl, fun h => ?_⟩
  unfold startFrame
  split
  · exact h.timed _ (Nat.zero_le _)
  · exact h

theorem linkStep_achieveLock (s : State) : LinkStep s (achieveLock s) := by
  unfold achieveLock
  split
  · exact ⟨rfl, rfl, rfl, fun h => ⟨h.1, h.2.1, rfl⟩⟩
  · exact .refl s

theorem linkStep_localTick (s : State) : LinkStep s (localTick s) := by
  have hnoted {t : State} (h : LinkStep { s with receiver := s.receiver.after 1 } t) : LinkStep s t :=
    ⟨h.pending, h.nodeAddr, h.resetLow, h.law⟩
  unfold localTick
  simp only
  split
  · exact .refl s
  · split
    · split
      · exact hnoted (linkStep_silenceLoss _)
      · rename_i short
        exact ⟨rfl, rfl, rfl, fun h => h.timed _ (Nat.le_of_lt_succ (Nat.not_le.1 short))⟩
    · split
      · exact hnoted (linkStep_phantomFrame _)
      · rename_i short
        exact ⟨rfl, rfl, rfl, fun h => h.timed _ (Nat.le_trans (Nat.le_of_lt (Nat.not_le.1 short)) (by decide))⟩

theorem sendFromFifo_linkPart (s : State) : linkPart (sendFromFifo s) = linkPart s := by
  have hsent (k : Nat) : linkPart (sendFifo k s).counted = linkPart s :=
    (counted_linkPart _).trans (laneStep_linkPart (sendFifo_step k s))
  unfold sendFromFifo
  repeat' split
  · rfl
  · exact hsent 0
  · exact hsent _
  all_goals rfl

theorem sendFromQueue_linkPart (s : State) : linkPart (sendFromQueue s) = linkPart s := by
  have hsent (k : Nat) : linkPart (sendQueue k s) = linkPart s :=
    (laneStep_linkPart (sendQueue_step k s) :)
  unfold sendFromQueue
  repeat' split
  · exact hsent 0
  · rfl
  · exact hsent _
  all_goals rfl

/-- A command but the two reset rows keeps waiting commands, address and reset pin, and the Link Timing Unit's
law. -/
theorem exec_linkStep (c : Instr) (hp : ∀ straps, c ≠ .powerOnReset straps) (hr : c ≠ .resetNHeldLow)
    {s t : State} (e : exec c s = .next t) : LinkStep s t := by
  have released {u t : State} (hu : LinkStep s u) (e : whenReleased s u = .next t) : LinkStep s t :=
    StepParts.whenReleased_keeps (.refl s) hu e
  have same {u t : State} (hu : linkPart u = linkPart s) (e : whenReleased s u = .next t) : LinkStep s t :=
    released (linkStep_of_linkPart hu) e
  have engine {u t : State} (hu : OnlyEngine s u) (e : whenReleased s u = .next t) : LinkStep s t :=
    same (linkPart_of_onlyEngine hu) e
  have request (k : ReqKind) (r : Req) {t : State}
      (e : whenReleased s (takeRequest (checked k (actOf k)) r s) = .next t) : LinkStep s t :=
    same (takeRequest_linkPart r s fun u => checked_linkPart k r u) e
  cases c with
  | powerOnReset straps => exact absurd rfl (hp straps)
  | resetNHeldLow => exact absurd rfl hr
  | frameStart => exact released (linkStep_startFrame s) e
  | syncSearch => exact released (u := loseSync s) ⟨rfl, rfl, rfl, id⟩ e
  | frameArrival bytes pins => exact released (linkStep_arriveFrame bytes pins s) e
  | lockAchieved => exact released (linkStep_achieveLock s) e
  | lossByBadFrames =>
    refine released ?_ e
    unfold loseByBadFrames
    split
    · exact linkStep_declareLoss s
    · exact .refl s
  | lossBySilence pins =>
    refine released ?_ e
    split
    · obtain ⟨hp, hn, hr, hl⟩ := linkStep_silenceLoss { s with pedalPins := pins }
      exact ⟨hp, hn, hr, hl⟩
    · exact .refl s
  | phantomFrame pins =>
    refine released ?_ e
    split
    · exact .refl s
    · obtain ⟨hp, hn, hr, hl⟩ := linkStep_phantomFrame
        { s with pedalPins := pins, receiver := s.receiver.after (Config.ticksPerFrame - s.ltu.tick) }
      exact ⟨hp, hn, hr, hl⟩
  | crossfadeEnd v => exact engine (RecordRanges.endCrossfade_onlyVoices v s).engine e
  | riseEnd v => exact engine (RecordRanges.endRise_onlyVoices v s).engine e
  | fallEnd v => exact engine (RecordRanges.finishFall_onlyVoices v s).engine e
  | pedalEdge l => exact engine (RecordRanges.reachDebounce_onlyEngine l s) e
  | pedalStuckJudgement l => exact engine (RecordRanges.reachStuck_onlyEngine l s) e
  | timedCueDue k => exact engine (RecordRanges.markDue_onlyEngine k.val s) e
  | timedHandoff L => exact engine (handOff_onlyEngine L s) e
  | blockEnd =>
    refine same ?_ e
    unfold takeBlockEnd
    split
    · exact runTasks_linkPart ..
    · rfl
  | gapLimit =>
    refine same ?_ e
    unfold reachGapLimit
    repeat' split
    · exact (linkPart_of_onlyEngine (raise_onlyFaults .ctrlRunon .none (abandon s)).engine :)
    · rfl
    · rfl
  | fifoSend => exact same (sendFromFifo_linkPart s) e
  | queueSend => exact same (sendFromQueue_linkPart s) e
  | unknownRequest kind r =>
    refine same ?_ e
    split
    · exact takeRequest_linkPart r s fun _ => rfl
    · rfl
  | identify r => exact request .identify r e
  | readCap r => exact request .readCap r e
  | configure r => exact request .configure r e
  | readConfig r => exact request .readConfig r e
  | loadBegin r => exact request .loadBegin r e
  | loadData r => exact request .loadData r e
  | loadCommit r => exact request .loadCommit r e
  | loadAbort r => exact request .loadAbort r e
  | readTable r => exact request .readTable r e
  | cueNow r => exact request .cueNow r e
  | cueAt r => exact request .cueAt r e
  | cueFlush r => exact request .cueFlush r e
  | gatewaySet r => exact request .gatewaySet r e
  | portSet r => exact request .portSet r e
  | readState r => exact request .readState r e
  | readFaults r => exact request .readFaults r e
  | faultClear r => exact request .faultClear r e
  | faultSetup r => exact request .faultSetup r e
  | counterSetup r => exact request .counterSetup r e
  | readCounters r => exact request .readCounters r e
  | engineReset r => exact request .engineReset r e

theorem ltuOk_reset : LtuOk State.reset.ltu := ⟨by decide, by decide, rfl, rfl⟩

/-- Settles O58: the tick counter is written only below its limit, a bad run of 8 is a loss, and the good run's
range is that of the link state which each row enters. -/
theorem stepKeepsLtuLaw : Obligations.StepKeepsLtuLaw := by
  intro s t h e
  rw [ltuLaw_iff] at h ⊢
  unfold step at e
  split at e
  · cases e
    exact (linkStep_localTick s).law h
  · rename_i c rest _
    by_cases hp : ∃ straps, c = .powerOnReset straps
    · obtain ⟨straps, rfl⟩ := hp
      cases e
      exact ltuOk_reset
    · by_cases hr : c = .resetNHeldLow
      · subst hr
        cases e
        exact h
      · exact (exec_linkStep c (fun straps k => hp ⟨straps, k⟩) hr e).law h

/-- Every command answers a next state. -/
theorem exec_total (c : Instr) (s : State) : ∃ t, exec c s = .next t := by
  cases c <;> exact ⟨_, rfl⟩

/-- Settles O2: each row answers through `whenReleased`, and all but the two reset rows are such link steps. -/
theorem everyCommandAnswers : Obligations.EveryCommandAnswers := by
  intro c s
  obtain ⟨t, e⟩ := exec_total c s
  refine ⟨t, e, ?_⟩
  by_cases hp : ∃ straps, c = .powerOnReset straps
  · obtain ⟨straps, rfl⟩ := hp
    cases e
    exact ⟨rfl, fun h => absurd rfl (h straps)⟩
  · by_cases hr : c = .resetNHeldLow
    · subst hr
      cases e
      exact ⟨rfl, fun _ => ⟨rfl, fun h => absurd rfl h⟩⟩
    · have step := exec_linkStep c (fun straps k => hp ⟨straps, k⟩) hr e
      exact ⟨step.pending, fun _ => ⟨step.nodeAddr, fun _ => step.resetLow⟩⟩

end Sys2Proof.Proofs.LinkParts
end

