-- ==== Sys2Proof/Proofs/VoiceMoves.lean ====
section
/-! PROOF. What a voice operation writes into a voice's record (R92 to R103), as moves that keep every law of
the voices at once; and the voice operations and one lead's block work made of them. -/

namespace Sys2Proof.Proofs.VoiceMoves

open Sys2Proof Sys2Proof.Machine Sys2Proof.Safety Sys2Proof.Proofs.StepParts Sys2Proof.Proofs.BlockParts

/-! ### Moves -/

/-- A voice's steps and heads are in bounds (R81, R105). -/
def HeadsOk (x : Voice) : Prop :=
  4096 ≤ x.currentStep ∧ x.currentStep ≤ 65536 ∧ (x.runs = true → HeadOk x)

/-- A record that an operation on voice `v` may write: it keeps the voice's own law, its heads' bounds and the
claimed slots off the lead input slots, and takes no kind into the fault set. -/
structure VoiceMove (s : State) (v : VoiceId) (y : Voice) : Prop where
  ok : VoiceLaw s → VoiceOk y
  heads : HeadsInBounds s → HeadsOk y
  slot : LeadSlotsFree s → y.state ≠ .off → ∀ p, y.part = some p → s.isLeadSlot p.slot = false
  faults : ∀ k ∈ y.faults, k ∈ (s.voice v).faults

/-- The increment a ramp captures is one of the five (R94, R111). -/
theorem rampIncrement_mem {s : State} (h : VoiceLaw s) (L : Option Lead) :
    rampIncrement s L ∈ [1, 2, 4, 8, 16] := by
  have of_fade : ∀ n ∈ [256, 512, 1024, 2048, 4096], 4096 / n ∈ [1, 2, 4, 8, 16] := by decide
  cases L with
  | none => exact (by decide : 4 ∈ [1, 2, 4, 8, 16])
  | some L =>
    refine of_fade _ ?_
    unfold State.params
    split
    · exact h.2.1 _
    · exact (by decide : 1024 ∈ [256, 512, 1024, 2048, 4096])

/-- The bounds of the heads read distance and crossfade alone. -/
theorem headOk_congr {x y : Voice} (h : HeadOk x) (hd : y.distance = x.distance)
    (hc : y.crossfade = x.crossfade) : HeadOk y := by
  unfold HeadOk at *
  rwa [hd, hc]

/-- The heads' bounds read steps, distance, crossfade and whether the heads run alone. -/
theorem HeadsOk.congr {x y : Voice} (h : HeadsOk x) (hs : y.currentStep = x.currentStep)
    (hd : y.distance = x.distance) (hc : y.crossfade = x.crossfade) (hr : y.runs = true → x.runs = true) :
    HeadsOk y := by
  exact ⟨hs ▸ h.1, hs ▸ h.2.1, fun r => headOk_congr (h.2.2 (hr r)) hd hc⟩

/-- The bounds of a main head alone. -/
theorem headOk_none {x : Voice} (h : x.crossfade = none) :
    HeadOk x ↔ 99 * 16384 < x.distance ∧ x.distance ≤ 1024 * 16384 := by
  unfold HeadOk
  rw [h]

/-- The bounds of both heads of a crossfade. -/
theorem headOk_some {x : Voice} {c : Crossfade} (h : x.crossfade = some c) :
    HeadOk x ↔ 1 ≤ c.index ∧ c.index ≤ 31
      ∧ 96 * 16384 - 49152 * ((c.index : Int) - 1) < x.distance
      ∧ x.distance ≤ 1024 * 16384 + 12288 * (c.index : Int)
      ∧ 192 * 16384 - 49152 * ((c.index : Int) - 1) < c.d2
      ∧ c.d2 < 960 * 16384 + 12288 * ((c.index : Int) - 1) := by
  unfold HeadOk
  rw [h]

/-- A voice whose heads do not run needs its steps alone in bounds. -/
theorem HeadsOk.stopped {x y : Voice} (h : HeadsOk x) (hs : y.currentStep = x.currentStep)
    (hr : y.runs = false) : HeadsOk y :=
  ⟨hs ▸ h.1, hs ▸ h.2.1, fun r => absurd (hr.symm.trans r) nofun⟩

section
variable {s : State} {v : VoiceId}

theorem goneOff_move (s : State) (v : VoiceId) : VoiceMove s v (s.voice v).goneOff where
  ok h := by
    have hinc := (h.1 v).increment_mem
    constructor <;> simp [Voice.goneOff, Voice.runs]
    simpa using hinc
  heads h := HeadsOk.stopped (h.2 v) rfl rfl
  slot _ off := absurd rfl off
  faults := nofun

/-- At the end of its fall, or at rest, a voice without a release mark takes an assignment on a slot that is no
lead input slot (R93). -/
theorem tookPart_move {x : Voice} (p : Assignment) (hs : s.isLeadSlot p.slot = false)
    (hstep : x.currentStep = (s.voice v).currentStep) (hf : x.faults = (s.voice v).faults)
    (off : x.state ≠ .off) (rest : VoiceLaw s →
      VoiceOk x ∧ x.releaseMark = false ∧ x.envelope = 0 ∧ x.crossfade = none) :
    VoiceMove s v (x.tookPart p) where
  ok h := by
    obtain ⟨k, mark, env, fade⟩ := rest h
    have owner : x.owner ≠ none := fun e => off (k.owner_iff.2 e)
    have hscope := k.faults_scope
    have hnodup := k.faults_nodup
    have hinc := k.increment_mem
    by_cases e : x.faults = [] <;> constructor <;> simp_all [Voice.tookPart, Voice.runs]
  heads h := by
    refine HeadsOk.stopped (h.2 v) hstep ?_
    unfold Voice.tookPart Voice.runs
    by_cases e : x.faults.isEmpty <;> simp [e]
  slot _ _ q e := by
    cases e
    exact hs
  faults k m := hf ▸ m

/-- A fall that starts from RISING or SOUNDING: to IDLE, to OFF with a release mark, or to REASSIGN with an
entry (R95). -/
theorem fall_move (s : State) (v : VoiceId) {d : FallDest} {mark : Bool} {p : Option Assignment}
    (hx : (s.voice v).state = .rising ∨ (s.voice v).state = .sounding)
    (hd : (d = .idle ∧ mark = false ∧ p = none) ∨ (d = .off ∧ mark = true ∧ p = none)
      ∨ (d = .reassign ∧ mark = false ∧ p ≠ none)) :
    VoiceMove s v { s.voice v with
      state := .falling, dest := d, releaseMark := mark, pendingPart := p
      increment := rampIncrement s (s.voice v).owner } where
  ok h := by
    have k := h.1 v
    have owner : (s.voice v).owner ≠ none := fun e => by
      have := k.owner_iff.2 e
      rcases hx with r | r <;> simp [r] at this
    have clean : (s.voice v).faults = [] := by
      by_contra e
      rcases k.faults_mute e with r | ⟨r, _⟩ <;> rcases hx with q | q <;> simp [q] at r
    have hpart := k.part_iff
    have henv := k.envelope_le
    have hinc := rampIncrement_mem h (s.voice v).owner
    rcases hd with ⟨rfl, rfl, rfl⟩ | ⟨rfl, rfl, rfl⟩ | ⟨rfl, rfl, hp⟩ <;>
      constructor <;> simp_all [Voice.runs]
  heads h := HeadsOk.congr (h.2 v) rfl rfl rfl fun _ => by rcases hx with r | r <;> simp [Voice.runs, r]
  slot h _ p e := h v (by rcases hx with r | r <;> simp [r]) p e
  faults _ m := m

/-- A fall turned to OFF: its mark is set, and its destination where no mute holds it (R95, R96). -/
theorem releaseFalling_move (s : State) (v : VoiceId) (hx : (s.voice v).state = .falling) :
    VoiceMove s v { s.voice v with
      dest := if (s.voice v).faults = [] then .off else (s.voice v).dest
      releaseMark := true, pendingPart := none } where
  ok h := by
    have k := h.1 v
    have hmute := k.faults_mute
    by_cases e : (s.voice v).faults = []
    · exact { k with
        pending_falls := by simp
        mark_falls := by simp [hx, e]
        mark_or_pending := by simp
        falls_off := by simp
        falls_reassign := by simp [e]
        falls_muted := by simp [e]
        faults_mute := by simp [e] }
    · have muted : (s.voice v).dest = .muted := by simpa [hx] using hmute e
      exact { k with
        pending_falls := by simp
        mark_falls := by simp [hx, e, muted]
        mark_or_pending := by simp
        falls_off := by simp
        falls_reassign := by simp [e, muted]
        falls_muted := by simp [e]
        faults_mute := by simp [hx, e, muted] }
  heads h := HeadsOk.congr (h.2 v) rfl rfl rfl id
  slot h off p e := h v off p e
  faults _ m := m

/-- A fall turned to REASSIGN: it carries the entry, and its destination turns where no mute holds it (R95,
R96). -/
theorem reassignFalling_move (s : State) (v : VoiceId) (p : Assignment) (hx : (s.voice v).state = .falling) :
    VoiceMove s v { s.voice v with
      dest := if (s.voice v).faults = [] then .reassign else (s.voice v).dest
      releaseMark := false, pendingPart := some p } where
  ok h := by
    have k := h.1 v
    have hmute := k.faults_mute
    by_cases e : (s.voice v).faults = []
    · exact { k with
        pending_falls := by simp [hx, e]
        mark_falls := by simp
        mark_or_pending := by simp
        falls_off := by simp [e]
        falls_reassign := by simp
        falls_muted := by simp [e]
        faults_mute := by simp [e] }
    · have muted : (s.voice v).dest = .muted := by simpa [hx] using hmute e
      exact { k with
        pending_falls := by simp [hx, e, muted]
        mark_falls := by simp
        mark_or_pending := by simp
        falls_off := by simp [e, muted]
        falls_reassign := by simp
        falls_muted := by simp [e]
        faults_mute := by simp [hx, e, muted] }
  heads h := HeadsOk.congr (h.2 v) rfl rfl rfl id
  slot h off p e := h v off p e
  faults _ m := m

/-- An OFF voice takes an owner and an entry on a slot that is no lead input slot (R92). -/
theorem assign_move (s : State) (v : VoiceId) (L : Lead) (p : Assignment) (hs : s.isLeadSlot p.slot = false) :
    VoiceMove s v { s.voice v with
      state := .idle, owner := some L, part := some p, pendingPart := none
      releaseMark := false, envelope := 0, crossfade := none, faults := [] } where
  ok h := by
    have hinc := (h.1 v).increment_mem
    constructor <;> simp [Voice.runs]
    simpa using hinc
  heads h := HeadsOk.stopped (h.2 v) rfl rfl
  slot _ _ q e := by
    cases e
    exact hs
  faults := nofun

/-- A rise from IDLE: both heads at their start (R94, R105). -/
theorem riseIdle_move (s : State) (v : VoiceId) (hx : (s.voice v).state = .idle)
    (hf : (s.voice v).faults = []) :
    VoiceMove s v { s.voice v with
      state := .rising, envelope := 0, increment := rampIncrement s (s.voice v).owner
      distance := Config.startDistance, crossfade := none } where
  ok h := by
    have k := h.1 v
    have owner : (s.voice v).owner ≠ none := fun e => by
      have := k.owner_iff.2 e
      simp [hx] at this
    have hpart := k.part_iff
    have hpending := k.pending_falls
    have hmark := k.mark_falls
    have hinc := rampIncrement_mem h (s.voice v).owner
    constructor <;> simp_all [Voice.runs]
  heads h := ⟨(h.2 v).1, (h.2 v).2.1, fun _ => (headOk_none rfl).2
    (by decide : (99 * 16384 : Int) < Config.startDistance ∧ Config.startDistance ≤ 1024 * 16384)⟩
  slot h _ p e := h v (by simp [hx]) p e
  faults _ m := m

/-- A fall to IDLE turned round in place (R94). -/
theorem riseFalling_move (s : State) (v : VoiceId) (hx : (s.voice v).state = .falling)
    (hd : (s.voice v).dest = .idle) :
    VoiceMove s v { s.voice v with
      state := if (s.voice v).envelope = Config.fullEnvelope then .sounding else .rising
      increment := rampIncrement s (s.voice v).owner } where
  ok h := by
    have k := h.1 v
    have owner : (s.voice v).owner ≠ none := fun e => by
      have := k.owner_iff.2 e
      simp [hx] at this
    have hpart := k.part_iff
    have hpending := k.pending_falls
    have hmark := k.mark_falls
    have hfaults := k.faults_mute
    have henv := k.envelope_le
    have hinc := rampIncrement_mem h (s.voice v).owner
    by_cases e : (s.voice v).envelope = Config.fullEnvelope <;>
      constructor <;> simp_all [Voice.runs, Config.fullEnvelope]
  heads h := HeadsOk.congr (h.2 v) rfl rfl rfl fun _ => by simp [Voice.runs, hx]
  slot h _ p e := h v (by simp [hx]) p e
  faults _ m := m

theorem targetOf_range (e : Int) (c : Option Nat) (w p16 : Nat) (detune : Int) :
    4096 ≤ targetOf e c w p16 detune ∧ targetOf e c w p16 detune ≤ 65536 := by
  unfold targetOf clampInt
  omega

theorem glideTo_range {c t : Nat} (g : Nat) (hc : 4096 ≤ c ∧ c ≤ 65536) (ht : 4096 ≤ t ∧ t ≤ 65536) :
    4096 ≤ glideTo c t g ∧ glideTo c t g ≤ 65536 := by
  unfold glideTo
  repeat' split
  all_goals omega

/-- Steps written within their range (R80, R81). -/
theorem steps_move (s : State) (v : VoiceId) (t c : Nat)
    (hc : HeadsInBounds s → 4096 ≤ c ∧ c ≤ 65536) :
    VoiceMove s v { s.voice v with targetStep := t, currentStep := c } where
  ok h := { h.1 v with }
  heads h := ⟨(hc h).1, (hc h).2, (h.2 v).2.2⟩
  slot h off p e := h v off p e
  faults _ m := m

/-- The end of a rise (R97). -/
theorem riseDone_move (s : State) (v : VoiceId) (hx : (s.voice v).state = .rising) :
    VoiceMove s v (s.voice v).riseDone where
  ok h := by
    have k := h.1 v
    have owner : (s.voice v).owner ≠ none := fun e => by
      have := k.owner_iff.2 e
      simp [hx] at this
    have hpart := k.part_iff
    have hpending := k.pending_falls
    have hmark := k.mark_falls
    have hfaults := k.faults_mute
    have hinc := k.increment_mem
    constructor <;> simp_all [Voice.runs, Voice.riseDone, Config.fullEnvelope]
  heads h := HeadsOk.congr (h.2 v) rfl rfl rfl fun _ => by simp [Voice.runs, hx]
  slot h _ p e := h v (by simp [hx]) p e
  faults _ m := m

/-- A voice that comes to rest at the end of its fall, at IDLE or at MUTED (R98). -/
theorem rest_move (s : State) (v : VoiceId) {st : VoiceState} (hx : (s.voice v).state = .falling)
    (hst : st = .idle ∨ st = .muted) (hd : VoiceLaw s →
      (((s.voice v).dest = .idle ∧ st = .idle) ∨ ((s.voice v).dest = .muted ∧ st = .muted))
        ∧ (s.voice v).releaseMark = false ∧ (s.voice v).pendingPart = none) :
    VoiceMove s v { (s.voice v).stopped with state := st } where
  ok h := by
    obtain ⟨hdest, mark, pending⟩ := hd h
    have k := h.1 v
    have owner : (s.voice v).owner ≠ none := fun e => by
      have := k.owner_iff.2 e
      simp [hx] at this
    have hpart := k.part_iff
    have hfaults := k.faults_mute
    have hmuted := k.falls_muted
    have hscope := k.faults_scope
    have hnodup := k.faults_nodup
    have hinc := k.increment_mem
    rcases hdest with ⟨hdest, rfl⟩ | ⟨hdest, rfl⟩ <;> constructor <;> simp_all [Voice.runs, Voice.stopped]
  heads h := HeadsOk.stopped (h.2 v) rfl (by rcases hst with rfl | rfl <;> rfl)
  slot h _ p e := h v (by simp [hx]) p e
  faults _ m := m

end

/-! ### Heads in a frame (R101 to R103, R105) -/

/-- A splice puts the second head between 192 and 960 samples, whatever its period (R102, R105). -/
theorem spliceTarget_range {d d2 : Int} {p : Nat} (hp : 40 ≤ p ∧ p ≤ 640) (h : spliceTarget d p = some d2) :
    192 * 16384 < d2 ∧ d2 < 960 * 16384 := by
  unfold spliceTarget at h
  simp only at h
  have hperiod : (0 : Int) < p * Config.headUnit := by unfold Config.headUnit; omega
  have hsize : (p : Int) * Config.headUnit ≤ 10485760 := by unfold Config.headUnit; omega
  have hle (n : Int) := ceilDiv_le n _ hperiod
  have hlt (n : Int) := ceilDiv_lt n _ hperiod
  generalize (p : Int) * Config.headUnit = period at hperiod hsize hle hlt h
  have whole (n : Int) (hn : 0 < n) : n ≤ max 1 (ceilDiv n period) * period
      ∧ max 1 (ceilDiv n period) * period < n + period := by
    have one : 1 ≤ ceilDiv n period := by
      by_contra neg
      have zero : ceilDiv n period * period ≤ 0 :=
        mul_nonpos_of_nonpos_of_nonneg (by omega) (Int.le_of_lt hperiod)
      have := hle n
      omega
    rw [max_eq_right one]
    refine ⟨hle n, ?_⟩
    have hdist : (ceilDiv n period - 1) * period = ceilDiv n period * period - period := by ring
    have := hlt n
    omega
  split at h
  · cases h
    have := whole (5242880 - d) (by omega)
    omega
  · split at h
    · cases h
      have := whole (d - 13631488) (by omega)
      omega
    · cases h

/-- Every running head moves by at most 3 samples down and 0.75 up a frame (R101, R105). -/
theorem headMove_range {x : Voice} (h : 4096 ≤ x.currentStep ∧ x.currentStep ≤ 65536) :
    -49152 ≤ (Config.headUnit - x.currentStep : Int) ∧ (Config.headUnit - x.currentStep : Int) ≤ 12288 := by
  unfold Config.headUnit
  omega

/-- A ramp's step moves no head (R97). -/
theorem ramped_heads (x : Voice) : x.ramped.currentStep = x.currentStep ∧ x.ramped.distance = x.distance
    ∧ x.ramped.crossfade = x.crossfade ∧ x.ramped.state = x.state := by
  unfold Voice.ramped
  split <;> exact ⟨rfl, rfl, rfl, rfl⟩

/-- The heads of a running voice stay in bounds through a frame (R101 to R103, R105). -/
theorem crossfadeStep_headOk {x : Voice} {p : Nat} (hstep : 4096 ≤ x.currentStep ∧ x.currentStep ≤ 65536)
    (hp : 40 ≤ p ∧ p ≤ 640) (h : HeadOk x) : HeadOk (x.advanced.spliceCheck p).1.crossfadeStep := by
  have hmove := headMove_range hstep
  cases e : x.crossfade with
  | none =>
    rw [headOk_none e] at h
    have hc : x.advanced.crossfade = none := by simp [Voice.advanced, e]
    have hd : x.advanced.distance = x.distance + (Config.headUnit - x.currentStep) := rfl
    unfold Voice.spliceCheck
    rw [hc]
    simp only
    cases target : spliceTarget x.advanced.distance p with
    | none =>
      have hstill : x.advanced.crossfadeStep = x.advanced := by unfold Voice.crossfadeStep; rw [hc]
      simp only [hstill]
      unfold spliceTarget at target
      simp only at target
      split at target
      · cases target
      · split at target
        · cases target
        · exact (headOk_none hc).2 ⟨by omega, by omega⟩
    | some d2 =>
      have hrange := spliceTarget_range hp target
      have bounds : 1 ≤ 1 ∧ 1 ≤ 31
          ∧ 96 * 16384 - 49152 * (((1 : Nat) : Int) - 1) < x.distance + (Config.headUnit - x.currentStep)
          ∧ x.distance + (Config.headUnit - x.currentStep) ≤ 1024 * 16384 + 12288 * ((1 : Nat) : Int)
          ∧ 192 * 16384 - 49152 * (((1 : Nat) : Int) - 1) < d2
          ∧ d2 < 960 * 16384 + 12288 * (((1 : Nat) : Int) - 1) := by
        refine ⟨Nat.le_refl 1, by decide, ?_, ?_, ?_, ?_⟩ <;> push_cast <;> omega
      exact (headOk_some (c := { d2 := d2, index := 1 }) rfl).2 bounds
  | some c =>
    obtain ⟨hone, hlast, hlow, hhigh, hlow2, hhigh2⟩ := (headOk_some e).1 h
    have hc : x.advanced.crossfade = some { c with d2 := c.d2 + (Config.headUnit - x.currentStep) } := by
      simp [Voice.advanced, e]
    rw [Voice.spliceCheck_some _ _ _ hc]
    unfold Voice.crossfadeStep
    rw [hc]
    simp only
    split
    · have hdone : x.advanced.crossfadeDone.crossfade = none := by
        unfold Voice.crossfadeDone
        rw [hc]
      have hd : x.advanced.crossfadeDone.distance = c.d2 + (Config.headUnit - x.currentStep) := by
        unfold Voice.crossfadeDone
        rw [hc]
      rw [headOk_none hdone, hd]
      omega
    · refine (headOk_some rfl).2 ⟨by simp, by simp only; omega, ?_, ?_, ?_, ?_⟩
      · show _ < x.distance + _
        push_cast
        omega
      · show x.distance + _ ≤ _
        push_cast
        omega
      · push_cast
        omega
      · push_cast
        omega

section
variable {s : State} {v : VoiceId}

/-- The frame's work on a running voice before its ramp's end is judged (R101 to R107). -/
theorem frame_move (s : State) (v : VoiceId) (h : List Int) (L : Lead) (hx : (s.voice v).runs = true) :
    VoiceMove s v ((s.voice v).frame h (s.lead L).splicePeriod).1 := by
  obtain ⟨hstate, howner, hpart, hpending, hmark, hdest, hinc, hstep, _, hfaults⟩ :=
    Voice.frame_keeps (s.voice v) h (s.lead L).splicePeriod
  have hruns : ((s.voice v).frame h (s.lead L).splicePeriod).1.runs = true := by
    unfold Voice.runs
    rw [hstate]
    exact hx
  have heads := ramped_heads
    ((s.voice v).advanced.spliceCheck (s.lead L).splicePeriod).1.crossfadeStep
  have henv : (s.voice v).envelope ≤ 4096 → ((s.voice v).frame h (s.lead L).splicePeriod).1.envelope ≤ 4096
      ∧ ((s.voice v).state = .sounding →
        ((s.voice v).frame h (s.lead L).splicePeriod).1.envelope = (s.voice v).envelope) := by
    have hsame : ((s.voice v).advanced.spliceCheck (s.lead L).splicePeriod).1.crossfadeStep.envelope
        = (s.voice v).envelope := by
      unfold Voice.crossfadeStep Voice.crossfadeDone Voice.spliceCheck Voice.advanced
      repeat' split
      all_goals rfl
    have hsameState : ((s.voice v).advanced.spliceCheck (s.lead L).splicePeriod).1.crossfadeStep.state
        = (s.voice v).state := heads.2.2.2.symm.trans hstate
    intro le
    show ((s.voice v).advanced.spliceCheck _).1.crossfadeStep.ramped.envelope ≤ 4096
      ∧ (_ → ((s.voice v).advanced.spliceCheck _).1.crossfadeStep.ramped.envelope = _)
    unfold Voice.ramped
    rw [hsameState]
    split
    · rename_i e
      exact ⟨Nat.min_le_left .., fun c => absurd (e.symm.trans c) nofun⟩
    · rename_i e
      exact ⟨Nat.le_trans (Nat.sub_le ..) (hsame ▸ le), fun c => absurd (e.symm.trans c) nofun⟩
    all_goals exact ⟨hsame ▸ le, fun _ => hsame⟩
  refine ⟨fun k => ?_, fun k => ?_, fun k off p e => ?_, fun j m => hfaults ▸ m⟩
  · have k := k.1 v
    have hfull := k.envelope_full
    have := henv k.envelope_le
    obtain ⟨k1, k2, k3, k4, k5, k6, k7, k8, k9, k10, _, _, _, _, k15, k16, k17⟩ := k
    constructor <;> simp_all
  · exact ⟨hstep ▸ (k.2 v).1, hstep ▸ (k.2 v).2.1, fun _ => by
      have ok := crossfadeStep_headOk ⟨(k.2 v).1, (k.2 v).2.1⟩ (k.1 L) ((k.2 v).2.2 hx)
      exact headOk_congr ok heads.2.1 heads.2.2.1⟩
  · rw [hstate] at off
    rw [hpart] at e
    exact k v off p e

/-- The end of a crossfade: the second head becomes the main head (R103). -/
theorem crossfadeDone_move (s : State) (v : VoiceId) {c : Crossfade} (hc : (s.voice v).crossfade = some c)
    (last : 31 ≤ c.index) : VoiceMove s v (s.voice v).crossfadeDone := by
  have hdone : (s.voice v).crossfadeDone = { s.voice v with distance := c.d2, crossfade := none } := by
    unfold Voice.crossfadeDone
    rw [hc]
  rw [hdone]
  refine ⟨fun h => { h.1 v with crossfade_runs := by simp }, fun h => ?_, fun h off p e => h v off p e, fun _ m => m⟩
  refine ⟨(h.2 v).1, (h.2 v).2.1, fun r => (headOk_none rfl).2 ?_⟩
  have := (headOk_some hc).1 ((h.2 v).2.2 r)
  show _ < c.d2 ∧ c.d2 ≤ _
  omega

end

/-! ### The voice operations -/

/-- The part of the state that the laws of the voices read, with the outbound queue. -/
def voicePart (s : State) : State :=
  { lawPart s with
    ltu := State.reset.ltu, gateways := State.reset.gateways, pedals := State.reset.pedals, timed := []
    thresholdA := 0, thresholdB := 0, load := none, tuning := State.reset.tuning, maps := State.reset.maps
    outq := s.outq }

/-- The writes that voice operations and block work are made of keep `P`. -/
structure KeptByVoices (P : State → Prop) : Prop where
  frame : ∀ {s t}, P s → voicePart t = voicePart s → P t
  raise : ∀ (k : FaultKind) (sc : Scope) {s}, P s → P (raise k sc s)
  offer : ∀ (m : Message) {s}, P s → P (offerNotice m s)
  record : ∀ (L : Lead) {s d}, RecordStep s (s.lead L) d → P s → P (s.setLead L d)
  move : ∀ {s} (v : VoiceId) {y}, VoiceMove s v y → P s → P (s.setVoice v y)

section
variable {P : State → Prop} (K : KeptByVoices P)
include K

theorem clearFrozen_keeps (v : VoiceId) {s : State} (h : P s) : P (clearFrozen v s) :=
  K.record (s := s.setLead .a { s.leadA with frozen := s.leadA.frozen.set v none }) .b
    (.of_same rfl rfl rfl) (K.record .a (.of_same rfl rfl rfl) h)

theorem goOff_keeps (v : VoiceId) {s : State} (h : P s) : P (goOff v s) :=
  clearFrozen_keeps K v (K.move v (goneOff_move s v) h)

/-- A voice at rest takes an assignment, or goes OFF (R93). -/
theorem takePart_keeps (v : VoiceId) (p : Assignment) {s : State}
    (hx : (s.voice v).state = .idle ∨ (s.voice v).state = .muted) (h : P s) : P (takePart v p s) := by
  have stopped : (s.voice v).runs = false := by rcases hx with e | e <;> simp [Voice.runs, e]
  unfold takePart
  split
  · exact goOff_keeps K v h
  · rename_i free
    refine clearFrozen_keeps K v (K.move v (tookPart_move p (Bool.eq_false_iff.2 free) rfl rfl ?_ ?_) h)
    · rcases hx with e | e <;> simp [e]
    · intro law
      have k := law.1 v
      refine ⟨k, ?_, k.envelope_zero stopped, ?_⟩
      · by_contra mark
        have := (k.mark_falls (by simpa using mark)).1
        rcases hx with e | e <;> simp [e] at this
      · by_contra fade
        exact absurd ((k.crossfade_runs fade).symm.trans stopped) nofun

omit K in
/-- A voice that takes its pending assignment at the end of its fall (R93, R98). -/
theorem stopped_setVoice (v : VoiceId) (s : State) :
    (s.setVoice v (s.voice v).stopped).voice v = (s.voice v).stopped := State.voice_setVoice ..

theorem takePartAtEnd_keeps (v : VoiceId) (p : Assignment) {s : State} (hx : (s.voice v).state = .falling)
    (hmark : VoiceLaw s → (s.voice v).releaseMark = false) (h : P s) :
    P (takePartAtEnd v p (s.setVoice v (s.voice v).stopped)).1 := by
  unfold takePartAtEnd takePart
  simp only
  split
  · unfold goOff
    rw [stopped_setVoice, State.setVoice_setVoice]
    exact clearFrozen_keeps K v (K.move v (goneOff_move s v) h)
  · rename_i free
    rw [stopped_setVoice, State.setVoice_setVoice]
    refine clearFrozen_keeps K v (K.move v (tookPart_move p (Bool.eq_false_iff.2 free) rfl rfl ?_ ?_) h)
    · show (s.voice v).state ≠ .off
      simp [hx]
    · intro law
      refine ⟨?_, hmark law, rfl, rfl⟩
      exact { law.1 v with
        envelope_le := by simp [Voice.stopped]
        envelope_full := by simp [Voice.stopped, hx]
        envelope_zero := by simp [Voice.stopped]
        crossfade_runs := by simp [Voice.stopped] }

/-- The end of a fall (R98). -/
theorem endFall_keeps (v : VoiceId) {s : State} (hx : (s.voice v).state = .falling) (h : P s) :
    P (endFall v s).1 := by
  have resting {st : VoiceState} (hst : st = .idle ∨ st = .muted) (hd : VoiceLaw s →
      (((s.voice v).dest = .idle ∧ st = .idle) ∨ ((s.voice v).dest = .muted ∧ st = .muted))
        ∧ (s.voice v).releaseMark = false ∧ (s.voice v).pendingPart = none) :
      P ((s.setVoice v (s.voice v).stopped).setVoice v { (s.voice v).stopped with state := st }) := by
    rw [State.setVoice_setVoice]
    exact K.move v (rest_move s v hx hst hd) h
  have gone : P (goOff v (s.setVoice v (s.voice v).stopped)) := by
    unfold goOff
    rw [stopped_setVoice, State.setVoice_setVoice]
    exact clearFrozen_keeps K v (K.move v (goneOff_move s v) h)
  have unmarked (hd : (s.voice v).dest = .idle ∨ (s.voice v).dest = .reassign) (law : VoiceLaw s) :
      (s.voice v).releaseMark = false := by
    by_contra mark
    have := ((law.1 v).mark_falls (by simpa using mark)).2
    rcases hd with e | e <;> simp [e] at this
  unfold endFall
  simp only
  split
  · rename_i hd
    have hd : (s.voice v).dest = .idle := hd
    refine resting (.inl rfl) fun law => ⟨.inl ⟨hd, rfl⟩, unmarked (.inl hd) law, ?_⟩
    by_contra pending
    have := ((law.1 v).pending_falls pending).2
    simp [hd] at this
  · exact gone
  · rename_i hd
    have hd : (s.voice v).dest = .reassign := hd
    split
    · exact takePartAtEnd_keeps K v _ hx (unmarked (.inr hd)) h
    · rename_i none
      exact resting (.inl rfl) fun law => absurd none ((law.1 v).falls_reassign hx hd)
  · rename_i hd
    split
    · exact gone
    · rename_i mark
      have mark : (s.voice v).releaseMark = false := Bool.eq_false_iff.2 mark
      split
      · exact takePartAtEnd_keeps K v _ hx (fun _ => mark) h
      · rename_i none
        exact resting (.inr rfl) fun _ => ⟨.inr ⟨hd, rfl⟩, mark, none⟩

theorem raiseSkipped_keeps (L : Option Lead) {s : State} (h : P s) : P (raiseSkipped L s) := by
  cases L with
  | none => exact h
  | some L => exact K.raise _ _ h

theorem endFallNow_keeps (v : VoiceId) {s : State} (hx : (s.voice v).state = .falling) (h : P s) :
    P (endFallNow v s) :=
  raiseSkipped_keeps K _ (endFall_keeps K v hx h)

theorem startFall_keeps {d : FallDest} {mark : Bool} {p : Option Assignment} (v : VoiceId) {s : State}
    (hx : (s.voice v).state = .rising ∨ (s.voice v).state = .sounding)
    (hd : (d = .idle ∧ mark = false ∧ p = none) ∨ (d = .off ∧ mark = true ∧ p = none)
      ∨ (d = .reassign ∧ mark = false ∧ p ≠ none)) (h : P s) : P (startFall d mark p v s) := by
  have hstarted := K.move v (fall_move s v hx hd) h
  unfold startFall
  simp only
  split
  · exact endFallNow_keeps K v (by rw [State.voice_setVoice]) hstarted
  · exact hstarted

theorem fallToIdle_keeps (v : VoiceId) {s : State} (h : P s) : P (fallToIdle v s) := by
  unfold fallToIdle
  split
  · rename_i e
    exact startFall_keeps K v (.inl e) (.inl ⟨rfl, rfl, rfl⟩) h
  · rename_i e
    exact startFall_keeps K v (.inr e) (.inl ⟨rfl, rfl, rfl⟩) h
  all_goals exact h

theorem releaseVoice_keeps (v : VoiceId) {s : State} (h : P s) : P (releaseVoice v s) := by
  unfold releaseVoice
  simp only
  split
  · rename_i e
    exact startFall_keeps K v (.inl e) (.inr (.inl ⟨rfl, rfl, rfl⟩)) h
  · rename_i e
    exact startFall_keeps K v (.inr e) (.inr (.inl ⟨rfl, rfl, rfl⟩)) h
  · rename_i e
    have hturned := K.move v (releaseFalling_move s v e) h
    split <;> rename_i empty
    · rwa [if_pos empty] at hturned
    · rwa [if_neg empty] at hturned
  · exact goOff_keeps K v h
  · exact goOff_keeps K v h
  · exact h

theorem reassignVoice_keeps (v : VoiceId) (p : Assignment) {s : State} (h : P s) :
    P (reassignVoice v p s) := by
  unfold reassignVoice
  simp only
  split
  · rename_i e
    exact startFall_keeps K v (.inl e) (.inr (.inr ⟨rfl, rfl, nofun⟩)) h
  · rename_i e
    exact startFall_keeps K v (.inr e) (.inr (.inr ⟨rfl, rfl, nofun⟩)) h
  · rename_i e
    have hturned := K.move v (reassignFalling_move s v p e) h
    split <;> rename_i empty
    · rwa [if_pos empty] at hturned
    · rwa [if_neg empty] at hturned
  · rename_i e
    exact takePart_keeps K v p (.inl e) h
  · rename_i e
    exact takePart_keeps K v p (.inr e) h
  · exact h

theorem assignVoice_keeps (v : VoiceId) (L : Lead) (p : Assignment) {s : State}
    (hs : s.isLeadSlot p.slot = false) (h : P s) : P (assignVoice v L p s) := by
  unfold assignVoice
  simp only
  split
  · exact clearFrozen_keeps K v (K.move v (assign_move s v L p hs) h)
  all_goals exact h

theorem riseVoice_keeps (v : VoiceId) {s : State} (h : P s) : P (riseVoice v s) := by
  unfold riseVoice
  simp only
  split
  · rename_i e
    split
    · rename_i empty
      exact K.move v (riseIdle_move s v e empty) h
    · exact h
  · rename_i e
    split
    · rename_i hd
      exact K.move v (riseFalling_move s v e hd) h
    all_goals exact h
  all_goals exact h

theorem retargetVoice_keeps (L : Lead) (v : VoiceId) {s : State} (h : P s) : P (retargetVoice L v s) := by
  have glided (e : Int) (g : Nat) :
      P (s.setVoice v ((s.voice v).glided (chainTarget s L (s.voice v) e) g)) :=
    K.move v (steps_move s v _ _ fun k =>
      glideTo_range g ⟨(k.2 v).1, (k.2 v).2.1⟩ (targetOf_range ..)) h
  unfold retargetVoice
  simp only
  split
  · split
    · exact riseVoice_keeps K v (K.move v (steps_move s v _ _ fun _ => targetOf_range ..) h)
    · exact h
  · exact glided ..
  · exact glided ..
  · exact riseVoice_keeps K v (glided ..)
  · exact fallToIdle_keeps K v h
  · exact fallToIdle_keeps K v h
  all_goals exact h

theorem endRamp_keeps (v : VoiceId) {s : State} (h : P s) : P (endRamp v s).1 := by
  unfold endRamp
  simp only
  split
  · rename_i e
    split
    · exact K.move v (riseDone_move s v e) h
    · exact h
  · rename_i e
    split
    · exact endFall_keeps K v e h
    · exact h
  all_goals exact h

theorem voiceWork_keeps (v : VoiceId) {s : State} (h : P s) : P (voiceWork v s).state := by
  unfold voiceWork
  simp only
  split
  · rename_i L runs _
    have hframe := K.move v (frame_move s v (s.lead L).history L runs) h
    refine endRamp_keeps K v ?_
    split
    · exact K.frame hframe rfl
    · exact hframe
  · exact h

theorem endCrossfade_keeps (v : VoiceId) {s : State} (h : P s) : P (endCrossfade v s) := by
  unfold endCrossfade
  split
  · rename_i c hc
    split
    · rename_i last
      exact K.move v (crossfadeDone_move s v hc last) h
    · exact h
  · exact h

theorem endRise_keeps (v : VoiceId) {s : State} (h : P s) : P (endRise v s) := by
  unfold endRise
  split
  · rename_i rising
    exact K.move v (riseDone_move s v rising.1) h
  · exact h

theorem finishFall_keeps (v : VoiceId) {s : State} (h : P s) : P (finishFall v s) := by
  unfold finishFall
  split
  · rename_i falling
    exact endFallNow_keeps K v falling.1 h
  · exact h

/-! ### The Cue Unit's part -/

theorem setPending_keeps (g : Fin 8) (c : Cue) (o : Origin) {s : State} (h : P s) : P (setPending g c o s) := by
  refine K.frame h ?_
  unfold setPending
  simp only
  repeat' split
  all_goals rfl

theorem handOff_keeps (L : Lead) {s : State} (h : P s) : P (handOff L s) := by
  refine K.frame h ?_
  rcases handOff_cases L s with e | ⟨x, _, _, _, _, e⟩ <;> rw [e]
  rfl

/-- One lead's block work is made of these writes. -/
theorem keptByBlockParts : KeptByBlockParts P where
  frame h e q := K.frame h (by
    unfold voicePart
    rw [e, q])
  raise k sc _ h := K.raise k sc h
  offer m _ h := K.offer m h
  record L _ _ hd h := K.record L hd h
  clearPending _ _ h := K.frame h rfl
  handOff L _ h := handOff_keeps K L h
  release v _ h := releaseVoice_keeps K v h
  reassign v p _ h := reassignVoice_keeps K v p h
  assign v L p _ free h := assignVoice_keeps K v L p free h
  fall v _ h := fallToIdle_keeps K v h
  retarget L v _ h := retargetVoice_keeps K L v h

end

end Sys2Proof.Proofs.VoiceMoves
end

