-- ==== Sys2Proof/Proofs/VoiceLaws.lean ====
section
/-! PROOF. The laws of heads, voice records, fault sets and claimed slots (R7, R36, R89 to R105, R153, R154): each
is kept by the moves of the voices, by an occurrence, and by the requests that touch it. -/

namespace Sys2Proof.Proofs.VoiceLaws

open Sys2Proof Sys2Proof.Machine Sys2Proof.Safety Sys2Proof.Proofs.StepParts Sys2Proof.Proofs.RequestMoves
  Sys2Proof.Proofs.BlockParts Sys2Proof.Proofs.RecordRanges Sys2Proof.Proofs.VoiceMoves

/-! ### From the moves of the voices to steps -/

section
variable {P : State → Prop} (K : KeptByVoices P)
include K

theorem pedalEdge_keeps (l : LineId) (level : PedalLevel) {s : State} (h : P s) : P (pedalEdge l level s) := by
  have option (g : Fin 8) (c : Option Cue) (o : Origin) {u : State} (hu : P u) : P (setPending? g c o u) := by
    cases c with
    | none => exact hu
    | some c => exact setPending_keeps K g c o hu
  have hset (p : PedalLine) : P (s.setPedal l p) := K.frame h rfl
  have dropped (g : Fin 8) {u : State} (hu : P u) : P (countEvent .cueDropped (clearPending g u)) :=
    K.frame hu rfl
  cases level with
  | pressed => exact option _ _ _ (hset _)
  | released =>
    show P (releaseEdge _ _)
    unfold releaseEdge
    simp only
    repeat' split
    · exact hset _
    · exact K.frame (dropped _ (hset _)) rfl
    · exact dropped _ (hset _)
    all_goals exact option _ _ _ (hset _)

theorem debounceLine_keeps (l : LineId) {s : State} (h : P s) : P (debounceLine l s) := by
  unfold debounceLine
  simp only
  repeat' split
  · exact K.frame h rfl
  · exact K.frame h rfl
  · exact pedalEdge_keeps K l _ h
  · exact K.frame h rfl

theorem judgeStuck_keeps (l : LineId) {s : State} (h : P s) : P (judgeStuck l s) := by
  have hraised (k : FaultKind) (sc : Scope) (p : PedalLine) : P (raise k sc (s.setPedal l p)) :=
    K.raise k sc (K.frame h rfl)
  unfold judgeStuck
  simp only
  repeat' split
  · exact K.frame (hraised .pedalStuck _ _) rfl
  · exact K.frame (hraised .pedalStuck _ _) rfl
  · exact hraised _ _ _
  · exact K.frame h rfl

theorem pedalWork_keeps (limit : Nat) (l : LineId) {s : State} (h : P s) : P (pedalWork limit l s) := by
  have htimed (p : PedalLine) : P ((debounceLine l s).setPedal l p) := K.frame (debounceLine_keeps K l h) rfl
  unfold pedalWork
  simp only
  split
  · exact judgeStuck_keeps K l (htimed _)
  · exact htimed _

theorem reachDebounce_keeps (l : LineId) {s : State} (h : P s) : P (reachDebounce l s) := by
  unfold reachDebounce
  repeat' split
  · exact pedalEdge_keeps K l _ h
  · exact h
  · exact h

theorem reachStuck_keeps (l : LineId) {s : State} (h : P s) : P (reachStuck l s) := by
  unfold reachStuck
  split
  · exact judgeStuck_keeps K l (K.frame h rfl)
  · exact h

theorem adoptCount_keeps (c : Word32) {s : State} (h : P s) : P (adoptCount c s) := by
  unfold adoptCount
  simp only
  split
  · exact handOff_keeps K .b (handOff_keeps K .a (K.frame h rfl))
  · exact handOff_keeps K .b (handOff_keeps K .a (K.frame h rfl))

theorem markDue_keeps (k : Nat) {s : State} (h : P s) : P (markDue k s) := by
  unfold markDue
  repeat' split
  · exact handOff_keeps K _ (K.frame h rfl)
  · exact h
  · exact h

theorem enterTimed_keeps (e : TimedEntry) (late : Bool) {s : State} (h : P s) : P (enterTimed e late s).state := by
  have hin : P (handOff e.lead { s with timed := insertEntry s.ltu.count e s.timed }) :=
    handOff_keeps K _ (K.frame h rfl)
  unfold enterTimed
  split
  · exact K.raise _ _ h
  · cases late
    · exact hin
    · exact K.raise _ _ hin

end

/-- What a law needs beside the moves of the voices to be kept by every request. -/
structure KeptByRequests (P : State → Prop) : Prop extends KeptByVoices P where
  engineReset : ∀ {s}, P s → P (engineReset s)
  configured : ∀ {s c}, slotTaken s c.slotA = false → (∀ k, c.slotB = some k → slotTaken s k = false) →
    P s → P { s with config := c }
  staged : ∀ {bs c s} (i : Fin 32), sceneOfBytes bs = some c → P s → P { s with scenes := s.scenes.set i c }
  cleared : ∀ (ks : List FaultKind) {s}, P s → P (clearKinds ks s)
  setup : ∀ (ks : List FaultKind) (detect report : Bool) (sev : Severity) {s}, P s →
    P (setupKinds ks detect report sev s)

section
variable {P : State → Prop} (K : KeptByRequests P)
include K

theorem request_keeps {s t : State} (m : RequestMove s t) (h : P s) : P t := by
  cases m with
  | unchanged => exact h
  | configured body c valid freeA freeB => exact K.configured freeA freeB h
  | staged bs i c valid => exact K.frame (K.staged i valid h) rfl
  | pended L c => exact setPending_keeps K.toKeptByVoices _ c _ h
  | late L => exact K.raise _ _ h
  | entered e late valid => exact enterTimed_keeps K.toKeptByVoices e late h
  | fixedGateway g enabled n high =>
    have hset (x : Gateway) : P (s.setGateway g x) := K.frame h rfl
    unfold handOffAfterSet
    repeat' split
    · exact handOff_keeps K.toKeptByVoices _ (hset _)
    · exact handOff_keeps K.toKeptByVoices _ (hset _)
    · exact hset _
  | threshold L n => cases L <;> exact K.frame h rfl
  | cleared ks => exact K.cleared ks h
  | setup ks detect report sev => exact K.setup ks detect report sev h
  | engineReset => exact K.engineReset h
  | loading _ _ | tuned _ _ _ _ | mapped _ _ _ _ | flushed _ | pedalGateway _ _ _ _ _ | counters _ =>
    exact K.frame h rfl

end

/-- What a law of the voices needs besides: to be a law of `lawPart`, to hold at power-on, and to be kept by the
samples of a frame. -/
structure KeptByVoiceSteps (P : State → Prop) : Prop extends KeptByRequests P where
  free : ∀ {s t}, P s → lawPart t = lawPart s → P t
  reset : P State.reset
  samples : ∀ {xa xb s}, P s → P (appendSamples xa xb s)

section
variable {P : State → Prop} (K : KeptByVoiceSteps P)
include K

/-- Such a law holds after every step. -/
theorem keptByParts : KeptByParts P where
  frame := K.free
  reset := K.reset
  engineReset h := K.engineReset h
  adoptCount c _ h := adoptCount_keeps K.toKeptByVoices c h
  samples _ _ h := K.samples h
  raise k sc _ h := K.raise k sc h
  voiceWork v _ h := voiceWork_keeps K.toKeptByVoices v h
  pedalWork limit l _ h := pedalWork_keeps K.toKeptByVoices limit l h
  blockWork ls L _ h := blockWork_keeps (keptByBlockParts K.toKeptByVoices) ls L h
  execute kind r s h := request_keeps K.toKeptByRequests (executeKind_move kind r s) h
  endCrossfade v _ h := endCrossfade_keeps K.toKeptByVoices v h
  endRise v _ h := endRise_keeps K.toKeptByVoices v h
  finishFall v _ h := finishFall_keeps K.toKeptByVoices v h
  reachDebounce l _ h := reachDebounce_keeps K.toKeptByVoices l h
  reachStuck l _ h := reachStuck_keeps K.toKeptByVoices l h
  markDue k _ h := markDue_keeps K.toKeptByVoices k h
  handOff L _ h := handOff_keeps K.toKeptByVoices L h

end

/-! ### Occurrences -/

section
variable {P : State → Prop} (free : ∀ {s t}, P s → lawPart t = lawPart s → P t)
  (set : ∀ (k : FaultKind) (sc : Scope) {s}, (s.fault k).detectMask = false → P s → P (setKind k sc s))
include free set

/-- A law of `lawPart` that the clear-to-set transition of an unmasked kind keeps, an occurrence keeps, whatever
becomes of its notice. -/
theorem occur_keeps (k : FaultKind) (sc : Scope) (offer : Message → State → State)
    (hoffer : ∀ (m : Message) {u : State}, P u → P (offer m u)) {s : State} (h : P s) :
    P (occur k sc offer s) := by
  unfold occur
  split
  · exact h
  · rename_i unmasked
    have hcounted : P (countEvent .faultOccurrence s) := free h rfl
    split
    · exact hcounted
    · have hset := set k sc (s := countEvent .faultOccurrence s) (Bool.eq_false_iff.2 unmasked) hcounted
      simp only
      split
      · exact hset
      · exact hoffer _ hset

theorem offerNotice_keeps_of_set (m : Message) {s : State} (h : P s) : P (offerNotice m s) := by
  have silently (m : Message) {u : State} (hu : P u) : P (offerSilently m u) := by
    unfold offerSilently
    split
    · exact free hu rfl
    · exact hu
  unfold offerNotice
  split
  · exact free h rfl
  · exact occur_keeps free set _ _ _ silently h

theorem raise_keeps_of_set (k : FaultKind) (sc : Scope) {s : State} (h : P s) : P (raise k sc s) :=
  occur_keeps free set k sc _ (offerNotice_keeps_of_set free set) h

end

/-- What the Fault Unit's record and each mute keep, the clear-to-set transition keeps (R152). -/
theorem setKind_keeps {P : State → Prop} (k : FaultKind) (sc : Scope) {s : State} (hset : P (kindSet k s))
    (hmute : (s.fault k).severity = .mute → ∀ u v, u.faults = (kindSet k s).faults → P u → P (muteVoice k u v)) :
    P (setKind k sc s) := by
  cases sev : (s.fault k).severity with
  | notice =>
    rw [setKind_notice k sc s sev]
    exact hset
  | mute =>
    rw [setKind_mute k sc s sev]
    exact (foldl_keeps (P := fun u => u.faults = (kindSet k s).faults ∧ P u) (muteVoice k)
      (fun u v h => ⟨h.1, hmute sev u v h.1 h.2⟩) _ _ ⟨rfl, hset⟩).2

theorem kindSet_fault (k j : FaultKind) (s : State) :
    (kindSet k s).fault j = if j = k then { s.fault k with status := true } else s.fault j := by
  have e : (kindSet k s).fault j = (s.setFault k { s.fault k with status := true }).fault j := rfl
  rw [e]
  split
  · rename_i q
    rw [q, State.fault_setFault]
  · rename_i q
    rw [State.fault_setFault_ne _ _ _ _ (Ne.symm q)]

theorem fault_eq_of_faults {s t : State} (e : t.faults = s.faults) (k : FaultKind) : t.fault k = s.fault k := by
  unfold State.fault
  rw [e]

/-- The record of a kind after the records of some kinds are changed in a way that taken twice is taken once. -/
theorem mapKinds_fault (f : FaultKind → FaultRecord → FaultRecord) (idem : ∀ k x, f k (f k x) = f k x)
    (j : FaultKind) : ∀ (ks : List FaultKind) (s : State),
      (mapKinds ks f s).fault j = if j ∈ ks then f j (s.fault j) else s.fault j
  | [], s => by simp [mapKinds]
  | k :: ks, s => by
    show (mapKinds ks f (s.setFault k (f k (s.fault k)))).fault j = _
    rw [mapKinds_fault f idem j ks]
    by_cases e : k = j
    · subst e
      rw [State.fault_setFault, idem]
      simp
    · rw [State.fault_setFault_ne _ _ _ _ e]
      simp [Ne.symm e]

theorem mapKinds_rest (ks : List FaultKind) (f : FaultKind → FaultRecord → FaultRecord) (s : State) :
    mapKinds ks f s = { s with faults := (mapKinds ks f s).faults } :=
  foldl_keeps (P := fun t => t = { s with faults := t.faults }) _
    (fun u k h => by
      show _ = _
      rw [h]
      rfl) ks s rfl

/-- A voice after kinds are cleared (R157). -/
theorem clearKinds_voice (ks : List FaultKind) (s : State) (v : VoiceId) :
    (clearKinds ks s).voice v = (s.voice v).unmutedBy ks := by
  have e : (mapKinds ks (fun _ r => { r with status := false }) s).voices = s.voices := by
    rw [mapKinds_rest]
  show ((mapKinds ks _ s).voices.map _)[v] = _
  rw [e]
  simp [State.voice]

theorem clearKinds_fault (ks : List FaultKind) (s : State) (j : FaultKind) :
    (clearKinds ks s).fault j = if j ∈ ks then { s.fault j with status := false } else s.fault j :=
  mapKinds_fault (fun _ r => { r with status := false }) (fun _ _ => rfl) j ks s

theorem setupRecord_idem (detect report : Bool) (sev : Severity) (k : FaultKind) (x : FaultRecord) :
    setupRecord detect report sev k (setupRecord detect report sev k x) = setupRecord detect report sev k x := rfl

/-- The record of a kind after FAULT_SETUP (R158). -/
theorem setupKinds_fault (ks : List FaultKind) (detect report : Bool) (sev : Severity) (s : State)
    (j : FaultKind) : (setupKinds ks detect report sev s).fault j =
      if j ∈ ks then
        { setupRecord detect report sev j (s.fault j) with
          status := if detect then false else (s.fault j).status }
      else s.fault j := by
  have hmapped := mapKinds_fault (setupRecord detect report sev) (setupRecord_idem detect report sev) j ks s
  unfold setupKinds
  cases detect
  · simp only [Bool.false_eq_true, if_false]
    rw [hmapped]
    rfl
  · simp only [if_true]
    rw [clearKinds_fault, hmapped]
    split <;> rfl

/-- A voice after FAULT_SETUP: unmuted of the kinds named where they are detect-masked (R158). -/
theorem setupKinds_voice (ks : List FaultKind) (detect report : Bool) (sev : Severity) (s : State) (v : VoiceId) :
    (setupKinds ks detect report sev s).voice v =
      if detect then (s.voice v).unmutedBy ks else s.voice v := by
  have e : (mapKinds ks (setupRecord detect report sev) s).voice v = s.voice v := by rw [mapKinds_rest]; rfl
  unfold setupKinds
  simp only
  split
  · rw [clearKinds_voice, e]
  · exact e

/-! ### Claimed slots -/

theorem mem_allVoices (v : VoiceId) : v ∈ allVoices := by
  revert v
  decide

theorem slotTaken_false {s : State} {k : Fin 24} (h : slotTaken s k = false) (v : VoiceId)
    (on : (s.voice v).state ≠ .off) {p : Assignment} (hp : (s.voice v).part = some p) : p.slot ≠ k := by
  rintro rfl
  have hclaims : (s.voice v).claims = some p.slot := by
    unfold Voice.claims
    split
    · rename_i off
      exact absurd off on
    all_goals rw [hp]; rfl
  have hmem : some p.slot ∈ claims s := List.mem_map.2 ⟨v, mem_allVoices v, hclaims⟩
  exact absurd (show slotTaken s p.slot = true by simpa [slotTaken, claimed] using hmem) (by simp [h])

theorem leadSlotsFree_congr {s t : State} (hv : t.voices = s.voices) (hc : t.config = s.config)
    (h : LeadSlotsFree s) : LeadSlotsFree t := by
  unfold LeadSlotsFree State.voice State.isLeadSlot at *
  rwa [hv, hc]

/-- The law looks at each voice that is not OFF, at its assignment alone. -/
theorem leadSlotsFree_of_voices {s t : State} (hc : t.config = s.config)
    (hv : ∀ v, (t.voice v).state ≠ .off → (s.voice v).state ≠ .off ∧ (t.voice v).part = (s.voice v).part)
    (h : LeadSlotsFree s) : LeadSlotsFree t := fun v on p e => by
  unfold State.isLeadSlot
  rw [hc]
  exact h v (hv v on).1 p ((hv v on).2 ▸ e)

theorem Voice.mutedBy_part (x : Voice) (k : FaultKind) (inc : Nat) : (x.mutedBy k inc).part = x.part := by
  obtain ⟨_, hpart, _⟩ := x.mutedBy_keeps k inc
  exact hpart

theorem Voice.unmutedBy_keeps (x : Voice) (ks : List FaultKind) :
    (x.unmutedBy ks).owner = x.owner ∧ (x.unmutedBy ks).part = x.part
      ∧ (x.unmutedBy ks).currentStep = x.currentStep ∧ (x.unmutedBy ks).distance = x.distance
      ∧ (x.unmutedBy ks).crossfade = x.crossfade := by
  unfold Voice.unmutedBy
  simp only
  repeat' split
  all_goals exact ⟨rfl, rfl, rfl, rfl, rfl⟩

/-- The law at a voice given a record that keeps it. -/
theorem setVoice_all {Q : Voice → Prop} {s : State} (v : VoiceId) {y : Voice} (hy : Q y)
    (h : ∀ w, Q (s.voice w)) (w : VoiceId) : Q ((s.setVoice v y).voice w) := by
  by_cases e : v = w
  · subst e
    rw [State.voice_setVoice]
    exact hy
  · rw [State.voice_setVoice_ne _ _ _ _ e]
    exact h w

theorem leadSlotsFree_set (k : FaultKind) (sc : Scope) {s : State} (h : LeadSlotsFree s) :
    LeadSlotsFree (setKind k sc s) :=
  setKind_keeps k sc (leadSlotsFree_congr rfl rfl h) fun _ u v _ hu =>
    setVoice_all (Q := fun x => x.state ≠ .off → ∀ p, x.part = some p → u.isLeadSlot p.slot = false) v
      (fun on p e => hu v (fun off => on (((u.voice v).mutedBy_state k _).1.2 off)) p
        (Voice.mutedBy_part (u.voice v) k _ ▸ e)) hu

theorem reset_voice (v : VoiceId) : State.reset.voice v = Voice.reset := by
  revert v
  decide

theorem reset_fault (k : FaultKind) : State.reset.fault k = FaultRecord.reset := by
  cases k <;> rfl

theorem engineReset_voice (s : State) (v : VoiceId) : (engineReset s).voice v = Voice.reset :=
  reset_voice v

theorem leadSlotsFree_free {s t : State} (h : LeadSlotsFree s) (e : lawPart t = lawPart s) : LeadSlotsFree t :=
  leadSlotsFree_congr (congrArg State.voices e :) (congrArg State.config e :) h

theorem leadSlotsFree_voiceSteps : KeptByVoiceSteps LeadSlotsFree where
  frame h e := leadSlotsFree_congr (congrArg State.voices e :) (congrArg State.config e :) h
  raise := raise_keeps_of_set leadSlotsFree_free fun k sc {_} _ => leadSlotsFree_set k sc
  offer := offerNotice_keeps_of_set leadSlotsFree_free fun k sc {_} _ => leadSlotsFree_set k sc
  record L _ _ _ h := by cases L <;> exact h
  move {s} v {y} m h := setVoice_all
    (Q := fun x => x.state ≠ .off → ∀ p, x.part = some p → s.isLeadSlot p.slot = false) v (m.slot h) h
  free := leadSlotsFree_free
  reset v on := absurd (congrArg Voice.state (reset_voice v)) on
  engineReset {s} _ v on := absurd (congrArg Voice.state (engineReset_voice s v)) on
  samples h := h
  configured {s c} freeA freeB h v on p e := by
    have hA : p.slot ≠ c.slotA := slotTaken_false freeA v on e
    have hB : c.slotB ≠ some p.slot := fun b => slotTaken_false (freeB _ b) v on e rfl
    show (p.slot == c.slotA || c.slotB == some p.slot) = false
    simp [hA, hB]
  staged _ _ h := h
  cleared ks s h := leadSlotsFree_of_voices (clearKinds_onlyFaults ks s).config
    (fun v on => by
      rw [clearKinds_voice] at on ⊢
      exact ⟨fun off => on (((s.voice v).unmutedBy_state ks).1.2 off),
        (Voice.unmutedBy_keeps (s.voice v) ks).2.1⟩) h
  setup ks detect report sev s h := leadSlotsFree_of_voices (setupKinds_onlyFaults ks detect report sev s).config
    (fun v on => by
      rw [setupKinds_voice] at on ⊢
      cases detect
      · exact ⟨on, rfl⟩
      · exact ⟨fun off => on (((s.voice v).unmutedBy_state ks).1.2 off),
          (Voice.unmutedBy_keeps (s.voice v) ks).2.1⟩) h

/-- Settles O56: an assignment is taken only on a slot that is no lead input slot, and a CONFIGURE is refused where
it names a claimed one. -/
theorem stepKeepsLeadSlotsFree : Obligations.StepKeepsLeadSlotsFree := by
  refine ⟨fun s k => ?_, fun _ _ h e => step_keeps (keptByParts leadSlotsFree_voiceSteps) h e⟩
  unfold State.isLeadSlot
  rw [Bool.or_eq_true, beq_iff_eq, beq_iff_eq]

/-! ### Heads -/

theorem headsInBounds_congr {s t : State} (hl : ∀ L, (t.lead L).splicePeriod = (s.lead L).splicePeriod)
    (hv : t.voices = s.voices) (h : HeadsInBounds s) : HeadsInBounds t := by
  unfold HeadsInBounds State.voice at *
  simpa only [hl, hv] using h

/-- The law with other voices in bounds. -/
theorem headsInBounds_of_voices {s t : State} (hl : ∀ L, t.lead L = s.lead L)
    (hv : ∀ v, HeadsOk (s.voice v) → HeadsOk (t.voice v)) (h : HeadsInBounds s) : HeadsInBounds t :=
  ⟨fun L => by rw [hl L]; exact h.1 L, fun v => hv v (h.2 v)⟩

theorem headsOk_mutedBy {x : Voice} (k : FaultKind) (inc : Nat) (h : HeadsOk x) : HeadsOk (x.mutedBy k inc) := by
  unfold Voice.mutedBy
  split
  · exact h
  · exact h.stopped rfl rfl
  · split
    · exact h.stopped rfl rfl
    · rename_i e _
      exact h.congr rfl rfl rfl fun _ => by simp [Voice.runs, e]
  · split
    · exact h.stopped rfl rfl
    · rename_i e _
      exact h.congr rfl rfl rfl fun _ => by simp [Voice.runs, e]
  · exact h.congr rfl rfl rfl id
  · exact h.congr rfl rfl rfl id

theorem headsOk_unmutedBy {x : Voice} (ks : List FaultKind) (h : HeadsOk x) : HeadsOk (x.unmutedBy ks) := by
  obtain ⟨_, _, hstep, hdistance, hfade⟩ := Voice.unmutedBy_keeps x ks
  exact h.congr hstep hdistance hfade fun r => (x.unmutedBy_state ks).2.symm.trans r

theorem headsOk_reset : HeadsOk Voice.reset :=
  ⟨(by decide : 4096 ≤ 16384), (by decide : 16384 ≤ 65536), nofun⟩

theorem headsInBounds_set (k : FaultKind) (sc : Scope) {s : State} (h : HeadsInBounds s) :
    HeadsInBounds (setKind k sc s) := by
  refine setKind_keeps k sc (headsInBounds_congr (fun _ => rfl) rfl h) fun _ u v _ hu => ?_
  exact ⟨fun L => by rw [(muteVoice_onlyFaults k u v).lead L]; exact hu.1 L,
    setVoice_all v (headsOk_mutedBy k _ (hu.2 v)) hu.2⟩

theorem headsInBounds_free {s t : State} (h : HeadsInBounds s) (e : lawPart t = lawPart s) : HeadsInBounds t :=
  headsInBounds_congr (fun L => (congrArg (fun u => (u.lead L).splicePeriod) e :)) (congrArg State.voices e :) h

theorem headsInBounds_reset {s : State} (hl : ∀ L, s.lead L = LeadChannel.reset)
    (hv : ∀ v, s.voice v = Voice.reset) : HeadsInBounds s :=
  ⟨fun L => by rw [hl L]; exact (by decide : 40 ≤ 256 ∧ 256 ≤ 640), fun v => by rw [hv v]; exact headsOk_reset⟩

theorem headsInBounds_voiceSteps : KeptByVoiceSteps HeadsInBounds where
  frame h e := headsInBounds_congr (fun L => (congrArg (fun u => (u.lead L).splicePeriod) e :))
    (congrArg State.voices e :) h
  raise := raise_keeps_of_set headsInBounds_free fun k sc {_} _ => headsInBounds_set k sc
  offer := offerNotice_keeps_of_set headsInBounds_free fun k sc {_} _ => headsInBounds_set k sc
  record L s d hd h := by
    refine ⟨fun M => ?_, fun v => by rw [State.voice_setLead]; exact h.2 v⟩
    rw [CueLaws.lead_setLead]
    split
    · rcases hd.period with same | range
      · rw [same]
        exact h.1 L
      · exact range
    · exact h.1 M
  move v y m h := ⟨fun L => by rw [State.lead_setVoice]; exact h.1 L, setVoice_all v (m.heads h) h.2⟩
  free := headsInBounds_free
  reset := headsInBounds_reset (fun L => by cases L <;> rfl) reset_voice
  engineReset _ := headsInBounds_reset (fun L => by cases L <;> rfl) (engineReset_voice _)
  samples {_ _ s} h := headsInBounds_congr (s := s) (fun L => by cases L <;> rfl) rfl h
  configured _ _ h := headsInBounds_congr (fun _ => rfl) rfl h
  staged _ _ h := headsInBounds_congr (fun _ => rfl) rfl h
  cleared ks s h := headsInBounds_of_voices (clearKinds_onlyFaults ks s).lead
    (fun v k => by rw [clearKinds_voice]; exact headsOk_unmutedBy ks k) h
  setup ks detect report sev s h := headsInBounds_of_voices (setupKinds_onlyFaults ks detect report sev s).lead
    (fun v k => by
      rw [setupKinds_voice]
      split
      · exact headsOk_unmutedBy ks k
      · exact k) h

/-- Settles O50: a head outside the band is spliced back in the frame that takes it out, and every 32 frames of a
crossfade move a head by less than the bounds leave. -/
theorem stepKeepsHeadsInBounds : Obligations.StepKeepsHeadsInBounds :=
  fun _ _ h e => step_keeps (keptByParts headsInBounds_voiceSteps) h e

/-! ### Voice records -/

theorem voiceLaw_congr {s t : State} (hv : t.voices = s.voices) (hs : t.scenes = s.scenes)
    (hf : ∀ k, (t.fault k).severity = (s.fault k).severity) (h : VoiceLaw s) : VoiceLaw t := by
  unfold VoiceLaw State.voice at *
  simpa only [hv, hs, hf] using h

/-- A voice muted by a kind that may mute keeps its law (R99). -/
theorem voiceOk_mutedBy {x : Voice} {k : FaultKind} {inc : Nat} (hk : scopeNone k = false)
    (hinc : inc ∈ [1, 2, 4, 8, 16]) (h : VoiceOk x) : VoiceOk (x.mutedBy k inc) := by
  have nonempty : addFault k x.faults ≠ [] := fun e => by
    have := (mem_addFault k k x.faults).2 (.inr rfl)
    rw [e] at this
    cases this
  have nodup := addFault_nodup k x.faults h.faults_nodup
  have scope : ∀ j ∈ addFault k x.faults, scopeNone j = false := fun j m => by
    rcases (mem_addFault k j x.faults).1 m with m | rfl
    · exact h.faults_scope j m
    · exact hk
  have howner := h.owner_iff
  have hpart := h.part_iff
  have hpending := h.pending_falls
  have hmark := h.mark_falls
  have hzero := h.envelope_zero
  have hfade := h.crossfade_runs
  have hle := h.envelope_le
  have hold := h.increment_mem
  have hmarkPending := h.mark_or_pending
  unfold Voice.mutedBy
  split <;> rename_i state
  · exact h
  · constructor <;> simp_all [Voice.runs]
  · split <;> constructor <;> simp_all [Voice.runs]
  · split <;> constructor <;> simp_all [Voice.runs]
  · constructor <;> simp_all [Voice.runs]
  · constructor <;> simp_all [Voice.runs]

/-- A voice unmuted keeps its law (R100). -/
theorem voiceOk_unmutedBy {x : Voice} (ks : List FaultKind) (h : VoiceOk x) : VoiceOk (x.unmutedBy ks) := by
  have nodup := List.Nodup.filter (fun k => !ks.contains k) h.faults_nodup
  have scope : ∀ j ∈ x.faults.filter fun k => !ks.contains k, scopeNone j = false :=
    fun j m => h.faults_scope j (List.mem_of_mem_filter m)
  have empty : x.faults = [] → (x.faults.filter fun k => !ks.contains k) = [] := fun e => by rw [e]; rfl
  have howner := h.owner_iff
  have hpart := h.part_iff
  have hpending := h.pending_falls
  have hmark := h.mark_falls
  have hzero := h.envelope_zero
  have hfade := h.crossfade_runs
  have hle := h.envelope_le
  have hinc := h.increment_mem
  have hmarkPending := h.mark_or_pending
  unfold Voice.unmutedBy
  simp only
  generalize (x.faults.filter fun k => !ks.contains k) = rest at nodup scope empty ⊢
  split
  · exact h
  · rename_i changed
    have held : x.faults ≠ [] := fun e => changed ((empty e).trans e.symm)
    have muted := h.faults_mute held
    split
    · rename_i nonempty
      exact { h with
        falls_muted := fun _ _ => nonempty
        faults_mute := fun _ => muted
        muted_faults := fun _ => nonempty
        faults_nodup := nodup
        faults_scope := scope }
    · split <;> rename_i state
      · constructor <;> simp_all [Voice.runs]
      · have dest : x.dest = .muted := by simpa [state] using muted
        rw [dest]
        simp only
        by_cases mark : x.releaseMark = true
        · constructor <;> simp_all [Voice.runs]
        · cases pending : x.pendingPart <;> constructor <;> simp_all [Voice.runs]
      all_goals simp [state] at muted

theorem voiceOk_reset : VoiceOk Voice.reset := by
  constructor <;> simp [Voice.reset, Voice.runs]

theorem voiceLaw_of_voices {s t : State} (hs : t.scenes = s.scenes)
    (hf : ∀ k, scopeNone k = true → (s.fault k).severity = .notice → (t.fault k).severity = .notice)
    (hv : ∀ v, VoiceOk (s.voice v) → VoiceOk (t.voice v)) (h : VoiceLaw s) : VoiceLaw t :=
  ⟨fun v => hv v (h.1 v), fun n => by rw [hs]; exact h.2.1 n, fun k e => hf k e (h.2.2 k e)⟩

theorem voiceLaw_set (k : FaultKind) (sc : Scope) {s : State} (h : VoiceLaw s) : VoiceLaw (setKind k sc s) := by
  have hrecord : VoiceLaw (kindSet k s) := voiceLaw_congr (s := s) rfl rfl (fun j => by
    rw [kindSet_fault]
    split
    · rename_i e
      rw [e]
    · rfl) h
  refine setKind_keeps k sc hrecord fun sev u v _ hu => ?_
  have hscope : scopeNone k = false := by
    by_contra e
    have := h.2.2 k (by simpa using e)
    rw [sev] at this
    cases this
  exact ⟨setVoice_all v (voiceOk_mutedBy hscope (rampIncrement_mem hu _) (hu.1 v)) hu.1, hu.2⟩

theorem voiceLaw_free {s t : State} (h : VoiceLaw s) (e : lawPart t = lawPart s) : VoiceLaw t :=
  voiceLaw_congr (congrArg State.voices e :) (congrArg State.scenes e :)
    (fun k => (congrArg (fun u => (u.fault k).severity) e :)) h

theorem voiceLaw_voiceSteps : KeptByVoiceSteps VoiceLaw where
  frame h e := voiceLaw_congr (congrArg State.voices e :) (congrArg State.scenes e :)
    (fun k => (congrArg (fun u => (u.fault k).severity) e :)) h
  raise := raise_keeps_of_set voiceLaw_free fun k sc {_} _ => voiceLaw_set k sc
  offer := offerNotice_keeps_of_set voiceLaw_free fun k sc {_} _ => voiceLaw_set k sc
  record L _ _ _ h := by cases L <;> exact voiceLaw_congr rfl rfl (fun _ => rfl) h
  move v y m h := ⟨setVoice_all v (m.ok h) h.1, h.2⟩
  free := voiceLaw_free
  reset := ⟨fun v => by rw [reset_voice]; exact voiceOk_reset, by decide, fun k _ => by rw [reset_fault]; rfl⟩
  engineReset {s} h := voiceLaw_of_voices (s := s) rfl (fun _ _ e => e)
    (fun v _ => by rw [engineReset_voice]; exact voiceOk_reset) h
  samples h := h
  configured _ _ h := voiceLaw_congr rfl rfl (fun _ => rfl) h
  staged i valid h := by
    obtain ⟨_, _, _, _, _, _, _, _, fade, _⟩ := sceneOfBytes_ok valid
    exact ⟨h.1, set_keeps (Q := fun c : Scene => c.fade ∈ [256, 512, 1024, 2048, 4096]) h.2.1 i fade, h.2.2⟩
  cleared ks s h := voiceLaw_of_voices (clearKinds_onlyFaults ks s).scenes
    (fun k _ e => by
      rw [clearKinds_fault]
      split <;> exact e)
    (fun v k => by rw [clearKinds_voice]; exact voiceOk_unmutedBy ks k) h
  setup ks detect report sev s h := voiceLaw_of_voices (setupKinds_onlyFaults ks detect report sev s).scenes
    (fun k none e => by
      rw [setupKinds_fault]
      split
      · simp [setupRecord, none]
      · exact e)
    (fun v k => by
      rw [setupKinds_voice]
      split
      · exact voiceOk_unmutedBy ks k
      · exact k) h

/-- Settles O55: each voice operation is a move that keeps the law, and only a kind that may mute mutes. -/
theorem stepKeepsVoiceLaw : Obligations.StepKeepsVoiceLaw :=
  fun _ _ h e => step_keeps (keptByParts voiceLaw_voiceSteps) h e

/-! ### The Fault Unit -/

theorem faultLaw_congr {s t : State} (hp : t.pointer = s.pointer) (hf : t.faults = s.faults)
    (hv : t.voices = s.voices) (h : FaultLaw s) : FaultLaw t := by
  unfold FaultLaw State.voice State.fault at *
  rwa [hp, hf, hv]

theorem faultLaw_free {s t : State} (h : FaultLaw s) (e : lawPart t = lawPart s) : FaultLaw t :=
  faultLaw_congr (congrArg State.pointer e :) (congrArg State.faults e :) (congrArg State.voices e :) h

/-- An unmasked kind set: a pointer already valid stays, else it names this kind (R152, R153). -/
theorem faultLaw_kindSet (k : FaultKind) {s : State} (unmasked : (s.fault k).detectMask = false)
    (h : FaultLaw s) : FaultLaw (kindSet k s) := by
  obtain ⟨hpointer, hmasked, hscope, hvoices⟩ := h
  have status (j : FaultKind) (e : (s.fault j).status = true) : ((kindSet k s).fault j).status = true := by
    rw [kindSet_fault]
    split
    · rfl
    · exact e
  have masks (j : FaultKind) : ((kindSet k s).fault j).detectMask = (s.fault j).detectMask
      ∧ ((kindSet k s).fault j).severity = (s.fault j).severity := by
    rw [kindSet_fault]
    split
    · rename_i e
      rw [e]
      exact ⟨rfl, rfl⟩
    · exact ⟨rfl, rfl⟩
  have own : ((kindSet k s).fault k).status = true := by rw [kindSet_fault, if_pos rfl]
  refine ⟨fun j e => ?_, fun j e => ?_, fun j e => ?_, fun v j m => status j (hvoices v j m)⟩
  · have e : (match s.pointer with | some p => some p | none => some k) = some j := e
    rw [(masks j).1]
    cases hp : s.pointer with
    | some p =>
      rw [hp] at e
      cases e
      exact ⟨status _ (hpointer _ hp).1, (hpointer _ hp).2⟩
    | none =>
      rw [hp] at e
      cases e
      exact ⟨own, unmasked⟩
  · have jk : j ≠ k := fun q => by
      rw [(masks j).1, q, unmasked] at e
      cases e
    rw [(masks j).1] at e
    rw [kindSet_fault, if_neg jk]
    exact hmasked j e
  · rw [(masks j).2]
    exact hscope j e

theorem faultLaw_muteVoice (k : FaultKind) (v : VoiceId) {u : State} (set : (u.fault k).status = true)
    (h : FaultLaw u) : FaultLaw (muteVoice k u v) := by
  obtain ⟨hpointer, hmasked, hscope, hvoices⟩ := h
  refine ⟨hpointer, hmasked, hscope,
    setVoice_all (Q := fun x => ∀ j ∈ x.faults, (u.fault j).status = true) v (fun j m => ?_) hvoices⟩
  rw [Voice.mutedBy_faults] at m
  split at m
  · exact hvoices v j m
  · rcases (mem_addFault k j _).1 m with m | rfl
    · exact hvoices v j m
    · exact set

theorem faultLaw_set (k : FaultKind) (sc : Scope) {s : State} (unmasked : (s.fault k).detectMask = false)
    (h : FaultLaw s) : FaultLaw (setKind k sc s) :=
  setKind_keeps k sc (faultLaw_kindSet k unmasked h) fun _ u v e hu => faultLaw_muteVoice k v (by
    rw [fault_eq_of_faults e, kindSet_fault, if_pos rfl]) hu

theorem pointerWithout_eq_some {p : Option FaultKind} {ks : List FaultKind} {k : FaultKind}
    (h : pointerWithout p ks = some k) : p = some k ∧ k ∉ ks := by
  unfold pointerWithout at h
  split at h
  · split at h
    · cases h
    · cases h
      exact ⟨rfl, by assumption⟩
  · cases h

theorem unmuted_mem {x : Voice} {ks : List FaultKind} {j : FaultKind} (m : j ∈ (x.unmutedBy ks).faults) :
    j ∈ x.faults ∧ j ∉ ks := by
  rw [Voice.unmutedBy_faults] at m
  simpa using m

theorem faultLaw_clearKinds (ks : List FaultKind) {s : State}
    (hpointer : ∀ k, s.pointer = some k → k ∉ ks → (s.fault k).status = true ∧ (s.fault k).detectMask = false)
    (hmasked : ∀ k, k ∉ ks → (s.fault k).detectMask = true → (s.fault k).status = false)
    (hscope : ∀ k, scopeNone k = true → (s.fault k).severity = .notice)
    (hvoices : ∀ v, ∀ k ∈ (s.voice v).faults, (s.fault k).status = true) : FaultLaw (clearKinds ks s) := by
  refine ⟨fun k e => ?_, fun k e => ?_, fun k e => ?_, fun v k m => ?_⟩
  · obtain ⟨hp, out⟩ := pointerWithout_eq_some e
    rw [clearKinds_fault, if_neg out]
    exact hpointer k hp out
  · rw [clearKinds_fault] at e ⊢
    split at e
    · rw [if_pos (by assumption)]
    · rename_i out
      rw [if_neg out]
      exact hmasked k out e
  · rw [clearKinds_fault]
    split <;> exact hscope k e
  · rw [clearKinds_voice] at m
    obtain ⟨m, out⟩ := unmuted_mem m
    rw [clearKinds_fault, if_neg out]
    exact hvoices v k m

theorem faultLaw_setupKinds (ks : List FaultKind) (detect report : Bool) (sev : Severity) {s : State}
    (h : FaultLaw s) : FaultLaw (setupKinds ks detect report sev s) := by
  obtain ⟨hpointer, hmasked, hscope, hvoices⟩ := h
  have hmapped (j : FaultKind) := mapKinds_fault (setupRecord detect report sev)
    (setupRecord_idem detect report sev) j ks s
  have hrest := mapKinds_rest ks (setupRecord detect report sev) s
  have status (j : FaultKind) : ((mapKinds ks (setupRecord detect report sev) s).fault j).status
      = (s.fault j).status := by
    rw [hmapped]
    split <;> rfl
  have pointer : (mapKinds ks (setupRecord detect report sev) s).pointer = s.pointer := by rw [hrest]
  have voice (v : VoiceId) : (mapKinds ks (setupRecord detect report sev) s).voice v = s.voice v := by
    rw [hrest]
    rfl
  have scope (k : FaultKind) (e : scopeNone k = true) :
      ((mapKinds ks (setupRecord detect report sev) s).fault k).severity = .notice := by
    rw [hmapped]
    split
    · simp [setupRecord, e]
    · exact hscope k e
  have voices (v : VoiceId) (k : FaultKind)
      (m : k ∈ ((mapKinds ks (setupRecord detect report sev) s).voice v).faults) :
      ((mapKinds ks (setupRecord detect report sev) s).fault k).status = true := by
    rw [voice] at m
    rw [status]
    exact hvoices v k m
  unfold setupKinds
  cases detect <;> simp only [Bool.false_eq_true, if_false, if_true]
  case true =>
    refine faultLaw_clearKinds ks (fun k e out => ?_) (fun k out => ?_) scope voices
    · rw [hmapped, if_neg out]
      exact hpointer k (pointer ▸ e)
    · rw [hmapped, if_neg out]
      exact hmasked k
  case false =>
    refine ⟨fun k e => ?_, fun k e => ?_, scope, voices⟩
    · obtain ⟨set, mask⟩ := hpointer k (pointer ▸ e)
      refine ⟨(status k).trans set, ?_⟩
      rw [hmapped]
      split
      · rfl
      · exact mask
    · rw [status]
      rw [hmapped] at e
      split at e
      · cases e
      · exact hmasked k e

theorem faultLaw_voiceSteps : KeptByVoiceSteps FaultLaw where
  frame h e := faultLaw_congr (congrArg State.pointer e :) (congrArg State.faults e :) (congrArg State.voices e :) h
  raise := raise_keeps_of_set faultLaw_free fun k sc {_} => faultLaw_set k sc
  offer := offerNotice_keeps_of_set faultLaw_free fun k sc {_} => faultLaw_set k sc
  record L _ _ _ h := by cases L <;> exact faultLaw_congr rfl rfl rfl h
  move {s} v y m h := ⟨h.1, h.2.1, h.2.2.1, setVoice_all (Q := fun x => ∀ j ∈ x.faults, (s.fault j).status = true)
    v (fun j q => h.2.2.2 v j (m.faults j q)) h.2.2.2⟩
  free := faultLaw_free
  reset := ⟨nofun, fun k _ => by rw [reset_fault]; rfl, fun k _ => by rw [reset_fault]; rfl,
    fun v => by rw [reset_voice]; exact nofun⟩
  engineReset {s} h := ⟨h.1, h.2.1, h.2.2.1, fun v => by rw [engineReset_voice]; exact nofun⟩
  samples h := h
  configured _ _ h := h
  staged _ _ h := h
  cleared ks s h := faultLaw_clearKinds ks (fun k e _ => h.1 k e) (fun k _ => h.2.1 k) h.2.2.1 h.2.2.2
  setup ks detect report sev _ h := faultLaw_setupKinds ks detect report sev h

/-- Settles O54: a status is set only unmasked and cleared only with the pointer and the voices' sets, and a kind of
scope NONE is always stored with severity NOTICE. -/
theorem stepKeepsFaultLaw : Obligations.StepKeepsFaultLaw :=
  fun _ _ h e => step_keeps (keptByParts faultLaw_voiceSteps) h e

end Sys2Proof.Proofs.VoiceLaws
end

