-- ==== Sys2Proof/Proofs/Queues.lean ====
section
/-! PROOF. The outbound queue, the relay FIFO and the assembly buffer (R168, R174, R175): the engine adds notices
alone, each where there is room; the lane and the requests do the rest. -/

namespace Sys2Proof.Proofs.Queues

open Sys2Proof Sys2Proof.Machine Sys2Proof.Safety Sys2Proof.Proofs.StepParts Sys2Proof.Proofs.RequestMoves
  Sys2Proof.Proofs.BlockParts Sys2Proof.Proofs.RecordRanges Sys2Proof.Proofs.VoiceMoves
  Sys2Proof.Proofs.VoiceLaws

/-! ### The parts of a frame -/

/-- The state of a good frame once its Link Timing Unit has taken it. -/
def goodLinked (bytes : List Byte) (s : State) : State :=
  (ltuGood (frameCount bytes) { state := s, late := [] }).state

/-- The lane of a good frame at the assembly buffer. -/
def goodAssembled (bytes : List Byte) (s : State) : LaneResult :=
  assemble (decodeLane (laneBytes bytes)) (goodLinked bytes s)

/-- A good frame before its audio. -/
def goodPass (bytes : List Byte) (s : State) : Pass where
  state := (goodAssembled bytes s).state
  late := (ltuGood (frameCount bytes) { state := s, late := [] }).late
    ++ occurrences (goodAssembled bytes s).raised ++ raisingLines s.config.stuckLimit (goodLinked bytes s)

/-- The lane of a good frame. -/
def goodLane (bytes : List Byte) (s : State) : Pass → Pass × List Task :=
  sendAndAccept (laneBytes bytes) (decide ((goodLinked bytes s).sender = .cut)) (goodAssembled bytes s).request

/-- Audio and lane of a good frame, with the request it is to execute. -/
def goodMix (bytes : List Byte) (s : State) : Mix × List Task :=
  audioAndLane (goodLinked bytes s).ltu.link (leadSamples s bytes) (goodLane bytes s)
    (reserves (goodAssembled bytes s).request) (goodPass bytes s)

/-- The frame that leaves for a good frame. -/
def goodOut (bytes : List Byte) (s : State) : List Byte :=
  outFrame true (outBody (goodLinked bytes s).ltu.link bytes (goodMix bytes s).1.claims (goodMix bytes s).1.samples
    (goodMix bytes s).1.pass.state.laneOut)

/-- A good frame once it has left, with what is left of it. -/
def goodSent (bytes : List Byte) (s : State) : Pass where
  state := { (goodMix bytes s).1.pass.state with linkOut := some (goodOut bytes s) }
  late := (goodMix bytes s).1.pass.late ++ (goodMix bytes s).2 ++ blockTasks (goodMix bytes s).1.pass.state

theorem goodFrame_eq (bytes : List Byte) (s : State) :
    goodFrame bytes s = finishFrame (goodLinked bytes s).ltu.link s.config.stuckLimit
      (quietLines s.config.stuckLimit (goodLinked bytes s)) (goodSent bytes s) := rfl

/-- The state of a bad frame once its Link Timing Unit has taken it. -/
def badLinked (s : State) : State := (ltuBad { state := s, late := [] }).state

/-- A bad frame before its audio. -/
def badPass (s : State) : Pass where
  state := (gapFrame (badLinked s)).1
  late := (ltuBad { state := s, late := [] }).late
    ++ occurrences (if (gapFrame (badLinked s)).2 then [.ctrlRunon] else [])
    ++ raisingLines s.config.stuckLimit (badLinked s)

/-- The audio of a bad frame. -/
def badMix (s : State) : Mix :=
  audioFrame s.ltu.link (heldSamples s).1 (heldSamples s).2 (badPass s)

/-- The frame that leaves for a bad frame. -/
def badOut (bytes : List Byte) (s : State) : List Byte :=
  outFrame false (outBody s.ltu.link bytes (badMix s).claims (badMix s).samples idleLane)

/-- A bad frame once it has left, with what is left of it. -/
def badSent (bytes : List Byte) (s : State) : Pass where
  state := { (badMix s).pass.state with linkOut := some (badOut bytes s) }
  late := (badMix s).pass.late ++ blockTasks (badMix s).pass.state

/-- A bad frame whole, before the loss that an eighth in a row brings. -/
def badDone (bytes : List Byte) (s : State) : State :=
  finishFrame s.ltu.link s.config.stuckLimit (quietLines s.config.stuckLimit (badLinked s)) (badSent bytes s)

theorem badFrame_eq (bytes : List Byte) (s : State) :
    badFrame bytes s =
      if Config.lossRun ≤ (badLinked s).ltu.badRun then declareLoss (badDone bytes s) else badDone bytes s := rfl

/-- A phantom frame before its audio: its event is counted, and the lines that raise are to be taken. -/
def phantomPass (s : State) : Pass where
  state := countEvent .phantom s
  late := raisingLines s.config.stuckLimit (countEvent .phantom s)

/-- The audio of a phantom frame. -/
def phantomMix (s : State) : Mix := audioFrame s.ltu.link 0 0 (phantomPass s)

/-- A phantom frame behind its audio, with what is left of it. -/
def phantomSent (s : State) : Pass where
  state := { (phantomMix s).pass.state with linkOut := none }
  late := (phantomMix s).pass.late ++ blockTasks (phantomMix s).pass.state

theorem phantomWork_eq (s : State) :
    phantomWork s = finishFrame s.ltu.link s.config.stuckLimit
      (quietLines s.config.stuckLimit (countEvent .phantom s)) (phantomSent s) := rfl

/-! ### The things that are still to be taken -/

theorem goodPass_early (bytes : List Byte) (s : State) : ∀ t ∈ (goodPass bytes s).late, t.early := by
  intro t m
  rcases List.mem_append.1 m with m | m
  · rcases List.mem_append.1 m with m | m
    · have m : t ∈ if slips s.ltu (frameCount bytes) then [Task.occurrence .linkSlip .device] else [] := m
      split at m
      · cases List.mem_singleton.1 m
        trivial
      · cases m
    · exact occurrences_early _ t m
  · exact raisingLines_early _ _ t m

theorem badPass_early (s : State) : ∀ t ∈ (badPass s).late, t.early := by
  intro t m
  rcases List.mem_append.1 m with m | m
  · rcases List.mem_append.1 m with m | m
    · cases List.mem_singleton.1 m
      trivial
    · exact occurrences_early _ t m
  · exact raisingLines_early _ _ t m

theorem phantomPass_early (s : State) : ∀ t ∈ (phantomPass s).late, t.early := raisingLines_early _ _

theorem badMix_early (s : State) : ∀ t ∈ (badMix s).pass.late, t.early :=
  (audioFrame_onlyEngine _ _ _ _ (badPass_early s)).2.1

theorem phantomMix_early (s : State) : ∀ t ∈ (phantomMix s).pass.late, t.early :=
  (audioFrame_onlyEngine _ _ _ _ (phantomPass_early s)).2.1

/-! ### Notices at the tail -/

/-- The queue `q'` is `q` with notices behind it, the last of which found room. -/
def GrowsFrom (q q' : List OutItem) : Prop :=
  ∃ new, q' = q ++ new ∧ (∀ x ∈ new, x.isNotice = true)
    ∧ (new ≠ [] → q'.length ≤ 8 ∧ q'.countP OutItem.isNotice ≤ 7)

theorem GrowsFrom.refl (q : List OutItem) : GrowsFrom q q := ⟨[], by simp, nofun, fun h => absurd rfl h⟩

theorem GrowsFrom.trans {q q' q'' : List OutItem} (h : GrowsFrom q q') (k : GrowsFrom q' q'') :
    GrowsFrom q q'' := by
  obtain ⟨new, rfl, notices, room⟩ := h
  obtain ⟨new', rfl, notices', room'⟩ := k
  refine ⟨new ++ new', List.append_assoc .., fun x m => (List.mem_append.1 m).elim (notices x) (notices' x), ?_⟩
  intro nonempty
  by_cases e : new' = []
  · subst e
    simpa using room (by simpa using nonempty)
  · exact room' e

theorem GrowsFrom.prefix {q q' : List OutItem} (h : GrowsFrom q q') : q <+: q' := by
  obtain ⟨new, rfl, _⟩ := h
  exact List.prefix_append ..

theorem offerSilently_grows (m : Message) (s : State) : GrowsFrom s.outq (offerSilently m s).outq := by
  unfold offerSilently
  split
  · rename_i room
    simp only [noticeRoom, Bool.and_eq_true, decide_eq_true_eq, Config.queueSize, Config.noticeLimit] at room
    refine ⟨[.notice m], rfl, by simp [OutItem.isNotice], fun _ => ?_⟩
    simp [OutItem.isNotice]
    omega
  · exact .refl _

/-- An occurrence whose notice adds notices alone adds notices alone (R152). -/
theorem occur_grows (k : FaultKind) (sc : Scope) (offer : Message → State → State) (s : State)
    (hoffer : ∀ (m : Message) (u : State), GrowsFrom u.outq (offer m u).outq) :
    GrowsFrom s.outq (occur k sc offer s).outq := by
  have hset : (setKind k sc (countEvent .faultOccurrence s)).outq = s.outq :=
    (setKind_records k sc (countEvent .faultOccurrence s)).2.2.2
  unfold occur
  split
  · exact .refl _
  · split
    · exact .refl _
    · simp only
      split
      · rw [hset]
        exact .refl _
      · have := hoffer (faultNotice k sc (setKind k sc (countEvent .faultOccurrence s)))
          (setKind k sc (countEvent .faultOccurrence s))
        rwa [hset] at this

theorem offerNotice_grows (m : Message) (s : State) : GrowsFrom s.outq (offerNotice m s).outq := by
  have silently := offerSilently_grows m s
  unfold offerSilently at silently
  unfold offerNotice
  split
  · rename_i room
    rwa [if_pos room] at silently
  · exact occur_grows _ _ _ s offerSilently_grows

theorem raise_grows (k : FaultKind) (sc : Scope) (s : State) : GrowsFrom s.outq (raise k sc s).outq :=
  occur_grows k sc _ s offerNotice_grows

theorem mapKinds_outq (ks : List FaultKind) (f : FaultKind → FaultRecord → FaultRecord) (s : State) :
    (mapKinds ks f s).outq = s.outq := by
  rw [mapKinds_rest]

theorem clearKinds_outq (ks : List FaultKind) (s : State) : (clearKinds ks s).outq = s.outq :=
  mapKinds_outq ..

theorem setupKinds_outq (ks : List FaultKind) (detect report : Bool) (sev : Severity) (s : State) :
    (setupKinds ks detect report sev s).outq = s.outq := by
  unfold setupKinds
  simp only
  split
  · exact (clearKinds_outq ..).trans (mapKinds_outq ..)
  · exact mapKinds_outq ..

/-- Every request touches the outbound queue by its notices alone. -/
theorem grows_keptByRequests (q : List OutItem) : KeptByRequests fun s => GrowsFrom q s.outq where
  frame h e := (congrArg State.outq e : _ = _) ▸ h
  raise k sc s h := h.trans (raise_grows k sc s)
  offer m s h := h.trans (offerNotice_grows m s)
  record L _ _ _ h := by cases L <;> exact h
  move _ _ _ h := h
  engineReset h := h
  configured _ _ h := h
  staged _ _ h := h
  cleared ks s h := by
    rwa [clearKinds_outq]
  setup ks detect report sev s h := by
    rwa [setupKinds_outq]

theorem grows_keptByVoices (q : List OutItem) : KeptByVoices fun s => GrowsFrom q s.outq :=
  (grows_keptByRequests q).toKeptByVoices

theorem pedalWork_grows (limit : Nat) (l : LineId) (s : State) : GrowsFrom s.outq (pedalWork limit l s).outq :=
  pedalWork_keeps (grows_keptByVoices s.outq) limit l (.refl s.outq)

theorem blockWork_grows (ls : LinkState) (L : Lead) (s : State) : GrowsFrom s.outq (blockWork ls L s).outq :=
  blockWork_keeps (keptByBlockParts (grows_keptByVoices s.outq)) ls L (.refl s.outq)

theorem voiceWork_grows (v : VoiceId) (s : State) : GrowsFrom s.outq (voiceWork v s).state.outq :=
  voiceWork_keeps (grows_keptByVoices s.outq) v (.refl s.outq)

theorem executeKind_grows (kind : Byte) (r : Req) (s : State) :
    GrowsFrom s.outq (executeKind kind r s).state.outq :=
  request_keeps (grows_keptByRequests s.outq) (executeKind_move kind r s) (.refl s.outq)

theorem checked_grows (k : ReqKind) (r : Req) (s : State) :
    GrowsFrom s.outq (checked k (actOf k) r s).state.outq := by
  have hkind : executeKind (kindByte k) r s = checked k (actOf k) r s := by cases k <;> rfl
  rw [← hkind]
  exact executeKind_grows ..

/-! ### Lane and queue bounds -/

/-- The outbound queue's bounds (R175). -/
def QueueOk (q : List OutItem) : Prop := q.length ≤ 8 ∧ q.countP OutItem.isNotice ≤ 7

/-- The bounds of relay FIFO and assembly buffer (R168, R174). -/
def LaneOk (fifo : List (List Byte)) (assembly : Option Assembly) : Prop :=
  fifo.length ≤ 2 ∧ (∀ m ∈ fifo, messageOk m = true ∧ m.length ≤ 103)
    ∧ ∀ a, assembly = some a → a.bytes.length ≤ 103 ∧ a.gap ≤ 8
      ∧ (a.route.mode = some .capture → fifo.length ≤ 1)

/-- The bounds of the outbound queue and the lane's records. -/
def Bounded (s : State) : Prop := QueueOk s.outq ∧ LaneOk s.fifo s.assembly

theorem QueueOk.grows {q q' : List OutItem} (h : QueueOk q) (g : GrowsFrom q q') : QueueOk q' := by
  obtain ⟨new, rfl, _, room⟩ := g
  by_cases e : new = []
  · subst e
    simpa using h
  · exact room e

theorem QueueOk.tail {x : OutItem} {q : List OutItem} (h : QueueOk (x :: q)) : QueueOk q :=
  ⟨Nat.le_of_succ_le h.1, Nat.le_trans (List.Sublist.countP_le (List.sublist_cons_self x q)) h.2⟩

theorem QueueOk.reserved {q : List OutItem} (h : QueueOk q) (room : q.length < 8) :
    QueueOk (q ++ [.reservation]) := by
  refine ⟨by simp; omega, ?_⟩
  simpa [OutItem.isNotice] using h.2

theorem QueueOk.filled {q : List OutItem} (h : QueueOk q) (m : Message) : QueueOk (fillReservation m q) := by
  obtain ⟨hl, hc⟩ := fillReservation_counts m q
  exact ⟨hl.symm ▸ h.1, hc.symm ▸ h.2⟩

/-- An empty buffer asks nothing. -/
theorem LaneOk.emptied {fifo : List (List Byte)} {x : Option Assembly} (h : LaneOk fifo x) : LaneOk fifo none :=
  ⟨h.1, h.2.1, nofun⟩

theorem LaneOk.tail {m : List Byte} {fifo : List (List Byte)} {x : Option Assembly} (h : LaneOk (m :: fifo) x) :
    LaneOk fifo x :=
  ⟨Nat.le_of_succ_le h.1, fun y k => h.2.1 y (List.mem_cons_of_mem _ k), fun a e =>
    ⟨(h.2.2 a e).1, (h.2.2 a e).2.1, fun c => Nat.le_of_succ_le ((h.2.2 a e).2.2 c)⟩⟩

theorem gapFrame_laneOk {s : State} (h : LaneOk s.fifo s.assembly) :
    LaneOk (gapFrame s).1.fifo (gapFrame s).1.assembly := by
  unfold gapFrame
  split
  · exact h
  · rename_i a e
    obtain ⟨hb, _, hc⟩ := h.2.2 a e
    split
    · exact h.emptied
    · rename_i short
      refine ⟨h.1, h.2.1, fun x q => ?_⟩
      cases q
      exact ⟨hb, Nat.le_of_lt_succ (Nat.not_le.1 short), hc⟩

/-- A START chooses CAPTURE only where the FIFO has room for the message (R171). -/
theorem relayMode_capture {s : State} (h : relayMode s = .capture) : s.fifo.length ≤ 1 := by
  unfold relayMode Config.fifoSize at h
  split at h
  · cases h
  · omega

theorem routeOf_capture {s : State} {dest : Byte} (h : (routeOf s dest).mode = some .capture) :
    s.fifo.length ≤ 1 := by
  unfold routeOf at h
  split at h
  · cases h
  · split at h <;> exact relayMode_capture (Option.some.inj h)

theorem beginMessage_laneOk {bytes : List Byte} {s : State} (hb : bytes.length ≤ 7) {x : Option Assembly}
    (h : LaneOk s.fifo x) :
    LaneOk (beginMessage bytes s).state.fifo (beginMessage bytes s).state.assembly := by
  refine ⟨h.1, h.2.1, fun a e => ?_⟩
  cases e
  exact ⟨Nat.le_trans hb (by decide), Nat.zero_le 8, routeOf_capture⟩

theorem judgeMessage_laneOk {a : Assembly} {s : State} {x : Option Assembly} (h : LaneOk s.fifo x)
    (hb : a.bytes.length ≤ 103) (hc : a.route.mode = some .capture → s.fifo.length ≤ 1) :
    LaneOk (judgeMessage a s).state.fifo (judgeMessage a s).state.assembly := by
  unfold judgeMessage
  simp only
  split
  · rename_i ok
    simp only
    split
    · rename_i capture
      refine ⟨by simpa using hc capture, fun m q => ?_, nofun⟩
      rcases List.mem_append.1 q with q | q
      · exact h.2.1 m q
      · cases List.mem_singleton.1 q
        exact ⟨ok, hb⟩
    · exact h.emptied
  · exact h.emptied

theorem appendBytes_laneOk (bytes : List Byte) (last : Bool) {s : State} (h : LaneOk s.fifo s.assembly) :
    LaneOk (appendBytes bytes last s).state.fifo (appendBytes bytes last s).state.assembly := by
  unfold appendBytes
  split
  · exact h
  · rename_i a e
    obtain ⟨_, _, hc⟩ := h.2.2 a e
    simp only
    split
    · exact h.emptied
    · rename_i short
      have hb : (a.bytes ++ bytes).length ≤ 103 := Nat.not_lt.1 short
      split
      · exact judgeMessage_laneOk h hb hc
      · refine ⟨h.1, h.2.1, fun x q => ?_⟩
        cases q
        exact ⟨hb, Nat.zero_le 8, hc⟩

/-- A lane frame carries at most seven bytes (R186). -/
theorem decodeLane_start_length {raw bytes : List Byte} (h : decodeLane raw = .start bytes) :
    bytes.length ≤ 7 := by
  unfold decodeLane at h
  simp only at h
  split at h
  · rename_i count
    split at h
    · cases h
      exact Nat.le_trans (List.length_take_le ..) count.2
    · repeat' split at h
      all_goals cases h
  · cases h

theorem assemble_laneOk (raw : List Byte) {s : State} (h : LaneOk s.fifo s.assembly) :
    LaneOk (assemble (decodeLane raw) s).state.fifo (assemble (decodeLane raw) s).state.assembly := by
  cases e : decodeLane raw with
  | idle => exact gapFrame_laneOk h
  | start bytes =>
    have hb := decodeLane_start_length e
    unfold assemble
    simp only
    split
    · exact beginMessage_laneOk hb h
    · exact beginMessage_laneOk (s := abandon s) hb h
  | more bytes => exact appendBytes_laneOk bytes false h
  | last bytes => exact appendBytes_laneOk bytes true h

/-! ### Reservations -/

/-- Is this place of the outbound queue a reservation? (R175) -/
def isReservation : OutItem → Bool
  | .reservation => true
  | .reply _ => false
  | .notice _ => false

/-- The reservations that stand in a queue. -/
def reservations (q : List OutItem) : Nat := q.countP isReservation

theorem noReservation_iff (s : State) : NoReservation s ↔ reservations s.outq = 0 := by
  unfold NoReservation reservations
  rw [List.countP_eq_zero]
  constructor
  · intro h x m r
    cases x with
    | reservation => exact h m
    | reply _ => cases r
    | notice _ => cases r
  · exact fun h m => h _ m rfl

theorem GrowsFrom.reservations {q q' : List OutItem} (h : GrowsFrom q q') : reservations q' = reservations q := by
  obtain ⟨new, rfl, notices, _⟩ := h
  have none : new.countP isReservation = 0 := List.countP_eq_zero.2 fun x m r => by
    have := notices x m
    cases x with
    | reservation => cases this
    | reply _ => cases r
    | notice _ => cases r
  unfold Queues.reservations
  rw [List.countP_append, none, Nat.add_zero]

/-- A reply takes the place of a reservation (R175). -/
theorem fillReservation_reservations (m : Message) : ∀ q : List OutItem,
    reservations (fillReservation m q) = reservations q - 1
  | [] => rfl
  | .reservation :: q => by simp [fillReservation, reservations, List.countP_cons, isReservation]
  | .reply _ :: q => by
    have h := fillReservation_reservations m q
    simpa [fillReservation, reservations, isReservation] using h
  | .notice _ :: q => by
    have h := fillReservation_reservations m q
    simpa [fillReservation, reservations, isReservation] using h

theorem reservations_tail {x : OutItem} {q : List OutItem} (h : reservations (x :: q) = 0) :
    reservations q = 0 :=
  Nat.eq_zero_of_le_zero (h ▸ List.Sublist.countP_le (List.sublist_cons_self x q))

/-- A thing of a frame that will fill a reservation. -/
def fills : Task → Bool
  | .request _ r => !r.broadcast
  | .occurrence _ _ => false
  | .relayed => false
  | .pedal _ _ => false
  | .block _ => false

theorem finishRequest_outq (r : Req) (a : Answer) (broadcast : r.broadcast = false) :
    (finishRequest r a).outq = fillReservation (replyMessage a.state r a.status a.body) a.state.outq := by
  simp [finishRequest, broadcast]

/-- A thing of a frame fills one reservation or none (R175, R176). -/
theorem runTask_reservations (ls : LinkState) (t : Task) (s : State) :
    reservations (runTask ls t s).outq = reservations s.outq - (if fills t then 1 else 0) := by
  cases t with
  | occurrence k sc => exact (raise_grows k sc s).reservations
  | relayed => rfl
  | pedal l limit => exact (pedalWork_grows limit l s).reservations
  | request kind r =>
    have hact := (executeKind_grows kind r s).reservations
    show reservations (finishRequest r (executeKind kind r s)).outq = _
    cases broadcast : r.broadcast with
    | true => simpa [finishRequest, fills, broadcast] using hact
    | false =>
      rw [finishRequest_outq r _ broadcast, fillReservation_reservations, hact]
      simp [fills, broadcast]
  | block L => exact (blockWork_grows ls L s).reservations

theorem countP_eraseIdx_add {α : Type} (p : α → Bool) : ∀ (l : List α) (i : Nat) (h : i < l.length),
    (l.eraseIdx i).countP p + (if p l[i] then 1 else 0) = l.countP p
  | x :: l, 0, _ => by simp [List.countP_cons]
  | x :: l, i + 1, h => by
    have ih := countP_eraseIdx_add p l i (Nat.lt_of_succ_lt_succ h)
    simp only [List.eraseIdx_cons_succ, List.countP_cons, List.getElem_cons_succ]
    omega

/-- All the things of a frame taken fill every reservation that waits for one of them. -/
theorem runTasks_reservations (ls : LinkState) : ∀ (fuel : Nat) (ts : List Task) (s : State),
    ts.length ≤ fuel → reservations s.outq = ts.countP fills →
    reservations (runTasks ls fuel ts s).outq = 0
  | 0, ts, s, hf, h => by
    cases List.eq_nil_of_length_eq_zero (Nat.eq_zero_of_le_zero hf)
    exact h
  | fuel + 1, [], s, _, h => h
  | fuel + 1, [t], s, _, h => by
    show reservations (runTask ls t s).outq = 0
    rw [runTask_reservations, h]
    simp [List.countP_cons]
  | fuel + 1, t :: t' :: rest, s, hf, h => by
    have hi : s.nextOrder (t :: t' :: rest).length < (t :: t' :: rest).length :=
      Nat.mod_lt _ (Nat.zero_lt_succ _)
    have hcount := countP_eraseIdx_add fills _ _ hi
    refine runTasks_reservations ls fuel _ _ ?_ ?_
    · rw [List.length_eraseIdx_of_lt hi]
      exact Nat.le_of_succ_le_succ hf
    · rw [runTask_reservations, List.getD_eq_getElem _ _ hi]
      show reservations s.outq - _ = _
      rw [h]
      omega

/-! ### Frames and reservations -/

theorem early_fills {ts : List Task} (early : ∀ t ∈ ts, t.early) : ts.countP fills = 0 :=
  List.countP_eq_zero.2 fun t m f => by
    have := early t m
    cases t with
    | request kind r => exact this
    | occurrence _ _ => cases f
    | relayed => cases f
    | pedal _ _ => cases f
    | block _ => cases f

theorem blockTasks_fills (s : State) : (blockTasks s).countP fills = 0 := by
  unfold blockTasks
  split <;> rfl

/-- Early things taken among others add notices alone. -/
theorem takeSome_grows (ls : LinkState) (fuel : Nat) (p : Pass) (early : ∀ t ∈ p.late, t.early) :
    GrowsFrom p.state.outq (takeSome ls fuel p).state.outq :=
  (takeSome_keeps (fun s => GrowsFrom p.state.outq s.outq) ls (fun _ h => h) fuel p
    (fun t m s h => h.trans (by
      cases t with
      | occurrence k sc => exact raise_grows k sc s
      | relayed => exact .refl _
      | pedal l limit => exact pedalWork_grows limit l s
      | request _ _ => exact (early _ m).elim
      | block _ => exact (early _ m).elim)) (.refl _)).1

theorem audioFrame_grows (ls : LinkState) (xa xb : Int) (p : Pass) (early : ∀ t ∈ p.late, t.early) :
    GrowsFrom p.state.outq (audioFrame ls xa xb p).pass.state.outq :=
  (voicesFrame_keeps (fun s => GrowsFrom p.state.outq s.outq) ls (fun _ h => h)
    (fun v s h => h.trans (voiceWork_grows v s)) (fun _ s h => h.trans (raise_grows _ _ s))
    { p with state := appendSamples xa xb p.state }
    (fun t m s h => h.trans (by
      cases t with
      | occurrence k sc => exact raise_grows k sc s
      | relayed => exact .refl _
      | pedal l limit => exact pedalWork_grows limit l s
      | request _ _ => exact (early _ m).elim
      | block _ => exact (early _ m).elim)) (.refl _)).1

/-- The end of a frame fills every reservation that waits for one of its things. -/
theorem finishFrame_reservations (ls : LinkState) (limit : Nat) (lines : List LineId) (p : Pass)
    (h : reservations p.state.outq = p.late.countP fills) :
    reservations (finishFrame ls limit lines p).outq = 0 := by
  unfold finishFrame
  simp only
  split
  · rename_i quiet
    rw [quiet.1] at h
    have hlines : GrowsFrom p.state.outq (lines.foldl (fun s l => pedalWork limit l s) p.state).outq :=
      foldl_keeps (P := fun s => GrowsFrom p.state.outq s.outq) _
        (fun s l h => h.trans (pedalWork_grows limit l s)) lines p.state (.refl _)
    rw [hlines.reservations]
    exact h
  · refine runTasks_reservations ls _ _ _ (Nat.le_refl _) ?_
    have none : (lines.map fun l => Task.pedal l limit).countP fills = 0 :=
      early_fills fun t m => by
        obtain ⟨l, _, rfl⟩ := List.mem_map.1 m
        trivial
    rw [List.countP_append, none, Nat.add_zero, h]

theorem laneStep_reservations {s : State} {r : LaneSent} (h : LaneStep s r) (none : reservations s.outq = 0) :
    reservations r.state.outq = 0 := by
  rcases h.outq with e | ⟨_, x, e⟩
  · rw [e]
    exact none
  · rw [e] at none
    exact reservations_tail none

theorem counted_outq (r : LaneSent) : r.counted.outq = r.state.outq := by
  unfold LaneSent.counted
  split <;> rfl

/-- The lane of a good frame reserves a place exactly for the request it accepts for a reply (R176, R185). -/
theorem sendAndAccept_reservations (raw : List Byte) (wasCut : Bool) (request : Option (Byte × Req)) (p : Pass)
    (early : ∀ t ∈ p.late, t.early) (none : reservations p.state.outq = 0) :
    reservations (sendAndAccept raw wasCut request p).1.state.outq
        = (sendAndAccept raw wasCut request p).2.countP fills
      ∧ ∀ t ∈ (sendAndAccept raw wasCut request p).1.late, t.early := by
  have hsent := laneStep_reservations (sendLane_step (decodeLane raw) raw wasCut p.state) none
  have hrelayed (b : Bool) : ∀ t ∈ p.late ++ (if b then [Task.relayed] else []), t.early := by
    intro t m
    rcases List.mem_append.1 m with m | m
    · exact early t m
    · cases b
      · cases m
      · cases List.mem_singleton.1 m
        trivial
  unfold sendAndAccept
  simp only
  split
  · rw [counted_outq]
    exact ⟨hsent, early⟩
  · rename_i q _
    unfold acceptRequest
    simp only
    split
    · rename_i broadcast
      refine ⟨hsent.trans ?_, hrelayed _⟩
      simp [fills, broadcast]
    · rename_i reply
      split
      · refine ⟨hsent, fun t m => ?_⟩
        rcases List.mem_append.1 m with m | m
        · exact hrelayed _ t m
        · cases List.mem_singleton.1 m
          trivial
      · refine ⟨Eq.trans (b := 1) ?_ ?_, hrelayed _⟩
        · show List.countP isReservation (_ ++ [.reservation]) = 1
          rw [List.countP_append]
          exact congrArg (· + 1) hsent
        · simp [fills, reply]

theorem adoptCount_outq (c : Word32) (s : State) : (adoptCount c s).outq = s.outq := by
  have h (L : Lead) (u : State) : (handOff L u).outq = u.outq := by
    rcases handOff_cases L u with e | ⟨_, _, _, _, _, e⟩ <;> rw [e]
    rfl
  unfold adoptCount handOffBoth
  simp only
  split
  · rw [h, h]
  · rw [h, h]

theorem assemble_outq (lane : LaneIn) (s : State) : (assemble lane s).state.outq = s.outq := by
  rw [(assemble_rest lane s).1]

theorem gapFrame_outq (s : State) : (gapFrame s).1.outq = s.outq := by
  rw [gapFrame_rest]

/-- Audio and lane of a good frame leave exactly the reservation of the request accepted. -/
theorem audioAndLane_reservations (ls : LinkState) (xs : Int × Int) (raw : List Byte) (wasCut : Bool)
    (request : Option (Byte × Req)) (p : Pass) (early : ∀ t ∈ p.late, t.early)
    (none : reservations p.state.outq = 0) :
    let m := audioAndLane ls xs (sendAndAccept raw wasCut request) (reserves request) p
    reservations m.1.pass.state.outq = m.2.countP fills ∧ ∀ t ∈ m.1.pass.late, t.early := by
  unfold audioAndLane
  cases first : reserves request with
  | true =>
    obtain ⟨hlane, hlate⟩ := sendAndAccept_reservations raw wasCut request p early none
    refine ⟨?_, (audioFrame_onlyEngine ls xs.1 xs.2 _ hlate).2.1⟩
    exact ((audioFrame_grows ls xs.1 xs.2 _ hlate).reservations).trans hlane
  | false =>
    have haudio := (audioFrame_grows ls xs.1 xs.2 p early).reservations.trans none
    have hearly := (audioFrame_onlyEngine ls xs.1 xs.2 p early).2.1
    have htaken := (takeSome_grows ls (audioFrame ls xs.1 xs.2 p).pass.late.length _ hearly).reservations.trans haudio
    exact sendAndAccept_reservations raw wasCut request _ (takeSome_onlyEngine ls _ _ hearly).2 htaken

theorem goodFrame_reservations (bytes : List Byte) {s : State} (h : reservations s.outq = 0) :
    reservations (goodFrame bytes s).outq = 0 := by
  have hstart : reservations (goodPass bytes s).state.outq = 0 := by
    show reservations (assemble _ _).state.outq = 0
    rw [assemble_outq]
    exact (congrArg reservations (adoptCount_outq _ _)).trans h
  have hmix : reservations (goodMix bytes s).1.pass.state.outq = (goodMix bytes s).2.countP fills
      ∧ ∀ t ∈ (goodMix bytes s).1.pass.late, t.early :=
    audioAndLane_reservations _ _ _ _ _ _ (goodPass_early bytes s) hstart
  rw [goodFrame_eq]
  refine finishFrame_reservations _ _ _ _ ?_
  show _ = List.countP fills (_ ++ _ ++ _)
  rw [List.countP_append, List.countP_append, early_fills hmix.2, blockTasks_fills, Nat.zero_add, Nat.add_zero]
  exact hmix.1

theorem declareLoss_grows (s : State) : GrowsFrom s.outq (declareLoss s).outq := by
  have hraised (b : Bool) (u : State) : GrowsFrom u.outq (raiseLoss b u).outq := by
    unfold raiseLoss
    split
    · split
      · exact (raise_grows .ctrlRunon .none u.drawn).trans (raise_grows ..)
      · exact (raise_grows .linkLoss .device u.drawn).trans (raise_grows ..)
    · exact raise_grows ..
  have hr := hraised s.assembly.isSome (cleanLane { s with ltu := s.ltu.lost })
  unfold declareLoss lossEffect
  split
  · exact hr
  · exact hr

theorem badFrame_reservations (bytes : List Byte) {s : State} (h : reservations s.outq = 0) :
    reservations (badFrame bytes s).outq = 0 := by
  have hstart : reservations (badPass s).state.outq = 0 := by
    show reservations (gapFrame _).1.outq = 0
    rw [gapFrame_outq]
    exact (congrArg reservations (adoptCount_outq _ _)).trans h
  have hdone : reservations (badDone bytes s).outq = 0 := by
    refine finishFrame_reservations _ _ _ _ ?_
    show _ = List.countP fills (_ ++ _)
    rw [List.countP_append, blockTasks_fills, early_fills (badMix_early s)]
    exact (audioFrame_grows _ _ _ _ (badPass_early s)).reservations.trans hstart
  rw [badFrame_eq]
  split
  · exact (declareLoss_grows _).reservations.trans hdone
  · exact hdone

theorem phantomWork_reservations {s : State} (h : reservations s.outq = 0) :
    reservations (phantomWork s).outq = 0 := by
  rw [phantomWork_eq]
  refine finishFrame_reservations _ _ _ _ ?_
  show _ = List.countP fills (_ ++ _)
  rw [List.countP_append, blockTasks_fills, early_fills (phantomMix_early s)]
  exact (audioFrame_grows _ _ _ _ (phantomPass_early s)).reservations.trans h

/-! ### Frames and bounds -/

theorem Bounded.engine {s t : State} (h : Bounded s) (e : OnlyEngine s t) (g : GrowsFrom s.outq t.outq) :
    Bounded t :=
  ⟨h.1.grows g, by rw [e.fifo, e.assembly]; exact h.2⟩

theorem Bounded.raised {s : State} (h : Bounded s) (k : FaultKind) (sc : Scope) : Bounded (raise k sc s) :=
  h.engine (raise_onlyFaults k sc s).engine (raise_grows k sc s)

theorem Bounded.adopted {s : State} (h : Bounded s) (c : Word32) : Bounded (adoptCount c s) := by
  have e := adoptCount_onlyEngine c s
  refine ⟨by rw [adoptCount_outq]; exact h.1, ?_⟩
  rw [e.fifo, e.assembly]
  exact h.2

theorem finishRequest_bounded (r : Req) (a : Answer) (h : Bounded a.state) : Bounded (finishRequest r a) := by
  unfold finishRequest
  split
  · exact h
  · exact ⟨h.1.filled _, h.2⟩

theorem runTask_bounded (ls : LinkState) (t : Task) {s : State} (h : Bounded s) : Bounded (runTask ls t s) := by
  cases t with
  | occurrence k sc => exact h.raised k sc
  | relayed => exact h
  | pedal l limit => exact h.engine (pedalWork_onlyEngine limit l s) (pedalWork_grows limit l s)
  | request kind r =>
    have e := executeKind_onlyRequest kind r s
    refine finishRequest_bounded r _ ⟨h.1.grows (executeKind_grows kind r s), ?_⟩
    rw [e.fifo, e.assembly]
    exact h.2
  | block L => exact h.engine (blockWork_onlyEngine ls L s) (blockWork_grows ls L s)

theorem finishFrame_bounded (ls : LinkState) (limit : Nat) (lines : List LineId) (p : Pass)
    (h : Bounded p.state) : Bounded (finishFrame ls limit lines p) :=
  finishFrame_keeps Bounded ls limit (fun _ h => h)
    (fun l s h => h.engine (pedalWork_onlyEngine limit l s) (pedalWork_grows limit l s)) lines p
    (fun t _ _ h => runTask_bounded ls t h) h

theorem takeSome_bounded (ls : LinkState) (fuel : Nat) (p : Pass) (h : Bounded p.state) :
    Bounded (takeSome ls fuel p).state :=
  (takeSome_keeps Bounded ls (fun _ h => h) fuel p (fun t _ _ h => runTask_bounded ls t h) h).1

theorem audioFrame_bounded (ls : LinkState) (xa xb : Int) (p : Pass) (h : Bounded p.state) :
    Bounded (audioFrame ls xa xb p).pass.state :=
  (voicesFrame_keeps Bounded ls (fun _ h => h)
    (fun v s h => h.engine (voiceWork_onlyVoices v s).engine (voiceWork_grows v s)) (fun _ _ h => h.raised _ _)
    { p with state := appendSamples xa xb p.state } (fun t _ _ h => runTask_bounded ls t h) h).1

theorem laneStep_bounded {s : State} {r : LaneSent} (step : LaneStep s r) (h : Bounded s) : Bounded r.state := by
  have hassembly : r.state.assembly = s.assembly := by rw [step.rest]
  refine ⟨?_, ?_⟩
  · rcases step.outq with e | ⟨_, x, e⟩
    · rw [e]
      exact h.1
    · have hq := h.1
      rw [e] at hq
      exact hq.tail
  · rw [hassembly]
    rcases step.fifo with e | ⟨_, m, e⟩
    · rw [e]
      exact h.2
    · have hf := h.2
      rw [e] at hf
      exact hf.tail

theorem counted_bounded {r : LaneSent} (h : Bounded r.state) : Bounded r.counted := by
  unfold LaneSent.counted
  split <;> exact h

theorem acceptRequest_bounded (r : Req) {s : State} (h : Bounded s) : Bounded (acceptRequest r s).1 := by
  unfold acceptRequest
  simp only
  split
  · exact h
  · split
    · exact h
    · rename_i room
      exact ⟨h.1.reserved (Nat.not_le.1 room), h.2⟩

theorem sendAndAccept_bounded (raw : List Byte) (wasCut : Bool) (request : Option (Byte × Req)) (p : Pass)
    (h : Bounded p.state) : Bounded (sendAndAccept raw wasCut request p).1.state := by
  have hsent := laneStep_bounded (sendLane_step (decodeLane raw) raw wasCut p.state) h
  unfold sendAndAccept
  simp only
  split
  · exact counted_bounded hsent
  · split <;> exact acceptRequest_bounded _ hsent

theorem goodFrame_bounded (bytes : List Byte) {s : State} (h : Bounded s) : Bounded (goodFrame bytes s) := by
  have hlinked : Bounded (goodLinked bytes s) := by
    refine Bounded.adopted ?_ _
    exact h
  have hpass : Bounded (goodPass bytes s).state :=
    ⟨by show QueueOk (assemble _ _).state.outq; rw [assemble_outq]; exact hlinked.1,
      assemble_laneOk (laneBytes bytes) hlinked.2⟩
  have hmix : Bounded (goodMix bytes s).1.pass.state := by
    unfold goodMix audioAndLane
    split
    · exact audioFrame_bounded _ _ _ _ (sendAndAccept_bounded _ _ _ _ hpass)
    · exact sendAndAccept_bounded _ _ _ _ (takeSome_bounded _ _ _ (audioFrame_bounded _ _ _ _ hpass))
  rw [goodFrame_eq]
  exact finishFrame_bounded _ _ _ _ hmix

theorem declareLoss_bounded {s : State} (h : Bounded s) : Bounded (declareLoss s) := by
  refine ⟨h.1.grows (declareLoss_grows s), ?_⟩
  have hrest (b : Bool) (u : State) (hu : u.fifo = [] ∧ u.assembly = none) :
      (raiseLoss b u).fifo = [] ∧ (raiseLoss b u).assembly = none := by
    have hk (k : FaultKind) (sc : Scope) {u : State} (hu : u.fifo = [] ∧ u.assembly = none) :
        (raise k sc u).fifo = [] ∧ (raise k sc u).assembly = none :=
      ⟨(raise_onlyFaults k sc u).fifo.trans hu.1, (raise_onlyFaults k sc u).assembly.trans hu.2⟩
    unfold raiseLoss
    split
    · split
      · exact hk _ _ (hk _ _ hu)
      · exact hk _ _ (hk _ _ hu)
    · exact hk _ _ hu
  have hr := hrest s.assembly.isSome (cleanLane { s with ltu := s.ltu.lost }) ⟨rfl, rfl⟩
  have he (u : State) : (lossEffect u).fifo = u.fifo ∧ (lossEffect u).assembly = u.assembly := by
    unfold lossEffect
    split <;> exact ⟨rfl, rfl⟩
  unfold declareLoss
  rw [(he _).1, (he _).2, hr.1, hr.2]
  exact ⟨Nat.zero_le 2, nofun, nofun⟩

theorem badFrame_bounded (bytes : List Byte) {s : State} (h : Bounded s) : Bounded (badFrame bytes s) := by
  have hlinked : Bounded (badLinked s) := by
    refine Bounded.adopted ?_ _
    exact h
  have hpass : Bounded (badPass s).state :=
    ⟨by show QueueOk (gapFrame _).1.outq; rw [gapFrame_outq]; exact hlinked.1, gapFrame_laneOk hlinked.2⟩
  have hdone : Bounded (badDone bytes s) :=
    finishFrame_bounded _ _ _ _ (audioFrame_bounded s.ltu.link (heldSamples s).1 (heldSamples s).2 _ hpass)
  rw [badFrame_eq]
  split
  · exact declareLoss_bounded hdone
  · exact hdone

theorem phantomWork_bounded {s : State} (h : Bounded s) : Bounded (phantomWork s) := by
  rw [phantomWork_eq]
  exact finishFrame_bounded _ _ _ _ (audioFrame_bounded s.ltu.link 0 0 (phantomPass s) h)

/-! ### Steps -/

/-- Both laws of the queues: bounds, and no reservation left. -/
structure QueueStep (s t : State) : Prop where
  bounded : Bounded s → Bounded t
  replied : reservations s.outq = 0 → reservations t.outq = 0

theorem QueueStep.refl (s : State) : QueueStep s s := ⟨id, id⟩

theorem QueueStep.trans {s t u : State} (h : QueueStep s t) (k : QueueStep t u) : QueueStep s u :=
  ⟨k.bounded ∘ h.bounded, k.replied ∘ h.replied⟩

theorem QueueStep.engine {s t : State} (e : OnlyEngine s t) (g : GrowsFrom s.outq t.outq) : QueueStep s t :=
  ⟨fun h => h.engine e g, fun h => g.reservations.trans h⟩

theorem QueueStep.same {s t : State} (hq : t.outq = s.outq) (hf : t.fifo = s.fifo)
    (ha : t.assembly = s.assembly) : QueueStep s t :=
  ⟨fun h => by unfold Bounded at *; rwa [hq, hf, ha], fun h => by rwa [hq]⟩

theorem queueStep_phantomWork (s : State) : QueueStep s (phantomWork s) :=
  ⟨phantomWork_bounded, phantomWork_reservations⟩

theorem queueStep_adoptCount (c : Word32) (s : State) : QueueStep s (adoptCount c s) :=
  ⟨fun h => h.adopted c, fun h => by rwa [adoptCount_outq]⟩

theorem queueStep_declareLoss (s : State) : QueueStep s (declareLoss s) :=
  ⟨declareLoss_bounded, fun h => (declareLoss_grows s).reservations.trans h⟩

theorem queueStep_phantomFrame (s : State) : QueueStep s (phantomFrame s) := by
  refine QueueStep.trans ?_ (queueStep_phantomWork _)
  refine QueueStep.trans ?_ (queueStep_adoptCount _ _)
  exact .same rfl rfl rfl

theorem queueStep_silenceLoss (s : State) : QueueStep s (silenceLoss s) := by
  have hadopted : QueueStep s (adoptCount (s.ltu.count + 4)
      { s with receiver := { s.receiver with sinceStart := none } }) := by
    refine QueueStep.trans ?_ (queueStep_adoptCount _ _)
    exact .same rfl rfl rfl
  refine QueueStep.trans ?_ ((queueStep_declareLoss _).trans (queueStep_phantomWork _))
  exact hadopted.trans (.same rfl rfl rfl)

theorem queueStep_arriveFrame (bytes : List Byte) (pins : PedalPins) (s : State) :
    QueueStep s (arriveFrame bytes pins s) := by
  have hpins : QueueStep s { s with pedalPins := pins } := .same rfl rfl rfl
  unfold arriveFrame
  split
  · refine QueueStep.trans (t := if frameGood bytes then goodFrame bytes { s with pedalPins := pins }
      else if s.ltu.link.running then badFrame bytes { s with pedalPins := pins }
      else passBadFrame bytes { s with pedalPins := pins }) ?_ (.same rfl rfl rfl)
    split
    · exact hpins.trans ⟨goodFrame_bounded bytes, goodFrame_reservations bytes⟩
    · split
      · exact hpins.trans ⟨badFrame_bounded bytes, badFrame_reservations bytes⟩
      · exact hpins.trans ((QueueStep.engine (raise_onlyFaults .frameCheck .device _).engine
          (raise_grows ..)).trans (.same rfl rfl rfl))
  · exact .refl s

theorem queueStep_localTick (s : State) : QueueStep s (localTick s) := by
  have hnoted : QueueStep s { s with receiver := s.receiver.after 1 } := .same rfl rfl rfl
  unfold localTick
  simp only
  split
  · exact .refl s
  · split
    · split
      · exact hnoted.trans (queueStep_silenceLoss _)
      · exact .same rfl rfl rfl
    · split
      · exact hnoted.trans (queueStep_phantomFrame _)
      · exact .same rfl rfl rfl

/-- A request accepted is answered in the same event (R175, R176). -/
theorem queueStep_takeRequest {act : Req → State → Answer} (r : Req) (s : State)
    (hact : ∀ u, OnlyRequest u (act r u).state ∧ GrowsFrom u.outq (act r u).state.outq) :
    QueueStep s (takeRequest act r s) := by
  refine ⟨fun h => ?_, fun h => ?_⟩
  · unfold takeRequest
    simp only
    have ha := acceptRequest_bounded r h
    split
    · obtain ⟨e, g⟩ := hact (acceptRequest r s).1
      refine finishRequest_bounded r _ ⟨ha.1.grows g, ?_⟩
      rw [e.fifo, e.assembly]
      exact ha.2
    · exact ha.raised _ _
  · cases broadcast : r.broadcast with
    | true =>
      rw [takeRequest_broadcast act r s broadcast]
      exact (hact _).2.reservations.trans h
    | false =>
      by_cases room : s.outq.length < 8
      · rw [takeRequest_room act r s broadcast room, finishRequest_outq r _ broadcast,
          fillReservation_reservations, (hact _).2.reservations]
        show reservations (s.outq ++ [.reservation]) - 1 = 0
        unfold reservations at h ⊢
        rw [List.countP_append, h]
        rfl
      · rw [takeRequest_full act r s broadcast (Nat.not_lt.1 room)]
        exact (raise_grows _ _ _).reservations.trans h

theorem queueStep_checked (k : ReqKind) (r : Req) (s : State) :
    QueueStep s (takeRequest (checked k (actOf k)) r s) :=
  queueStep_takeRequest r s fun u => by
    refine ⟨?_, checked_grows k r u⟩
    unfold checked
    split
    · exact actOf_onlyRequest k r u
    · exact .refl u

theorem queueStep_lane {s : State} {r : LaneSent} (step : LaneStep s r) : QueueStep s r.state :=
  ⟨laneStep_bounded step, laneStep_reservations step⟩

theorem queueStep_counted {s : State} {r : LaneSent} (step : LaneStep s r) : QueueStep s r.counted :=
  ⟨fun h => counted_bounded (laneStep_bounded step h), fun h => by
    rw [counted_outq]
    exact laneStep_reservations step h⟩

theorem queueStep_gapLimit (s : State) : QueueStep s (reachGapLimit s) := by
  have hcleared : QueueStep s (abandon s) := ⟨fun h => ⟨h.1, h.2.emptied⟩, id⟩
  unfold reachGapLimit
  repeat' split
  · exact hcleared.trans (.engine (raise_onlyFaults .ctrlRunon .none _).engine (raise_grows ..))
  · exact .refl s
  · exact .refl s

theorem queueStep_blockEnd (s : State) : QueueStep s (takeBlockEnd s) := by
  unfold takeBlockEnd
  split
  · exact runTasks_keeps (QueueStep s) _ (fun _ h => h.trans (.same rfl rfl rfl)) _ _ _
      (fun t m u h => by
        have : t = .block .a ∨ t = .block .b := by simpa using m
        rcases this with rfl | rfl
        · exact h.trans (.engine (blockWork_onlyEngine ..) (blockWork_grows ..))
        · exact h.trans (.engine (blockWork_onlyEngine ..) (blockWork_grows ..))) (.refl s)
  · exact .refl s

theorem queueStep_fifoSend (s : State) : QueueStep s (sendFromFifo s) := by
  unfold sendFromFifo
  repeat' split
  · exact .refl s
  · exact queueStep_counted (sendFifo_step 0 s)
  · exact queueStep_counted (sendFifo_step _ s)
  all_goals exact .refl s

theorem queueStep_queueSend (s : State) : QueueStep s (sendFromQueue s) := by
  unfold sendFromQueue
  repeat' split
  · exact queueStep_lane (sendQueue_step 0 s)
  · exact .refl s
  · exact queueStep_lane (sendQueue_step _ s)
  all_goals exact .refl s

/-- Every command but the power-on reset keeps both laws of the queues. -/
theorem exec_queueStep (c : Instr) (hp : ∀ straps, c ≠ .powerOnReset straps) {s t : State}
    (e : exec c s = .next t) : QueueStep s t := by
  have released {u t : State} (hu : QueueStep s u) (e : whenReleased s u = .next t) : QueueStep s t :=
    whenReleased_keeps (.refl s) hu e
  have engine {u t : State} (hu : OnlyEngine s u) (g : GrowsFrom s.outq u.outq)
      (e : whenReleased s u = .next t) : QueueStep s t := released (.engine hu g) e
  have request (k : ReqKind) (r : Req) {t : State}
      (e : whenReleased s (takeRequest (checked k (actOf k)) r s) = .next t) : QueueStep s t :=
    released (queueStep_checked k r s) e
  have V := grows_keptByVoices s.outq
  have start : GrowsFrom s.outq s.outq := .refl _
  cases c with
  | powerOnReset straps => exact absurd rfl (hp straps)
  | resetNHeldLow =>
    cases e
    exact .same rfl rfl rfl
  | frameStart => exact released (u := startFrame s) (.same rfl rfl rfl) e
  | syncSearch => exact released (u := loseSync s) (.same rfl rfl rfl) e
  | frameArrival bytes pins => exact released (queueStep_arriveFrame bytes pins s) e
  | lockAchieved =>
    refine released (u := achieveLock s) ?_ e
    unfold achieveLock
    split <;> exact .same rfl rfl rfl
  | lossByBadFrames =>
    refine released (u := loseByBadFrames s) ?_ e
    unfold loseByBadFrames
    split
    · exact queueStep_declareLoss s
    · exact .refl s
  | lossBySilence pins =>
    refine released ?_ e
    split
    · refine QueueStep.trans ?_ (queueStep_silenceLoss _)
      exact .same rfl rfl rfl
    · exact .refl s
  | phantomFrame pins =>
    refine released ?_ e
    split
    · exact .refl s
    · refine QueueStep.trans ?_ (queueStep_phantomFrame _)
      exact .same rfl rfl rfl
  | crossfadeEnd v => exact engine (endCrossfade_onlyVoices v s).engine (endCrossfade_keeps V v start) e
  | riseEnd v => exact engine (endRise_onlyVoices v s).engine (endRise_keeps V v start) e
  | fallEnd v => exact engine (finishFall_onlyVoices v s).engine (finishFall_keeps V v start) e
  | pedalEdge l => exact engine (reachDebounce_onlyEngine l s) (reachDebounce_keeps V l start) e
  | pedalStuckJudgement l => exact engine (reachStuck_onlyEngine l s) (reachStuck_keeps V l start) e
  | timedCueDue k => exact engine (markDue_onlyEngine k.val s) (markDue_keeps V k.val start) e
  | timedHandoff L => exact engine (handOff_onlyEngine L s) (handOff_keeps V L start) e
  | blockEnd => exact released (queueStep_blockEnd s) e
  | gapLimit => exact released (queueStep_gapLimit s) e
  | fifoSend => exact released (queueStep_fifoSend s) e
  | queueSend => exact released (queueStep_queueSend s) e
  | unknownRequest kind r =>
    refine released ?_ e
    split
    · exact queueStep_takeRequest r s fun u => ⟨.refl u, .refl u.outq⟩
    · exact .refl s
  | identify r => exact request .identify r e
  | readCap r => exact request .readCap r e
  | configure r => exact request .configure r e
  | readConfig r => exact request .readConfig r e
  | loadBegin r => exact request .loadBegin r e
  | loadData r => exact request .loadData r e
  | loadCommit r => exact request .loadCommit r e
  | loadAbort r => exact request .loadAbort r e
  | readTable r => exact request .readTable r e
  | cueNow r => exact request .cueNow r e
  | cueAt r => exact request .cueAt r e
  | cueFlush r => exact request .cueFlush r e
  | gatewaySet r => exact request .gatewaySet r e
  | portSet r => exact request .portSet r e
  | readState r => exact request .readState r e
  | readFaults r => exact request .readFaults r e
  | faultClear r => exact request .faultClear r e
  | faultSetup r => exact request .faultSetup r e
  | counterSetup r => exact request .counterSetup r e
  | readCounters r => exact request .readCounters r e
  | engineReset r => exact request .engineReset r e

theorem bounded_reset : Bounded State.reset :=
  ⟨⟨Nat.zero_le 8, Nat.zero_le 7⟩, Nat.zero_le 2, nofun, nofun⟩

/-- A step keeps the bounds and leaves no reservation. -/
theorem step_queueStep {s t : State} (e : step s = .next t) :
    (Bounded s → Bounded t) ∧ (reservations s.outq = 0 → reservations t.outq = 0) := by
  unfold step at e
  split at e
  · cases e
    exact ⟨(queueStep_localTick s).bounded, (queueStep_localTick s).replied⟩
  · rename_i c rest _
    by_cases hp : ∃ straps, c = .powerOnReset straps
    · obtain ⟨straps, rfl⟩ := hp
      cases e
      exact ⟨fun _ => bounded_reset, fun _ => rfl⟩
    · have h := exec_queueStep c (fun straps k => hp ⟨straps, k⟩) e
      exact ⟨h.bounded, h.replied⟩

/-- Settles O52: the engine adds notices alone, and a reservation made in a step is filled by the reply of the
request it was made for, which is executed in the same step. -/
theorem stepLeavesNoReservation : Obligations.StepLeavesNoReservation := by
  intro s t h e
  rw [noReservation_iff] at h ⊢
  exact (step_queueStep e).2 h

/-! ### The timed cue queue and the open load -/

/-- The bounds of the timed cue queue and of an open load's buffer (R139, R180). -/
def StoresOk (s : State) : Prop := s.timed.length ≤ 16 ∧ ∀ l, s.load = some l → l.buffer.length ≤ 512

theorem storesOk_congr {s t : State} (ht : t.timed = s.timed) (hl : t.load = s.load) (h : StoresOk s) :
    StoresOk t := by
  unfold StoresOk at *
  rwa [ht, hl]

theorem storesOk_of_onlyVoices {s t : State} (e : OnlyVoices s t) (h : StoresOk s) : StoresOk t :=
  storesOk_congr e.timed (congrArg State.load e.rest :) h

theorem storesOk_of_onlyPedals {s t : State} (e : CueLaws.OnlyPedals s t) (h : StoresOk s) : StoresOk t :=
  storesOk_congr e.timed (congrArg State.load e :) h

theorem storesOk_handOff (L : Lead) {s : State} (h : StoresOk s) : StoresOk (handOff L s) := by
  rcases handOff_cases L s with e | ⟨_, _, _, _, _, e⟩ <;> rw [e]
  · exact h
  · exact ⟨Nat.le_trans (List.eraseP_sublist.length_le) h.1, h.2⟩

theorem insertByDistance_length (count : Word32) (e : TimedEntry) : ∀ es : List TimedEntry,
    (insertByDistance count e es).length = es.length + 1
  | [] => rfl
  | x :: es => by
    unfold insertByDistance
    split
    · exact congrArg (· + 1) (insertByDistance_length count e es)
    · rfl

theorem insertEntry_length (count : Word32) (e : TimedEntry) (es : List TimedEntry) :
    (insertEntry count e es).length = es.length + 1 := by
  unfold insertEntry
  split
  · have := congrArg List.length (List.takeWhile_append_dropWhile (p := fun x : TimedEntry => x.mark) (l := es))
    simp only [List.length_append, List.length_cons] at this ⊢
    omega
  · exact insertByDistance_length count e es

theorem sortByDistance_length (count : Word32) (es : List TimedEntry) :
    (sortByDistance count es).length = es.length := by
  have go : ∀ (es acc : List TimedEntry),
      (es.foldl (fun acc e => insertByDistance count e acc) acc).length = acc.length + es.length := by
    intro es
    induction es with
    | nil => exact fun _ => rfl
    | cons e es ih =>
      intro acc
      rw [List.foldl_cons, ih, insertByDistance_length, List.length_cons]
      omega
  exact (go es []).trans (Nat.zero_add _)

theorem reorderAtJump_length (count : Word32) (es : List TimedEntry) :
    (reorderAtJump count es).length = es.length := by
  unfold reorderAtJump
  simp only
  have hmap := List.length_map (as := es) fun e => e.atJump count
  have hsplit := List.length_eq_length_filter_add (l := es.map fun e => e.atJump count) fun e => e.mark
  rw [List.length_append, sortByDistance_length]
  omega

theorem storesOk_adoptCount (c : Word32) {s : State} (h : StoresOk s) : StoresOk (adoptCount c s) := by
  unfold adoptCount
  simp only
  split
  · refine storesOk_handOff .b (storesOk_handOff .a ⟨?_, h.2⟩)
    show (s.timed.map _).length ≤ 16
    rw [List.length_map]
    exact h.1
  · refine storesOk_handOff .b (storesOk_handOff .a ⟨?_, h.2⟩)
    show (reorderAtJump c s.timed).length ≤ 16
    rw [reorderAtJump_length]
    exact h.1

theorem storesOk_enterTimed (e : TimedEntry) (late : Bool) {s : State} (h : StoresOk s) :
    StoresOk (enterTimed e late s).state := by
  unfold enterTimed
  split
  · exact storesOk_of_onlyVoices (raise_onlyFaults ..).toVoices h
  · rename_i room
    have hin : StoresOk (handOff e.lead { s with timed := insertEntry s.ltu.count e s.timed }) := by
      refine storesOk_handOff _ ⟨?_, h.2⟩
      show (insertEntry _ _ _).length ≤ 16
      rw [insertEntry_length]
      exact Nat.not_le.1 room
    cases late
    · exact hin
    · exact storesOk_of_onlyVoices (raise_onlyFaults ..).toVoices hin

theorem storesOk_request {s t : State} (m : RequestMove s t) (h : StoresOk s) : StoresOk t := by
  cases m with
  | loading l size => exact ⟨h.1, size⟩
  | tuned _ _ _ _ | mapped _ _ _ _ | staged _ _ _ _ => exact ⟨h.1, nofun⟩
  | pended L c => exact storesOk_of_onlyPedals (CueLaws.setPending_onlyPedals ..) h
  | late L => exact storesOk_of_onlyVoices (raise_onlyFaults ..).toVoices h
  | entered e late valid => exact storesOk_enterTimed e late h
  | flushed L => exact ⟨Nat.le_trans (List.length_filter_le ..) h.1, h.2⟩
  | fixedGateway g enabled n high =>
    have hset (x : Gateway) : StoresOk (s.setGateway g x) := h
    unfold handOffAfterSet
    repeat' split
    · exact storesOk_handOff _ (hset _)
    · exact storesOk_handOff _ (hset _)
    · exact hset _
  | threshold L n => cases L <;> exact h
  | cleared ks => exact storesOk_of_onlyVoices (clearKinds_onlyFaults ..).toVoices h
  | setup ks detect report sev => exact storesOk_of_onlyVoices (setupKinds_onlyFaults ..).toVoices h
  | engineReset => exact ⟨Nat.zero_le 16, nofun⟩
  | unchanged | configured _ _ _ _ _ | pedalGateway _ _ _ _ _ | counters _ => exact h

theorem storesOk_markDue (k : Nat) {s : State} (h : StoresOk s) : StoresOk (markDue k s) := by
  unfold markDue
  repeat' split
  · refine storesOk_handOff _ ⟨?_, h.2⟩
    show (s.timed.set k _).length ≤ 16
    rw [List.length_set]
    exact h.1
  · exact h
  · exact h

theorem storesOk_blockParts : KeptByBlockParts StoresOk where
  frame h e _ := storesOk_congr (congrArg State.timed e :) (congrArg State.load e :) h
  raise _ _ _ h := storesOk_of_onlyVoices (raise_onlyFaults ..).toVoices h
  offer _ _ h := storesOk_of_onlyVoices (offerNotice_onlyFaults ..).toVoices h
  record L _ _ _ h := by cases L <;> exact h
  clearPending _ _ h := h
  handOff L _ h := storesOk_handOff L h
  release _ _ h := storesOk_of_onlyVoices (releaseVoice_onlyVoices ..) h
  reassign _ _ _ h := storesOk_of_onlyVoices (reassignVoice_onlyVoices ..) h
  assign _ _ _ _ _ h := storesOk_of_onlyVoices (assignVoice_onlyVoices ..) h
  fall _ _ h := storesOk_of_onlyVoices (fallToIdle_onlyVoices ..) h
  retarget _ _ _ h := storesOk_of_onlyVoices (retargetVoice_onlyVoices ..) h

theorem storesOk_keptByParts : KeptByParts StoresOk where
  frame h e := storesOk_congr (congrArg State.timed e :) (congrArg State.load e :) h
  reset := ⟨Nat.zero_le 16, nofun⟩
  engineReset _ := ⟨Nat.zero_le 16, nofun⟩
  adoptCount c _ h := storesOk_adoptCount c h
  samples _ _ h := h
  raise _ _ _ h := storesOk_of_onlyVoices (raise_onlyFaults ..).toVoices h
  voiceWork _ _ h := storesOk_of_onlyVoices (voiceWork_onlyVoices ..) h
  pedalWork _ _ _ h := storesOk_of_onlyPedals (CueLaws.pedalWork_onlyPedals ..) h
  blockWork ls L _ h := blockWork_keeps storesOk_blockParts ls L h
  execute kind r s h := storesOk_request (executeKind_move kind r s) h
  endCrossfade _ _ h := storesOk_of_onlyVoices (endCrossfade_onlyVoices ..) h
  endRise _ _ h := storesOk_of_onlyVoices (endRise_onlyVoices ..) h
  finishFall _ _ h := storesOk_of_onlyVoices (finishFall_onlyVoices ..) h
  reachDebounce _ _ h := storesOk_of_onlyPedals (CueLaws.reachDebounce_onlyPedals ..) h
  reachStuck _ _ h := storesOk_of_onlyPedals (CueLaws.reachStuck_onlyPedals ..) h
  markDue k _ h := storesOk_markDue k h
  handOff L _ h := storesOk_handOff L h

theorem queuesBounded_iff (s : State) : QueuesBounded s ↔ Bounded s ∧ StoresOk s := by
  constructor
  · rintro ⟨hl, hn, hf, hm, ht, hload, ha⟩
    exact ⟨⟨⟨hl, hn⟩, hf, hm, ha⟩, ht, hload⟩
  · rintro ⟨⟨⟨hl, hn⟩, hf, hm, ha⟩, ht, hload⟩
    exact ⟨hl, hn, hf, hm, ht, hload, ha⟩

/-- Settles O51: a notice, a reservation, a captured message and a timed entry each enter only where there is room,
and a buffer longer than its size is refused. -/
theorem stepKeepsQueuesBounded : Obligations.StepKeepsQueuesBounded := by
  intro s t h e
  rw [queuesBounded_iff] at h ⊢
  exact ⟨(step_queueStep e).1 h.1, step_keeps storesOk_keptByParts h.2 e⟩

end Sys2Proof.Proofs.Queues
end

