-- ==== Sys2Proof/Proofs/Operands.lean ====
section
/-! PROOF. What the fields of a request body read as (R128, R187, R188), and from it the cue bytes. -/

namespace Sys2Proof.Proofs.Operands

open Sys2Proof Sys2Proof.Machine Sys2Proof.Safety

/-! ### Indexes and leads -/

theorem finOf_eq_some {n x : Nat} {i : Fin n} : finOf n x = some i ↔ x = i.val := by
  unfold finOf
  split
  next h =>
    rw [Option.some.injEq]
    exact ⟨fun e => by rw [← e], fun e => Fin.ext e⟩
  next h =>
    have hi := i.isLt
    exact ⟨fun e => (nomatch e), fun e => by omega⟩

theorem finOf_eq_none {n x : Nat} : finOf n x = none ↔ n ≤ x := by
  unfold finOf
  split
  next h => exact ⟨fun e => (nomatch e), fun e => by omega⟩
  next h => exact ⟨fun _ => by omega, fun _ => rfl⟩

theorem finOf_of_lt {n x : Nat} (h : x < n) : finOf n x = some ⟨x, h⟩ := finOf_eq_some.2 rfl

theorem leadOfByte_code (L : Lead) : leadOfByte (match L with | .a => 0 | .b => 1) = some L := by
  cases L <;> rfl

theorem flaggedIndex_eq_none {n : Nat} {p : Bool} {b : Byte} :
    flaggedIndex n p b = none ↔ p = true ∧ n ≤ b.toNat := by
  cases p with
  | false => exact ⟨fun e => (nomatch e), fun e => (nomatch e.1)⟩
  | true =>
    show (finOf n b.toNat).map some = none ↔ _
    rw [Option.map_eq_none_iff, finOf_eq_none]
    exact ⟨fun h => ⟨rfl, h⟩, And.right⟩

/-- A value byte is checked behind its flag alone (R188). -/
theorem flaggedIndex_of_flag {n : Nat} {p : Bool} {b : Byte} (h : p = true → b.toNat < n) :
    ∃ x, flaggedIndex n p b = some x ∧ x.map Fin.val = if p then some b.toNat else none := by
  cases p with
  | false => exact ⟨none, rfl, rfl⟩
  | true => exact ⟨some ⟨b.toNat, h rfl⟩, by simp [flaggedIndex, finOf_of_lt (h rfl)], rfl⟩

/-! ### Load targets -/

theorem targetOfBytes_tuning (index : Byte) :
    targetOfBytes 0 index = (finOf 2 index.toNat).map .tuning := rfl

theorem targetOfBytes_map (index : Byte) : targetOfBytes 1 index = (finOf 16 index.toNat).map .map := rfl

theorem targetOfBytes_scene (index : Byte) :
    targetOfBytes 2 index = (finOf 32 index.toNat).map .scene := rfl

theorem targetOfBytes_eq_none {kind index : Byte}
    (h : 2 < kind.toNat ∨ (kind = 0 ∧ 2 ≤ index.toNat) ∨ (kind = 1 ∧ 16 ≤ index.toNat)
      ∨ (kind = 2 ∧ 32 ≤ index.toNat)) : targetOfBytes kind index = none := by
  obtain hkind | ⟨rfl, h⟩ | ⟨rfl, h⟩ | ⟨rfl, h⟩ := h
  · unfold targetOfBytes
    split <;> first | omega | rfl
  · rw [targetOfBytes_tuning, finOf_eq_none.2 h, Option.map_none]
  · rw [targetOfBytes_map, finOf_eq_none.2 h, Option.map_none]
  · rw [targetOfBytes_scene, finOf_eq_none.2 h, Option.map_none]

/-- A load target in the bytes that name it (R187). -/
def NamesTarget (kind index : Byte) : LoadTarget → Prop
  | .tuning i => kind = 0 ∧ index.toNat = i.val
  | .map i => kind = 1 ∧ index.toNat = i.val
  | .scene i => kind = 2 ∧ index.toNat = i.val

theorem targetOfBytes_of_names {kind index : Byte} {t : LoadTarget} (h : NamesTarget kind index t) :
    targetOfBytes kind index = some t := by
  cases t with
  | tuning i =>
    obtain ⟨rfl, hi⟩ := h
    rw [targetOfBytes_tuning, finOf_eq_some.2 hi, Option.map_some]
  | map i =>
    obtain ⟨rfl, hi⟩ := h
    rw [targetOfBytes_map, finOf_eq_some.2 hi, Option.map_some]
  | scene i =>
    obtain ⟨rfl, hi⟩ := h
    rw [targetOfBytes_scene, finOf_eq_some.2 hi, Option.map_some]

/-! ### Cues -/

/-- The byte of a chord argument: FF hexadecimal for an absent one (R188). -/
def IsChordArg {n : Nat} (b : Byte) : Option (Fin n) → Prop
  | some i => b.toNat = i.val
  | none => b = 255

theorem byte_eq_iff {b : Byte} {n : Nat} (h : n < 256) : b = BitVec.ofNat 8 n ↔ b.toNat = n := by
  constructor
  · rintro rfl
    exact Nat.mod_eq_of_lt h
  · intro e
    exact BitVec.eq_of_toNat_eq (e.trans (Nat.mod_eq_of_lt h).symm)

theorem chordArg_eq_none {n : Nat} {b : Byte} : chordArg n b = none ↔ n ≤ b.toNat ∧ b ≠ 255 := by
  have h255 : b = 255 ↔ b.toNat = 255 := byte_eq_iff (n := 255) (by omega)
  unfold chordArg
  rw [Ne, h255]
  split
  next h => simp [h]
  next h => rw [Option.map_eq_none_iff, finOf_eq_none]; simp [h]

theorem chordArg_eq_some {n : Nat} {b : Byte} {x : Option (Fin n)} (h : chordArg n b = some x) :
    IsChordArg b x := by
  unfold chordArg at h
  split at h
  next hb =>
    cases h
    exact (byte_eq_iff (n := 255) (by omega)).2 hb
  next hb =>
    obtain ⟨i, hi, rfl⟩ := Option.map_eq_some_iff.1 h
    exact finOf_eq_some.1 hi

theorem chordArg_eq_absent {n : Nat} {b : Byte} : chordArg n b = some none ↔ b = 255 := by
  refine ⟨fun h => chordArg_eq_some h, ?_⟩
  rintro rfl
  rfl

/-- A CHORD carries a key, a map or both (R128). -/
theorem cueOfBytes_chord (a b : Byte) :
    cueOfBytes 2 a b = match chordArg 12 a, chordArg 16 b with
      | some none, some none => none
      | some key, some map => some (.chord key map)
      | _, _ => none := rfl

theorem cueOfBytes_chord_eq_none {a b : Byte} :
    cueOfBytes 2#8 a b = none
      ↔ (12 ≤ a.toNat ∧ a ≠ 255) ∨ (16 ≤ b.toNat ∧ b ≠ 255) ∨ (a = 255 ∧ b = 255) := by
  show cueOfBytes 2 a b = none ↔ _
  rw [cueOfBytes_chord, ← chordArg_eq_none (n := 12), ← chordArg_eq_none (n := 16),
    ← chordArg_eq_absent (n := 12), ← chordArg_eq_absent (n := 16) (b := b)]
  cases chordArg 12 a with
  | none => simp
  | some key => cases chordArg 16 b with
    | none => cases key <;> simp
    | some map => cases key <;> cases map <;> simp

theorem cueOfBytes_chord_eq_some {a b : Byte} {c : Cue} (h : cueOfBytes 2 a b = some c) :
    ∃ key map, c = .chord key map ∧ IsChordArg a key ∧ IsChordArg b map := by
  rw [cueOfBytes_chord] at h
  split at h
  · cases h
  next key map _ hkey hmap =>
    cases h
    exact ⟨key, map, rfl, chordArg_eq_some hkey, chordArg_eq_some hmap⟩
  · cases h

theorem cueOfBytes_scene (a b : Byte) : cueOfBytes 0#8 a b = (finOf 32 a.toNat).map .scene := rfl

theorem cueOfBytes_of_seven_le {k : Byte} (h : 7 ≤ k.toNat) (a b : Byte) : cueOfBytes k a b = none := by
  unfold cueOfBytes
  split <;> first | omega | rfl

/-- The kind byte of a cue (R187). -/
theorem kind_of_lt_seven {k : Byte} (h : k.toNat < 7) :
    k = 0 ∨ k = 1 ∨ k = 2 ∨ k = 3 ∨ k = 4 ∨ k = 5 ∨ k = 6 := by
  bv_omega

/-- Settles O42, by the kind byte. -/
theorem cueBytes : Obligations.CueBytes := by
  intro k a b
  by_cases hk : 7 ≤ k.toNat
  · have hne : ∀ n : Nat, n < 7 → k ≠ BitVec.ofNat 8 n := fun n hn e => by
      rw [byte_eq_iff (by omega)] at e; omega
    have h0 := hne 0 (by omega); have h1 := hne 1 (by omega); have h2 := hne 2 (by omega)
    have h3 := hne 3 (by omega); have h4 := hne 4 (by omega); have h5 := hne 5 (by omega)
    have h6 := hne 6 (by omega)
    simp_all [cueOfBytes_of_seven_le hk]
  · obtain rfl | rfl | rfl | rfl | rfl | rfl | rfl := kind_of_lt_seven (not_le.1 hk)
    · simp [cueOfBytes_scene, finOf_eq_none, finOf_eq_some]
    · simp [cueOfBytes]
    · have hchord : ∀ c, cueOfBytes 2 a b = some c → ∃ key map, c = .chord key map :=
        fun c h => let ⟨key, map, e, _⟩ := cueOfBytes_chord_eq_some h; ⟨key, map, e⟩
      refine ⟨by simpa using cueOfBytes_chord_eq_none, fun n => ?_, ?_, ?_, ?_, ?_, ?_, fun key map h => ?_⟩
      · exact ⟨fun h => by simpa using hchord _ h, fun h => by simp at h⟩
      · exact ⟨fun h => by simpa using hchord _ h, fun h => by simp at h⟩
      · exact ⟨fun h => by simpa using hchord _ h, fun h => by simp at h⟩
      · exact ⟨fun h => by simpa using hchord _ h, fun h => by simp at h⟩
      · exact ⟨fun h => by simpa using hchord _ h, fun h => by simp at h⟩
      · exact ⟨fun h => by simpa using hchord _ h, fun h => by simp at h⟩
      · obtain ⟨key', map', e, hkey, hmap⟩ := cueOfBytes_chord_eq_some h
        cases e
        exact ⟨rfl, by cases key <;> exact hkey, by cases map <;> exact hmap⟩
    · simp [cueOfBytes]
    · simp [cueOfBytes]
    · simp [cueOfBytes]
    · simp [cueOfBytes]

end Sys2Proof.Proofs.Operands
end

