-- ==== Sys2Proof/Proofs/Occurrences.lean ====
section
/-! PROOF. What an occurrence does (R95, R99, R151 to R156): the kind's record, the pointer, the voices in scope,
the counters, and the notice or its drop. -/

namespace Sys2Proof.Proofs.Occurrences

open Sys2Proof Sys2Proof.Machine Sys2Proof.Safety Sys2Proof.Proofs.VoiceLaws

/-! ### Counted events -/

/-- The counters that select the code stand as they stood (R162). -/
def CodeKept (code : Nat) (s t : State) : Prop :=
  ∀ i : Fin 4, (s.counters[i]).selector = code → t.counters[i] = s.counters[i]

theorem CodeKept.refl (code : Nat) (s : State) : CodeKept code s s := fun _ _ => rfl

theorem CodeKept.trans {code : Nat} {s t u : State} (h : CodeKept code s t) (k : CodeKept code t u) :
    CodeKept code s u := fun i hi =>
  (k i (by rw [h i hi]; exact hi)).trans (h i hi)

theorem CodeKept.of_counters {code : Nat} {s t : State} (h : t.counters = s.counters) : CodeKept code s t :=
  fun i _ => by rw [h]

theorem countEvent_counter (e : Event) (s : State) (i : Fin 4) :
    (countEvent e s).counters[i] = (s.counters[i]).after (eventCode e) := by
  simp [countEvent]

theorem after_of_ne {c : Counter} {code : Nat} (h : c.selector ≠ code) : c.after code = c := by
  simp [Counter.after, h]

theorem after_selector (c : Counter) (code : Nat) : (c.after code).selector = c.selector := by
  unfold Counter.after
  split <;> rfl

theorem countEvent_codeKept {e : Event} {code : Nat} (h : eventCode e ≠ code) (s : State) :
    CodeKept code s (countEvent e s) := fun i hi => by
  rw [countEvent_counter, after_of_ne (by rw [hi]; exact h.symm)]

/-! ### The transition from clear to set -/

/-- The state behind a transition from clear to set, before its notice (R152, steps 1 to 3). -/
def opened (k : FaultKind) (sc : Scope) (s : State) : State :=
  setKind k sc (countEvent .faultOccurrence s)

theorem raise_set {k : FaultKind} {s : State} (hmask : (s.fault k).detectMask = false)
    (hset : (s.fault k).status = true) (sc : Scope) : raise k sc s = countEvent .faultOccurrence s := by
  simp [raise, occur, hmask, hset]

theorem raise_opens {k : FaultKind} {s : State} (hmask : (s.fault k).detectMask = false)
    (hclear : (s.fault k).status = false) (sc : Scope) :
    raise k sc s = if (s.fault k).reportMask then opened k sc s
      else offerNotice (faultNotice k sc (opened k sc s)) (opened k sc s) := by
  simp [raise, occur, hmask, hclear, opened]

theorem opened_fault (k j : FaultKind) (sc : Scope) (s : State) :
    (opened k sc s).fault j = if j = k then { s.fault k with status := true } else s.fault j :=
  setKind_fault k j sc _

theorem opened_fault_ne {k j : FaultKind} (h : j ≠ k) (sc : Scope) (s : State) :
    (opened k sc s).fault j = s.fault j := by
  rw [opened_fault, if_neg h]

theorem opened_pointer (k : FaultKind) (sc : Scope) (s : State) :
    (opened k sc s).pointer = match s.pointer with | some p => some p | none => some k :=
  (setKind_records k sc _).2.1

theorem opened_counters (k : FaultKind) (sc : Scope) (s : State) :
    (opened k sc s).counters = s.counters.map fun c => c.after 13 :=
  (setKind_records k sc _).2.2.1

theorem opened_outq (k : FaultKind) (sc : Scope) (s : State) : (opened k sc s).outq = s.outq :=
  (setKind_records k sc _).2.2.2

theorem opened_onlyFaults (k : FaultKind) (sc : Scope) (s : State) : OnlyFaults s (opened k sc s) :=
  (countEvent_onlyFaults .faultOccurrence s).trans (setKind_onlyFaults k sc _)

theorem opened_voices_of_notice {k : FaultKind} {s : State} (h : (s.fault k).severity = .notice) (sc : Scope) :
    (opened k sc s).voices = s.voices := by
  unfold opened
  rw [setKind_notice k sc (countEvent .faultOccurrence s) h]
  rfl

theorem opened_voices_none (k : FaultKind) (s : State) : (opened k .none s).voices = s.voices := by
  unfold opened
  cases h : (s.fault k).severity with
  | notice => rw [setKind_notice k _ (countEvent .faultOccurrence s) h]; rfl
  | mute => rw [setKind_mute k _ (countEvent .faultOccurrence s) h]; rfl

/-- A mute reaches each voice of the list once (R99). -/
theorem muteVoices_voice (k : FaultKind) (v : VoiceId) : ∀ (vs : List VoiceId) (s : State), vs.Nodup →
    (vs.foldl (muteVoice k) s).voice v =
      if v ∈ vs then (s.voice v).mutedBy k (rampIncrement s (s.voice v).owner) else s.voice v
  | [], s, _ => rfl
  | w :: vs, s, h => by
    obtain ⟨hw, hvs⟩ := List.nodup_cons.1 h
    rw [List.foldl_cons, muteVoices_voice k v vs _ hvs]
    by_cases e : v = w
    · subst e
      rw [if_neg hw, if_pos List.mem_cons_self]
      exact State.voice_setVoice ..
    · have hv : (muteVoice k s w).voice v = s.voice v := State.voice_setVoice_ne _ _ _ _ (Ne.symm e)
      simp only [hv, List.mem_cons, e, false_or]
      rfl

/-- The voices a scope names are reached once, as the scope says (R151). -/
theorem mem_inScope (sc : Scope) (s : State) (v : VoiceId) :
    v ∈ inScope sc s ↔ voiceInScope sc s v = true := by
  cases sc with
  | none => simp [inScope, voiceInScope]
  | device => simp [inScope, voiceInScope, mem_allVoices]
  | lead L => simp [inScope, voiceInScope, mem_allVoices]
  | voices vs slot => simp [inScope, voiceInScope]

theorem allVoices_nodup : allVoices.Nodup := by decide

theorem inScope_nodup {sc : Scope} (h : ∀ vs slot, sc = .voices vs slot → vs.Nodup) (s : State) :
    (inScope sc s).Nodup := by
  cases sc with
  | none => exact List.nodup_nil
  | device => unfold inScope; exact allVoices_nodup.filter _
  | lead L => unfold inScope; exact allVoices_nodup.filter _
  | voices vs slot => exact h vs slot rfl

theorem opened_voice_of_mute {k : FaultKind} {s : State} {sc : Scope}
    (hsc : ∀ vs slot, sc = .voices vs slot → vs.Nodup) (h : (s.fault k).severity = .mute) (v : VoiceId) :
    (opened k sc s).voice v = if voiceInScope sc s v then
        (s.voice v).mutedBy k (rampIncrement s (s.voice v).owner) else s.voice v := by
  have hmem : v ∈ inScope sc (kindSet k (countEvent .faultOccurrence s)) ↔ voiceInScope sc s v = true := by
    rw [mem_inScope]
    cases sc <;> rfl
  unfold opened
  rw [setKind_mute k sc (countEvent .faultOccurrence s) h, muteVoices_voice k v _ _ (inScope_nodup hsc _)]
  simp only [hmem]
  rfl

/-! ### The notice and its drop -/

theorem noticeRoom_iff (q : List OutItem) :
    noticeRoom q = true ↔ q.length < 8 ∧ q.countP OutItem.isNotice < 7 := by
  simp [noticeRoom, Config.queueSize, Config.noticeLimit]

theorem noticeRoom_eq_false (q : List OutItem) :
    noticeRoom q = false ↔ 8 ≤ q.length ∨ 7 ≤ q.countP OutItem.isNotice := by
  rw [← Bool.not_eq_true, noticeRoom_iff]
  omega

theorem offerNotice_room {s : State} (h : noticeRoom s.outq = true) (m : Message) :
    offerNotice m s = enqueue (.notice m) s := by
  simp [offerNotice, h]

theorem offerSilently_full {s : State} (h : noticeRoom s.outq = false) (m : Message) :
    offerSilently m s = s := by
  simp [offerSilently, h]

/-- What a notice that finds no room leaves: NOTICE_DROP, unless masked, and no message (R155, R156). -/
structure Dropped (s t : State) : Prop where
  frame : t = { s with faults := t.faults, pointer := t.pointer, counters := t.counters }
  others : ∀ j, j ≠ .noticeDrop → t.fault j = s.fault j
  pointer : ∀ p, s.pointer = some p → t.pointer = some p
  kept : ∀ code, code ≠ 13 → CodeKept code s t
  sets : (s.fault .noticeDrop).detectMask = false → (t.fault .noticeDrop).status = true
  grows : StatusGrows s t

theorem offerNotice_full {s : State} (h : noticeRoom s.outq = false) (m : Message) :
    Dropped s (offerNotice m s) := by
  have hgrows := offerNotice_statusGrows m s
  have hdrop : offerNotice m s = occur .noticeDrop .none offerSilently s := by simp [offerNotice, h]
  rw [hdrop] at hgrows ⊢
  cases hmask : (s.fault .noticeDrop).detectMask with
  | true =>
    have same : occur .noticeDrop .none offerSilently s = s := by simp [occur, hmask]
    rw [same]
    exact ⟨rfl, fun _ _ => rfl, fun _ hp => hp, fun _ _ => .refl _ _, fun e => (nomatch hmask.symm.trans e),
      fun _ => ⟨id, rfl, rfl, rfl⟩⟩
  | false =>
    cases hset : (s.fault .noticeDrop).status with
    | true =>
      have counted : occur .noticeDrop .none offerSilently s = countEvent .faultOccurrence s := by
        simp [occur, hmask, hset]
      rw [counted]
      exact ⟨rfl, fun _ _ => rfl, fun _ hp => hp, fun code hc => countEvent_codeKept (e := .faultOccurrence) hc.symm s,
        fun _ => hset, fun _ => ⟨id, rfl, rfl, rfl⟩⟩
    | false =>
      have hfull : noticeRoom (opened .noticeDrop .none s).outq = false := by rw [opened_outq]; exact h
      have silent : occur .noticeDrop .none offerSilently s = opened .noticeDrop .none s := by
        have dropped := offerSilently_full hfull
        unfold opened at dropped
        simp [occur, hmask, hset, opened, dropped]
      rw [silent] at hgrows ⊢
      refine ⟨?_, fun j hj => opened_fault_ne hj _ _, fun p hp => by rw [opened_pointer, hp],
        fun code hc i hi => ?_, fun _ => by rw [opened_fault, if_pos rfl], hgrows⟩
      · calc opened .noticeDrop .none s
            = { s with voices := (opened .noticeDrop .none s).voices
                       faults := (opened .noticeDrop .none s).faults
                       pointer := (opened .noticeDrop .none s).pointer
                       counters := (opened .noticeDrop .none s).counters
                       outq := (opened .noticeDrop .none s).outq } :=
              (opened_onlyFaults .noticeDrop .none s).eq
          _ = _ := by rw [opened_voices_none, opened_outq]
      · rw [opened_counters]
        simpa using after_of_ne (hi.trans_ne hc)

/-! ### Frames of an occurrence -/

theorem offerNotice_codeKept (m : Message) {code : Nat} (hc : code ≠ 13) (s : State) :
    CodeKept code s (offerNotice m s) := by
  cases h : noticeRoom s.outq with
  | true => rw [offerNotice_room h]; exact .of_counters rfl
  | false => exact (offerNotice_full h m).kept code hc

theorem opened_codeKept {code : Nat} (hc : code ≠ 13) (k : FaultKind) (sc : Scope) (s : State) :
    CodeKept code s (opened k sc s) := fun i hi => by
  rw [opened_counters]
  simpa using after_of_ne (hi.trans_ne hc)

/-- An occurrence counts events of code 13 alone (R163). -/
theorem raise_codeKept (k : FaultKind) (sc : Scope) {code : Nat} (hc : code ≠ 13) (s : State) :
    CodeKept code s (raise k sc s) := by
  cases hmask : (s.fault k).detectMask with
  | true => rw [raise_masked k sc s hmask]; exact .refl _ _
  | false =>
    cases hset : (s.fault k).status with
    | true => rw [raise_set hmask hset]; exact countEvent_codeKept (e := .faultOccurrence) hc.symm s
    | false =>
      rw [raise_opens hmask hset]
      split
      · exact opened_codeKept hc k sc s
      · exact (opened_codeKept hc k sc s).trans (offerNotice_codeKept _ hc _)

theorem offerNotice_voices (m : Message) (s : State) : (offerNotice m s).voices = s.voices := by
  cases h : noticeRoom s.outq with
  | true => rw [offerNotice_room h]; rfl
  | false => rw [(offerNotice_full h m).frame]

/-- The voices an occurrence leaves are those the transition to set leaves, if there is one (R152). -/
theorem raise_voices (k : FaultKind) (sc : Scope) (s : State) :
    (raise k sc s).voices =
      if (s.fault k).detectMask = false ∧ (s.fault k).status = false then (opened k sc s).voices
      else s.voices := by
  cases hmask : (s.fault k).detectMask with
  | true => rw [raise_masked k sc s hmask]; rfl
  | false =>
    cases hset : (s.fault k).status with
    | true => rw [raise_set hmask hset]; rfl
    | false =>
      rw [raise_opens hmask hset]
      simp only [and_self, if_true]
      split
      · rfl
      · rw [offerNotice_voices]

theorem raise_voices_none (k : FaultKind) (s : State) : (raise k .none s).voices = s.voices := by
  rw [raise_voices, opened_voices_none, ite_self]

theorem offerNotice_fault_ne (m : Message) {j : FaultKind} (hj : j ≠ .noticeDrop) (s : State) :
    (offerNotice m s).fault j = s.fault j := by
  cases h : noticeRoom s.outq with
  | true => rw [offerNotice_room h]; rfl
  | false => exact (offerNotice_full h m).others j hj

/-- An occurrence writes no record but its kind's and NOTICE_DROP's (R152, R156). -/
theorem raise_fault_ne {k j : FaultKind} (hk : j ≠ k) (hj : j ≠ .noticeDrop) (sc : Scope) (s : State) :
    (raise k sc s).fault j = s.fault j := by
  cases hmask : (s.fault k).detectMask with
  | true => rw [raise_masked k sc s hmask]
  | false =>
    cases hset : (s.fault k).status with
    | true => rw [raise_set hmask hset]; rfl
    | false =>
      rw [raise_opens hmask hset]
      split
      · exact opened_fault_ne hk sc s
      · rw [offerNotice_fault_ne _ hj, opened_fault_ne hk]

theorem offerNotice_outq_full {s : State} (h : noticeRoom s.outq = false) (m : Message) :
    (offerNotice m s).outq = s.outq := by
  rw [(offerNotice_full h m).frame]

theorem raise_outq_full {s : State} (h : noticeRoom s.outq = false) (k : FaultKind) (sc : Scope) :
    (raise k sc s).outq = s.outq := by
  cases hmask : (s.fault k).detectMask with
  | true => rw [raise_masked k sc s hmask]
  | false =>
    cases hset : (s.fault k).status with
    | true => rw [raise_set hmask hset]; rfl
    | false =>
      have hopened : noticeRoom (opened k sc s).outq = false := by rw [opened_outq]; exact h
      rw [raise_opens hmask hset]
      split
      · exact opened_outq k sc s
      · rw [offerNotice_outq_full hopened, opened_outq]

/-! ### The statement -/

theorem scopeItem_eq (sc : Scope) : scopeItem sc = scopeItemByte sc := by
  cases sc with
  | lead L => cases L <;> rfl
  | none => rfl
  | device => rfl
  | voices vs slot => rfl

/-- The notice of an occurrence (R155, R190). -/
theorem faultNotice_eq {s u : State} (h : OnlyFaults s u) (k : FaultKind) (sc : Scope) :
    faultNotice k sc u = { dest := 0, source := s.nodeAddr, kind := 0x60, tag := 0
                           body := [BitVec.ofNat 8 (faultCode k).val, scopeItemByte sc] ++ bytes4 s.ltu.count } := by
  unfold faultNotice noticeMessage
  rw [scopeItem_eq, h.nodeAddr, h.ltu]
  rfl

theorem faultRecord_eq {f g : FaultRecord} (hstatus : f.status = true) (hdetect : f.detectMask = g.detectMask)
    (hreport : f.reportMask = g.reportMask) (hseverity : f.severity = g.severity) :
    f = { g with status := true } := by
  cases f
  simp_all

theorem mutedBy_by_state (x : Voice) (k : FaultKind) (inc : Nat) :
    let joined := { x with faults := if k ∈ x.faults then x.faults else x.faults ++ [k] }
    (x.state = .off → x.mutedBy k inc = x)
    ∧ (x.state = .idle → x.mutedBy k inc = { joined with state := .muted })
    ∧ (x.state = .rising ∨ x.state = .sounding →
      (x.envelope ≠ 0 → x.mutedBy k inc =
        { joined with state := .falling, dest := .muted, increment := inc })
      ∧ (x.envelope = 0 → x.mutedBy k inc =
        { joined with state := .muted, dest := .muted, increment := inc, crossfade := none }))
    ∧ (x.state = .falling → x.mutedBy k inc = { joined with dest := .muted })
    ∧ (x.state = .muted → x.mutedBy k inc = joined) := by
  refine ⟨fun h => ?_, fun h => ?_, fun h => ⟨fun he => ?_, fun he => ?_⟩, fun h => ?_, fun h => ?_⟩
  · simp [Voice.mutedBy, h]
  · simp [Voice.mutedBy, h, addFault]
  · obtain h | h := h <;> simp [Voice.mutedBy, h, he, addFault]
  · obtain h | h := h <;> simp [Voice.mutedBy, h, he, addFault]
  · simp [Voice.mutedBy, h, addFault]
  · simp [Voice.mutedBy, h, addFault]

/-- Settles O27: masked, set and clear are the three branches of an occurrence; behind the transition to set its
notice finds room or NOTICE_DROP occurs. -/
theorem occurrenceTaken : Obligations.OccurrenceTaken := by
  refine ⟨fun k sc s hsc => ⟨raise_masked k sc s, fun hmask hset => raise_set hmask hset sc,
    fun hmask hset => ?_⟩, fun x => by cases x <;> simp [OutItem.isNotice], mutedBy_by_state⟩
  have hraise := raise_opens hmask hset sc
  have hvoices : (raise k sc s).voices = (opened k sc s).voices := by
    rw [raise_voices, if_pos ⟨hmask, hset⟩]
  have hfault : (raise k sc s).fault k = { s.fault k with status := true } := by
    obtain ⟨-, hdetect, hreport, hseverity⟩ := raise_statusGrows k sc s k
    exact faultRecord_eq (raise_sets k sc s hmask) hdetect hreport hseverity
  have hpointer : (raise k sc s).pointer = (opened k sc s).pointer := by
    rw [hraise]
    split
    · rfl
    · cases h : noticeRoom (opened k sc s).outq with
      | true => rw [offerNotice_room h]; rfl
      | false =>
        cases hp : (opened k sc s).pointer with
        | some p => exact (offerNotice_full h _).pointer p hp
        | none => rw [opened_pointer] at hp; split at hp <;> cases hp
  have notOffered (h : (s.fault k).reportMask = true) : raise k sc s = opened k sc s := by
    rw [hraise, if_pos h]
  have offered (h : (s.fault k).reportMask = false) :
      raise k sc s = offerNotice (faultNotice k sc (opened k sc s)) (opened k sc s) := by
    rw [hraise, if_neg (by simp [h])]
  have room (h : s.outq.length < 8 ∧ s.outq.countP OutItem.isNotice < 7) (m : Message) :
      offerNotice m (opened k sc s) = enqueue (.notice m) (opened k sc s) :=
    offerNotice_room (by rw [opened_outq]; exact (noticeRoom_iff _).2 h) m
  refine ⟨(raise_onlyFaults k sc s).eq, hfault, hpointer.trans (opened_pointer k sc s),
    fun h => hvoices.trans (opened_voices_of_notice h sc), fun h v => ?_, fun h => ?_,
    fun h => by rw [notOffered h, opened_outq], fun h hl hn => ?_, fun h hfull => ?_⟩
  · rw [State.voice, hvoices]
    exact opened_voice_of_mute hsc h v
  · have rest : (raise k sc s).faults = (opened k sc s).faults
        ∧ (raise k sc s).counters = (opened k sc s).counters := by
      cases hreport : (s.fault k).reportMask with
      | true => rw [notOffered hreport]; exact ⟨rfl, rfl⟩
      | false =>
        rw [offered hreport, room (h.resolve_left (by simp [hreport]))]
        exact ⟨rfl, rfl⟩
    refine ⟨fun j hj => ?_, rest.2.trans (opened_counters k sc s)⟩
    rw [State.fault, rest.1]
    exact opened_fault_ne hj sc s
  · rw [offered h, room ⟨hl, hn⟩, faultNotice_eq (opened_onlyFaults k sc s)]
    exact congrArg (· ++ _) (opened_outq k sc s)
  · have hroom : noticeRoom (opened k sc s).outq = false := by
      rw [opened_outq]; exact (noticeRoom_eq_false _).2 hfull
    have hdrop := offerNotice_full hroom (faultNotice k sc (opened k sc s))
    refine ⟨raise_outq_full (by rw [← opened_outq k sc]; exact hroom) k sc, fun hk hd => ?_⟩
    rw [offered h]
    exact hdrop.sets (by rw [opened_fault_ne (Ne.symm hk)]; exact hd)

end Sys2Proof.Proofs.Occurrences
end

