-- ==== Sys2Proof/Proofs/Answers.lean ====
section
/-! PROOF. A request command is taken by the act its kind byte names (R176), what each refusal leaves, and the
drop of a request that meets a full queue (R175). -/

namespace Sys2Proof.Proofs.Answers

open Sys2Proof Sys2Proof.Machine Sys2Proof.Safety Sys2Proof.Proofs.CueFlush
  Sys2Proof.Proofs.Occurrences

/-! ### A command by its kind byte -/

theorem exec_commandOf_known {kind : Byte} {k : ReqKind} (h : kindOfByte kind = some k) (r : Req) (s : State) :
    exec (commandOf kind r) s = whenReleased s (takeRequest (checked k (actOf k)) r s) := by
  unfold commandOf
  rw [h]
  cases k <;> rfl

theorem exec_unknownRequest {kind : Byte} (h : kindOfByte kind = none) (r : Req) (s : State) :
    exec (.unknownRequest kind r) s = whenReleased s (takeRequest (fun _ s => answer .unknown s) r s) := by
  show whenReleased s (match kindOfByte kind with | none => _ | some _ => s) = _
  rw [h]

theorem commandOf_unknown {kind : Byte} (h : kindOfByte kind = none) (r : Req) :
    commandOf kind r = .unknownRequest kind r := by
  unfold commandOf
  rw [h]

theorem executeKind_known {kind : Byte} {k : ReqKind} (h : kindOfByte kind = some k) :
    executeKind kind = checked k (actOf k) := by
  funext r s
  simp only [executeKind, h]

theorem executeKind_unknown {kind : Byte} (h : kindOfByte kind = none) :
    executeKind kind = fun _ s => answer .unknown s := by
  funext r s
  simp only [executeKind, h]

/-- Every request command is taken as `executeKind` says (R176). -/
theorem exec_commandOf (kind : Byte) (r : Req) (s : State) :
    exec (commandOf kind r) s = whenReleased s (takeRequest (executeKind kind) r s) := by
  cases h : kindOfByte kind with
  | none => rw [commandOf_unknown h, exec_unknownRequest h, executeKind_unknown h]
  | some k => rw [exec_commandOf_known h, executeKind_known h]

/-- An act that answers `u` where it is accepted leaves the device with that answer (R175, R176). -/
theorem whenReleased_answered {act : Req → State → Answer} {r : Req} {s u : State} {st : Status}
    {body : List Byte} (ha : Answerable r s) (hq : u.outq = s.outq)
    (hact : act r (reserved s) = { status := st, body := body, state := reserved u }) :
    whenReleased s (takeRequest act r s) = .next (answered r st body u) := by
  rw [whenReleased_of_released ha.1, takeRequest_answered ha hq hact]

/-- The same for a kind's act behind its length check. -/
theorem checked_answered {k : ReqKind} {act : Req → State → Answer} {r : Req} {s u : State} {st : Status}
    {body : List Byte} (ha : Answerable r s) (hlength : bodyLengthOk k r.body.length = true)
    (hq : u.outq = s.outq)
    (hact : act r (reserved s) = { status := st, body := body, state := reserved u }) :
    whenReleased s (takeRequest (checked k act) r s) = .next (answered r st body u) :=
  whenReleased_answered ha hq ((checked_of_bodyLengthOk hlength act _).trans hact)

/-- The reply takes the place reserved before the execution, whatever the act queues behind it (R175, R176). -/
theorem takeRequest_replied {act : Req → State → Answer} {r : Req} {s : State} (ha : Answerable r s)
    (hact : OnlyRequest (reserved s) (act r (reserved s)).state) :
    takeRequest act r s = { (act r (reserved s)).state with
      outq := (act r (reserved s)).state.outq.set s.outq.length (.reply
        { dest := r.source, source := s.nodeAddr, kind := statusByte (act r (reserved s)).status, tag := r.tag
          body := (act r (reserved s)).body }) } := by
  obtain ⟨-, hbroadcast, hroom, hfree⟩ := ha
  obtain ⟨new, hnew⟩ := hact.queue
  have hqueue : (act r (reserved s)).state.outq = s.outq ++ .reservation :: new := by
    rw [← hnew]; simp [reserved]
  rw [takeRequest_room act r s hbroadcast hroom, enqueue_countEvent_accepted,
    finishRequest_reply r _ s.outq new hbroadcast hfree hqueue, hqueue, List.set_append_right _ _ le_rfl,
    Nat.sub_self, List.set_cons_zero, replyMessage, hact.nodeAddr]
  rfl

/-- The place of the reply (R175). -/
theorem replied_place {q q' : List OutItem} (h : q.length < q'.length) (x : OutItem) :
    (q'.set q.length x)[q.length]? = some x := by
  simp [h]

/-! ### A full queue -/

/-- Settles O32: the request is counted and REQUEST_DROP raised, and an occurrence of scope NONE with no voice to
mute writes the Fault Unit alone. -/
theorem fullQueueDropsRequest : Obligations.FullQueueDropsRequest := by
  intro kind r s hlow hbroadcast hfull
  have htaken : exec (commandOf kind r) s
      = .next (raise .requestDrop .none (countEvent .accepted s)) := by
    rw [exec_commandOf, whenReleased_of_released hlow, takeRequest_full _ _ _ hbroadcast hfull]
  have hroom : noticeRoom (countEvent .accepted s).outq = false := (noticeRoom_eq_false _).2 (.inl hfull)
  have hframe := (raise_onlyFaults .requestDrop .none (countEvent .accepted s)).eq
  rw [raise_voices_none, raise_outq_full hroom] at hframe
  refine ⟨_, htaken, hframe, rfl, fun i hi => ?_, fun hmask => raise_sets _ _ _ hmask⟩
  have hselector : ((countEvent .accepted s).counters[i]).selector = (s.counters[i]).selector := by
    rw [countEvent_counter, after_selector]
  rw [raise_codeKept .requestDrop .none hi _ i hselector, countEvent_counter]
  rfl

/-! ### Refusals -/

/-- An act that leaves the state alone, with an empty body, unless it answers DONE. -/
def RefusesPlainly (a : Answer) (s : State) : Prop := a.status ≠ .done → a.body = [] ∧ a.state = s

theorem RefusesPlainly.refused (st : Status) (s : State) : RefusesPlainly (answer st s) s :=
  fun _ => ⟨rfl, rfl⟩

theorem RefusesPlainly.done {a : Answer} {s : State} (h : a.status = .done) : RefusesPlainly a s :=
  fun e => absurd h e

theorem RefusesPlainly.ite {a b : Answer} {s : State} (c : Bool) (ha : RefusesPlainly a s)
    (hb : RefusesPlainly b s) : RefusesPlainly (if c then a else b) s := by
  cases c with
  | true => exact ha
  | false => exact hb

theorem actOf_refusesPlainly {k : ReqKind} (hcommit : k ≠ .loadCommit) (hcue : k ≠ .cueAt) (r : Req)
    (s : State) : RefusesPlainly (actOf k r s) s := by
  cases k with
  | loadCommit => exact absurd rfl hcommit
  | cueAt => exact absurd rfl hcue
  | identify => exact .done rfl
  | readConfig => exact .done rfl
  | readState => exact .done rfl
  | readFaults => exact .done rfl
  | readCounters => exact .done rfl
  | engineReset => exact .done rfl
  | readCap =>
    show RefusesPlainly (actReadCap r s) s
    unfold actReadCap
    simp only
    split
    · exact .done rfl
    · exact .refused _ _
  | configure =>
    show RefusesPlainly (actConfigure r s) s
    unfold actConfigure
    split
    · exact .refused _ _
    · exact .ite _ (.refused _ _) (.done rfl)
  | loadBegin =>
    show RefusesPlainly (actLoadBegin r s) s
    unfold actLoadBegin
    split
    · exact .refused _ _
    · split
      · exact .refused _ _
      · exact .done rfl
  | loadData =>
    show RefusesPlainly (actLoadData r s) s
    unfold actLoadData
    split
    · exact .refused _ _
    · split
      · exact .refused _ _
      · exact .done rfl
  | loadAbort =>
    show RefusesPlainly (actLoadAbort r s) s
    unfold actLoadAbort
    split
    · exact .refused _ _
    · exact .done rfl
  | readTable =>
    show RefusesPlainly (actReadTable r s) s
    unfold actReadTable
    simp only
    split
    · exact .refused _ _
    · split
      · exact .refused _ _
      · exact .done rfl
  | cueNow =>
    show RefusesPlainly (actCueNow r s) s
    unfold actCueNow
    split
    · split
      · exact .done rfl
      · exact .refused _ _
    · exact .refused _ _
  | cueFlush =>
    show RefusesPlainly (actCueFlush r s) s
    unfold actCueFlush
    split
    · exact .done rfl
    · exact .refused _ _
  | gatewaySet =>
    show RefusesPlainly (actGatewaySet r s) s
    unfold actGatewaySet
    split
    · exact .refused _ _
    · split
      · split
        · exact .refused _ _
        · exact .done rfl
      · exact .done rfl
  | portSet =>
    show RefusesPlainly (actPortSet r s) s
    unfold actPortSet
    split
    · exact .done rfl
    · exact .refused _ _
  | faultClear =>
    show RefusesPlainly (actFaultClear r s) s
    unfold actFaultClear
    split
    · exact .done rfl
    · exact .refused _ _
  | faultSetup =>
    show RefusesPlainly (actFaultSetup r s) s
    unfold actFaultSetup
    split
    · exact .refused _ _
    · simp only
      split
      · exact .done rfl
      · exact .done rfl
      · exact .refused _ _
  | counterSetup =>
    show RefusesPlainly (actCounterSetup r s) s
    unfold actCounterSetup
    split
    · exact .refused _ _
    · exact .done rfl

/-- A commit refused leaves the load open, or closes it where its content is INVALID (R181). -/
theorem actLoadCommit_refusal (r : Req) (s : State) (h : (actLoadCommit r s).status ≠ .done) :
    (actLoadCommit r s).body = []
      ∧ ((actLoadCommit r s).state = s
        ∨ ((actLoadCommit r s).status = .invalid ∧ (actLoadCommit r s).state = { s with load := none })) := by
  unfold actLoadCommit at h ⊢
  split
  · exact ⟨rfl, .inl rfl⟩
  next l hl =>
    simp only [hl] at h
    split
    · exact ⟨rfl, .inl rfl⟩
    next hfree =>
      rw [if_neg hfree] at h
      split
      · exact ⟨rfl, .inr ⟨rfl, rfl⟩⟩
      next u hu =>
        simp only [hu] at h
        exact absurd rfl h

/-- A timed cue refused touches what an occurrence touches (R142, R143). -/
def RefusesWithFault (a : Answer) (s : State) : Prop :=
  a.body = [] ∧ (a.status ≠ .done → OnlyFaults s a.state)

theorem RefusesWithFault.refused (st : Status) (s : State) : RefusesWithFault (answer st s) s :=
  ⟨rfl, fun _ => .refl s⟩

theorem enterTimed_refusal (e : TimedEntry) (late : Bool) (s : State) :
    RefusesWithFault (enterTimed e late s) s := by
  unfold enterTimed
  split
  · exact ⟨rfl, fun _ => raise_onlyFaults ..⟩
  · exact ⟨rfl, fun h => absurd rfl h⟩

theorem actCueAt_refusal (r : Req) (s : State) : RefusesWithFault (actCueAt r s) s := by
  unfold actCueAt
  simp only
  split
  · split
    · exact .refused _ _
    · split
      · exact .refused _ _
      · split
        · exact enterTimed_refusal ..
        · split
          · exact enterTimed_refusal ..
          · split
            · exact enterTimed_refusal ..
            · exact ⟨rfl, fun _ => raise_onlyFaults ..⟩
  · exact .refused _ _

theorem checked_of_bodyLengthBad {k : ReqKind} {r : Req} (h : bodyLengthOk k r.body.length = false)
    (act : Req → State → Answer) (s : State) : checked k act r s = answer .invalid s := by
  simp [checked, h]

/-- Settles O33: the two checks by themselves, and the acts by kind. -/
theorem refusalsChangeNothing : Obligations.RefusalsChangeNothing := by
  refine ⟨fun kind r s ha => ⟨fun hkind => ?_, fun k hkind hlength => ?_⟩, fun kind r s => ?_⟩
  · rw [exec_unknownRequest hkind]
    exact whenReleased_answered ha rfl rfl
  · rw [exec_commandOf_known hkind]
    exact whenReleased_answered ha rfl (checked_of_bodyLengthBad hlength _ _)
  · cases hkind : kindOfByte kind with
    | none =>
      rw [executeKind_unknown hkind]
      exact fun _ => ⟨rfl, fun _ _ => rfl, fun e => (nomatch e), fun e => (nomatch e)⟩
    | some k =>
      rw [executeKind_known hkind]
      cases hlength : bodyLengthOk k r.body.length with
      | false =>
        rw [checked_of_bodyLengthBad hlength]
        exact fun _ => ⟨rfl, fun _ _ => rfl, fun _ => .inl rfl, fun _ => rfl⟩
      | true =>
        rw [checked_of_bodyLengthOk hlength]
        intro hrefused
        by_cases hcommit : k = .loadCommit
        · subst hcommit
          obtain ⟨hbody, hstate⟩ := actLoadCommit_refusal r s hrefused
          exact ⟨hbody, fun e => absurd rfl e, fun _ => hstate, fun e => (nomatch e)⟩
        · by_cases hcue : k = .cueAt
          · subst hcue
            obtain ⟨hbody, hstate⟩ := actCueAt_refusal r s
            exact ⟨hbody, fun _ e => absurd rfl e, fun e => (nomatch e), fun _ => (hstate hrefused).eq⟩
          · obtain ⟨hbody, hstate⟩ := actOf_refusesPlainly hcommit hcue r s hrefused
            exact ⟨hbody, fun _ _ => hstate, fun e => absurd (Option.some.inj e) hcommit,
              fun e => absurd (Option.some.inj e) hcue⟩

end Sys2Proof.Proofs.Answers
end

