-- ==== Sys2Proof/Proofs/TableRequests.lean ====
section
/-! PROOF. The requests of the configuration and the tables (R178 to R182): each act judged by its body, and the
answer it gives. -/

namespace Sys2Proof.Proofs.TableRequests

open Sys2Proof Sys2Proof.Machine Sys2Proof.Safety Sys2Proof.Proofs.Answers Sys2Proof.Proofs.Operands
  Sys2Proof.Proofs.VoiceLaws

/-! ### Claimed slots -/

theorem claims_iff (x : Voice) (k : Fin 24) :
    x.claims = some k ↔ x.state ≠ .off ∧ ∃ p, x.part = some p ∧ p.slot = k := by
  unfold Voice.claims
  cases h : x.state <;> simp

theorem claimed_iff (s : State) (k : Fin 24) :
    claimed (claims s) k = true ↔ ∃ v, (s.voice v).claims = some k := by
  have hmem : claimed (claims s) k = true ↔ some k ∈ claims s := by simp [claimed]
  rw [hmem, claims, List.mem_map]
  exact ⟨fun ⟨v, _, h⟩ => ⟨v, h⟩, fun ⟨v, h⟩ => ⟨v, mem_allVoices v, h⟩⟩

/-! ### Configuration -/

theorem exec_configure {r : Req} {s u : State} {st : Status} (ha : Answerable r s)
    (hlength : r.body.length = 10) (hq : u.outq = s.outq)
    (hact : actConfigure r (reserved s) = { status := st, body := [], state := reserved u }) :
    exec (.configure r) s = .next (answered r st [] u) :=
  checked_answered (k := .configure) ha (by rw [hlength]; rfl) hq hact

/-- A configuration out of range in some field (R178, step 1). -/
theorem configOfBody_eq_none {body : List Byte}
    (h : 24 ≤ (byteAt body 1).toNat ∨ ((byteAt body 0).getLsbD 0 = true ∧ 24 ≤ (byteAt body 2).toNat)
      ∨ 1 < (byteAt body 3).toNat ∨ 1 < (byteAt body 4).toNat
      ∨ ((byteAt body 0).getLsbD 1 = true ∧ 32 ≤ (byteAt body 8).toNat)
      ∨ ((byteAt body 0).getLsbD 2 = true ∧ 32 ≤ (byteAt body 9).toNat)) : configOfBody body = none := by
  unfold configOfBody
  simp only
  split
  next slotA slotB startA startB hA hB hsA hsB =>
    rw [if_neg]
    rintro ⟨hloss, hlate⟩
    obtain h | h | h | h | h | h := h
    · rw [finOf_eq_none.2 h] at hA; cases hA
    · rw [flaggedIndex_eq_none.2 h] at hB; cases hB
    · omega
    · omega
    · rw [flaggedIndex_eq_none.2 h] at hsA; cases hsA
    · rw [flaggedIndex_eq_none.2 h] at hsB; cases hsB
  next => rfl

/-- A configuration in range is stored field by field, the window and the limit clamped (R178, steps 1 and 3). -/
theorem configOfBody_stores {body : List Byte} (hA : (byteAt body 1).toNat < 24)
    (hB : (byteAt body 0).getLsbD 0 = true → (byteAt body 2).toNat < 24)
    (hloss : (byteAt body 3).toNat ≤ 1) (hlate : (byteAt body 4).toNat ≤ 1)
    (hsA : (byteAt body 0).getLsbD 1 = true → (byteAt body 8).toNat < 32)
    (hsB : (byteAt body 0).getLsbD 2 = true → (byteAt body 9).toNat < 32) :
    ∃ c : ConfigRecord, configOfBody body = some c
      ∧ c.slotA.val = (byteAt body 1).toNat
      ∧ c.slotB.map Fin.val = (if (byteAt body 0).getLsbD 0 then some (byteAt body 2).toNat else none)
      ∧ c.lossAction = (if (byteAt body 3).toNat = 0 then .holdover else .engine)
      ∧ c.latePolicy = (if (byteAt body 4).toNat = 0 then .apply else .drop)
      ∧ c.lateWindow = min 4800 ((byteAt body 5).toNat * 256 + (byteAt body 6).toNat)
      ∧ c.stuckLimit = max 1 (min 120 (byteAt body 7).toNat)
      ∧ c.startA.map Fin.val = (if (byteAt body 0).getLsbD 1 then some (byteAt body 8).toNat else none)
      ∧ c.startB.map Fin.val = (if (byteAt body 0).getLsbD 2 then some (byteAt body 9).toNat else none) := by
  obtain ⟨slotB, hslotB, hBval⟩ := flaggedIndex_of_flag hB
  obtain ⟨startA, hstartA, hsAval⟩ := flaggedIndex_of_flag hsA
  obtain ⟨startB, hstartB, hsBval⟩ := flaggedIndex_of_flag hsB
  simp only [configOfBody, finOf_of_lt hA, hslotB, hstartA, hstartB, if_pos (And.intro hloss hlate)]
  exact ⟨_, rfl, rfl, hBval, rfl, rfl, rfl, rfl, hsAval, hsBval⟩

/-- A slot is taken by a voice that is not OFF and names it (R7, R178). -/
theorem slotTaken_iff (s : State) (k : Fin 24) :
    slotTaken s k = true ↔ ∃ v p, (s.voice v).state ≠ .off ∧ (s.voice v).part = some p ∧ p.slot = k := by
  rw [slotTaken, claimed_iff]
  exact exists_congr fun v => by rw [claims_iff]; simp only [exists_and_left]

/-- CONFIGURE is refused IN_USE when a lead slot of the new configuration is taken (R178, step 2). -/
def SlotsTaken (c : ConfigRecord) (s : State) : Bool :=
  slotTaken s c.slotA || (match c.slotB with | some k => slotTaken s k | none => false)

theorem slotsTaken_iff (c : ConfigRecord) (s : State) :
    SlotsTaken c s = true ↔ ∃ v p, (s.voice v).state ≠ .off ∧ (s.voice v).part = some p
      ∧ (p.slot = c.slotA ∨ c.slotB = some p.slot) := by
  unfold SlotsTaken
  rw [Bool.or_eq_true, slotTaken_iff]
  cases hB : c.slotB with
  | none => simp
  | some k =>
    simp only [slotTaken_iff, Option.some.injEq]
    constructor
    · rintro (⟨v, p, hon, hp, e⟩ | ⟨v, p, hon, hp, e⟩)
      · exact ⟨v, p, hon, hp, .inl e⟩
      · exact ⟨v, p, hon, hp, .inr e.symm⟩
    · rintro ⟨v, p, hon, hp, e | e⟩
      · exact .inl ⟨v, p, hon, hp, e⟩
      · exact .inr ⟨v, p, hon, hp, e.symm⟩

theorem actConfigure_of_config {r : Req} {c : ConfigRecord} (h : configOfBody r.body = some c) (s : State) :
    actConfigure r s = if SlotsTaken c s then answer .inUse s else answer .done { s with config := c } := by
  simp only [actConfigure, h]
  rfl

/-- Settles O35, by the two judgements of CONFIGURE. -/
theorem configureStores : Obligations.ConfigureStores := by
  intro r s ha hlength
  refine ⟨fun h => exec_configure ha hlength rfl ?_, fun hA hB hloss hlate hsA hsB => ?_⟩
  · simp only [actConfigure, configOfBody_eq_none h]
    rfl
  · obtain ⟨c, hc, hfields⟩ := configOfBody_stores hA hB hloss hlate hsA hsB
    obtain ⟨h1, h2, h3, h4, h5, h6, h7, h8⟩ := hfields
    refine ⟨c, h1, h2, h3, h4, h5, h6, h7, h8, fun htaken => ?_, fun hfree => ?_⟩
    · refine exec_configure ha hlength rfl ?_
      rw [actConfigure_of_config hc, if_pos (show SlotsTaken c (reserved s) = true from
        (slotsTaken_iff c s).2 htaken)]
      rfl
    · have hnot : ¬SlotsTaken c (reserved s) = true := by
        show ¬SlotsTaken c s = true
        rw [slotsTaken_iff]
        rintro ⟨v, p, hon, hp, e⟩
        obtain ⟨hneA, hneB⟩ := hfree v p hon hp
        exact e.elim hneA hneB
      refine exec_configure ha hlength rfl ?_
      rw [actConfigure_of_config hc, if_neg hnot]
      rfl

/-! ### Reading the configuration and the tables -/

theorem exec_readTable {r : Req} {s : State} {st : Status} {body : List Byte} (ha : Answerable r s)
    (hlength : r.body.length = 5)
    (hact : actReadTable r (reserved s) = { status := st, body := body, state := reserved s }) :
    exec (.readTable r) s = .next (answered r st body s) :=
  checked_answered (k := .readTable) ha (by rw [hlength]; rfl) rfl hact

/-- READ_TABLE of an installed table gives its bytes from the offset on, or RANGE past its end (R182). -/
theorem exec_readTable_of_target {r : Req} {s : State} {kind index hi lo len : Byte} {t : LoadTarget}
    (ha : Answerable r s) (hbody : r.body = [kind, index, hi, lo, len]) (hlen : len.toNat ≤ 96)
    (ht : NamesTarget kind index t) :
    exec (.readTable r) s = .next (if (tableBytes t s).length ≤ hi.toNat * 256 + lo.toNat then
        answered r .range [] s
      else answered r .done (((tableBytes t s).drop (hi.toNat * 256 + lo.toNat)).take len.toNat) s) := by
  have hread : tableBytes t (reserved s) = tableBytes t s := by cases t <;> rfl
  have hact : ∀ u, actReadTable r u =
      if (tableBytes t u).length ≤ hi.toNat * 256 + lo.toNat then answer .range u
      else ⟨.done, ((tableBytes t u).drop (hi.toNat * 256 + lo.toNat)).take len.toNat, u⟩ := by
    intro u
    simp only [actReadTable, hbody, byteAt, List.getD_cons_succ, List.getD_cons_zero, num2,
      targetOfBytes_of_names ht, not_lt.2 hlen, false_or]
  split
  next hend =>
    refine exec_readTable ha (by rw [hbody]; rfl) ?_
    rw [hact, hread, if_pos hend]
    rfl
  next hend =>
    refine exec_readTable ha (by rw [hbody]; rfl) ?_
    rw [hact, hread, if_neg hend]

/-- Settles O36. -/
theorem configAndTablesRead : Obligations.ConfigAndTablesRead := by
  intro r s ha
  refine ⟨fun hbody => ?_, fun kind index hi lo len hbody => ⟨fun h => ?_, fun hlen =>
    ⟨fun i hk hi => exec_readTable_of_target (t := .tuning i) ha hbody hlen ⟨hk, hi⟩,
      fun i hk hi => exec_readTable_of_target (t := .map i) ha hbody hlen ⟨hk, hi⟩,
      fun i hk hi => exec_readTable_of_target (t := .scene i) ha hbody hlen ⟨hk, hi⟩⟩⟩⟩
  · exact checked_answered (k := .readConfig) (act := actReadConfig) ha (by rw [hbody]; rfl) rfl rfl
  · refine exec_readTable ha (by rw [hbody]; rfl) ?_
    by_cases hlen : 96 < len.toNat
    · simp only [actReadTable, hbody, byteAt, List.getD_cons_succ, List.getD_cons_zero, hlen, true_or,
        if_true]
      split <;> rfl
    · have hnone : targetOfBytes kind index = none := targetOfBytes_eq_none (by tauto)
      simp only [actReadTable, hbody, byteAt, List.getD_cons_succ, List.getD_cons_zero, hnone]
      rfl

/-! ### Loads -/

theorem exec_loadBegin {r : Req} {s u : State} {st : Status} (ha : Answerable r s)
    (hlength : r.body.length = 2) (hq : u.outq = s.outq)
    (hact : actLoadBegin r (reserved s) = { status := st, body := [], state := reserved u }) :
    exec (.loadBegin r) s = .next (answered r st [] u) :=
  checked_answered (k := .loadBegin) ha (by rw [hlength]; rfl) hq hact

theorem exec_loadBegin_of_target {r : Req} {s : State} {kind index : Byte} {t : LoadTarget}
    (ha : Answerable r s) (hbody : r.body = [kind, index]) (ht : NamesTarget kind index t) :
    exec (.loadBegin r) s = .next (if s.load = none then
        answered r .done [] { s with load := some { target := t, buffer := [] } }
      else answered r .busy [] s) := by
  have hlength : r.body.length = 2 := by rw [hbody]; rfl
  have htarget : targetOfBytes (byteAt r.body 0) (byteAt r.body 1) = some t := by
    rw [hbody]; exact targetOfBytes_of_names ht
  split
  next hload =>
    refine exec_loadBegin ha hlength rfl ?_
    simp only [actLoadBegin, htarget, show (reserved s).load = none from hload]
    rfl
  next hload =>
    obtain ⟨l, hl⟩ := Option.ne_none_iff_exists'.1 hload
    refine exec_loadBegin ha hlength rfl ?_
    simp only [actLoadBegin, htarget, show (reserved s).load = some l from hl]
    rfl

theorem exec_loadData {r : Req} {s u : State} {st : Status} (ha : Answerable r s)
    (hlength : r.body.length ≤ 96) (hq : u.outq = s.outq)
    (hact : actLoadData r (reserved s) = { status := st, body := [], state := reserved u }) :
    exec (.loadData r) s = .next (answered r st [] u) :=
  checked_answered (k := .loadData) ha (by simpa [bodyLengthOk] using hlength) hq hact

theorem exec_loadAbort {r : Req} {s u : State} {st : Status} (ha : Answerable r s) (hbody : r.body = [])
    (hq : u.outq = s.outq)
    (hact : actLoadAbort r (reserved s) = { status := st, body := [], state := reserved u }) :
    exec (.loadAbort r) s = .next (answered r st [] u) :=
  checked_answered (k := .loadAbort) ha (by rw [hbody]; rfl) hq hact

theorem exec_loadCommit {r : Req} {s u : State} {st : Status} (ha : Answerable r s) (hbody : r.body = [])
    (hq : u.outq = s.outq)
    (hact : actLoadCommit r (reserved s) = { status := st, body := [], state := reserved u }) :
    exec (.loadCommit r) s = .next (answered r st [] u) :=
  checked_answered (k := .loadCommit) ha (by rw [hbody]; rfl) hq hact

/-- The lead's current scene or map names the target (R57, R73, R113). -/
def Uses (L : Lead) (n : Fin 32) (s : State) : LoadTarget → Prop
  | .tuning i => s.scenes[n].tuning = i
  | .map i => (s.lead L).map = i
  | .scene i => n = i

theorem usedBy_iff (L : Lead) (t : LoadTarget) (s : State) :
    usedBy L t s = true ↔ ∃ n, (s.lead L).scene = some n ∧ Uses L n s t := by
  unfold usedBy
  cases h : (s.lead L).scene with
  | none => simp
  | some n => cases t <;> simp [Uses]

theorem inUse_iff (t : LoadTarget) (s : State) :
    inUse t s = true ↔ ∃ L n, (s.lead L).scene = some n ∧ Uses L n s t := by
  unfold inUse
  rw [Bool.or_eq_true, usedBy_iff, usedBy_iff]
  exact ⟨fun h => h.elim (fun k => ⟨.a, k⟩) (fun k => ⟨.b, k⟩),
    fun ⟨L, h⟩ => by cases L with | a => exact .inl h | b => exact .inr h⟩

/-- The states an open load leaves: refused open, closed INVALID, or installed (R181). -/
theorem exec_loadCommit_of_load {r : Req} {s : State} {t : LoadTarget} {buffer : List Byte}
    (ha : Answerable r s) (hbody : r.body = []) (hload : s.load = some { target := t, buffer := buffer }) :
    exec (.loadCommit r) s = .next (if inUse t s then answered r .inUse [] s
      else match install t buffer { s with load := none } with
        | none => answered r .invalid [] { s with load := none }
        | some u => answered r .done [] u) := by
  have hopen : (reserved s).load = some { target := t, buffer := buffer } := hload
  have huse : inUse t (reserved s) = inUse t s := rfl
  have hact : ∀ u, u.load = some { target := t, buffer := buffer } → actLoadCommit r u =
      if inUse t u then answer .inUse u
      else match install t buffer { u with load := none } with
        | none => answer .invalid { u with load := none }
        | some v => answer .done v := by
    intro u hu
    simp only [actLoadCommit, hu] <;> rfl
  have hinstall : install t buffer { reserved s with load := none }
      = (install t buffer { s with load := none }).map reserved := by
    cases t <;> simp only [install, Option.map_map] <;> rfl
  split
  next hused =>
    refine exec_loadCommit ha hbody rfl ?_
    rw [hact _ hopen, huse, if_pos hused]
    rfl
  next hfree =>
    cases hu : install t buffer { s with load := none } with
    | none =>
      refine exec_loadCommit ha hbody rfl ?_
      rw [hact _ hopen, huse, if_neg hfree, hinstall, hu]
      rfl
    | some u =>
      have houtq : u.outq = s.outq := by
        cases t <;> obtain ⟨_, _, rfl⟩ := Option.map_eq_some_iff.1 hu <;> rfl
      refine exec_loadCommit ha hbody houtq ?_
      rw [hact _ hopen, huse, if_neg hfree, hinstall, hu]
      rfl

/-- A map entry of its byte: 80 hexadecimal is REST, any other is held to two octaves (R72). -/
theorem mapEntryOfByte_eq (b : Byte) :
    mapEntryOfByte b = if b = 0x80#8 then none else some (max (-24) (min 24 b.toInt)) := by
  have hrest : b.toInt = -128 ↔ b = 0x80#8 := by
    rw [show (-128 : Int) = (0x80#8).toInt from rfl, BitVec.toInt_inj]
  simp only [mapEntryOfByte, hrest, clampInt]

theorem mapOfBytes_eq (bs : List Byte) : mapOfBytes bs = if bs.length = 48 then
    some (bs.map fun b => if b = 0x80#8 then none else some (max (-24) (min 24 b.toInt))) else none := by
  simp only [mapOfBytes, ← mapEntryOfByte_eq]

/-- Settles O39, by the load requests' judgements in their order. -/
theorem loadsTaken : Obligations.LoadsTaken := by
  refine ⟨fun r s ha => ⟨fun kind index hbody => ⟨fun h => ?_, fun t ht =>
    exec_loadBegin_of_target ha hbody (by cases t <;> exact ht)⟩, fun hlength => ⟨fun hload => ?_, fun l hl =>
      ⟨fun hlong => ?_, fun hfits => ?_⟩⟩, fun hbody => ?_⟩, fun r s ha hbody => ⟨fun hload => ?_,
    fun t buffer hload => ⟨fun hused => ?_, fun hfree => ?_⟩⟩⟩
  · refine exec_loadBegin ha (by rw [hbody]; rfl) rfl ?_
    simp only [actLoadBegin, hbody, byteAt, List.getD_cons_succ, List.getD_cons_zero,
      targetOfBytes_eq_none h]
    rfl
  · refine exec_loadData ha hlength rfl ?_
    simp only [actLoadData, show (reserved s).load = none from hload]
    rfl
  · refine exec_loadData ha hlength rfl ?_
    simp only [actLoadData, show (reserved s).load = some l from hl]
    rw [if_pos (show Config.loadSize < l.buffer.length + r.body.length from hlong)]
    rfl
  · refine exec_loadData ha hlength rfl ?_
    simp only [actLoadData, show (reserved s).load = some l from hl]
    rw [if_neg (show ¬Config.loadSize < l.buffer.length + r.body.length from not_lt.2 hfits)]
    rfl
  · split
    next hload =>
      refine exec_loadAbort ha hbody rfl ?_
      simp only [actLoadAbort, show (reserved s).load = none from hload]
      rfl
    next hload =>
      obtain ⟨l, hl⟩ := Option.ne_none_iff_exists'.1 hload
      refine exec_loadAbort ha hbody rfl ?_
      simp only [actLoadAbort, show (reserved s).load = some l from hl]
      rfl
  · refine exec_loadCommit ha hbody rfl ?_
    simp only [actLoadCommit, show (reserved s).load = none from hload]
    rfl
  · rw [exec_loadCommit_of_load ha hbody hload, if_pos]
    rw [inUse_iff]
    obtain ⟨L, n, hn, hu⟩ := hused
    exact ⟨L, n, hn, by cases t <;> exact hu⟩
  · have hnot : ¬inUse t s = true := by
      rw [inUse_iff]
      rintro ⟨L, n, hn, hu⟩
      exact hfree ⟨L, n, hn, by cases t <;> exact hu⟩
    have hexec := exec_loadCommit_of_load ha hbody hload
    rw [if_neg hnot] at hexec
    cases t with
    | tuning i =>
      simp only [hexec, install]
      cases tuningOfBytes buffer <;> rfl
    | map i =>
      simp only [hexec, install, mapOfBytes_eq]
      by_cases hlength : buffer.length = 48
      · rw [if_pos hlength, if_pos hlength]
        rfl
      · rw [if_neg hlength, if_neg hlength]
        rfl
    | scene i =>
      simp only [hexec, install]
      cases sceneOfBytes buffer <;> rfl

end Sys2Proof.Proofs.TableRequests
end

