-- ==== Sys2Proof/Proofs/CueRequests.lean ====
section
/-! PROOF. The requests of the Cue Unit (R134, R137 to R145): immediate and timed cues, gateways and thresholds. -/

namespace Sys2Proof.Proofs.CueRequests

open Sys2Proof Sys2Proof.Machine Sys2Proof.Safety Sys2Proof.Proofs.CueFlush Sys2Proof.Proofs.Answers
  Sys2Proof.Proofs.Operands Sys2Proof.Proofs.Occurrences

/-! ### Counted events and the acceptance of a request -/

theorem after_comm (c : Counter) (m n : Nat) : (c.after m).after n = (c.after n).after m := by
  by_cases hmn : m = n
  · rw [hmn]
  · by_cases hm : c.selector = m
    · have hn : c.selector ≠ n := hm.trans_ne hmn
      rw [after_of_ne hn, after_of_ne (c := c.after m) (by rw [after_selector]; exact hn)]
    · rw [after_of_ne hm, after_of_ne (c := c.after n) (by rw [after_selector]; exact hm)]

theorem countEvent_reserved (e : Event) (s : State) : countEvent e (reserved s) = reserved (countEvent e s) := by
  unfold countEvent reserved
  simp [after_comm _ (eventCode e) 10]

theorem countEvent_answered (e : Event) (r : Req) (st : Status) (body : List Byte) (s : State) :
    countEvent e (answered r st body s) = answered r st body (countEvent e s) := by
  have h := congrArg State.counters (countEvent_reserved e s)
  unfold countEvent answered
  simpa [countEvent, reserved, Counter.after] using h

/-! ### CUE_NOW and PORT_SET -/

theorem exec_cueNow {r : Req} {s u : State} {st : Status} (ha : Answerable r s)
    (hlength : r.body.length = 4) (hq : u.outq = s.outq)
    (hact : actCueNow r (reserved s) = { status := st, body := [], state := reserved u }) :
    exec (.cueNow r) s = .next (answered r st [] u) :=
  checked_answered (k := .cueNow) ha (by rw [hlength]; rfl) hq hact

theorem exec_portSet {r : Req} {s u : State} {st : Status} (ha : Answerable r s)
    (hlength : r.body.length = 2) (hq : u.outq = s.outq)
    (hact : actPortSet r (reserved s) = { status := st, body := [], state := reserved u }) :
    exec (.portSet r) s = .next (answered r st [] u) :=
  checked_answered (k := .portSet) ha (by rw [hlength]; rfl) hq hact

theorem actCueNow_eq {r : Req} {lead k a b : Byte} (hbody : r.body = [lead, k, a, b]) (s : State) :
    actCueNow r s = match leadOfByte lead, cueOfBytes k a b with
      | some L, some c =>
        if (s.gateway (immediateGateway L)).enabled then
          answer .done (setPending (immediateGateway L) c .request s)
        else answer .closed s
      | _, _ => answer .range s := by
  unfold actCueNow
  rw [hbody]
  rfl

theorem exec_cueNow_of_cue {r : Req} {s : State} {lead k a b : Byte} {L : Lead} {c : Cue} (ha : Answerable r s)
    (hbody : r.body = [lead, k, a, b]) (hL : leadOfByte lead = some L) (hc : cueOfBytes k a b = some c) :
    let g := immediateGateway L
    ((s.gateway g).enabled = false → exec (.cueNow r) s = .next (answered r .closed [] s))
    ∧ ((s.gateway g).enabled = true → (s.gateway g).pending = none →
      exec (.cueNow r) s = .next (answered r .done [] (s.setGateway g
        { s.gateway g with pending := some { cue := c, origin := .request } })))
    ∧ ((s.gateway g).enabled = true → (s.gateway g).pending ≠ none →
      exec (.cueNow r) s = .next (countEvent .cueDropped (answered r .done [] (s.setGateway g
        { s.gateway g with pending := some { cue := c, origin := .request } })))) := by
  have hlength : r.body.length = 4 := by rw [hbody]; rfl
  intro g
  have hact : actCueNow r (reserved s) = if (s.gateway g).enabled then
      answer .done (setPending g c .request (reserved s)) else answer .closed (reserved s) := by
    rw [actCueNow_eq hbody, hL, hc]
    rfl
  refine ⟨fun h => exec_cueNow ha hlength rfl ?_, fun h hp => exec_cueNow ha hlength rfl ?_, fun h hp => ?_⟩
  · rw [hact, h]
    rfl
  · rw [hact, if_pos h, setPending_empty g c .request (reserved s) h hp]
    rfl
  · obtain ⟨⟨d, p⟩, hd⟩ := Option.ne_none_iff_exists'.1 hp
    rw [countEvent_answered]
    refine exec_cueNow ha hlength rfl ?_
    rw [hact, if_pos h, setPending_replaces g c d .request p (reserved s) h hd, countEvent_reserved]
    rfl

/-- Settles O41. -/
theorem cueNowAndPortSet : Obligations.CueNowAndPortSet := by
  refine fun r s ha => ⟨fun lead k a b hbody => ⟨fun h => ?_, fun L c hL hc => ?_⟩,
    fun lead t hbody => ⟨fun h => ?_, fun h => ?_, fun h => ?_⟩⟩
  · refine exec_cueNow ha (by rw [hbody]; rfl) rfl ?_
    rw [actCueNow_eq hbody]
    obtain h | h := h
    · rw [leadOfByte_of_two_le h]
      rfl
    · rw [h]
      split
      · contradiction
      · rfl
  · have hlead : leadOfByte lead = some L := by rw [hL]; exact leadOfByte_code L
    have hexec := exec_cueNow_of_cue ha hbody hlead hc
    cases L <;> exact hexec
  · refine exec_portSet ha (by rw [hbody]; rfl) rfl ?_
    simp only [actPortSet, hbody, byteAt, List.getD_cons_zero, leadOfByte_of_two_le h]
    rfl
  · refine exec_portSet ha (by rw [hbody]; rfl) rfl ?_
    subst h
    simp only [actPortSet, hbody]
    rfl
  · refine exec_portSet ha (by rw [hbody]; rfl) rfl ?_
    subst h
    simp only [actPortSet, hbody]
    rfl

/-! ### The hand-off -/

/-- A hand-off writes the timed queue and the timed gateway (R141). -/
theorem handOff_eq (L : Lead) (s : State) :
    handOff L s = { s with timed := (handOff L s).timed, gateways := (handOff L s).gateways } := by
  obtain h | ⟨e, _, _, _, _, h⟩ := handOff_cases L s
  · rw [h]
  · rw [h]
    rfl

theorem handOff_reserved (L : Lead) (s : State) : handOff L (reserved s) = reserved (handOff L s) := by
  unfold handOff
  rw [show (reserved s).timed = s.timed from rfl]
  split
  · rfl
  next e he =>
    rw [show (reserved s).gateway = s.gateway from rfl]
    split
    next h =>
      obtain ⟨-, hon, hempty⟩ := h
      rw [setPending_empty (timedGateway L) e.cue .queue
          { s with timed := s.timed.eraseP fun e => e.lead == L } hon hempty,
        setPending_empty (timedGateway L) e.cue .queue
          { reserved s with timed := s.timed.eraseP fun e => e.lead == L } hon hempty]
      rfl
    · rfl

theorem handOff_outq (L : Lead) (s : State) : (handOff L s).outq = s.outq := by rw [handOff_eq]

/-! ### GATEWAY_SET -/

theorem exec_gatewaySet {r : Req} {s u : State} {st : Status} (ha : Answerable r s)
    (hlength : r.body.length = 10) (hq : u.outq = s.outq)
    (hact : actGatewaySet r (reserved s) = { status := st, body := [], state := reserved u }) :
    exec (.gatewaySet r) s = .next (answered r st [] u) :=
  checked_answered (k := .gatewaySet) ha (by rw [hlength]; rfl) hq hact

theorem actGatewaySet_of_pedal {r : Req} {g : Fin 8} (hg : (byteAt r.body 0).toNat = g.val) (h4 : g.val < 4)
    (s : State) : actGatewaySet r s = match pedalGatewayOf r.body with
      | none => answer .range s
      | some x => answer .done (s.setGateway g x) := by
  simp only [actGatewaySet, finOf_eq_some.2 hg, if_pos h4] <;> rfl

theorem actGatewaySet_of_port {r : Req} {g : Fin 8} (hg : (byteAt r.body 0).toNat = g.val) (h4 : 4 ≤ g.val)
    (s : State) : actGatewaySet r s = answer .done (handOffAfterSet g (s.setGateway g
      { s.gateway g with enabled := (byteAt r.body 1).getLsbD 0, priority := min 15 (byteAt r.body 2).toNat
                         pending := none })) := by
  simp only [actGatewaySet, finOf_eq_some.2 hg, if_neg (not_lt.2 h4)]

theorem handOffAfterSet_eq (g : Fin 8) (s : State) :
    handOffAfterSet g s = if g = 6 then handOff .a s else if g = 7 then handOff .b s else s := rfl

theorem handOffAfterSet_reserved (g : Fin 8) (s : State) :
    handOffAfterSet g (reserved s) = reserved (handOffAfterSet g s) := by
  unfold handOffAfterSet
  split
  · exact handOff_reserved _ _
  · split
    · exact handOff_reserved _ _
    · rfl

theorem handOffAfterSet_outq (g : Fin 8) (s : State) : (handOffAfterSet g s).outq = s.outq := by
  unfold handOffAfterSet
  split
  · exact handOff_outq _ _
  · split
    · exact handOff_outq _ _
    · rfl

/-- A cue carried behind a flag, as the bytes give it (R188). -/
theorem flaggedCue_of_carried {p : Bool} {k a b : Byte} {x : Option Cue}
    (h : if p then cueOfBytes k a b = x ∧ x ≠ none else x = none) : flaggedCue p k a b = some x := by
  cases p with
  | false =>
    obtain rfl : x = none := h
    rfl
  | true =>
    obtain ⟨hx, hne⟩ := h
    obtain ⟨c, rfl⟩ := Option.ne_none_iff_exists'.1 hne
    simp [flaggedCue, hx]

theorem flaggedCue_eq_none {p : Bool} {k a b : Byte} (h : p = true ∧ cueOfBytes k a b = none) :
    flaggedCue p k a b = none := by
  simp [flaggedCue, h]

/-- Settles O45, by the gateway's number. -/
theorem gatewaySetStored : Obligations.GatewaySetStored := by
  refine fun r s ha hlength => ⟨fun h => ?_, fun g hg h4 => ⟨fun h => ?_, fun L press release hL hp hr => ?_⟩,
    fun g hg h4 => ?_⟩
  · refine exec_gatewaySet ha hlength rfl ?_
    simp only [actGatewaySet, finOf_eq_none.2 h]
    rfl
  · refine exec_gatewaySet ha hlength rfl ?_
    have hnone : pedalGatewayOf r.body = none := by
      unfold pedalGatewayOf
      simp only
      obtain h | h | h := h
      · rw [leadOfByte_of_two_le h]
      · rw [flaggedCue_eq_none h]
        split
        · contradiction
        · rfl
      · rw [flaggedCue_eq_none h]
        split
        · contradiction
        · rfl
    rw [actGatewaySet_of_pedal hg h4, hnone]
    rfl
  · refine exec_gatewaySet ha hlength rfl ?_
    have hlead : leadOfByte (byteAt r.body 3) = some L :=
      (congrArg leadOfByte hL).trans (leadOfByte_code L)
    rw [actGatewaySet_of_pedal hg h4]
    simp only [pedalGatewayOf, hlead, flaggedCue_of_carried hp, flaggedCue_of_carried hr]
    rfl
  · refine exec_gatewaySet ha hlength (handOffAfterSet_outq g _) ?_
    rw [actGatewaySet_of_port hg h4]
    exact congrArg (answer .done) (handOffAfterSet_reserved g (s.setGateway g
      { s.gateway g with enabled := (byteAt r.body 1).getLsbD 0, priority := min 15 (byteAt r.body 2).toNat
                         pending := none }))

/-! ### CUE_AT -/

/-- The place of an entry that is not due: behind every entry at most as far ahead (R142). -/
theorem insertByDistance_split (count : Word32) (e : TimedEntry) : ∀ es : List TimedEntry,
    ∃ pre post, es = pre ++ post ∧ (∀ x ∈ pre, ahead count x.due ≤ ahead count e.due)
      ∧ (∀ x ∈ post.head?, ahead count e.due < ahead count x.due)
      ∧ insertByDistance count e es = pre ++ e :: post
  | [] => ⟨[], [], rfl, by simp, by simp, rfl⟩
  | x :: rest => by
    by_cases h : ahead count x.due ≤ ahead count e.due
    · obtain ⟨pre, post, hsplit, hpre, hpost, hin⟩ := insertByDistance_split count e rest
      refine ⟨x :: pre, post, by rw [hsplit]; rfl, ?_, hpost, by simp [insertByDistance, h, hin]⟩
      simpa [h] using hpre
    · exact ⟨[], x :: rest, rfl, by simp, by simpa using h, by simp [insertByDistance, h]⟩

/-- The place of an entry due now: behind every entry already due (R142, R143). -/
theorem insertEntry_due_split (count : Word32) {e : TimedEntry} (he : e.mark = true) (es : List TimedEntry) :
    ∃ pre post, es = pre ++ post ∧ (∀ x ∈ pre, x.mark = true) ∧ (∀ x ∈ post.head?, x.mark = false)
      ∧ insertEntry count e es = pre ++ e :: post := by
  refine ⟨es.takeWhile fun x => x.mark, es.dropWhile fun x => x.mark, (List.takeWhile_append_dropWhile).symm,
    fun x hx => ?_, fun x hx => ?_, by simp [insertEntry, he]⟩
  · simpa using List.mem_takeWhile_imp hx
  · have hhead := List.head?_dropWhile_not (fun x : TimedEntry => x.mark) es
    rw [Option.mem_def.1 hx] at hhead
    exact hhead

theorem ahead_eq_of_serialDiff {a b : Word32} {d : Int} (h : serialDiff a b = d) (hd : 0 < d) :
    (ahead a b : Int) = d := by
  have hlt : ahead a b < 4294967296 := (b - a).isLt
  unfold serialDiff at h
  split at h <;> omega

/-- The judgement of a timed cue whose body is in order (R142, steps 2 to 4; R143). -/
theorem actCueAt_eq {r : Req} {d3 d2 d1 d0 lead k a b : Byte} (hbody : r.body = [d3, d2, d1, d0, lead, k, a, b])
    (s : State) : actCueAt r s = match leadOfByte lead, cueOfBytes k a b with
      | some L, some c =>
        if (s.gateway (timedGateway L)).enabled = false then answer .closed s
        else if Config.cueHorizon < serialDiff s.ltu.count (num4 d3 d2 d1 d0) then answer .range s
        else if 0 < serialDiff s.ltu.count (num4 d3 d2 d1 d0) then
          enterTimed { due := num4 d3 d2 d1 d0, lead := L, cue := c, mark := false } false s
        else if -serialDiff s.ltu.count (num4 d3 d2 d1 d0) ≤ s.config.lateWindow then
          enterTimed { due := s.ltu.count, lead := L, cue := c, mark := true } false s
        else
          match s.config.latePolicy with
          | .apply => enterTimed { due := s.ltu.count, lead := L, cue := c, mark := true } true s
          | .drop => answer .late (raise .cueLate (.lead L) s)
      | _, _ => answer .range s := by
  unfold actCueAt
  rw [hbody]
  rfl

theorem enterTimed_full {s : State} (h : 16 ≤ s.timed.length) (e : TimedEntry) (late : Bool) :
    enterTimed e late (reserved s) = answer .full (raise .cueOverflow (.lead e.lead) (reserved s)) := by
  unfold enterTimed
  rw [if_pos (show Config.timedSize ≤ (reserved s).timed.length from h)]

/-- The state of an accepted entry: in its place, the lead's due entry handed over (R141, R142). -/
def entered (e : TimedEntry) (es : List TimedEntry) (s : State) : State := handOff e.lead { s with timed := es }

theorem entered_outq (e : TimedEntry) (es : List TimedEntry) (s : State) : (entered e es s).outq = s.outq :=
  handOff_outq _ _

theorem enterTimed_accepted {s : State} (h : s.timed.length < 16) (e : TimedEntry) (late : Bool) :
    enterTimed e late (reserved s) = answer .done
      (if late then raise .cueLate (.lead e.lead) (reserved (entered e (insertEntry s.ltu.count e s.timed) s))
      else reserved (entered e (insertEntry s.ltu.count e s.timed) s)) := by
  unfold enterTimed
  rw [if_neg (show ¬Config.timedSize ≤ (reserved s).timed.length from not_le.2 h)]
  simp only [entered, ← handOff_reserved]
  rfl

theorem exec_cueAt_answered {r : Req} {s u : State} {st : Status} (ha : Answerable r s)
    (hlength : r.body.length = 8) (hq : u.outq = s.outq)
    (hact : actCueAt r (reserved s) = answer st (reserved u)) :
    exec (.cueAt r) s = .next (answered r st [] u) :=
  checked_answered (k := .cueAt) ha (by rw [hlength]; rfl) hq hact

theorem exec_cueAt_replied {r : Req} {s u : State} {st : Status} (ha : Answerable r s)
    (hlength : r.body.length = 8) (hact : actCueAt r (reserved s) = answer st u) :
    exec (.cueAt r) s = .next (repliedIn r st s u) := by
  have hchecked : checked .cueAt actCueAt r (reserved s) = answer st u := by
    rw [CueFlush.checked_of_bodyLengthOk (by rw [hlength]; rfl), hact]
  have honly : OnlyRequest (reserved s) (checked .cueAt actCueAt r (reserved s)).state := by
    rw [hchecked, show (answer st u).state = (actCueAt r (reserved s)).state by rw [hact]]
    exact (actCueAt_onlyEngine r _).request
  show whenReleased s (takeRequest (checked .cueAt actCueAt) r s) = _
  rw [whenReleased_of_released ha.1, takeRequest_replied ha honly, hchecked]
  rfl

theorem entered_reserved_frame {e : TimedEntry} {es : List TimedEntry} {s u : State}
    (h : OnlyFaults (reserved (entered e es s)) u) (r : Req) (st : Status) :
    repliedIn r st s u = { s with
      timed := (repliedIn r st s u).timed, gateways := (repliedIn r st s u).gateways
      voices := (repliedIn r st s u).voices, faults := (repliedIn r st s u).faults
      pointer := (repliedIn r st s u).pointer, counters := (repliedIn r st s u).counters
      outq := (repliedIn r st s u).outq } := by
  unfold repliedIn
  rw [h.eq, entered, handOff_eq]
  rfl

theorem repliedIn_frame {s u : State} (h : OnlyFaults (reserved s) u) (r : Req) (st : Status) :
    repliedIn r st s u = { s with
      voices := (repliedIn r st s u).voices, faults := (repliedIn r st s u).faults
      pointer := (repliedIn r st s u).pointer, counters := (repliedIn r st s u).counters
      outq := (repliedIn r st s u).outq } := by
  unfold repliedIn
  rw [h.eq]
  rfl

/-- The reply stands where the queue ended, when what follows the reservation is behind it (R175). -/
theorem repliedIn_place {s u w : State} (h : OnlyFaults (reserved w) u) (hq : w.outq = s.outq) (r : Req)
    (st : Status) : (repliedIn r st s u).outq[s.outq.length]? = some (.reply
      { dest := r.source, source := s.nodeAddr, kind := statusByte st, tag := r.tag, body := [] }) := by
  refine replied_place ?_ _
  have hlen := h.queue.length_le
  have hres : (reserved w).outq.length = s.outq.length + 1 := by simp [reserved, hq]
  omega

theorem serialDiff_late {d : Int} {window : Nat} :
    ¬-d ≤ (window : Int) ↔ decide (d < -(window : Int)) = true := by
  rw [decide_eq_true_iff]
  omega

/-- Settles O44, by the judgements of CUE_AT in their order. -/
theorem cueAtJudged : Obligations.CueAtJudged := by
  intro r s ha d3 d2 d1 d0 lead k a b hbody
  have hlength : r.body.length = 8 := by rw [hbody]; rfl
  have hact := actCueAt_eq hbody (reserved s)
  refine ⟨fun h => exec_cueAt_answered ha hlength rfl ?_, fun L c hL hc => ?_⟩
  · rw [hact]
    obtain h | h := h
    · rw [leadOfByte_of_two_le h]
    · rw [h]
      split
      · contradiction
      · rfl
  have hlead : leadOfByte lead = some L := by rw [hL]; exact leadOfByte_code L
  simp only [hlead, hc] at hact
  intro g due d late
  have hgate : ((reserved s).gateway (timedGateway L)).enabled = (s.gateway g).enabled := rfl
  have hdiff : serialDiff (reserved s).ltu.count (num4 d3 d2 d1 d0) = d := rfl
  have hwindow : (reserved s).config.lateWindow = s.config.lateWindow := rfl
  have hpolicy : (reserved s).config.latePolicy = s.config.latePolicy := rfl
  have hcount : (reserved s).ltu.count = s.ltu.count := rfl
  rw [hgate, hdiff, hwindow, hpolicy, hcount] at hact
  refine ⟨fun h => exec_cueAt_answered ha hlength rfl ?_, fun hon => ?_⟩
  · rw [hact, if_pos h]
  rw [if_neg (by rw [hon]; exact Bool.noConfusion)] at hact
  have hnow (hd : d ≤ 0) : actCueAt r (reserved s) = if late then
      (match s.config.latePolicy with
        | .apply => enterTimed { due := s.ltu.count, lead := L, cue := c, mark := true } true (reserved s)
        | .drop => answer .late (raise .cueLate (.lead L) (reserved s)))
      else enterTimed { due := s.ltu.count, lead := L, cue := c, mark := true } false (reserved s) := by
    rw [hact, if_neg (show ¬Config.cueHorizon < d by simp only [Config.cueHorizon]; omega),
      if_neg (not_lt.2 hd)]
    by_cases hlate : late = true
    · rw [if_neg (serialDiff_late.2 hlate), if_pos hlate]
    · rw [if_pos (not_not.1 fun e => hlate (serialDiff_late.1 e)), if_neg hlate]
  refine ⟨fun hfar => exec_cueAt_answered ha hlength rfl ?_, fun hpos hnear hroom => ?_,
    fun hd hroom hpol => ?_, fun hd hlate hpol => ?_, fun hd hfull hpol => ?_⟩
  · rw [hact, if_pos (show Config.cueHorizon < d from hfar)]
  · obtain ⟨pre, post, hsplit, hpre, hpost, hin⟩ := insertByDistance_split s.ltu.count
      { due := due, lead := L, cue := c, mark := false } s.timed
    have hahead : (ahead s.ltu.count due : Int) = d := ahead_eq_of_serialDiff rfl hpos
    refine ⟨pre, post, hsplit, fun x hx => ?_, fun x hx => ?_,
      exec_cueAt_answered ha hlength (handOff_outq _ _) ?_⟩
    · have hle := hpre x hx
      simp only at hle
      omega
    · have hlt := hpost x hx
      simp only at hlt
      omega
    · rw [hact, if_neg (show ¬Config.cueHorizon < d from not_lt.2 hnear), if_pos hpos,
        enterTimed_accepted hroom]
      rw [← hin]
      rfl
  · obtain ⟨pre, post, hsplit, hpre, hpost, hin⟩ := insertEntry_due_split s.ltu.count
      (e := { due := s.ltu.count, lead := L, cue := c, mark := true }) rfl s.timed
    have haccepted : actCueAt r (reserved s)
        = enterTimed { due := s.ltu.count, lead := L, cue := c, mark := true } late (reserved s) := by
      rw [hnow hd]
      cases hlate : late with
      | false => rfl
      | true => rw [hpol hlate]; rfl
    rw [enterTimed_accepted hroom, hin] at haccepted
    refine ⟨pre, post, _, hsplit, hpre, hpost, exec_cueAt_replied ha hlength haccepted, ?_, fun hlate => ?_,
      fun hlate => ?_⟩
    · cases late with
      | false => exact entered_reserved_frame (.refl _) r .done
      | true => exact entered_reserved_frame (raise_onlyFaults ..) r .done
    · rw [hlate] at haccepted ⊢
      have hanswered := (exec_cueAt_replied ha hlength haccepted).symm.trans
        (exec_cueAt_answered ha hlength (entered_outq ..) haccepted)
      exact Host.Outcome.next.inj hanswered
    · have honly := raise_onlyFaults .cueLate (.lead L) (reserved (entered
        { due := s.ltu.count, lead := L, cue := c, mark := true }
        (pre ++ { due := s.ltu.count, lead := L, cue := c, mark := true } :: post) s))
      rw [hlate]
      refine ⟨rfl, honly.timed, honly.gateways, repliedIn_place honly (handOff_outq _ _) r .done, fun hmask => ?_⟩
      refine raise_sets .cueLate _ _ ?_
      rw [show (reserved (entered { due := s.ltu.count, lead := L, cue := c, mark := true }
        (pre ++ { due := s.ltu.count, lead := L, cue := c, mark := true } :: post) s)).fault .cueLate
          = s.fault .cueLate by unfold entered; rw [handOff_eq]; rfl]
      exact hmask
  · have hdropped : actCueAt r (reserved s) = answer .late (raise .cueLate (.lead L) (reserved s)) := by
      rw [hnow hd, if_pos hlate, hpol]
    have honly := raise_onlyFaults .cueLate (.lead L) (reserved s)
    exact ⟨_, exec_cueAt_replied ha hlength hdropped, repliedIn_frame honly r .late,
      repliedIn_place honly rfl r .late, rfl, fun hmask => raise_sets .cueLate _ _ hmask⟩
  · have hrefused : actCueAt r (reserved s) = answer .full (raise .cueOverflow (.lead L) (reserved s)) := by
      by_cases hpos : 0 < d
      · rw [hact, if_neg (show ¬Config.cueHorizon < d from not_lt.2 hd), if_pos hpos, enterTimed_full hfull]
      · rw [hnow (not_lt.1 hpos)]
        cases hlate : late with
        | false => exact enterTimed_full hfull _ _
        | true => rw [hpol hlate]; exact enterTimed_full hfull _ _
    have honly := raise_onlyFaults .cueOverflow (.lead L) (reserved s)
    exact ⟨_, exec_cueAt_replied ha hlength hrefused, repliedIn_frame honly r .full,
      repliedIn_place honly rfl r .full, rfl,
      raise_fault_ne (k := .cueOverflow) (j := .cueLate) (by decide) (by decide) _ _,
      fun hmask => raise_sets .cueOverflow _ _ hmask⟩

end Sys2Proof.Proofs.CueRequests
end

