-- ==== Sys2Proof/Proofs/FaultRequests.lean ====
section
/-! PROOF. The requests of the Fault Unit, the counters and the engine reset (R100, R153, R157, R158, R162 to
R164, R184). -/

namespace Sys2Proof.Proofs.FaultRequests

open Sys2Proof Sys2Proof.Machine Sys2Proof.Safety Sys2Proof.Proofs.CueFlush Sys2Proof.Proofs.Answers
  Sys2Proof.Proofs.Operands Sys2Proof.Proofs.Occurrences Sys2Proof.Proofs.VoiceLaws Sys2Proof.Proofs.Queues
  Sys2Proof.Proofs.TableRequests Sys2Proof.Proofs.CueUnit

/-! ### Kind sets -/

/-- The bytes of a kind set name the kind (R188). -/
def Named (hi lo : Byte) (k : FaultKind) : Bool :=
  (BitVec.ofNat 16 (hi.toNat * 256 + lo.toNat)).getLsbD (faultCode k).val

theorem mem_faultKinds (k : FaultKind) : k ∈ faultKinds := by cases k <;> decide

theorem mem_named {hi lo : Byte} {k : FaultKind} :
    k ∈ faultKinds.filter (Named hi lo) ↔ Named hi lo k = true := by
  simp [mem_faultKinds]

theorem kindSetOfBytes_high {hi : Byte} (h : 32 ≤ hi.toNat) (lo : Byte) : kindSetOfBytes hi lo = none := by
  unfold kindSetOfBytes num2
  rw [if_neg (by omega)]

theorem kindSetOfBytes_low {hi : Byte} (h : hi.toNat < 32) (lo : Byte) :
    kindSetOfBytes hi lo = some (faultKinds.filter (Named hi lo)) := by
  have hlo := lo.isLt
  unfold kindSetOfBytes num2
  rw [if_pos (by omega)]
  rfl

theorem scopeNone_iff (k : FaultKind) : scopeNone k = decide ((faultCode k).val ≤ 4) := by
  cases k <;> rfl

/-- The pointer after the named kinds are cleared (R153). -/
theorem pointerWithout_named (p : Option FaultKind) (hi lo : Byte) :
    pointerWithout p (faultKinds.filter (Named hi lo)) = match p with
      | some k => if Named hi lo k then none else some k
      | none => none := by
  cases p with
  | none => rfl
  | some k => simp only [pointerWithout, mem_named]

/-! ### Clearing and setup behind acceptance -/

theorem mapKinds_reserved (f : FaultKind → FaultRecord → FaultRecord) : ∀ (ks : List FaultKind) (s : State),
    mapKinds ks f (reserved s) = reserved (mapKinds ks f s)
  | [], _ => rfl
  | k :: ks, s => mapKinds_reserved f ks (s.setFault k (f k (s.fault k)))

theorem clearKinds_reserved (ks : List FaultKind) (s : State) :
    clearKinds ks (reserved s) = reserved (clearKinds ks s) := by
  unfold clearKinds
  rw [mapKinds_reserved]
  rfl

theorem setupKinds_reserved (ks : List FaultKind) (detect report : Bool) (sev : Severity) (s : State) :
    setupKinds ks detect report sev (reserved s) = reserved (setupKinds ks detect report sev s) := by
  unfold setupKinds
  rw [mapKinds_reserved]
  cases detect with
  | false => rfl
  | true => exact clearKinds_reserved _ _

theorem clearKinds_eq (ks : List FaultKind) (s : State) : clearKinds ks s = { s with
    faults := (clearKinds ks s).faults, voices := s.voices.map fun x => x.unmutedBy ks
    pointer := pointerWithout s.pointer ks } := by
  unfold clearKinds
  rw [mapKinds_rest]
  rfl

theorem setupKinds_eq (ks : List FaultKind) (detect report : Bool) (sev : Severity) (s : State) :
    setupKinds ks detect report sev s = { s with
      faults := (setupKinds ks detect report sev s).faults
      voices := if detect then s.voices.map (fun x => x.unmutedBy ks) else s.voices
      pointer := if detect then pointerWithout s.pointer ks else s.pointer } := by
  unfold setupKinds
  cases detect with
  | false =>
    simp only [Bool.false_eq_true, if_false]
    rw [mapKinds_rest]
  | true =>
    simp only [if_true]
    rw [clearKinds_eq, mapKinds_rest]

/-! ### The unmute of a voice -/

theorem unmutedBy_of_holds {x : Voice} {ks : List FaultKind} (h : ∃ k ∈ x.faults, k ∉ ks) :
    (x.unmutedBy ks).state = x.state ∧ (x.unmutedBy ks).dest = x.dest := by
  obtain ⟨k, hk, hout⟩ := h
  have hrest : x.faults.filter (fun k => !ks.contains k) ≠ [] :=
    List.ne_nil_of_mem (List.mem_filter.2 ⟨hk, by simpa using hout⟩)
  unfold Voice.unmutedBy
  simp only [if_pos hrest]
  split <;> exact ⟨rfl, rfl⟩

/-- An unmute that empties the set, by the state of the voice (R100). -/
theorem unmutedBy_of_empties {x : Voice} {ks : List FaultKind} (h : ∀ k ∈ x.faults, k ∈ ks)
    (hne : x.faults ≠ []) : x.unmutedBy ks = match x.state with
      | .muted => { x with faults := [], state := .idle, envelope := 0 }
      | .falling =>
        match x.dest with
        | .muted =>
          { x with faults := []
                   dest := if x.releaseMark then .off
                           else if x.pendingPart.isSome then .reassign else .idle }
        | .idle | .off | .reassign => { x with faults := [] }
      | .off | .idle | .rising | .sounding => { x with faults := [] } := by
  have hrest : x.faults.filter (fun k => !ks.contains k) = [] :=
    List.filter_eq_nil_iff.2 fun k hk => by simpa using h k hk
  unfold Voice.unmutedBy
  rw [hrest]
  rw [if_neg (Ne.symm hne), if_neg (not_not.2 rfl)] <;> rfl

theorem unmutedBy_eq {x : Voice} (ks : List FaultKind) (hx : VoiceOk x) :
    x.unmutedBy ks = { x with state := (x.unmutedBy ks).state, dest := (x.unmutedBy ks).dest
                              faults := (x.unmutedBy ks).faults } := by
  unfold Voice.unmutedBy
  simp only
  split
  · rfl
  · split
    · rfl
    · split
      next h =>
        have henvelope : x.envelope = 0 := hx.envelope_zero (by simp [Voice.runs, h])
        rw [← henvelope]
      · split <;> rfl
      all_goals rfl

theorem unmutedBy_by_state (x : Voice) (ks : List FaultKind) (hx : VoiceOk x) :
    (x.unmutedBy ks).faults = x.faults.filter (fun k => !ks.contains k)
    ∧ ((∃ k ∈ x.faults, k ∉ ks) →
      (x.unmutedBy ks).state = x.state ∧ (x.unmutedBy ks).dest = x.dest)
    ∧ ((∀ k ∈ x.faults, k ∈ ks) →
      (x.state = .muted → (x.unmutedBy ks).state = .idle ∧ (x.unmutedBy ks).envelope = 0)
      ∧ (x.state = .falling → x.dest = .muted →
        (x.unmutedBy ks).state = .falling
        ∧ (x.unmutedBy ks).dest =
          (if x.releaseMark then .off else if x.pendingPart ≠ none then .reassign else .idle)))
    ∧ x.unmutedBy ks = { x with state := (x.unmutedBy ks).state, dest := (x.unmutedBy ks).dest
                                faults := (x.unmutedBy ks).faults } := by
  refine ⟨x.unmutedBy_faults ks, unmutedBy_of_holds, fun h => ⟨fun hm => ?_, fun hf hd => ?_⟩,
    unmutedBy_eq ks hx⟩
  · rw [unmutedBy_of_empties h (hx.muted_faults hm), hm]
    exact ⟨rfl, rfl⟩
  · rw [unmutedBy_of_empties h (hx.falls_muted hf hd)]
    simp only [hf, hd]
    exact ⟨trivial, by cases x.pendingPart <;> rfl⟩

/-! ### FAULT_CLEAR and FAULT_SETUP -/

theorem exec_faultClear {r : Req} {s u : State} {st : Status} (ha : Answerable r s)
    (hlength : r.body.length = 2) (hq : u.outq = s.outq)
    (hact : actFaultClear r (reserved s) = answer st (reserved u)) :
    exec (.faultClear r) s = .next (answered r st [] u) :=
  checked_answered (k := .faultClear) ha (by rw [hlength]; rfl) hq hact

theorem exec_faultSetup {r : Req} {s u : State} {st : Status} (ha : Answerable r s)
    (hlength : r.body.length = 5) (hq : u.outq = s.outq)
    (hact : actFaultSetup r (reserved s) = answer st (reserved u)) :
    exec (.faultSetup r) s = .next (answered r st [] u) :=
  checked_answered (k := .faultSetup) ha (by rw [hlength]; rfl) hq hact

/-- The severity a FAULT_SETUP names (R158, R188). -/
def severityOfByte (b : Byte) : Severity := if b = 1 then .mute else .notice

theorem flag_of_byte (b : Byte) : (b != 0) = decide (b ≠ 0) := by
  rw [bne, beq_eq_decide, decide_not]

theorem actFaultSetup_of_kinds {r : Req} {hi lo detect report sev : Byte}
    (hbody : r.body = [hi, lo, detect, report, sev]) (hhi : hi.toNat < 32) (hsev : sev.toNat < 2) (s : State) :
    actFaultSetup r s = answer .done
      (setupKinds (faultKinds.filter (Named hi lo)) (detect != 0) (report != 0) (severityOfByte sev) s) := by
  have hsets : kindSetOfBytes (byteAt r.body 0) (byteAt r.body 1) = some (faultKinds.filter (Named hi lo)) := by
    rw [hbody]; exact kindSetOfBytes_low hhi lo
  obtain rfl | rfl : sev = 0 ∨ sev = 1 := by bv_omega
  · simp only [actFaultSetup, hsets]
    rw [hbody]
    rfl
  · simp only [actFaultSetup, hsets]
    rw [hbody]
    rfl

/-- Settles O46: the kind set is read, the records of its kinds are written, and the unmute of each voice takes
the cleared kinds out of its set. -/
theorem faultsClearedAndSet : Obligations.FaultsClearedAndSet := by
  refine ⟨fun r s ha hi lo => ⟨fun hbody => ⟨fun h => ?_, fun h => ?_⟩, fun detect report sev hbody =>
    ⟨fun h => ?_, fun h hsev => ?_⟩⟩, ⟨rfl, rfl, scopeNone_iff⟩, unmutedBy_by_state⟩
  · refine exec_faultClear ha (by rw [hbody]; rfl) rfl ?_
    simp only [actFaultClear, hbody, byteAt, List.getD_cons_zero, List.getD_cons_succ, kindSetOfBytes_high h]
  · refine ⟨clearKinds (faultKinds.filter (Named hi lo)) s,
      exec_faultClear ha (by rw [hbody]; rfl) (clearKinds_outq ..) ?_, ?_, fun k => ?_⟩
    · rw [← clearKinds_reserved]
      simp only [actFaultClear, hbody, byteAt, List.getD_cons_zero, List.getD_cons_succ, kindSetOfBytes_low h]
    · refine (clearKinds_eq _ s).trans ?_
      rw [pointerWithout_named]
      rfl
    · rw [clearKinds_fault]
      simp only [mem_named]
      rfl
  · refine exec_faultSetup ha (by rw [hbody]; rfl) rfl ?_
    simp only [actFaultSetup, hbody, byteAt, List.getD_cons_zero, List.getD_cons_succ]
    by_cases hhi : 32 ≤ hi.toNat
    · rw [kindSetOfBytes_high hhi]
    · rw [kindSetOfBytes_low (not_le.1 hhi)]
      simp only
      split
      · omega
      · omega
      · rfl
  · refine ⟨_, exec_faultSetup ha (by rw [hbody]; rfl) (setupKinds_outq ..)
      ((actFaultSetup_of_kinds hbody h hsev _).trans (congrArg _ (setupKinds_reserved ..))), ?_, fun k => ?_⟩
    · refine (setupKinds_eq _ _ _ _ s).trans ?_
      rw [pointerWithout_named]
      by_cases hd : detect = 0
      · subst hd
        rfl
      · simp only [bne_iff_ne.2 hd, if_true, hd, if_false]
        rfl
    · rw [setupKinds_fault]
      simp only [mem_named]
      show (if Named hi lo k = true then _ else _) = if Named hi lo k = true then _ else _
      by_cases hk : Named hi lo k = true
      · rw [if_pos hk, if_pos hk]
        have hscope : (if scopeNone k then Severity.notice else severityOfByte sev)
            = if sev = 1 ∧ 5 ≤ (faultCode k).val then .mute else .notice := by
          rw [scopeNone_iff, severityOfByte]
          by_cases hcode : (faultCode k).val ≤ 4
          · simp [hcode, show ¬5 ≤ (faultCode k).val by omega]
          · simp [hcode, show 5 ≤ (faultCode k).val by omega]
        unfold setupRecord
        rw [hscope]
        rw [flag_of_byte, flag_of_byte]
        by_cases hd : detect = 0#8
        · simp [hd]
        · simp [hd]
      · rw [if_neg hk, if_neg hk]

/-! ### Counters -/

theorem eventCode_eq (e : Event) : eventCode e = match e with
    | .voicedBlock .a => 1 | .voicedBlock .b => 2 | .noteChange .a => 3 | .noteChange .b => 4
    | .unmatched => 5 | .cueApplied => 6 | .cueDuringTransition => 7 | .cueDropped => 8 | .splice => 9
    | .accepted => 10 | .relayed => 11 | .phantom => 12 | .faultOccurrence => 13 | .stepNoNext => 14 := by
  rcases e with (_ | _) | (_ | _) | _ | _ | _ | _ | _ | _ | _ | _ | _ | _ <;> rfl

/-- COUNTER_SETUP of a counter of the device, behind acceptance (R164). -/
theorem actCounterSetup_of_counter {r : Req} {n sel flags : Byte} {i : Fin 4} (hbody : r.body = [n, sel, flags])
    (hi : n.toNat = i.val) (s : State) : actCounterSetup r s = answer .done { s with
      counters := s.counters.set i
        { count := if flags.getLsbD 1 then 0 else s.counters[i].count
          selector := if 1 ≤ sel.toNat ∧ sel.toNat ≤ 14 then sel.toNat else 0
          inhibit := flags.getLsbD 0 } } := by
  have hindex : finOf 4 (byteAt r.body 0).toNat = some i := by rw [hbody]; exact finOf_eq_some.2 hi
  simp only [actCounterSetup, hindex]
  rw [hbody]
  rfl

/-- Settles O47. -/
theorem counterStored : Obligations.CounterStored := by
  refine ⟨fun e s => ?_, fun c code => rfl, fun r s ha n sel flags hbody => ⟨fun h => ?_, fun i hi => ?_⟩⟩
  · exact congrArg (fun code => { s with counters := s.counters.map fun c : Counter => c.after code }) (eventCode_eq e)
  · refine checked_answered (k := .counterSetup) (act := actCounterSetup) ha (by rw [hbody]; rfl) rfl ?_
    simp only [actCounterSetup, hbody, byteAt, List.getD_cons_zero, finOf_eq_none.2 h]
    rfl
  · have hlength : bodyLengthOk .counterSetup r.body.length = true := by rw [hbody]; rfl
    have hact := (checked_of_bodyLengthOk hlength actCounterSetup (reserved s)).trans
      (actCounterSetup_of_counter hbody hi _)
    have htaken := takeRequest_replied (act := checked .counterSetup actCounterSetup) ha (by
      rw [hact]
      exact ⟨rfl, List.prefix_refl _⟩)
    rw [hact] at htaken
    refine ⟨_, (whenReleased_of_released ha.1 _).trans (congrArg _ htaken), ?_, fun j hj => ?_, ?_⟩
    · simp [answer, answered, reserved]
    · have hne : i.val ≠ j.val := fun e => hj (Fin.ext e.symm)
      simp [answer, reserved, hne]
    · simp [answer, reserved]

/-! ### ENGINE_RESET -/

/-- No voice claims a slot after an engine reset (R7, R90). -/
theorem engineReset_claims (s : State) (k : Fin 24) : claimed (claims (engineReset s)) k = false := by
  rw [← Bool.not_eq_true, claimed_iff]
  rintro ⟨v, hv⟩
  rw [engineReset_voice] at hv
  exact absurd ((claims_iff _ _).1 hv).1 (not_not.2 rfl)

/-- Settles O48. -/
theorem engineResetTaken : Obligations.EngineResetTaken := by
  intro r s ha hbody
  refine ⟨engineReset s, checked_answered (k := .engineReset) (act := actEngineReset) ha (by rw [hbody]; rfl)
    rfl rfl, rfl, rfl, fun L => by cases L <;> rfl, fun v => engineReset_voice s v, fun l => ?_, fun g => ?_,
    engineReset_claims s⟩
  · simp [engineReset, State.pedal, PedalLine.engineReset]
  · simp [engineReset, State.gateway]

end Sys2Proof.Proofs.FaultRequests
end

