-- ==== Sys2Proof/Proofs/ResetRows.lean ====
section
/-! PROOF. The front command, the resets, the receiver and the ends of a ramp (R1, R16, R17, R20, R23, R97, R103),
and the laws in the state of power-on reset. -/

namespace Sys2Proof.Proofs.ResetRows

open Sys2Proof Sys2Proof.Machine Sys2Proof.Safety Sys2Proof.Proofs.CueFlush Sys2Proof.Proofs.VoiceLaws
  Sys2Proof.Proofs.Queues Sys2Proof.Proofs.LinkParts Sys2Proof.Proofs.CueUnit Sys2Proof.Proofs.CueLaws
  Sys2Proof.Proofs.RecordRanges

/-- Settles O1. -/
theorem stepTakesFrontCommand : Obligations.StepTakesFrontCommand := by
  intro s c rest h
  unfold step
  rw [h]

theorem step_idle {s : State} (h : s.pending = []) : step s = .next (localTick s) := by
  unfold step
  rw [h]

/-! ### Power-on reset -/

theorem addressOfStraps_eq (straps : BitVec 6) :
    addressOfStraps straps = if straps = 0 then 1 else if straps = 63 then 62 else straps.setWidth 8 := by
  have h0 : straps.toNat = 0 ↔ straps = 0 := by bv_omega
  have h63 : straps.toNat = 63 ↔ straps = 63 := by bv_omega
  unfold addressOfStraps byte1
  rw [BitVec.ofNat_toNat]
  simp only [h0, h63]

/-- Settles O4: each block of the reset state is evaluated at each of its places. -/
theorem powerOnResetValues : Obligations.PowerOnResetValues := by
  intro straps s
  refine ⟨powerOn straps s, rfl, rfl, rfl, rfl, rfl, addressOfStraps_eq straps, rfl,
    fun L => by cases L <;> rfl, fun v => (reset_voice v :), ?_, ?_, ?_, rfl, rfl, ?_, ?_, rfl, rfl, rfl,
    fun k => (reset_fault k :), rfl, ?_, rfl, rfl, rfl, rfl⟩
  · show ∀ i : Fin 2, State.reset.tuning[i] = []
    decide
  · show ∀ i : Fin 16, State.reset.maps[i] = List.replicate 48 none
    decide
  · show ∀ i : Fin 32, State.reset.scenes[i] = Scene.empty
    decide
  · show ∀ l : LineId, (State.reset.pedal l).debounce = 0 ∧ (State.reset.pedal l).stuck = 0
      ∧ (State.reset.pedal l).stuckMark = false
    decide
  · show ∀ g : Fin 8, (State.reset.gateway g).enabled = decide (4 ≤ g.val) ∧ (State.reset.gateway g).priority = 8
        ∧ (State.reset.gateway g).pending = none
        ∧ (g.val < 4 → (State.reset.gateway g).lead = .a ∧ (State.reset.gateway g).type = .moment
          ∧ (State.reset.gateway g).press = none ∧ (State.reset.gateway g).release = none
          ∧ (State.reset.gateway g).stuckClose = false)
    decide
  · show ∀ i : Fin 4, State.reset.counters[i] = { count := 0, selector := 0, inhibit := false }
    decide

/-- Settles O49, law by law. -/
theorem lawsHoldAtReset : Obligations.LawsHoldAtReset where
  heads := headsInBounds_voiceSteps.reset
  queues := (queuesBounded_iff _).2 ⟨bounded_reset, storesOk_keptByParts.reset⟩
  replies := List.not_mem_nil
  timed := timedOrdered_keptByParts.reset
  faults := faultLaw_voiceSteps.reset
  voices := voiceLaw_voiceSteps.reset
  slots := leadSlotsFree_voiceSteps.reset
  tables := tablesLaw_reset
  link := (ltuLaw_iff _).2 ltuOk_reset
  histories := historyLaw_keptByParts.reset
  cues := cueUnitLaw_reset

/-! ### The receiver and the held reset -/

theorem whenReleased_of_low {s : State} (h : s.resetLow = true) (t : State) : whenReleased s t = .next s := by
  simp [whenReleased, h]

/-- Every row but the two resets is `whenReleased` (R16, R17; log entry 9). -/
theorem exec_of_low {s : State} (h : s.resetLow = true) {c : Instr}
    (hpower : ∀ straps, c ≠ .powerOnReset straps) (hlow : c ≠ .resetNHeldLow) : exec c s = .next s := by
  cases c with
  | powerOnReset straps => exact absurd rfl (hpower straps)
  | resetNHeldLow => exact absurd rfl hlow
  | _ => exact whenReleased_of_low h _

/-- Settles O5. -/
theorem receiverAndHeldReset : Obligations.ReceiverAndHeldReset := by
  refine ⟨fun link => by cases link <;> decide, fun s => ⟨rfl, fun h => ⟨?_, ?_, fun hlink hrun => ?_⟩⟩,
    fun s h => ⟨fun c hpower hlow => exec_of_low h hpower hlow, fun hidle => ?_⟩⟩
  · refine (whenReleased_of_released h (startFrame s)).trans ?_
    unfold startFrame
    cases s.ltu.link.running <;> rfl
  · exact whenReleased_of_released h (loseSync s)
  · refine (whenReleased_of_released h (achieveLock s)).trans ?_
    unfold achieveLock
    rw [if_pos ⟨hlink, by rw [hrun]⟩]
  · rw [step_idle hidle, localTick, if_pos h]

/-! ### The ends of crossfade and rise -/

/-- Settles O19. -/
theorem crossfadeAndRiseEnd : Obligations.CrossfadeAndRiseEnd := by
  refine fun v s h => ⟨fun d2 hfade => ?_, fun hstate hfull => ?_⟩
  · refine (whenReleased_of_released h (endCrossfade v s)).trans ?_
    simp only [endCrossfade, hfade, Voice.crossfadeDone, le_refl, if_true]
  · refine (whenReleased_of_released h (endRise v s)).trans ?_
    rw [endRise, if_pos ⟨hstate, hfull⟩]
    rfl

end Sys2Proof.Proofs.ResetRows
end

