-- ==== Sys2Proof/Proofs/VoiceEvents.lean ====
section
/-! PROOF. The end of a fall by its destination (R93, R98) and the splice of a head out of its band (R102). -/

namespace Sys2Proof.Proofs.VoiceEvents

open Sys2Proof Sys2Proof.Machine Sys2Proof.Safety Sys2Proof.Proofs.CueFlush

/-! ### The end of a fall -/

/-- The state of a voice gone OFF at the end of its fall (R90, R98). -/
def fallenOff (v : VoiceId) (s : State) : State := clearFrozen v (s.setVoice v (s.voice v).stopped.goneOff)

theorem endFall_idle {v : VoiceId} {s : State} (h : (s.voice v).dest = .idle) :
    endFall v s = (s.setVoice v { (s.voice v).stopped with state := .idle }, none) := by
  unfold endFall
  simp only [Voice.stopped, h, State.setVoice_setVoice]

theorem endFall_reassign_none {v : VoiceId} {s : State} (h : (s.voice v).dest = .reassign)
    (hpart : (s.voice v).pendingPart = none) :
    endFall v s = (s.setVoice v { (s.voice v).stopped with state := .idle }, none) := by
  unfold endFall
  simp only [Voice.stopped, h, hpart, State.setVoice_setVoice]

theorem goOff_stopped (v : VoiceId) (s : State) :
    goOff v (s.setVoice v (s.voice v).stopped) = fallenOff v s := by
  simp only [goOff, fallenOff, State.voice_setVoice, State.setVoice_setVoice]

theorem endFall_off {v : VoiceId} {s : State} (h : (s.voice v).dest = .off) :
    endFall v s = (fallenOff v s, none) := by
  unfold endFall
  rw [← goOff_stopped]
  simp only [Voice.stopped, h]

theorem endFall_muted_mark {v : VoiceId} {s : State} (h : (s.voice v).dest = .muted)
    (hmark : (s.voice v).releaseMark = true) : endFall v s = (fallenOff v s, none) := by
  unfold endFall
  rw [← goOff_stopped]
  simp only [Voice.stopped, h, hmark, if_true]

theorem endFall_muted {v : VoiceId} {s : State} (h : (s.voice v).dest = .muted)
    (hmark : (s.voice v).releaseMark = false) (hpart : (s.voice v).pendingPart = none) :
    endFall v s = (s.setVoice v { (s.voice v).stopped with state := .muted }, none) := by
  unfold endFall
  simp only [Voice.stopped, h, hmark, hpart, Bool.false_eq_true, if_false, State.setVoice_setVoice]

/-- A fall that ends at an assignment takes it (R93, R98). -/
theorem endFall_part {v : VoiceId} {s : State} {p : Assignment} (hpart : (s.voice v).pendingPart = some p)
    (h : (s.voice v).dest = .reassign ∨ ((s.voice v).dest = .muted ∧ (s.voice v).releaseMark = false)) :
    endFall v s = takePartAtEnd v p (s.setVoice v (s.voice v).stopped) := by
  unfold endFall
  obtain h | ⟨h, hmark⟩ := h
  · simp only [Voice.stopped, h, hpart]
  · simp only [Voice.stopped, h, hmark, hpart, Bool.false_eq_true, if_false]

theorem takePartAtEnd_stopped_free {v : VoiceId} {s : State} {p : Assignment} (h : s.isLeadSlot p.slot = false) :
    takePartAtEnd v p (s.setVoice v (s.voice v).stopped) =
      (clearFrozen v (s.setVoice v ((s.voice v).stopped.tookPart p)), none) := by
  have hslot : (s.setVoice v (s.voice v).stopped).isLeadSlot p.slot = false := h
  simp only [takePartAtEnd, takePart, hslot, Bool.false_eq_true, if_false, State.voice_setVoice,
    State.setVoice_setVoice]

theorem takePartAtEnd_stopped_taken {v : VoiceId} {s : State} {p : Assignment} (h : s.isLeadSlot p.slot = true) :
    takePartAtEnd v p (s.setVoice v (s.voice v).stopped) = (fallenOff v s, (s.voice v).owner) := by
  have hslot : (s.setVoice v (s.voice v).stopped).isLeadSlot p.slot = true := h
  simp only [takePartAtEnd, takePart, hslot, if_true, State.voice_setVoice, goOff_stopped]
  rfl

/-- FALL_END, once the envelope's next step reaches 0 (R97, R98). -/
theorem exec_fallEnd {v : VoiceId} {s : State} (hlow : s.resetLow = false) (hstate : (s.voice v).state = .falling)
    (hend : (s.voice v).envelope ≤ (s.voice v).increment) :
    exec (.fallEnd v) s = .next (raiseSkipped (endFall v s).2 (endFall v s).1) := by
  refine (whenReleased_of_released hlow (finishFall v s)).trans ?_
  rw [finishFall, if_pos ⟨hstate, hend⟩]
  rfl

theorem fallenOff_voice (v : VoiceId) (s : State) :
    (fallenOff v s).voice v = (s.voice v).stopped.goneOff :=
  State.voice_setVoice ..

/-- An occurrence of scope LEAD leaves a voice of no owner as it is (R151). -/
theorem raise_voice_unowned (k : FaultKind) (L : Lead) {v : VoiceId} {s : State}
    (howner : (s.voice v).owner = none) : (raise k (.lead L) s).voice v = s.voice v := by
  unfold State.voice
  rw [Occurrences.raise_voices]
  split
  · cases hsev : (s.fault k).severity with
    | notice => rw [Occurrences.opened_voices_of_notice hsev]
    | mute =>
      refine (Occurrences.opened_voice_of_mute (fun _ _ e => by cases e) hsev v).trans ?_
      rw [if_neg]
      · rfl
      · simp [voiceInScope, howner]
  · rfl

/-- Settles O20, by the table of R98. -/
theorem fallEndTable : Obligations.FallEndTable := by
  refine ⟨fun v s => rfl, fun v s hlow hstate hend => ?_⟩
  have hexec := exec_fallEnd hlow hstate hend
  refine ⟨fun h => ?_, fun h => ?_, fun h hmark => ?_, fun h hmark hpart => ?_, fun p hpart h =>
    ⟨fun hfree => ?_, fun htaken L hL => ?_⟩⟩
  · rw [hexec, endFall_idle h]
    rfl
  · rw [hexec, endFall_off h]
    rfl
  · rw [hexec, endFall_muted_mark h hmark]
    rfl
  · rw [hexec, endFall_muted h hmark hpart]
    rfl
  · rw [hexec, endFall_part hpart h, takePartAtEnd_stopped_free hfree]
    simp only [Voice.tookPart, List.isEmpty_iff]
    rfl
  · rw [hexec, endFall_part hpart h, takePartAtEnd_stopped_taken htaken, show (s.voice v).owner = some L from hL]
    have hvoice := raise_voice_unowned .entrySkipped L (v := v) (s := fallenOff v s)
      (by rw [fallenOff_voice]; rfl)
    have hframe := raise_onlyFaults .entrySkipped (.lead L) (fallenOff v s)
    refine ⟨rfl, raise .entrySkipped (.lead L) (fallenOff v s), rfl, ?_, ?_, ?_, fun hmask => raise_sets _ _ _ hmask⟩
    · rw [hvoice, fallenOff_voice]
      rfl
    · rw [hvoice, fallenOff_voice]
      rfl
    · rw [hframe.leadA, hframe.leadB]
      exact hframe.eq

/-! ### The splice -/

/-- The least whole number of periods that covers a distance (R102). -/
theorem leastPeriods {n period : Int} (hperiod : 0 < period) :
    ∃ k : Nat, 1 ≤ k ∧ max 1 (ceilDiv n period) = k ∧ n ≤ k * period
      ∧ ∀ j : Nat, 1 ≤ j → j < k → j * period < n := by
  have hle := ceilDiv_le n period hperiod
  have hlt := ceilDiv_lt n period hperiod
  refine ⟨(max 1 (ceilDiv n period)).toNat, by omega, by omega, ?_, fun j hj hjk => ?_⟩
  · have hk : ((max 1 (ceilDiv n period)).toNat : Int) = max 1 (ceilDiv n period) := by omega
    rw [hk]
    exact hle.trans (mul_le_mul_of_nonneg_right (le_max_right _ _) hperiod.le)
  · have hstep : (j : Int) ≤ ceilDiv n period - 1 := by omega
    exact (mul_le_mul_of_nonneg_right hstep hperiod.le).trans_lt hlt

/-- Settles O21: below the band the head goes up, above it down, each by the least whole number of periods. -/
theorem spliceBand : Obligations.SpliceBand := by
  intro d p hp _
  have hperiod : (0 : Int) < p * Config.headUnit := by
    simp only [Config.headUnit]
    omega
  have hcast (k : Nat) : ((k * p * 16384 : Nat) : Int) = k * (p * Config.headUnit) := by
    simp only [Config.headUnit]
    push_cast
    ring
  refine ⟨fun hlow => ?_, fun hhigh => ?_, fun hlow hhigh => ?_⟩
  · obtain ⟨k, hk, hmax, hreach, hleast⟩ := leastPeriods (n := 5242880 - d) hperiod
    refine ⟨k, hk, ?_, ?_, fun j hj hjk => ?_⟩
    · rw [spliceTarget, if_pos (by omega), hmax, hcast]
    · rw [hcast]; omega
    · have := hleast j hj hjk
      rw [hcast]; omega
  · obtain ⟨k, hk, hmax, hreach, hleast⟩ := leastPeriods (n := d - 13631488) hperiod
    refine ⟨k, hk, ?_, ?_, fun j hj hjk => ?_⟩
    · rw [spliceTarget, if_neg (by omega), if_pos (by omega), hmax, hcast]
    · rw [hcast]; omega
    · have := hleast j hj hjk
      rw [hcast]; omega
  · rw [spliceTarget, if_neg (by omega), if_neg (by omega)]

end Sys2Proof.Proofs.VoiceEvents
end

