-- ==== Sys2Proof/Proofs/VoiceFrame.lean ====
section
/-! PROOF. A head's value and a voice sample (R104, R106), and the work of one frame on a voice (R97, R98, R101 to
R103, R107). -/

namespace Sys2Proof.Proofs.VoiceFrame

open Sys2Proof Sys2Proof.Machine Sys2Proof.Safety Sys2Proof.Proofs.CueFlush Sys2Proof.Proofs.Tracker
  Sys2Proof.Proofs.VoiceEvents

/-! ### Rounding -/

theorem roundDiv_le {n d m : Int} (hd : 0 < d) (h : n ≤ m * d) : roundDiv n d ≤ m := by
  obtain ⟨hnear, -⟩ := roundDiv_rounded n hd
  by_contra hlt
  have hstep : (m + 1) * d ≤ roundDiv n d * d := mul_le_mul_of_nonneg_right (by omega) hd.le
  rw [add_mul, one_mul] at hstep
  omega

theorem le_roundDiv {n d m : Int} (hd : 0 < d) (h : m * d ≤ n) : m ≤ roundDiv n d := by
  obtain ⟨hnear, -⟩ := roundDiv_rounded n hd
  by_contra hlt
  have hstep : roundDiv n d * d ≤ (m - 1) * d := mul_le_mul_of_nonneg_right (by omega) hd.le
  rw [sub_mul, one_mul] at hstep
  omega

theorem roundDiv_mul {d : Int} (hd : 0 < d) (m : Int) : roundDiv (m * d) d = m :=
  le_antisymm (roundDiv_le hd le_rfl) (le_roundDiv hd le_rfl)

/-! ### Heads and samples -/

/-- The rounded part of a step between two samples stays between them (R104). -/
theorem interpolation_between {x y f : Int} (h0 : 0 ≤ f) (h1 : f ≤ 16384) :
    min x y ≤ x + roundDiv ((y - x) * f) 16384 ∧ x + roundDiv ((y - x) * f) 16384 ≤ max x y := by
  rcases le_total x y with h | h
  · have hlow : (0 : Int) ≤ roundDiv ((y - x) * f) 16384 :=
      le_roundDiv (by omega) (by rw [zero_mul]; exact mul_nonneg (by omega) h0)
    have hhigh : roundDiv ((y - x) * f) 16384 ≤ y - x :=
      roundDiv_le (by omega) (mul_le_mul_of_nonneg_left h1 (by omega))
    rw [min_eq_left h, max_eq_right h]
    omega
  · have hlow : y - x ≤ roundDiv ((y - x) * f) 16384 :=
      le_roundDiv (by omega) (mul_le_mul_of_nonpos_left h1 (by omega))
    have hhigh : roundDiv ((y - x) * f) 16384 ≤ 0 :=
      roundDiv_le (by omega) (by rw [zero_mul]; exact mul_nonpos_of_nonpos_of_nonneg (by omega) h0)
    rw [min_eq_right h, max_eq_left h]
    omega

theorem headValue_facts (h : List Int) (d : Int) :
    let q := (d / 16384).toNat
    min (sampleAt h q) (sampleAt h (q + 1)) ≤ headValue h d
      ∧ headValue h d ≤ max (sampleAt h q) (sampleAt h (q + 1))
      ∧ (d % 16384 = 0 → headValue h d = sampleAt h q)
      ∧ Rounded (headValue h d - sampleAt h q)
        ((sampleAt h (q + 1) - sampleAt h q) * (d % 16384)) 16384 := by
  intro q
  have hvalue : headValue h d
      = sampleAt h q + roundDiv ((sampleAt h (q + 1) - sampleAt h q) * (d % 16384)) 16384 := rfl
  have hbetween := interpolation_between (x := sampleAt h q) (y := sampleAt h (q + 1))
    (f := d % 16384) (by omega) (by omega)
  rw [hvalue]
  refine ⟨hbetween.1, hbetween.2, fun hwhole => ?_, ?_⟩
  · rw [hwhole, mul_zero, ← zero_mul (16384 : Int), roundDiv_mul (by omega), add_zero]
  · rw [add_sub_cancel_left]
    exact roundDiv_rounded _ (by omega)

theorem sample_of_part {x : Voice} {p : Assignment} (h : x.part = some p) (y : Int) :
    x.sample y = roundDiv (y * p.level * x.envelope) 524288 := by
  simp only [Voice.sample, h]

theorem sample_facts {x : Voice} {p : Assignment} (hpart : x.part = some p) (hlevel : p.level ≤ 128)
    (henvelope : x.envelope ≤ 4096) (y : Int) :
    (x.sample y).natAbs ≤ y.natAbs
      ∧ (p.level = 128 → x.envelope = 4096 → x.sample y = y)
      ∧ (p.level = 0 ∨ x.envelope = 0 → x.sample y = 0) := by
  have hfactor : ((p.level * x.envelope : Nat) : Int) ≤ 524288 := by
    have := Nat.mul_le_mul hlevel henvelope
    omega
  have hproduct : y * p.level * x.envelope = y * ((p.level * x.envelope : Nat) : Int) := by
    push_cast
    ring
  rw [sample_of_part hpart, hproduct]
  refine ⟨?_, fun hl he => ?_, fun h => ?_⟩
  · have hupper : roundDiv (y * ((p.level * x.envelope : Nat) : Int)) 524288 ≤ (y.natAbs : Int) :=
      roundDiv_le (by omega) ((mul_le_mul_of_nonneg_right (by omega) (Int.natCast_nonneg _)).trans
        (mul_le_mul_of_nonneg_left hfactor (Int.natCast_nonneg _)))
    have hlower : -(y.natAbs : Int) ≤ roundDiv (y * ((p.level * x.envelope : Nat) : Int)) 524288 :=
      le_roundDiv (by omega) ((mul_le_mul_of_nonpos_left hfactor (by omega)).trans
        (mul_le_mul_of_nonneg_right (by omega) (Int.natCast_nonneg _)))
    omega
  · rw [hl, he]
    exact roundDiv_mul (by omega) y
  · have hzero : p.level * x.envelope = 0 := Nat.mul_eq_zero.2 h
    rw [hzero, Nat.cast_zero, mul_zero, ← zero_mul (524288 : Int)]
    exact roundDiv_mul (by omega) 0

/-! ### The record of a frame -/

/-- The envelope behind its step of the frame (R97). -/
def envelopeAfter (x : Voice) : Nat :=
  match x.state with
  | .rising => min 4096 (x.envelope + x.increment)
  | .falling => x.envelope - x.increment
  | .off | .idle | .sounding | .muted => x.envelope

theorem ramped_eq (x : Voice) : x.ramped = { x with envelope := envelopeAfter x } := by
  obtain ⟨state, _, _, _, _, _, _, _, _, _, _, _, _⟩ := x
  cases state <;> rfl

/-- How far a head moves in a frame (R101). -/
def moved (x : Voice) (d : Int) : Int := d + (16384 - (x.currentStep : Int))

theorem advanced_of_no_crossfade {x : Voice} (hx : x.crossfade = none) :
    x.advanced = { x with distance := moved x x.distance } := by
  unfold Voice.advanced
  rw [hx, Option.map_none, ← hx]
  rfl

theorem advanced_of_crossfade {x : Voice} {c : Crossfade} (hx : x.crossfade = some c) :
    x.advanced = { x with distance := moved x x.distance
                          crossfade := some { c with d2 := moved x c.d2 } } := by
  unfold Voice.advanced
  rw [hx]
  rfl

/-- A voice with one head, within the band (R101, R102). -/
theorem frame_whole {x : Voice} (hx : x.crossfade = none) {period : Nat}
    (hband : spliceTarget (moved x x.distance) period = none) (h : List Int) :
    x.frame h period =
      let y := { x with distance := moved x x.distance, envelope := envelopeAfter x }
      (y, y.sample (headValue h (moved x x.distance)), false) := by
  have hcheck : x.advanced.spliceCheck period = ({ x with distance := moved x x.distance }, false) := by
    simp only [advanced_of_no_crossfade hx, Voice.spliceCheck, hx, hband]
  simp only [Voice.frame, hcheck, Voice.output, Voice.crossfadeStep, hx, ramped_eq]
  rfl

/-- A voice with one head, out of the band: a second head starts (R102, R103). -/
theorem frame_splice {x : Voice} (hx : x.crossfade = none) {period : Nat} {d2 : Int}
    (hband : spliceTarget (moved x x.distance) period = some d2) (h : List Int) :
    x.frame h period =
      let y := { x with distance := moved x x.distance, envelope := envelopeAfter x
                        crossfade := some { d2 := d2, index := 1 } }
      (y, y.sample (roundDiv (headValue h (moved x x.distance) * 32 + headValue h d2 * 0) 32), true) := by
  have hcheck : x.advanced.spliceCheck period =
      ({ x with distance := moved x x.distance, crossfade := some { d2 := d2, index := 0 } }, true) := by
    simp only [advanced_of_no_crossfade hx, Voice.spliceCheck, hx, hband]
  simp only [Voice.frame, hcheck, Voice.output, Voice.crossfadeStep, ramped_eq]
  rfl

theorem blend_index_zero (a b : Int) : roundDiv (a * 32 + b * 0) 32 = a := by
  rw [mul_zero, add_zero, roundDiv_mul (by omega)]

/-- A voice with two heads: the blend, and the next index or the second head alone (R103). -/
theorem frame_fade {x : Voice} {c : Crossfade} (hx : x.crossfade = some c) (h : List Int) (period : Nat) :
    x.frame h period =
      let y := if 31 ≤ c.index then
          { x with distance := moved x c.d2, envelope := envelopeAfter x, crossfade := none }
        else { x with distance := moved x x.distance, envelope := envelopeAfter x
                      crossfade := some { d2 := moved x c.d2, index := c.index + 1 } }
      (y, y.sample (roundDiv (headValue h (moved x x.distance) * (32 - c.index)
        + headValue h (moved x c.d2) * c.index) 32), false) := by
  have hcheck : x.advanced.spliceCheck period = (x.advanced, false) := by
    simp only [advanced_of_crossfade hx, Voice.spliceCheck]
  rw [Voice.frame, hcheck, advanced_of_crossfade hx]
  simp only [Voice.output, Voice.crossfadeStep, Voice.crossfadeDone]
  split
  · rw [ramped_eq]
    rfl
  · rw [ramped_eq]
    rfl

/-- The sample of the record a frame leaves (R106, R107). -/
theorem sample_rounded (x : Voice) (d : Int) (c : Option Crossfade) (y : Int) (p : Assignment)
    (hp : x.part = some p) :
    Rounded ({ x with distance := d, envelope := envelopeAfter x, crossfade := c }.sample y)
      (y * p.level * envelopeAfter x) 524288 := by
  have hpart : { x with distance := d, envelope := envelopeAfter x, crossfade := c }.part = some p := hp
  rw [sample_of_part hpart]
  exact roundDiv_rounded _ (by omega)

theorem frame_facts_single {x : Voice} (hx : x.crossfade = none) (h : List Int) (period : Nat) :
    (∀ p, x.part = some p → Rounded (x.frame h period).2.1
        (headValue h (moved x x.distance) * p.level * envelopeAfter x) 524288)
      ∧ (spliceTarget (moved x x.distance) period = none →
          (x.frame h period).1 = { x with distance := moved x x.distance, envelope := envelopeAfter x }
          ∧ (x.frame h period).2.2 = false)
      ∧ ∀ d2, spliceTarget (moved x x.distance) period = some d2 → (x.frame h period).2.2 = true
          ∧ (x.frame h period).1 = { x with distance := moved x x.distance, envelope := envelopeAfter x
                                            crossfade := some { d2 := d2, index := 1 } } := by
  cases hband : spliceTarget (moved x x.distance) period with
  | none =>
    have hframe := frame_whole hx hband h
    simp only at hframe
    rw [hframe]
    exact ⟨sample_rounded x _ _ _,
      fun _ => ⟨rfl, rfl⟩, nofun⟩
  | some d2 =>
    have hframe := frame_splice hx hband h
    simp only [blend_index_zero] at hframe
    rw [hframe]
    refine ⟨sample_rounded x _ _ _,
      nofun, fun d hd => ?_⟩
    cases hd
    exact ⟨rfl, rfl⟩

theorem frame_facts_fading {x : Voice} {c : Crossfade} (hx : x.crossfade = some c) (h : List Int) (period : Nat) :
    (∀ p, x.part = some p → Rounded (x.frame h period).2.1
        (roundDiv (headValue h (moved x x.distance) * (32 - c.index) + headValue h (moved x c.d2) * c.index) 32
          * p.level * envelopeAfter x) 524288)
      ∧ (x.frame h period).2.2 = false
      ∧ (c.index < 31 → (x.frame h period).1 =
        { x with distance := moved x x.distance, envelope := envelopeAfter x
                 crossfade := some { d2 := moved x c.d2, index := c.index + 1 } })
      ∧ (31 ≤ c.index → (x.frame h period).1 =
        { x with distance := moved x c.d2, envelope := envelopeAfter x, crossfade := none }) := by
  have hframe := frame_fade hx h period
  simp only at hframe
  rw [hframe]
  by_cases hc : 31 ≤ c.index
  · simp only [if_pos hc]
    exact ⟨sample_rounded x _ _ _,
      trivial, fun hlt => by omega, fun _ => trivial⟩
  · simp only [if_neg hc]
    exact ⟨sample_rounded x _ _ _,
      trivial, fun _ => trivial, fun hge => by omega⟩

theorem frame_facts (x : Voice) (h : List Int) (period : Nat) :
    ∃ y : Int, (∀ p, x.part = some p → Rounded (x.frame h period).2.1 (y * p.level * envelopeAfter x) 524288)
      ∧ (x.crossfade = none → y = headValue h (moved x x.distance)
        ∧ (spliceTarget (moved x x.distance) period = none →
          (x.frame h period).1 = { x with distance := moved x x.distance, envelope := envelopeAfter x }
          ∧ (x.frame h period).2.2 = false)
        ∧ ∀ d2, spliceTarget (moved x x.distance) period = some d2 → (x.frame h period).2.2 = true
          ∧ (x.frame h period).1 = { x with distance := moved x x.distance, envelope := envelopeAfter x
                                            crossfade := some { d2 := d2, index := 1 } })
      ∧ ∀ c, x.crossfade = some c →
        Rounded y (headValue h (moved x x.distance) * (32 - (c.index : Int)) + headValue h (moved x c.d2) * c.index)
          32
        ∧ (x.frame h period).2.2 = false
        ∧ (c.index < 31 → (x.frame h period).1 =
          { x with distance := moved x x.distance, envelope := envelopeAfter x
                   crossfade := some { d2 := moved x c.d2, index := c.index + 1 } })
        ∧ (31 ≤ c.index → (x.frame h period).1 =
          { x with distance := moved x c.d2, envelope := envelopeAfter x, crossfade := none }) := by
  cases hx : x.crossfade with
  | none =>
    obtain ⟨hsample, hband, hsplice⟩ := frame_facts_single hx h period
    rw [hx] at hband
    exact ⟨_, hsample, fun _ => ⟨rfl, hband, hsplice⟩, nofun⟩
  | some c =>
    obtain ⟨hsample, hflag, hgoes, hends⟩ := frame_facts_fading hx h period
    refine ⟨_, hsample, nofun, fun c' hc => ?_⟩
    obtain rfl := Option.some.inj hc
    exact ⟨roundDiv_rounded _ (by omega), hflag, hgoes, hends⟩

/-! ### The work of a frame on a voice -/

/-- A voice's new record, its frozen notes absent where it is freed or taken (R85). -/
def placed (clears : Bool) (v : VoiceId) (y : Voice) (s : State) : State :=
  if clears then clearFrozen v (s.setVoice v y) else s.setVoice v y

theorem placed_voice (clears : Bool) (v : VoiceId) (y : Voice) (s : State) : (placed clears v y s).voice v = y := by
  cases clears with
  | false => exact State.voice_setVoice ..
  | true => exact State.voice_setVoice ..

theorem placed_frame (clears : Bool) (v : VoiceId) (y : Voice) (s : State) : placed clears v y s =
    { s with leadA := (placed clears v y s).leadA, leadB := (placed clears v y s).leadB
             voices := (placed clears v y s).voices } := by
  cases clears <;> rfl

theorem placed_countEvent (e : Event) (clears : Bool) (v : VoiceId) (y : Voice) (s : State) :
    placed clears v y (countEvent e s) = countEvent e (placed clears v y s) := by
  cases clears <;> rfl

/-- The end of a fall looks at the voice and the lead slots alone (R98). -/
theorem endFall_shape (v : VoiceId) (s : State) : ∃ (y : Voice) (clears : Bool) (skipped : Option Lead),
    (skipped ≠ none → y.owner = none)
    ∧ ∀ u : State, u.voice v = s.voice v → u.config = s.config → endFall v u = (placed clears v y u, skipped) := by
  have idle (h : ∀ u : State, u.voice v = s.voice v →
      endFall v u = (u.setVoice v { (u.voice v).stopped with state := .idle }, none)) :
      ∃ (y : Voice) (clears : Bool) (skipped : Option Lead), (skipped ≠ none → y.owner = none)
        ∧ ∀ u : State, u.voice v = s.voice v → u.config = s.config →
          endFall v u = (placed clears v y u, skipped) :=
    ⟨{ (s.voice v).stopped with state := .idle }, false, none, fun h => absurd rfl h, fun u hu _ => by
      rw [h u hu, hu]; rfl⟩
  have gone (h : ∀ u : State, u.voice v = s.voice v → endFall v u = (fallenOff v u, none)) :
      ∃ (y : Voice) (clears : Bool) (skipped : Option Lead), (skipped ≠ none → y.owner = none)
        ∧ ∀ u : State, u.voice v = s.voice v → u.config = s.config →
          endFall v u = (placed clears v y u, skipped) :=
    ⟨(s.voice v).stopped.goneOff, true, none, fun _ => rfl, fun u hu _ => by
      rw [h u hu, fallenOff, hu]; rfl⟩
  have taken (p : Assignment) (h : ∀ u : State, u.voice v = s.voice v →
      endFall v u = takePartAtEnd v p (u.setVoice v (u.voice v).stopped)) :
      ∃ (y : Voice) (clears : Bool) (skipped : Option Lead), (skipped ≠ none → y.owner = none)
        ∧ ∀ u : State, u.voice v = s.voice v → u.config = s.config →
          endFall v u = (placed clears v y u, skipped) := by
    have hslot {u : State} (hc : u.config = s.config) : u.isLeadSlot p.slot = s.isLeadSlot p.slot := by
      simp only [State.isLeadSlot, hc]
    cases hlead : s.isLeadSlot p.slot with
    | false =>
      refine ⟨(s.voice v).stopped.tookPart p, true, none, fun h => absurd rfl h, fun u hu hc => ?_⟩
      rw [h u hu, takePartAtEnd_stopped_free ((hslot hc).trans hlead), hu]
      rfl
    | true =>
      refine ⟨(s.voice v).stopped.goneOff, true, (s.voice v).owner, fun _ => rfl, fun u hu hc => ?_⟩
      rw [h u hu, takePartAtEnd_stopped_taken ((hslot hc).trans hlead), fallenOff, hu]
      rfl
  cases hd : (s.voice v).dest with
  | idle => exact idle fun u hu => endFall_idle (by rw [hu, hd])
  | off => exact gone fun u hu => endFall_off (by rw [hu, hd])
  | reassign =>
    cases hp : (s.voice v).pendingPart with
    | none => exact idle fun u hu => endFall_reassign_none (by rw [hu, hd]) (by rw [hu, hp])
    | some p => exact taken p fun u hu => endFall_part (by rw [hu, hp]) (.inl (by rw [hu, hd]))
  | muted =>
    cases hm : (s.voice v).releaseMark with
    | true => exact gone fun u hu => endFall_muted_mark (by rw [hu, hd]) (by rw [hu, hm])
    | false =>
      cases hp : (s.voice v).pendingPart with
      | none =>
        exact ⟨{ (s.voice v).stopped with state := .muted }, false, none, fun h => absurd rfl h, fun u hu _ => by
          rw [endFall_muted (by rw [hu, hd]) (by rw [hu, hm]) (by rw [hu, hp]), hu]; rfl⟩
      | some p =>
        exact taken p fun u hu => endFall_part (by rw [hu, hp]) (.inr ⟨by rw [hu, hd], by rw [hu, hm]⟩)

theorem endFall_countEvent (e : Event) (v : VoiceId) (s : State) :
    endFall v (countEvent e s) = (countEvent e (endFall v s).1, (endFall v s).2) := by
  obtain ⟨y, clears, skipped, -, h⟩ := endFall_shape v s
  rw [h (countEvent e s) rfl rfl, h s rfl rfl, placed_countEvent]

theorem endFall_frame (v : VoiceId) (s : State) : (endFall v s).1 =
    { s with leadA := (endFall v s).1.leadA, leadB := (endFall v s).1.leadB, voices := (endFall v s).1.voices } := by
  obtain ⟨y, clears, skipped, -, h⟩ := endFall_shape v s
  rw [h s rfl rfl]
  exact placed_frame ..

/-- The occurrence behind the end of a fall leaves the voice and the leads as the fall leaves them (R93, R98). -/
theorem raiseSkipped_endFall (v : VoiceId) (s : State) :
    (raiseSkipped (endFall v s).2 (endFall v s).1).voice v = (endFall v s).1.voice v := by
  obtain ⟨y, clears, skipped, hskip, h⟩ := endFall_shape v s
  rw [h s rfl rfl]
  cases skipped with
  | none => rfl
  | some L => exact raise_voice_unowned _ _ (by rw [placed_voice]; exact hskip (by simp))

theorem endRamp_countEvent (e : Event) (v : VoiceId) (s : State) :
    endRamp v (countEvent e s) = (countEvent e (endRamp v s).1, (endRamp v s).2) := by
  unfold endRamp
  simp only [show (countEvent e s).voice v = s.voice v from rfl, endFall_countEvent]
  split
  · split <;> rfl
  · split <;> rfl
  all_goals rfl

theorem endRamp_frame (v : VoiceId) (s : State) : (endRamp v s).1 =
    { s with leadA := (endRamp v s).1.leadA, leadB := (endRamp v s).1.leadB, voices := (endRamp v s).1.voices } := by
  unfold endRamp
  simp only
  split
  · split <;> rfl
  · split
    · exact endFall_frame v s
    · rfl
  all_goals rfl

theorem endRamp_voice_ne {v w : VoiceId} (h : v ≠ w) (s : State) : (endRamp v s).1.voice w = s.voice w := by
  unfold endRamp
  simp only
  split
  · split
    · exact State.voice_setVoice_ne _ _ _ _ h
    · rfl
  · split
    · exact endFall_voice_ne v w s h
    · rfl
  all_goals rfl

theorem endRamp_rising {v : VoiceId} {s : State} (h : (s.voice v).state = .rising) :
    (endRamp v s).1.voice v =
      if (s.voice v).envelope = 4096 then { s.voice v with state := .sounding } else s.voice v := by
  unfold endRamp
  simp only [h]
  by_cases henv : (s.voice v).envelope = 4096
  · rw [if_pos henv, if_pos henv, State.voice_setVoice, Voice.riseDone,
      show Config.fullEnvelope = (s.voice v).envelope from henv.symm]
  · rw [if_neg henv, if_neg henv]

theorem endRamp_running {v : VoiceId} {s : State}
    (h : (s.voice v).state = .sounding ∨ ((s.voice v).state = .falling ∧ (s.voice v).envelope ≠ 0)) :
    endRamp v s = (s, none) := by
  unfold endRamp
  obtain h | ⟨h, henv⟩ := h
  · simp only [h]
  · simp only [h, if_neg henv]

theorem endRamp_fallen {v : VoiceId} {s : State} (h : (s.voice v).state = .falling)
    (henv : (s.voice v).envelope = 0) : endRamp v s = endFall v s := by
  unfold endRamp
  simp only [h, henv, if_true]

theorem voiceWork_stands {v : VoiceId} {s : State} (h : (s.voice v).runs = false) :
    voiceWork v s = { state := s, sample := 0, skipped := none } := by
  simp only [voiceWork, h]

/-- A running voice's frame, then the end of its ramp (R107). -/
theorem voiceWork_runs {v : VoiceId} {s : State} {L : Lead} (h : (s.voice v).runs = true)
    (howner : (s.voice v).owner = some L) :
    let f := (s.voice v).frame (s.lead L).history (s.lead L).splicePeriod
    let e := endRamp v (s.setVoice v f.1)
    voiceWork v s = { state := if f.2.2 then countEvent .splice e.1 else e.1, sample := f.2.1, skipped := e.2 } := by
  simp only [voiceWork, h, howner]
  cases ((s.voice v).frame (s.lead L).history (s.lead L).splicePeriod).2.2 with
  | false => rfl
  | true => simp only [if_true, endRamp_countEvent]

theorem voiceWork_voice {v : VoiceId} {s : State} {L : Lead} (h : (s.voice v).runs = true)
    (howner : (s.voice v).owner = some L) :
    (voiceWork v s).state.voice v = (endRamp v (s.setVoice v
      ((s.voice v).frame (s.lead L).history (s.lead L).splicePeriod).1)).1.voice v := by
  rw [voiceWork_runs h howner]
  simp only
  split <;> rfl

/-- A frame keeps the state of the voice, and takes its envelope on (R107). -/
theorem frame_state (x : Voice) (h : List Int) (period : Nat) : (x.frame h period).1.state = x.state := by
  obtain ⟨hstate, -⟩ := x.frame_keeps h period
  exact hstate

theorem runs_iff (x : Voice) : x.runs = true ↔ x.state = .rising ∨ x.state = .sounding ∨ x.state = .falling := by
  unfold Voice.runs
  cases x.state <;> simp

theorem voiceWork_facts (v : VoiceId) {s : State} (hlow : s.resetLow = false) {L : Lead}
    (howner : (s.voice v).owner = some L) (hruns : (s.voice v).runs = true) :
    let f := (s.voice v).frame (s.lead L).history (s.lead L).splicePeriod
    let w := voiceWork v s
    w.sample = f.2.1 ∧ (∀ v', v' ≠ v → w.state.voice v' = s.voice v')
      ∧ w.state = { s with leadA := w.state.leadA, leadB := w.state.leadB, voices := w.state.voices
                           counters := if f.2.2 then s.counters.map fun c => c.after 9 else s.counters }
      ∧ ((s.voice v).state = .rising → w.state.voice v =
        if f.1.envelope = 4096 then { f.1 with state := .sounding } else f.1)
      ∧ ((s.voice v).state = .sounding ∨ ((s.voice v).state = .falling ∧ f.1.envelope ≠ 0) →
        w.state.voice v = f.1)
      ∧ ((s.voice v).state = .falling → f.1.envelope = 0 → ∃ u, exec (.fallEnd v) (s.setVoice v f.1) = .next u
        ∧ w.state.voice v = u.voice v ∧ w.state.leadA = u.leadA ∧ w.state.leadB = u.leadB) := by
  intro f w
  have hw : w = _ := voiceWork_runs hruns howner
  have hv : w.state.voice v = (endRamp v (s.setVoice v f.1)).1.voice v := voiceWork_voice hruns howner
  have hf : (s.setVoice v f.1).voice v = f.1 := State.voice_setVoice ..
  have hstate : f.1.state = (s.voice v).state := frame_state ..
  refine ⟨by rw [hw], fun v' hne => ?_, ?_, fun h => ?_, fun h => ?_, fun h henv => ?_⟩
  · have hother : (endRamp v (s.setVoice v f.1)).1.voice v' = s.voice v' := by
      rw [endRamp_voice_ne (Ne.symm hne), State.voice_setVoice_ne _ _ _ _ (Ne.symm hne)]
    rw [hw]
    simp only
    split
    · exact hother
    · exact hother
  · have hframe := endRamp_frame v (s.setVoice v f.1)
    rw [hw]
    show (if f.2.2 then countEvent .splice (endRamp v (s.setVoice v f.1)).1
      else (endRamp v (s.setVoice v f.1)).1) = _
    split
    · rw [hframe]
      rfl
    · rw [hframe]
      rfl
  · rw [hv, endRamp_rising (by rw [hf, hstate, h]), hf]
  · rw [hv, endRamp_running (by rw [hf, hstate]; exact h), hf]
  · have hfall : endRamp v (s.setVoice v f.1) = endFall v (s.setVoice v f.1) :=
      endRamp_fallen (by rw [hf, hstate, h]) (by rw [hf, henv])
    have hu := raiseSkipped_onlyFaults (endFall v (s.setVoice v f.1)).2 (endFall v (s.setVoice v f.1)).1
    refine ⟨_, exec_fallEnd hlow (by rw [hf, hstate, h]) (by rw [hf, henv]; exact Nat.zero_le _), ?_, ?_, ?_⟩
    · rw [hv, hfall, raiseSkipped_endFall]
    · rw [hu.leadA, hw, ← hfall]
      simp only
      split <;> rfl
    · rw [hu.leadB, hw, ← hfall]
      simp only
      split <;> rfl

/-- Settles O22. -/
theorem headAndSample : Obligations.HeadAndSample :=
  ⟨runs_iff, fun _ _ => rfl, headValue_facts,
    fun _ _ y hpart hlevel henv => sample_facts hpart hlevel henv y, frame_facts,
    fun v _ hlow => ⟨fun hstill => by rw [voiceWork_stands hstill]; exact ⟨rfl, rfl⟩,
      fun _ howner hruns => voiceWork_facts v hlow howner hruns⟩⟩

end Sys2Proof.Proofs.VoiceFrame
end

