-- ==== Sys2Proof/Proofs/Notes.lean ====
section
/-! PROOF. The note decision on a valid table (R55, R58, R61 to R65). -/

namespace Sys2Proof.Proofs.Notes

open Sys2Proof Sys2Proof.Machine Sys2Proof.Safety

/-! ### A valid table -/

/-- Rows stand by note upward and by band downward (R55). -/
def RowBefore (r r' : TuningRow) : Prop := r.note < r'.note ∧ r'.hi < r.lo

theorem tuningRowOk_band {r : TuningRow} (h : tuningRowOk r = true) : r.lo ≤ r.hi := by
  simp only [tuningRowOk, Bool.and_eq_true, decide_eq_true_eq] at h
  omega

theorem tuningOk_cons {r r' : TuningRow} {rest : List TuningRow} (h : tuningOk (r :: r' :: rest) = true) :
    tuningRowOk r = true ∧ RowBefore r r' ∧ tuningOk (r' :: rest) = true := by
  simp only [tuningOk, Bool.and_eq_true, decide_eq_true_eq] at h
  obtain ⟨⟨⟨hrow, hnote⟩, hband⟩, hrest⟩ := h
  exact ⟨hrow, ⟨hnote, hband⟩, hrest⟩

theorem tuningOk_rows : ∀ {rows : List TuningRow}, tuningOk rows = true → ∀ r ∈ rows, tuningRowOk r = true
  | [], _, _, hr => by cases hr
  | [r], h, _, hr => by
    rw [List.mem_singleton.1 hr]
    exact h
  | r :: r' :: rest, h, x, hx => by
    obtain ⟨hrow, -, hrest⟩ := tuningOk_cons h
    obtain rfl | hx := List.mem_cons.1 hx
    · exact hrow
    · exact tuningOk_rows hrest x hx

theorem tuningOk_pairwise : ∀ {rows : List TuningRow}, tuningOk rows = true → rows.Pairwise RowBefore
  | [], _ => List.Pairwise.nil
  | [r], _ => List.pairwise_singleton _ _
  | r :: r' :: rest, h => by
    obtain ⟨-, ⟨hnote, hband⟩, hrest⟩ := tuningOk_cons h
    have hpairs := tuningOk_pairwise hrest
    have hr' := tuningRowOk_band (tuningOk_rows hrest r' List.mem_cons_self)
    refine List.pairwise_cons.2 ⟨fun x hx => ?_, hpairs⟩
    obtain rfl | hx := List.mem_cons.1 hx
    · exact ⟨hnote, hband⟩
    · obtain ⟨hnote', hband'⟩ := (List.pairwise_cons.1 hpairs).1 x hx
      exact ⟨by omega, by omega⟩

/-- Two rows of a valid table are one row, or one stands before the other. -/
theorem rows_cases {rows : List TuningRow} (h : tuningOk rows = true) {r r' : TuningRow} (hr : r ∈ rows)
    (hr' : r' ∈ rows) : r = r' ∨ RowBefore r r' ∨ RowBefore r' r := by
  have hpairs := List.pairwise_iff_getElem.1 (tuningOk_pairwise h)
  obtain ⟨i, hi, rfl⟩ := List.getElem_of_mem hr
  obtain ⟨j, hj, rfl⟩ := List.getElem_of_mem hr'
  obtain hij | rfl | hij := lt_trichotomy i j
  · exact .inr (.inl (hpairs i j hi hj hij))
  · exact .inl rfl
  · exact .inr (.inr (hpairs j i hj hi hij))

theorem note_unique {rows : List TuningRow} (h : tuningOk rows = true) {r r' : TuningRow} (hr : r ∈ rows)
    (hr' : r' ∈ rows) (e : r.note = r'.note) : r = r' := by
  obtain e' | ⟨hlt, -⟩ | ⟨hlt, -⟩ := rows_cases h hr hr'
  · exact e'
  · omega
  · omega

theorem band_unique {rows : List TuningRow} (h : tuningOk rows = true) {r r' : TuningRow} (hr : r ∈ rows)
    (hr' : r' ∈ rows) {p : Nat} (hlo : r.lo ≤ p) (hhi : p ≤ r.hi) (hlo' : r'.lo ≤ p) (hhi' : p ≤ r'.hi) :
    r = r' := by
  obtain e' | ⟨-, hlt⟩ | ⟨-, hlt⟩ := rows_cases h hr hr'
  · exact e'
  · omega
  · omega

/-! ### The two lookups -/

theorem rowOfNote_mem {rows : List TuningRow} {n : Nat} {r : TuningRow} (h : rowOfNote rows n = some r) :
    r ∈ rows ∧ r.note = n :=
  ⟨List.mem_of_find?_eq_some h, by simpa using List.find?_some h⟩

theorem rowOfNote_of_mem {rows : List TuningRow} (h : tuningOk rows = true) {r : TuningRow} (hr : r ∈ rows) :
    rowOfNote rows r.note = some r := by
  cases hfind : rowOfNote rows r.note with
  | none => exact absurd (by simp) (List.find?_eq_none.1 hfind r hr)
  | some r' =>
    obtain ⟨hmem, hnote⟩ := rowOfNote_mem hfind
    rw [note_unique h hmem hr hnote]

theorem rowOfNote_eq_none {rows : List TuningRow} {n : Nat} (h : ∀ r ∈ rows, r.note ≠ n) :
    rowOfNote rows n = none :=
  List.find?_eq_none.2 fun r hr => by simpa using h r hr

theorem rowOfPeriod_mem {rows : List TuningRow} {p : Nat} {r : TuningRow} (h : rowOfPeriod rows p = some r) :
    r ∈ rows ∧ r.lo ≤ p ∧ p ≤ r.hi :=
  ⟨List.mem_of_find?_eq_some h, by simpa using List.find?_some h⟩

theorem rowOfPeriod_of_mem {rows : List TuningRow} (h : tuningOk rows = true) {r : TuningRow} (hr : r ∈ rows)
    {p : Nat} (hlo : r.lo ≤ p) (hhi : p ≤ r.hi) : rowOfPeriod rows p = some r := by
  cases hfind : rowOfPeriod rows p with
  | none => exact absurd (by simp [hlo, hhi]) (List.find?_eq_none.1 hfind r hr)
  | some r' =>
    obtain ⟨hmem, hlo', hhi'⟩ := rowOfPeriod_mem hfind
    rw [band_unique h hmem hr hlo' hhi' hlo hhi]

theorem rowOfPeriod_eq_none {rows : List TuningRow} {p : Nat} (h : ∀ r ∈ rows, p < r.lo ∨ r.hi < p) :
    rowOfPeriod rows p = none :=
  List.find?_eq_none.2 fun r hr => by
    have := h r hr
    simp
    omega

/-! ### The decision -/

theorem searchNote_found {rows : List TuningRow} (h : tuningOk rows = true) {m : TuningRow} (hm : m ∈ rows) {p : Nat}
    (hlo : m.lo ≤ p) (hhi : p ≤ m.hi) (kept : NoteState) :
    searchNote rows p kept = { note := .voiced m.note, count := 0, changed := true, unmatched := false } := by
  simp only [searchNote, rowOfPeriod_of_mem h hm hlo hhi]

theorem searchNote_unmatched {rows : List TuningRow} {p : Nat} (h : ∀ m ∈ rows, p < m.lo ∨ m.hi < p)
    (kept : NoteState) :
    searchNote rows p kept = { note := kept, count := 0, changed := false, unmatched := true } := by
  simp only [searchNote, rowOfPeriod_eq_none h]

theorem searchNote_changed {rows : List TuningRow} {p : Nat} {kept : NoteState}
    (h : (searchNote rows p kept).changed = true) : (searchNote rows p kept).count = 0
      ∧ ∃ r ∈ rows, r.lo ≤ p ∧ p ≤ r.hi ∧ (searchNote rows p kept).note = .voiced r.note := by
  unfold searchNote at h ⊢
  split
  next r hr =>
    obtain ⟨hmem, hlo, hhi⟩ := rowOfPeriod_mem hr
    exact ⟨rfl, r, hmem, hlo, hhi, rfl⟩
  next hr =>
    rw [hr] at h
    cases h

/-- Is the period in a row's band widened by the hysteresis? (R62) -/
def InWidened (r : TuningRow) (h p : Nat) : Prop := (r.lo : Int) - h ≤ p ∧ p ≤ r.hi + h

/-- A lead whose note has a row of the table (R61 to R63, R65). -/
theorem decideNote_of_row {rows : List TuningRow} {note : NoteState} {n : Nat} {r : TuningRow}
    (hnote : note.note? = some n) (hrow : rowOfNote rows n = some r) (h hold count p : Nat) :
    (InWidened r h p → decideNote rows h hold note count true p =
      { note := .voiced n, count := 0, changed := false, unmatched := false })
    ∧ (¬InWidened r h p → decideNote rows h hold note count true p = searchNote rows p (.voiced n))
    ∧ decideNote rows h hold note count false p =
      { note := if count + 1 ≤ hold then .trailing n else .silent, count := count + 1, changed := false
        unmatched := false } := by
  simp only [decideNote, hnote, hrow, InWidened]
  exact ⟨fun k => if_pos k, fun k => if_neg k, rfl⟩

/-- A lead with no note, or whose note has no row (R64). -/
theorem decideNote_of_no_row {rows : List TuningRow} {note : NoteState}
    (hrow : ∀ n, note.note? = some n → rowOfNote rows n = none) (h hold count p : Nat) :
    decideNote rows h hold note count true p = searchNote rows p .silent
    ∧ decideNote rows h hold note count false p =
      { note := .silent, count := count, changed := false, unmatched := false } := by
  cases hnote : note.note? with
  | none =>
    simp only [decideNote, hnote]
    exact ⟨rfl, rfl⟩
  | some n =>
    simp only [decideNote, hnote, hrow n hnote]
    exact ⟨rfl, rfl⟩

/-- A note change is to another note: a period in a row's own band is in its widened band (R62, R63). -/
theorem decideNote_changed {rows : List TuningRow} (hok : tuningOk rows = true) {h hold count p : Nat}
    {note : NoteState} {voiced : Bool} (hchanged : (decideNote rows h hold note count voiced p).changed = true) :
    voiced = true ∧ (decideNote rows h hold note count voiced p).count = 0
      ∧ ∃ r ∈ rows, r.lo ≤ p ∧ p ≤ r.hi ∧ note.note? ≠ some r.note
        ∧ (decideNote rows h hold note count voiced p).note = .voiced r.note := by
  by_cases hrow : ∃ n r, note.note? = some n ∧ rowOfNote rows n = some r
  · obtain ⟨n, r, hnote, hr⟩ := hrow
    obtain ⟨hkeeps, hsearches, htrails⟩ := decideNote_of_row hnote hr h hold count p
    cases voiced with
    | false => rw [htrails] at hchanged; cases hchanged
    | true =>
      by_cases hin : InWidened r h p
      · rw [hkeeps hin] at hchanged
        cases hchanged
      · rw [hsearches hin] at hchanged ⊢
        obtain ⟨hcount, m, hm, hlo, hhi, hfound⟩ := searchNote_changed hchanged
        refine ⟨rfl, hcount, m, hm, hlo, hhi, fun e => hin ?_, hfound⟩
        obtain ⟨hmem, hn⟩ := rowOfNote_mem hr
        have hnm : n = m.note := Option.some.inj (hnote.symm.trans e)
        have hrm : r = m := note_unique hok hmem hm (hn.trans hnm)
        subst hrm
        exact ⟨by omega, by omega⟩
  · have hnone : ∀ n, note.note? = some n → rowOfNote rows n = none := fun n hn => by
      cases hr : rowOfNote rows n with
      | none => rfl
      | some r => exact absurd ⟨n, r, hn, hr⟩ hrow
    obtain ⟨hsearches, hstays⟩ := decideNote_of_no_row hnone h hold count p
    cases voiced with
    | false => rw [hstays] at hchanged; cases hchanged
    | true =>
      rw [hsearches] at hchanged ⊢
      obtain ⟨hcount, m, hm, hlo, hhi, hfound⟩ := searchNote_changed hchanged
      refine ⟨rfl, hcount, m, hm, hlo, hhi, fun e => ?_, hfound⟩
      exact absurd (hnone m.note e) (by rw [rowOfNote_of_mem hok hm]; exact nofun)

/-- Settles O16. -/
theorem noteLookup : Obligations.NoteLookup := by
  intro rows hok
  refine ⟨fun r hr r' hr' e => note_unique hok hr hr' e,
    fun r hr r' hr' p hlo hhi hlo' hhi' => band_unique hok hr hr' hlo hhi hlo' hhi',
    fun h hold note count voiced p => decideNote_changed hok, fun h hold note count p => ⟨fun r hr hnote => ?_,
      fun hnone => ?_⟩⟩
  · obtain ⟨hkeeps, hsearches, htrails⟩ := decideNote_of_row hnote (rowOfNote_of_mem hok hr) h hold count p
    refine ⟨fun hlo hhi => hkeeps ⟨by omega, by omega⟩, fun hout => ?_, fun hc => ?_, fun hc => ?_⟩
    · have hnot : ¬InWidened r h p := fun ⟨hlo, hhi⟩ => by omega
      exact ⟨fun m hm hlo hhi => (hsearches hnot).trans (searchNote_found hok hm hlo hhi _),
        fun hno => (hsearches hnot).trans (searchNote_unmatched hno _)⟩
    · exact htrails.trans (by rw [if_pos (show count + 1 ≤ hold from hc)])
    · exact htrails.trans (by rw [if_neg (show ¬count + 1 ≤ hold by omega)])
  · obtain ⟨hsearches, hstays⟩ := decideNote_of_no_row
      (fun n hn => rowOfNote_eq_none fun r hr e => hnone r hr (by rw [hn, e])) h hold count p
    exact ⟨fun m hm hlo hhi => hsearches.trans (searchNote_found hok hm hlo hhi _),
      fun hno => hsearches.trans (searchNote_unmatched hno _), hstays⟩

end Sys2Proof.Proofs.Notes
end

