-- ==== Sys2Proof/Proofs/Harmony.lean ====
section
/-! PROOF. The Harmony Target Unit (R58, R66, R74 to R87, R94, R95): intervals, the step table, the target chain,
the HTU step of a lead, and hold and release. -/

namespace Sys2Proof.Proofs.Harmony

open Sys2Proof Sys2Proof.Machine Sys2Proof.Safety Sys2Proof.Proofs.Tracker Sys2Proof.Proofs.VoiceLaws
  Sys2Proof.Proofs.VoiceMoves Sys2Proof.Proofs.VoiceEvents Sys2Proof.Proofs.VoiceFrame Sys2Proof.Proofs.Notes
  Sys2Proof.Proofs.Occurrences

/-! ### Hold and release -/

theorem frozenNotes_at (s : State) (L : Lead) (n : Nat) (v : VoiceId) :
    (frozenNotes s L n)[v] = frozenNote s L n v := by
  fin_cases v <;> rfl

theorem frozenNote_absent {s : State} {L : Lead} {n : Nat} {v : VoiceId}
    (h : (s.voice v).owner ≠ some L ∨ ((s.voice v).state ≠ .rising ∧ (s.voice v).state ≠ .sounding)
      ∨ openInterval s L n (s.voice v) = none) : frozenNote s L n v = none := by
  unfold frozenNote
  obtain h | ⟨hr, hs⟩ | h := h
  · simp only [h, decide_false]
  · cases hst : (s.voice v).state <;> simp_all
  · simp only [h]
    split <;> rfl

theorem frozenNote_sung {s : State} {L : Lead} {n : Nat} {v : VoiceId} {e : Int} (howner : (s.voice v).owner = some L)
    (hstate : (s.voice v).state = .rising ∨ (s.voice v).state = .sounding)
    (he : openInterval s L n (s.voice v) = some e) :
    frozenNote s L n v = if 0 ≤ (n : Int) + e ∧ (n : Int) + e ≤ 127 then some ((n : Int) + e).toNat else none := by
  unfold frozenNote
  obtain h | h := hstate <;> simp only [howner, decide_true, h, he]

theorem holdLead_of_silent {s : State} {L : Lead} (h : (s.lead L).note.note? = none) : holdLead L s = s := by
  simp only [holdLead, h]

theorem holdLead_of_note {s : State} {L : Lead} {n : Nat} (h : (s.lead L).note.note? = some n) :
    holdLead L s = s.setLead L { s.lead L with held := true, frozen := frozenNotes s L n } := by
  simp only [holdLead, h]

theorem lead_setLead_same (s : State) (L : Lead) (c : LeadChannel) : (s.setLead L c).lead L = c := by
  cases L <;> rfl

theorem openInterval_unsilenced {s : State} {L : Lead} {n : Nat} {x : Voice} {e : Int}
    (h : openInterval s L n x = some e) : (s.lead L).silenced = false := by
  unfold openInterval at h
  cases hs : (s.lead L).silenced with
  | false => rfl
  | true => simp [hs] at h

/-- A voice just held sings on: its frozen note is its interval from the lead's note (R84, R86). -/
theorem interval_holdLead {s : State} {L : Lead} {n : Nat} {v : VoiceId} {e : Int}
    (hnote : (s.lead L).note.note? = some n) (hunsilenced : (s.lead L).silenced = false)
    (hfrozen : frozenNote s L n v = some ((n : Int) + e).toNat) (hsum : 0 ≤ (n : Int) + e) (hlow : -24 ≤ e)
    (hhigh : e ≤ 24) : interval (holdLead L s) L v = some e := by
  have hlead : (holdLead L s).lead L = { s.lead L with held := true, frozen := frozenNotes s L n } := by
    rw [holdLead_of_note hnote, lead_setLead_same]
  have hcast : (((n : Int) + e).toNat : Int) - n = e := by omega
  have hnear : e.natAbs ≤ 24 := by omega
  simp only [interval, hlead, hnote, hunsilenced, Bool.false_eq_true, if_false, if_true, frozenNotes_at, hfrozen,
    heldInterval, hcast, hnear]

/-- Settles O18, by the note of the lead and the frozen note of each voice. -/
theorem holdAndRelease : Obligations.HoldAndRelease := by
  intro L s
  refine ⟨holdLead_of_silent, fun n hnote => ?_, fun h => by simp [releaseHold, h],
    fun h => by simp [releaseHold, h]⟩
  have hlead : ((holdLead L s).lead L).frozen = frozenNotes s L n := by
    rw [holdLead_of_note hnote, lead_setLead_same]
  refine ⟨by rw [hlead]; exact holdLead_of_note hnote, fun v => ⟨fun h => ?_, fun e howner hstate he =>
    ⟨fun hin => ⟨?_, fun hlow hhigh => ?_⟩, fun hout => ?_⟩⟩⟩
  · rw [hlead, frozenNotes_at, frozenNote_absent h]
  · rw [hlead, frozenNotes_at, frozenNote_sung howner hstate he, if_pos hin]
  · exact interval_holdLead hnote (openInterval_unsilenced he)
      (by rw [frozenNote_sung howner hstate he, if_pos hin]) hin.1 hlow hhigh
  · rw [hlead, frozenNotes_at, frozenNote_sung howner hstate he, if_neg hout]

/-! ### The step table and the chain -/

/-- Each step is the nearest integer to 16,384 times a whole number of semitones, said by twelfth powers (R76). -/
theorem stepTable_nearest : ∀ i : Fin 49,
    (2 * baseStep ((i.val : Int) - 24) - 1) ^ 12 ≤ 2 ^ (156 + i.val)
      ∧ 2 ^ (156 + i.val) < (2 * baseStep ((i.val : Int) - 24) + 1) ^ 12 := by
  decide

theorem roundDiv_scale {n d k : Int} (hk : 0 < k) : roundDiv (k * n) (k * d) = roundDiv n d := by
  have hquot (x : Int) : (2 * (k * x) + k * d) / (2 * (k * d)) = (2 * x + d) / (2 * d) := by
    rw [show 2 * (k * x) + k * d = k * (2 * x + d) by ring, show 2 * (k * d) = k * (2 * d) by ring,
      Int.mul_ediv_mul_of_pos _ _ hk]
  unfold roundDiv
  by_cases hn : 0 ≤ n
  · rw [if_pos hn, if_pos (mul_nonneg hk.le hn), hquot]
  · rw [if_neg hn, if_neg (not_le.2 (mul_neg_of_pos_of_neg hk (not_le.1 hn))), ← mul_neg, hquot]

theorem correctedStep_natural (e : Int) {pc : Nat} (hpc : 0 < pc) (p16 : Nat) :
    correctedStep e (some pc) 0 p16 = baseStep e := by
  have hpos : (0 : Int) < 16 * pc := by omega
  show roundDiv ((baseStep e : Int) * (16 * (pc : Int) + (0 : Nat) * ((p16 : Int) - pc))) (16 * (pc : Int)) = _
  rw [Nat.cast_zero, zero_mul, add_zero, roundDiv_mul hpos]

theorem correctedStep_full (e : Int) (pc p16 : Nat) :
    correctedStep e (some pc) 16 p16 = roundDiv ((baseStep e : Int) * p16) pc := by
  show roundDiv ((baseStep e : Int) * (16 * (pc : Int) + (16 : Nat) * ((p16 : Int) - pc))) (16 * (pc : Int)) = _
  rw [show (baseStep e : Int) * (16 * (pc : Int) + (16 : Nat) * ((p16 : Int) - pc))
    = 16 * ((baseStep e : Int) * p16) by push_cast; ring, roundDiv_scale (by omega)]

/-- The corrected step is the mix of base step and full snap in the proportion of the weight (R79). -/
theorem correctedStep_rounded (e : Int) {w : Nat} (p16 : Nat) {pc : Nat} (hpc : 0 < pc) (hw : w ≤ 16) :
    Rounded (correctedStep e (some pc) w p16) (baseStep e * ((16 - w) * pc + w * p16 : Nat)) (16 * pc) := by
  have hmix : (16 * (pc : Int) + w * ((p16 : Int) - pc)) = (((16 - w) * pc + w * p16 : Nat) : Int) := by
    push_cast [hw]
    ring
  show Rounded (roundDiv ((baseStep e : Int) * (16 * (pc : Int) + w * ((p16 : Int) - pc))) (16 * (pc : Int))) _ _
  rw [hmix]
  exact roundDiv_rounded _ (by omega)

theorem targetOf_facts (e : Int) (c : Option Nat) (w p16 : Nat) (detune : Int) :
    4096 ≤ targetOf e c w p16 detune ∧ targetOf e c w p16 detune ≤ 65536
    ∧ (4096 ≤ correctedStep e c w p16 + detune → correctedStep e c w p16 + detune ≤ 65536 →
      (targetOf e c w p16 detune : Int) = correctedStep e c w p16 + detune)
    ∧ (correctedStep e c w p16 + detune < 4096 → targetOf e c w p16 detune = 4096)
    ∧ (65536 < correctedStep e c w p16 + detune → targetOf e c w p16 detune = 65536) := by
  obtain ⟨hlow, hhigh⟩ := targetOf_range e c w p16 detune
  refine ⟨hlow, hhigh, ?_⟩
  unfold targetOf clampInt
  omega

theorem glideTo_facts (c t g : Nat) :
    (g = 0 → glideTo c t g = t)
    ∧ (c ≤ t + g → t ≤ c + g → glideTo c t g = t)
    ∧ (0 < g → c + g < t → glideTo c t g = c + g)
    ∧ (0 < g → t + g < c → glideTo c t g + g = c) := by
  unfold glideTo
  refine ⟨fun h => if_pos h, fun hlow hhigh => ?_, fun hg h => ?_, fun hg h => ?_⟩
  · split_ifs <;> omega
  · split_ifs <;> omega
  · split_ifs <;> omega

/-! ### What the chain starts from -/

theorem interval_of_silent {s : State} {L : Lead} (h : (s.lead L).note = .silent) (v : VoiceId) :
    interval s L v = none := by
  simp only [interval, h, NoteState.note?]

theorem interval_of_silenced {s : State} {L : Lead} (h : (s.lead L).silenced = true) (v : VoiceId) :
    interval s L v = none := by
  unfold interval
  split
  · rfl
  · rw [if_pos h]

theorem openInterval_of_silenced {s : State} {L : Lead} (h : (s.lead L).silenced = true) (n : Nat) (y : Voice) :
    openInterval s L n y = none := if_pos h

/-- The entry of the lead's map for a note and a column (R74). -/
def entryOf (s : State) (L : Lead) (n : Nat) (column : Fin 4) : MapEntry :=
  (s.maps[(s.lead L).map]).getD (4 * (((n : Int) - (s.lead L).key.val) % 12).toNat + column.val) none

theorem openInterval_entry {s : State} {L : Lead} (h : (s.lead L).silenced = false) {y : Voice} {p : Assignment}
    (hp : y.part = some p) (n : Nat) : openInterval s L n y = entryOf s L n p.column := by
  simp only [openInterval, h, hp]
  rfl

theorem note?_of_note {c : NoteState} {n : Nat} (h : c = .voiced n ∨ c = .trailing n) : c.note? = some n := by
  obtain rfl | rfl := h <;> rfl

theorem interval_of_note {s : State} {L : Lead} {n : Nat} (hnote : (s.lead L).note.note? = some n)
    (hs : (s.lead L).silenced = false) (v : VoiceId) :
    interval s L v = if (s.lead L).held then heldInterval (s.lead L).frozen[v] n
      else openInterval s L n (s.voice v) := by
  simp only [interval, hnote, hs, Bool.false_eq_true, if_false]

theorem noteCentre_of_note {s : State} {L : Lead} {n : Nat} (hnote : (s.lead L).note.note? = some n) :
    noteCentre L s = (rowOfNote (s.rows L) n).map TuningRow.centre := by
  simp only [noteCentre, hnote]

theorem rowOfNote_of_unique {rows : List TuningRow} {n : Nat} {r : TuningRow} (hr : r ∈ rows) (hn : r.note = n)
    (huniq : ∀ r' ∈ rows, r'.note = n → r' = r) : rowOfNote rows n = some r := by
  cases hfind : rowOfNote rows n with
  | none => exact absurd (by simpa using hn) (List.find?_eq_none.1 hfind r hr)
  | some r' =>
    obtain ⟨hmem, hnote⟩ := rowOfNote_mem hfind
    rw [huniq r' hmem hnote]

theorem params_of_no_scene {s : State} {L : Lead} (h : (s.lead L).scene = none) : s.params L = Scene.empty := by
  simp only [State.params, h]

theorem params_of_scene {s : State} {L : Lead} {n : Fin 32} (h : (s.lead L).scene = some n) :
    s.params L = s.scenes[n] := by
  simp only [State.params, h]

theorem chain_starts (L : Lead) (s : State) :
    let x := s.lead L
    let entry := fun (n : Nat) (column : Fin 4) =>
      (s.maps[x.map]).getD (4 * (((n : Int) - x.key.val) % 12).toNat + column.val) none
    (x.note = .silent → (∀ v, interval s L v = none) ∧ noteCentre L s = none)
    ∧ (x.silenced = true → (∀ v, interval s L v = none) ∧ ∀ n y, openInterval s L n y = none)
    ∧ (∀ n : Nat, x.silenced = false →
      (∀ y : Voice, (y.part = none → openInterval s L n y = none)
        ∧ ∀ p, y.part = some p → openInterval s L n y = entry n p.column)
      ∧ (x.note = .voiced n ∨ x.note = .trailing n → ∀ v : VoiceId,
        (x.held = true →
          (x.frozen[v] = none → interval s L v = none)
          ∧ ∀ f, x.frozen[v] = some f →
            (((f : Int) - n).natAbs ≤ 24 → interval s L v = some ((f : Int) - n))
            ∧ (24 < ((f : Int) - n).natAbs → interval s L v = none))
        ∧ (x.held = false → ∀ p, (s.voice v).part = some p → interval s L v = entry n p.column)))
    ∧ (∀ n : Nat, x.note = .voiced n ∨ x.note = .trailing n →
      ((∀ r ∈ s.rows L, r.note ≠ n) → noteCentre L s = none)
      ∧ ∀ r ∈ s.rows L, r.note = n → (∀ r' ∈ s.rows L, r'.note = n → r' = r) →
        noteCentre L s = some ((r.lo + r.hi) / 2))
    ∧ (x.scene = none → s.rows L = s.tuning[0] ∧ rampIncrement s (some L) = 4
      ∧ s.params L = Scene.empty)
    ∧ ∀ n, x.scene = some n → s.params L = s.scenes[n] ∧ s.rows L = s.tuning[s.scenes[n].tuning]
      ∧ rampIncrement s (some L) = 4096 / s.scenes[n].fade := by
  refine ⟨fun h => ⟨interval_of_silent h, by simp only [noteCentre, h, NoteState.note?]⟩,
    fun h => ⟨interval_of_silenced h, openInterval_of_silenced h⟩,
    fun n hs => ⟨fun y => ⟨fun hp => by simp only [openInterval, hs, hp]; rfl, fun p hp => openInterval_entry hs hp n⟩,
      fun hnote v => ⟨fun hheld => ⟨fun hf => ?_, fun f hf => ⟨fun hnear => ?_, fun hfar => ?_⟩⟩,
        fun hopen p hp => ?_⟩⟩,
    fun n hnote => ⟨fun hno => ?_, fun r hr hn huniq => ?_⟩, fun h => ?_, fun n h => ?_⟩
  · rw [interval_of_note (note?_of_note hnote) hs, if_pos hheld, hf]
    rfl
  · rw [interval_of_note (note?_of_note hnote) hs, if_pos hheld, hf]
    exact if_pos hnear
  · rw [interval_of_note (note?_of_note hnote) hs, if_pos hheld, hf]
    exact if_neg (not_le.2 hfar)
  · rw [interval_of_note (note?_of_note hnote) hs, if_neg (by simp [hopen])]
    exact openInterval_entry hs hp n
  · rw [noteCentre_of_note (note?_of_note hnote), rowOfNote_eq_none hno]
    rfl
  · rw [noteCentre_of_note (note?_of_note hnote), rowOfNote_of_unique hr hn huniq]
    rfl
  · have hparams := params_of_no_scene h
    refine ⟨?_, ?_, hparams⟩
    · exact congrArg (fun c : Scene => s.tuning[c.tuning]) hparams
    · rw [rampIncrement, hparams]
      rfl
  · have hparams := params_of_scene h
    refine ⟨hparams, ?_, ?_⟩
    · exact congrArg (fun c : Scene => s.tuning[c.tuning]) hparams
    · rw [rampIncrement, hparams]

/-! ### The HTU step of a lead -/

/-- The record of a voice that falls to IDLE from RISING or SOUNDING (R95). -/
def fallenToIdle (s : State) (x : Voice) : Voice :=
  if x.envelope = 0 then
    { x with state := .idle, dest := .idle, increment := rampIncrement s x.owner, releaseMark := false
             pendingPart := none, crossfade := none }
  else { x with state := .falling, dest := .idle, increment := rampIncrement s x.owner, releaseMark := false
                pendingPart := none }

theorem startFall_idle (v : VoiceId) (s : State) :
    startFall .idle false none v s = s.setVoice v (fallenToIdle s (s.voice v)) := by
  unfold startFall fallenToIdle
  simp only
  split
  next henv =>
    unfold endFallNow
    rw [endFall_idle (by rw [State.voice_setVoice])]
    simp only [State.voice_setVoice, State.setVoice_setVoice, Voice.stopped, ← henv]
    rfl
  · rfl

theorem fallToIdle_falls {v : VoiceId} {s : State}
    (h : (s.voice v).state = .rising ∨ (s.voice v).state = .sounding) :
    fallToIdle v s = s.setVoice v (fallenToIdle s (s.voice v)) := by
  unfold fallToIdle
  obtain h | h := h
  · rw [h]
    exact startFall_idle v s
  · rw [h]
    exact startFall_idle v s

/-- A voice with an interval behind the chain: a rise, or its steps written (R82). -/
def retargeted (s : State) (L : Lead) (x : Voice) (e : Int) : Voice :=
  let target := chainTarget s L x e
  let y := x.glided target (s.params L).glide
  match x.state with
  | .idle =>
    if x.faults = [] then
      { x with state := .rising, envelope := 0, increment := rampIncrement s x.owner
               distance := Config.startDistance, crossfade := none, targetStep := target, currentStep := target }
    else x
  | .rising | .sounding => y
  | .falling =>
    match x.dest with
    | .idle => { y with state := if x.envelope = Config.fullEnvelope then .sounding else .rising
                        increment := rampIncrement s x.owner }
    | .off | .muted | .reassign => y
  | .off | .muted => x

/-- A voice without an interval (R82). -/
def untargeted (s : State) (x : Voice) : Voice :=
  match x.state with
  | .rising | .sounding => fallenToIdle s x
  | .off | .idle | .falling | .muted => x

/-- The record the HTU leaves at a voice (R82). -/
def htuVoice (s : State) (L : Lead) (v : VoiceId) : Voice :=
  match interval s L v with
  | none => untargeted s (s.voice v)
  | some e => retargeted s L (s.voice v) e

theorem retargeted_sings {s : State} {L : Lead} {x : Voice} {e : Int} (h : x.state = .rising ∨ x.state = .sounding) :
    retargeted s L x e = x.glided (chainTarget s L x e) (s.params L).glide := by
  unfold retargeted
  obtain h | h := h <;> simp only [h]

theorem retargeted_falls {s : State} {L : Lead} {x : Voice} {e : Int} (h : x.state = .falling)
    (hd : x.dest ≠ .idle) : retargeted s L x e = x.glided (chainTarget s L x e) (s.params L).glide := by
  unfold retargeted
  cases hdest : x.dest with
  | idle => exact absurd hdest hd
  | _ => simp only [h]

theorem retargeted_turns {s : State} {L : Lead} {x : Voice} {e : Int} (h : x.state = .falling)
    (hd : x.dest = .idle) : retargeted s L x e = { x.glided (chainTarget s L x e) (s.params L).glide with
      state := if x.envelope = Config.fullEnvelope then .sounding else .rising
      increment := rampIncrement s x.owner } := by
  unfold retargeted
  simp only [h, hd]

theorem retargetVoice_none {s : State} {L : Lead} {v : VoiceId} (h : interval s L v = none) :
    retargetVoice L v s = s.setVoice v (untargeted s (s.voice v)) := by
  unfold retargetVoice untargeted
  cases hstate : (s.voice v).state with
  | rising => simpa only [hstate, h] using fallToIdle_falls (.inl hstate)
  | sounding => simpa only [hstate, h] using fallToIdle_falls (.inr hstate)
  | _ => simp only [hstate, h, State.setVoice_voice]

theorem retargetVoice_some {s : State} {L : Lead} {v : VoiceId} {e : Int} (h : interval s L v = some e) :
    retargetVoice L v s = s.setVoice v (retargeted s L (s.voice v) e) := by
  unfold retargetVoice retargeted
  cases hstate : (s.voice v).state with
  | idle =>
    simp only [hstate, h]
    by_cases hf : (s.voice v).faults = []
    · simp only [hf, if_true, riseVoice, State.voice_setVoice, State.setVoice_setVoice]
      rfl
    · simp only [hf, if_false, State.setVoice_voice]
  | falling =>
    simp only [hstate, h, riseVoice, State.voice_setVoice, Voice.glided, State.setVoice_setVoice]
    cases (s.voice v).dest <;> rfl
  | _ => simp only [hstate, h, State.setVoice_voice]

theorem retargetVoice_eq (L : Lead) (v : VoiceId) (s : State) :
    retargetVoice L v s = s.setVoice v (htuVoice s L v) := by
  unfold htuVoice
  cases h : interval s L v with
  | none => exact retargetVoice_none h
  | some e => exact retargetVoice_some h

/-- The HTU's work on a voice looks at no other voice (R77). -/
theorem htuVoice_congr {s u : State} {L : Lead} {v : VoiceId} (hu : u = { s with voices := u.voices })
    (hv : u.voice v = s.voice v) : htuVoice u L v = htuVoice s L v := by
  have hinterval : interval u L v = interval s L v := by
    unfold interval
    rw [hv, hu]
    rfl
  unfold htuVoice
  rw [hinterval, hv, hu]
  rfl

/-- A run of single writes, each looking at its own voice alone, is all of them at once. -/
theorem foldl_setVoice {f : State → VoiceId → State} {g : State → VoiceId → Voice}
    (hf : ∀ s v, f s v = s.setVoice v (g s v))
    (hg : ∀ {s u : State} {v}, u = { s with voices := u.voices } → u.voice v = s.voice v → g u v = g s v) :
    ∀ (vs : List VoiceId) (s : State), vs.Nodup →
      vs.foldl f s = { s with voices := (vs.foldl f s).voices }
      ∧ ∀ w, (vs.foldl f s).voice w = if w ∈ vs then g s w else s.voice w
  | [], s, _ => ⟨rfl, fun w => rfl⟩
  | v :: vs, s, hnodup => by
    obtain ⟨hout, hrest⟩ := List.nodup_cons.1 hnodup
    obtain ⟨hframe, hvoice⟩ := foldl_setVoice hf hg vs (f s v) hrest
    have hstep := hf s v
    refine ⟨?_, fun w => ?_⟩
    · rw [List.foldl_cons, hframe, hstep]
      rfl
    · rw [List.foldl_cons, hvoice, hstep]
      by_cases e : w = v
      · subst e
        rw [if_neg hout, if_pos List.mem_cons_self, State.voice_setVoice]
      · have hother : (s.setVoice v (g s v)).voice w = s.voice w := State.voice_setVoice_ne _ _ _ _ (Ne.symm e)
        have hsame : g (s.setVoice v (g s v)) w = g s w := hg rfl hother
        rw [hother, hsame]
        simp only [List.mem_cons, e, false_or]

/-- The HTU step writes the voices the lead owns (R77). -/
theorem retargetLead_voices (L : Lead) (s : State) :
    retargetLead L s = { s with voices := (retargetLead L s).voices }
    ∧ ∀ v, (retargetLead L s).voice v =
      if (s.voice v).owner = some L then htuVoice s L v else s.voice v := by
  have h := foldl_setVoice (f := fun s v => if (s.voice v).owner = some L then retargetVoice L v s else s)
    (g := fun s v => if (s.voice v).owner = some L then htuVoice s L v else s.voice v)
    (fun s v => by
      split
      · exact retargetVoice_eq L v s
      · exact (State.setVoice_voice s v).symm)
    (fun {s u v} hu hv => by simp only [hv, htuVoice_congr hu hv]) allVoices s allVoices_nodup
  exact ⟨h.1, fun v => (h.2 v).trans (if_pos (mem_allVoices v))⟩

theorem htu_step (L : Lead) (s : State) :
    let t := retargetLead L s
    t = { s with voices := t.voices }
    ∧ ∀ v : VoiceId,
      let x := s.voice v
      let inc := rampIncrement s (some L)
      (x.owner ≠ some L ∨ x.state = .off ∨ x.state = .muted → t.voice v = x)
      ∧ (x.owner = some L →
        (interval s L v = none →
          (x.state = .idle ∨ x.state = .falling → t.voice v = x)
          ∧ (x.state = .rising ∨ x.state = .sounding → t.voice v =
            if x.envelope = 0 then
              { x with state := .idle, dest := .idle, increment := inc, releaseMark := false
                       pendingPart := none, crossfade := none }
            else { x with state := .falling, dest := .idle, increment := inc, releaseMark := false
                          pendingPart := none }))
        ∧ ∀ e, interval s L v = some e →
          let target := targetOf e (noteCentre L s) (s.params L).weight (s.lead L).estimate
            (match x.part with | some p => p.detune | none => 0)
          let y := { x with targetStep := target
                            currentStep := glideTo x.currentStep target (s.params L).glide }
          (x.state = .idle → x.faults = [] → t.voice v =
            { x with state := .rising, envelope := 0, increment := inc, distance := 320 * 16384
                     crossfade := none, targetStep := target, currentStep := target })
          ∧ (x.state = .idle → x.faults ≠ [] → t.voice v = x)
          ∧ (x.state = .rising ∨ x.state = .sounding → t.voice v = y)
          ∧ (x.state = .falling → x.dest ≠ .idle → t.voice v = y)
          ∧ (x.state = .falling → x.dest = .idle → t.voice v =
            { y with state := if x.envelope = 4096 then .sounding else .rising, increment := inc })) := by
  obtain ⟨hframe, hvoices⟩ := retargetLead_voices L s
  refine ⟨hframe, fun v => ⟨fun h => ?_, fun howner => ⟨fun hnone => ⟨fun h => ?_, fun h => ?_⟩,
    fun e he => ?_⟩⟩⟩
  · rw [hvoices]
    obtain h | h := h
    · rw [if_neg h]
    · have hstays : htuVoice s L v = s.voice v := by
        unfold htuVoice
        split
        · obtain h | h := h <;> simp only [untargeted, h]
        · obtain h | h := h <;> simp only [retargeted, h]
      rw [hstays, ite_self]
  · rw [hvoices, if_pos howner]
    simp only [htuVoice, hnone]
    obtain h | h := h <;> simp only [untargeted, h]
  · rw [hvoices, if_pos howner]
    simp only [htuVoice, hnone]
    obtain h | h := h <;> simp only [untargeted, h, fallenToIdle, howner]
  · have hv : (retargetLead L s).voice v = retargeted s L (s.voice v) e := by
      rw [hvoices, if_pos howner]
      simp only [htuVoice, he]
    refine ⟨fun h hf => ?_, fun h hf => ?_, fun h => ?_, fun h hd => ?_, fun h hd => ?_⟩
    · rw [hv]
      simp only [retargeted, h, hf, if_true, howner]
      rfl
    · rw [hv]
      simp only [retargeted, h, hf, if_false]
    · rw [hv, retargeted_sings h]
      rfl
    · rw [hv, retargeted_falls h hd]
      rfl
    · have hinc : rampIncrement s (s.voice v).owner = rampIncrement s (some L) := by rw [howner]
      rw [hv, retargeted_turns h hd, hinc]
      rfl

/-- Settles O17. -/
theorem targetsAndSteps : Obligations.TargetsAndSteps :=
  ⟨⟨fun e _ p16 _ hpc => ⟨correctedStep_natural e hpc p16, rfl, correctedStep_full ..⟩, targetOf_facts,
      fun e _ p16 _ hpc hw => correctedStep_rounded e p16 hpc hw, glideTo_facts⟩,
    ⟨rfl, stepTable_nearest⟩, htu_step, fun n _ hd => roundDiv_rounded n hd, chain_starts⟩

end Sys2Proof.Proofs.Harmony
end

