-- ==== Sys2Proof/Proofs/Formats.lean ====
section
/-! PROOF. Bytes and formats (R1 to R4, R166, R167, R186, R187): numbers in bytes, the fields of frames, checks, lane
markers and messages, and the request kinds. -/

namespace Sys2Proof.Proofs.Formats

open Sys2Proof Sys2Proof.Machine Sys2Proof.Safety Sys2Proof.Proofs.Operands

/-! ### Numbers in bytes -/

theorem byte1_toNat (n : Nat) : (byte1 n).toNat = n % 256 := BitVec.toNat_ofNat ..

theorem byte1_toNat_of_lt {n : Nat} (h : n < 256) : (byte1 n).toNat = n := by
  rw [byte1_toNat, Nat.mod_eq_of_lt h]

theorem append_toNat {m n : Nat} (x : BitVec m) (y : BitVec n) : (x ++ y).toNat = x.toNat * 2 ^ n + y.toNat := by
  rw [BitVec.toNat_append, ← Nat.shiftLeft_add_eq_or_of_lt y.isLt, Nat.shiftLeft_eq]

theorem num2_append (b a : Byte) : num2 b a = (b ++ a).toNat := by
  rw [append_toNat]
  rfl

theorem num4_append (d c b a : Byte) : num4 d c b a = d ++ c ++ b ++ a := by
  refine BitVec.eq_of_toNat_eq ?_
  have hd := d.isLt; have hc := c.isLt; have hb := b.isLt; have ha := a.isLt
  rw [append_toNat, append_toNat, append_toNat, num4, BitVec.toNat_ofNat]
  omega

theorem num2_bytes2 {n : Nat} (h : n < 65536) : num2 (byte1 (n / 256)) (byte1 n) = n := by
  rw [num2, byte1_toNat, byte1_toNat]
  omega

theorem num4_bytes4 (w : Word32) :
    num4 (byte1 (w.toNat / 16777216)) (byte1 (w.toNat / 65536)) (byte1 (w.toNat / 256)) (byte1 w.toNat) = w := by
  refine BitVec.eq_of_toNat_eq ?_
  have hw := w.isLt
  rw [num4, BitVec.toNat_ofNat]
  simp only [byte1_toNat]
  omega

/-! ### Bytes of a list -/

theorem byteAt_append_left {xs : List Byte} {i : Nat} (h : i < xs.length) (ys : List Byte) :
    byteAt (xs ++ ys) i = byteAt xs i := by
  exact List.getD_append _ _ _ _ h

theorem byteAt_append_right (xs ys : List Byte) (i : Nat) : byteAt (xs ++ ys) (xs.length + i) = byteAt ys i := by
  rw [byteAt, List.getD_append_right _ _ _ _ (Nat.le_add_right ..), Nat.add_sub_cancel_left, byteAt]

theorem length_flatMap_const {α : Type} {f : α → List Byte} {n : Nat} (hf : ∀ x, (f x).length = n) :
    ∀ l : List α, (l.flatMap f).length = n * l.length
  | [] => rfl
  | x :: l => by
    rw [List.flatMap_cons, List.length_append, hf, length_flatMap_const hf l, List.length_cons]
    ring

/-- Records of one length lie one behind the other. -/
theorem byteAt_flatMap {α : Type} {f : α → List Byte} {n : Nat} (hf : ∀ x, (f x).length = n) :
    ∀ (l : List α) (i : Nat) (hi : i < l.length) (j : Nat), j < n →
      byteAt (l.flatMap f) (n * i + j) = byteAt (f l[i]) j
  | [], i, hi, _, _ => absurd hi (Nat.not_lt_zero i)
  | x :: l, 0, _, j, hj => by
    rw [List.flatMap_cons, Nat.mul_zero, Nat.zero_add, byteAt_append_left (by rw [hf]; exact hj)]
    rfl
  | x :: l, i + 1, hi, j, hj => by
    rw [List.flatMap_cons, show n * (i + 1) + j = (f x).length + (n * i + j) by rw [hf]; ring,
      byteAt_append_right, byteAt_flatMap hf l i (Nat.lt_of_succ_lt_succ hi) j hj]
    rfl

/-! ### Frames -/

theorem isFrame_iff (bytes : List Byte) :
    isFrame bytes = true ↔ bytes.length = 88 ∧ byteAt bytes 0 = 0x9C ∧ byteAt bytes 1 = 0x35 := by
  match bytes with
  | [] => simp [isFrame]
  | [x] => simp [isFrame]
  | x :: y :: rest => simp [isFrame, byteAt]

theorem frameGood_iff (bytes : List Byte) :
    frameGood bytes = true ↔ bytes.drop 86 = checkBytes (crc ((bytes.drop 2).take 84)) := by
  rw [frameGood, beq_iff_eq, eq_comm]
  rfl

theorem slotSample_append (bytes : List Byte) (k : Nat) : slotSample bytes k =
    (byteAt bytes (6 + 3 * k) ++ byteAt bytes (7 + 3 * k) ++ byteAt bytes (8 + 3 * k) : BitVec 24).toInt := by
  unfold slotSample
  refine congrArg BitVec.toInt (BitVec.eq_of_toNat_eq ?_)
  have h0 := (byteAt bytes (6 + 3 * k)).isLt
  have h1 := (byteAt bytes (7 + 3 * k)).isLt
  have h2 := (byteAt bytes (8 + 3 * k)).isLt
  rw [append_toNat, append_toNat, BitVec.toNat_ofNat]
  omega

/-- The sample of three bytes written for it (R4). -/
theorem slotSample_sampleBytes {x : Int} (hlow : -8388608 ≤ x) (hhigh : x ≤ 8388607) :
    slotSample (List.replicate 6 0 ++ sampleBytes x) 0 = x := by
  have hw := (BitVec.ofInt 24 x).isLt
  have hnumber : ((byte1 ((BitVec.ofInt 24 x).toNat / 65536)).toNat * 256
        + (byte1 ((BitVec.ofInt 24 x).toNat / 256)).toNat) * 256 + (byte1 (BitVec.ofInt 24 x).toNat).toNat
      = (BitVec.ofInt 24 x).toNat := by
    simp only [byte1_toNat]
    omega
  show (BitVec.ofNat 24 (((byte1 ((BitVec.ofInt 24 x).toNat / 65536)).toNat * 256
        + (byte1 ((BitVec.ofInt 24 x).toNat / 256)).toNat) * 256
        + (byte1 (BitVec.ofInt 24 x).toNat).toNat)).toInt = x
  rw [hnumber, BitVec.ofNat_toNat, BitVec.setWidth_eq]
  exact BitVec.toInt_ofInt_eq_self (by omega) (by omega) (by omega)

/-! ### The check -/

theorem crcBit_eq (r : Word16) (bit : Bool) :
    crcBit r bit = if r.msb = bit then r <<< 1 else (r <<< 1) ^^^ 0x1021 := by
  unfold crcBit
  cases r.msb <;> cases bit <;> rfl

theorem crc_append (bytes : List Byte) (b : Byte) : crc (bytes ++ [b]) =
    [b.getLsbD 7, b.getLsbD 6, b.getLsbD 5, b.getLsbD 4, b.getLsbD 3, b.getLsbD 2, b.getLsbD 1,
      b.getLsbD 0].foldl (fun (r : Word16) bit =>
        if r.msb = bit then r <<< 1 else (r <<< 1) ^^^ 0x1021) (crc bytes) := by
  unfold crc
  rw [List.foldl_append]
  simp only [List.foldl_cons, List.foldl_nil, crcByte, crcBit_eq]

theorem checkBytes_append (c : Word16) : ∃ hi lo : Byte, checkBytes c = [hi, lo] ∧ hi ++ lo = c := by
  refine ⟨byte1 (c.toNat / 256), byte1 c.toNat, rfl, BitVec.eq_of_toNat_eq ?_⟩
  have hc := c.isLt
  rw [append_toNat, byte1_toNat, byte1_toNat]
  omega

/-! ### Lane markers -/

theorem decodeLane_idle {lane : List Byte}
    (h : (byteAt lane 0).toNat % 16 = 0 ∨ 8 ≤ (byteAt lane 0).toNat % 16 ∨ (byteAt lane 0).toNat / 16 = 0
      ∨ 4 ≤ (byteAt lane 0).toNat / 16) : decodeLane lane = .idle := by
  unfold decodeLane
  simp only
  split_ifs <;> first | rfl | omega

theorem decodeLane_kinds {lane : List Byte} (hlow : 1 ≤ (byteAt lane 0).toNat % 16)
    (hhigh : (byteAt lane 0).toNat % 16 ≤ 7) :
    ((byteAt lane 0).toNat / 16 = 1 →
      decodeLane lane = .start ((lane.drop 1).take ((byteAt lane 0).toNat % 16)))
    ∧ ((byteAt lane 0).toNat / 16 = 2 →
      decodeLane lane = .more ((lane.drop 1).take ((byteAt lane 0).toNat % 16)))
    ∧ ((byteAt lane 0).toNat / 16 = 3 →
      decodeLane lane = .last ((lane.drop 1).take ((byteAt lane 0).toNat % 16))) := by
  unfold decodeLane
  simp only [if_pos (And.intro hlow hhigh)]
  exact ⟨fun h => by simp [h], fun h => by simp [h], fun h => by simp [h]⟩

/-! ### Request kinds -/

theorem kindOfByte_kindByte (k : ReqKind) : kindOfByte (kindByte k) = some k := by cases k <;> rfl

theorem kindByte_of_kindOfByte {b : Byte} {k : ReqKind} (h : kindOfByte b = some k) : kindByte k = b := by
  have hall : ∀ b : Byte, ∀ k, kindOfByte b = some k → kindByte k = b := by
    intro b k h
    unfold kindOfByte at h
    split at h
    all_goals first
      | cases h
        rename_i e
        exact BitVec.eq_of_toNat_eq e.symm
      | cases h
  exact hall b k h

theorem messageOf_commandOf (kind : Byte) (r : Req) : messageOf (commandOf kind r) = some (kind, r) := by
  cases h : kindOfByte kind with
  | none =>
    unfold commandOf
    rw [h]
    rfl
  | some k =>
    rw [← kindByte_of_kindOfByte h]
    cases k <;> rfl

/-- A row of a request command names itself by its own message (R187). -/
theorem commandOf_message (i : Instr) : Laws.RequestKind.Statement i := by
  cases i with
  | unknownRequest kind r => exact Laws.RequestKind.unknownRequest kind r
  | identify r => exact Laws.RequestKind.identify r
  | readCap r => exact Laws.RequestKind.readCap r
  | configure r => exact Laws.RequestKind.configure r
  | readConfig r => exact Laws.RequestKind.readConfig r
  | loadBegin r => exact Laws.RequestKind.loadBegin r
  | loadData r => exact Laws.RequestKind.loadData r
  | loadCommit r => exact Laws.RequestKind.loadCommit r
  | loadAbort r => exact Laws.RequestKind.loadAbort r
  | readTable r => exact Laws.RequestKind.readTable r
  | cueNow r => exact Laws.RequestKind.cueNow r
  | cueAt r => exact Laws.RequestKind.cueAt r
  | cueFlush r => exact Laws.RequestKind.cueFlush r
  | gatewaySet r => exact Laws.RequestKind.gatewaySet r
  | portSet r => exact Laws.RequestKind.portSet r
  | readState r => exact Laws.RequestKind.readState r
  | readFaults r => exact Laws.RequestKind.readFaults r
  | faultClear r => exact Laws.RequestKind.faultClear r
  | faultSetup r => exact Laws.RequestKind.faultSetup r
  | counterSetup r => exact Laws.RequestKind.counterSetup r
  | readCounters r => exact Laws.RequestKind.readCounters r
  | engineReset r => exact Laws.RequestKind.engineReset r
  | _ => exact Laws.RequestKind.of_event rfl

theorem bodyLengthOk_iff (k : ReqKind) (n : Nat) : bodyLengthOk k n = true ↔
    match k with
    | .loadData => n ≤ 96
    | .identify | .readConfig | .loadCommit | .loadAbort | .readState | .readFaults | .readCounters
    | .engineReset => n = 0
    | .readCap | .cueFlush => n = 1
    | .loadBegin | .portSet | .faultClear => n = 2
    | .counterSetup => n = 3
    | .cueNow => n = 4
    | .readTable | .faultSetup => n = 5
    | .cueAt => n = 8
    | .configure | .gatewaySet => n = 10 := by
  cases k <;> simp [bodyLengthOk]

/-- Settles O30, format by format. -/
theorem requestKindsRoundTrip : Obligations.RequestKindsRoundTrip := by
  refine ⟨commandOf_message, messageOf_commandOf, fun k k' b => ⟨⟨kindByte_of_kindOfByte, fun h => ?_⟩, fun h => ?_⟩,
    rfl, fun r => rfl, bodyLengthOk_iff, rfl, fun bytes => ⟨isFrame_iff bytes, frameGood_iff bytes, rfl,
      num4_append .., rfl, fun k => ⟨rfl, slotSample_append bytes k⟩⟩,
    fun x hlow hhigh => ⟨rfl, slotSample_sampleBytes hlow hhigh⟩,
    fun w => ⟨rfl, (num4_append ..).symm.trans (num4_bytes4 w)⟩,
    ⟨fun bytes b => ⟨rfl, crc_append bytes b⟩, by decide +kernel, checkBytes_append⟩,
    fun lane => ⟨decodeLane_idle, decodeLane_kinds⟩, fun kind data h => ?_,
    fun d c b a => ⟨num2_append b a, num4_append d c b a⟩, fun bytes broadcast => rfl, fun m => rfl⟩
  · rw [← h]
    exact kindOfByte_kindByte k
  · have hsome := kindOfByte_kindByte k
    rw [h, kindOfByte_kindByte] at hsome
    exact (Option.some.inj hsome).symm
  · rw [encodeLane, Nat.mul_comm]
    rfl

end Sys2Proof.Proofs.Formats
end

