-- ==== Sys2Proof/Proofs/Pictures.lean ====
section
/-! PROOF. The pictures of READ_STATE, READ_FAULTS and READ_COUNTERS (R110, R160, R165, R183, R190), byte by byte. -/

namespace Sys2Proof.Proofs.Pictures

open Sys2Proof Sys2Proof.Machine Sys2Proof.Safety Sys2Proof.Proofs.Answers Sys2Proof.Proofs.Operands
  Sys2Proof.Proofs.Formats

/-! ### The fault picture -/

theorem faultByte_toNat (f : FaultRecord) : (faultByte f).toNat =
    (if f.status then 1 else 0) + (if f.detectMask then 2 else 0) + (if f.reportMask then 4 else 0)
      + (if f.severity = .mute then 8 else 0) := by
  obtain ⟨status, detect, report, severity⟩ := f
  cases status <;> cases detect <;> cases report <;> cases severity <;> rfl

theorem pointerByte_toNat (p : Option FaultKind) : (pointerByte p).toNat = match p with
    | some k => 128 + (faultCode k).val
    | none => 0 := by
  cases p with
  | none => rfl
  | some k => cases k <;> rfl

/-- The fault picture: a byte a kind in the order of the codes, and the pointer's. -/
def faultPicture (s : State) : List Byte :=
  (faultKinds.map fun k => faultByte (s.fault k)) ++ [pointerByte s.pointer]

theorem faultPicture_kind (s : State) (k : FaultKind) :
    byteAt (faultPicture s) (faultCode k).val = faultByte (s.fault k) := by
  cases k <;> rfl

/-! ### The counter picture -/

def counterPicture (s : State) : List Byte :=
  counterBytes s.counters[0] ++ counterBytes s.counters[1] ++ counterBytes s.counters[2] ++ counterBytes s.counters[3]

theorem counterPicture_at (s : State) (i : Fin 4) (j : Fin 6) :
    byteAt (counterPicture s) (6 * i.val + j.val) = byteAt (counterBytes s.counters[i]) j := by
  fin_cases i <;> fin_cases j <;> rfl

theorem flagByte_toNat (b : Bool) : (byte1 (flagBit b 1)).toNat = if b then 1 else 0 := by cases b <;> rfl

/-- Settles O38. -/
theorem faultsAndCountersRead : Obligations.FaultsAndCountersRead := by
  intro r s ha hbody
  refine ⟨⟨faultPicture s, checked_answered (k := .readFaults) (act := actReadFaults) ha (by rw [hbody]; rfl) rfl
      rfl, rfl, fun k => ?_, pointerByte_toNat s.pointer⟩,
    ⟨counterPicture (countEvent .accepted s), checked_answered (k := .readCounters) (act := actReadCounters) ha
      (by rw [hbody]; rfl) rfl rfl, rfl, fun i => ?_⟩⟩
  · rw [faultPicture_kind, faultByte_toNat]
  · have hat := counterPicture_at (countEvent .accepted s) i
    intro c
    have h0 : byteAt (counterPicture (countEvent .accepted s)) (6 * i.val) = byte1 (c.count.toNat / 16777216) :=
      hat 0
    have h1 : byteAt (counterPicture (countEvent .accepted s)) (6 * i.val + 1) = byte1 (c.count.toNat / 65536) :=
      hat 1
    have h2 : byteAt (counterPicture (countEvent .accepted s)) (6 * i.val + 2) = byte1 (c.count.toNat / 256) :=
      hat 2
    have h3 : byteAt (counterPicture (countEvent .accepted s)) (6 * i.val + 3) = byte1 c.count.toNat := hat 3
    have h4 : byteAt (counterPicture (countEvent .accepted s)) (6 * i.val + 4) = byte1 c.selector := hat 4
    have h5 : byteAt (counterPicture (countEvent .accepted s)) (6 * i.val + 5) = byte1 (flagBit c.inhibit 1) := hat 5
    rw [h0, h1, h2, h3, h4, h5]
    exact ⟨num4_bytes4 c.count, fun hsel => byte1_toNat_of_lt (by omega), flagByte_toNat c.inhibit⟩

/-! ### The state picture -/

theorem voicePicture_length (x : Voice) : (voicePicture x).length = 8 := rfl

/-- Where a lead's nine bytes begin (R190). -/
def leadOffset : Lead → Nat
  | .a => 5
  | .b => 14

theorem statePicture_lead (s : State) (L : Lead) (j : Fin 9) :
    byteAt (statePicture s) (leadOffset L + j.val) = byteAt (leadPicture (s.lead L)) j := by
  cases L <;> fin_cases j <;> rfl

theorem statePicture_voice (s : State) (v : VoiceId) {j : Nat} (hj : j < 8) :
    byteAt (statePicture s) (23 + 8 * v.val + j) = byteAt (voicePicture (s.voice v)) j := by
  have hv : allVoices[v.val]'v.isLt = v := by revert v; decide
  have hfront : statePicture s = (byte1 (linkCode s.ltu.link) :: bytes4 s.ltu.count
      ++ leadPicture s.leadA ++ leadPicture s.leadB) ++ allVoices.flatMap fun v => voicePicture (s.voice v) := rfl
  rw [hfront, Nat.add_assoc]
  refine (byteAt_append_right (byte1 (linkCode s.ltu.link) :: bytes4 s.ltu.count
      ++ leadPicture s.leadA ++ leadPicture s.leadB) _ (8 * v.val + j)).trans ?_
  rw [byteAt_flatMap (fun v => voicePicture_length (s.voice v)) allVoices v.val v.isLt j hj, hv]

theorem noteCode_lt (n : NoteState) : noteCode n < 3 := by cases n <;> simp [noteCode]

/-- Two bits and four flags above them are read back from their sum. -/
theorem flags_read {n : Nat} (hn : n < 4) (a b c d : Bool) :
    let x := byte1 (n + flagBit a 4 + flagBit b 8 + flagBit c 16 + flagBit d 32)
    x.toNat % 4 = n ∧ x.getLsbD 2 = a ∧ x.getLsbD 3 = b ∧ x.getLsbD 4 = c ∧ x.getLsbD 5 = d ∧ x.toNat < 64 := by
  have hn' : n = 0 ∨ n = 1 ∨ n = 2 ∨ n = 3 := by omega
  obtain rfl | rfl | rfl | rfl := hn' <;> cases a <;> cases b <;> cases c <;> cases d <;> decide

theorem indexByte_some {n : Nat} (h : n ≤ 256) (i : Fin n) : (indexByte (some i)).toNat = i.val :=
  byte1_toNat_of_lt (lt_of_lt_of_le i.isLt h)

theorem leadPicture_facts (c : LeadChannel) :
    let b := byteAt (leadPicture c)
    (b 0).toNat % 4 = (match c.note with | .silent => 0 | .voiced _ => 1 | .trailing _ => 2)
    ∧ (b 0).getLsbD 2 = c.held ∧ (b 0).getLsbD 3 = c.silenced
    ∧ (b 0).getLsbD 4 = c.scene.isSome ∧ (b 0).getLsbD 5 = c.transition.isSome
    ∧ (b 0).toNat < 64
    ∧ (c.note = .silent → b 1 = 0)
    ∧ (∀ n, c.note = .voiced n ∨ c.note = .trailing n → n ≤ 127 → (b 1).toNat = n)
    ∧ (c.estimate ≤ 10240 → num2 (b 2) (b 3) = c.estimate)
    ∧ (c.confidence ≤ 255 → (b 4).toNat = c.confidence)
    ∧ (c.scene = none → b 5 = 0)
    ∧ (∀ n, c.scene = some n → (b 5).toNat = n.val)
    ∧ (b 6).toNat = c.map.val ∧ (b 7).toNat = c.key.val
    ∧ (c.transition = none → b 8 = 0)
    ∧ ∀ t, c.transition = some t → t.level ≤ 15 → (b 8).toNat = t.level := by
  intro b
  have hflags := flags_read (n := noteCode c.note) (by have := noteCode_lt c.note; omega) c.held c.silenced
    c.scene.isSome c.transition.isSome
  obtain ⟨hnote, hheld, hsilenced, hscene, htransition, hrange⟩ := hflags
  have h1 : b 1 = byte1 (c.note.note?.getD 0) := rfl
  have h5 : b 5 = indexByte c.scene := rfl
  have h8 : b 8 = match c.transition with | some t => byte1 t.level | none => 0 := rfl
  refine ⟨hnote.trans ?_, hheld, hsilenced, hscene, htransition, hrange, fun h => ?_, fun n h hn => ?_,
    fun h => num2_bytes2 (by omega), fun h => byte1_toNat_of_lt (by omega), fun h => ?_, fun n h => ?_,
    byte1_toNat_of_lt (by omega), byte1_toNat_of_lt (by omega), fun h => ?_, fun t h ht => ?_⟩
  · cases c.note <;> rfl
  · rw [h1, h]
    rfl
  · rw [h1, Harmony.note?_of_note h]
    exact byte1_toNat_of_lt (n := n) (by omega)
  · rw [h5, h]
    rfl
  · rw [h5, h]
    exact indexByte_some (by omega) n
  · rw [h8, h]
  · rw [h8, h]
    exact byte1_toNat_of_lt (by omega)

theorem voicePicture_facts (x : Voice) :
    let b := byteAt (voicePicture x)
    (b 0).toNat % 8 = (match x.state with
      | .off => 0 | .idle => 1 | .rising => 2 | .sounding => 3 | .falling => 4 | .muted => 5)
    ∧ (b 0).getLsbD 3 = false
    ∧ (b 0).toNat / 16 = (match x.owner with
      | none => 0 | some .a => 1 | some .b => 2)
    ∧ b 1 = (match x.part with | some p => BitVec.ofNat 8 p.slot.val | none => 255)
    ∧ (x.envelope ≤ 4096 → num2 (b 2) (b 3) = x.envelope)
    ∧ (4096 ≤ x.currentStep → x.currentStep ≤ 65536 → num2 (b 4) (b 5) + 4096 = x.currentStep)
    ∧ (0 ≤ x.distance → x.distance < 65536 * 16384 →
      (num2 (b 6) (b 7) : Int) = x.distance / 16384) := by
  intro b
  have h0 : b 0 = byte1 (voiceCode x.state + 16 * ownerCode x.owner) := rfl
  rw [h0]
  refine ⟨?_, ?_, ?_, rfl, fun h => num2_bytes2 (by omega), fun hlow hhigh => ?_, fun hlow hhigh => ?_⟩
  · rcases x.owner with _ | _ | _ <;> cases x.state <;> rfl
  · rcases x.owner with _ | _ | _ <;> cases x.state <;> rfl
  · rcases x.owner with _ | _ | _ <;> cases x.state <;> rfl
  · have hstep : num2 (b 4) (b 5) = x.currentStep - 4096 := num2_bytes2 (by omega)
    omega
  · have hlt : (x.distance / 16384).toNat < 65536 := by omega
    have hdistance : num2 (b 6) (b 7) = (x.distance / 16384).toNat := num2_bytes2 hlt
    omega

/-- Settles O37: a lead's and a voice's bytes are their pictures at their places. -/
theorem stateRead : Obligations.StateRead := by
  intro r s ha hbody
  refine ⟨statePicture s, checked_answered (k := .readState) (act := actReadState) ha (by rw [hbody]; rfl) rfl rfl,
    rfl, ?_, num4_bytes4 s.ltu.count, fun L => ?_, fun v => ?_⟩
  · show byte1 (linkCode s.ltu.link) = _
    cases s.ltu.link <;> rfl
  · have hfacts := leadPicture_facts (s.lead L)
    have hat := statePicture_lead s L
    cases L with
    | a => exact hfacts
    | b => exact hfacts
  · have hfacts := voicePicture_facts (s.voice v)
    simp only [← statePicture_voice s v (j := 0) (by omega), ← statePicture_voice s v (j := 1) (by omega),
      ← statePicture_voice s v (j := 2) (by omega), ← statePicture_voice s v (j := 3) (by omega),
      ← statePicture_voice s v (j := 4) (by omega), ← statePicture_voice s v (j := 5) (by omega),
      ← statePicture_voice s v (j := 6) (by omega), ← statePicture_voice s v (j := 7) (by omega)] at hfacts
    exact hfacts

end Sys2Proof.Proofs.Pictures
end

