-- ==== Sys2Proof/Proofs/TableRecords.lean ====
section
/-! PROOF. Tuning tables, maps and the configuration in bytes (R54 to R56, R71, R72, R178, R179, R188, R189): where
each field lies, and the way back. -/

namespace Sys2Proof.Proofs.TableRecords

open Sys2Proof Sys2Proof.Machine Sys2Proof.Safety Sys2Proof.Proofs.Operands Sys2Proof.Proofs.Formats
  Sys2Proof.Proofs.Notes Sys2Proof.Proofs.RecordRanges Sys2Proof.Proofs.TableRequests

theorem byteAt_eq_getElem {xs : List Byte} {i : Nat} (h : i < xs.length) : byteAt xs i = xs[i] :=
  List.getD_eq_getElem _ _ h

/-- Lists of one length with the same bytes are the same list. -/
theorem eq_of_byteAt {xs ys : List Byte} (hlength : xs.length = ys.length)
    (h : ∀ i < xs.length, byteAt xs i = byteAt ys i) : xs = ys :=
  List.ext_getElem hlength fun i hx hy => by
    rw [← byteAt_eq_getElem hx, ← byteAt_eq_getElem hy, h i hx]

/-! ### Tuning tables -/

theorem tuningRowOk_iff (r : TuningRow) :
    tuningRowOk r = true ↔ r.note ≤ 127 ∧ 640 ≤ r.lo ∧ r.lo ≤ r.hi ∧ r.hi ≤ 10240 := by
  simp only [tuningRowOk, Bool.and_eq_true, decide_eq_true_eq, and_assoc]

theorem tuningOk_of_pairwise : ∀ {rows : List TuningRow}, (∀ r ∈ rows, tuningRowOk r = true) →
    rows.Pairwise RowBefore → tuningOk rows = true
  | [], _, _ => rfl
  | [r], h, _ => h r List.mem_cons_self
  | r :: r' :: rest, h, hpairs => by
    obtain ⟨hfirst, hrest⟩ := List.pairwise_cons.1 hpairs
    obtain ⟨hnote, hband⟩ := hfirst r' List.mem_cons_self
    have hr := h r List.mem_cons_self
    have htail := tuningOk_of_pairwise (fun x hx => h x (List.mem_cons_of_mem _ hx)) hrest
    simp only [tuningOk, hr, hnote, hband, htail, decide_true, Bool.and_self]

theorem tuningOk_iff_installed (rows : List TuningRow) : TuningOk rows ↔ TuningInstalled rows := by
  constructor
  · rintro ⟨hlength, hok⟩
    exact ⟨hlength, fun r hr => (tuningRowOk_iff r).1 (tuningOk_rows hok r hr), tuningOk_pairwise hok⟩
  · rintro ⟨hlength, hrows, hpairs⟩
    exact ⟨hlength, tuningOk_of_pairwise (fun r hr => (tuningRowOk_iff r).2 (hrows r hr)) hpairs⟩

/-- A row as its five bytes (R189). -/
def rowBytes (r : TuningRow) : List Byte := byte1 r.note :: (bytes2 r.lo ++ bytes2 r.hi)

theorem bytesOfTuning_length (rows : List TuningRow) : (bytesOfTuning rows).length = 1 + 5 * rows.length := by
  have hrows := length_flatMap_const (f := rowBytes) (n := 5) (fun _ => rfl) rows
  rw [show bytesOfTuning rows = byte1 rows.length :: rows.flatMap rowBytes from rfl, List.length_cons, hrows,
    Nat.add_comm]

theorem bytesOfTuning_row (rows : List TuningRow) {j : Nat} (hj : j < rows.length) {k : Nat} (hk : k < 5) :
    byteAt (bytesOfTuning rows) (5 * j + k + 1) = byteAt (rowBytes rows[j]) k :=
  byteAt_flatMap (f := rowBytes) (fun _ => rfl) rows j hj k hk

/-- A table within its ranges lies in its own bytes (R189). -/
theorem tuningLaid_bytes {rows : List TuningRow} (h : TuningOk rows) : TuningLaid (bytesOfTuning rows) rows := by
  obtain ⟨hlength, hrows, -⟩ := (tuningOk_iff_installed rows).1 h
  refine ⟨bytesOfTuning_length rows, byte1_toNat_of_lt (by omega), fun j hj => ?_⟩
  obtain ⟨hnote, -, hlo, hhi⟩ := hrows rows[j] (List.getElem_mem hj)
  have h0 : byteAt (bytesOfTuning rows) (1 + 5 * j) = byte1 rows[j].note := by
    rw [Nat.add_comm]; exact bytesOfTuning_row rows hj (k := 0) (by omega)
  have h1 : byteAt (bytesOfTuning rows) (2 + 5 * j) = byte1 (rows[j].lo / 256) := by
    rw [Nat.add_comm]; exact bytesOfTuning_row rows hj (k := 1) (by omega)
  have h2 : byteAt (bytesOfTuning rows) (3 + 5 * j) = byte1 rows[j].lo := by
    rw [Nat.add_comm]; exact bytesOfTuning_row rows hj (k := 2) (by omega)
  have h3 : byteAt (bytesOfTuning rows) (4 + 5 * j) = byte1 (rows[j].hi / 256) := by
    rw [Nat.add_comm]; exact bytesOfTuning_row rows hj (k := 3) (by omega)
  have h4 : byteAt (bytesOfTuning rows) (5 + 5 * j) = byte1 rows[j].hi := by
    rw [Nat.add_comm]; exact bytesOfTuning_row rows hj (k := 4) (by omega)
  have hlonum : num2 (byte1 (rows[j].lo / 256)) (byte1 rows[j].lo) = rows[j].lo := num2_bytes2 (by omega)
  have hhinum : num2 (byte1 (rows[j].hi / 256)) (byte1 rows[j].hi) = rows[j].hi := num2_bytes2 (by omega)
  simp only [h0, h1, h2, h3, h4]
  rw [num2] at hlonum hhinum
  rw [hlonum, hhinum, byte1_toNat_of_lt (by omega)]

/-- The rows a table's bytes say (R189). -/
theorem rows_of_laid {bs : List Byte} {rows : List TuningRow} (h : TuningLaid bs rows) :
    ((List.range rows.length).map fun j => tuningRowAt bs (1 + 5 * j)) = rows := by
  obtain ⟨-, -, hrows⟩ := h
  refine List.ext_getElem (by simp) fun j hj hj' => ?_
  rw [hrows j hj']
  simp only [List.getElem_map, List.getElem_range, tuningRowAt, num2]
  rw [show 1 + 5 * j + 1 = 2 + 5 * j by omega, show 1 + 5 * j + 2 = 3 + 5 * j by omega,
    show 1 + 5 * j + 3 = 4 + 5 * j by omega, show 1 + 5 * j + 4 = 5 + 5 * j by omega]

theorem tuningOfBytes_of_laid {bs : List Byte} {rows : List TuningRow} (h : TuningLaid bs rows)
    (hok : TuningOk rows) : tuningOfBytes bs = some rows := by
  have hread := rows_of_laid h
  obtain ⟨hlength, hcount, -⟩ := h
  obtain ⟨hsmall, hrows⟩ := hok
  unfold tuningOfBytes
  simp only at hcount ⊢
  rw [hcount, if_pos ⟨by omega, hsmall, hlength⟩, hread, if_pos hrows]

theorem laid_of_tuningOfBytes {bs : List Byte} {rows : List TuningRow} (h : tuningOfBytes bs = some rows) :
    TuningLaid bs rows := by
  unfold tuningOfBytes at h
  simp only at h
  split at h
  next hsize =>
    obtain ⟨-, -, hlength⟩ := hsize
    split at h
    · obtain rfl := Option.some.inj h
      refine ⟨by simpa using hlength, by simp, fun j hj => ?_⟩
      simp only [List.getElem_map, List.getElem_range, tuningRowAt, num2]
      rw [show 1 + 5 * j + 1 = 2 + 5 * j by omega, show 1 + 5 * j + 2 = 3 + 5 * j by omega,
        show 1 + 5 * j + 3 = 4 + 5 * j by omega, show 1 + 5 * j + 4 = 5 + 5 * j by omega]
    · cases h
  · cases h

theorem byte_ext {x y : Byte} (h : x.toNat = y.toNat) : x = y := BitVec.eq_of_toNat_eq h

/-- The bytes of a table are determined by its rows. -/
theorem tuningLaid_unique {bs bs' : List Byte} {rows : List TuningRow} (h : TuningLaid bs rows)
    (h' : TuningLaid bs' rows) : bs = bs' := by
  obtain ⟨hlength, hcount, hrows⟩ := h
  obtain ⟨hlength', hcount', hrows'⟩ := h'
  refine eq_of_byteAt (by omega) fun i hi => byte_ext ?_
  obtain rfl | hpos := Nat.eq_zero_or_pos i
  · exact hcount.trans hcount'.symm
  · have hj : (i - 1) / 5 < rows.length := by omega
    have hrow := (hrows _ hj).symm.trans (hrows' _ hj)
    simp only [TuningRow.mk.injEq] at hrow
    obtain ⟨h1, h23, h45⟩ := hrow
    have hk : i = 1 + 5 * ((i - 1) / 5) ∨ i = 2 + 5 * ((i - 1) / 5) ∨ i = 3 + 5 * ((i - 1) / 5)
        ∨ i = 4 + 5 * ((i - 1) / 5) ∨ i = 5 + 5 * ((i - 1) / 5) := by omega
    have b3 := (byteAt bs (3 + 5 * ((i - 1) / 5))).isLt
    have b3' := (byteAt bs' (3 + 5 * ((i - 1) / 5))).isLt
    have b5 := (byteAt bs (5 + 5 * ((i - 1) / 5))).isLt
    have b5' := (byteAt bs' (5 + 5 * ((i - 1) / 5))).isLt
    generalize (i - 1) / 5 = j at *
    obtain rfl | rfl | rfl | rfl | rfl := hk
    · exact h1
    · omega
    · omega
    · omega
    · omega

theorem bytesOfTuning_tuningOfBytes {bs : List Byte} {rows : List TuningRow} (h : tuningOfBytes bs = some rows) :
    bytesOfTuning rows = bs :=
  tuningLaid_unique (tuningLaid_bytes (tuningOfBytes_ok h)) (laid_of_tuningOfBytes h)

/-! ### Maps -/

/-- The byte of a map entry (R189). -/
def entryByte (e : MapEntry) : Byte := match e with | some i => BitVec.ofInt 8 i | none => 0x80#8

theorem entryByte_toInt {e : MapEntry} (h : ∀ i : Int, e = some i → -24 ≤ i ∧ i ≤ 24) :
    (entryByte e).toInt = e.getD (-128) := by
  cases e with
  | none => rfl
  | some i =>
    obtain ⟨hlow, hhigh⟩ := h i rfl
    exact BitVec.toInt_ofInt_eq_self (by omega) (by omega) (by omega)

theorem mapEntryOfByte_entryByte {e : MapEntry} (h : ∀ i : Int, e = some i → -24 ≤ i ∧ i ≤ 24) :
    mapEntryOfByte (entryByte e) = e := by
  unfold mapEntryOfByte
  rw [entryByte_toInt h]
  cases e with
  | none => rfl
  | some i =>
    obtain ⟨hlow, hhigh⟩ := h i rfl
    rw [Option.getD_some, if_neg (by omega), clampInt, min_eq_right hhigh, max_eq_right hlow]

theorem bytesOfMap_eq (m : List MapEntry) : bytesOfMap m = m.map entryByte := rfl

theorem mapOfBytes_bytesOfMap {m : List MapEntry} (h : MapOk m) : mapOfBytes (bytesOfMap m) = some m := by
  obtain ⟨hlength, hrange⟩ := h
  have hback : m.map (mapEntryOfByte ∘ entryByte) = m :=
    (List.map_congr_left fun e he => mapEntryOfByte_entryByte fun i hi => hrange i (hi ▸ he)).trans (List.map_id m)
  rw [bytesOfMap_eq, mapOfBytes, if_pos (by simpa using hlength), List.map_map, hback]

theorem bytesOfMap_length (m : List MapEntry) : (bytesOfMap m).length = m.length := List.length_map ..

theorem bytesOfMap_at {m : List MapEntry} (h : MapOk m) {j : Nat} (hj : j < m.length) :
    (byteAt (bytesOfMap m) j).toInt = (m[j]).getD (-128) := by
  have hat : byteAt (bytesOfMap m) j = entryByte m[j] := by
    rw [byteAt_eq_getElem (by rw [bytesOfMap_length]; exact hj)]
    exact List.getElem_map ..
  rw [hat, entryByte_toInt fun i hi => h.2 i (hi ▸ List.getElem_mem hj)]

/-! ### The configuration block -/

theorem indexByte_toNat {n : Nat} (hn : n ≤ 256) (x : Option (Fin n)) :
    (indexByte x).toNat = (x.map Fin.val).getD 0 := by
  cases x with
  | none => rfl
  | some i => exact byte1_toNat_of_lt (i.isLt.trans_le hn)

/-- An optional index behind its presence flag (R188, R189). -/
theorem indexByte_behind_flag {n : Nat} (hn : n ≤ 256) (x : Option (Fin n)) :
    x.map Fin.val = if x.isSome then some (indexByte x).toNat else none := by
  rw [indexByte_toNat hn]
  cases x <;> rfl

/-- Three flags in the low bits of a byte, the first lowest. -/
def threeFlags (p q r : Bool) : Nat := flagBit p 1 + flagBit q 2 + flagBit r 4

theorem threeFlags_bits (p q r : Bool) :
    (byte1 (threeFlags p q r)).getLsbD 0 = p ∧ (byte1 (threeFlags p q r)).getLsbD 1 = q
      ∧ (byte1 (threeFlags p q r)).getLsbD 2 = r := by
  cases p <;> cases q <;> cases r <;> decide

theorem threeFlags_toNat (p q r : Bool) : (byte1 (threeFlags p q r)).toNat =
    (if p then 1 else 0) + (if q then 2 else 0) + (if r then 4 else 0) := by
  cases p <;> cases q <;> cases r <;> rfl

theorem configLaid_bytes {c : ConfigRecord} (hwindow : c.lateWindow ≤ 4800) (hlimit : c.stuckLimit ≤ 120) :
    ConfigLaid (bytesOfConfig c) c := by
  refine ⟨rfl, threeFlags_toNat .., byte1_toNat_of_lt (c.slotA.isLt.trans (by decide)),
    indexByte_toNat (by decide) _, ?_, ?_, num2_bytes2 (by omega), byte1_toNat_of_lt (by omega),
    indexByte_toNat (by decide) _, indexByte_toNat (by decide) _⟩
  · show (match c.lossAction with | .holdover => (0 : Byte) | .engine => 1).toNat = _
    cases c.lossAction <;> rfl
  · show (match c.latePolicy with | .apply => (0 : Byte) | .drop => 1).toNat = _
    cases c.latePolicy <;> rfl

theorem eq_of_map_val {n : Nat} {x y : Option (Fin n)} (h : x.map Fin.val = y.map Fin.val) : x = y :=
  Option.map_injective Fin.val_injective h

theorem configOfBody_bytesOfConfig {c : ConfigRecord} (hwindow : c.lateWindow ≤ 4800) (hlow : 1 ≤ c.stuckLimit)
    (hhigh : c.stuckLimit ≤ 120) : configOfBody (bytesOfConfig c) = some c := by
  obtain ⟨-, -, hslotA, hslotB, hloss, hlate, hlateWindow, hstuck, hstartA, hstartB⟩ :=
    configLaid_bytes hwindow hhigh
  simp only at hslotA hslotB hloss hlate hlateWindow hstuck hstartA hstartB
  obtain ⟨hbitB, hbitSA, hbitSB⟩ := threeFlags_bits c.slotB.isSome c.startA.isSome c.startB.isSome
  have behind {n : Nat} (hn : 0 < n) {x : Option (Fin n)} : (x.map Fin.val).getD 0 < n := by
    cases x with
    | none => exact hn
    | some i => exact i.isLt
  obtain ⟨c', hread, hA, hB, hL, hP, hW, hS, hSA, hSB⟩ := configOfBody_stores (body := bytesOfConfig c)
    (by rw [hslotA]; exact c.slotA.isLt) (fun _ => by rw [hslotB]; exact behind (by decide))
    (by rw [hloss]; cases c.lossAction <;> decide) (by rw [hlate]; cases c.latePolicy <;> decide)
    (fun _ => by rw [hstartA]; exact behind (by decide)) (fun _ => by rw [hstartB]; exact behind (by decide))
  have hB' : c'.slotB = c.slotB := eq_of_map_val (hB.trans (by
    rw [show (byteAt (bytesOfConfig c) 0).getLsbD 0 = c.slotB.isSome from hbitB, indexByte_behind_flag (by decide)]
    rfl))
  have hSA' : c'.startA = c.startA := eq_of_map_val (hSA.trans (by
    rw [show (byteAt (bytesOfConfig c) 0).getLsbD 1 = c.startA.isSome from hbitSA,
      indexByte_behind_flag (by decide)]
    rfl))
  have hSB' : c'.startB = c.startB := eq_of_map_val (hSB.trans (by
    rw [show (byteAt (bytesOfConfig c) 0).getLsbD 2 = c.startB.isSome from hbitSB,
      indexByte_behind_flag (by decide)]
    rfl))
  rw [hslotA] at hA
  rw [hloss] at hL
  rw [hlate] at hP
  rw [hlateWindow, min_eq_right hwindow] at hW
  rw [hstuck, min_eq_right hhigh, max_eq_right hlow] at hS
  have hL' : c'.lossAction = c.lossAction := by rw [hL]; cases c.lossAction <;> rfl
  have hP' : c'.latePolicy = c.latePolicy := by rw [hP]; cases c.latePolicy <;> rfl
  rw [hread]
  obtain ⟨slotA, slotB, loss, late, window, limit, startA, startB⟩ := c'
  simp only at hA hB' hL' hP' hW hS hSA' hSB'
  rw [hB', hL', hP', hW, hS, hSA', hSB', Fin.ext hA]

end Sys2Proof.Proofs.TableRecords
end

