-- ==== Sys2Proof/Proofs/SceneRecords.lean ====
section
/-! PROOF. Scene records in bytes (R111, R112, R188, R189): which buffers are read, as what, and the way back. -/

namespace Sys2Proof.Proofs.SceneRecords

open Sys2Proof Sys2Proof.Machine Sys2Proof.Safety Sys2Proof.Proofs.Operands Sys2Proof.Proofs.Formats
  Sys2Proof.Proofs.RecordRanges Sys2Proof.Proofs.TableRequests Sys2Proof.Proofs.TableRecords

theorem distinctVoices_iff : ∀ es : List SceneEntry,
    distinctVoices es = true ↔ es.Pairwise fun e e' => e.voice ≠ e'.voice
  | [] => ⟨fun _ => .nil, fun _ => rfl⟩
  | e :: es => by
    simp only [distinctVoices, Bool.and_eq_true, List.all_eq_true, bne_iff_ne, List.pairwise_cons,
      distinctVoices_iff es, ne_comm (a := e.voice)]

/-! ### A buffer that is read -/

theorem flaggedIndex_of_laid {n : Nat} {p : Bool} {b : Byte} {x : Option (Fin n)}
    (h : x.map Fin.val = if p then some b.toNat else none) : flaggedIndex n p b = some x := by
  cases p with
  | false =>
    obtain rfl : x = none := Option.map_eq_none_iff.1 h
    rfl
  | true =>
    obtain ⟨i, rfl, hi⟩ := Option.map_eq_some_iff.1 h
    have hread : finOf n b.toNat = some i := finOf_eq_some.2 hi.symm
    rw [flaggedIndex, if_pos rfl, hread, Option.map_some]

/-- A voice entry clamped as it is stored (R112). -/
def entryClamped (e : SceneEntry) : SceneEntry :=
  { e with part := { e.part with level := min 128 e.part.level
                                 detune := max (-256) (min 256 e.part.detune) } }

theorem sceneEntryAt_of_laid {bs : List Byte} {i : Nat} {e : SceneEntry} (h : EntryLaid bs i e) :
    sceneEntryAt bs i = some (entryClamped e) := by
  obtain ⟨hname, hslot, hlevel, hdetune⟩ := h
  have hvoice : finOf 8 ((byteAt bs i).toNat / 16) = some e.voice := finOf_eq_some.2 (by simp only at hname; omega)
  have hcolumn : finOf 4 ((byteAt bs i).toNat % 16) = some e.part.column :=
    finOf_eq_some.2 (by simp only at hname; omega)
  have hout : finOf 24 (byteAt bs (i + 1)).toNat = some e.part.slot := finOf_eq_some.2 hslot
  simp only [sceneEntryAt, hvoice, hcolumn, hout, num2, hlevel, hdetune, entryClamped, clampInt]

theorem entryLaid_of_range {bs : List Byte} {i : Nat} (hvoice : (byteAt bs i).toNat / 16 < 8)
    (hcolumn : (byteAt bs i).toNat % 16 < 4) (hslot : (byteAt bs (i + 1)).toNat < 24) :
    ∃ e, EntryLaid bs i e :=
  ⟨{ voice := ⟨_, hvoice⟩
     part := { column := ⟨_, hcolumn⟩, slot := ⟨_, hslot⟩, level := (byteAt bs (i + 2)).toNat
               detune := (BitVec.ofNat 16 ((byteAt bs (i + 3)).toNat * 256 + (byteAt bs (i + 4)).toNat)).toInt } },
    by simp only; omega, rfl, rfl, rfl⟩

theorem distinctVoices_clamped {es : List SceneEntry} (h : distinctVoices es = true) :
    distinctVoices (es.map entryClamped) = true :=
  (distinctVoices_iff _).2 (List.pairwise_map.2 ((distinctVoices_iff _).1 h))

theorem entries_of_laid {bs : List Byte} {es : List SceneEntry}
    (h : ∀ (j : Nat) (_ : j < es.length), EntryLaid bs (16 + 5 * j) es[j]) :
    allSome ((List.range es.length).map fun j => sceneEntryAt bs (16 + 5 * j)) = some (es.map entryClamped) :=
  allSome_eq_some.2 (List.ext_getElem (by simp) fun j _ hj => by
    simp only [List.getElem_map, List.getElem_range]
    exact sceneEntryAt_of_laid (h j (by simpa using hj)))

/-- A record that lies in a buffer, of distinct voices, is read from it, clamped as it is stored. -/
theorem sceneOfBytes_of_laid {bs : List Byte} {raw : Scene} (h : SceneLaid bs raw)
    (hsmall : raw.entries.length ≤ 4) (hdistinct : distinctVoices raw.entries = true) :
    sceneOfBytes bs = some (sceneClamped raw) := by
  obtain ⟨hlength, hcount, htuning, hmap, hkey, hnext, hfade, hgate, hthreshold, htolerance, hhysteresis, hhold,
    hweight, hglide, hentries⟩ := h
  have htuning' : finOf 2 (byteAt bs 2).toNat = some raw.tuning := finOf_eq_some.2 htuning
  have hgate' : (byteAt bs 5).toNat * 65536 + num2 (byteAt bs 6) (byteAt bs 7) = raw.gate := by
    rw [hgate, num2]; simp only; omega
  have hfade' : fadeOfCode ((byteAt bs 1).toNat / 16 % 8) = raw.fade := hfade.symm
  have hglide' : num2 (byteAt bs 13) (byteAt bs 14) = raw.glide := hglide.symm
  simp only at hcount hthreshold htolerance hhysteresis hhold hweight
  unfold sceneOfBytes
  simp only [hcount, htuning', flaggedIndex_of_laid hmap, flaggedIndex_of_laid hkey, flaggedIndex_of_laid hnext,
    entries_of_laid hentries, distinctVoices_clamped hdistinct, if_pos, hgate', hfade', hglide', ← hthreshold,
    ← htolerance, ← hhysteresis, ← hhold, ← hweight]
  rw [if_pos ⟨by omega, hsmall, hlength⟩]
  rfl

/-! ### A buffer that is refused -/

/-- What is no refusal lies in the buffer as a record of distinct voices. -/
theorem laid_of_not_refused {bs : List Byte} (h : ¬SceneRefused bs) :
    ∃ raw, SceneLaid bs raw ∧ raw.entries.length ≤ 4 ∧ distinctVoices raw.entries = true := by
  simp only [SceneRefused, not_or, not_exists, not_and, not_lt, not_le, not_not, ne_eq] at h
  obtain ⟨hmin, hcount, hlength, htuning, hmap, hkey, hnext, hentries⟩ := h
  obtain ⟨map, -, hmapval⟩ := flaggedIndex_of_flag hmap
  obtain ⟨key, -, hkeyval⟩ := flaggedIndex_of_flag hkey
  obtain ⟨next, -, hnextval⟩ := flaggedIndex_of_flag hnext
  have hlaid : ∀ j : Fin (byteAt bs 0).toNat, ∃ e, EntryLaid bs (16 + 5 * j.val) e := fun j =>
    have hrange := hentries j.val j.isLt
    entryLaid_of_range hrange.1 hrange.2.1 (by
      rw [show 16 + 5 * j.val + 1 = 17 + 5 * j.val by omega]; exact hrange.2.2.1)
  choose entry hentry using hlaid
  refine ⟨
    { tuning := ⟨_, htuning⟩, map := map, key := key, next := next
      gate := ((byteAt bs 5).toNat * 256 + (byteAt bs 6).toNat) * 256 + (byteAt bs 7).toNat
      threshold := (byteAt bs 8).toNat, tolerance := (byteAt bs 9).toNat, hysteresis := (byteAt bs 10).toNat
      hold := (byteAt bs 11).toNat, weight := (byteAt bs 12).toNat
      glide := (byteAt bs 13).toNat * 256 + (byteAt bs 14).toNat
      fade := fadeOfCode ((byteAt bs 1).toNat / 16 % 8), entries := List.ofFn entry }, ?_, ?_, ?_⟩
  · refine ⟨?_, ?_, rfl, hmapval, hkeyval, hnextval, rfl, rfl, rfl, rfl, rfl, rfl, rfl, rfl, fun j hj => ?_⟩
    · simpa using hlength
    · simp
    · simp only [List.getElem_ofFn]
      exact hentry ⟨j, by simpa using hj⟩
  · simpa using hcount
  · refine (distinctVoices_iff _).2 (List.pairwise_iff_getElem.2 fun k j hk hj hkj heq => ?_)
    simp only [List.length_ofFn] at hk hj
    simp only [List.getElem_ofFn] at heq
    have hlaidk := (hentry ⟨k, hk⟩).1
    have hlaidj := (hentry ⟨j, hj⟩).1
    refine (hentries j hj).2.2.2 k hkj ?_
    simp only at hlaidk hlaidj
    have := congrArg Fin.val heq
    omega

/-- The identifying fields of an entry that is read (R112). -/
theorem sceneEntryAt_names {bs : List Byte} {i : Nat} {e : SceneEntry} (h : sceneEntryAt bs i = some e) :
    (byteAt bs i).toNat / 16 = e.voice.val ∧ (byteAt bs i).toNat % 16 = e.part.column.val
      ∧ (byteAt bs (i + 1)).toNat = e.part.slot.val := by
  unfold sceneEntryAt at h
  split at h
  next hvoice hcolumn hslot =>
    obtain rfl := Option.some.inj h
    exact ⟨finOf_eq_some.1 hvoice, finOf_eq_some.1 hcolumn, finOf_eq_some.1 hslot⟩
  · cases h

theorem not_refused_of_sceneOfBytes {bs : List Byte} {c : Scene} (h : sceneOfBytes bs = some c) :
    ¬SceneRefused bs := by
  unfold sceneOfBytes at h
  simp only at h
  split at h
  case isFalse => cases h
  next hsize =>
    obtain ⟨hmin, hsmall, hlength⟩ := hsize
    split at h
    case h_2 => cases h
    next entries htuning hmap hkey hnext hentries =>
      split at h
      case isFalse => cases h
      next hdistinct =>
        have hlist := allSome_eq_some.1 hentries
        have hcount : entries.length = (byteAt bs 0).toNat := by simpa using (congrArg List.length hlist).symm
        have hentry (j : Nat) (hj : j < entries.length) : sceneEntryAt bs (16 + 5 * j) = some entries[j] := by
          have hat := congrArg (·[j]?) hlist
          simpa [hj, ← hcount] using hat
        have habsent {n : Nat} {p : Bool} {b : Byte} {x : Option (Fin n)} (hread : flaggedIndex n p b = some x)
            (hp : p = true) (hb : n ≤ b.toNat) : False :=
          nomatch (flaggedIndex_eq_none.2 ⟨hp, hb⟩).symm.trans hread
        rintro (hb | hb | hb | hb | ⟨hp, hb⟩ | ⟨hp, hb⟩ | ⟨hp, hb⟩ | ⟨j, hj, hbad⟩)
        · omega
        · exact absurd hsmall (by simp only at hb; omega)
        · exact hb hlength
        · exact nomatch (finOf_eq_none.2 hb).symm.trans htuning
        · exact habsent hmap hp hb
        · exact habsent hkey hp hb
        · exact habsent hnext hp hb
        · have hj' : j < entries.length := by rw [hcount]; exact hj
          obtain ⟨hvoice, hcolumn, hslot⟩ := sceneEntryAt_names (hentry j hj')
          rw [show 16 + 5 * j + 1 = 17 + 5 * j by omega] at hslot
          obtain hv | hc | hs | ⟨k, hk, hsame⟩ := hbad
          · simp only at hv; omega
          · simp only at hc; omega
          · simp only at hs; omega
          · obtain ⟨hother, -, -⟩ := sceneEntryAt_names (hentry k (by omega))
            refine List.pairwise_iff_getElem.1 ((distinctVoices_iff _).1 hdistinct) k j (by omega) hj' hk
              (Fin.ext ?_)
            simp only at hsame
            omega

theorem sceneOfBytes_eq_none (bs : List Byte) : sceneOfBytes bs = none ↔ SceneRefused bs := by
  constructor
  · intro hnone
    by_contra hfit
    obtain ⟨raw, hlaid, hsmall, hdistinct⟩ := laid_of_not_refused hfit
    exact nomatch hnone.symm.trans (sceneOfBytes_of_laid hlaid hsmall hdistinct)
  · intro hrefused
    cases hread : sceneOfBytes bs with
    | none => rfl
    | some c => exact absurd hrefused (not_refused_of_sceneOfBytes hread)

theorem laid_of_sceneOfBytes {bs : List Byte} {c : Scene} (h : sceneOfBytes bs = some c) :
    ∃ raw, SceneLaid bs raw ∧ c = sceneClamped raw := by
  obtain ⟨raw, hlaid, hsmall, hdistinct⟩ := laid_of_not_refused (not_refused_of_sceneOfBytes h)
  exact ⟨raw, hlaid, Option.some.inj (h.symm.trans (sceneOfBytes_of_laid hlaid hsmall hdistinct))⟩

/-! ### The bytes of a record -/

/-- An entry as its five bytes (R189). -/
def entryBytes (e : SceneEntry) : List Byte :=
  [byte1 (e.voice.val * 16 + e.part.column.val), byte1 e.part.slot.val, byte1 e.part.level]
    ++ bytes2 (BitVec.ofInt 16 e.part.detune).toNat

/-- The sixteen bytes before the entries (R189). -/
def sceneHead (c : Scene) : List Byte :=
  [byte1 c.entries.length,
    byte1 (codeOfFade c.fade * 16 + flagBit c.map.isSome 4 + flagBit c.key.isSome 2 + flagBit c.next.isSome 1),
    byte1 c.tuning.val, indexByte c.map, indexByte c.key,
    byte1 (c.gate / 65536), byte1 (c.gate / 256), byte1 c.gate,
    byte1 c.threshold, byte1 c.tolerance, byte1 c.hysteresis, byte1 c.hold, byte1 c.weight]
    ++ bytes2 c.glide ++ [indexByte c.next]

theorem bytesOfScene_eq (c : Scene) : bytesOfScene c = sceneHead c ++ c.entries.flatMap entryBytes := rfl

theorem bytesOfScene_head (c : Scene) {i : Nat} (hi : i < 16) : byteAt (bytesOfScene c) i = byteAt (sceneHead c) i :=
  byteAt_append_left hi _

theorem bytesOfScene_entry (c : Scene) {j : Nat} (hj : j < c.entries.length) {k : Nat} (hk : k < 5) :
    byteAt (bytesOfScene c) (16 + 5 * j + k) = byteAt (entryBytes c.entries[j]) k := by
  rw [Nat.add_assoc]
  exact (byteAt_append_right (sceneHead c) _ _).trans (byteAt_flatMap (n := 5) (fun _ => rfl) _ j hj k hk)

/-- The flags of a scene record and its fade length code (log entry 21). -/
theorem sceneFlags {f : Nat} (hf : f ∈ [256, 512, 1024, 2048, 4096]) (map key next : Bool) :
    let b := byte1 (codeOfFade f * 16 + flagBit map 4 + flagBit key 2 + flagBit next 1)
    b.getLsbD 2 = map ∧ b.getLsbD 1 = key ∧ b.getLsbD 0 = next ∧ b.getLsbD 3 = false ∧ b.toNat < 80
      ∧ fadeOfCode (b.toNat / 16 % 8) = f := by
  simp only [List.mem_cons, List.not_mem_nil, or_false] at hf
  obtain rfl | rfl | rfl | rfl | rfl := hf <;> cases map <;> cases key <;> cases next <;> decide

theorem entryLaid_bytes {c : Scene} {j : Nat} (hj : j < c.entries.length) (hlevel : c.entries[j].part.level ≤ 128)
    (hlow : -256 ≤ c.entries[j].part.detune) (hhigh : c.entries[j].part.detune ≤ 256) :
    EntryLaid (bytesOfScene c) (16 + 5 * j) c.entries[j] := by
  have h0 := bytesOfScene_entry c hj (k := 0) (by decide)
  have hvoice := c.entries[j].voice.isLt
  have hcolumn := c.entries[j].part.column.isLt
  have hslot := c.entries[j].part.slot.isLt
  refine ⟨?_, ?_, ?_, ?_⟩
  · exact (congrArg BitVec.toNat h0).trans (byte1_toNat_of_lt (by omega))
  · exact (congrArg BitVec.toNat (bytesOfScene_entry c hj (k := 1) (by decide))).trans (byte1_toNat_of_lt (by omega))
  · exact (congrArg BitVec.toNat (bytesOfScene_entry c hj (k := 2) (by decide))).trans (byte1_toNat_of_lt (by omega))
  · simp only [bytesOfScene_entry c hj (k := 3) (by decide), bytesOfScene_entry c hj (k := 4) (by decide)]
    have hback : (byteAt (entryBytes c.entries[j]) 3).toNat * 256 + (byteAt (entryBytes c.entries[j]) 4).toNat
        = (BitVec.ofInt 16 c.entries[j].part.detune).toNat := num2_bytes2 (BitVec.isLt _)
    rw [hback, BitVec.ofNat_toNat, BitVec.setWidth_eq]
    exact BitVec.toInt_ofInt_eq_self (by decide) (by omega) (by omega)

/-- A scene within its ranges lies in its own bytes, with no unnamed bit set (R189). -/
theorem sceneReturned_bytes {c : Scene} (h : SceneOk c) : SceneReturned (bytesOfScene c) c := by
  obtain ⟨hgate, hgate', hthreshold, htolerance, hhysteresis, hhold, hweight, hglide, hfade, hsmall, hdistinct,
    hentries⟩ := h
  obtain ⟨hmapbit, hkeybit, hnextbit, hunnamed, hbound, hcode⟩ :=
    sceneFlags hfade c.map.isSome c.key.isSome c.next.isSome
  have head {i : Nat} (hi : i < 16) {n : Nat} (hn : (byteAt (sceneHead c) i).toNat = n) :
      (byteAt (bytesOfScene c) i).toNat = n := by rw [bytesOfScene_head c hi, hn]
  have h1 := bytesOfScene_head c (i := 1) (by decide)
  refine ⟨⟨?_, ?_, ?_, ?_, ?_, ?_, ?_, ?_, ?_, ?_, ?_, ?_, ?_, ?_, ?_⟩, ?_, ?_, ?_, ?_, ?_⟩
  · rw [bytesOfScene_eq, List.length_append, length_flatMap_const (n := 5) (fun _ => rfl)]
    rfl
  · exact head (by decide) (byte1_toNat_of_lt (by omega))
  · exact head (by decide) (byte1_toNat_of_lt (c.tuning.isLt.trans (by decide)))
  · simp only [h1]
    rw [show (byteAt (sceneHead c) 1).getLsbD 2 = c.map.isSome from hmapbit, bytesOfScene_head c (by decide)]
    exact indexByte_behind_flag (by decide) _
  · simp only [h1]
    rw [show (byteAt (sceneHead c) 1).getLsbD 1 = c.key.isSome from hkeybit, bytesOfScene_head c (by decide)]
    exact indexByte_behind_flag (by decide) _
  · simp only [h1]
    rw [show (byteAt (sceneHead c) 1).getLsbD 0 = c.next.isSome from hnextbit, bytesOfScene_head c (by decide)]
    exact indexByte_behind_flag (by decide) _
  · simp only [h1]
    exact hcode.symm
  · have h5 : (byteAt (bytesOfScene c) 5).toNat = c.gate / 65536 % 256 := head (by decide) (byte1_toNat _)
    have h6 : (byteAt (bytesOfScene c) 6).toNat = c.gate / 256 % 256 := head (by decide) (byte1_toNat _)
    have h7 : (byteAt (bytesOfScene c) 7).toNat = c.gate % 256 := head (by decide) (byte1_toNat _)
    simp only [h5, h6, h7]
    omega
  · exact (head (i := 8) (by decide) (byte1_toNat_of_lt (n := c.threshold) (by omega))).symm
  · exact (head (i := 9) (by decide) (byte1_toNat_of_lt (n := c.tolerance) (by omega))).symm
  · exact (head (i := 10) (by decide) (byte1_toNat_of_lt (n := c.hysteresis) (by omega))).symm
  · exact (head (i := 11) (by decide) (byte1_toNat_of_lt (n := c.hold) (by omega))).symm
  · exact (head (i := 12) (by decide) (byte1_toNat_of_lt (n := c.weight) (by omega))).symm
  · simp only [bytesOfScene_head c (i := 13) (by decide), bytesOfScene_head c (i := 14) (by decide)]
    exact (num2_bytes2 (by omega)).symm
  · intro j hj
    obtain ⟨hlevel, hlow, hhigh⟩ := hentries _ (List.getElem_mem hj)
    exact entryLaid_bytes hj hlevel hlow hhigh
  · rw [h1]; exact hbound
  · rw [h1]; exact hunnamed
  · intro hnone
    rw [bytesOfScene_head c (by decide)]
    exact congrArg indexByte hnone
  · intro hnone
    rw [bytesOfScene_head c (by decide)]
    exact congrArg indexByte hnone
  · intro hnone
    rw [bytesOfScene_head c (by decide)]
    exact congrArg indexByte hnone

/-- A scene within its ranges needs no clamp. -/
theorem sceneClamped_of_ok {c : Scene} (h : SceneOk c) : sceneClamped c = c := by
  obtain ⟨hgate, hgate', -, -, -, -, hweight, hglide, -, -, -, hentries⟩ := h
  have hkept : c.entries.map entryClamped = c.entries :=
    (List.map_congr_left fun e he => by
      obtain ⟨hlevel, hlow, hhigh⟩ := hentries e he
      rw [entryClamped, min_eq_right hlevel, min_eq_right hhigh, max_eq_right hlow]
      rfl).trans (List.map_id _)
  show ({ c with
    gate := max 1 (min 8388607 c.gate), weight := min 16 c.weight, glide := min 4096 c.glide
    entries := c.entries.map entryClamped } : Scene) = c
  rw [min_eq_right hgate', max_eq_right hgate, min_eq_right hweight, min_eq_right hglide, hkept]

theorem sceneOfBytes_bytesOfScene {c : Scene} (h : SceneOk c) : sceneOfBytes (bytesOfScene c) = some c := by
  obtain ⟨hlaid, -⟩ := sceneReturned_bytes h
  have hclamped := sceneClamped_of_ok h
  obtain ⟨-, -, -, -, -, -, -, -, -, hsmall, hdistinct, -⟩ := h
  rw [sceneOfBytes_of_laid hlaid hsmall hdistinct, hclamped]

/-- Settles O40: a record is read exactly where its layout stands in the buffer, and its own bytes are such a
buffer. -/
theorem recordsReadBack : Obligations.RecordsReadBack := by
  refine ⟨fun rows h => tuningOfBytes_of_laid (tuningLaid_bytes h) h, fun m => mapOfBytes_bytesOfMap,
    fun c => sceneOfBytes_bytesOfScene,
    fun c hwindow hlow hhigh => ⟨rfl, configOfBody_bytesOfConfig hwindow hlow hhigh⟩,
    fun bs rows h => ⟨tuningOfBytes_ok h, bytesOfTuning_tuningOfBytes h⟩, fun bs m => mapOfBytes_ok,
    fun bs c => sceneOfBytes_ok, ⟨fun bs rows => ⟨fun h => ?_, fun h => ?_⟩, tuningOk_iff_installed,
      fun rows => tuningLaid_bytes⟩,
    mapOfBytes_eq, fun m h => ⟨(bytesOfMap_length m).trans h.1, fun j hj => bytesOfMap_at h hj⟩,
    fun bs => ⟨sceneOfBytes_eq_none bs, fun c => laid_of_sceneOfBytes⟩, fun c => sceneReturned_bytes,
    distinctVoices_iff, fun c hwindow hlimit => configLaid_bytes hwindow hlimit⟩
  · exact ⟨laid_of_tuningOfBytes h, (tuningOk_iff_installed rows).1 (tuningOfBytes_ok h)⟩
  · exact tuningOfBytes_of_laid h.1 ((tuningOk_iff_installed rows).2 h.2)

end Sys2Proof.Proofs.SceneRecords
end

