-- ==== Sys2Proof/Proofs/Underlay.lean ====
section
/-! PROOF. An occurrence over another rest of the state (R151 to R156): it reads node address, count, scenes, voices
and the Fault Unit alone, so that a change of anything else may come before or behind it. -/

namespace Sys2Proof.Proofs.Underlay

open Sys2Proof Sys2Proof.Machine

/-- The Fault Unit, voices, counters and outbound queue of `s` over the rest of `u`. -/
def onto (s u : State) : State :=
  { u with
    voices := s.voices
    faults := s.faults
    pointer := s.pointer
    counters := s.counters
    outq := s.outq }

/-- What an occurrence reads of the rest of the state (R96, R152, R190). -/
def SameReads (s u : State) : Prop :=
  u.nodeAddr = s.nodeAddr ∧ u.ltu.count = s.ltu.count ∧ ∀ L, u.params L = s.params L

theorem SameReads.of_onlyFaults {s t u : State} (h : SameReads s u) (e : OnlyFaults s t) : SameReads t u := by
  obtain ⟨haddr, hcount, hparams⟩ := h
  exact ⟨haddr.trans e.nodeAddr.symm, hcount.trans (congrArg _ e.ltu.symm),
    fun L => (hparams L).trans (e.params L).symm⟩

theorem onto_of_onlyFaults {s t : State} (e : OnlyFaults s t) : onto t s = t := e.eq.symm

theorem rampIncrement_onto {s u : State} (h : SameReads s u) (o : Option Lead) :
    rampIncrement (onto s u) o = rampIncrement s o := by
  cases o with
  | none => rfl
  | some L =>
    have hp : (onto s u).params L = s.params L := h.2.2 L
    show Config.fullEnvelope / ((onto s u).params L).fade = _
    rw [hp]
    rfl

theorem muteVoice_onto {s u : State} (h : SameReads s u) (k : FaultKind) (v : VoiceId) :
    muteVoice k (onto s u) v = onto (muteVoice k s v) u := by
  unfold muteVoice
  rw [rampIncrement_onto h]
  rfl

theorem muteVoices_onto (k : FaultKind) : ∀ (vs : List VoiceId) {s u : State}, SameReads s u →
    vs.foldl (muteVoice k) (onto s u) = onto (vs.foldl (muteVoice k) s) u
  | [], _, _, _ => rfl
  | v :: vs, _, _, h => by
    rw [List.foldl_cons, muteVoice_onto h, muteVoices_onto k vs (h.of_onlyFaults (muteVoice_onlyFaults ..)),
      List.foldl_cons]

theorem inScope_onto (sc : Scope) (s u : State) : inScope sc (onto s u) = inScope sc s := by cases sc <;> rfl

theorem setKind_onto {s u : State} (h : SameReads s u) (k : FaultKind) (sc : Scope) :
    setKind k sc (onto s u) = onto (setKind k sc s) u := by
  unfold setKind
  rw [show (onto s u).fault k = s.fault k from rfl]
  cases (s.fault k).severity with
  | notice => rfl
  | mute =>
    let marked := { s.setFault k { s.fault k with status := true } with
      pointer := match s.pointer with | some p => some p | none => some k }
    have hscope := inScope_onto sc marked u
    have hmute := muteVoices_onto k (inScope sc marked) (s := marked) (u := u) h
    rw [← hscope] at hmute
    exact hmute.trans (congrArg (fun vs => onto (List.foldl (muteVoice k) marked vs) u) hscope)

theorem faultNotice_onto {s u : State} (h : SameReads s u) (k : FaultKind) (sc : Scope) :
    faultNotice k sc (onto s u) = faultNotice k sc s := by
  obtain ⟨haddr, hcount, -⟩ := h
  unfold faultNotice noticeMessage
  rw [show (onto s u).nodeAddr = s.nodeAddr from haddr, show (onto s u).ltu.count = s.ltu.count from hcount]

/-- An offer that reads no more of the state than an occurrence does. -/
def OverAnyRest (offer : Message → State → State) : Prop :=
  ∀ (m : Message) {s u : State}, SameReads s u → offer m (onto s u) = onto (offer m s) u

theorem occur_onto {offer : Message → State → State} (ho : OverAnyRest offer) {s u : State} (h : SameReads s u)
    (k : FaultKind) (sc : Scope) : occur k sc offer (onto s u) = onto (occur k sc offer s) u := by
  have hset := setKind_onto (s := countEvent .faultOccurrence s) (u := u) h k sc
  have hset : setKind k sc (countEvent .faultOccurrence (onto s u))
      = onto (setKind k sc (countEvent .faultOccurrence s)) u := hset
  have hreads : SameReads (setKind k sc (countEvent .faultOccurrence s)) u :=
    h.of_onlyFaults ((countEvent_onlyFaults ..).trans (setKind_onlyFaults ..))
  unfold occur
  rw [show (onto s u).fault k = s.fault k from rfl]
  simp only
  rw [hset, faultNotice_onto hreads, ho _ hreads]
  split
  · rfl
  · split
    · rfl
    · split <;> rfl

theorem offerSilently_overAnyRest : OverAnyRest offerSilently := by
  intro m s u h
  unfold offerSilently
  rw [show (onto s u).outq = s.outq from rfl]
  split <;> rfl

theorem offerNotice_overAnyRest : OverAnyRest offerNotice := by
  intro m s u h
  unfold offerNotice
  rw [show (onto s u).outq = s.outq from rfl, occur_onto offerSilently_overAnyRest h]
  split <;> rfl

/-- An occurrence does over any rest what it does over its own. -/
theorem raise_onto {s u : State} (h : SameReads s u) (k : FaultKind) (sc : Scope) :
    raise k sc (onto s u) = onto (raise k sc s) u :=
  occur_onto offerNotice_overAnyRest h k sc

theorem onto_setPedal (s : State) (l : LineId) (p : PedalLine) : onto s (s.setPedal l p) = s.setPedal l p := rfl

theorem raise_setPedal (k : FaultKind) (sc : Scope) (s : State) (l : LineId) (p : PedalLine) :
    raise k sc (s.setPedal l p) = (raise k sc s).setPedal l p := by
  have h : SameReads s (s.setPedal l p) := ⟨rfl, rfl, fun _ => rfl⟩
  rw [← onto_setPedal, raise_onto h]
  have e := raise_onlyFaults k sc s
  calc onto (raise k sc s) (s.setPedal l p) = (onto (raise k sc s) s).setPedal l p := rfl
    _ = (raise k sc s).setPedal l p := by rw [onto_of_onlyFaults e]

end Sys2Proof.Proofs.Underlay
end

