-- ==== Sys2Proof/Proofs/PedalsAndTimed.lean ====
section
/-! PROOF. Pedal lines, their edges and stuck judgements, and the hand-off of timed cues (R130 to R132, R134 to
R136, R140, R141; O25, O26). -/

namespace Sys2Proof.Proofs.PedalsAndTimed

open Sys2Proof Sys2Proof.Machine Sys2Proof.Safety Sys2Proof.Proofs.Underlay
  Sys2Proof.Proofs.CueFlush

/-! ### Timed cues -/

theorem handOff_absent {L : Lead} {s : State} (h : ∀ x ∈ s.timed, x.lead ≠ L) : handOff L s = s := by
  have hnone : s.timed.find? (fun e => e.lead == L) = none :=
    List.find?_eq_none.2 fun x hx => by simpa using h x hx
  unfold handOff
  rw [hnone]

/-- The earliest entry of a lead stands behind entries of the other alone. -/
theorem find_earliest {pre post : List TimedEntry} {e : TimedEntry} (h : ∀ x ∈ pre, x.lead ≠ e.lead) :
    (pre ++ e :: post).find? (fun x => x.lead == e.lead) = some e := by
  rw [List.find?_append, List.find?_eq_none.2 fun x hx => by simpa using h x hx]
  simp

theorem erase_earliest {pre post : List TimedEntry} {e : TimedEntry} (h : ∀ x ∈ pre, x.lead ≠ e.lead) :
    (pre ++ e :: post).eraseP (fun x => x.lead == e.lead) = pre ++ post := by
  rw [List.eraseP_append_right _ fun x hx => by simpa using h x hx]
  simp

/-- The hand-off of a due entry that is its lead's earliest, to an enabled and empty gateway (R141). -/
theorem handOff_earliest {s : State} {pre post : List TimedEntry} {e : TimedEntry}
    (ht : s.timed = pre ++ e :: post) (h : ∀ x ∈ pre, x.lead ≠ e.lead) (hmark : e.mark = true)
    (hon : (s.gateway (timedGateway e.lead)).enabled = true)
    (hempty : (s.gateway (timedGateway e.lead)).pending = none) :
    handOff e.lead s = { s with timed := pre ++ post }.setGateway (timedGateway e.lead)
      { s.gateway (timedGateway e.lead) with pending := some { cue := e.cue, origin := .queue } } := by
  unfold handOff
  rw [ht, find_earliest h, erase_earliest h]
  simp only
  rw [if_pos ⟨hmark, hon, hempty⟩]
  exact setPending_empty _ _ _ { s with timed := pre ++ post } hon hempty

/-- A gateway that is disabled or holds a cue takes no entry (R141). -/
theorem handOff_busy {L : Lead} {s : State} (h : ¬((s.gateway (timedGateway L)).enabled = true
    ∧ (s.gateway (timedGateway L)).pending = none)) : handOff L s = s := by
  unfold handOff
  split
  · rfl
  · exact if_neg fun hfree => h hfree.2

/-- An earliest entry that is not due stays (R141). -/
theorem handOff_not_due {s : State} {pre post : List TimedEntry} {e : TimedEntry} (ht : s.timed = pre ++ e :: post)
    (h : ∀ x ∈ pre, x.lead ≠ e.lead) (hmark : e.mark = false) : handOff e.lead s = s := by
  unfold handOff
  rw [ht, find_earliest h]
  exact if_neg fun hfree => Bool.false_ne_true (hmark.symm.trans hfree.1)

/-- Settles O26. -/
theorem timedCueHandedOver : Obligations.TimedCueHandedOver := by
  refine ⟨⟨rfl, rfl⟩, fun L s hlow => ⟨whenReleased_of_released hlow _, handOff_absent⟩, fun s pre post e hlow ht => ?_⟩
  intro g free handed
  refine ⟨fun k hk hmark hdue => ?_, fun hearliest => ⟨fun hmark hfree => ?_, fun h => ?_⟩⟩
  · have hat : s.timed[k.val]? = some e := by rw [ht, hk]; simp
    have hset : s.timed.set k.val { e with mark := true } = pre ++ { e with mark := true } :: post := by
      rw [ht, hk]; simp
    have hrow : exec (.timedCueDue k) s
        = .next (handOff e.lead { s with timed := pre ++ { e with mark := true } :: post }) := by
      refine (whenReleased_of_released hlow (markDue k.val s)).trans (congrArg _ ?_)
      unfold markDue
      rw [hat]
      simp only
      rw [if_pos ⟨hmark, hdue⟩, hset]
    refine ⟨fun hbusy => hrow.trans (congrArg _ (handOff_busy hbusy)), fun hfree hearliest => ?_⟩
    obtain ⟨hon, hempty⟩ := hfree
    exact hrow.trans (congrArg _ (handOff_earliest (e := { e with mark := true }) rfl hearliest rfl hon hempty))
  · obtain ⟨hon, hempty⟩ := hfree
    exact (whenReleased_of_released hlow _).trans (congrArg _ (handOff_earliest ht hearliest hmark hon hempty))
  · refine (whenReleased_of_released hlow (handOff e.lead s)).trans (congrArg _ ?_)
    obtain hmark | hbusy := h
    · exact handOff_not_due ht hearliest hmark
    · exact handOff_busy hbusy

/-! ### Edges at a gateway -/

theorem setPending_full {g : Fin 8} {s : State} (hon : (s.gateway g).enabled = true)
    (hfull : (s.gateway g).pending ≠ none) (c : Cue) (o : Origin) :
    setPending g c o s = (countEvent .cueDropped s).setGateway g
      { s.gateway g with pending := some { cue := c, origin := o } } := by
  obtain ⟨p, hp⟩ := Option.ne_none_iff_exists'.1 hfull
  exact setPending_replaces g c p.cue o p.origin s hon hp

theorem setPendingOption_idle {g : Fin 8} {s : State} {c : Option Cue}
    (h : c = none ∨ (s.gateway g).enabled = false) (o : Origin) : setPending? g c o s = s := by
  obtain rfl | hoff := h
  · rfl
  · cases c with
    | none => rfl
    | some c => exact setPending_disabled g c o s hoff

/-- In SPAN a release of a gateway with no press cue pending sets the release cue (R136). -/
theorem releaseEdge_sets {g : Fin 8} {s : State} (htype : (s.gateway g).type = .span)
    (h : ∀ p, (s.gateway g).pending = some p → p.origin ≠ .press) :
    releaseEdge g s = setPending? g (s.gateway g).release .release s := by
  unfold releaseEdge
  simp only [htype]
  split
  next hp => exact absurd rfl (h _ hp)
  all_goals rfl

/-- In SPAN a release of a gateway with a press cue pending withdraws it (R136). -/
theorem releaseEdge_withdraws {g : Fin 8} {s : State} {c : Cue} (htype : (s.gateway g).type = .span)
    (hp : (s.gateway g).pending = some { cue := c, origin := .press }) :
    releaseEdge g s = if (s.gateway g).release = none then countEvent .cueDropped (clearPending g s)
      else countEvent .cueDropped (countEvent .cueDropped (clearPending g s)) := by
  unfold releaseEdge
  simp only [htype, hp]
  cases (s.gateway g).release <;> rfl

theorem exec_pedalEdge {l : LineId} {s : State} (hlow : s.resetLow = false) (hnear : 384 ≤ (s.pedal l).debounce + 1)
    {level : PedalLevel} (hlevel : (s.pedal l).level = some level) :
    exec (.pedalEdge l) s = .next (pedalEdge l level.flip s) := by
  refine (whenReleased_of_released hlow (reachDebounce l s)).trans (congrArg _ ?_)
  unfold reachDebounce
  rw [hlevel]
  exact if_pos hnear

/-! ### Stuck judgements -/

theorem stuckDue_iff (p : PedalLine) (limit : Nat) :
    stuckDue p limit = true ↔ p.level = some .pressed ∧ p.stuckMark = false ∧ limit * 48000 ≤ p.stuck := by
  simp only [stuckDue, Bool.and_eq_true, beq_iff_eq, Bool.not_eq_true', decide_eq_true_eq, and_assoc]

theorem exec_stuckJudgement {l : LineId} {s : State} (hlow : s.resetLow = false)
    (hdue : stuckDue (s.pedal l).timed s.config.stuckLimit = true) :
    exec (.pedalStuckJudgement l) s = .next (judgeStuck l (s.setPedal l (s.pedal l).timed)) := by
  refine (whenReleased_of_released hlow (reachStuck l s)).trans (congrArg _ ?_)
  exact if_pos hdue

/-- What a stuck judgement does behind the mark (R131). -/
def stuckAt (g : Fin 8) (x : Gateway) (s : State) : State :=
  if x.enabled then
    if x.stuckClose then
      let closed := (raise .pedalStuck (.lead x.lead) s).setGateway g { x with enabled := false, pending := none }
      if x.pending = none then closed else countEvent .cueDropped closed
    else raise .pedalStuck (.lead x.lead) s
  else s

theorem judgeStuck_eq (l : LineId) (s : State) : judgeStuck l s =
    stuckAt (lineGateway l) (s.gateway (lineGateway l)) (s.setPedal l { s.pedal l with stuckMark := true }) := by
  unfold judgeStuck stuckAt
  simp only
  cases (s.gateway (lineGateway l)).pending <;> rfl

theorem stuckAt_setPedal (g : Fin 8) (x : Gateway) (s : State) (l : LineId) (p : PedalLine) :
    stuckAt g x (s.setPedal l p) = (stuckAt g x s).setPedal l p := by
  unfold stuckAt
  rw [raise_setPedal]
  split
  · split
    · simp only
      split <;> rfl
    · rfl
  · rfl

/-- What a stuck judgement leaves (R131). -/
theorem stuckAt_frame (g : Fin 8) {x : Gateway} {s : State} (hon : x.enabled = true) :
    let t := stuckAt g x s
    t = { s with gateways := t.gateways, voices := t.voices, faults := t.faults
                 pointer := t.pointer, counters := t.counters, outq := t.outq }
    ∧ ((s.fault .pedalStuck).detectMask = false → (t.fault .pedalStuck).status = true)
    ∧ (x.stuckClose = false → t.gateways = s.gateways)
    ∧ (x.stuckClose = true → t.gateways = s.gateways.set g { x with enabled := false, pending := none }) := by
  let u := raise .pedalStuck (.lead x.lead) s
  have e : OnlyFaults s u := raise_onlyFaults ..
  have hsets : (s.fault .pedalStuck).detectMask = false → (u.fault .pedalStuck).status = true := raise_sets _ _ _
  have hgateways : u.gateways = s.gateways := e.gateways
  have hframe (gs : Vector Gateway 8) (cs : Vector Counter 4) : { u with gateways := gs, counters := cs } =
      { s with gateways := gs, voices := u.voices, faults := u.faults
               pointer := u.pointer, counters := cs, outq := u.outq } :=
    congrArg (fun w : State => { w with gateways := gs, counters := cs }) e.eq
  by_cases hclose : x.stuckClose = true
  · let closed := u.setGateway g { x with enabled := false, pending := none }
    have hclosed : stuckAt g x s = if x.pending = none then closed else countEvent .cueDropped closed := by
      unfold stuckAt
      rw [if_pos hon, if_pos hclose]
    rw [hclosed]
    have hset : closed.gateways = s.gateways.set g { x with enabled := false, pending := none } :=
      congrArg (fun gs : Vector Gateway 8 => gs.set g { x with enabled := false, pending := none }) hgateways
    split
    · exact ⟨hframe _ _, hsets, fun h => absurd hclose (by simp [h]), fun _ => hset⟩
    · exact ⟨hframe _ _, hsets, fun h => absurd hclose (by simp [h]), fun _ => hset⟩
  · have hopen : stuckAt g x s = u := by
      unfold stuckAt
      rw [if_pos hon, if_neg hclose]
    rw [hopen]
    exact ⟨hframe u.gateways u.counters, hsets, fun _ => hgateways, fun h => absurd h hclose⟩

/-! ### A line in a processed frame -/

/-- A line's record behind the frame's sample, before the stuck timer moves (R130; log entry 20). -/
def debounced (high : Bool) (p : PedalLine) : PedalLine :=
  match p.level with
  | none => { p with level := some (pinLevel high), debounce := 0 }
  | some level =>
    if pinLevel high = level then { p with debounce := 0 }
    else if 384 ≤ p.debounce + 1 then
      match pinLevel high with
      | .pressed => { p with level := some .pressed, debounce := 0 }
      | .released => { p with level := some .released, debounce := 0, stuckMark := false }
    else { p with debounce := p.debounce + 1 }

theorem rawLevel_eq (s : State) (l : LineId) : rawLevel s.pedalPins l = pinLevel s.pedalPins[l] := rfl

theorem pedalEdges_iff (high : Bool) (p : PedalLine) (level : PedalLevel) (h : p.level = some level) :
    PedalEdges high p ↔ pinLevel high ≠ level ∧ 384 ≤ p.debounce + 1 := by
  constructor
  · rintro ⟨l, hl, hne, hlong⟩
    obtain rfl := Option.some.inj (h.symm.trans hl)
    exact ⟨hne.symm, hlong⟩
  · rintro ⟨hne, hlong⟩
    exact ⟨level, h, hne.symm, hlong⟩

theorem flip_of_ne {a b : PedalLevel} (h : a ≠ b) : b.flip = a := by
  cases a <;> cases b <;> first | rfl | exact absurd rfl h

/-- An edge changes the line's record and its gateway alone. -/
theorem pedalEdge_pedal (l : LineId) (level : PedalLevel) (s : State) : (pedalEdge l level s).pedal l =
    match level with
    | .pressed => { s.pedal l with level := some .pressed, debounce := 0 }
    | .released => { s.pedal l with level := some .released, debounce := 0, stuckMark := false } := by
  have hpending (g : Fin 8) (c : Option Cue) (o : Origin) (u : State) :
      (setPending? g c o u).pedal l = u.pedal l := by
    cases c with
    | none => rfl
    | some c =>
      show (setPending g c o u).pedal l = u.pedal l
      unfold setPending
      simp only
      split
      · split <;> rfl
      · rfl
  cases level with
  | pressed =>
    exact (hpending ..).trans (State.pedal_setPedal ..)
  | released =>
    have hrelease (g : Fin 8) (u : State) : (releaseEdge g u).pedal l = u.pedal l := by
      unfold releaseEdge
      simp only
      split
      · rfl
      · split
        · split <;> rfl
        all_goals exact hpending ..
    exact (hrelease ..).trans (State.pedal_setPedal ..)

theorem debounceLine_first {l : LineId} {s : State} (h : (s.pedal l).level = none) :
    debounceLine l s = s.setPedal l (debounced s.pedalPins[l] (s.pedal l)) := by
  unfold debounceLine debounced
  simp only [h, rawLevel_eq]

theorem debounceLine_level {l : LineId} {s : State} {level : PedalLevel} (h : (s.pedal l).level = some level) :
    debounceLine l s =
      if pinLevel s.pedalPins[l] = level then s.setPedal l { s.pedal l with debounce := 0 }
      else if 384 ≤ (s.pedal l).debounce + 1 then pedalEdge l (pinLevel s.pedalPins[l]) s
      else s.setPedal l { s.pedal l with debounce := (s.pedal l).debounce + 1 } := by
  unfold debounceLine
  simp only [h, rawLevel_eq]

theorem debounced_level (high : Bool) {p : PedalLine} {level : PedalLevel} (h : p.level = some level) :
    debounced high p =
      if pinLevel high = level then { p with debounce := 0 }
      else if 384 ≤ p.debounce + 1 then
        match pinLevel high with
        | .pressed => { p with level := some .pressed, debounce := 0 }
        | .released => { p with level := some .released, debounce := 0, stuckMark := false }
      else { p with debounce := p.debounce + 1 } := by
  unfold debounced
  simp only [h]

theorem debounceLine_pedal (l : LineId) (s : State) :
    (debounceLine l s).pedal l = debounced s.pedalPins[l] (s.pedal l) := by
  cases h : (s.pedal l).level with
  | none => rw [debounceLine_first h, State.pedal_setPedal]
  | some level =>
    rw [debounceLine_level h, debounced_level _ h]
    split
    · exact State.pedal_setPedal ..
    · split
      · exact pedalEdge_pedal ..
      · exact State.pedal_setPedal ..

theorem debounceLine_of_no_edge {l : LineId} {s : State} (h : ¬PedalEdges s.pedalPins[l] (s.pedal l)) :
    debounceLine l s = s.setPedal l (debounced s.pedalPins[l] (s.pedal l)) := by
  cases hlevel : (s.pedal l).level with
  | none => exact debounceLine_first hlevel
  | some level =>
    rw [pedalEdges_iff _ _ _ hlevel] at h
    rw [debounceLine_level hlevel, debounced_level _ hlevel]
    split
    · rfl
    next hne => rw [if_neg fun hlong => h ⟨hne, hlong⟩, if_neg fun hlong => h ⟨hne, hlong⟩]

theorem debounceLine_of_edge {l : LineId} {s : State} (hlow : s.resetLow = false)
    (h : PedalEdges s.pedalPins[l] (s.pedal l)) : exec (.pedalEdge l) s = .next (debounceLine l s) := by
  obtain ⟨level, hlevel, hne, hlong⟩ := h
  rw [exec_pedalEdge hlow hlong hlevel, debounceLine_level hlevel, if_neg hne.symm, if_pos hlong, flip_of_ne hne.symm]

/-- A line's record behind the whole frame, before and with the mark of a judgement. -/
theorem pedalAfter_eq (limit : Nat) (high : Bool) (p : PedalLine) : pedalAfter limit high p =
    if stuckDue (debounced high p).timed limit then { (debounced high p).timed with stuckMark := true }
    else (debounced high p).timed := by
  obtain ⟨level, debounce, stuck, mark⟩ := p
  cases high <;> cases mark <;> rcases level with _ | _ | _ <;> by_cases hlong : 384 ≤ debounce + 1 <;>
    by_cases hdue : limit * 48000 ≤ min 5760000 (stuck + 1) <;>
    simp [pedalAfter, debounced, pinLevel, PedalLine.timed, stuckDue, Config.stuckTimerMax, hlong, hdue]

theorem pedalJudged_iff (limit : Nat) (high : Bool) (p : PedalLine) :
    PedalJudged limit high p ↔ stuckDue (debounced high p).timed limit = true := by
  obtain ⟨level, debounce, stuck, mark⟩ := p
  cases high <;> cases mark <;> rcases level with _ | _ | _ <;> by_cases hlong : 384 ≤ debounce + 1 <;>
    by_cases hdue : limit * 48000 ≤ min 5760000 (stuck + 1) <;>
    simp [PedalJudged, pedalAfter, debounced, pinLevel, PedalLine.timed, stuckDue, Config.stuckTimerMax, hlong, hdue]

/-- The judgement of a line writes the mark behind whatever its record held. -/
theorem judgeStuck_setPedal (l : LineId) (s : State) (p q : PedalLine) :
    judgeStuck l (s.setPedal l p) =
      (judgeStuck l (s.setPedal l q)).setPedal l { p with stuckMark := true } := by
  rw [judgeStuck_eq, judgeStuck_eq, ← stuckAt_setPedal]
  simp only [State.pedal_setPedal, State.setPedal_setPedal]
  rfl

theorem judgeStuck_pedal (l : LineId) (s : State) :
    (judgeStuck l s).pedal l = { s.pedal l with stuckMark := true } := by
  rw [judgeStuck_eq, stuckAt_setPedal, State.pedal_setPedal]

/-- A frame's work on a line whose level stays, without a judgement, writes the line's record alone. -/
theorem pedalWork_of_no_judgement {limit : Nat} {l : LineId} {s : State}
    (h : ¬PedalJudged limit s.pedalPins[l] (s.pedal l)) :
    pedalWork limit l s = (debounceLine l s).setPedal l (pedalAfter limit s.pedalPins[l] (s.pedal l)) := by
  rw [pedalJudged_iff] at h
  unfold pedalWork
  simp only
  rw [State.pedal_setPedal, debounceLine_pedal, if_neg h, pedalAfter_eq, if_neg h]

theorem pedalWork_of_judgement {limit : Nat} {l : LineId} {s : State}
    (h : PedalJudged limit s.pedalPins[l] (s.pedal l)) :
    pedalWork limit l s
      = judgeStuck l ((debounceLine l s).setPedal l (debounced s.pedalPins[l] (s.pedal l)).timed) := by
  rw [pedalJudged_iff] at h
  unfold pedalWork
  simp only
  rw [State.pedal_setPedal, debounceLine_pedal, if_pos h]

theorem pedalWork_pedal (limit : Nat) (l : LineId) (s : State) :
    (pedalWork limit l s).pedal l = pedalAfter limit s.pedalPins[l] (s.pedal l) := by
  by_cases h : PedalJudged limit s.pedalPins[l] (s.pedal l)
  · rw [pedalWork_of_judgement h, judgeStuck_pedal, State.pedal_setPedal, pedalAfter_eq,
      if_pos ((pedalJudged_iff ..).1 h)]
  · rw [pedalWork_of_no_judgement h, State.pedal_setPedal]

/-- A PRESSED line that keeps its level moves its stuck timer whatever its debounce timer does. -/
theorem debounced_timed_of_pressed {high : Bool} {p : PedalLine} (hedge : ¬PedalEdges high p)
    (hlevel : p.level = some .pressed) :
    ∃ d, debounced high p = { p with debounce := d } := by
  rw [pedalEdges_iff _ _ _ hlevel] at hedge
  rw [debounced_level _ hlevel]
  split
  · exact ⟨_, rfl⟩
  next hne => exact ⟨_, if_neg fun hlong => hedge ⟨hne, hlong⟩⟩

theorem timed_of_pressed {p : PedalLine} (h : p.level = some .pressed) :
    p.timed = { p with stuck := min 5760000 (p.stuck + 1) } := by
  unfold PedalLine.timed
  rw [h]

/-! ### The rows -/

theorem edge_of_press {l : LineId} {s : State} (hlow : s.resetLow = false) (hnear : (s.pedal l).debounce = 383)
    (hlevel : (s.pedal l).level = some .released) :
    exec (.pedalEdge l) s = .next (setPending? (lineGateway l) (s.gateway (lineGateway l)).press .press
      (s.setPedal l { s.pedal l with level := some .pressed, debounce := 0 })) :=
  exec_pedalEdge hlow (by omega) hlevel

theorem edge_of_release {l : LineId} {s : State} (hlow : s.resetLow = false) (hnear : (s.pedal l).debounce = 383)
    (hlevel : (s.pedal l).level = some .pressed) :
    exec (.pedalEdge l) s = .next (releaseEdge (lineGateway l)
      (s.setPedal l { s.pedal l with level := some .released, debounce := 0, stuckMark := false })) :=
  exec_pedalEdge hlow (by omega) hlevel

theorem releaseEdge_moment {g : Fin 8} {s : State} (htype : (s.gateway g).type = .moment) : releaseEdge g s = s := by
  unfold releaseEdge
  simp only [htype]

/-- A stuck judgement's row, from the line's record before the frame (R131). -/
theorem exec_stuckJudgement_at {l : LineId} {s : State} (hlow : s.resetLow = false)
    (hlevel : (s.pedal l).level = some .pressed) (hmark : (s.pedal l).stuckMark = false)
    (hlong : s.config.stuckLimit * 48000 ≤ min 5760000 ((s.pedal l).stuck + 1)) :
    exec (.pedalStuckJudgement l) s = .next (stuckAt (lineGateway l) (s.gateway (lineGateway l))
      (s.setPedal l { s.pedal l with stuck := min 5760000 ((s.pedal l).stuck + 1), stuckMark := true })) := by
  have htimed := timed_of_pressed hlevel
  have hdue : stuckDue (s.pedal l).timed s.config.stuckLimit = true := by
    rw [htimed]
    exact (stuckDue_iff ..).2 ⟨hlevel, hmark, hlong⟩
  rw [exec_stuckJudgement hlow hdue, judgeStuck_eq, State.pedal_setPedal, State.setPedal_setPedal, htimed]
  rfl

/-- Settles O25. -/
theorem pedalsTaken : Obligations.PedalsTaken := by
  refine ⟨fun l => rfl, fun l s hlow hnear => ?_, fun l s hlow hlevel hmark hlong => ?_, fun limit l s hlow => ?_⟩
  · intro g x pressed released
    refine ⟨fun hlevel => ?_, fun hlevel => ⟨fun htype => ?_, fun htype => ?_⟩⟩
    · have hrow := edge_of_press hlow hnear hlevel
      refine ⟨fun hidle => hrow.trans (congrArg _ (setPendingOption_idle (s := pressed) hidle _)),
        fun c hpress hon => ?_⟩
      rw [show (s.gateway (lineGateway l)).press = some c from hpress] at hrow
      exact ⟨fun hempty => hrow.trans (congrArg _ (setPending_empty g c .press pressed hon hempty)),
        fun hfull => hrow.trans (congrArg _ (setPending_full (s := pressed) hon hfull c .press))⟩
    · exact (edge_of_release hlow hnear hlevel).trans (congrArg _ (releaseEdge_moment (s := released) htype))
    · have hrow := edge_of_release hlow hnear hlevel
      have hset (h : ∀ p, x.pending = some p → p.origin ≠ .press) :
          exec (.pedalEdge l) s = .next (setPending? g x.release .release released) :=
        hrow.trans (congrArg _ (releaseEdge_sets (s := released) htype h))
      have hempty_sets (h : x.pending = none) := hset fun p hp => nomatch h.symm.trans hp
      refine ⟨fun c hpending => ?_, fun hempty hon c hrelease => ?_, fun p hpending horigin => ⟨?_, ?_⟩,
        fun hempty hidle => (hempty_sets hempty).trans (congrArg _ (setPendingOption_idle (s := released) hidle _))⟩
      · have hwithdraw := hrow.trans (congrArg _ (releaseEdge_withdraws (s := released) htype hpending))
        refine ⟨fun hnone => ?_, fun hsome => ?_⟩
        · exact hwithdraw.trans (congrArg _ (if_pos hnone))
        · exact hwithdraw.trans (congrArg _ (if_neg hsome))
      · have hsets := hempty_sets hempty
        rw [hrelease] at hsets
        exact hsets.trans (congrArg _ (setPending_empty g c .release released hon hempty))
      · intro hon c hrelease
        have hsets := hset fun q hq => Option.some.inj (hpending.symm.trans hq) ▸ horigin
        rw [hrelease] at hsets
        exact hsets.trans (congrArg _ (setPending_full (s := released) hon (fun h => nomatch hpending.symm.trans h)
          c .release))
      · intro hidle
        have hsets := hset fun q hq => Option.some.inj (hpending.symm.trans hq) ▸ horigin
        exact hsets.trans (congrArg _ (setPendingOption_idle (s := released) hidle _))
  · intro g x marked
    have hrow : exec (.pedalStuckJudgement l) s = .next (stuckAt g x marked) :=
      exec_stuckJudgement_at hlow hlevel hmark hlong
    refine ⟨fun hoff => ?_, fun hon => ?_, fun hon => ⟨_, hrow, stuckAt_frame g hon⟩⟩
    · exact hrow.trans (congrArg _ (if_neg (by rw [hoff]; exact Bool.false_ne_true)))
    · intro raised closed
      refine ⟨fun hopen => ?_, fun hclose => ?_⟩
      · refine hrow.trans (congrArg _ ((if_pos hon).trans (if_neg ?_)))
        rw [hopen]
        exact Bool.false_ne_true
      · exact hrow.trans (congrArg _ ((if_pos hon).trans (if_pos hclose)))
  · intro p high t
    refine ⟨pedalWork_pedal limit l s, fun hedge hjudged => ?_, fun hedge hjudged => ?_,
      fun hedge hjudged hlevel hlimit => ?_⟩
    · exact (pedalWork_of_no_judgement hjudged).trans (by
        rw [debounceLine_of_no_edge hedge, State.setPedal_setPedal])
    · exact ⟨_, debounceLine_of_edge hlow hedge, pedalWork_of_no_judgement hjudged⟩
    · obtain ⟨d, hd⟩ := debounced_timed_of_pressed hedge hlevel
      have hdue := (pedalJudged_iff limit high p).1 hjudged
      have htimed : (debounced high p).timed = { p.timed with debounce := d } := by
        rw [hd, timed_of_pressed hlevel, timed_of_pressed (p := { p with debounce := d }) hlevel]
      have hdue' : stuckDue p.timed s.config.stuckLimit = true := by
        rw [htimed, hlimit] at hdue
        exact hdue
      refine ⟨_, exec_stuckJudgement hlow hdue', ?_⟩
      have hwork : t = judgeStuck l (s.setPedal l (debounced high p).timed) :=
        (pedalWork_of_judgement hjudged).trans (by rw [debounceLine_of_no_edge hedge, State.setPedal_setPedal])
      rw [hwork, judgeStuck_setPedal l s _ p.timed, pedalAfter_eq, if_pos hdue]

end Sys2Proof.Proofs.PedalsAndTimed
end

