-- ==== Sys2Proof/Proofs/Ports.lean ====
section
/-! PROOF. The cue ports (R126, R129, R133, R141, R145, R146, R163; O24). -/

namespace Sys2Proof.Proofs.Ports

open Sys2Proof Sys2Proof.Machine Sys2Proof.Safety Sys2Proof.Proofs.Occurrences
  Sys2Proof.Proofs.CueRequests Sys2Proof.Proofs.CueLaws

/-! ### What a cue leaves of the Cue Unit -/

/-- The gateways and the timed cue queue stay. -/
def CueUnitKept (s t : State) : Prop := t.gateways = s.gateways ∧ t.timed = s.timed

theorem CueUnitKept.refl (s : State) : CueUnitKept s s := ⟨rfl, rfl⟩

theorem CueUnitKept.trans {s t u : State} (h : CueUnitKept s t) (k : CueUnitKept t u) : CueUnitKept s u :=
  ⟨k.1.trans h.1, k.2.trans h.2⟩

theorem CueUnitKept.of_onlyVoices {s t : State} (e : OnlyVoices s t) : CueUnitKept s t := ⟨e.gateways, e.timed⟩

theorem CueUnitKept.of_onlyFaults {s t : State} (e : OnlyFaults s t) : CueUnitKept s t := ⟨e.gateways, e.timed⟩

theorem CueUnitKept.setLead (s : State) (L : Lead) (c : LeadChannel) : CueUnitKept s (s.setLead L c) := by
  cases L <;> exact ⟨rfl, rfl⟩

theorem raiseLevel_cueUnitKept (L : Lead) (prio : Nat) (s : State) : CueUnitKept s (raiseLevel L prio s) := by
  unfold raiseLevel
  split
  · exact CueUnitKept.setLead ..
  · exact CueUnitKept.refl s

theorem applyScene_cueUnitKept (L : Lead) (n : Fin 32) (prio : Nat) (s : State) :
    CueUnitKept s (applyScene L n prio s) :=
  (CueUnitKept.setLead s L _).trans
    ((CueUnitKept.of_onlyVoices (applySteps_onlyVoices L n s)).trans (CueUnitKept.setLead ..))

theorem applyCue_cueUnitKept (L : Lead) (c : Cue) (prio : Nat) (s : State) : CueUnitKept s (applyCue L c prio s) := by
  have ignored : CueUnitKept s (raiseLevel L prio (countEvent .stepNoNext s)) := raiseLevel_cueUnitKept ..
  cases c with
  | scene n => exact applyScene_cueUnitKept ..
  | step =>
    unfold applyCue applyStep
    simp only
    split
    · split
      · exact applyScene_cueUnitKept ..
      · exact ignored
    · exact ignored
  | chord key map => exact (CueUnitKept.setLead ..).trans (raiseLevel_cueUnitKept ..)
  | hold =>
    refine CueUnitKept.trans ?_ (raiseLevel_cueUnitKept ..)
    unfold holdLead
    split
    · exact CueUnitKept.refl s
    · exact CueUnitKept.setLead ..
  | release =>
    refine CueUnitKept.trans ?_ (raiseLevel_cueUnitKept ..)
    unfold releaseHold
    split
    · exact CueUnitKept.setLead ..
    · exact CueUnitKept.refl s
  | silence =>
    exact ((CueUnitKept.setLead s L _).trans (CueUnitKept.of_onlyVoices
      (OnlyVoices.foldl _ (fun s v => fallToIdle_onlyVoices v s) _ _))).trans (CueUnitKept.setLead ..)
  | resume => exact (CueUnitKept.setLead s L _).trans (CueUnitKept.setLead ..)

/-! ### Candidates and the winner -/

theorem gatewayLead_iff (L : Lead) (s : State) (g : Fin 8) : gatewayLead s g = L ↔
    match g with
    | 0 | 1 | 2 | 3 => (s.gateway g).lead = L
    | 4 | 6 => L = .a
    | 5 | 7 => L = .b := by
  fin_cases g <;> cases L <;> simp [gatewayLead]

theorem isCandidate_iff (L : Lead) (s : State) (g : Fin 8) : isCandidate L s g = true ↔
    gatewayLead s g = L ∧ (s.gateway g).enabled = true ∧ (s.gateway g).pending ≠ none
      ∧ s.threshold L < (s.gateway g).priority
      ∧ ∀ tr, (s.lead L).transition = some tr → tr.level < (s.gateway g).priority := by
  unfold isCandidate
  simp only [Bool.and_eq_true, beq_iff_eq, decide_eq_true_eq, Option.isSome_iff_ne_none, and_assoc]
  cases (s.lead L).transition <;> simp

/-- The better of two gateways at a port: higher priority, or equal and lower number (R146). -/
def NoBetter (s : State) (x g : Fin 8) : Prop :=
  (s.gateway x).priority < (s.gateway g).priority
    ∨ ((s.gateway x).priority = (s.gateway g).priority ∧ g.val ≤ x.val)

theorem NoBetter.trans {s : State} {x y z : Fin 8} (h : NoBetter s x y) (k : NoBetter s y z) : NoBetter s x z := by
  unfold NoBetter at *
  omega

/-- The best of gateways in ascending order, the one in hand the lowest. -/
theorem best_of_ascending (s : State) : ∀ (gs : List (Fin 8)) (b : Fin 8), (b :: gs).Pairwise (· < ·) →
    ∃ g ∈ b :: gs, gs.foldl (betterGateway s) (some b) = some g ∧ ∀ x ∈ b :: gs, NoBetter s x g
  | [], b, _ => ⟨b, List.mem_singleton.2 rfl, rfl, fun x hx => by
      rw [List.mem_singleton.1 hx]
      exact Or.inr ⟨rfl, Nat.le_refl _⟩⟩
  | c :: gs, b, h => by
    obtain ⟨hb, hc⟩ := List.pairwise_cons.1 h
    have hbc : b.val < c.val := hb c List.mem_cons_self
    by_cases hbetter : (s.gateway b).priority < (s.gateway c).priority
    · obtain ⟨g, hmem, hfold, hbest⟩ := best_of_ascending s gs c hc
      refine ⟨g, List.mem_cons_of_mem _ hmem, ?_, fun x hx => ?_⟩
      · rw [List.foldl_cons, betterGateway, if_pos hbetter, hfold]
      · obtain rfl | hx := List.mem_cons.1 hx
        · exact NoBetter.trans (Or.inl hbetter) (hbest c List.mem_cons_self)
        · exact hbest x hx
    · have hrest : (b :: gs).Pairwise (· < ·) :=
        List.pairwise_cons.2 ⟨fun x hx => hb x (List.mem_cons_of_mem _ hx), (List.pairwise_cons.1 hc).2⟩
      obtain ⟨g, hmem, hfold, hbest⟩ := best_of_ascending s gs b hrest
      refine ⟨g, ?_, ?_, fun x hx => ?_⟩
      · obtain rfl | hg := List.mem_cons.1 hmem
        · exact List.mem_cons_self
        · exact List.mem_cons_of_mem _ (List.mem_cons_of_mem _ hg)
      · rw [List.foldl_cons, betterGateway, if_neg hbetter, hfold]
      · obtain rfl | hx := List.mem_cons.1 hx
        · exact hbest x List.mem_cons_self
        · obtain rfl | hx := List.mem_cons.1 hx
          · refine NoBetter.trans (y := b) ?_ (hbest b List.mem_cons_self)
            unfold NoBetter
            omega
          · exact hbest x (List.mem_cons_of_mem _ hx)

theorem mem_candidates (L : Lead) (s : State) (g : Fin 8) :
    g ∈ allGateways.filter (isCandidate L s) ↔ isCandidate L s g = true := by
  have hall : g ∈ allGateways := by fin_cases g <;> decide
  rw [List.mem_filter]
  exact ⟨And.right, fun h => ⟨hall, h⟩⟩

theorem candidates_ascending (L : Lead) (s : State) :
    (allGateways.filter (isCandidate L s)).Pairwise (· < ·) :=
  List.Pairwise.filter _ (by decide)

/-- A port has no candidate and no winner, or a winner that no candidate betters (R146). -/
theorem portWinner_cases (L : Lead) (s : State) :
    (portWinner L s = none ∧ ∀ g, isCandidate L s g = false)
    ∨ ∃ g, portWinner L s = some g ∧ isCandidate L s g = true ∧ ∀ x, isCandidate L s x = true → NoBetter s x g := by
  have hmem := mem_candidates L s
  have hsorted := candidates_ascending L s
  unfold portWinner
  cases hlist : allGateways.filter (isCandidate L s) with
  | nil =>
    rw [hlist] at hmem
    exact Or.inl ⟨rfl, fun g => by
      have hnot := fun h => List.not_mem_nil ((hmem g).2 h)
      simpa using hnot⟩
  | cons b gs =>
    rw [hlist] at hmem hsorted
    obtain ⟨g, hg, hfold, hbest⟩ := best_of_ascending s gs b hsorted
    exact Or.inr ⟨g, hfold, (hmem g).1 hg, fun x hx => hbest x ((hmem x).2 hx)⟩

/-! ### The port's step -/

theorem handOff_counters (L : Lead) (s : State) : (handOff L s).counters = s.counters := by rw [handOff_eq]

/-- The hand-off reads gateways and the timed cue queue alone (R141). -/
theorem handOff_same {L : Lead} {s t : State} (h : CueUnitKept s t) :
    CueUnitKept (handOff L s) (handOff L t) := by
  obtain ⟨hg, ht⟩ := h
  have hgw (g : Fin 8) : t.gateway g = s.gateway g := congrArg (·[g]) hg
  unfold handOff
  rw [ht]
  split
  · exact ⟨hg, ht⟩
  · rw [hgw]
    split
    next hfree =>
      obtain ⟨-, hon, hempty⟩ := hfree
      rw [setPending_empty _ _ _ { s with timed := s.timed.eraseP fun e => e.lead == L } hon hempty,
        setPending_empty _ _ _ { t with timed := s.timed.eraseP fun e => e.lead == L }
          ((congrArg Gateway.enabled (hgw _)).trans hon) ((congrArg Gateway.pending (hgw _)).trans hempty)]
      refine ⟨?_, rfl⟩
      show t.gateways.set _ { t.gateway _ with pending := _ } = s.gateways.set _ { s.gateway _ with pending := _ }
      rw [hg, hgw]
    · exact ⟨hg, ht⟩

/-- The port's step when gateway `g` wins with cue `c` (R129, R141, R146). -/
theorem portStep_winner {L : Lead} {s : State} {g : Fin 8} {c : PendingCue} (hwin : portWinner L s = some g)
    (hpending : (s.gateway g).pending = some c) :
    let applied := applyCue L c.cue (s.gateway g).priority (clearPending g s)
    let counted := if (s.lead L).transition = none then countEvent .cueApplied applied
      else countEvent .cueDuringTransition (countEvent .cueApplied applied)
    portStep L s = if g = timedGateway L then handOff L counted else counted := by
  unfold portStep
  rw [hwin]
  simp only
  rw [hpending]
  simp only
  cases (s.lead L).transition <;> rfl

theorem portStep_idle {L : Lead} {s : State} (h : portWinner L s = none) : portStep L s = s := by
  unfold portStep
  rw [h]

/-- Settles O24. -/
theorem portChoosesHighest : Obligations.PortChoosesHighest := by
  intro L s
  have hcases := portWinner_cases L s
  refine ⟨fun g => ?_, ?_, fun g hwin => ?_, portStep_idle, fun g c hwin hpending => ?_, rfl, fun ls => ⟨fun h => ?_,
    fun hlocked hflag => ⟨fun hnone => ?_, fun n hn => ?_⟩⟩⟩
  · rw [isCandidate_iff, gatewayLead_iff]
    cases L <;> exact Iff.rfl
  · obtain ⟨hnone, hno⟩ | ⟨g, hwin, hyes, -⟩ := hcases
    · exact ⟨fun _ => hno, fun _ => hnone⟩
    · exact ⟨fun h => (nomatch hwin.symm.trans h), fun h => absurd hyes (by simp [h g])⟩
  · obtain ⟨hnone, -⟩ | ⟨g', hwin', hyes, hbest⟩ := hcases
    · exact nomatch hnone.symm.trans hwin
    · obtain rfl := Option.some.inj (hwin.symm.trans hwin')
      exact ⟨hyes, hbest⟩
  · intro emptied applied t
    have hstep := portStep_winner hwin hpending
    have hkept : CueUnitKept emptied applied := applyCue_cueUnitKept ..
    let counted := if (s.lead L).transition = none then countEvent .cueApplied applied
      else countEvent .cueDuringTransition (countEvent .cueApplied applied)
    have hstep : t = if g = timedGateway L then handOff L counted else counted := hstep
    have hcounted : counted = { applied with counters := counted.counters } := by
      by_cases hnone : (s.lead L).transition = none
      · rw [show counted = countEvent .cueApplied applied from if_pos hnone]
        rfl
      · rw [show counted = countEvent .cueDuringTransition (countEvent .cueApplied applied) from if_neg hnone]
        rfl
    have hparts : t = { counted with gateways := t.gateways, timed := t.timed }
        ∧ t.counters = counted.counters
        ∧ (g ≠ timedGateway L → CueUnitKept counted t)
        ∧ (g = timedGateway L → CueUnitKept (handOff L counted) t) := by
      by_cases hg : g = timedGateway L
      · rw [hstep, if_pos hg]
        exact ⟨by rw [handOff_eq], handOff_counters L counted, fun hne => absurd hg hne, fun _ => CueUnitKept.refl _⟩
      · rw [hstep, if_neg hg]
        exact ⟨rfl, rfl, fun _ => CueUnitKept.refl _, fun heq => absurd heq hg⟩
    obtain ⟨hwhole, hcounters, hother, htimed⟩ := hparts
    have hkept : CueUnitKept emptied counted := hkept.trans (by rw [hcounted]; exact ⟨rfl, rfl⟩)
    refine ⟨?_, fun i => ?_, fun hg => hkept.trans (hother hg), fun hg => (handOff_same hkept).trans (htimed hg)⟩
    · rw [hcounters]
      exact hwhole.trans (congrArg (fun u : State => { u with gateways := t.gateways, timed := t.timed }) hcounted)
    · rw [hcounters]
      show (if _ then _ else _ : State).counters[i] = _
      split
      · exact countEvent_counter ..
      · rw [countEvent_counter, countEvent_counter]
        rfl
  · unfold cueStep
    rw [if_neg]
    rintro ⟨hl, hf⟩
    obtain h | h := h
    · exact h hl
    · exact Bool.false_ne_true (h.symm.trans hf)
  · unfold cueStep
    rw [if_pos ⟨hlocked, hflag⟩, show (s.startScene L) = none from hnone]
  · unfold cueStep
    rw [if_pos ⟨hlocked, hflag⟩]
    simp only
    rw [hn]

end Sys2Proof.Proofs.Ports
end

