-- ==== Sys2Proof/Proofs/VoiceRequests.lean ====
section
/-! PROOF. Release, reassign and assign as one write of the voice's record (R92, R93, R95, R96), with the
occurrence of a slot clash at envelope 0 behind it. -/

namespace Sys2Proof.Proofs.VoiceRequests

open Sys2Proof Sys2Proof.Machine Sys2Proof.Safety Sys2Proof.Proofs.VoiceEvents Sys2Proof.Proofs.VoiceFrame
  Sys2Proof.Proofs.Occurrences

/-- A request that writes a voice's record; the flag says whether its frozen notes become absent. -/
abbrev Written := Voice × Bool

/-- A release by the voice's state (R95, R96, R98). -/
def released (inc : Nat) (x : Voice) : Written :=
  match x.state with
  | .rising | .sounding =>
    if x.envelope = 0 then ({ x with dest := .off, increment := inc }.goneOff, true)
    else ({ x with state := .falling, dest := .off, releaseMark := true, pendingPart := none, increment := inc }, false)
  | .falling =>
    ({ x with dest := if x.faults = [] then .off else x.dest, releaseMark := true, pendingPart := none }, false)
  | .idle | .muted => (x.goneOff, true)
  | .off => (x, false)

/-- A voice that takes an assignment now: OFF where the slot is a lead input slot (R93). -/
def taking (slotTaken : Bool) (p : Assignment) (x : Voice) : Voice :=
  if slotTaken then x.goneOff else x.tookPart p

/-- A reassignment by the voice's state (R93, R95, R96, R98). -/
def reassigned (slotTaken : Bool) (inc : Nat) (p : Assignment) (x : Voice) : Written :=
  match x.state with
  | .rising | .sounding =>
    if x.envelope = 0 then
      (taking slotTaken p { x with dest := .reassign, releaseMark := false, pendingPart := some p
                                   increment := inc, crossfade := none }, true)
    else ({ x with state := .falling, dest := .reassign, releaseMark := false, pendingPart := some p
                   increment := inc }, false)
  | .falling =>
    ({ x with dest := if x.faults = [] then .reassign else x.dest, releaseMark := false, pendingPart := some p },
      false)
  | .idle | .muted => (taking slotTaken p x, true)
  | .off => (x, false)

/-- A reassignment whose fall ends in the same event at a lead input slot (R93, R95). -/
def clashes (slotTaken : Bool) (x : Voice) : Bool :=
  match x.state with
  | .rising | .sounding => decide (x.envelope = 0) && slotTaken
  | .off | .idle | .falling | .muted => false

theorem placed_same (v : VoiceId) (s : State) : placed false v (s.voice v) s = s := State.setVoice_voice s v

theorem goOff_placed (v : VoiceId) (s : State) : goOff v s = placed true v (s.voice v).goneOff s := rfl

theorem takePart_placed (v : VoiceId) (p : Assignment) (s : State) :
    takePart v p s = placed true v (taking (s.isLeadSlot p.slot) p (s.voice v)) s := by
  unfold takePart taking
  split <;> rfl

theorem released_sings {x : Voice} (h : x.state = .rising ∨ x.state = .sounding) (inc : Nat) : released inc x =
    if x.envelope = 0 then ({ x with dest := .off, increment := inc }.goneOff, true)
    else ({ x with state := .falling, dest := .off, releaseMark := true, pendingPart := none, increment := inc },
      false) := by
  obtain ⟨state, _⟩ := x
  simp only at h
  obtain rfl | rfl := h <;> rfl

theorem reassigned_sings {x : Voice} (h : x.state = .rising ∨ x.state = .sounding) (slotTaken : Bool) (inc : Nat)
    (p : Assignment) : reassigned slotTaken inc p x =
    if x.envelope = 0 then
      (taking slotTaken p { x with dest := .reassign, releaseMark := false, pendingPart := some p
                                   increment := inc, crossfade := none }, true)
    else ({ x with state := .falling, dest := .reassign, releaseMark := false, pendingPart := some p
                   increment := inc }, false) := by
  obtain ⟨state, _⟩ := x
  simp only at h
  obtain rfl | rfl := h <;> rfl

theorem clashes_sings {x : Voice} (h : x.state = .rising ∨ x.state = .sounding) (slotTaken : Bool) :
    clashes slotTaken x = (decide (x.envelope = 0) && slotTaken) := by
  unfold clashes
  obtain h | h := h <;> rw [h]

theorem startFall_release (v : VoiceId) (s : State) (h : (s.voice v).state = .rising ∨ (s.voice v).state = .sounding) :
    startFall .off true none v s =
      placed (released (rampIncrement s (s.voice v).owner) (s.voice v)).2 v
        (released (rampIncrement s (s.voice v).owner) (s.voice v)).1 s := by
  rw [released_sings h]
  unfold startFall
  simp only
  split
  · unfold endFallNow
    rw [endFall_off (by rw [State.voice_setVoice])]
    simp only [raiseSkipped, fallenOff, State.voice_setVoice, State.setVoice_setVoice]
    rfl
  · rfl

theorem releaseVoice_eq (v : VoiceId) (s : State) : releaseVoice v s =
    placed (released (rampIncrement s (s.voice v).owner) (s.voice v)).2 v
      (released (rampIncrement s (s.voice v).owner) (s.voice v)).1 s := by
  cases h : (s.voice v).state with
  | rising =>
    rw [← startFall_release v s (.inl h)]
    simp only [releaseVoice, h]
  | sounding =>
    rw [← startFall_release v s (.inr h)]
    simp only [releaseVoice, h]
  | falling =>
    simp only [releaseVoice, released, h]
    split
    next hclear => rfl
    next hheld => rfl
  | idle => simp only [releaseVoice, released, h, goOff_placed]
  | muted => simp only [releaseVoice, released, h, goOff_placed]
  | off =>
    simp only [releaseVoice, released, h]
    exact (placed_same v s).symm

theorem startFall_reassign (v : VoiceId) (p : Assignment) (s : State)
    (h : (s.voice v).state = .rising ∨ (s.voice v).state = .sounding) :
    startFall .reassign false (some p) v s =
      raiseSkipped (if clashes (s.isLeadSlot p.slot) (s.voice v) then (s.voice v).owner else none)
        (placed (reassigned (s.isLeadSlot p.slot) (rampIncrement s (s.voice v).owner) p (s.voice v)).2 v
          (reassigned (s.isLeadSlot p.slot) (rampIncrement s (s.voice v).owner) p (s.voice v)).1 s) := by
  rw [reassigned_sings h, clashes_sings h]
  unfold startFall
  simp only
  by_cases henv : (s.voice v).envelope = 0
  · rw [if_pos henv, if_pos henv, decide_eq_true henv, Bool.true_and]
    let falling := s.setVoice v { s.voice v with
      state := .falling, dest := .reassign, releaseMark := false, pendingPart := some p
      increment := rampIncrement s (s.voice v).owner }
    have hvoice : falling.voice v = { s.voice v with
        state := .falling, dest := .reassign, releaseMark := false, pendingPart := some p
        increment := rampIncrement s (s.voice v).owner } := State.voice_setVoice ..
    show endFallNow v falling = _
    unfold endFallNow
    rw [endFall_part (p := p) (by rw [hvoice]) (.inl (by rw [hvoice]))]
    cases htaken : s.isLeadSlot p.slot with
    | false =>
      rw [takePartAtEnd_stopped_free (s := falling) htaken]
      simp only [Bool.false_eq_true, if_false, raiseSkipped, falling, State.voice_setVoice, State.setVoice_setVoice, placed, if_true,
        taking, Voice.stopped, Voice.tookPart, henv]
    | true =>
      rw [takePartAtEnd_stopped_taken (s := falling) htaken]
      simp only [if_true, hvoice, fallenOff, falling, State.setVoice_setVoice, placed, taking, Voice.stopped,
        Voice.goneOff]
  · rw [if_neg henv, if_neg henv, decide_eq_false henv]
    rfl

theorem reassignVoice_eq (v : VoiceId) (p : Assignment) (s : State) : reassignVoice v p s =
    raiseSkipped (if clashes (s.isLeadSlot p.slot) (s.voice v) then (s.voice v).owner else none)
      (placed (reassigned (s.isLeadSlot p.slot) (rampIncrement s (s.voice v).owner) p (s.voice v)).2 v
        (reassigned (s.isLeadSlot p.slot) (rampIncrement s (s.voice v).owner) p (s.voice v)).1 s) := by
  cases h : (s.voice v).state with
  | rising =>
    rw [← startFall_reassign v p s (.inl h)]
    simp only [reassignVoice, h]
  | sounding =>
    rw [← startFall_reassign v p s (.inr h)]
    simp only [reassignVoice, h]
  | falling =>
    simp only [reassignVoice, reassigned, clashes, h]
    split <;> rfl
  | idle =>
    simp only [reassignVoice, reassigned, clashes, h, takePart_placed]
    rfl
  | muted =>
    simp only [reassignVoice, reassigned, clashes, h, takePart_placed]
    rfl
  | off =>
    simp only [reassignVoice, reassigned, clashes, h]
    exact (placed_same v s).symm

/-- The record of a voice newly assigned (R92). -/
def assigned (L : Lead) (p : Assignment) (x : Voice) : Voice :=
  { x with state := .idle, owner := some L, part := some p, pendingPart := none, releaseMark := false
           envelope := 0, crossfade := none, faults := [] }

theorem assignVoice_off {v : VoiceId} {L : Lead} {p : Assignment} {s : State} (h : (s.voice v).state = .off) :
    assignVoice v L p s = placed true v (assigned L p (s.voice v)) s := by
  simp only [assignVoice, h]
  rfl

/-! ### What one write leaves -/

theorem placed_voice_ne {v w : VoiceId} (h : w ≠ v) (clears : Bool) (y : Voice) (s : State) :
    (placed clears v y s).voice w = s.voice w := by
  cases clears <;> exact State.voice_setVoice_ne _ _ _ _ (Ne.symm h)

theorem placed_lead (clears : Bool) (v : VoiceId) (y : Voice) (s : State) (M : Lead) :
    (placed clears v y s).lead M =
      { s.lead M with frozen := if clears then (s.lead M).frozen.set v none else (s.lead M).frozen } := by
  cases clears <;> cases M <;> rfl

theorem placed_frozen_same (v : VoiceId) (y : Voice) (s : State) (M : Lead) :
    ((placed true v y s).lead M).frozen[v] = none := by
  rw [placed_lead]
  exact Vector.getElem_set_self ..

theorem placed_frozen_kept (v w : VoiceId) (clears : Bool) (y : Voice) (s : State) (M : Lead)
    (h : w ≠ v ∨ clears = false) : ((placed clears v y s).lead M).frozen[w] = (s.lead M).frozen[w] := by
  rw [placed_lead]
  cases clears with
  | false => rfl
  | true =>
    have hne : w ≠ v := h.resolve_right (fun e => nomatch e)
    exact Vector.getElem_set_ne v.isLt w.isLt fun e => hne (Fin.ext e.symm)

/-- An occurrence of scope a lead mutes voices of that lead alone (R151). -/
theorem raise_lead_voice (k : FaultKind) (L : Lead) (s : State) (v : VoiceId) :
    (raise k (.lead L) s).voice v = s.voice v
    ∨ ((s.voice v).owner = some L ∧ ∃ inc, (raise k (.lead L) s).voice v = (s.voice v).mutedBy k inc) := by
  have hopened : (opened k (.lead L) s).voice v = s.voice v ∨ ((s.voice v).owner = some L
      ∧ ∃ inc, (opened k (.lead L) s).voice v = (s.voice v).mutedBy k inc) := by
    cases hsev : (s.fault k).severity with
    | notice => exact .inl (congrArg (·[v]) (opened_voices_of_notice hsev _))
    | mute =>
      rw [opened_voice_of_mute (fun _ _ e => by cases e) hsev v]
      split
      next hscope => exact .inr ⟨by simpa [voiceInScope] using hscope, _, rfl⟩
      · exact .inl rfl
  have hvoices := raise_voices k (.lead L) s
  unfold State.voice at *
  rw [hvoices]
  split
  · exact hopened
  · exact .inl rfl

end Sys2Proof.Proofs.VoiceRequests
end

