-- ==== Sys2Proof/Proofs/FaultSide.lean ====
section
/-! PROOF. What an occurrence does to the Fault Unit, the counters and the outbound queue is told by these alone, by
address and count (R151 to R156), whatever voices it mutes. -/

namespace Sys2Proof.Proofs.FaultSide

open Sys2Proof Sys2Proof.Machine Sys2Proof.Safety Sys2Proof.Proofs.Occurrences

/-- The same Fault Unit, counters and outbound queue, at the same address and count. -/
structure SameSide (s t : State) : Prop where
  faults : t.faults = s.faults
  pointer : t.pointer = s.pointer
  counters : t.counters = s.counters
  outq : t.outq = s.outq
  nodeAddr : t.nodeAddr = s.nodeAddr
  count : t.ltu.count = s.ltu.count

theorem SameSide.refl (s : State) : SameSide s s := ⟨rfl, rfl, rfl, rfl, rfl, rfl⟩

theorem SameSide.trans {s t u : State} (h : SameSide s t) (k : SameSide t u) : SameSide s u :=
  ⟨k.faults.trans h.faults, k.pointer.trans h.pointer, k.counters.trans h.counters, k.outq.trans h.outq,
    k.nodeAddr.trans h.nodeAddr, k.count.trans h.count⟩

theorem SameSide.fault {s t : State} (h : SameSide s t) (k : FaultKind) : t.fault k = s.fault k := by
  unfold State.fault
  rw [h.faults]

theorem countEvent_sameSide {s t : State} (h : SameSide s t) (e : Event) :
    SameSide (countEvent e s) (countEvent e t) :=
  ⟨h.faults, h.pointer, congrArg (·.map fun c => c.after (eventCode e)) h.counters, h.outq, h.nodeAddr, h.count⟩

theorem kindSet_faults {s t : State} (h : SameSide s t) (k : FaultKind) :
    (kindSet k t).faults = (kindSet k s).faults := by
  show t.faults.set _ { t.fault k with status := true } = s.faults.set _ { s.fault k with status := true }
  rw [h.fault, h.faults]

theorem setKind_sameSide {s t : State} (h : SameSide s t) (k : FaultKind) (sc sc' : Scope) :
    SameSide (setKind k sc s) (setKind k sc' t) := by
  obtain ⟨hfaults, hpointer, hcounters, houtq⟩ := setKind_records k sc s
  obtain ⟨hfaults', hpointer', hcounters', houtq'⟩ := setKind_records k sc' t
  exact ⟨hfaults'.trans ((kindSet_faults h k).trans hfaults.symm),
    hpointer'.trans ((congrArg (fun p => match p with | some p => some p | none => some k) h.pointer).trans
      hpointer.symm),
    hcounters'.trans (h.counters.trans hcounters.symm), houtq'.trans (h.outq.trans houtq.symm),
    (setKind_onlyFaults k sc' t).nodeAddr.trans (h.nodeAddr.trans (setKind_onlyFaults k sc s).nodeAddr.symm),
    (congrArg Ltu.count (setKind_onlyFaults k sc' t).ltu).trans
      (h.count.trans (congrArg Ltu.count (setKind_onlyFaults k sc s).ltu).symm)⟩

theorem faultNotice_sameSide {s t : State} (h : SameSide s t) (k : FaultKind) (sc : Scope) :
    faultNotice k sc t = faultNotice k sc s := by
  unfold faultNotice noticeMessage
  rw [h.nodeAddr, h.count]

theorem enqueue_sameSide {s t : State} (h : SameSide s t) (m : OutItem) : SameSide (enqueue m s) (enqueue m t) :=
  ⟨h.faults, h.pointer, h.counters, congrArg (· ++ [m]) h.outq, h.nodeAddr, h.count⟩

theorem occur_sameSide {offer : Message → State → State}
    (ho : ∀ (m : Message) {s t : State}, SameSide s t → SameSide (offer m s) (offer m t)) {s t : State}
    (h : SameSide s t) (k : FaultKind) (sc : Scope) : SameSide (occur k sc offer s) (occur k sc offer t) := by
  have hset := setKind_sameSide (countEvent_sameSide h .faultOccurrence) k sc sc
  unfold occur
  rw [h.fault]
  split
  · exact h
  · split
    · exact countEvent_sameSide h _
    · simp only
      split
      · exact hset
      · rw [faultNotice_sameSide hset]
        exact ho _ hset

theorem offerSilently_sameSide (m : Message) {s t : State} (h : SameSide s t) :
    SameSide (offerSilently m s) (offerSilently m t) := by
  unfold offerSilently
  rw [h.outq]
  split
  · exact enqueue_sameSide h _
  · exact h

theorem offerNotice_sameSide (m : Message) {s t : State} (h : SameSide s t) :
    SameSide (offerNotice m s) (offerNotice m t) := by
  unfold offerNotice
  rw [h.outq]
  split
  · exact enqueue_sameSide h _
  · exact occur_sameSide offerSilently_sameSide h _ _

theorem raise_sameSide {s t : State} (h : SameSide s t) (k : FaultKind) (sc : Scope) :
    SameSide (raise k sc s) (raise k sc t) :=
  occur_sameSide offerNotice_sameSide h k sc

/-- An occurrence that mutes none leaves the voices. -/
theorem raise_voices_of_not_mutes {k : FaultKind} {s : State} (h : ¬((s.fault k).detectMask = false
    ∧ (s.fault k).status = false ∧ (s.fault k).severity = .mute)) (sc : Scope) :
    (raise k sc s).voices = s.voices := by
  rw [raise_voices]
  split
  next hopens =>
    cases hsev : (s.fault k).severity with
    | notice => rw [opened_voices_of_notice hsev]
    | mute => exact absurd ⟨hopens.1, hopens.2, hsev⟩ h
  · rfl

/-- Once an occurrence would mute none, none later would. -/
theorem not_mutes_of_grows {k : FaultKind} {s t : State} (e : StatusGrows s t) (h : ¬((s.fault k).detectMask = false
    ∧ (s.fault k).status = false ∧ (s.fault k).severity = .mute)) : ¬((t.fault k).detectMask = false
    ∧ (t.fault k).status = false ∧ (t.fault k).severity = .mute) := by
  obtain ⟨hstatus, hmask, -, hsev⟩ := e k
  rintro ⟨hm, hs, hv⟩
  refine h ⟨hmask.symm.trans hm, ?_, hsev.symm.trans hv⟩
  cases hset : (s.fault k).status with
  | false => rfl
  | true => exact nomatch hs.symm.trans (hstatus hset)

/-- The voices of an occurrence of scope a lead that mutes (R151, R154). -/
theorem raise_lead_mutes {k : FaultKind} {s : State} (hmask : (s.fault k).detectMask = false)
    (hclear : (s.fault k).status = false) (hsev : (s.fault k).severity = .mute) (L : Lead) (v : VoiceId) :
    (raise k (.lead L) s).voice v = if (s.voice v).owner = some L then
      (s.voice v).mutedBy k (rampIncrement s (some L)) else s.voice v := by
  have hvoices := raise_voices k (.lead L) s
  rw [if_pos ⟨hmask, hclear⟩] at hvoices
  have hvoice : (raise k (.lead L) s).voice v = (opened k (.lead L) s).voice v := congrArg (·[v]) hvoices
  rw [hvoice, opened_voice_of_mute (sc := .lead L) (fun _ _ e => by cases e) hsev v]
  by_cases howner : (s.voice v).owner = some L
  · rw [if_pos howner, if_pos (show voiceInScope (.lead L) s v = true from decide_eq_true howner), howner]
  · rw [if_neg howner, if_neg (show ¬voiceInScope (.lead L) s v = true from fun h => howner (of_decide_eq_true h))]

end Sys2Proof.Proofs.FaultSide
end

