-- ==== Sys2Proof/Proofs/SceneApplication.lean ====
section
/-! PROOF. Applying a scene to every voice (R115 to R118), and the other cues (R75, R84, R85, R120, R121, R125;
O23). -/

namespace Sys2Proof.Proofs.SceneApplication

open Sys2Proof Sys2Proof.Machine Sys2Proof.Safety Sys2Proof.Proofs.VoiceLaws Sys2Proof.Proofs.VoiceRequests
  Sys2Proof.Proofs.VoiceFrame Sys2Proof.Proofs.FaultSide Sys2Proof.Proofs.SceneRecords Sys2Proof.Proofs.Harmony
  Sys2Proof.Proofs.Occurrences

/-! ### Writes of several voices -/

/-- Each voice of the list has its written record, its frozen notes absent where the write says so; every other voice
is as it was. -/
structure WroteAll (vs : List VoiceId) (g : VoiceId → Written) (s t : State) : Prop where
  voice : ∀ w, t.voice w = if w ∈ vs then (g w).1 else s.voice w
  frozen : ∀ (M : Lead) (w : VoiceId),
    (t.lead M).frozen[w] = if w ∈ vs ∧ (g w).2 = true then none else (s.lead M).frozen[w]

theorem WroteAll.nil (g : VoiceId → Written) (s : State) : WroteAll [] g s s where
  voice w := by simp
  frozen M w := by simp

theorem WroteAll.cons {v : VoiceId} {vs : List VoiceId} {g : VoiceId → Written} {s t u : State} (hv : v ∉ vs)
    (h : WroteAll [v] g s t) (k : WroteAll vs g t u) : WroteAll (v :: vs) g s u where
  voice w := by
    rw [k.voice, h.voice]
    by_cases e : w = v
    · subst e
      simp [hv]
    · simp [e]
  frozen M w := by
    rw [k.frozen, h.frozen]
    by_cases e : w = v
    · subst e
      simp [hv]
    · simp [e]

theorem wroteAll_placed (v : VoiceId) (g : VoiceId → Written) (s : State) :
    WroteAll [v] g s (placed (g v).2 v (g v).1 s) where
  voice w := by
    by_cases e : w = v
    · subst e
      simp [placed_voice]
    · simp [e, placed_voice_ne e]
  frozen M w := by
    by_cases e : w = v
    · subst e
      cases hc : (g w).2 with
      | true =>
        rw [placed_frozen_same]
        simp
      | false => rw [placed_frozen_kept _ _ _ _ _ _ (.inr rfl)]; simp
    · rw [placed_frozen_kept _ _ _ _ _ _ (.inl e)]
      simp [e]

/-- What leaves voices and leads as they are may follow. -/
theorem WroteAll.of_same {vs : List VoiceId} {g : VoiceId → Written} {s t u : State} (h : WroteAll vs g s t)
    (hvoices : u.voices = t.voices) (hfrozen : ∀ M, (u.lead M).frozen = (t.lead M).frozen) : WroteAll vs g s u where
  voice w := (congrArg (·[w]) hvoices).trans (h.voice w)
  frozen M w := by rw [hfrozen]; exact h.frozen M w

theorem placed_sameSide (clears : Bool) (v : VoiceId) (y : Voice) (s : State) : SameSide s (placed clears v y s) := by
  cases clears <;> exact ⟨rfl, rfl, rfl, rfl, rfl, rfl⟩

theorem placed_onlyVoices (clears : Bool) (v : VoiceId) (y : Voice) (s : State) :
    OnlyVoices s (placed clears v y s) := by
  cases clears with
  | false => exact OnlyVoices.setVoice ..
  | true => exact (OnlyVoices.setVoice ..).trans ⟨rfl, List.prefix_refl _⟩

theorem raiseSkipped_onlyFaults (o : Option Lead) (s : State) : OnlyFaults s (raiseSkipped o s) := by
  cases o with
  | none => exact OnlyFaults.refl s
  | some L => exact raise_onlyFaults ..

/-! ### The second step: the voices the lead owns (R116) -/

theorem mem_ownedVoices (s : State) (L : Lead) (v : VoiceId) : v ∈ ownedVoices s L ↔ (s.voice v).owner = some L := by
  simp [ownedVoices, mem_allVoices]

theorem ownedVoices_nodup (s : State) (L : Lead) : (ownedVoices s L).Nodup := by
  unfold ownedVoices
  exact allVoices_nodup.filter _

/-- What a scene writes at a voice its lead owns. -/
def reachedBy (s : State) (r : Scene) (v : VoiceId) : Written :=
  match r.entryFor v with
  | none => released (4096 / r.fade) (s.voice v)
  | some e => reassigned (s.isLeadSlot e.part.slot) (4096 / r.fade) e.part (s.voice v)

/-- A slot clash at the end of a fall that the scene starts at envelope 0 (R93, R95). -/
def clashesBy (s : State) (r : Scene) (v : VoiceId) : Bool :=
  match r.entryFor v with
  | none => false
  | some e => clashes (s.isLeadSlot e.part.slot) (s.voice v)

/-- A slot clash of a voice that takes its entry at once (R118). -/
def skipsBy (s : State) (r : Scene) (v : VoiceId) : Bool :=
  match r.entryFor v with
  | none => false
  | some e => (s.voice v).takesAtOnce && s.isLeadSlot e.part.slot

/-- The lead's record behind the first step of a scene (R115). -/
def withScene (L : Lead) (n : Fin 32) (s : State) : State := s.setLead L ((s.lead L).withScene n s.scenes[n])

theorem withScene_params (L : Lead) (n : Fin 32) (s : State) : (withScene L n s).params L = s.scenes[n] := by
  cases L <;> rfl

theorem withScene_voice (L : Lead) (n : Fin 32) (s : State) (v : VoiceId) : (withScene L n s).voice v = s.voice v := by
  cases L <;> rfl

theorem withScene_isLeadSlot (L : Lead) (n : Fin 32) (s : State) (k : Fin 24) :
    (withScene L n s).isLeadSlot k = s.isLeadSlot k := by
  cases L <;> rfl

theorem withScene_sameSide (L : Lead) (n : Fin 32) (s : State) : SameSide s (withScene L n s) := by
  cases L <;> exact ⟨rfl, rfl, rfl, rfl, rfl, rfl⟩

theorem withScene_frozen (L M : Lead) (n : Fin 32) (s : State) :
    ((withScene L n s).lead M).frozen = (s.lead M).frozen := by
  cases L <;> cases M <;> rfl

section
variable {L : Lead} {n : Fin 32} {s u : State} {r : Scene}

/-- What a later state of the application keeps of its start. -/
abbrev Reaching (L : Lead) (n : Fin 32) (s u : State) : Prop := OnlyVoices (withScene L n s) u

theorem Reaching.rampIncrement (h : Reaching L n s u) (hr : s.scenes[n] = r) :
    rampIncrement u (some L) = 4096 / r.fade := by
  show Config.fullEnvelope / (u.params L).fade = _
  rw [OnlyVoices.params h L, withScene_params, hr]

theorem Reaching.isLeadSlot (h : Reaching L n s u) (k : Fin 24) : u.isLeadSlot k = s.isLeadSlot k :=
  (OnlyVoices.isLeadSlot h k).trans (withScene_isLeadSlot L n s k)

/-- The second step on a voice that stands as the scene found it (R116, R118). -/
theorem reachOwned_at (h : Reaching L n s u) (hr : s.scenes[n] = r) {v : VoiceId} (hv : u.voice v = s.voice v)
    (howner : (s.voice v).owner = some L) (k : Nat) :
    reachOwned r (u, k) v =
      (raiseSkipped (if clashesBy s r v then some L else none)
        (placed (reachedBy s r v).2 v (reachedBy s r v).1 u),
      if skipsBy s r v then k + 1 else k) := by
  have hinc : Machine.rampIncrement u (u.voice v).owner = 4096 / r.fade := by
    rw [hv, howner, h.rampIncrement hr]
  unfold reachOwned reachedBy clashesBy skipsBy
  cases hentry : r.entryFor v with
  | none =>
    simp only
    rw [releaseVoice_eq, hinc, hv]
    rfl
  | some e =>
    simp only
    rw [reassignVoice_eq, hinc, hv, h.isLeadSlot, howner]

theorem reachOwned_reaching (h : Reaching L n s u) (r : Scene) (k : Nat) (v : VoiceId) :
    Reaching L n s (reachOwned r (u, k) v).1 := h.trans (reachOwned_onlyVoices r (u, k) v)

/-- The second step when its slot clashes mute none: the writes, and the count of entries skipped. -/
theorem reachAll_quiet (hr : s.scenes[n] = r) : ∀ (vs : List VoiceId) {u : State} (k : Nat), Reaching L n s u → vs.Nodup →
    (∀ v ∈ vs, u.voice v = s.voice v ∧ (s.voice v).owner = some L) →
    ((∀ v ∈ vs, clashesBy s r v = false) ∨ ¬SkipMutes u) →
    let t := vs.foldl (reachOwned r) (u, k)
    WroteAll vs (reachedBy s r) u t.1 ∧ (¬SkipMutes u → ¬SkipMutes t.1)
      ∧ ((∀ v ∈ vs, clashesBy s r v = false) → SameSide u t.1)
      ∧ (t.2 = 0 ↔ k = 0 ∧ ∀ v ∈ vs, skipsBy s r v = false)
  | [], u, k, _, _, _, _ => ⟨WroteAll.nil _ _, id, fun _ => SameSide.refl u, by simp⟩
  | v :: vs, u, k, h, hnodup, hvs, hquiet => by
    obtain ⟨hout, hnodup⟩ := List.nodup_cons.1 hnodup
    obtain ⟨hv, howner⟩ := hvs v List.mem_cons_self
    have hstep := reachOwned_at h hr hv howner k
    let written := placed (reachedBy s r v).2 v (reachedBy s r v).1 u
    let next := raiseSkipped (if clashesBy s r v then some L else none) written
    have hmutes : ¬SkipMutes u → ¬SkipMutes next := by
      intro hno
      have hwritten : ¬SkipMutes written := by
        unfold SkipMutes
        rw [(placed_sameSide ..).fault]
        exact hno
      show ¬SkipMutes (raiseSkipped _ written)
      split
      · exact not_mutes_of_grows (raise_statusGrows .entrySkipped (.lead L) written) hwritten
      · exact hwritten
    have hvoices : next.voices = written.voices := by
      show (raiseSkipped _ written).voices = _
      split
      next hclash =>
        obtain hnone | hno := hquiet
        · exact absurd hclash (by simp [hnone v List.mem_cons_self])
        · refine raise_voices_of_not_mutes (k := .entrySkipped) ?_ _
          rw [(placed_sameSide ..).fault]
          exact hno
      · rfl
    have hone : WroteAll [v] (reachedBy s r) u next :=
      (wroteAll_placed v _ u).of_same hvoices fun M => by rw [(raiseSkipped_onlyFaults ..).lead]
    have hside : clashesBy s r v = false → SameSide u next := by
      intro hclash
      show SameSide u (raiseSkipped _ written)
      rw [hclash]
      exact placed_sameSide ..
    have hnext : Reaching L n s next := by
      have := reachOwned_reaching h r k v
      rw [hstep] at this
      exact this
    have ih := reachAll_quiet hr vs (u := next) (if skipsBy s r v then k + 1 else k) hnext hnodup
      (fun w hw => ⟨by
        rw [hone.voice, if_neg (by
          rw [List.mem_singleton]
          rintro rfl
          exact hout hw)]
        exact (hvs w (List.mem_cons_of_mem _ hw)).1, (hvs w (List.mem_cons_of_mem _ hw)).2⟩)
      (hquiet.imp (fun hnone w hw => hnone w (List.mem_cons_of_mem _ hw)) hmutes)
    obtain ⟨hwrote, hno, hsame, hcount⟩ := ih
    intro t
    have ht : t = vs.foldl (reachOwned r) (next, if skipsBy s r v then k + 1 else k) := by
      show List.foldl _ _ (v :: vs) = _
      rw [List.foldl_cons, hstep]
    rw [ht]
    refine ⟨hone.cons hout hwrote, fun h => hno (hmutes h), fun hnone => ?_, ?_⟩
    · exact (hside (hnone v List.mem_cons_self)).trans (hsame fun w hw => hnone w (List.mem_cons_of_mem _ hw))
    · rw [hcount]
      cases hskip : skipsBy s r v <;> simp [hskip]

/-! ### The third step: the entries of other voices (R117) -/

/-- An entry is taken by an OFF voice the lead did not own, on a slot that is no lead input slot. -/
def takes (s : State) (L : Lead) (e : SceneEntry) : Bool :=
  decide ((s.voice e.voice).owner ≠ some L) && decide ((s.voice e.voice).state = .off)
    && !s.isLeadSlot e.part.slot

theorem takes_iff (s : State) (L : Lead) (e : SceneEntry) : takes s L e = true ↔
    (s.voice e.voice).owner ≠ some L ∧ (s.voice e.voice).state = .off ∧ s.isLeadSlot e.part.slot = false := by
  simp only [takes, Bool.and_eq_true, decide_eq_true_eq, Bool.not_eq_true', and_assoc]

/-- What a scene writes at a voice that takes its entry. -/
def takenBy (s : State) (L : Lead) (r : Scene) (v : VoiceId) : Written :=
  match r.entryFor v with
  | none => (s.voice v, false)
  | some e => (assigned L e.part (s.voice v), true)

/-- The voices that take their entries of a list. -/
def takers (s : State) (L : Lead) (es : List SceneEntry) : List VoiceId :=
  (es.filter (takes s L)).map SceneEntry.voice

theorem entryFor_eq_none {r : Scene} {v : VoiceId} : r.entryFor v = none ↔ ∀ e ∈ r.entries, e.voice ≠ v := by
  simp [Scene.entryFor, List.find?_eq_none]

theorem find_of_distinct : ∀ {es : List SceneEntry} {e : SceneEntry},
    (es.Pairwise fun a b => a.voice ≠ b.voice) → e ∈ es → es.find? (fun x => x.voice == e.voice) = some e
  | x :: es, e, h, he => by
    obtain ⟨hx, hes⟩ := List.pairwise_cons.1 h
    obtain rfl | he := List.mem_cons.1 he
    · simp
    · have hne : (x.voice == e.voice) = false := by simpa using hx e he
      rw [List.find?_cons, hne]
      exact find_of_distinct hes he

theorem entryFor_of_distinct {r : Scene} (h : distinctVoices r.entries = true) {e : SceneEntry} (he : e ∈ r.entries) :
    r.entryFor e.voice = some e :=
  find_of_distinct ((distinctVoices_iff _).1 h) he

theorem takeEntry_owned {s : State} {L : Lead} {e : SceneEntry} (h : (s.voice e.voice).owner = some L)
    (acc : State × Nat) : takeEntry L (ownedVoices s L) acc e = acc :=
  if_pos ((mem_ownedVoices ..).2 h)

theorem takeEntry_other {e : SceneEntry} (h : (s.voice e.voice).owner ≠ some L) (hu : u.voice e.voice = s.voice e.voice)
    (hreach : Reaching L n s u) (k : Nat) : takeEntry L (ownedVoices s L) (u, k) e =
      if takes s L e = true then (placed true e.voice (assigned L e.part (s.voice e.voice)) u, k) else (u, k + 1) := by
  have hout : e.voice ∉ ownedVoices s L := fun hin => h ((mem_ownedVoices ..).1 hin)
  unfold takeEntry
  rw [if_neg hout]
  simp only [hreach.isLeadSlot, hu, takes_iff]
  by_cases hoff : (s.voice e.voice).state = .off ∧ s.isLeadSlot e.part.slot = false
  · rw [if_pos hoff, if_pos ⟨h, hoff⟩, assignVoice_off (by rw [hu]; exact hoff.1), hu]
  · rw [if_neg hoff, if_neg fun hall => hoff hall.2]

/-- The third step: the writes, and the count of entries skipped. -/
theorem takeAll_writes : ∀ (es : List SceneEntry) {u : State} (k : Nat), Reaching L n s u →
    (es.Pairwise fun a b => a.voice ≠ b.voice) → (∀ e ∈ es, r.entryFor e.voice = some e) →
    (∀ e ∈ es, (s.voice e.voice).owner ≠ some L → u.voice e.voice = s.voice e.voice) →
    let t := es.foldl (takeEntry L (ownedVoices s L)) (u, k)
    WroteAll (takers s L es) (takenBy s L r) u t.1 ∧ SameSide u t.1
      ∧ (t.2 = 0 ↔ k = 0 ∧ ∀ e ∈ es, (s.voice e.voice).owner = some L ∨ takes s L e = true)
  | [], u, k, _, _, _, _ => ⟨WroteAll.nil _ _, SameSide.refl u, by simp⟩
  | e :: es, u, k, h, hdistinct, hentry, hsame => by
    obtain ⟨hfirst, hdistinct⟩ := List.pairwise_cons.1 hdistinct
    have hentry' := fun x hx => hentry x (List.mem_cons_of_mem _ hx)
    have hsame' := fun x hx => hsame x (List.mem_cons_of_mem _ hx)
    intro t
    have ht : t = es.foldl (takeEntry L (ownedVoices s L)) (takeEntry L (ownedVoices s L) (u, k) e) := rfl
    by_cases howner : (s.voice e.voice).owner = some L
    · have hno : ¬takes s L e = true := fun hyes => ((takes_iff ..).1 hyes).1 howner
      rw [ht, takeEntry_owned howner]
      obtain ⟨hwrote, hside, hcount⟩ := takeAll_writes es k h hdistinct hentry' hsame'
      refine ⟨?_, hside, ?_⟩
      · rw [takers, List.filter_cons_of_neg hno]
        exact hwrote
      · rw [hcount]
        simp [howner]
    · have hu := hsame e List.mem_cons_self howner
      rw [ht, takeEntry_other howner hu h]
      by_cases hyes : takes s L e = true
      · rw [if_pos hyes]
        let next := placed true e.voice (assigned L e.part (s.voice e.voice)) u
        have hwrite : takenBy s L r e.voice = (assigned L e.part (s.voice e.voice), true) := by
          unfold takenBy
          rw [hentry e List.mem_cons_self]
        have hone : WroteAll [e.voice] (takenBy s L r) u next := by
          have hplaced := wroteAll_placed e.voice (takenBy s L r) u
          rw [hwrite] at hplaced
          exact hplaced
        have hout : e.voice ∉ takers s L es := by
          intro hin
          obtain ⟨x, hx, heq⟩ := List.mem_map.1 hin
          exact hfirst x (List.mem_of_mem_filter hx) heq.symm
        obtain ⟨hwrote, hside, hcount⟩ := takeAll_writes es (u := next) k (h.trans (placed_onlyVoices ..)) hdistinct hentry'
          (fun x hx hx' => by
            rw [hone.voice, if_neg (by rw [List.mem_singleton]; exact (hfirst x hx).symm)]
            exact hsame' x hx hx')
        refine ⟨?_, (placed_sameSide ..).trans hside, ?_⟩
        · rw [takers, List.filter_cons_of_pos hyes]
          exact hone.cons hout hwrote
        · rw [hcount]
          simp [hyes]
      · rw [if_neg hyes]
        obtain ⟨hwrote, hside, hcount⟩ := takeAll_writes es (k + 1) h hdistinct hentry' hsame'
        refine ⟨?_, hside, ?_⟩
        · rw [takers, List.filter_cons_of_neg hyes]
          exact hwrote
        · rw [hcount]
          simp [hyes, howner]

end

/-! ### The steps together -/

theorem mem_takers {s : State} {L : Lead} {es : List SceneEntry} {v : VoiceId} :
    v ∈ takers s L es ↔ ∃ e ∈ es, takes s L e = true ∧ e.voice = v := by
  simp [takers, List.mem_map, List.mem_filter, and_assoc]

/-- The state behind the three steps, before an ENTRY_SKIPPED of their count, and that count. -/
def stepsTaken (L : Lead) (n : Fin 32) (s : State) : State × Nat :=
  s.scenes[n].entries.foldl (takeEntry L (ownedVoices s L))
    ((ownedVoices s L).foldl (reachOwned s.scenes[n]) (withScene L n s, 0))

theorem applySteps_eq (L : Lead) (n : Fin 32) (s : State) : applySteps L n s =
    if (stepsTaken L n s).2 = 0 then (stepsTaken L n s).1
    else raise .entrySkipped (.lead L) (stepsTaken L n s).1 := rfl

theorem clashesBy_iff {s : State} {L : Lead} {n : Fin 32} (hdistinct : distinctVoices s.scenes[n].entries = true) :
    ClashesAtZero L n s ↔ ∃ v ∈ ownedVoices s L, clashesBy s s.scenes[n] v = true := by
  have hsings (x : Voice) (taken : Bool) : clashes taken x = true ↔
      (x.state = .rising ∨ x.state = .sounding) ∧ x.envelope = 0 ∧ taken = true := by
    unfold clashes
    cases x.state <;> simp
  constructor
  · rintro ⟨e, he, howner, hstate, henv, htaken⟩
    refine ⟨e.voice, (mem_ownedVoices ..).2 howner, ?_⟩
    unfold clashesBy
    rw [entryFor_of_distinct hdistinct he]
    exact (hsings ..).2 ⟨hstate, henv, htaken⟩
  · rintro ⟨v, hv, hclash⟩
    unfold clashesBy at hclash
    split at hclash
    · exact nomatch hclash
    next e he =>
      have hmem : e ∈ s.scenes[n].entries := List.mem_of_find?_eq_some he
      have hvoice : e.voice = v := by simpa using List.find?_some he
      subst hvoice
      obtain ⟨hstate, henv, htaken⟩ := (hsings ..).1 hclash
      exact ⟨e, hmem, (mem_ownedVoices ..).1 hv, hstate, henv, htaken⟩

theorem skipsEntry_iff {s : State} {L : Lead} {n : Fin 32} (hdistinct : distinctVoices s.scenes[n].entries = true) :
    ¬SkipsEntry L n s ↔ (∀ v ∈ ownedVoices s L, skipsBy s s.scenes[n] v = false)
      ∧ ∀ e ∈ s.scenes[n].entries, (s.voice e.voice).owner = some L ∨ takes s L e = true := by
  have hatOnce (x : Voice) : x.takesAtOnce = true ↔ x.state = .idle ∨ x.state = .muted := by
    unfold Voice.takesAtOnce
    cases x.state <;> simp
  constructor
  · intro hno
    refine ⟨fun v hv => ?_, fun e he => ?_⟩
    · by_contra hskip
      have hskip : skipsBy s s.scenes[n] v = true := by simpa using hskip
      unfold skipsBy at hskip
      split at hskip
      · exact nomatch hskip
      next e he =>
        have hmem : e ∈ s.scenes[n].entries := List.mem_of_find?_eq_some he
        have hvoice : e.voice = v := by simpa using List.find?_some he
        subst hvoice
        obtain ⟨honce, htaken⟩ := Bool.and_eq_true_iff.1 hskip
        exact hno ⟨e, hmem, .inr ⟨(mem_ownedVoices ..).1 hv, (hatOnce _).1 honce, htaken⟩⟩
    · by_contra hneither
      obtain ⟨howner, htakes⟩ := not_or.1 hneither
      refine hno ⟨e, he, .inl ⟨howner, ?_⟩⟩
      by_contra hboth
      obtain ⟨hoff, hfree⟩ := not_or.1 hboth
      exact htakes ((takes_iff ..).2 ⟨howner, not_not.1 hoff, by simpa using hfree⟩)
  · rintro ⟨howned, hothers⟩ ⟨e, he, ⟨howner, hblocked⟩ | ⟨howner, hstate, htaken⟩⟩
    · obtain h | h := hothers e he
      · exact howner h
      · obtain ⟨-, hoff, hfree⟩ := (takes_iff ..).1 h
        obtain h | h := hblocked
        · exact h hoff
        · exact nomatch hfree.symm.trans h
    · have hskip := howned e.voice ((mem_ownedVoices ..).2 howner)
      unfold skipsBy at hskip
      rw [entryFor_of_distinct hdistinct he] at hskip
      simp only [(hatOnce _).2 hstate, htaken, Bool.and_self] at hskip
      exact nomatch hskip

/-- The three steps of a scene of distinct voices, while slot clashes mute none: the writes, and whether an entry was
skipped. -/
theorem stepsTaken_quiet {L : Lead} {n : Fin 32} {s : State} (hdistinct : distinctVoices s.scenes[n].entries = true)
    (hquiet : ¬ClashesAtZero L n s ∨ ¬SkipMutes s) :
    ∃ mid, WroteAll (ownedVoices s L) (reachedBy s s.scenes[n]) s mid
      ∧ WroteAll (takers s L s.scenes[n].entries) (takenBy s L s.scenes[n]) mid (stepsTaken L n s).1
      ∧ (¬SkipMutes s → ¬SkipMutes (stepsTaken L n s).1)
      ∧ (¬ClashesAtZero L n s → SameSide s (stepsTaken L n s).1)
      ∧ ((stepsTaken L n s).2 = 0 ↔ ¬SkipsEntry L n s) := by
  have hclash := clashesBy_iff (L := L) hdistinct
  have hskips := skipsEntry_iff (L := L) hdistinct
  have hnone (h : ¬ClashesAtZero L n s) : ∀ v ∈ ownedVoices s L, clashesBy s s.scenes[n] v = false := fun v hv => by
    cases hv' : clashesBy s s.scenes[n] v with
    | false => rfl
    | true => exact absurd (hclash.2 ⟨v, hv, hv'⟩) h
  have hside := withScene_sameSide L n s
  have hmutes : ¬SkipMutes s → ¬SkipMutes (withScene L n s) := by
    intro h
    unfold SkipMutes
    rw [hside.fault]
    exact h
  unfold stepsTaken
  generalize hr : s.scenes[n] = r at *
  obtain ⟨hreach, hmutes', hside', hcount⟩ := reachAll_quiet (L := L) (n := n) (s := s) hr (ownedVoices s L)
    (u := withScene L n s) 0 (OnlyVoices.refl _) (ownedVoices_nodup s L)
    (fun v hv => ⟨withScene_voice .., (mem_ownedVoices ..).1 hv⟩) (hquiet.imp hnone hmutes)
  let mid := (ownedVoices s L).foldl (reachOwned r) (withScene L n s, 0)
  have hmid : Reaching L n s mid.1 := reachAll_onlyVoices r (ownedVoices s L) (withScene L n s, 0)
  have hother : ∀ e ∈ r.entries, (s.voice e.voice).owner ≠ some L → mid.1.voice e.voice = s.voice e.voice := by
    intro e _ howner
    rw [hreach.voice, if_neg fun hin => howner ((mem_ownedVoices ..).1 hin), withScene_voice]
  obtain ⟨htake, hside'', hcount'⟩ := takeAll_writes (L := L) (n := n) (s := s) (r := r) r.entries mid.2 hmid
    ((distinctVoices_iff _).1 hdistinct) (fun e he => entryFor_of_distinct hdistinct he) hother
  refine ⟨mid.1, ⟨fun w => ?_, fun M w => ?_⟩, htake, fun h => ?_, fun h => ?_, ?_⟩
  · rw [hreach.voice, withScene_voice]
  · rw [hreach.frozen, withScene_frozen]
  · unfold SkipMutes
    rw [hside''.fault]
    exact hmutes' (hmutes h)
  · exact hside.trans ((hside' (hnone h)).trans hside'')
  · rw [hcount', hcount, hskips, and_assoc]
    simp

end Sys2Proof.Proofs.SceneApplication
end

