-- ==== Sys2Proof/Proofs/SceneVoicesTold.lean ====
section
/-! PROOF. What a scene makes of each voice by owner, listing and state (R116, R117), with mutes by ENTRY_SKIPPED
(R118), and the effect of the other cues (R75, R84, R85, R120, R121, R125; O23). -/

namespace Sys2Proof.Proofs.SceneVoicesTold

open Sys2Proof Sys2Proof.Machine Sys2Proof.Safety Sys2Proof.Proofs.VoiceLaws Sys2Proof.Proofs.VoiceRequests
  Sys2Proof.Proofs.VoiceFrame Sys2Proof.Proofs.FaultSide Sys2Proof.Proofs.SceneRecords Sys2Proof.Proofs.Harmony
  Sys2Proof.Proofs.Occurrences Sys2Proof.Proofs.SceneApplication

section
variable {L : Lead} {n : Fin 32} {s mid t : State}

/-- What the steps of a scene leave at a voice the lead owned. -/
theorem owned_written (hreach : WroteAll (ownedVoices s L) (reachedBy s s.scenes[n]) s mid)
    (htake : WroteAll (takers s L s.scenes[n].entries) (takenBy s L s.scenes[n]) mid t) {v : VoiceId}
    (howner : (s.voice v).owner = some L) {y : Written} (hy : reachedBy s s.scenes[n] v = y) :
    t.voice v = y.1 ∧ (y.2 = true → ∀ M, (t.lead M).frozen[v] = none)
      ∧ (y.2 = false → ∀ M, (t.lead M).frozen[v] = (s.lead M).frozen[v]) := by
  have hin : v ∈ ownedVoices s L := (mem_ownedVoices ..).2 howner
  have hout : v ∉ takers s L s.scenes[n].entries := fun h => by
    obtain ⟨e, -, htakes, rfl⟩ := mem_takers.1 h
    exact ((takes_iff ..).1 htakes).1 howner
  refine ⟨?_, fun hc M => ?_, fun hc M => ?_⟩
  · rw [htake.voice, if_neg hout, hreach.voice, if_pos hin, hy]
  · rw [htake.frozen, if_neg fun h => hout h.1, hreach.frozen, if_pos ⟨hin, hy ▸ hc⟩]
  · rw [htake.frozen, if_neg fun h => hout h.1, hreach.frozen, if_neg fun h => by
      rw [hy, hc] at h
      exact nomatch h.2]

/-- What the steps of a scene leave at a voice the lead did not own. -/
theorem other_written (hreach : WroteAll (ownedVoices s L) (reachedBy s s.scenes[n]) s mid)
    (htake : WroteAll (takers s L s.scenes[n].entries) (takenBy s L s.scenes[n]) mid t) {v : VoiceId}
    (howner : (s.voice v).owner ≠ some L) :
    (v ∉ takers s L s.scenes[n].entries →
      t.voice v = s.voice v ∧ ∀ M, (t.lead M).frozen[v] = (s.lead M).frozen[v])
    ∧ ∀ {e : SceneEntry}, s.scenes[n].entryFor v = some e → v ∈ takers s L s.scenes[n].entries →
      t.voice v = assigned L e.part (s.voice v) ∧ ∀ M, (t.lead M).frozen[v] = none := by
  have hout : v ∉ ownedVoices s L := fun h => howner ((mem_ownedVoices ..).1 h)
  refine ⟨fun hno => ⟨?_, fun M => ?_⟩, fun {e} he hin => ?_⟩
  · rw [htake.voice, if_neg hno, hreach.voice, if_neg hout]
  · rw [htake.frozen, if_neg fun h => hno h.1, hreach.frozen, if_neg fun h => hout h.1]
  · have hwrite : takenBy s L s.scenes[n] v = (assigned L e.part (s.voice v), true) := by
      unfold takenBy
      rw [he]
    exact ⟨by rw [htake.voice, if_pos hin, hwrite], fun M => by
      rw [htake.frozen, if_pos ⟨hin, by rw [hwrite]⟩]⟩

theorem releasedByScene_of_writes (hreach : WroteAll (ownedVoices s L) (reachedBy s s.scenes[n]) s mid)
    (htake : WroteAll (takers s L s.scenes[n].entries) (takenBy s L s.scenes[n]) mid t) :
    ReleasedByScene L n s t := by
  intro v howner hunlisted
  have hreached : reachedBy s s.scenes[n] v = released (4096 / s.scenes[n].fade) (s.voice v) := by
    unfold reachedBy
    rw [entryFor_eq_none.2 hunlisted]
  intro x inc fresh same
  have told {y : Written} (hy : released inc x = y) := owned_written hreach htake howner (hreached.trans hy)
  refine ⟨fun h => ?_, fun h => ⟨fun henv => ?_, fun henv => ?_⟩, fun h => ?_⟩
  · have hy : released inc x = (x.goneOff, true) := by
      unfold released
      obtain h | h := h <;> rw [h]
    obtain ⟨hv, hf, -⟩ := told hy
    exact ⟨hv, hf rfl⟩
  · obtain ⟨hv, -, hs⟩ := told ((released_sings h inc).trans (if_neg henv))
    exact ⟨hs rfl, hv⟩
  · obtain ⟨hv, hf, -⟩ := told ((released_sings h inc).trans (if_pos henv))
    exact ⟨hv, hf rfl⟩
  · have hy : released inc x =
        ({ x with dest := if x.faults = [] then .off else x.dest, releaseMark := true, pendingPart := none }, false) := by
      unfold released
      rw [h]
    obtain ⟨hv, -, hs⟩ := told hy
    exact ⟨hs rfl, hv⟩

/-- A voice that takes its entry, as the statement writes it (R93). -/
theorem taking_eq (slotTaken : Bool) (p : Assignment) (x : Voice) : taking slotTaken p x =
    if slotTaken = true then goneRecord x
    else { x with state := if x.faults = [] then .idle else .muted, part := some p, pendingPart := none } := by
  unfold taking
  split
  · rfl
  · cases hx : x.faults with
    | nil => simp [Voice.tookPart, hx]
    | cons k ks => simp [Voice.tookPart, hx]

theorem reassignedByScene_of_writes (hdistinct : distinctVoices s.scenes[n].entries = true)
    (hreach : WroteAll (ownedVoices s L) (reachedBy s s.scenes[n]) s mid)
    (htake : WroteAll (takers s L s.scenes[n].entries) (takenBy s L s.scenes[n]) mid t) :
    ReassignedByScene L n s t := by
  intro e he howner
  have hreached : reachedBy s s.scenes[n] e.voice =
      reassigned (s.isLeadSlot e.part.slot) (4096 / s.scenes[n].fade) e.part (s.voice e.voice) := by
    unfold reachedBy
    rw [entryFor_of_distinct hdistinct he]
  intro x inc fresh same taken
  have told {y : Written} (hy : reassigned (s.isLeadSlot e.part.slot) inc e.part x = y) :=
    owned_written hreach htake howner (hreached.trans hy)
  refine ⟨fun h => ?_, fun h => ⟨fun henv => ?_, fun henv => ?_⟩, fun h => ?_⟩
  · have hy : reassigned (s.isLeadSlot e.part.slot) inc e.part x = (taking (s.isLeadSlot e.part.slot) e.part x, true) := by
      unfold reassigned
      obtain h | h := h <;> rw [h]
    obtain ⟨hv, hf, -⟩ := told hy
    exact ⟨hv.trans (taking_eq ..), hf rfl⟩
  · obtain ⟨hv, -, hs⟩ := told ((reassigned_sings h ..).trans (if_neg henv))
    exact ⟨hs rfl, hv⟩
  · obtain ⟨hv, hf, -⟩ := told ((reassigned_sings h ..).trans (if_pos henv))
    exact ⟨hf rfl, hv.trans (taking_eq ..)⟩
  · have hy : reassigned (s.isLeadSlot e.part.slot) inc e.part x =
        ({ x with dest := if x.faults = [] then .reassign else x.dest, releaseMark := false
                  pendingPart := some e.part }, false) := by
      unfold reassigned
      rw [h]
    obtain ⟨hv, -, hs⟩ := told hy
    exact ⟨hs rfl, hv⟩

theorem assignedByScene_of_writes (hdistinct : distinctVoices s.scenes[n].entries = true)
    (hreach : WroteAll (ownedVoices s L) (reachedBy s s.scenes[n]) s mid)
    (htake : WroteAll (takers s L s.scenes[n].entries) (takenBy s L s.scenes[n]) mid t) :
    AssignedByScene L n s t := by
  intro v howner x
  obtain ⟨hkept, htaken⟩ := other_written hreach htake howner
  refine ⟨fun e he hvoice hoff hfree => ?_, fun hblocked => ?_⟩
  · subst hvoice
    obtain ⟨hv, hf⟩ := htaken (entryFor_of_distinct hdistinct he)
      (mem_takers.2 ⟨e, he, (takes_iff ..).2 ⟨howner, hoff, hfree⟩, rfl⟩)
    exact ⟨hf, hv⟩
  · have hno : v ∉ takers s L s.scenes[n].entries := fun h => by
      obtain ⟨e, he, htakes, rfl⟩ := mem_takers.1 h
      obtain ⟨-, hoff, hfree⟩ := (takes_iff ..).1 htakes
      obtain h | h := hblocked e he rfl
      · exact h hoff
      · exact nomatch hfree.symm.trans h
    obtain ⟨hv, hf⟩ := hkept hno
    exact ⟨hf, hv⟩

theorem sceneVoices_congr (hvoices : t.voices = mid.voices)
    (hfrozen : ∀ M, (t.lead M).frozen = (mid.lead M).frozen) (h : SceneVoices L n s mid) : SceneVoices L n s t := by
  have hv (v : VoiceId) : t.voice v = mid.voice v := congrArg (·[v]) hvoices
  unfold SceneVoices ReleasedByScene ReassignedByScene AssignedByScene at *
  simp only [hv, hfrozen]
  exact h

end

/-! ### The whole application of a scene of distinct voices -/

theorem setTransition_voices (L : Lead) (level : Nat) (k : TransitionKind) (s : State) :
    (startTransition L level k s).voices = s.voices := State.setLead_voices ..

theorem setTransition_frozen (L M : Lead) (level : Nat) (k : TransitionKind) (s : State) :
    ((startTransition L level k s).lead M).frozen = (s.lead M).frozen := by
  cases L <;> cases M <;> rfl

theorem setTransition_sameSide (L : Lead) (level : Nat) (k : TransitionKind) (s : State) :
    SameSide s (startTransition L level k s) := by
  cases L <;> exact ⟨rfl, rfl, rfl, rfl, rfl, rfl⟩

/-- A scene's steps as writes (R115 to R118), while slot clashes mute none. -/
theorem steps_sceneVoices {L : Lead} {n : Fin 32} {s : State} (hdistinct : distinctVoices s.scenes[n].entries = true)
    (hquiet : ¬ClashesAtZero L n s ∨ ¬SkipMutes s) : SceneVoices L n s (stepsTaken L n s).1 := by
  obtain ⟨mid, hreach, htake, -⟩ := stepsTaken_quiet (L := L) hdistinct hquiet
  exact ⟨releasedByScene_of_writes hreach htake, reassignedByScene_of_writes hdistinct hreach htake,
    assignedByScene_of_writes hdistinct hreach htake⟩

theorem applyScene_eq (L : Lead) (n : Fin 32) (prio : Nat) (s : State) :
    applyScene L n prio s = startTransition L prio (.scene n)
      (if (stepsTaken L n s).2 = 0 then (stepsTaken L n s).1
        else raise .entrySkipped (.lead L) (stepsTaken L n s).1) := rfl

theorem applyScene_sceneVoices {L : Lead} {n : Fin 32} {s : State}
    (hdistinct : distinctVoices s.scenes[n].entries = true) (prio : Nat)
    (h : ¬SkipMutes s ∨ (¬SkipsEntry L n s ∧ ¬ClashesAtZero L n s)) :
    SceneVoices L n s (applyScene L n prio s) := by
  have hquiet : ¬ClashesAtZero L n s ∨ ¬SkipMutes s := h.elim .inr fun hno => .inl hno.2
  have hsteps := steps_sceneVoices (L := L) hdistinct hquiet
  obtain ⟨mid, -, -, hmutes, -, hcount⟩ := stepsTaken_quiet (L := L) hdistinct hquiet
  rw [applyScene_eq]
  refine sceneVoices_congr (setTransition_voices ..) (fun M => setTransition_frozen ..) ?_
  split
  · exact hsteps
  next hskip =>
    have hno : ¬SkipMutes s := h.resolve_right fun hno => hskip (hcount.2 hno.1)
    exact sceneVoices_congr (raise_voices_of_not_mutes (hmutes hno) _)
      (fun M => by rw [(raise_onlyFaults ..).lead]) hsteps

/-- Where no entry is skipped nothing is raised (R118). -/
theorem applyScene_unskipped {L : Lead} {n : Fin 32} {s : State}
    (hdistinct : distinctVoices s.scenes[n].entries = true) (prio : Nat)
    (hskips : ¬SkipsEntry L n s) (hclash : ¬ClashesAtZero L n s) : SameSide s (applyScene L n prio s) := by
  obtain ⟨mid, -, -, -, hside, hcount⟩ := stepsTaken_quiet (L := L) hdistinct (.inl hclash)
  rw [applyScene_eq, if_pos (hcount.2 hskips)]
  exact (hside hclash).trans (setTransition_sameSide ..)

/-- An entry skipped raises ENTRY_SKIPPED once (R118). -/
theorem applyScene_skipped {L : Lead} {n : Fin 32} {s : State}
    (hdistinct : distinctVoices s.scenes[n].entries = true) (prio : Nat)
    (hskips : SkipsEntry L n s) (hclash : ¬ClashesAtZero L n s) :
    SameSide (raise .entrySkipped (.lead L) s) (applyScene L n prio s)
      ∧ (SkipMutes s → ∃ q, SceneVoices L n s q ∧ ∀ v, (applyScene L n prio s).voice v =
        if (q.voice v).owner = some L then (q.voice v).mutedBy .entrySkipped (4096 / s.scenes[n].fade)
        else q.voice v) := by
  obtain ⟨mid, -, -, -, hside, hcount⟩ := stepsTaken_quiet (L := L) hdistinct (.inl hclash)
  have hsteps := steps_sceneVoices (L := L) hdistinct (.inl hclash)
  have hsame := hside hclash
  have hne : ¬(stepsTaken L n s).2 = 0 := fun h => hcount.1 h hskips
  have hreach : OnlyVoices (withScene L n s) (stepsTaken L n s).1 :=
    (reachAll_onlyVoices s.scenes[n] (ownedVoices s L) (withScene L n s, 0)).trans (takeAll_onlyVoices L _ _ _)
  rw [applyScene_eq, if_neg hne]
  refine ⟨(raise_sameSide hsame .entrySkipped (.lead L)).trans (setTransition_sameSide ..),
    fun ⟨hmask, hclear, hsev⟩ => ⟨(stepsTaken L n s).1, hsteps, fun v => ?_⟩⟩
  have hinc : rampIncrement (stepsTaken L n s).1 (some L) = 4096 / s.scenes[n].fade :=
    Reaching.rampIncrement hreach rfl
  have hvoice : (startTransition L prio (.scene n) (raise .entrySkipped (.lead L) (stepsTaken L n s).1)).voice v
      = (raise .entrySkipped (.lead L) (stepsTaken L n s).1).voice v :=
    congrArg (·[v]) (setTransition_voices ..)
  rw [hvoice, raise_lead_mutes (by rw [hsame.fault]; exact hmask) (by rw [hsame.fault]; exact hclear)
    (by rw [hsame.fault]; exact hsev), hinc]

end Sys2Proof.Proofs.SceneVoicesTold
end

