-- ==== Sys2Proof/Proofs/ScenesAndCues.lean ====
section
/-! PROOF. A scene's application under any mute of its ENTRY_SKIPPED, and the effect of the other cues (R75, R84,
R85, R115 to R122, R125; O23). -/

namespace Sys2Proof.Proofs.ScenesAndCues

open Sys2Proof Sys2Proof.Machine Sys2Proof.Safety Sys2Proof.Proofs.VoiceLaws Sys2Proof.Proofs.VoiceRequests
  Sys2Proof.Proofs.VoiceFrame Sys2Proof.Proofs.FaultSide Sys2Proof.Proofs.SceneRecords Sys2Proof.Proofs.Harmony
  Sys2Proof.Proofs.Occurrences Sys2Proof.Proofs.SceneApplication Sys2Proof.Proofs.SceneVoicesTold

/-! ### What a mute by ENTRY_SKIPPED keeps -/

/-- A property of a voice that a mute by ENTRY_SKIPPED keeps. -/
def MuteClosed (P : Voice → Prop) : Prop := ∀ (x : Voice) (inc : Nat), P x → P (x.mutedBy .entrySkipped inc)

theorem raiseSkipped_closed {P : Voice → Prop} (hP : MuteClosed P) (o : Option Lead) {s : State} {v : VoiceId}
    (h : P (s.voice v)) : P ((raiseSkipped o s).voice v) := by
  cases o with
  | none => exact h
  | some L =>
    obtain heq | ⟨-, inc, heq⟩ := raise_lead_voice .entrySkipped L s v
    · exact heq.symm ▸ h
    · exact heq.symm ▸ hP _ inc h

theorem reachOwned_other {P : Voice → Prop} (hP : MuteClosed P) (r : Scene) {u : State} (k : Nat) {v w : VoiceId}
    (hne : w ≠ v) (h : P (u.voice w)) : P ((reachOwned r (u, k) v).1.voice w) := by
  unfold reachOwned
  split
  · show P ((releaseVoice v u).voice w)
    rw [releaseVoice_eq, placed_voice_ne hne]
    exact h
  next e _ =>
    show P ((reassignVoice v e.part u).voice w)
    rw [reassignVoice_eq]
    refine raiseSkipped_closed hP _ ?_
    rw [placed_voice_ne hne]
    exact h

theorem reachAll_other {P : Voice → Prop} (hP : MuteClosed P) (r : Scene) {w : VoiceId} :
    ∀ (vs : List VoiceId) (acc : State × Nat), w ∉ vs → P (acc.1.voice w) →
      P ((vs.foldl (reachOwned r) acc).1.voice w)
  | [], _, _, h => h
  | v :: vs, acc, hw, h => by
    obtain ⟨hne, hw⟩ := not_or.1 (mt List.mem_cons.2 hw)
    exact reachAll_other hP r vs _ hw (reachOwned_other hP r acc.2 hne h)

/-- What the second step makes of one voice the lead owns, whatever mutes come before and behind. -/
theorem reachAll_at {P Q : Voice → Prop} (hP : MuteClosed P) (hQ : MuteClosed Q) {r : Scene} {w : VoiceId}
    (hstep : ∀ (u : State) (k : Nat), P (u.voice w) → Q ((reachOwned r (u, k) w).1.voice w)) :
    ∀ (vs : List VoiceId) (acc : State × Nat), vs.Nodup → w ∈ vs → P (acc.1.voice w) →
      Q ((vs.foldl (reachOwned r) acc).1.voice w)
  | [], _, _, hw, _ => absurd hw List.not_mem_nil
  | v :: vs, acc, hnodup, hw, h => by
    obtain ⟨hout, hnodup⟩ := List.nodup_cons.1 hnodup
    by_cases e : w = v
    · subst e
      exact reachAll_other hQ r vs _ hout (hstep acc.1 acc.2 h)
    · exact reachAll_at hP hQ hstep vs _ hnodup ((List.mem_cons.1 hw).resolve_left e)
        (reachOwned_other hP r acc.2 e h)

theorem takeEntry_voice_ne {L : Lead} {owned : List VoiceId} {acc : State × Nat} {e : SceneEntry} {w : VoiceId}
    (h : e.voice ≠ w) : (takeEntry L owned acc e).1.voice w = acc.1.voice w := by
  unfold takeEntry
  split
  · rfl
  · split
    next hoff => rw [assignVoice_off hoff.1, placed_voice_ne (Ne.symm h)]
    · rfl

theorem takeAll_voice_ne {L : Lead} {owned : List VoiceId} {w : VoiceId} :
    ∀ (es : List SceneEntry) (acc : State × Nat), (∀ e ∈ es, e.voice ≠ w ∨ w ∈ owned) →
      (es.foldl (takeEntry L owned) acc).1.voice w = acc.1.voice w
  | [], _, _ => rfl
  | e :: es, acc, h => by
    rw [List.foldl_cons, takeAll_voice_ne es _ fun x hx => h x (List.mem_cons_of_mem _ hx)]
    obtain hne | hin := h e List.mem_cons_self
    · exact takeEntry_voice_ne hne
    · by_cases hne : e.voice = w
      · unfold takeEntry
        rw [if_pos (hne ▸ hin)]
      · exact takeEntry_voice_ne hne

/-- What follows the steps keeps what a mute keeps. -/
theorem applyScene_closed {P : Voice → Prop} (hP : MuteClosed P) {L : Lead} {n : Fin 32} {s : State} {v : VoiceId}
    (h : P ((stepsTaken L n s).1.voice v)) (prio : Nat) : P ((applyScene L n prio s).voice v) := by
  rw [applyScene_eq]
  have hvoice (u : State) : (startTransition L prio (.scene n) u).voice v = u.voice v :=
    congrArg (·[v]) (setTransition_voices ..)
  rw [hvoice]
  split
  · exact h
  · exact raiseSkipped_closed hP (some L) h

/-- A voice the lead owned, behind a scene. -/
theorem applyScene_owned {P Q : Voice → Prop} (hP : MuteClosed P) (hQ : MuteClosed Q) {L : Lead} {n : Fin 32}
    {s : State} {v : VoiceId} (howner : (s.voice v).owner = some L) (hv : P (s.voice v))
    (hstep : ∀ (u : State) (k : Nat), P (u.voice v) → Q ((reachOwned s.scenes[n] (u, k) v).1.voice v)) (prio : Nat) :
    Q ((applyScene L n prio s).voice v) := by
  refine applyScene_closed hQ ?_ prio
  unfold stepsTaken
  rw [takeAll_voice_ne _ _ fun e _ => .inr ((mem_ownedVoices ..).2 howner)]
  exact reachAll_at hP hQ hstep _ _ (ownedVoices_nodup s L) ((mem_ownedVoices ..).2 howner)
    (by rw [withScene_voice]; exact hv)

theorem off_muteClosed : MuteClosed fun x => x.state = .off := fun x inc h => (Voice.mutedBy_state x _ inc).1.2 h

/-- An unlisted voice that stands goes OFF, whatever was muted before (R95, R96, R116). -/
theorem applyScene_standing {L : Lead} {n : Fin 32} {s : State} {v : VoiceId} (howner : (s.voice v).owner = some L)
    (hunlisted : ∀ e ∈ s.scenes[n].entries, e.voice ≠ v)
    (h : (s.voice v).state = .idle ∨ (s.voice v).state = .muted) (prio : Nat) :
    ((applyScene L n prio s).voice v).state = .off := by
  refine applyScene_owned (P := fun x => x.state = .idle ∨ x.state = .muted) (Q := fun x => x.state = .off)
    (fun x inc hx => ?_) off_muteClosed howner h (fun u k hu => ?_) prio
  · unfold Voice.mutedBy
    obtain hx | hx := hx <;> simp [hx]
  · unfold reachOwned
    rw [entryFor_eq_none.2 hunlisted]
    show ((releaseVoice v u).voice v).state = .off
    rw [releaseVoice_eq, placed_voice]
    unfold released
    obtain hu | hu := hu <;> rw [hu] <;> rfl

theorem released_falling {x : Voice} (h : x.state = .falling) (inc : Nat) : released inc x =
    ({ x with dest := if x.faults = [] then .off else x.dest, releaseMark := true, pendingPart := none }, false) := by
  unfold released
  rw [h]

/-- An unlisted voice that sings falls to OFF, whatever was muted before (R95, R96, R99, R116). -/
theorem applyScene_singing {L : Lead} {n : Fin 32} {s : State} {v : VoiceId} (howner : (s.voice v).owner = some L)
    (hunlisted : ∀ e ∈ s.scenes[n].entries, e.voice ≠ v)
    (h : (s.voice v).state = .rising ∨ (s.voice v).state = .sounding) (henv : (s.voice v).envelope ≠ 0) (prio : Nat) :
    ((applyScene L n prio s).voice v).state = .falling ∧ ((applyScene L n prio s).voice v).releaseMark = true := by
  refine applyScene_owned
    (P := fun x => (x.state = .rising ∨ x.state = .sounding ∨ x.state = .falling) ∧ x.envelope ≠ 0)
    (Q := fun x => x.state = .falling ∧ x.releaseMark = true)
    (fun x inc hx => ?_) (fun x inc hx => ?_) howner ⟨h.imp_right .inl, henv⟩ (fun u k hu => ?_) prio
  · obtain ⟨hstate, hx⟩ := hx
    unfold Voice.mutedBy
    obtain hstate | hstate | hstate := hstate <;> simp [hstate, hx]
  · obtain ⟨hstate, hmark⟩ := hx
    unfold Voice.mutedBy
    simp [hstate, hmark]
  · obtain ⟨hstate, hu⟩ := hu
    unfold reachOwned
    rw [entryFor_eq_none.2 hunlisted]
    show ((releaseVoice v u).voice v).state = .falling ∧ ((releaseVoice v u).voice v).releaseMark = true
    rw [releaseVoice_eq, placed_voice]
    obtain hstate | hstate | hstate := hstate
    · rw [released_sings (.inl hstate), if_neg hu]
      exact ⟨rfl, rfl⟩
    · rw [released_sings (.inr hstate), if_neg hu]
      exact ⟨rfl, rfl⟩
    · rw [released_falling hstate]
      exact ⟨hstate, rfl⟩

/-- A listed OFF voice takes its entry, whatever is muted (R92, R117). -/
theorem applyScene_assigns {L : Lead} {n : Fin 32} {s : State} {e : SceneEntry}
    (hdistinct : distinctVoices s.scenes[n].entries = true) (he : e ∈ s.scenes[n].entries)
    (hoff : (s.voice e.voice).state = .off) (howner : (s.voice e.voice).owner = none)
    (hfree : s.isLeadSlot e.part.slot = false) (prio : Nat) :
    ((applyScene L n prio s).voice e.voice).owner = some L
      ∧ ((applyScene L n prio s).voice e.voice).part = some e.part := by
  refine applyScene_closed (P := fun x => x.owner = some L ∧ x.part = some e.part) (fun x inc hx => ?_) ?_ prio
  · obtain ⟨ho, hp, -⟩ := Voice.mutedBy_keeps x .entrySkipped inc
    exact ⟨ho.trans hx.1, hp.trans hx.2⟩
  · have hout : e.voice ∉ ownedVoices s L := fun h => nomatch howner.symm.trans ((mem_ownedVoices ..).1 h)
    let acc := (ownedVoices s L).foldl (reachOwned s.scenes[n]) (withScene L n s, 0)
    have hacc : (acc.1.voice e.voice).state = .off :=
      reachAll_other off_muteClosed _ _ _ hout (by rw [withScene_voice]; exact hoff)
    have hreach : Reaching L n s acc.1 := reachAll_onlyVoices _ _ (withScene L n s, 0)
    obtain ⟨pre, post, hsplit⟩ := List.append_of_mem he
    have hpairs := (distinctVoices_iff _).1 hdistinct
    rw [hsplit, List.pairwise_append] at hpairs
    obtain ⟨-, hpost, hpre⟩ := hpairs
    obtain ⟨hpost, -⟩ := List.pairwise_cons.1 hpost
    have hfold : stepsTaken L n s = post.foldl (takeEntry L (ownedVoices s L))
        (takeEntry L (ownedVoices s L) (pre.foldl (takeEntry L (ownedVoices s L)) acc) e) := by
      unfold stepsTaken
      rw [hsplit, List.foldl_append, List.foldl_cons]
    let before := pre.foldl (takeEntry L (ownedVoices s L)) acc
    have hbefore : before.1.voice e.voice = acc.1.voice e.voice :=
      takeAll_voice_ne _ _ fun x hx => .inl (hpre x hx e List.mem_cons_self)
    have hslot : before.1.isLeadSlot e.part.slot = false :=
      (Reaching.isLeadSlot (hreach.trans (takeAll_onlyVoices L _ pre acc)) _).trans hfree
    have htaken : takeEntry L (ownedVoices s L) before e = (assignVoice e.voice L e.part before.1, before.2) := by
      unfold takeEntry
      rw [if_neg hout, if_pos ⟨by rw [hbefore]; exact hacc, hslot⟩]
    rw [hfold, takeAll_voice_ne _ _ fun x hx => .inl (hpost x hx).symm, htaken,
      assignVoice_off (by rw [hbefore]; exact hacc), placed_voice]
    exact ⟨rfl, rfl⟩

/-! ### A slot clash at envelope 0 -/

theorem raiseSkipped_statusGrows (o : Option Lead) (s : State) : StatusGrows s (raiseSkipped o s) := by
  cases o with
  | none => exact StatusGrows.refl s
  | some L => exact raise_statusGrows _ _ s

theorem reachOwned_statusGrows (r : Scene) (acc : State × Nat) (v : VoiceId) :
    StatusGrows acc.1 (reachOwned r acc v).1 := by
  have hplaced (clears : Bool) (y : Voice) : StatusGrows acc.1 (placed clears v y acc.1) :=
    StatusGrows.of_faults (placed_sameSide ..).faults
  unfold reachOwned
  split
  · show StatusGrows acc.1 (releaseVoice v acc.1)
    rw [releaseVoice_eq]
    exact hplaced _ _
  next e _ =>
    show StatusGrows acc.1 (reassignVoice v e.part acc.1)
    rw [reassignVoice_eq]
    exact StatusGrows.trans (hplaced _ _) (raiseSkipped_statusGrows _ _)

theorem reachAll_statusGrows (r : Scene) : ∀ (vs : List VoiceId) (acc : State × Nat),
    StatusGrows acc.1 (vs.foldl (reachOwned r) acc).1
  | [], acc => StatusGrows.refl acc.1
  | v :: vs, acc => (reachOwned_statusGrows r acc v).trans (reachAll_statusGrows r vs _)

theorem takeAll_faults (L : Lead) (owned : List VoiceId) : ∀ (es : List SceneEntry) (acc : State × Nat),
    (es.foldl (takeEntry L owned) acc).1.faults = acc.1.faults
  | [], _ => rfl
  | e :: es, acc => by
    rw [List.foldl_cons, takeAll_faults L owned es]
    unfold takeEntry
    split
    · rfl
    · split
      next hoff =>
        show (assignVoice e.voice L e.part acc.1).faults = _
        rw [assignVoice_off hoff.1]
        exact (placed_sameSide ..).faults
      · rfl

/-- While no slot clash has set ENTRY_SKIPPED, the voices still to be reached are as the scene found them. -/
theorem reachAll_clash {L : Lead} {n : Fin 32} {s : State} {r : Scene} (hr : s.scenes[n] = r) {w : VoiceId}
    (hclash : clashesBy s r w = true) :
    ∀ (vs : List VoiceId) {u : State} (k : Nat), Reaching L n s u → vs.Nodup → w ∈ vs →
      (∀ v ∈ vs, (s.voice v).owner = some L) → (u.fault .entrySkipped).detectMask = false →
      ((u.fault .entrySkipped).status = true ∨ ∀ v ∈ vs, u.voice v = s.voice v) →
      ((vs.foldl (reachOwned r) (u, k)).1.fault .entrySkipped).status = true
  | [], _, _, _, _, hw, _, _, _ => absurd hw List.not_mem_nil
  | v :: vs, u, k, h, hnodup, hw, howner, hmask, hstands => by
    have hgrows := reachAll_statusGrows r vs (reachOwned r (u, k) v)
    obtain ⟨hout, hnodup⟩ := List.nodup_cons.1 hnodup
    obtain ⟨hset, hmask', -⟩ := reachOwned_statusGrows r (u, k) v .entrySkipped
    obtain hset' | hstands := hstands
    · exact (hgrows .entrySkipped).1 (hset hset')
    · have hstep := reachOwned_at h hr (hstands v List.mem_cons_self) (howner v List.mem_cons_self) k
      cases hv : clashesBy s r v with
      | true =>
        refine (hgrows .entrySkipped).1 ?_
        rw [hstep, hv]
        refine raise_sets _ _ _ ?_
        rw [(placed_sameSide ..).fault]
        exact hmask
      | false =>
        have hne : w ≠ v := fun e => by
          rw [e, hv] at hclash
          exact nomatch hclash
        refine reachAll_clash hr hclash vs _ (reachOwned_reaching h r k v) hnodup ((List.mem_cons.1 hw).resolve_left hne)
          (fun x hx => howner x (List.mem_cons_of_mem _ hx)) (hmask'.trans hmask) (.inr fun x hx => ?_)
        have hxv : x ≠ v := by
          rintro rfl
          exact hout hx
        have hvoice : (reachOwned r (u, k) v).1.voice x = u.voice x := by
          rw [hstep, hv]
          exact placed_voice_ne hxv _ _ _
        exact hvoice.trans (hstands x (List.mem_cons_of_mem _ hx))

theorem applyScene_clash {L : Lead} {n : Fin 32} {s : State} (hdistinct : distinctVoices s.scenes[n].entries = true)
    (prio : Nat) (hclash : ClashesAtZero L n s) (hmask : (s.fault .entrySkipped).detectMask = false) :
    ((applyScene L n prio s).fault .entrySkipped).status = true := by
  obtain ⟨w, hw, hclash⟩ := (clashesBy_iff hdistinct).1 hclash
  have hreached := reachAll_clash (L := L) (n := n) (s := s) rfl hclash (ownedVoices s L) (u := withScene L n s) 0
    (OnlyVoices.refl _) (ownedVoices_nodup s L) hw (fun v hv => (mem_ownedVoices ..).1 hv)
    (by rw [(withScene_sameSide L n s).fault]; exact hmask) (.inr fun v _ => withScene_voice ..)
  have hsteps : ((stepsTaken L n s).1.fault .entrySkipped).status = true := by
    unfold stepsTaken State.fault
    rw [takeAll_faults]
    exact hreached
  rw [applyScene_eq, (setTransition_sameSide ..).fault]
  split
  · exact hsteps
  · exact (raise_statusGrows _ _ _ _).1 hsteps

/-! ### The frame of an application -/

theorem onlyVoices_eq {s t : State} (h : OnlyVoices s t) :
    t = { s with leadA := t.leadA, leadB := t.leadB, voices := t.voices, faults := t.faults
                 pointer := t.pointer, counters := t.counters, outq := t.outq } := by
  have h := h.rest
  cases s; cases t
  simp only [State.withoutVoices, State.withoutFaults, State.mk.injEq] at h ⊢
  simp [h]

theorem applyScene_frame (L : Lead) (n : Fin 32) (prio : Nat) (s : State) :
    let t := applyScene L n prio s
    t = { s with leadA := t.leadA, leadB := t.leadB, voices := t.voices, faults := t.faults
                 pointer := t.pointer, counters := t.counters, outq := t.outq } := by
  have hsteps := onlyVoices_eq (applySteps_onlyVoices L n s)
  intro t
  cases L with
  | a => exact congrArg (fun u : State => { u with leadA := t.leadA }) hsteps
  | b => exact congrArg (fun u : State => { u with leadB := t.leadB }) hsteps

theorem applyScene_lead (L : Lead) (n : Fin 32) (prio : Nat) (s : State) :
    (applyScene L n prio s).lead L = { s.lead L with
      scene := some n
      map := s.scenes[n].map.getD (s.lead L).map
      key := s.scenes[n].key.getD (s.lead L).key
      transition := some { level := prio, kind := .scene n }
      frozen := ((applyScene L n prio s).lead L).frozen } := by
  have hlead := (applySteps_onlyVoices L n s).lead_eq L
  rw [lead_setLead_same] at hlead
  have happly : (applyScene L n prio s).lead L = { (applySteps L n s).lead L with
      transition := some { level := prio, kind := .scene n } } := lead_setLead_same ..
  rw [happly, hlead]
  rfl

theorem applyScene_lead_ne {L M : Lead} (h : M ≠ L) (n : Fin 32) (prio : Nat) (s : State) :
    (applyScene L n prio s).lead M = { s.lead M with frozen := ((applyScene L n prio s).lead M).frozen } := by
  have hlead := (applySteps_onlyVoices L n s).lead_eq M
  rw [State.lead_setLead_ne _ _ _ _ (Ne.symm h)] at hlead
  have happly : (applyScene L n prio s).lead M = (applySteps L n s).lead M :=
    State.lead_setLead_ne _ _ _ _ (Ne.symm h)
  rw [happly]
  exact hlead

/-! ### The other cues -/

theorem raiseLevel_eq (L : Lead) (prio : Nat) (s : State) : raiseLevel L prio s = s.setLead L
    { s.lead L with transition := (s.lead L).transition.map fun x => { x with level := prio } } := by
  unfold raiseLevel
  cases h : (s.lead L).transition with
  | none =>
    simp only [Option.map_none]
    rw [← h]
    cases L <;> rfl
  | some tr => rfl

theorem holdLead_transition (L : Lead) (s : State) : ((holdLead L s).lead L).transition = (s.lead L).transition := by
  unfold holdLead
  split
  · rfl
  · rw [lead_setLead_same]

theorem releaseHold_transition (L : Lead) (s : State) :
    ((releaseHold L s).lead L).transition = (s.lead L).transition := by
  unfold releaseHold
  split
  · rw [lead_setLead_same]
  · rfl

/-- SILENCE sends every voice of the lead a fall to IDLE (R95, R121). -/
theorem silenceLead_voices (L : Lead) (s : State) :
    silenceLead L s = { s.setLead L { s.lead L with silenced := true } with voices := (silenceLead L s).voices }
    ∧ ∀ v : VoiceId, (silenceLead L s).voice v =
      if (s.voice v).owner = some L ∧ ((s.voice v).state = .rising ∨ (s.voice v).state = .sounding) then
        fallenToIdle s (s.voice v)
      else s.voice v := by
  let silent := s.setLead L { s.lead L with silenced := true }
  have hstep (u : State) (v : VoiceId) : fallToIdle v u = u.setVoice v
      (if (u.voice v).state = .rising ∨ (u.voice v).state = .sounding then fallenToIdle u (u.voice v)
        else u.voice v) := by
    by_cases h : (u.voice v).state = .rising ∨ (u.voice v).state = .sounding
    · rw [if_pos h, fallToIdle_falls h]
    · rw [if_neg h, State.setVoice_voice]
      obtain ⟨hr, hs⟩ := not_or.1 h
      unfold fallToIdle
      cases hstate : (u.voice v).state with
      | rising => exact absurd hstate hr
      | sounding => exact absurd hstate hs
      | falling | idle | muted | off => rfl
  have hfallen {u w : State} {x : Voice} (hw : w = { u with voices := w.voices }) :
      fallenToIdle w x = fallenToIdle u x := by
    unfold fallenToIdle rampIncrement State.params
    rw [hw]
    rfl
  obtain ⟨hframe, hvoice⟩ := foldl_setVoice (f := fun s v => fallToIdle v s) hstep
    (fun {u w v} hw hv => by rw [hv, hfallen hw]) (ownedVoices s L) silent (ownedVoices_nodup s L)
  refine ⟨hframe, fun v => (hvoice v).trans ?_⟩
  have hv : silent.voice v = s.voice v := by cases L <;> rfl
  have hsame : fallenToIdle silent (s.voice v) = fallenToIdle s (s.voice v) := by
    unfold fallenToIdle rampIncrement
    cases L <;> cases (s.voice v).owner with
    | none => rfl
    | some M => cases M <;> rfl
  rw [hv, hsame]
  simp only [mem_ownedVoices]
  by_cases ho : (s.voice v).owner = some L
  · simp [ho]
  · simp [ho]

theorem otherCues (L : Lead) (prio : Nat) (s : State) :
    let raised := (s.lead L).transition.map fun x => { x with level := prio }
    (∀ n, applyCue L (.scene n) prio s = applyScene L n prio s)
    ∧ (∀ c n, (s.lead L).scene = some c → s.scenes[c].next = some n →
      applyCue L .step prio s = applyScene L n prio s)
    ∧ ((∀ c, (s.lead L).scene = some c → s.scenes[c].next = none) →
      applyCue L .step prio s = { s.setLead L { s.lead L with transition := raised } with
        counters := s.counters.map fun c => c.after 14 })
    ∧ (∀ key map, applyCue L (.chord key map) prio s = s.setLead L
      { s.lead L with key := key.getD (s.lead L).key, map := map.getD (s.lead L).map
                      transition := raised })
    ∧ applyCue L .hold prio s =
      (holdLead L s).setLead L { (holdLead L s).lead L with transition := raised }
    ∧ applyCue L .release prio s =
      (releaseHold L s).setLead L { (releaseHold L s).lead L with transition := raised }
    ∧ applyCue L .resume prio s = s.setLead L
      { s.lead L with silenced := false, transition := some { level := prio, kind := .resume } } := by
  intro raised
  refine ⟨fun n => rfl, fun c n hc hn => ?_, fun hnone => ?_, fun key map => ?_, ?_, ?_, ?_⟩
  · show applyStep L prio s = _
    unfold applyStep
    rw [hc]
    simp only
    rw [hn]
  · have hignored : applyCue L .step prio s = raiseLevel L prio (countEvent .stepNoNext s) := by
      show applyStep L prio s = _
      unfold applyStep
      cases hc : (s.lead L).scene with
      | none => rfl
      | some c =>
        simp only
        rw [hnone c hc]
    rw [hignored, raiseLevel_eq]
    cases L <;> rfl
  · show raiseLevel L prio (applyChord L key map s) = _
    rw [raiseLevel_eq]
    cases L <;> rfl
  · show raiseLevel L prio (holdLead L s) = _
    rw [raiseLevel_eq, holdLead_transition]
  · show raiseLevel L prio (releaseHold L s) = _
    rw [raiseLevel_eq, releaseHold_transition]
  · show startTransition L prio .resume (resumeLead L s) = _
    cases L <;> rfl

theorem silenceCue (L : Lead) (prio : Nat) (s : State) :
    let t := applyCue L .silence prio s
    t = { s.setLead L { s.lead L with
            silenced := true, transition := some { level := prio, kind := .silence } } with
          voices := t.voices }
    ∧ ∀ v : VoiceId,
      let x := s.voice v
      let fall := { x with dest := .idle, releaseMark := false, pendingPart := none
                           increment := rampIncrement s (some L) }
      (x.owner = some L → (x.state = .rising ∨ x.state = .sounding) →
        (x.envelope ≠ 0 → t.voice v = { fall with state := .falling })
        ∧ (x.envelope = 0 → t.voice v = { fall with state := .idle, crossfade := none }))
      ∧ (x.owner ≠ some L ∨ (x.state ≠ .rising ∧ x.state ≠ .sounding) → t.voice v = x) := by
  obtain ⟨hframe, hvoice⟩ := silenceLead_voices L s
  intro t
  have ht (v : VoiceId) : t.voice v = (silenceLead L s).voice v := congrArg (·[v]) (setTransition_voices ..)
  refine ⟨?_, fun v => ?_⟩
  · show (silenceLead L s).setLead L { (silenceLead L s).lead L with
      transition := some { level := prio, kind := .silence } } = _
    have hvoices : t.voices = (silenceLead L s).voices := setTransition_voices ..
    rw [hvoices, hframe]
    cases L <;> rfl
  · intro x fall
    refine ⟨fun howner hstate => ⟨fun henv => ?_, fun henv => ?_⟩, fun h => ?_⟩
    · rw [ht, hvoice, if_pos ⟨howner, hstate⟩, fallenToIdle, if_neg henv, howner]
    · rw [ht, hvoice, if_pos ⟨howner, hstate⟩, fallenToIdle, if_pos henv, howner]
    · rw [ht, hvoice, if_neg]
      rintro ⟨howner, hstate⟩
      obtain h | ⟨hr, hs⟩ := h
      · exact h howner
      · exact hstate.elim hr hs

/-- Settles O23. -/
theorem sceneApplied : Obligations.SceneApplied := by
  refine ⟨fun L n prio s => ?_, fun L n prio s hdistinct => ?_, fun L prio s => ?_⟩
  · exact ⟨applyScene_frame L n prio s, applyScene_lead L n prio s, fun v howner hunlisted =>
        ⟨fun h => applyScene_standing howner hunlisted h prio,
          fun h henv => applyScene_singing howner hunlisted h henv prio⟩,
      fun e he hdistinct hoff howner hfree => applyScene_assigns hdistinct he hoff howner hfree prio⟩
  · refine ⟨fun M hM => applyScene_lead_ne hM n prio s, applyScene_sceneVoices hdistinct prio,
      fun hskips hclash => ?_, fun hskips hclash => ?_, applyScene_clash hdistinct prio⟩
    · have h := applyScene_unskipped hdistinct prio hskips hclash
      exact ⟨h.faults, h.pointer, h.counters, h.outq⟩
    · obtain ⟨h, hmutes⟩ := applyScene_skipped hdistinct prio hskips hclash
      exact ⟨⟨h.faults, h.pointer, h.counters, h.outq⟩, hmutes⟩
  · obtain ⟨hscene, hstep, hignored, hchord, hhold, hrelease, hresume⟩ := otherCues L prio s
    exact ⟨hscene, hstep, hignored, hchord, hhold, hrelease, hresume, silenceCue L prio s⟩

end Sys2Proof.Proofs.ScenesAndCues
end

