-- ==== Sys2Proof/Proofs/OtherLead.lean ====
section
/-! PROOF. One lead's block work beside the other lead (R33, R85, R117, R119; O14). -/

namespace Sys2Proof.Proofs.OtherLead

open Sys2Proof Sys2Proof.Machine Sys2Proof.Safety Sys2Proof.Proofs.VoiceLaws Sys2Proof.Proofs.VoiceRequests
  Sys2Proof.Proofs.VoiceFrame Sys2Proof.Proofs.Harmony Sys2Proof.Proofs.Occurrences Sys2Proof.Proofs.CueRequests
  Sys2Proof.Proofs.SceneApplication Sys2Proof.Proofs.ScenesAndCues

/-- Lead `M`'s record but for frozen notes, and its voices that are not OFF, stay. -/
structure Spares (M : Lead) (s t : State) : Prop where
  lead : t.lead M = { s.lead M with frozen := (t.lead M).frozen }
  voice : ∀ v, (s.voice v).owner = some M → (s.voice v).state ≠ .off → t.voice v = s.voice v

section
variable {L M : Lead}

theorem Spares.refl (M : Lead) (s : State) : Spares M s s := ⟨rfl, fun _ _ _ => rfl⟩

theorem Spares.trans {s t u : State} (h : Spares M s t) (k : Spares M t u) : Spares M s u where
  lead := k.lead.trans (by rw [h.lead])
  voice v ho hs := by
    have ht := h.voice v ho hs
    exact (k.voice v (by rw [ht]; exact ho) (by rw [ht]; exact hs)).trans ht

theorem Spares.of_same {s t : State} (hlead : t.lead M = s.lead M) (hvoices : t.voices = s.voices) : Spares M s t :=
  ⟨by rw [hlead], fun v _ _ => congrArg (·[v]) hvoices⟩

theorem Spares.setLead (hLM : L ≠ M) (s : State) (c : LeadChannel) : Spares M s (s.setLead L c) :=
  .of_same (State.lead_setLead_ne _ _ _ _ hLM) (State.setLead_voices ..)

theorem Spares.countEvent (e : Event) (s : State) : Spares M s (countEvent e s) := .of_same rfl rfl

theorem Spares.offerNotice (m : Message) (s : State) : Spares M s (offerNotice m s) :=
  .of_same ((offerNotice_onlyFaults ..).lead M) (offerNotice_voices ..)

theorem Spares.raise_lead (hLM : L ≠ M) (k : FaultKind) (s : State) : Spares M s (raise k (.lead L) s) where
  lead := by rw [(raise_onlyFaults ..).lead M]
  voice v ho _ := (raise_lead_voice k L s v).resolve_right fun h => hLM (Option.some.inj (h.1.symm.trans ho))

/-! ### Voice requests -/

/-- A voice that is none of lead `M`'s, or OFF. -/
def Foreign (M : Lead) (x : Voice) : Prop := ¬(x.owner = some M ∧ x.state ≠ .off)

theorem foreign_muteClosed (M : Lead) : MuteClosed (Foreign M) := by
  intro x inc h
  obtain ⟨howner, -⟩ := Voice.mutedBy_keeps x .entrySkipped inc
  obtain ⟨hoff, -⟩ := Voice.mutedBy_state x .entrySkipped inc
  unfold Foreign
  rw [howner, ne_eq, hoff]
  exact h

theorem Spares.placed {s : State} {v : VoiceId} (hv : Foreign M (s.voice v)) (clears : Bool) (y : Voice) :
    Spares M s (placed clears v y s) where
  lead := by rw [placed_lead]
  voice w ho hs := placed_voice_ne (by
    rintro rfl
    exact hv ⟨ho, hs⟩) ..

theorem spares_raiseSkipped {o : Option Lead} (h : o ≠ some M) (s : State) : Spares M s (raiseSkipped o s) := by
  cases o with
  | none => exact Spares.refl ..
  | some K => exact Spares.raise_lead (fun e => h (congrArg some e)) ..

theorem spares_reachOwned {u : State} {v : VoiceId} (hv : Foreign M (u.voice v)) (r : Scene) (k : Nat) :
    Spares M u (reachOwned r (u, k) v).1 := by
  unfold reachOwned
  split
  · show Spares M u (releaseVoice v u)
    rw [releaseVoice_eq]
    exact Spares.placed hv ..
  next e _ =>
    show Spares M u (reassignVoice v e.part u)
    rw [reassignVoice_eq]
    refine Spares.trans (Spares.placed hv _ _) (spares_raiseSkipped (fun h => ?_) _)
    split at h
    next hclash =>
      refine hv ⟨h, fun hoff => ?_⟩
      unfold clashes at hclash
      rw [hoff] at hclash
      exact nomatch hclash
    · exact nomatch h

theorem spares_reachAll (r : Scene) : ∀ (vs : List VoiceId) (acc : State × Nat), vs.Nodup →
    (∀ v ∈ vs, Foreign M (acc.1.voice v)) → Spares M acc.1 (vs.foldl (reachOwned r) acc).1
  | [], acc, _, _ => Spares.refl ..
  | v :: vs, acc, hnodup, h => by
    obtain ⟨hout, hnodup⟩ := List.nodup_cons.1 hnodup
    refine (spares_reachOwned (h v List.mem_cons_self) r acc.2).trans (spares_reachAll r vs _ hnodup fun w hw => ?_)
    refine reachOwned_other (foreign_muteClosed M) r acc.2 ?_ (h w (List.mem_cons_of_mem _ hw))
    rintro rfl
    exact hout hw

theorem spares_takeEntry (owned : List VoiceId) (acc : State × Nat) (e : SceneEntry) :
    Spares M acc.1 (takeEntry L owned acc e).1 := by
  unfold takeEntry
  split
  · exact Spares.refl ..
  · split
    next hoff =>
      show Spares M acc.1 (assignVoice e.voice L e.part acc.1)
      rw [assignVoice_off hoff.1]
      exact Spares.placed (fun h => h.2 hoff.1) ..
    · exact Spares.refl ..

theorem spares_takeAll (owned : List VoiceId) : ∀ (es : List SceneEntry) (acc : State × Nat),
    Spares M acc.1 (es.foldl (takeEntry L owned) acc).1
  | [], _ => Spares.refl ..
  | e :: es, acc => (spares_takeEntry owned acc e).trans (spares_takeAll owned es _)

theorem spares_applyScene (hLM : L ≠ M) (n : Fin 32) (prio : Nat) (s : State) : Spares M s (applyScene L n prio s) := by
  have hreach : Spares M (withScene L n s)
      ((ownedVoices s L).foldl (reachOwned s.scenes[n]) (withScene L n s, 0)).1 :=
    spares_reachAll _ _ (withScene L n s, 0) (ownedVoices_nodup s L) fun v hv h => by
      rw [withScene_voice, (mem_ownedVoices ..).1 hv] at h
      exact hLM (Option.some.inj h.1)
  have hsteps : Spares M s (stepsTaken L n s).1 :=
    (Spares.setLead hLM ..).trans (hreach.trans (spares_takeAll ..))
  refine Spares.trans ?_ (Spares.setLead hLM ..)
  rw [applySteps_eq]
  split
  · exact hsteps
  · exact hsteps.trans (Spares.raise_lead hLM ..)

/-! ### Cues and ports -/

theorem spares_raiseLevel (hLM : L ≠ M) (prio : Nat) (s : State) : Spares M s (raiseLevel L prio s) := by
  rw [raiseLevel_eq]
  exact Spares.setLead hLM ..

theorem spares_silenceLead (hLM : L ≠ M) (s : State) : Spares M s (silenceLead L s) := by
  obtain ⟨hframe, hvoice⟩ := silenceLead_voices L s
  refine ⟨?_, fun v ho _ => ?_⟩
  · have hlead : (silenceLead L s).lead M = (s.setLead L { s.lead L with silenced := true }).lead M := by
      rw [hframe]
      cases M <;> rfl
    rw [hlead, State.lead_setLead_ne _ _ _ _ hLM]
  · rw [hvoice, if_neg fun h => hLM (Option.some.inj (h.1.symm.trans ho))]

theorem spares_applyCue (hLM : L ≠ M) (c : Cue) (prio : Nat) (s : State) : Spares M s (applyCue L c prio s) := by
  have ignored : Spares M s (raiseLevel L prio (countEvent .stepNoNext s)) :=
    (Spares.countEvent ..).trans (spares_raiseLevel hLM ..)
  cases c with
  | scene n => exact spares_applyScene hLM ..
  | step =>
    unfold applyCue applyStep
    simp only
    split
    · split
      · exact spares_applyScene hLM ..
      · exact ignored
    · exact ignored
  | chord key map => exact (Spares.setLead hLM ..).trans (spares_raiseLevel hLM ..)
  | hold =>
    refine Spares.trans ?_ (spares_raiseLevel hLM ..)
    unfold holdLead
    split
    · exact Spares.refl ..
    · exact Spares.setLead hLM ..
  | release =>
    refine Spares.trans ?_ (spares_raiseLevel hLM ..)
    unfold releaseHold
    split
    · exact Spares.setLead hLM ..
    · exact Spares.refl ..
  | silence => exact (spares_silenceLead hLM s).trans (Spares.setLead hLM ..)
  | resume => exact (Spares.setLead hLM ..).trans (Spares.setLead hLM ..)

theorem spares_handOff (K : Lead) (s : State) : Spares M s (handOff K s) := by
  rw [handOff_eq]
  exact .of_same (by cases M <;> rfl) rfl

theorem spares_portStep (hLM : L ≠ M) (s : State) : Spares M s (portStep L s) := by
  unfold portStep
  split
  · exact Spares.refl ..
  next g _ =>
    split
    · exact Spares.refl ..
    next c _ =>
      have hclear : Spares M s (clearPending g s) := .of_same (by cases M <;> rfl) rfl
      have hcue : Spares M s (countEvent .cueApplied (applyCue L c.cue (s.gateway g).priority (clearPending g s))) :=
        (hclear.trans (spares_applyCue hLM ..)).trans (Spares.countEvent ..)
      simp only
      repeat' split
      · exact (hcue.trans (Spares.countEvent ..)).trans (spares_handOff ..)
      · exact hcue.trans (spares_handOff ..)
      · exact hcue.trans (Spares.countEvent ..)
      · exact hcue

theorem spares_cueStep (hLM : L ≠ M) (ls : LinkState) (s : State) : Spares M s (cueStep ls L s) := by
  unfold cueStep
  simp only
  repeat' split
  · exact (Spares.setLead hLM ..).trans (spares_applyScene hLM ..)
  · exact (Spares.setLead hLM ..).trans (spares_portStep hLM ..)
  · exact spares_portStep hLM ..

/-! ### Tracker, note decision, HTU and completion -/

theorem spares_trackLead (hLM : L ≠ M) (s : State) : Spares M s (trackLead L s) := by
  unfold trackLead
  simp only
  split
  · exact (Spares.setLead hLM ..).trans (Spares.countEvent ..)
  · exact Spares.setLead hLM ..

theorem spares_decideLead (hLM : L ≠ M) (s : State) : Spares M s (decideLead L s) := by
  unfold decideLead
  simp only
  repeat' split
  all_goals first
    | exact ((Spares.setLead hLM ..).trans (Spares.countEvent ..)).trans (Spares.countEvent ..)
    | exact (Spares.setLead hLM ..).trans (Spares.countEvent ..)
    | exact Spares.setLead hLM ..

theorem spares_retargetLead (hLM : L ≠ M) (s : State) : Spares M s (retargetLead L s) := by
  obtain ⟨hframe, hvoice⟩ := retargetLead_voices L s
  refine ⟨?_, fun v ho _ => ?_⟩
  · rw [hframe]
    cases M <;> rfl
  · rw [hvoice, if_neg fun h => hLM (Option.some.inj (h.symm.trans ho))]

theorem spares_checkCompletion (hLM : L ≠ M) (s : State) : Spares M s (checkCompletion L s) := by
  unfold checkCompletion
  split
  · exact Spares.refl ..
  · split
    · exact (Spares.setLead hLM ..).trans (Spares.offerNotice ..)
    · exact Spares.refl ..

theorem spares_blockWork (hLM : L ≠ M) (ls : LinkState) (s : State) : Spares M s (blockWork ls L s) :=
  ((((spares_trackLead hLM s).trans (spares_decideLead hLM _)).trans (spares_cueStep hLM ls _)).trans
    (spares_retargetLead hLM _)).trans (spares_checkCompletion hLM _)

end

/-- Settles O14. -/
theorem blockWorkKeepsOtherLead : Obligations.BlockWorkKeepsOtherLead := fun ls _ _ s hne =>
  ⟨(spares_blockWork hne ls s).lead, (spares_blockWork hne ls s).voice⟩

end Sys2Proof.Proofs.OtherLead
end

