-- ==== Sys2Proof/Proofs/Counting.lean ====
section
/-! PROOF. Which events the parts of a frame count (R162, R163), and what each keeps of the trackers' values. -/

namespace Sys2Proof.Proofs.Counting

open Sys2Proof Sys2Proof.Machine Sys2Proof.Safety Sys2Proof.Proofs.VoiceLaws Sys2Proof.Proofs.VoiceRequests
  Sys2Proof.Proofs.VoiceFrame Sys2Proof.Proofs.Harmony Sys2Proof.Proofs.Occurrences Sys2Proof.Proofs.CueRequests
  Sys2Proof.Proofs.SceneApplication Sys2Proof.Proofs.SceneVoicesTold Sys2Proof.Proofs.ScenesAndCues
  Sys2Proof.Proofs.FaultSide

/-! ### Events of a code, one after another -/

theorem countedTimes_zero (c : Counter) : countedTimes c 0 = c := by
  unfold countedTimes
  split
  · rfl
  · simp

theorem countedTimes_selector (c : Counter) (n : Nat) : (countedTimes c n).selector = c.selector := by
  unfold countedTimes
  split <;> rfl

theorem countedTimes_add (c : Counter) (m n : Nat) : countedTimes (countedTimes c m) n = countedTimes c (m + n) := by
  unfold countedTimes
  by_cases h : c.inhibit = true
  · simp only [h, if_true]
  · simp only [h, if_false, BitVec.ofNat_add, BitVec.add_assoc, Bool.false_eq_true]

theorem countedTimes_one {c : Counter} {code : Nat} (h : c.selector = code) : countedTimes c 1 = c.after code := by
  unfold countedTimes Counter.after
  cases hi : c.inhibit <;> simp [h]

theorem CodeKept.times {code : Nat} {s t : State} (h : CodeKept code s t) : CountsTimes code 0 s t := fun i hi => by
  rw [h i hi, countedTimes_zero]

theorem CodeKept.of_times {code : Nat} {s t : State} (h : CountsTimes code 0 s t) : CodeKept code s t := fun i hi => by
  rw [h i hi, countedTimes_zero]

theorem countsTimes_trans {code m n : Nat} {s t u : State} (h : CountsTimes code m s t) (k : CountsTimes code n t u) :
    CountsTimes code (m + n) s u := fun i hi => by
  rw [k i (by rw [h i hi, countedTimes_selector, hi]), h i hi, countedTimes_add]

theorem countsTimes_before {code n : Nat} {s t u : State} (h : CodeKept code s t) (k : CountsTimes code n t u) :
    CountsTimes code n s u := by
  simpa using countsTimes_trans (CodeKept.times h) k

theorem countsTimes_behind {code n : Nat} {s t u : State} (h : CountsTimes code n s t) (k : CodeKept code t u) :
    CountsTimes code n s u :=
  countsTimes_trans h (CodeKept.times k)

theorem countEvent_once (e : Event) (s : State) : CountsTimes (eventCode e) 1 s (countEvent e s) := fun i hi => by
  rw [countEvent_counter, countedTimes_one hi]

/-- An event counted where the flag says so. -/
theorem countEvent_flag (e : Event) (b : Bool) (s : State) :
    CountsTimes (eventCode e) b.toNat s (if b = true then countEvent e s else s) := by
  cases b with
  | false => exact CodeKept.times (CodeKept.refl _ s)
  | true => exact countEvent_once e s

theorem countEvent_flag_kept {e : Event} {code : Nat} (h : eventCode e ≠ code) (b : Bool) (s : State) :
    CodeKept code s (if b = true then countEvent e s else s) := by
  cases b with
  | false => exact CodeKept.refl _ s
  | true => exact countEvent_codeKept h s

/-! ### Scenes and cues -/

theorem setLead_codeKept (code : Nat) (s : State) (L : Lead) (c : LeadChannel) : CodeKept code s (s.setLead L c) :=
  .of_counters (by cases L <;> rfl)

theorem placed_codeKept (code : Nat) (clears : Bool) (v : VoiceId) (y : Voice) (s : State) :
    CodeKept code s (placed clears v y s) := .of_counters (placed_sameSide ..).counters

section
variable {code : Nat}

theorem raiseSkipped_codeKept (h : code ≠ 13) (o : Option Lead) (s : State) : CodeKept code s (raiseSkipped o s) := by
  cases o with
  | none => exact .refl _ _
  | some L => exact raise_codeKept _ _ h s

theorem reachOwned_codeKept (h : code ≠ 13) (r : Scene) (acc : State × Nat) (v : VoiceId) :
    CodeKept code acc.1 (reachOwned r acc v).1 := by
  unfold reachOwned
  split
  · show CodeKept code acc.1 (releaseVoice v acc.1)
    rw [releaseVoice_eq]
    exact placed_codeKept _ _ _ _ _
  next e _ =>
    show CodeKept code acc.1 (reassignVoice v e.part acc.1)
    rw [reassignVoice_eq]
    exact CodeKept.trans (placed_codeKept _ _ _ _ _) (raiseSkipped_codeKept h _ _)

theorem reachAll_codeKept (h : code ≠ 13) (r : Scene) : ∀ (vs : List VoiceId) (acc : State × Nat),
    CodeKept code acc.1 (vs.foldl (reachOwned r) acc).1
  | [], acc => .refl code acc.1
  | v :: vs, acc => (reachOwned_codeKept h r acc v).trans (reachAll_codeKept h r vs _)

theorem takeEntry_codeKept (code : Nat) (L : Lead) (owned : List VoiceId) (acc : State × Nat) (e : SceneEntry) :
    CodeKept code acc.1 (takeEntry L owned acc e).1 := by
  unfold takeEntry
  split
  · exact .refl _ _
  · split
    next hoff =>
      show CodeKept code acc.1 (assignVoice e.voice L e.part acc.1)
      rw [assignVoice_off hoff.1]
      exact placed_codeKept _ _ _ _ _
    · exact .refl _ _

theorem takeAll_codeKept (code : Nat) (L : Lead) (owned : List VoiceId) : ∀ (es : List SceneEntry) (acc : State × Nat),
    CodeKept code acc.1 (es.foldl (takeEntry L owned) acc).1
  | [], acc => .refl code acc.1
  | e :: es, acc => (takeEntry_codeKept code L owned acc e).trans (takeAll_codeKept code L owned es _)

theorem applyScene_codeKept (h : code ≠ 13) (L : Lead) (n : Fin 32) (prio : Nat) (s : State) :
    CodeKept code s (applyScene L n prio s) := by
  have hsteps : CodeKept code s (stepsTaken L n s).1 :=
    ((setLead_codeKept code s L _).trans (reachAll_codeKept h _ _ (withScene L n s, 0))).trans
      (takeAll_codeKept _ _ _ _ _)
  rw [applyScene_eq]
  refine CodeKept.trans ?_ (setLead_codeKept _ _ _ _)
  split
  · exact hsteps
  · exact hsteps.trans (raise_codeKept _ _ h _)

theorem raiseLevel_codeKept (code : Nat) (L : Lead) (prio : Nat) (s : State) :
    CodeKept code s (raiseLevel L prio s) := by
  rw [raiseLevel_eq]
  exact setLead_codeKept _ _ _ _

theorem applyCue_codeKept (h13 : code ≠ 13) (h14 : code ≠ 14) (L : Lead) (c : Cue) (prio : Nat) (s : State) :
    CodeKept code s (applyCue L c prio s) := by
  have ignored : CodeKept code s (raiseLevel L prio (countEvent .stepNoNext s)) :=
    (countEvent_codeKept (e := .stepNoNext) h14.symm s).trans (raiseLevel_codeKept _ _ _ _)
  cases c with
  | scene n => exact applyScene_codeKept h13 _ _ _ _
  | step =>
    unfold applyCue applyStep
    simp only
    split
    · split
      · exact applyScene_codeKept h13 _ _ _ _
      · exact ignored
    · exact ignored
  | chord key map => exact (setLead_codeKept _ _ _ _).trans (raiseLevel_codeKept _ _ _ _)
  | hold =>
    refine CodeKept.trans ?_ (raiseLevel_codeKept _ _ _ _)
    unfold holdLead
    split
    · exact .refl _ _
    · exact setLead_codeKept _ _ _ _
  | release =>
    refine CodeKept.trans ?_ (raiseLevel_codeKept _ _ _ _)
    unfold releaseHold
    split
    · exact setLead_codeKept _ _ _ _
    · exact .refl _ _
  | silence =>
    refine CodeKept.trans (.of_counters ?_) (setLead_codeKept _ _ _ _)
    rw [(silenceLead_voices L s).1]
    cases L <;> rfl
  | resume => exact (setLead_codeKept _ _ _ _).trans (setLead_codeKept _ _ _ _)

theorem handOff_codeKept (code : Nat) (L : Lead) (s : State) : CodeKept code s (handOff L s) :=
  .of_counters (by rw [handOff_eq])

theorem portStep_codeKept (h6 : code ≠ 6) (h7 : code ≠ 7) (h13 : code ≠ 13) (h14 : code ≠ 14) (L : Lead) (s : State) :
    CodeKept code s (portStep L s) := by
  unfold portStep
  split
  · exact .refl _ _
  next g _ =>
    split
    · exact .refl _ _
    next c _ =>
      have hclear : CodeKept code s (clearPending g s) := .of_counters rfl
      have hcue : CodeKept code s (countEvent .cueApplied (applyCue L c.cue (s.gateway g).priority (clearPending g s))) :=
        (hclear.trans (applyCue_codeKept h13 h14 _ _ _ _)).trans (countEvent_codeKept (e := .cueApplied) h6.symm _)
      simp only
      repeat' split
      · exact (hcue.trans (countEvent_codeKept (e := .cueDuringTransition) h7.symm _)).trans (handOff_codeKept _ _ _)
      · exact hcue.trans (handOff_codeKept _ _ _)
      · exact hcue.trans (countEvent_codeKept (e := .cueDuringTransition) h7.symm _)
      · exact hcue

/-- The codes a lead's cue step counts (R163). -/
def CueCodes (code : Nat) : Prop := code = 6 ∨ code = 7 ∨ code = 13 ∨ code = 14

/-- Behind the note decision a lead's block work counts cues and occurrences alone (R163). -/
theorem cueWork_codeKept (h : ¬CueCodes code) (ls : LinkState) (L : Lead) (s : State) :
    CodeKept code s (checkCompletion L (retargetLead L (cueStep ls L s))) := by
  obtain ⟨h6, h⟩ := not_or.1 h
  obtain ⟨h7, h⟩ := not_or.1 h
  obtain ⟨h13, h14⟩ := not_or.1 h
  have hcue : CodeKept code s (cueStep ls L s) := by
    unfold cueStep
    simp only
    repeat' split
    · exact (setLead_codeKept _ _ _ _).trans (applyScene_codeKept h13 _ _ _ _)
    · exact (setLead_codeKept _ _ _ _).trans (portStep_codeKept h6 h7 h13 h14 _ _)
    · exact portStep_codeKept h6 h7 h13 h14 _ _
  have hretarget (u : State) : CodeKept code u (retargetLead L u) :=
    .of_counters (by rw [(retargetLead_voices L u).1])
  have hcheck (u : State) : CodeKept code u (checkCompletion L u) := by
    unfold checkCompletion
    split
    · exact .refl _ _
    · split
      · exact (setLead_codeKept _ _ _ _).trans (offerNotice_codeKept _ h13 _)
      · exact .refl _ _
  exact (hcue.trans (hretarget _)).trans (hcheck _)

end

/-! ### Tracker and note decision -/

theorem trackLead_eq (L : Lead) (s : State) : trackLead L s =
    let e := evaluationOf s L (s.lead L).history
    let t := s.setLead L ((s.lead L).tracked e)
    if e.voiced = true then countEvent (.voicedBlock L) t else t := rfl

/-- The record behind the tracker's step (R46). -/
theorem tracked_fields (c : LeadChannel) (e : Evaluation) :
    (c.tracked e) = { c with
      voiced := e.voiced, confidence := e.confidence
      estimate := if e.voiced then e.period else c.estimate
      splicePeriod := if e.voiced then (e.period + 8) / 16 else c.splicePeriod } := by
  unfold LeadChannel.tracked
  split
  next h => simp [h]
  next h => simp [h]

/-- The events of a lead's evaluation and decision, each with its code (R48, R68, R163). -/
def judgedEvents (s : State) (L : Lead) (code : Nat) : Nat :=
  let e := evaluationOf s L (s.lead L).history
  let d := decisionOf s L (s.lead L).history
  (if code = eventCode (.voicedBlock L) then e.voiced.toNat else 0)
    + (if code = eventCode (.noteChange L) then d.changed.toNat else 0)
    + (if code = 5 then d.unmatched.toNat else 0)

/-- A record behind the tracker and the note decision (R46, R60 to R65). -/
def judgedRecord (s : State) (L : Lead) : LeadChannel :=
  let c := s.lead L
  let e := evaluationOf s L c.history
  let d := decisionOf s L c.history
  { c with
    voiced := e.voiced, confidence := e.confidence, estimate := estimateOf s L c.history
    splicePeriod := if e.voiced then (e.period + 8) / 16 else c.splicePeriod
    note := d.note, unvoicedCount := d.count }

theorem countFlag_codes (e : Event) (b : Bool) (code : Nat) (s : State) :
    CountsTimes code (if code = eventCode e then b.toNat else 0) s (if b = true then countEvent e s else s) := by
  split
  next h =>
    subst h
    exact countEvent_flag e b s
  next h => exact CodeKept.times (countEvent_flag_kept (fun e => h e.symm) b s)

theorem countFlag_eq (e : Event) (b : Bool) (s : State) : (if b = true then countEvent e s else s) =
    { s with counters := (if b = true then countEvent e s else s).counters } := by
  split <;> rfl

theorem trackLead_frame (L : Lead) (s : State) :
    let e := evaluationOf s L (s.lead L).history
    trackLead L s = { s.setLead L ((s.lead L).tracked e) with counters := (trackLead L s).counters } :=
  countFlag_eq ..

theorem decideLead_frame (L : Lead) (s : State) :
    let d := decideNote (s.rows L) (s.params L).hysteresis (s.params L).hold (s.lead L).note
      (s.lead L).unvoicedCount (s.lead L).voiced (s.lead L).estimate
    decideLead L s = { s.setLead L { s.lead L with note := d.note, unvoicedCount := d.count } with
      counters := (decideLead L s).counters }
    ∧ ∀ code, CountsTimes code ((if code = eventCode (.noteChange L) then d.changed.toNat else 0)
        + (if code = 5 then d.unmatched.toNat else 0)) s (decideLead L s) := by
  intro d
  let noted := s.setLead L { s.lead L with note := d.note, unvoicedCount := d.count }
  have hsame (code : Nat) : CodeKept code s noted := setLead_codeKept _ _ _ _
  have hshape : decideLead L s = if d.unmatched = true then
      countEvent .unmatched (if d.changed = true then countEvent (.noteChange L) noted else noted)
      else if d.changed = true then countEvent (.noteChange L) noted else noted := rfl
  rw [hshape]
  refine ⟨?_, fun code => ?_⟩
  · cases d.unmatched <;> cases d.changed <;> rfl
  · exact countsTimes_before (hsame code) (countsTimes_trans (countFlag_codes (.noteChange L) d.changed code noted)
      (countFlag_codes .unmatched d.unmatched code _))

/-- Tracker and note decision of a lead: its record, its events, and nothing else (R37, R46, R48, R60, R68). -/
theorem judgeLead (L : Lead) (s : State) :
    let t := decideLead L (trackLead L s)
    t = { s.setLead L (judgedRecord s L) with counters := t.counters }
    ∧ ∀ code, CountsTimes code (judgedEvents s L code) s t := by
  let e := evaluationOf s L (s.lead L).history
  have htrack := trackLead_frame L s
  have hcounts (code : Nat) : CountsTimes code (if code = eventCode (.voicedBlock L) then e.voiced.toNat else 0) s
      (trackLead L s) :=
    countsTimes_before (setLead_codeKept code s L ((s.lead L).tracked e)) (countFlag_codes (.voicedBlock L) e.voiced code _)
  obtain ⟨hdecide, hcounts'⟩ := decideLead_frame L (trackLead L s)
  have hlead : (trackLead L s).lead L = (s.lead L).tracked e := by
    rw [htrack]
    show (s.setLead L _).lead L = _
    exact lead_setLead_same ..
  have hparams : (trackLead L s).params L = s.params L := by
    rw [htrack]
    cases L <;> simp only [State.params, State.lead, State.setLead, tracked_fields]
  have htuning : (trackLead L s).tuning = s.tuning := by
    rw [htrack]
    cases L <;> rfl
  have hrows : (trackLead L s).rows L = s.rows L := by simp only [State.rows, hparams, htuning]
  have hd : decideNote ((trackLead L s).rows L) ((trackLead L s).params L).hysteresis ((trackLead L s).params L).hold
      ((trackLead L s).lead L).note ((trackLead L s).lead L).unvoicedCount ((trackLead L s).lead L).voiced
      ((trackLead L s).lead L).estimate = decisionOf s L (s.lead L).history := by
    rw [hlead, hparams, hrows, tracked_fields]
    rfl
  simp only [hd] at hdecide hcounts'
  refine ⟨?_, fun code => ?_⟩
  · rw [hdecide, hlead, htrack, tracked_fields]
    cases L <;> rfl
  · have h := countsTimes_trans (hcounts code) (hcounts' code)
    rw [← Nat.add_assoc] at h
    exact h

end Sys2Proof.Proofs.Counting
end

