-- ==== Sys2Proof/Proofs/BlockEnds.lean ====
section
/-! PROOF. The block work of both leads at a block end (R37 to R46, R48, R60 to R65, R68, R123; O13). -/

namespace Sys2Proof.Proofs.BlockEnds

open Sys2Proof Sys2Proof.Machine Sys2Proof.Safety Sys2Proof.Proofs.VoiceLaws Sys2Proof.Proofs.BlockParts
  Sys2Proof.Proofs.StepParts Sys2Proof.Proofs.Harmony Sys2Proof.Proofs.Occurrences Sys2Proof.Proofs.CueRequests
  Sys2Proof.Proofs.ScenesAndCues Sys2Proof.Proofs.FaultSide Sys2Proof.Proofs.OtherLead Sys2Proof.Proofs.Counting
  Sys2Proof.Proofs.CueFlush Sys2Proof.Proofs.Queues

/-! ### What stays of a judged record -/

/-- The tracker's and the note decision's fields stay (R46, R59). -/
structure SameTracked (c d : LeadChannel) : Prop where
  history : d.history = c.history
  estimate : d.estimate = c.estimate
  confidence : d.confidence = c.confidence
  voiced : d.voiced = c.voiced
  splicePeriod : d.splicePeriod = c.splicePeriod
  note : d.note = c.note
  unvoicedCount : d.unvoicedCount = c.unvoicedCount

theorem SameTracked.refl (c : LeadChannel) : SameTracked c c := ⟨rfl, rfl, rfl, rfl, rfl, rfl, rfl⟩

theorem SameTracked.trans {c d e : LeadChannel} (h : SameTracked c d) (k : SameTracked d e) : SameTracked c e :=
  ⟨k.history.trans h.history, k.estimate.trans h.estimate, k.confidence.trans h.confidence, k.voiced.trans h.voiced,
    k.splicePeriod.trans h.splicePeriod, k.note.trans h.note, k.unvoicedCount.trans h.unvoicedCount⟩

theorem SameTracked.of_frozen {c d : LeadChannel} (h : d = { c with frozen := d.frozen }) : SameTracked c d := by
  rw [h]
  exact ⟨rfl, rfl, rfl, rfl, rfl, rfl, rfl⟩

section
variable {L : Lead} {s t : State}

theorem SameTracked.of_onlyVoices (h : OnlyVoices s t) (L : Lead) : SameTracked (s.lead L) (t.lead L) :=
  .of_frozen (h.lead_eq L)

theorem sameTracked_setLead {c : LeadChannel} (h : SameTracked (s.lead L) c) :
    SameTracked (s.lead L) ((s.setLead L c).lead L) := by
  rw [lead_setLead_same]
  exact h

theorem sameTracked_applyScene (n : Fin 32) (prio : Nat) (s : State) :
    SameTracked (s.lead L) ((applyScene L n prio s).lead L) := by
  rw [applyScene_lead]
  exact ⟨rfl, rfl, rfl, rfl, rfl, rfl, rfl⟩

theorem sameTracked_raiseLevel (prio : Nat) (s : State) : SameTracked (s.lead L) ((raiseLevel L prio s).lead L) := by
  rw [raiseLevel_eq]
  exact sameTracked_setLead ⟨rfl, rfl, rfl, rfl, rfl, rfl, rfl⟩

theorem sameTracked_applyCue (c : Cue) (prio : Nat) (s : State) :
    SameTracked (s.lead L) ((applyCue L c prio s).lead L) := by
  have ignored : SameTracked (s.lead L) ((raiseLevel L prio (countEvent .stepNoNext s)).lead L) :=
    sameTracked_raiseLevel prio (countEvent .stepNoNext s)
  have written {d : LeadChannel} (hd : SameTracked (s.lead L) d) :
      SameTracked (s.lead L) ((raiseLevel L prio (s.setLead L d)).lead L) :=
    (sameTracked_setLead hd).trans (sameTracked_raiseLevel prio _)
  cases c with
  | scene n => exact sameTracked_applyScene ..
  | step =>
    unfold applyCue applyStep
    simp only
    split
    · split
      · exact sameTracked_applyScene ..
      · exact ignored
    · exact ignored
  | chord key map => exact written ⟨rfl, rfl, rfl, rfl, rfl, rfl, rfl⟩
  | hold =>
    unfold applyCue holdLead
    simp only
    split
    · exact sameTracked_raiseLevel prio s
    · exact written ⟨rfl, rfl, rfl, rfl, rfl, rfl, rfl⟩
  | release =>
    unfold applyCue releaseHold
    simp only
    split
    · exact written ⟨rfl, rfl, rfl, rfl, rfl, rfl, rfl⟩
    · exact sameTracked_raiseLevel prio s
  | silence =>
    have hsilent : (silenceLead L s).lead L = { s.lead L with silenced := true } := by
      rw [(silenceLead_voices L s).1]
      cases L <;> rfl
    refine SameTracked.trans (d := (silenceLead L s).lead L) ?_ (sameTracked_setLead ⟨rfl, rfl, rfl, rfl, rfl, rfl, rfl⟩)
    rw [hsilent]
    exact ⟨rfl, rfl, rfl, rfl, rfl, rfl, rfl⟩
  | resume =>
    exact (sameTracked_setLead (s := s) (c := { s.lead L with silenced := false })
      ⟨rfl, rfl, rfl, rfl, rfl, rfl, rfl⟩).trans (sameTracked_setLead ⟨rfl, rfl, rfl, rfl, rfl, rfl, rfl⟩)

theorem handOff_lead (K : Lead) (s : State) (L : Lead) : (handOff K s).lead L = s.lead L := by
  rw [handOff_eq]
  cases L <;> rfl

theorem sameTracked_portStep (s : State) : SameTracked (s.lead L) ((portStep L s).lead L) := by
  unfold portStep
  split
  · exact .refl _
  next g _ =>
    split
    · exact .refl _
    next c _ =>
      have hcue : SameTracked (s.lead L)
          ((countEvent .cueApplied (applyCue L c.cue (s.gateway g).priority (clearPending g s))).lead L) :=
        sameTracked_applyCue c.cue _ (clearPending g s)
      simp only
      repeat' split
      all_goals first
        | (rw [handOff_lead]; exact hcue)
        | exact hcue

theorem sameTracked_cueStep (ls : LinkState) (s : State) : SameTracked (s.lead L) ((cueStep ls L s).lead L) := by
  let cleared := s.setLead L { s.lead L with startFlag := false }
  have hcleared : SameTracked (s.lead L) (cleared.lead L) :=
    sameTracked_setLead ⟨rfl, rfl, rfl, rfl, rfl, rfl, rfl⟩
  have hscene (n : Fin 32) : SameTracked (s.lead L) ((applyScene L n 15 cleared).lead L) :=
    hcleared.trans (sameTracked_applyScene n 15 cleared)
  have hport : SameTracked (s.lead L) ((portStep L cleared).lead L) :=
    hcleared.trans (sameTracked_portStep cleared)
  unfold cueStep
  split
  · simp only
    split
    · exact hscene _
    · exact hport
  · exact sameTracked_portStep s

theorem sameTracked_checkCompletion (s : State) : SameTracked (s.lead L) ((checkCompletion L s).lead L) := by
  unfold checkCompletion
  split
  · exact .refl _
  · split
    · rw [(offerNotice_onlyFaults ..).lead]
      exact sameTracked_setLead ⟨rfl, rfl, rfl, rfl, rfl, rfl, rfl⟩
    · exact .refl _

theorem retargetLead_lead (L M : Lead) (s : State) : (retargetLead L s).lead M = s.lead M := by
  have hframe := (retargetLead_voices L s).1
  generalize retargetLead L s = t at hframe
  rw [hframe]
  cases M <;> rfl

theorem sameTracked_cueWork (ls : LinkState) (s : State) :
    SameTracked (s.lead L) ((checkCompletion L (retargetLead L (cueStep ls L s))).lead L) := by
  have hretarget := retargetLead_lead L L (cueStep ls L s)
  have hcheck := sameTracked_checkCompletion (L := L) (retargetLead L (cueStep ls L s))
  rw [hretarget] at hcheck
  exact (sameTracked_cueStep ls s).trans hcheck

end

/-! ### One lead's block work -/

theorem judged_of_sameTracked {s : State} {L : Lead} {c : LeadChannel} (h : SameTracked (judgedRecord s L) c) :
    Judged s L (s.lead L).history c :=
  ⟨h.history, h.voiced, h.confidence, h.estimate, h.splicePeriod, h.note, h.unvoicedCount⟩

theorem Judged.of_sameTracked {s : State} {L : Lead} {hist : List Int} {c d : LeadChannel} (h : Judged s L hist c)
    (k : SameTracked c d) : Judged s L hist d := by
  obtain ⟨hh, hv, hc, he, hp, hn, hu⟩ := h
  exact ⟨k.history.trans hh, k.voiced.trans hv, k.confidence.trans hc, k.estimate.trans he, k.splicePeriod.trans hp,
    k.note.trans hn, k.unvoicedCount.trans hu⟩

/-- A lead's block work: its record judged, its events counted (R37). -/
theorem blockWork_judges (ls : LinkState) (L : Lead) (s : State) :
    SameTracked (judgedRecord s L) ((blockWork ls L s).lead L)
      ∧ ∀ code, ¬CueCodes code → CountsTimes code (judgedEvents s L code) s (blockWork ls L s) := by
  obtain ⟨hframe, hcounts⟩ := judgeLead L s
  have hlead : (decideLead L (trackLead L s)).lead L = judgedRecord s L := by
    rw [hframe]
    cases L <;> rfl
  refine ⟨?_, fun code hcode => countsTimes_behind (hcounts code) (cueWork_codeKept hcode ls L _)⟩
  have h := sameTracked_cueWork (L := L) ls (decideLead L (trackLead L s))
  rw [hlead] at h
  exact h

theorem pedals_keptByBlockParts (p : Vector PedalLine 4) : KeptByBlockParts fun t => t.pedals = p where
  frame h e _ := (congrArg State.pedals e : _ = _).trans h
  raise k sc _ h := (raise_onlyFaults k sc _).pedals.trans h
  offer m _ h := (offerNotice_onlyFaults m _).pedals.trans h
  record L _ _ _ h := by cases L <;> exact h
  clearPending _ _ h := h
  handOff L s h := by rw [handOff_eq]; exact h
  release v _ h := (releaseVoice_onlyVoices v _).pedals.trans h
  reassign v p _ h := (reassignVoice_onlyVoices v p _).pedals.trans h
  assign v L p _ _ h := (assignVoice_onlyVoices v L p _).pedals.trans h
  fall v _ h := (fallToIdle_onlyVoices v _).pedals.trans h
  retarget L v _ h := (retargetVoice_onlyVoices L v _).pedals.trans h

theorem blockWork_pedals (ls : LinkState) (L : Lead) (s : State) : (blockWork ls L s).pedals = s.pedals :=
  blockWork_keeps (pedals_keptByBlockParts s.pedals) ls L rfl

/-! ### Both leads' block work -/

/-- Two states that a lead's evaluation and decision cannot tell apart. -/
structure JudgesAlike (L : Lead) (s u : State) : Prop where
  scene : (u.lead L).scene = (s.lead L).scene
  tracked : SameTracked (s.lead L) (u.lead L)
  scenes : u.scenes = s.scenes
  tuning : u.tuning = s.tuning

theorem JudgesAlike.params {L : Lead} {s u : State} (h : JudgesAlike L s u) : u.params L = s.params L := by
  unfold State.params
  rw [h.scene, h.scenes]

theorem JudgesAlike.evaluation {L : Lead} {s u : State} (h : JudgesAlike L s u) (hist : List Int) :
    evaluationOf u L hist = evaluationOf s L hist := by
  unfold evaluationOf
  rw [h.params]

theorem JudgesAlike.estimate {L : Lead} {s u : State} (h : JudgesAlike L s u) (hist : List Int) :
    estimateOf u L hist = estimateOf s L hist := by
  unfold estimateOf
  rw [h.evaluation, h.tracked.estimate]

theorem JudgesAlike.decision {L : Lead} {s u : State} (h : JudgesAlike L s u) (hist : List Int) :
    decisionOf u L hist = decisionOf s L hist := by
  have hrows : u.rows L = s.rows L := by simp only [State.rows, h.params, h.tuning]
  unfold decisionOf
  simp only
  rw [hrows, h.params, h.evaluation, h.estimate, h.tracked.note, h.tracked.unvoicedCount]

theorem JudgesAlike.judged {L : Lead} {s u : State} (h : JudgesAlike L s u) {hist : List Int} {c : LeadChannel}
    (k : Judged u L hist c) : Judged s L hist c := by
  unfold Judged at *
  rw [h.evaluation, h.decision, h.estimate, h.tracked.splicePeriod] at k
  exact k

theorem JudgesAlike.events {L : Lead} {s u : State} (h : JudgesAlike L s u) (code : Nat) :
    judgedEvents u L code = judgedEvents s L code := by
  unfold judgedEvents
  rw [h.tracked.history, h.evaluation, h.decision]

/-- The other lead is judged behind a lead's block work as before it (R33). -/
theorem blockWork_judgesAlike {L M : Lead} (hne : L ≠ M) (ls : LinkState) (s : State) :
    JudgesAlike M s (blockWork ls L s) := by
  have hlead := (spares_blockWork hne ls s).lead
  exact ⟨by rw [hlead], .of_frozen hlead, (blockWork_onlyEngine ls L s).scenes, (blockWork_onlyEngine ls L s).tuning⟩

theorem other_lead {K L M : Lead} (hne : L ≠ M) (hK : K ≠ L) : K = M := by
  cases K <;> cases L <;> cases M <;> first | rfl | exact absurd rfl hK | exact absurd rfl hne

/-- Both leads' block work: each record judged by what stood before, and each event counted (R37). -/
theorem blockWorks_judge {L M : Lead} (hne : L ≠ M) (ls : LinkState) (s : State) :
    let t := blockWork ls M (blockWork ls L s)
    (∀ K, Judged s K (s.lead K).history (t.lead K))
      ∧ ∀ code, ¬CueCodes code → CountsTimes code (judgedEvents s L code + judgedEvents s M code) s t := by
  obtain ⟨hfirst, hcounts⟩ := blockWork_judges ls L s
  obtain ⟨hsecond, hcounts'⟩ := blockWork_judges ls M (blockWork ls L s)
  have halike := blockWork_judgesAlike hne ls s
  have hspared := SameTracked.of_frozen (spares_blockWork (Ne.symm hne) ls (blockWork ls L s)).lead
  have hL : Judged s L (s.lead L).history ((blockWork ls M (blockWork ls L s)).lead L) :=
    Judged.of_sameTracked (judged_of_sameTracked hfirst) hspared
  have hM : Judged s M (s.lead M).history ((blockWork ls M (blockWork ls L s)).lead M) := by
    have h := halike.judged (judged_of_sameTracked hsecond)
    rw [halike.tracked.history] at h
    exact h
  refine ⟨fun K => ?_, fun code hcode => ?_⟩
  · by_cases hK : K = L
    · rw [hK]
      exact hL
    · rw [other_lead hne hK]
      exact hM
  · have h := countsTimes_trans (hcounts code hcode) (hcounts' code hcode)
    rw [halike.events] at h
    exact h

theorem not_cueCodes {code : Nat} (h : code ≤ 5) : ¬CueCodes code := by
  unfold CueCodes
  omega

theorem judgementsCounted {L M : Lead} (hne : L ≠ M) {s t : State}
    (h : ∀ code, ¬CueCodes code → CountsTimes code (judgedEvents s L code + judgedEvents s M code) s t) :
    JudgementsCounted (fun K => (s.lead K).history) s t := by
  have h1 := h 1 (not_cueCodes (by decide))
  have h2 := h 2 (not_cueCodes (by decide))
  have h3 := h 3 (not_cueCodes (by decide))
  have h4 := h 4 (not_cueCodes (by decide))
  have h5 := h 5 (not_cueCodes (by decide))
  cases L <;> cases M <;> first | exact absurd rfl hne | skip
  all_goals simp [judgedEvents, eventCode] at h1 h2 h3 h4 h5
  · exact ⟨h1, h2, h3, h4, h5⟩
  · refine ⟨h1, h2, h3, h4, ?_⟩
    rw [Nat.add_comm] at h5
    exact h5

theorem drawn_judges (L M : Lead) (s : State) : judgedEvents s.drawn L = judgedEvents s L ∧ Judged s.drawn M = Judged s M := by
  cases L <;> cases M <;> exact ⟨rfl, rfl⟩

/-- The two block works of a block end, in the order drawn (R37; log entry 3). -/
theorem takeBlockEnd_eq {s : State} (h : s.ltu.count.toNat % 64 = 63) :
    ∃ L M : Lead, L ≠ M ∧ takeBlockEnd s = blockWork s.ltu.link M (blockWork s.ltu.link L s.drawn) := by
  have hend : isBlockEnd s.ltu.count = true := by
    unfold isBlockEnd
    rw [h]
    rfl
  have htake : takeBlockEnd s = runTasks s.ltu.link 2 [.block .a, .block .b] s := by
    unfold takeBlockEnd
    rw [if_pos hend]
  rw [htake]
  unfold runTasks
  simp only
  have hlt : s.nextOrder [Task.block .a, Task.block .b].length < 2 := Nat.mod_lt _ (by decide)
  generalize s.nextOrder [Task.block .a, Task.block .b].length = i at hlt
  obtain rfl | rfl : i = 0 ∨ i = 1 := by omega
  · exact ⟨.a, .b, by decide, rfl⟩
  · exact ⟨.b, .a, by decide, rfl⟩

theorem blockWorks_frame (ls : LinkState) (L M : Lead) (s : State) :
    let t := blockWork ls M (blockWork ls L s)
    t = { s with leadA := t.leadA, leadB := t.leadB, voices := t.voices, gateways := t.gateways, timed := t.timed
                 faults := t.faults, pointer := t.pointer, counters := t.counters, outq := t.outq
                 draws := t.draws } := by
  intro t
  have h := ((blockWork_onlyEngine ls L s).trans (blockWork_onlyEngine ls M _)).eq
  have hpedals : t.pedals = s.pedals := (blockWork_pedals ..).trans (blockWork_pedals ..)
  exact h.trans (by rw [hpedals])

/-! ### The completion check -/

theorem fadesDone_iff (L : Lead) (s : State) : fadesDone L s = true ↔
    ∀ v, (s.voice v).owner = some L → (s.voice v).state ≠ .rising ∧ (s.voice v).state ≠ .falling := by
  simp only [fadesDone, List.all_eq_true, Bool.and_eq_true, bne_iff_ne, SceneApplication.mem_ownedVoices, ne_eq]

theorem doneNotice_eq (L : Lead) (tr : Transition) (s : State) : doneNotice L tr s =
    { dest := 0, source := s.nodeAddr, kind := 0x61, tag := 0
      body := (match L with | .a => 0 | .b => 1) :: (match tr.kind with
        | .scene n => [0, BitVec.ofNat 8 n.val]
        | .silence => [5, 255]
        | .resume => [6, 255]) ++ bytes4 s.ltu.count } := by
  obtain ⟨level, kind⟩ := tr
  cases L <;> cases kind <;> rfl

theorem checkCompletion_facts (L : Lead) (s : State) :
    let t := checkCompletion L s
    ((s.lead L).transition = none → t = s)
    ∧ ∀ tr, (s.lead L).transition = some tr →
      ((∃ v, (s.voice v).owner = some L
        ∧ ((s.voice v).state = .rising ∨ (s.voice v).state = .falling)) → t = s)
      ∧ ((∀ v, (s.voice v).owner = some L →
          (s.voice v).state ≠ .rising ∧ (s.voice v).state ≠ .falling) →
        t = offerNotice (doneNotice L tr s) (s.setLead L { s.lead L with transition := none })) := by
  refine ⟨fun h => ?_, fun tr h => ⟨fun ⟨v, howner, hstate⟩ => ?_, fun hdone => ?_⟩⟩
  · show checkCompletion L s = s
    unfold checkCompletion
    rw [h]
  · show checkCompletion L s = s
    unfold checkCompletion
    rw [h]
    refine if_neg fun hdone => ?_
    obtain ⟨hr, hf⟩ := (fadesDone_iff L s).1 hdone v howner
    exact hstate.elim hr hf
  · show checkCompletion L s = _
    unfold checkCompletion
    rw [h]
    exact if_pos ((fadesDone_iff L s).2 hdone)

/-- Settles O13. -/
theorem blockEndWork : Obligations.BlockEndWork := by
  refine ⟨fun s hlow => ⟨fun h => ?_, fun h => ?_, fun h => ?_⟩, fun ls L s => rfl, fun L s => ?_⟩
  · refine (whenReleased_of_released hlow (takeBlockEnd s)).trans (congrArg _ (if_neg ?_))
    unfold isBlockEnd
    simpa using h
  · obtain ⟨L, M, hne, htake⟩ := takeBlockEnd_eq h
    have hrow : exec .blockEnd s = .next (blockWork s.ltu.link M (blockWork s.ltu.link L s.drawn)) :=
      (whenReleased_of_released hlow (takeBlockEnd s)).trans (congrArg _ htake)
    obtain ⟨hjudged, hcounts⟩ := blockWorks_judge hne s.ltu.link s.drawn
    obtain ⟨hevents, -⟩ := drawn_judges L L s
    obtain ⟨hevents', -⟩ := drawn_judges M M s
    refine ⟨_, hrow, blockWorks_frame s.ltu.link L M s.drawn, ?_, fun K => ?_, ?_⟩
    · exact ((blockWork_grows s.ltu.link L s.drawn).trans (blockWork_grows s.ltu.link M _)).prefix
    · obtain ⟨-, hsame⟩ := drawn_judges K K s
      have hlead : s.drawn.lead K = s.lead K := by cases K <;> rfl
      have hK := hjudged K
      rw [hsame, hlead] at hK
      exact hK
    · refine judgementsCounted hne fun code hcode => ?_
      have h := hcounts code hcode
      rw [hevents, hevents'] at h
      exact h
  · obtain ⟨L, M, hne, htake⟩ := takeBlockEnd_eq h
    exact ⟨L, M, hne, (whenReleased_of_released hlow (takeBlockEnd s)).trans (congrArg _ htake)⟩
  · obtain ⟨hnone, hsome⟩ := checkCompletion_facts L s
    refine ⟨hnone, fun tr htr => ⟨(hsome tr htr).1, fun hdone => ?_⟩⟩
    have ht := (hsome tr htr).2 hdone
    intro done
    have hq : done.outq = s.outq := by cases L <;> rfl
    refine ⟨fun hroom hnotices => ?_, fun hfull => ?_⟩
    · have hroom : noticeRoom done.outq = true := by
        rw [hq]
        exact (noticeRoom_iff _).2 ⟨hroom, hnotices⟩
      exact (ht.trans (offerNotice_room hroom _)).trans
        (congrArg₂ (fun q m => { done with outq := q ++ [OutItem.notice m] }) hq (doneNotice_eq L tr s))
    · have hfull : noticeRoom done.outq = false := by
        rw [hq]
        exact (noticeRoom_eq_false _).2 hfull
      have hdrop := offerNotice_full hfull (doneNotice L tr s)
      have hfault : (s.fault .noticeDrop) = done.fault .noticeDrop := by cases L <;> rfl
      rw [ht, hfault]
      exact ⟨hdrop.frame, hdrop.sets⟩

end Sys2Proof.Proofs.BlockEnds
end

