-- ==== Sys2Proof/Proofs/Losses.lean ====
section
/-! PROOF. A loss declaration (R26 to R29): the link, the lane, LINK_LOSS and CTRL_RUNON in either order, and the
loss action behind them (O6). -/

namespace Sys2Proof.Proofs.Losses

open Sys2Proof Sys2Proof.Machine Sys2Proof.Safety Sys2Proof.Proofs.Occurrences Sys2Proof.Proofs.Queues
  Sys2Proof.Proofs.CueFlush

/-- The two faults of a loss are raised: LINK_LOSS always, CTRL_RUNON where a message was under assembly. -/
structure LossRaised (assembling : Bool) (s t : State) : Prop where
  frame : t = { s with voices := t.voices, faults := t.faults, pointer := t.pointer
                       counters := t.counters, outq := t.outq, draws := t.draws }
  queue : s.outq <+: t.outq
  grows : StatusGrows s t
  linkLoss : (s.fault .linkLoss).detectMask = false → (t.fault .linkLoss).status = true
  ctrlRunon : assembling = true → (s.fault .ctrlRunon).detectMask = false → (t.fault .ctrlRunon).status = true
  quiet : assembling = false → t.fault .ctrlRunon = s.fault .ctrlRunon

/-- A status that an occurrence has set is set behind any other occurrence. -/
theorem raise_then_raise_sets {k j : FaultKind} (sc sc' : Scope) (s : State)
    (h : (s.fault k).detectMask = false) : ((raise j sc' (raise k sc s)).fault k).status = true :=
  (raise_statusGrows j sc' (raise k sc s) k).1 (raise_sets k sc s h)

theorem raise_behind_sets {k j : FaultKind} (sc sc' : Scope) (s : State)
    (h : (s.fault k).detectMask = false) : ((raise k sc (raise j sc' s)).fault k).status = true := by
  obtain ⟨-, hmask, -, -⟩ := raise_statusGrows j sc' s k
  exact raise_sets k sc _ (hmask.trans h)

theorem lossRaised_pair {k j : FaultKind} {sc sc' : Scope} {s t : State} (ht : t = raise j sc' (raise k sc s.drawn))
    (hloss : (s.fault .linkLoss).detectMask = false → (t.fault .linkLoss).status = true)
    (hrunon : (s.fault .ctrlRunon).detectMask = false → (t.fault .ctrlRunon).status = true) :
    LossRaised true s t := by
  subst ht
  have honly := (raise_onlyFaults k sc s.drawn).trans (raise_onlyFaults j sc' _)
  have hgrows := (raise_statusGrows k sc s.drawn).trans (raise_statusGrows j sc' _)
  refine ⟨?_, honly.queue, hgrows, hloss, fun _ => hrunon, nofun⟩
  have h := honly.eq
  generalize raise j sc' (raise k sc s.drawn) = t at h
  rw [h]
  rfl

theorem raiseLoss_quiet (s : State) : raiseLoss false s = raise .linkLoss .device s := rfl

theorem raiseLoss_assembling (s : State) :
    raiseLoss true s = raise .linkLoss .device (raise .ctrlRunon .none s.drawn)
      ∨ raiseLoss true s = raise .ctrlRunon .none (raise .linkLoss .device s.drawn) := by
  unfold raiseLoss
  rw [if_pos rfl]
  split
  · exact .inl rfl
  · exact .inr rfl

theorem raiseLoss_raised (assembling : Bool) (s : State) : LossRaised assembling s (raiseLoss assembling s) := by
  cases assembling with
  | false =>
    rw [raiseLoss_quiet]
    have honly := raise_onlyFaults .linkLoss .device s
    refine ⟨?_, honly.queue, raise_statusGrows .linkLoss .device s, raise_sets .linkLoss .device s, nofun,
      fun _ => raise_fault_ne (by decide) (by decide) .device s⟩
    have h := honly.eq
    generalize raise .linkLoss .device s = t at h
    rw [h]
  | true =>
    obtain h | h := raiseLoss_assembling s
    · refine lossRaised_pair h (fun hm => ?_) (fun hm => ?_)
      · rw [h]; exact raise_behind_sets (s := s.drawn) _ _ hm
      · rw [h]; exact raise_then_raise_sets (s := s.drawn) _ _ hm
    · refine lossRaised_pair h (fun hm => ?_) (fun hm => ?_)
      · rw [h]; exact raise_then_raise_sets (s := s.drawn) _ _ hm
      · rw [h]; exact raise_behind_sets (s := s.drawn) _ _ hm

/-! ### The loss action -/

/-- The loss action writes neither Fault Unit nor outbound queue (R29). -/
theorem lossEffect_side (s : State) : (lossEffect s).faults = s.faults ∧ (lossEffect s).outq = s.outq := by
  unfold lossEffect
  split <;> exact ⟨rfl, rfl⟩

theorem lossEffect_holdover {s : State} (h : s.config.lossAction = .holdover) : lossEffect s = s := by
  unfold lossEffect
  rw [h]

theorem lossEffect_engine {s : State} (h : s.config.lossAction = .engine) : lossEffect s = engineReset s := by
  unfold lossEffect
  rw [h]

/-! ### The declaration -/

/-- The state in which a loss raises its faults: HOLDOVER, and the lane cleared (R26, R27). -/
def lossCleared (s : State) : State := cleanLane { s with ltu := s.ltu.lost }

/-- A loss before its action (R26 to R28). -/
def lossRaised (s : State) : State := raiseLoss s.assembly.isSome (lossCleared s)

theorem declareLoss_eq (s : State) : declareLoss s = lossEffect (lossRaised s) := rfl

theorem lossRaised_spec (s : State) : LossRaised s.assembly.isSome (lossCleared s) (lossRaised s) :=
  raiseLoss_raised ..

theorem declareLoss_fault (s : State) (k : FaultKind) : (declareLoss s).fault k = (lossRaised s).fault k :=
  congrArg (·[(faultCode k).val]) (lossEffect_side (lossRaised s)).1

theorem lossRaised_config (s : State) : (lossRaised s).config = s.config := by
  rw [(lossRaised_spec s).frame]
  rfl

theorem declareLoss_holdover {s : State} (h : s.config.lossAction = .holdover) : declareLoss s = lossRaised s :=
  lossEffect_holdover ((congrArg ConfigRecord.lossAction (lossRaised_config s)).trans h)

theorem declareLoss_engine {s : State} (h : s.config.lossAction = .engine) :
    declareLoss s = engineReset (lossRaised s) :=
  lossEffect_engine ((congrArg ConfigRecord.lossAction (lossRaised_config s)).trans h)

theorem declareLoss_holdover_frame {s : State} (h : s.config.lossAction = .holdover) :
    let t := declareLoss s
    t = { s with ltu := s.ltu.lost, assembly := none, sender := .none, fifo := []
                 voices := t.voices, faults := t.faults, pointer := t.pointer
                 counters := t.counters, outq := t.outq, draws := t.draws } := by
  rw [declareLoss_holdover h]
  exact (lossRaised_spec s).frame

theorem declareLoss_engine_frame {s : State} (h : s.config.lossAction = .engine) :
    let t := declareLoss s
    t = { engineReset s with
          ltu := s.ltu.lost, assembly := none, sender := .none, fifo := []
          faults := t.faults, pointer := t.pointer, counters := t.counters
          outq := t.outq, draws := t.draws } := by
  intro t
  have ht : t = engineReset (lossRaised s) := declareLoss_engine h
  have hraised := (lossRaised_spec s).frame
  rw [ht]
  generalize lossRaised s = r at hraised ht
  rw [hraised]
  rfl

/-- A loss leaves HOLDOVER with the count kept, and a clear lane (R26, R27). -/
theorem declareLoss_link (s : State) : (declareLoss s).ltu = s.ltu.lost ∧ LaneCleared (declareLoss s) := by
  cases h : s.config.lossAction with
  | holdover =>
    have hframe := declareLoss_holdover_frame h
    simp only at hframe
    rw [hframe]
    exact ⟨rfl, rfl, rfl, rfl⟩
  | engine =>
    have hframe := declareLoss_engine_frame h
    simp only at hframe
    rw [hframe]
    exact ⟨rfl, rfl, rfl, rfl⟩

theorem declareLoss_queue (s : State) : s.outq <+: (declareLoss s).outq := by
  rw [declareLoss_eq, (lossEffect_side _).2]
  exact (lossRaised_spec s).queue

theorem declareLoss_linkLoss {s : State} (h : (s.fault .linkLoss).detectMask = false) :
    ((declareLoss s).fault .linkLoss).status = true := by
  rw [declareLoss_fault]
  exact (lossRaised_spec s).linkLoss h

theorem declareLoss_ctrlRunon {s : State} (ha : s.assembly ≠ none) (h : (s.fault .ctrlRunon).detectMask = false) :
    ((declareLoss s).fault .ctrlRunon).status = true := by
  rw [declareLoss_fault]
  exact (lossRaised_spec s).ctrlRunon (Option.isSome_iff_ne_none.2 ha) h

theorem declareLoss_quiet {s : State} (ha : s.assembly = none) :
    (declareLoss s).fault .ctrlRunon = s.fault .ctrlRunon := by
  rw [declareLoss_fault]
  exact (lossRaised_spec s).quiet (by rw [ha]; rfl)

/-! ### LOSS_BY_BAD_FRAMES -/

theorem exec_lossByBadFrames {s : State} (hlow : s.resetLow = false) (hrun : s.ltu.link.running = true)
    (hbad : s.ltu.badRun = 7) : exec .lossByBadFrames s = .next (declareLoss s) := by
  have hlost : loseByBadFrames s = declareLoss s := by
    unfold loseByBadFrames
    rw [if_pos ⟨hrun, Nat.le_of_eq (congrArg (· + 1) hbad).symm⟩]
  exact (whenReleased_of_released hlow _).trans (congrArg _ hlost)

/-- Settles O6: the row is a loss declaration. -/
theorem badFramesLoseTheLink : Obligations.BadFramesLoseTheLink := by
  intro s hlow hrun hbad
  obtain ⟨hltu, hlane⟩ := declareLoss_link s
  refine ⟨declareLoss s, exec_lossByBadFrames hlow hrun hbad, hltu, hlane, declareLoss_queue s,
    declareLoss_linkLoss, declareLoss_ctrlRunon, declareLoss_quiet, fun h => ?_, fun h => ?_, ?_⟩
  · rw [hltu]
    exact declareLoss_holdover_frame h
  · rw [hltu]
    exact declareLoss_engine_frame h
  · rw [hltu]
    intro cleared drawn act
    have hact : declareLoss s = act (lossRaised s) := by
      cases h : s.config.lossAction with
      | holdover =>
        simp only [act, h]
        exact declareLoss_holdover h
      | engine =>
        simp only [act, h]
        exact declareLoss_engine h
    refine ⟨fun ha => ?_, fun ha => ?_⟩
    · rw [hact]
      unfold lossRaised
      rw [ha]
      rfl
    · have hassembling : lossRaised s = raiseLoss true (lossCleared s) := by
        unfold lossRaised
        rw [Option.isSome_iff_ne_none.2 ha]
      rw [hact, hassembling]
      exact (raiseLoss_assembling (lossCleared s)).imp (congrArg act) (congrArg act)

end Sys2Proof.Proofs.Losses
end

