-- ==== Sys2Proof/Proofs/Outgoing.lean ====
section
/-! PROOF. The frame that leaves (R8, R10 to R13): its parts at their places, its check, and what a claimed slot
carries; and the bad frame that is passed on (R16; O11). -/

namespace Sys2Proof.Proofs.Outgoing

open Sys2Proof Sys2Proof.Machine Sys2Proof.Safety Sys2Proof.Proofs.Formats Sys2Proof.Proofs.VoiceLaws
  Sys2Proof.Proofs.CueFlush Sys2Proof.Proofs.Underlay Sys2Proof.Proofs.Queues Sys2Proof.Proofs.TableRequests

/-! ### Lists in parts of one length -/

/-- The part of an element in a list put together from parts of one length. -/
theorem part_flatMap {α : Type} {f : α → List Byte} {n : Nat} (hf : ∀ x, (f x).length = n) :
    ∀ (xs : List α) (i : Nat) (h : i < xs.length), ((xs.flatMap f).drop (n * i)).take n = f xs[i]
  | x :: xs, 0, _ => by
    rw [List.flatMap_cons, Nat.mul_zero, List.drop_zero, List.take_append_of_le_length (Nat.le_of_eq (hf x).symm),
      List.take_of_length_le (Nat.le_of_eq (hf x))]
    rfl
  | x :: xs, i + 1, h => by
    have hdrop : n * (i + 1) = (f x).length + n * i := by rw [hf, Nat.mul_succ, Nat.add_comm]
    rw [List.flatMap_cons, hdrop, List.drop_length_add_append]
    exact part_flatMap hf xs i (Nat.lt_of_succ_lt_succ h)

/-! ### The outgoing frame -/

theorem allSlots_get (k : Fin 24) : allSlots[k.val]'k.isLt = k := by revert k; decide

theorem mem_allSlots (k : Fin 24) : k ∈ allSlots := by revert k; decide

theorem slotBytes_length {bytes : List Byte} (h : bytes.length = 88) (k : Fin 24) :
    (slotBytes bytes k.val).length = 3 := by
  simp only [slotBytes, List.length_take, List.length_drop, h]
  omega

section
variable {ls : LinkState} {bytes : List Byte} {cs : List (Option (Fin 24))} {ys : List Int} {lane : List Byte}
  {good : Bool}

theorem outSlot_length (h : bytes.length = 88) (k : Fin 24) : (outSlot ls bytes cs ys k).length = 3 := by
  unfold outSlot
  split
  · rfl
  · exact slotBytes_length h k

theorem outSlots_length (h : bytes.length = 88) : (allSlots.flatMap (outSlot ls bytes cs ys)).length = 72 := by
  rw [length_flatMap_const (outSlot_length h)]
  rfl

theorem outBody_length (h : bytes.length = 88) (hlane : lane.length = 8) :
    (outBody ls bytes cs ys lane).length = 86 := by
  simp only [outBody, List.length_append, List.length_take, outSlots_length h, h, hlane]
  rfl

theorem outFrame_eq (body : List Byte) : ∃ c, outFrame good body = body ++ checkBytes c := ⟨_, rfl⟩

theorem outFrame_length (h : bytes.length = 88) (hlane : lane.length = 8) :
    (outFrame good (outBody ls bytes cs ys lane)).length = 88 := by
  obtain ⟨c, hc⟩ := outFrame_eq (good := good) (outBody ls bytes cs ys lane)
  rw [hc, List.length_append, outBody_length h hlane]
  rfl

/-- Sync word and count leave as received (R10). -/
theorem outFrame_head (h : bytes.length = 88) :
    (outFrame good (outBody ls bytes cs ys lane)).take 6 = bytes.take 6 := by
  obtain ⟨c, hc⟩ := outFrame_eq (good := good) (outBody ls bytes cs ys lane)
  have hlen : (bytes.take 6).length = 6 := by rw [List.length_take, h]; rfl
  rw [hc, outBody, List.append_assoc, List.append_assoc, List.take_append_of_le_length (Nat.le_of_eq hlen.symm),
    List.take_of_length_le (Nat.le_of_eq hlen)]

/-- The lane leaves at its place (R11). -/
theorem outFrame_lane (h : bytes.length = 88) (hlane : lane.length = 8) :
    laneBytes (outFrame good (outBody ls bytes cs ys lane)) = lane := by
  obtain ⟨c, hc⟩ := outFrame_eq (good := good) (outBody ls bytes cs ys lane)
  have hlen : (bytes.take 6 ++ allSlots.flatMap (outSlot ls bytes cs ys)).length = 78 := by
    simp only [List.length_append, List.length_take, outSlots_length h, h]
    rfl
  rw [hc, laneBytes, outBody, List.append_assoc, List.drop_append_of_le_length (Nat.le_of_eq hlen.symm),
    List.drop_of_length_le (Nat.le_of_eq hlen), List.nil_append,
    List.take_append_of_le_length (Nat.le_of_eq hlane.symm), List.take_of_length_le (Nat.le_of_eq hlane)]

/-- Each slot leaves as received or with its claimed sample (R8, R10). -/
theorem outFrame_slot (h : bytes.length = 88) (k : Fin 24) :
    slotBytes (outFrame good (outBody ls bytes cs ys lane)) k.val = outSlot ls bytes cs ys k := by
  obtain ⟨c, hc⟩ := outFrame_eq (good := good) (outBody ls bytes cs ys lane)
  have hhead : (bytes.take 6).length = 6 := by rw [List.length_take, h]; rfl
  have hpart : 3 ≤ ((allSlots.flatMap (outSlot ls bytes cs ys)).drop (3 * k.val)).length := by
    rw [List.length_drop, outSlots_length h]
    omega
  have hat : 6 + 3 * k.val = (bytes.take 6).length + 3 * k.val := by rw [hhead]
  rw [hc, slotBytes, outBody, List.append_assoc, List.append_assoc, hat, List.drop_length_add_append,
    List.drop_append_of_le_length (by rw [outSlots_length h]; omega), List.take_append_of_le_length hpart,
    part_flatMap (outSlot_length h) allSlots k.val k.isLt, allSlots_get]

theorem outFrame_slot_unclaimed (h : bytes.length = 88) {k : Fin 24} (hk : claimed cs k = false) :
    slotBytes (outFrame good (outBody ls bytes cs ys lane)) k.val = slotBytes bytes k.val := by
  rw [outFrame_slot h, outSlot, hk]
  rfl

theorem outFrame_slot_claimed (h : bytes.length = 88) {k : Fin 24} (hk : claimed cs k = true) :
    slotBytes (outFrame good (outBody ls bytes cs ys lane)) k.val = sampleBytes (claimedSample ls cs ys k) := by
  rw [outFrame_slot h, outSlot, hk]
  rfl

end

theorem sampleBytes_zero : sampleBytes 0 = [0, 0, 0] := by decide

theorem claimedSample_unlocked {ls : LinkState} (h : ls ≠ .locked) (cs : List (Option (Fin 24))) (ys : List Int)
    (k : Fin 24) : claimedSample ls cs ys k = 0 := if_neg h

/-! ### A bad frame outside the running states -/

/-- A change of the receiver or the pins comes before or behind an occurrence alike. -/
theorem raise_pins (k : FaultKind) (sc : Scope) (pins : PedalPins) (s : State) :
    raise k sc { s with pedalPins := pins } = { raise k sc s with pedalPins := pins } := by
  have h : SameReads s { s with pedalPins := pins } := ⟨rfl, rfl, fun _ => rfl⟩
  have honly := raise_onlyFaults k sc s
  calc raise k sc { s with pedalPins := pins }
      = raise k sc (onto s { s with pedalPins := pins }) := rfl
    _ = onto (raise k sc s) { s with pedalPins := pins } := raise_onto h k sc
    _ = { onto (raise k sc s) s with pedalPins := pins } := rfl
    _ = { raise k sc s with pedalPins := pins } := by rw [onto_of_onlyFaults honly]

theorem exec_frameArrival {s : State} (hlow : s.resetLow = false) (bytes : List Byte) (pins : PedalPins) :
    exec (.frameArrival bytes pins) s = .next (arriveFrame bytes pins s) :=
  whenReleased_of_released hlow _

theorem arriveFrame_discards {bytes : List Byte} (h : isFrame bytes = false) (pins : PedalPins) (s : State) :
    arriveFrame bytes pins s = s := by
  unfold arriveFrame
  rw [h]
  rfl

/-- The frame that is passed on (R13, R16). -/
def passedOut (bytes : List Byte) (s : State) : List Byte :=
  outFrame false (outBody s.ltu.link bytes (claims s) [] idleLane)

theorem arriveFrame_passes {bytes : List Byte} (hframe : isFrame bytes = true) (hbad : frameGood bytes = false)
    {s : State} (hrun : s.ltu.link.running = false) (pins : PedalPins) :
    arriveFrame bytes pins s = { raise .frameCheck .device s with
      pedalPins := pins, receiver := { framed := true, sinceStart := none }
      linkOut := some (passedOut bytes s) } := by
  unfold arriveFrame
  rw [if_pos hframe]
  simp only [hbad, hrun, Bool.false_eq_true, if_false, passBadFrame, raise_pins]
  rfl

theorem not_locked_of_not_running {ls : LinkState} (h : ls.running = false) : ls ≠ .locked := by
  rintro rfl
  cases h

/-- Settles O11: an occurrence of FRAME_CHECK, and a frame built with no voice sample. -/
theorem badFramePassed : Obligations.BadFramePassed := by
  intro bytes pins s hlow
  refine ⟨fun hframe => ?_, fun hframe hbad hrun => ?_⟩
  · rw [exec_frameArrival hlow, arriveFrame_discards hframe]
  · obtain ⟨hlen, -, -⟩ := (isFrame_iff bytes).1 hframe
    have honly := raise_onlyFaults .frameCheck .device s
    obtain ⟨hgood, hcheck⟩ := outFrame_bad (outBody s.ltu.link bytes (claims s) [] idleLane)
      (outBody_length hlen rfl)
    refine ⟨_, passedOut bytes s, by rw [exec_frameArrival hlow, arriveFrame_passes hframe hbad hrun], ?_, rfl,
      raise_sets .frameCheck .device s, honly.queue, outFrame_length hlen rfl, outFrame_head hlen,
      outFrame_lane hlen rfl, hcheck, hgood, fun k => ?_⟩
    · have h := honly.eq
      generalize raise .frameCheck .device s = t at h
      rw [h]
    · split
      next hk =>
        exact (outFrame_slot_claimed hlen hk).trans (by
          rw [claimedSample_unlocked (not_locked_of_not_running hrun), sampleBytes_zero])
      next hk => exact outFrame_slot_unclaimed hlen (Bool.eq_false_iff.2 hk)

end Sys2Proof.Proofs.Outgoing
end

