-- ==== Sys2Proof/Proofs/LaneAssembly.lean ====
section
/-! PROOF. Lane frames at the assembly buffer, and a message in the device's own cut as it is received (R166 to
R174, R186; O29). -/

namespace Sys2Proof.Proofs.LaneAssembly

open Sys2Proof Sys2Proof.Machine Sys2Proof.Safety Sys2Proof.Proofs.Formats

/-! ### Messages -/

theorem messageOk_iff (bytes : List Byte) : messageOk bytes = true ↔
    bytes.length = 7 + (byteAt bytes 4).toNat
      ∧ bytes.drop (bytes.length - 2) = checkBytes (crc (bytes.take (bytes.length - 2))) := by
  simp only [messageOk, Bool.and_eq_true, beq_iff_eq]
  exact and_congr_right fun _ => eq_comm

/-- The bytes of a message before its check. -/
def front (m : Message) : List Byte := [m.dest, m.source, m.kind, m.tag, byte1 m.body.length] ++ m.body

theorem messageBytes_eq (m : Message) : messageBytes m = front m ++ checkBytes (crc (front m)) := rfl

theorem front_length (m : Message) : (front m).length = 5 + m.body.length := by
  simp only [front, List.length_append]
  rfl

theorem front_at (m : Message) {i : Nat} (h : i < 5) : byteAt (messageBytes m) i = byteAt (front m) i :=
  byteAt_append_left (xs := front m) (by rw [front_length]; omega) _

theorem messageBytes_body (m : Message) : ((messageBytes m).drop 5).take m.body.length = m.body := by
  have hdrop : (messageBytes m).drop 5 = m.body ++ checkBytes (crc (front m)) := rfl
  rw [hdrop, List.take_append_of_le_length (Nat.le_refl _), List.take_length]

section
variable {m : Message} (h : m.body.length ≤ 96)
include h

theorem messageBytes_bodyLength : (byteAt (messageBytes m) 4).toNat = m.body.length := by
  rw [front_at m (by decide)]
  exact byte1_toNat_of_lt (by omega)

/-- A message of this device is well formed (R166, R170). -/
theorem messageOk_messageBytes : messageOk (messageBytes m) = true := by
  have hlen : (messageBytes m).length - 2 = (front m).length := by
    rw [messageBytes_length, front_length]
    omega
  refine (messageOk_iff _).2 ⟨?_, ?_⟩
  · rw [messageBytes_bodyLength h, messageBytes_length]
  · rw [hlen, messageBytes_eq, List.drop_append_of_le_length (Nat.le_refl _), List.drop_length, List.nil_append,
      List.take_append_of_le_length (Nat.le_refl _), List.take_length]

/-- The request of a message of this device has the message's fields (R166, R176). -/
theorem requestOf_messageBytes (broadcast : Bool) : requestOf (messageBytes m) broadcast =
    (m.kind, { source := m.source, tag := m.tag, broadcast := broadcast, body := m.body }) := by
  unfold requestOf
  rw [messageBytes_bodyLength h, messageBytes_body m]
  rfl

end

/-! ### Frames at the buffer -/

theorem abandon_eq (s : State) : abandon s = abandoned s := by
  unfold abandon abandoned
  cases s.sender <;> rfl

theorem routeOf_eq (s : State) (dest : Byte) : routeOf s dest = chosenRoute s dest := rfl

theorem chosenRoute_drops (s : State) (dest : Byte) :
    (chosenRoute s dest).mode = some .drop ↔ dest ≠ s.nodeAddr ∧ 2 ≤ s.fifo.length := by
  have hmode : chosenMode s = .drop ↔ 2 ≤ s.fifo.length := by
    unfold chosenMode
    split
    next h => simp [h]
    next h =>
      split
      · simp [h]
      · simp [h]
  unfold chosenRoute
  split
  next h => simp [Route.mode, h]
  next h => split <;> simp [Route.mode, h, hmode]

theorem route_mode_iff (r : Route) (m : RelayMode) : r.mode = some m ↔ r = .relay m ∨ r = .consumeAndRelay m := by
  cases r <;> simp [Route.mode]

/-- A START at an EMPTY buffer (R168, R171). -/
theorem beginMessage_eq (bytes : List Byte) (s : State) : beginMessage bytes s =
    { state := { s with
        assembly := some { bytes := bytes, gap := 0, route := chosenRoute s (byteAt bytes 0) } }
      raised := if decide (byteAt bytes 0 ≠ s.nodeAddr ∧ 2 ≤ s.fifo.length) then [.relayDrop] else []
      request := none } := by
  have h := chosenRoute_drops s (byteAt bytes 0)
  unfold beginMessage
  simp only [routeOf_eq, h, decide_eq_true_eq]

section
variable {s : State} {a : Assembly}

theorem assemble_start_empty (bytes : List Byte) (h : s.assembly = none) :
    assemble (.start bytes) s = beginMessage bytes s := by
  simp only [assemble, h]

theorem assemble_start_over (bytes : List Byte) (h : s.assembly = some a) :
    assemble (.start bytes) s = { beginMessage bytes (abandoned s) with
      raised := .ctrlRunon :: (beginMessage bytes (abandoned s)).raised } := by
  simp only [assemble, h, abandon_eq]

theorem gapFrame_empty (h : s.assembly = none) : gapFrame s = (s, false) := by
  simp only [gapFrame, h]

theorem gapFrame_short (h : s.assembly = some a) (hgap : a.gap < 8) :
    gapFrame s = ({ s with assembly := some { a with gap := a.gap + 1 } }, false) := by
  simp only [gapFrame, h]
  exact if_neg (Nat.not_le.2 (Nat.succ_lt_succ hgap))

theorem gapFrame_long (h : s.assembly = some a) (hgap : 8 ≤ a.gap) : gapFrame s = (abandoned s, true) := by
  simp only [gapFrame, h, abandon_eq]
  exact if_pos (Nat.succ_le_succ hgap)

theorem assemble_idle (s : State) : assemble .idle s =
    { state := (gapFrame s).1, raised := if (gapFrame s).2 then [.ctrlRunon] else [], request := none } := rfl

theorem appendBytes_empty (bytes : List Byte) (last : Bool) (h : s.assembly = none) :
    appendBytes bytes last s = { state := s, raised := [], request := none } := by
  simp only [appendBytes, h]

theorem appendBytes_long {bytes : List Byte} (last : Bool) (h : s.assembly = some a)
    (hlong : 103 < (a.bytes ++ bytes).length) :
    appendBytes bytes last s = { state := abandoned s, raised := [.ctrlRunon], request := none } := by
  simp only [appendBytes, h, abandon_eq]
  exact if_pos hlong

theorem appendBytes_more {bytes : List Byte} (h : s.assembly = some a)
    (hfits : (a.bytes ++ bytes).length ≤ 103) :
    appendBytes bytes false s =
      { state := { s with assembly := some { a with bytes := a.bytes ++ bytes, gap := 0 } }, raised := []
        request := none } := by
  simp only [appendBytes, h]
  exact if_neg (Nat.not_lt.2 hfits)

theorem appendBytes_last {bytes : List Byte} (h : s.assembly = some a)
    (hfits : (a.bytes ++ bytes).length ≤ 103) :
    appendBytes bytes true s = judgeMessage { a with bytes := a.bytes ++ bytes, gap := 0 } s := by
  simp only [appendBytes, h]
  exact if_neg (Nat.not_lt.2 hfits)

theorem judgeMessage_bad (h : messageOk a.bytes = false) :
    judgeMessage a s = { state := { s with assembly := none }, raised := [.ctrlCheck], request := none } := by
  unfold judgeMessage
  rw [h]
  rfl

/-- The request that a route makes of a well-formed message (R170, R171). -/
def handedOver (route : Route) (bytes : List Byte) : Option (Byte × Req) :=
  match route with
  | .consume => some (requestOf bytes false)
  | .consumeAndRelay _ => some (requestOf bytes true)
  | .relay _ => none

theorem judgeMessage_ok (h : messageOk a.bytes = true) :
    judgeMessage a s =
      { state := { s with assembly := none
                          fifo := if a.route.mode = some .capture then s.fifo ++ [a.bytes] else s.fifo }
        raised := []
        request := handedOver a.route a.bytes } := by
  unfold judgeMessage
  rw [if_pos h]
  split <;> rfl

end

/-! ### A message in the device's own cut -/

theorem nextPiece_first (bytes : List Byte) : nextPiece bytes 0 =
    (encodeLane 1 (bytes.take (min 7 (bytes.length - 1))), some (min 7 (bytes.length - 1))) := if_pos rfl

section
variable {bytes : List Byte} {k : Nat}

theorem nextPiece_more (hk : 0 < k) (h : k + 7 < bytes.length) :
    nextPiece bytes k = (encodeLane 2 ((bytes.drop k).take 7), some (k + 7)) := by
  unfold nextPiece
  rw [if_neg (Nat.ne_of_gt hk), if_pos (by omega)]

theorem nextPiece_last (hk : 0 < k) (h : bytes.length ≤ k + 7) :
    nextPiece bytes k = (encodeLane 3 (bytes.drop k), none) := by
  unfold nextPiece
  rw [if_neg (Nat.ne_of_gt hk), if_neg (by omega)]

end

theorem lanePieces_last {fuel : Nat} {bytes piece : List Byte} {k : Nat} (h : nextPiece bytes k = (piece, none)) :
    lanePieces (fuel + 1) bytes k = [piece] := by
  rw [lanePieces, h]

theorem lanePieces_more {fuel : Nat} {bytes piece : List Byte} {k j : Nat} (h : nextPiece bytes k = (piece, some j)) :
    lanePieces (fuel + 1) bytes k = piece :: lanePieces fuel bytes j := by
  rw [lanePieces, h]

theorem take_append_drop_take (bytes : List Byte) (k n : Nat) :
    bytes.take k ++ (bytes.drop k).take n = bytes.take (k + n) := by
  rw [List.take_add]

theorem judgeMessage_assembly (a : Assembly) (s : State) (x : Option Assembly) :
    judgeMessage a { s with assembly := x } = judgeMessage a s := rfl

/-- What follows the START of a message in the device's own cut: so many frames, and at a buffer that holds what
was sent the judgement of the whole message. -/
theorem receive_rest {bytes : List Byte} (route : Route) (hmax : bytes.length ≤ 103) :
    ∀ (fuel k : Nat) (s : State), 0 < k → k < bytes.length → bytes.length - k ≤ 7 * fuel →
      s.assembly = some { bytes := bytes.take k, gap := 0, route := route } →
      (lanePieces fuel bytes k).length = (bytes.length - k + 6) / 7
        ∧ receiveLanes (lanePieces fuel bytes k) s =
          judgeMessage { bytes := bytes, gap := 0, route := route } s
  | 0, k, s, _, hlt, hfuel, _ => absurd hfuel (by omega)
  | fuel + 1, k, s, hk, hlt, hfuel, ha => by
    by_cases hmore : k + 7 < bytes.length
    · have hlen : ((bytes.drop k).take 7).length = 7 := by
        simp only [List.length_take, List.length_drop]
        omega
      obtain ⟨-, hdecode, -⟩ := decodeLane_encodeLane ((bytes.drop k).take 7) (by omega) (by omega)
      have hfits : (bytes.take k ++ (bytes.drop k).take 7).length ≤ 103 := by
        simp only [List.length_append, hlen, List.length_take]
        omega
      have happend := appendBytes_more ha hfits
      simp only [take_append_drop_take] at happend
      obtain ⟨hcount, hreceive⟩ := receive_rest route hmax fuel (k + 7)
        { s with assembly := some { bytes := bytes.take (k + 7), gap := 0, route := route } } (by omega) hmore
        (by omega) rfl
      rw [lanePieces_more (nextPiece_more hk hmore)]
      refine ⟨by rw [List.length_cons, hcount]; omega, ?_⟩
      simp only [receiveLanes, hdecode, assemble, happend, hreceive, judgeMessage_assembly, List.nil_append]
      generalize judgeMessage { bytes := bytes, gap := 0, route := route } s = q
      obtain ⟨_, _, _ | _⟩ := q <;> rfl
    · have hlen : (bytes.drop k).length = bytes.length - k := List.length_drop
      obtain ⟨-, -, hdecode⟩ := decodeLane_encodeLane (bytes.drop k) (by omega) (by omega)
      have hwhole : bytes.take k ++ bytes.drop k = bytes := List.take_append_drop k bytes
      have happend := appendBytes_last (bytes := bytes.drop k) ha (by rw [hwhole]; exact hmax)
      simp only [hwhole] at happend
      rw [lanePieces_last (nextPiece_last hk (Nat.not_lt.1 hmore))]
      refine ⟨by rw [List.length_singleton]; omega, ?_⟩
      simp only [receiveLanes, hdecode, assemble, happend, List.append_nil]

/-- A message in the device's own cut at an EMPTY buffer: its frames, the drop its START may raise, and the
judgement of the whole message (R168, R171, R172). -/
theorem receive_message {s : State} {bytes : List Byte} (ha : s.assembly = none) (hmin : 7 ≤ bytes.length)
    (hmax : bytes.length ≤ 103) :
    (lanePieces 16 bytes 0).length = max 2 ((bytes.length + 6) / 7)
      ∧ receiveLanes (lanePieces 16 bytes 0) s =
        let q := judgeMessage { bytes := bytes, gap := 0, route := chosenRoute s (byteAt bytes 0) } s
        { state := q.state, raised := (beginMessage bytes s).raised ++ q.raised, request := q.request } := by
  generalize hk : min 7 (bytes.length - 1) = k
  have hlen : (bytes.take k).length = k := by
    rw [List.length_take]
    omega
  obtain ⟨hdecode, -, -⟩ := decodeLane_encodeLane (bytes.take k) (by omega) (by omega)
  have hfirst : byteAt (bytes.take k) 0 = byteAt bytes 0 := by
    unfold byteAt
    rw [List.getD_eq_getElem _ _ (by omega), List.getD_eq_getElem _ _ (by omega), List.getElem_take]
  have hbegin : beginMessage (bytes.take k) s =
      { state := { s with assembly := some { bytes := bytes.take k, gap := 0
                                             route := chosenRoute s (byteAt bytes 0) } }
        raised := (beginMessage bytes s).raised, request := none } := by
    rw [beginMessage_eq, beginMessage_eq, hfirst]
  obtain ⟨hcount, hreceive⟩ := receive_rest (chosenRoute s (byteAt bytes 0)) hmax 15 k
    { s with assembly := some { bytes := bytes.take k, gap := 0, route := chosenRoute s (byteAt bytes 0) } }
    (by omega) (by omega) (by omega) rfl
  have hpiece := nextPiece_first bytes
  rw [hk] at hpiece
  rw [lanePieces_more hpiece]
  refine ⟨by rw [List.length_cons, hcount]; omega, ?_⟩
  simp only [receiveLanes, hdecode, assemble_start_empty _ ha, hbegin, hreceive, judgeMessage_assembly]
  cases (judgeMessage { bytes := bytes, gap := 0, route := chosenRoute s (byteAt bytes 0) } s).request <;> rfl

/-! ### The statement -/

theorem roundTrip {s : State} {m : Message} (ha : s.assembly = none) (hbody : m.body.length ≤ 96) :
    (lanePieces 16 (messageBytes m) 0).length = max 2 (((messageBytes m).length + 6) / 7)
      ∧ receiveLanes (lanePieces 16 (messageBytes m) 0) s =
        { state := { s with fifo := if (chosenRoute s m.dest).mode = some .capture then s.fifo ++ [messageBytes m]
                                    else s.fifo }
          raised := if decide (m.dest ≠ s.nodeAddr ∧ 2 ≤ s.fifo.length) then [.relayDrop] else []
          request := handedOver (chosenRoute s m.dest) (messageBytes m) } := by
  have hlen := messageBytes_length m
  have hdest : byteAt (messageBytes m) 0 = m.dest := rfl
  obtain ⟨hcount, hreceive⟩ := receive_message (s := s) (bytes := messageBytes m) ha (by omega) (by omega)
  refine ⟨hcount, ?_⟩
  have hsame : ({ s with assembly := none } : State) = s := by rw [← ha]
  rw [hreceive, hdest, judgeMessage_ok (messageOk_messageBytes hbody), beginMessage_eq, hdest]
  simp only [List.append_nil]
  rw [← ha]

/-- Settles O29: the frames of a message are received one after another, by the branches of assembly. -/
theorem laneRoundTrip : Obligations.LaneRoundTrip := by
  refine ⟨fun s m ha hbody => ?_, fun s bytes => ⟨fun ha => ?_, fun a ha => ?_⟩, route_mode_iff, messageOk_iff⟩
  · obtain ⟨hcount, hreceive⟩ := roundTrip (m := m) ha hbody
    intro lanes r
    have hr : r = _ := hreceive
    refine ⟨hcount, fun hdest => ?_, fun hdest hnode => ?_⟩
    · have hroute : chosenRoute s m.dest = .consume := if_pos hdest
      rw [hr, hroute, hdest]
      refine ⟨if_neg (by simp), rfl, ?_⟩
      simp only [handedOver, requestOf_messageBytes hbody]
    · have hne : m.dest ≠ s.nodeAddr := fun e => hnode (e.symm.trans hdest)
      have hroute : chosenRoute s m.dest = .consumeAndRelay (chosenMode s) := by
        unfold chosenRoute
        rw [if_neg hne, if_pos (show m.dest = 63#8 from hdest)]
      rw [hr, hroute]
      refine ⟨by simp [hne], ?_, ?_⟩
      · simp only [handedOver, requestOf_messageBytes hbody]
      · simp only [Route.mode, Option.some.injEq]
  · refine ⟨?_, appendBytes_empty bytes false ha, appendBytes_empty bytes true ha, ?_⟩
    · rw [assemble_start_empty bytes ha, beginMessage_eq]
    · rw [assemble_idle, gapFrame_empty ha]
      rfl
  · refine ⟨?_, fun hgap => ?_, fun hgap => ?_, fun hlong => ?_, fun hfits => ⟨?_, fun hbad => ?_, fun hok => ?_⟩⟩
    · rw [assemble_start_over bytes ha, beginMessage_eq]
      rfl
    · rw [assemble_idle, gapFrame_short ha hgap]
      rfl
    · rw [assemble_idle, gapFrame_long ha hgap]
      rfl
    · exact ⟨appendBytes_long false ha hlong, appendBytes_long true ha hlong⟩
    · exact appendBytes_more ha hfits
    · exact (appendBytes_last ha hfits).trans (judgeMessage_bad hbad)
    · exact (appendBytes_last ha hfits).trans (judgeMessage_ok hok)

end Sys2Proof.Proofs.LaneAssembly
end

