-- ==== Sys2Proof/Proofs/Traces.lean ====
section
/-! PROOF. A frame's free orders as one list of acts (R91, R107, R149, R159): whatever order is drawn, each thing
that is to be taken is taken once, and each voice works once. -/

namespace Sys2Proof.Proofs.Traces

open Sys2Proof Sys2Proof.Machine Sys2Proof.Safety

/-! ### Acts -/

/-- One act of a frame: a free order drawn, a thing taken, or a voice's work. -/
inductive Act where
  | draw
  | task (t : Task)
  | voice (v : VoiceId)

def Act.run (ls : LinkState) (a : Act) (s : State) : State :=
  match a with
  | .draw => s.drawn
  | .task t => runTask ls t s
  | .voice v => (voiceWork v s).state

def Act.task? : Act → Option Task
  | .draw => none
  | .task t => some t
  | .voice _ => none

def Act.voice? : Act → Option VoiceId
  | .draw => none
  | .task _ => none
  | .voice v => some v

/-- The state behind several acts. -/
def runActs (ls : LinkState) (acts : List Act) (s : State) : State := acts.foldl (fun s a => a.run ls s) s

/-- The things taken by several acts, in their order. -/
def tasksOf (acts : List Act) : List Task := acts.filterMap Act.task?

/-- The voices that work in several acts, in their order. -/
def voicesOf (acts : List Act) : List VoiceId := acts.filterMap Act.voice?

section
variable (ls : LinkState)

theorem runActs_cons (a : Act) (acts : List Act) (s : State) :
    runActs ls (a :: acts) s = runActs ls acts (a.run ls s) := rfl

theorem runActs_append (acts acts' : List Act) (s : State) :
    runActs ls (acts ++ acts') s = runActs ls acts' (runActs ls acts s) := List.foldl_append

theorem tasksOf_append (acts acts' : List Act) : tasksOf (acts ++ acts') = tasksOf acts ++ tasksOf acts' :=
  List.filterMap_append

theorem voicesOf_append (acts acts' : List Act) : voicesOf (acts ++ acts') = voicesOf acts ++ voicesOf acts' :=
  List.filterMap_append

theorem tasksOf_tasks (ts : List Task) : tasksOf (ts.map .task) = ts := by
  induction ts with
  | nil => rfl
  | cons t ts ih => exact congrArg (t :: ·) ih

theorem voicesOf_tasks (ts : List Task) : voicesOf (ts.map .task) = [] := by
  induction ts with
  | nil => rfl
  | cons t ts ih => exact ih

theorem mem_tasksOf {t : Task} {acts : List Act} : t ∈ tasksOf acts ↔ Act.task t ∈ acts := by
  unfold tasksOf
  rw [List.mem_filterMap]
  constructor
  · rintro ⟨a, ha, h⟩
    cases a with
    | draw => cases h
    | voice v => cases h
    | task u =>
      cases h
      exact ha
  · exact fun h => ⟨_, h, rfl⟩

theorem mem_voicesOf {v : VoiceId} {acts : List Act} : v ∈ voicesOf acts ↔ Act.voice v ∈ acts := by
  unfold voicesOf
  rw [List.mem_filterMap]
  constructor
  · rintro ⟨a, ha, h⟩
    cases a with
    | draw => cases h
    | task t => cases h
    | voice u =>
      cases h
      exact ha
  · exact fun h => ⟨_, h, rfl⟩

/-- The place of a voice's work among the acts. -/
theorem split_at_voice {v : VoiceId} {acts : List Act} (h : v ∈ voicesOf acts) :
    ∃ pre post, acts = pre ++ .voice v :: post :=
  List.append_of_mem (mem_voicesOf.1 h)

/-- The place at which a thing is taken. -/
theorem split_at_task {t : Task} {acts : List Act} (h : t ∈ tasksOf acts) :
    ∃ pre post, acts = pre ++ .task t :: post :=
  List.append_of_mem (mem_tasksOf.1 h)

/-- What every act keeps, the acts keep. -/
theorem runActs_keeps {P : State → Prop} : ∀ (acts : List Act) (s : State), (∀ a ∈ acts, ∀ u, P u → P (a.run ls u)) →
    P s → P (runActs ls acts s)
  | [], _, _, h => h
  | a :: acts, s, k, h =>
    runActs_keeps acts (a.run ls s) (fun b m => k b (List.mem_cons_of_mem _ m)) (k a List.mem_cons_self s h)

/-! ### Choosing one of several -/

theorem choose_perm {α : Type} (x : α) (xs : List α) {i : Nat} (h : i < (x :: xs).length) :
    ((x :: xs).getD i x :: (x :: xs).eraseIdx i).Perm (x :: xs) := by
  rw [List.getD_eq_getElem _ _ h]
  exact List.getElem_cons_eraseIdx_perm h

theorem nextOrder_lt {s : State} {n : Nat} (h : 0 < n) : s.nextOrder n < n := Nat.mod_lt _ h

/-! ### The free orders of a frame -/

theorem takeSome_ran : ∀ (fuel : Nat) (p : Pass), ∃ acts,
    (takeSome ls fuel p).state = runActs ls acts p.state ∧ (tasksOf acts ++ (takeSome ls fuel p).late).Perm p.late
      ∧ voicesOf acts = []
  | 0, p => ⟨[], rfl, .refl _, rfl⟩
  | fuel + 1, p => by
    unfold takeSome
    split
    · exact ⟨[], rfl, .refl _, rfl⟩
    next t rest e =>
      simp only
      split
      next hle =>
        obtain ⟨acts, hstate, hlate, hvoices⟩ := takeSome_ran fuel
          { state := runTask ls ((t :: rest).getD (p.state.nextOrder (rest.length + 2)) t) p.state.drawn
            late := (t :: rest).eraseIdx (p.state.nextOrder (rest.length + 2)) }
        refine ⟨.draw :: .task ((t :: rest).getD (p.state.nextOrder (rest.length + 2)) t) :: acts, hstate, ?_, hvoices⟩
        rw [e]
        exact (hlate.cons _).trans (choose_perm t rest (Nat.lt_succ_of_le hle))
      · exact ⟨[.draw], rfl, .refl _, rfl⟩

theorem runTasks_ran : ∀ (fuel : Nat) (ts : List Task) (s : State), ts.length ≤ fuel → ∃ acts,
    runTasks ls fuel ts s = runActs ls acts s ∧ (tasksOf acts).Perm ts ∧ voicesOf acts = []
  | 0, ts, s, h => ⟨[], rfl, by rw [List.eq_nil_of_length_eq_zero (Nat.le_zero.1 h)]; exact .refl _, rfl⟩
  | fuel + 1, [], s, _ => ⟨[], rfl, .refl _, rfl⟩
  | fuel + 1, [t], s, _ => ⟨[.task t], rfl, .refl _, rfl⟩
  | fuel + 1, t :: t' :: rest, s, h => by
    have hlt : s.nextOrder (t :: t' :: rest).length < (t :: t' :: rest).length := nextOrder_lt (by simp)
    have hlen := List.length_eraseIdx_of_lt hlt
    obtain ⟨acts, hstate, hperm, hvoices⟩ := runTasks_ran fuel
      ((t :: t' :: rest).eraseIdx (s.nextOrder (t :: t' :: rest).length))
      (runTask ls ((t :: t' :: rest).getD (s.nextOrder (t :: t' :: rest).length) t) s.drawn)
      (by rw [hlen]; simp only [List.length_cons] at h ⊢; omega)
    exact ⟨.draw :: .task ((t :: t' :: rest).getD (s.nextOrder (t :: t' :: rest).length) t) :: acts, hstate,
      (hperm.cons _).trans (choose_perm t (t' :: rest) hlt), hvoices⟩

theorem finishFrame_ran (limit : Nat) (lines : List LineId) (p : Pass) : ∃ acts,
    finishFrame ls limit lines p = runActs ls acts p.state
      ∧ (tasksOf acts).Perm (p.late ++ lines.map fun l => .pedal l limit) ∧ voicesOf acts = [] := by
  unfold finishFrame
  split
  next h =>
    refine ⟨(lines.map fun l => Task.pedal l limit).map .task, ?_, ?_, voicesOf_tasks _⟩
    · rw [runActs, List.foldl_map, List.foldl_map]
      rfl
    · rw [tasksOf_tasks, h.1]
      exact .refl _
  · exact runTasks_ran ls _ _ _ (Nat.le_refl _)

/-! ### The voices' work -/

/-- The sample of a voice is that of its work at its place among the acts. -/
def Sampled (acts : List Act) (s : State) (ys : List Int) (v : VoiceId) : Prop :=
  ∃ pre post, acts = pre ++ .voice v :: post ∧ ys.getD v.val 0 = (voiceWork v (runActs ls pre s)).sample

/-- The ENTRY_SKIPPED occurrences of the fall ends among the acts. -/
def Skips (acts : List Act) (s : State) (ts : List Task) : Prop :=
  ∀ t ∈ ts, ∃ L, t = .occurrence .entrySkipped (.lead L)
    ∧ ∃ v pre post, acts = pre ++ .voice v :: post ∧ (voiceWork v (runActs ls pre s)).skipped = some L

theorem skips_behind {acts : List Act} {s : State} {ts : List Task} (front : List Act)
    (h : Skips ls acts (runActs ls front s) ts) : Skips ls (front ++ acts) s ts := by
  intro t m
  obtain ⟨L, e, v, pre, post, rfl, hskipped⟩ := h t m
  exact ⟨L, e, v, front ++ pre, post, (List.append_assoc ..).symm, by rw [runActs_append]; exact hskipped⟩

theorem sampled_behind {acts : List Act} {s : State} {ys : List Int} {v : VoiceId} (front : List Act)
    (h : Sampled ls acts (runActs ls front s) ys v) : Sampled ls (front ++ acts) s ys v := by
  obtain ⟨pre, post, rfl, hy⟩ := h
  exact ⟨front ++ pre, post, (List.append_assoc ..).symm, by rw [runActs_append]; exact hy⟩

theorem getD_set_same {ys : List Int} {i : Nat} (h : i < ys.length) (y : Int) : (ys.set i y).getD i 0 = y := by
  rw [List.getD_eq_getElem _ _ (by rw [List.length_set]; exact h), List.getElem_set_self]

theorem getD_set_ne {ys : List Int} {i j : Nat} (h : i ≠ j) (y : Int) : (ys.set i y).getD j 0 = ys.getD j 0 := by
  rw [List.getD_eq_getElem?_getD, List.getD_eq_getElem?_getD, List.getElem?_set_ne h]

/-- The voices' work in a drawn order: each voice once, its sample at its place. -/
theorem voicesDrawn_ran : ∀ (fuel : Nat) (vs : List VoiceId) (ys : List Int) (p : Pass), vs.length ≤ fuel →
    vs.Nodup → ys.length = 8 →
    let r := voicesDrawn ls fuel vs ys p
    r.2.length = 8 ∧ ∃ acts skips, r.1.state = runActs ls acts p.state
      ∧ (tasksOf acts ++ r.1.late).Perm (p.late ++ skips) ∧ Skips ls acts p.state skips ∧ (voicesOf acts).Perm vs
      ∧ (∀ v ∈ vs, Sampled ls acts p.state r.2 v) ∧ ∀ v, v ∉ vs → r.2.getD v.val 0 = ys.getD v.val 0
  | 0, vs, ys, p, h, _, hys => by
    obtain rfl := List.eq_nil_of_length_eq_zero (Nat.le_zero.1 h)
    exact ⟨hys, [], [], rfl, by rw [List.append_nil]; exact .refl _, nofun, .refl _, nofun, fun _ _ => rfl⟩
  | fuel + 1, [], ys, p, _, _, hys =>
    ⟨hys, [], [], rfl, by rw [List.append_nil]; exact .refl _, nofun, .refl _, nofun, fun _ _ => rfl⟩
  | fuel + 1, v :: rest, ys, p, hlen, hnodup, hys => by
    intro r
    obtain ⟨front, hfront, hlate, hvoices⟩ := takeSome_ran ls p.late.length p
    generalize hq : takeSome ls p.late.length p = q at hfront hlate
    generalize hi : q.state.nextOrder (v :: rest).length = i
    have hlt : i < (v :: rest).length := by
      rw [← hi]
      exact nextOrder_lt (by simp)
    generalize hw : (v :: rest).getD i v = w
    have hperm : (w :: (v :: rest).eraseIdx i).Perm (v :: rest) := by
      rw [← hw]
      exact choose_perm v rest hlt
    have hnodup' := hperm.nodup_iff.2 hnodup
    obtain ⟨hwnot, hnodup'⟩ := List.nodup_cons.1 hnodup'
    let done := voiceWork w q.state.drawn
    let skipped := done.skipped.toList.map fun L => Task.occurrence .entrySkipped (.lead L)
    have hstep : r = voicesDrawn ls fuel ((v :: rest).eraseIdx i) (ys.set w.val done.sample)
        { state := done.state, late := q.late ++ skipped } := by
      show voicesDrawn ls (fuel + 1) (v :: rest) ys p = _
      rw [voicesDrawn]
      simp only [hq, hi, hw]
      rfl
    have hlen' : ((v :: rest).eraseIdx i).length ≤ fuel := by
      rw [List.length_eraseIdx_of_lt hlt]
      simp only [List.length_cons] at hlen ⊢
      omega
    obtain ⟨hsize, acts, skips, hstate, htasks, hskips, hworked, hsampled, hothers⟩ :=
      voicesDrawn_ran fuel ((v :: rest).eraseIdx i) (ys.set w.val done.sample)
        { state := done.state, late := q.late ++ skipped } hlen' hnodup' (by rw [List.length_set]; exact hys)
    rw [← hstep] at hsize hstate htasks hsampled hothers
    have hrun : runActs ls (front ++ [.draw, .voice w]) p.state = done.state := by
      rw [runActs_append, ← hfront]
      rfl
    refine ⟨hsize, (front ++ [.draw, .voice w]) ++ acts, skipped ++ skips, ?_, ?_, ?_, ?_, fun u hu => ?_, fun u hu => ?_⟩
    · rw [runActs_append, hrun]
      exact hstate
    · rw [tasksOf_append, tasksOf_append]
      have hnone : tasksOf [.draw, .voice w] = [] := rfl
      rw [hnone, List.append_nil, List.append_assoc]
      calc (tasksOf front ++ (tasksOf acts ++ r.1.late)).Perm (tasksOf front ++ (q.late ++ skipped ++ skips)) :=
            htasks.append_left _
        _ = (tasksOf front ++ q.late) ++ (skipped ++ skips) := by simp only [List.append_assoc]
        _ |>.Perm (p.late ++ (skipped ++ skips)) := hlate.append_right _
    · intro t ht
      rcases List.mem_append.1 ht with ht | ht
      · obtain ⟨L, hL, rfl⟩ := List.mem_map.1 ht
        refine ⟨L, rfl, w, front ++ [.draw], acts, by simp, ?_⟩
        have hdrawn : runActs ls (front ++ [.draw]) p.state = q.state.drawn := by
          rw [runActs_append, ← hfront]
          rfl
        rw [hdrawn]
        exact Option.mem_toList.1 hL
      · exact skips_behind ls _ (by rw [hrun]; exact hskips) t ht
    · rw [voicesOf_append, voicesOf_append, hvoices]
      exact (hworked.cons w).trans hperm
    · by_cases e : u = w
      · subst e
        refine ⟨front ++ [.draw], acts, by simp, ?_⟩
        rw [hothers u hwnot, getD_set_same (by rw [hys]; exact u.isLt), runActs_append, ← hfront]
        rfl
      · have hmem : u ∈ (v :: rest).eraseIdx i := by
          rcases List.mem_cons.1 (hperm.mem_iff.2 hu) with h | h
          · exact absurd h e
          · exact h
        refine sampled_behind ls _ ?_
        rw [hrun]
        exact hsampled u hmem
    · have hne : w ≠ u := fun e => hu (e ▸ hperm.subset List.mem_cons_self)
      have hnot : u ∉ (v :: rest).eraseIdx i := fun h => hu (List.mem_of_mem_eraseIdx h)
      rw [hothers u hnot, getD_set_ne (fun e => hne (Fin.ext e))]

/-- The voices' work in their order. -/
theorem voicesWork_cons (v : VoiceId) (vs : List VoiceId) (s : State) :
    (voicesWork (v :: vs) s).state = (voicesWork vs (voiceWork v s).state).state
      ∧ (voicesWork (v :: vs) s).samples = (voiceWork v s).sample :: (voicesWork vs (voiceWork v s).state).samples :=
  ⟨rfl, rfl⟩

theorem voicesWork_ran (vs : List VoiceId) (s : State) :
    (voicesWork vs s).state = runActs ls (vs.map .voice) s := by
  induction vs generalizing s with
  | nil => rfl
  | cons v vs ih =>
    rw [(voicesWork_cons v vs s).1, ih]
    rfl

theorem voicesWork_sampled (vs : List VoiceId) (s : State) (i : Nat) (h : i < vs.length) :
    (voicesWork vs s).samples.getD i 0 = (voiceWork vs[i] (runActs ls ((vs.take i).map .voice) s)).sample := by
  induction vs generalizing s i with
  | nil => exact absurd h (Nat.not_lt_zero i)
  | cons v vs ih =>
    rw [(voicesWork_cons v vs s).2]
    cases i with
    | zero => rfl
    | succ i =>
      rw [List.getD_cons_succ, ih _ i (Nat.lt_of_succ_lt_succ h)]
      rfl

theorem voicesOf_voices (vs : List VoiceId) : voicesOf (vs.map .voice) = vs := by
  induction vs with
  | nil => rfl
  | cons v vs ih => exact congrArg (v :: ·) ih

theorem tasksOf_voices (vs : List VoiceId) : tasksOf (vs.map .voice) = [] := by
  induction vs with
  | nil => rfl
  | cons v vs ih => exact ih

theorem allVoices_get (v : VoiceId) : allVoices[v.val]'v.isLt = v := by revert v; decide

theorem allVoices_split (v : VoiceId) : allVoices = allVoices.take v.val ++ v :: allVoices.drop (v.val + 1) := by
  revert v
  decide

/-- The voices' work of a frame: each voice once, its sample at its place, and what is left of the frame. -/
theorem voicesFrame_ran (p : Pass) :
    (voicesFrame ls p).2.length = 8 ∧ ∃ acts skips, (voicesFrame ls p).1.state = runActs ls acts p.state
      ∧ (tasksOf acts ++ (voicesFrame ls p).1.late).Perm (p.late ++ skips) ∧ Skips ls acts p.state skips
      ∧ (voicesOf acts).Perm allVoices ∧ ∀ v, Sampled ls acts p.state (voicesFrame ls p).2 v := by
  have hsize := voicesWork_length allVoices p.state
  have hstate := voicesWork_ran ls allVoices p.state
  have hsampled (v : VoiceId) : Sampled ls (allVoices.map .voice) p.state (voicesWork allVoices p.state).samples v := by
    refine ⟨(allVoices.take v.val).map .voice, (allVoices.drop (v.val + 1)).map .voice, ?_, ?_⟩
    · rw [← List.map_cons, ← List.map_append, ← allVoices_split]
    · rw [voicesWork_sampled ls allVoices p.state v.val v.isLt, allVoices_get]
  unfold voicesFrame
  generalize voicesWork allVoices p.state = q at hsize hstate hsampled
  simp only
  split
  · refine ⟨hsize, allVoices.map .voice, [], hstate, ?_, nofun, ?_, hsampled⟩
    · rw [tasksOf_voices, List.append_nil]
      exact .refl _
    · rw [voicesOf_voices]
  · obtain ⟨hsize, acts, skips, hstate, htasks, hskips, hworked, hsampled, -⟩ := voicesDrawn_ran ls 8 allVoices
      (List.replicate 8 0) p (by decide) (by decide) rfl
    exact ⟨hsize, acts, skips, hstate, htasks, hskips, hworked, fun v => hsampled v (VoiceLaws.mem_allVoices v)⟩

/-- The audio of a frame: the samples first, then each voice once among what may be taken; and OUTPUT_CLIP with
what is left. -/
theorem audioFrame_ran (xa xb : Int) (p : Pass) :
    let m := audioFrame ls xa xb p
    m.claims = claims p.state ∧ m.samples.length = 8
      ∧ ∃ acts skips, m.pass.state = runActs ls acts (appendSamples xa xb p.state)
      ∧ (tasksOf acts ++ m.pass.late).Perm
        (p.late ++ skips ++ clipTask ls m.pass.state (clippedSlots m.claims m.samples))
      ∧ Skips ls acts (appendSamples xa xb p.state) skips ∧ (∀ t ∈ tasksOf acts, t ∈ p.late ++ skips)
      ∧ (voicesOf acts).Perm allVoices ∧ ∀ v, Sampled ls acts (appendSamples xa xb p.state) m.samples v := by
  obtain ⟨hsize, acts, skips, hstate, htasks, hskips, hworked, hsampled⟩ :=
    voicesFrame_ran ls { p with state := appendSamples xa xb p.state }
  refine ⟨rfl, hsize, acts, skips, hstate, ?_, hskips, fun t m => htasks.subset (List.mem_append_left _ m), hworked,
    hsampled⟩
  have h := htasks.append_right (clipTask ls (audioFrame ls xa xb p).pass.state
    (clippedSlots (audioFrame ls xa xb p).claims (audioFrame ls xa xb p).samples))
  rw [List.append_assoc] at h
  exact h

end

end Sys2Proof.Proofs.Traces
end

