-- ==== Sys2Proof/Proofs/LineWork.lean ====
section
/-! PROOF. What a pedal line's work in a frame reaches (R130 to R136): its own record and its own gateway, the
dropped cues' events, and an occurrence of PEDAL_STUCK; and what its gateway becomes, by gateway, record and pin. -/

namespace Sys2Proof.Proofs.LineWork

open Sys2Proof Sys2Proof.Machine Sys2Proof.Safety Sys2Proof.Proofs.Occurrences Sys2Proof.Proofs.PedalsAndTimed

/-! ### At one line -/

/-- `t` differs from `s` at the line's record and gateway, and by events of dropped cues, alone. -/
structure AtLine (l : LineId) (s t : State) : Prop where
  frame : t = { s with pedals := t.pedals, gateways := t.gateways, counters := t.counters }
  pedals : ∀ m, m ≠ l → t.pedal m = s.pedal m
  gateways : ∀ g, g ≠ lineGateway l → t.gateway g = s.gateway g
  codes : ∀ code, code ≠ 8 → CodeKept code s t

section
variable {l : LineId} {s t u : State}

theorem AtLine.refl (l : LineId) (s : State) : AtLine l s s := ⟨rfl, fun _ _ => rfl, fun _ _ => rfl, fun _ _ => .refl _ _⟩

theorem AtLine.trans (h : AtLine l s t) (k : AtLine l t u) : AtLine l s u where
  frame := by
    have hframe := k.frame
    rw [h.frame] at hframe
    exact hframe
  pedals m hm := (k.pedals m hm).trans (h.pedals m hm)
  gateways g hg := (k.gateways g hg).trans (h.gateways g hg)
  codes code hc := (h.codes code hc).trans (k.codes code hc)

theorem AtLine.setPedal (l : LineId) (s : State) (p : PedalLine) : AtLine l s (s.setPedal l p) :=
  ⟨rfl, fun _ hm => State.pedal_setPedal_ne _ _ _ _ hm.symm, fun _ _ => rfl, fun _ _ => .of_counters rfl⟩

theorem AtLine.setGateway (l : LineId) (s : State) (x : Gateway) : AtLine l s (s.setGateway (lineGateway l) x) :=
  ⟨rfl, fun _ _ => rfl, fun _ hg => State.gateway_setGateway_ne _ _ _ _ hg.symm, fun _ _ => .of_counters rfl⟩

theorem AtLine.dropped (l : LineId) (s : State) : AtLine l s (countEvent .cueDropped s) :=
  ⟨rfl, fun _ _ => rfl, fun _ _ => rfl, fun _ hc => countEvent_codeKept (e := .cueDropped) hc.symm s⟩

theorem setPending_atLine (l : LineId) (c : Cue) (o : Origin) (s : State) :
    AtLine l s (setPending (lineGateway l) c o s) := by
  unfold setPending
  simp only
  split
  · split
    · exact AtLine.trans (AtLine.dropped l s) (AtLine.setGateway l _ _)
    · exact AtLine.setGateway l s _
  · exact AtLine.refl l s

theorem setPendingOption_atLine (l : LineId) (c : Option Cue) (o : Origin) (s : State) :
    AtLine l s (setPending? (lineGateway l) c o s) := by
  cases c with
  | none => exact AtLine.refl l s
  | some c => exact setPending_atLine l c o s

theorem releaseEdge_atLine (l : LineId) (s : State) : AtLine l s (releaseEdge (lineGateway l) s) := by
  have hwithdrawn : AtLine l s (countEvent .cueDropped (clearPending (lineGateway l) s)) :=
    AtLine.trans (AtLine.setGateway l s _) (AtLine.dropped l _)
  unfold releaseEdge
  simp only
  split
  · exact AtLine.refl l s
  · split
    · split
      · exact hwithdrawn.trans (AtLine.dropped l _)
      · exact hwithdrawn
    all_goals exact setPendingOption_atLine l _ _ s

theorem pedalEdge_atLine (l : LineId) (level : PedalLevel) (s : State) : AtLine l s (pedalEdge l level s) := by
  cases level with
  | pressed => exact AtLine.trans (AtLine.setPedal l s _) (setPendingOption_atLine l _ _ _)
  | released => exact AtLine.trans (AtLine.setPedal l s _) (releaseEdge_atLine l _)

theorem debounceLine_atLine (l : LineId) (s : State) : AtLine l s (debounceLine l s) := by
  cases h : (s.pedal l).level with
  | none =>
    rw [debounceLine_first h]
    exact AtLine.setPedal l s _
  | some level =>
    rw [debounceLine_level h]
    split
    · exact AtLine.setPedal l s _
    · split
      · exact pedalEdge_atLine l _ s
      · exact AtLine.setPedal l s _

/-- `t` is `u`, or `u` behind an occurrence of PEDAL_STUCK. -/
def PerhapsStuck (u t : State) : Prop := t = u ∨ ∃ L, t = raise .pedalStuck (.lead L) u

/-- A line's judgement: an occurrence, and its gateway closed. -/
theorem stuckAt_parts (l : LineId) (x : Gateway) (s : State) :
    ∃ v, PerhapsStuck s v ∧ AtLine l v (stuckAt (lineGateway l) x s) := by
  unfold stuckAt
  split
  · split
    · refine ⟨_, .inr ⟨x.lead, rfl⟩, ?_⟩
      simp only
      split
      · exact AtLine.setGateway l _ _
      · exact AtLine.trans (AtLine.setGateway l _ _) (AtLine.dropped l _)
    · exact ⟨_, .inr ⟨x.lead, rfl⟩, AtLine.refl l _⟩
  · exact ⟨s, .inl rfl, AtLine.refl l s⟩

/-- A line's work: at the line, perhaps an occurrence of PEDAL_STUCK, and at the line again. -/
theorem pedalWork_parts (limit : Nat) (l : LineId) (s : State) :
    ∃ u v, AtLine l s u ∧ PerhapsStuck u v ∧ AtLine l v (pedalWork limit l s) := by
  by_cases h : PedalJudged limit s.pedalPins[l] (s.pedal l)
  · rw [pedalWork_of_judgement h, judgeStuck_eq]
    obtain ⟨v, hv, hline⟩ := stuckAt_parts l
      (((debounceLine l s).setPedal l (debounced s.pedalPins[l] (s.pedal l)).timed).gateway (lineGateway l))
      (((debounceLine l s).setPedal l (debounced s.pedalPins[l] (s.pedal l)).timed).setPedal l
        { ((debounceLine l s).setPedal l (debounced s.pedalPins[l] (s.pedal l)).timed).pedal l with stuckMark := true })
    exact ⟨_, v, ((debounceLine_atLine l s).trans (AtLine.setPedal l _ _)).trans (AtLine.setPedal l _ _), hv, hline⟩
  · rw [pedalWork_of_no_judgement h]
    exact ⟨_, _, (debounceLine_atLine l s).trans (AtLine.setPedal l _ _), .inl rfl, AtLine.refl l _⟩

/-- A line's work is at its own line, but for an occurrence. -/
theorem pedalWork_pedal_ne {l m : LineId} (h : m ≠ l) (limit : Nat) (s : State) :
    (pedalWork limit l s).pedal m = s.pedal m := by
  obtain ⟨u, v, hu, hv, ht⟩ := pedalWork_parts limit l s
  have hstuck : v.pedals = u.pedals := by
    obtain rfl | ⟨L, rfl⟩ := hv
    · rfl
    · exact (raise_onlyFaults ..).pedals
  exact (ht.pedals m h).trans ((congrArg (·[m]) hstuck).trans (hu.pedals m h))

theorem pedalWork_gateway_ne {l : LineId} {g : Fin 8} (h : g ≠ lineGateway l) (limit : Nat) (s : State) :
    (pedalWork limit l s).gateway g = s.gateway g := by
  obtain ⟨u, v, hu, hv, ht⟩ := pedalWork_parts limit l s
  have hstuck : v.gateways = u.gateways := by
    obtain rfl | ⟨L, rfl⟩ := hv
    · rfl
    · exact (raise_onlyFaults ..).gateways
  exact (ht.gateways g h).trans ((congrArg (·[g]) hstuck).trans (hu.gateways g h))

/-- A line's work counts dropped cues and occurrences alone (R163). -/
theorem pedalWork_codeKept {code : Nat} (h8 : code ≠ 8) (h13 : code ≠ 13) (limit : Nat) (l : LineId) (s : State) :
    CodeKept code s (pedalWork limit l s) := by
  obtain ⟨u, v, hu, hv, ht⟩ := pedalWork_parts limit l s
  have hstuck : CodeKept code u v := by
    obtain rfl | ⟨L, rfl⟩ := hv
    · exact .refl _ _
    · exact raise_codeKept _ _ h13 u
  exact ((hu.codes code h8).trans hstuck).trans (ht.codes code h8)

theorem AtLine.faults (h : AtLine l s t) : t.faults = s.faults := by rw [h.frame]

theorem AtLine.voices (h : AtLine l s t) : t.voices = s.voices := by rw [h.frame]

theorem AtLine.fault (h : AtLine l s t) (k : FaultKind) : t.fault k = s.fault k :=
  congrArg (fun x : Vector FaultRecord 13 => x[(faultCode k).val]) h.faults

theorem pedalWork_statusGrows (limit : Nat) (l : LineId) (s : State) : StatusGrows s (pedalWork limit l s) := by
  obtain ⟨u, v, hu, hv, ht⟩ := pedalWork_parts limit l s
  have hstuck : StatusGrows u v := by
    obtain rfl | ⟨L, rfl⟩ := hv
    · exact .refl _
    · exact raise_statusGrows .pedalStuck (.lead L) u
  have hbehind : StatusGrows v (pedalWork limit l s) := .of_faults ht.faults
  exact ((StatusGrows.of_faults hu.faults).trans hstuck).trans hbehind

/-- A line's work raises PEDAL_STUCK alone. -/
theorem pedalWork_fault_ne {k : FaultKind} (hk : k ≠ .pedalStuck) (hd : k ≠ .noticeDrop) (limit : Nat) (l : LineId)
    (s : State) : (pedalWork limit l s).fault k = s.fault k := by
  obtain ⟨u, v, hu, hv, ht⟩ := pedalWork_parts limit l s
  have hstuck : v.fault k = u.fault k := by
    obtain rfl | ⟨L, rfl⟩ := hv
    · rfl
    · exact raise_fault_ne hk hd _ u
  exact (ht.fault k).trans (hstuck.trans (hu.fault k))

end

/-! ### The line's gateway -/

/-- A gateway in which a cue is set pending (R134). -/
def withCue (c : Cue) (o : Origin) (x : Gateway) : Gateway :=
  if x.enabled then { x with pending := some { cue := c, origin := o } } else x

def withCue? (c : Option Cue) (o : Origin) (x : Gateway) : Gateway :=
  match c with
  | none => x
  | some c => withCue c o x

/-- A gateway behind a release (R135, R136). -/
def releasedGateway (x : Gateway) : Gateway :=
  if x.type = .moment then x
  else if x.pending.map PendingCue.origin = some .press then { x with pending := none }
  else withCue? x.release .release x

/-- A gateway behind its line's sample (R130, R135, R136). -/
def debouncedGateway (high : Bool) (p : PedalLine) (x : Gateway) : Gateway :=
  if p.level = none ∨ some (pinLevel high) = p.level ∨ p.debounce + 1 < 384 then x
  else if pinLevel high = .pressed then withCue? x.press .press x
  else releasedGateway x

/-- A gateway behind its line's work of a frame (R130, R131, R135, R136). -/
def gatewayAfter (limit : Nat) (high : Bool) (p : PedalLine) (x : Gateway) : Gateway :=
  let y := debouncedGateway high p x
  if stuckDue (debounced high p).timed limit = true ∧ y.enabled = true ∧ y.stuckClose = true then
    { y with enabled := false, pending := none }
  else y

theorem setPending_gateway (g : Fin 8) (c : Cue) (o : Origin) (s : State) :
    (setPending g c o s).gateway g = withCue c o (s.gateway g) := by
  unfold setPending withCue
  simp only
  split
  · exact State.gateway_setGateway ..
  · rfl

theorem setPendingOption_gateway (g : Fin 8) (c : Option Cue) (o : Origin) (s : State) :
    (setPending? g c o s).gateway g = withCue? c o (s.gateway g) := by
  cases c with
  | none => rfl
  | some c => exact setPending_gateway g c o s

theorem releaseEdge_gateway (g : Fin 8) (s : State) : (releaseEdge g s).gateway g = releasedGateway (s.gateway g) := by
  have hclear : (countEvent .cueDropped (clearPending g s)).gateway g = { s.gateway g with pending := none } :=
    State.gateway_setGateway ..
  unfold releasedGateway
  cases htype : (s.gateway g).type with
  | moment => rw [if_pos rfl, releaseEdge_moment htype]
  | span =>
    rw [if_neg (by decide)]
    split
    next hpress =>
      obtain ⟨⟨c, o⟩, hp, ho⟩ := Option.map_eq_some_iff.1 hpress
      cases ho
      rw [releaseEdge_withdraws htype hp]
      split <;> exact hclear.trans (by rw [← htype])
    next hother =>
      rw [releaseEdge_sets htype fun p hp ho => hother (by rw [hp]; exact congrArg some ho)]
      exact setPendingOption_gateway ..

theorem debounceLine_gateway (l : LineId) (s : State) : (debounceLine l s).gateway (lineGateway l) =
    debouncedGateway s.pedalPins[l] (s.pedal l) (s.gateway (lineGateway l)) := by
  unfold debouncedGateway
  cases h : (s.pedal l).level with
  | none =>
    rw [debounceLine_first h, if_pos (.inl rfl)]
    rfl
  | some level =>
    rw [debounceLine_level h]
    by_cases hsame : pinLevel s.pedalPins[l] = level
    · rw [if_pos hsame, if_pos (.inr (.inl (congrArg some hsame)))]
      rfl
    · by_cases hlong : 384 ≤ (s.pedal l).debounce + 1
      · rw [if_neg hsame, if_pos hlong, if_neg (fun e => by
          rcases e with e | e | e
          · cases e
          · exact hsame (Option.some.inj e)
          · exact Nat.not_le.2 e hlong)]
        cases hpin : pinLevel s.pedalPins[l] with
        | pressed => exact setPendingOption_gateway ..
        | released => exact releaseEdge_gateway ..
      · rw [if_neg hsame, if_neg hlong, if_pos (.inr (.inr (Nat.lt_of_not_le hlong)))]
        rfl

theorem stuckAt_gateway (g : Fin 8) (s : State) : (stuckAt g (s.gateway g) s).gateway g =
    if (s.gateway g).enabled = true ∧ (s.gateway g).stuckClose = true then
      { s.gateway g with enabled := false, pending := none }
    else s.gateway g := by
  have hraise (L : Lead) : (raise .pedalStuck (.lead L) s).gateway g = s.gateway g :=
    congrArg (fun x : Vector Gateway 8 => x[g]) (raise_onlyFaults ..).gateways
  unfold stuckAt
  by_cases hon : (s.gateway g).enabled = true
  · by_cases hclose : (s.gateway g).stuckClose = true
    · have hboth : (s.gateway g).enabled = true ∧ (s.gateway g).stuckClose = true := ⟨hon, hclose⟩
      rw [if_pos hboth, if_pos hon, if_pos hclose]
      simp only
      split <;> exact State.gateway_setGateway ..
    · rw [if_pos hon, if_neg hclose, if_neg fun h => hclose h.2]
      exact hraise _
  · rw [if_neg hon, if_neg fun h => hon h.1]

theorem pedalWork_gateway (limit : Nat) (l : LineId) (s : State) : (pedalWork limit l s).gateway (lineGateway l) =
    gatewayAfter limit s.pedalPins[l] (s.pedal l) (s.gateway (lineGateway l)) := by
  have hline := debounceLine_gateway l s
  unfold gatewayAfter
  by_cases h : PedalJudged limit s.pedalPins[l] (s.pedal l)
  · rw [pedalWork_of_judgement h, judgeStuck_eq]
    have hstuck := stuckAt_gateway (lineGateway l) (((debounceLine l s).setPedal l
      (debounced s.pedalPins[l] (s.pedal l)).timed).setPedal l
        { ((debounceLine l s).setPedal l (debounced s.pedalPins[l] (s.pedal l)).timed).pedal l with stuckMark := true })
    have hsame (p q : PedalLine) : (((debounceLine l s).setPedal l p).setPedal l q).gateway (lineGateway l)
        = (debounceLine l s).gateway (lineGateway l) := rfl
    have hsame' (p : PedalLine) : ((debounceLine l s).setPedal l p).gateway (lineGateway l)
        = (debounceLine l s).gateway (lineGateway l) := rfl
    rw [hsame, hline] at hstuck
    rw [hsame', hline, hstuck]
    simp only [(pedalJudged_iff ..).1 h, true_and]
  · rw [pedalWork_of_no_judgement h]
    rw [pedalJudged_iff] at h
    simp only [h, Bool.false_eq_true, false_and, if_false]
    exact hline

end Sys2Proof.Proofs.LineWork
end

