-- ==== Sys2Proof/Proofs/Acts.lean ====
section
/-! PROOF. What the acts of a frame leave as it is: the Fault Unit's records, the counters, leads, gateways, timed
cues and lines, each by the kind of act. -/

namespace Sys2Proof.Proofs.Acts

open Sys2Proof Sys2Proof.Machine Sys2Proof.Safety Sys2Proof.Proofs.VoiceRequests Sys2Proof.Proofs.VoiceFrame
  Sys2Proof.Proofs.Harmony Sys2Proof.Proofs.Occurrences Sys2Proof.Proofs.CueRequests
  Sys2Proof.Proofs.SceneApplication Sys2Proof.Proofs.SceneVoicesTold Sys2Proof.Proofs.ScenesAndCues
  Sys2Proof.Proofs.BlockParts Sys2Proof.Proofs.StepParts Sys2Proof.Proofs.Queues Sys2Proof.Proofs.Traces
  Sys2Proof.Proofs.LineWork Sys2Proof.Proofs.PedalsAndTimed Sys2Proof.Proofs.Counting

/-! ### Fault records behind a lead's block work -/

/-- The record of a kind stays. -/
def FaultKept (k : FaultKind) (s t : State) : Prop := t.fault k = s.fault k

section
variable {k : FaultKind} {s t u : State}

theorem FaultKept.trans (h : FaultKept k s t) (j : FaultKept k t u) : FaultKept k s u := Eq.trans j h

theorem FaultKept.of_faults (h : t.faults = s.faults) : FaultKept k s t :=
  congrArg (fun x : Vector FaultRecord 13 => x[(faultCode k).val]) h

theorem FaultKept.setLead (s : State) (L : Lead) (c : LeadChannel) : FaultKept k s (s.setLead L c) :=
  .of_faults (by cases L <;> rfl)

theorem FaultKept.placed (clears : Bool) (v : VoiceId) (y : Voice) (s : State) :
    FaultKept k s (placed clears v y s) := .of_faults (placed_sameSide ..).faults

end

section
variable {k : FaultKind} (hskip : k ≠ .entrySkipped) (hdrop : k ≠ .noticeDrop)
include hskip hdrop

theorem raiseSkipped_faultKept (o : Option Lead) (s : State) : FaultKept k s (raiseSkipped o s) := by
  cases o with
  | none => exact rfl
  | some L => exact raise_fault_ne hskip hdrop _ s

theorem reachOwned_faultKept (r : Scene) (acc : State × Nat) (v : VoiceId) :
    FaultKept k acc.1 (reachOwned r acc v).1 := by
  unfold reachOwned
  split
  · show FaultKept k acc.1 (releaseVoice v acc.1)
    rw [releaseVoice_eq]
    exact FaultKept.placed _ _ _ _
  next e _ =>
    show FaultKept k acc.1 (reassignVoice v e.part acc.1)
    rw [reassignVoice_eq]
    exact FaultKept.trans (FaultKept.placed _ _ _ _) (raiseSkipped_faultKept hskip hdrop _ _)

theorem reachAll_faultKept (r : Scene) : ∀ (vs : List VoiceId) (acc : State × Nat),
    FaultKept k acc.1 (vs.foldl (reachOwned r) acc).1
  | [], _ => rfl
  | v :: vs, acc => (reachOwned_faultKept hskip hdrop r acc v).trans (reachAll_faultKept r vs _)

omit hskip hdrop in
theorem takeEntry_faultKept (L : Lead) (owned : List VoiceId) (acc : State × Nat) (e : SceneEntry) :
    FaultKept k acc.1 (takeEntry L owned acc e).1 := by
  unfold takeEntry
  split
  · exact rfl
  · split
    next hoff =>
      show FaultKept k acc.1 (assignVoice e.voice L e.part acc.1)
      rw [assignVoice_off hoff.1]
      exact FaultKept.placed _ _ _ _
    · exact rfl

omit hskip hdrop in
theorem takeAll_faultKept (L : Lead) (owned : List VoiceId) : ∀ (es : List SceneEntry) (acc : State × Nat),
    FaultKept k acc.1 (es.foldl (takeEntry L owned) acc).1
  | [], _ => rfl
  | e :: es, acc => (takeEntry_faultKept L owned acc e).trans (takeAll_faultKept L owned es _)

theorem applyScene_faultKept (L : Lead) (n : Fin 32) (prio : Nat) (s : State) :
    FaultKept k s (applyScene L n prio s) := by
  have hsteps : FaultKept k s (stepsTaken L n s).1 :=
    ((FaultKept.setLead s L _).trans (reachAll_faultKept hskip hdrop _ _ (withScene L n s, 0))).trans
      (takeAll_faultKept _ _ _ _)
  rw [applyScene_eq]
  refine FaultKept.trans ?_ (FaultKept.setLead _ _ _)
  split
  · exact hsteps
  · exact hsteps.trans (raise_fault_ne hskip hdrop _ _)

omit hskip hdrop in
theorem raiseLevel_faultKept (L : Lead) (prio : Nat) (s : State) : FaultKept k s (raiseLevel L prio s) := by
  rw [raiseLevel_eq]
  exact FaultKept.setLead _ _ _

theorem applyCue_faultKept (L : Lead) (c : Cue) (prio : Nat) (s : State) : FaultKept k s (applyCue L c prio s) := by
  have ignored : FaultKept k s (raiseLevel L prio (countEvent .stepNoNext s)) := raiseLevel_faultKept L prio _
  cases c with
  | scene n => exact applyScene_faultKept hskip hdrop _ _ _ _
  | step =>
    unfold applyCue applyStep
    simp only
    split
    · split
      · exact applyScene_faultKept hskip hdrop _ _ _ _
      · exact ignored
    · exact ignored
  | chord key map => exact FaultKept.trans (FaultKept.setLead _ _ _) (raiseLevel_faultKept _ _ _)
  | hold =>
    refine FaultKept.trans ?_ (raiseLevel_faultKept _ _ _)
    unfold holdLead
    split
    · exact rfl
    · exact FaultKept.setLead _ _ _
  | release =>
    refine FaultKept.trans ?_ (raiseLevel_faultKept _ _ _)
    unfold releaseHold
    split
    · exact FaultKept.setLead _ _ _
    · exact rfl
  | silence =>
    refine FaultKept.trans (FaultKept.of_faults ?_) (FaultKept.setLead _ _ _)
    rw [(silenceLead_voices L s).1]
    cases L <;> rfl
  | resume => exact FaultKept.trans (FaultKept.setLead _ _ _) (FaultKept.setLead _ _ _)

omit hskip hdrop in
theorem handOff_faultKept (L : Lead) (s : State) : FaultKept k s (handOff L s) :=
  .of_faults (by rw [handOff_eq])

theorem portStep_faultKept (L : Lead) (s : State) : FaultKept k s (portStep L s) := by
  unfold portStep
  split
  · exact rfl
  next g _ =>
    split
    · exact rfl
    next c _ =>
      have hcue : FaultKept k s (countEvent .cueApplied (applyCue L c.cue (s.gateway g).priority (clearPending g s))) :=
        applyCue_faultKept hskip hdrop L c.cue _ (clearPending g s)
      simp only
      repeat' split
      · exact hcue.trans (handOff_faultKept L (countEvent .cueDuringTransition _))
      · exact hcue.trans (handOff_faultKept L _)
      · exact hcue
      · exact hcue

/-- A lead's block work writes no record but those of ENTRY_SKIPPED and NOTICE_DROP. -/
theorem blockWork_faultKept (ls : LinkState) (L : Lead) (s : State) : FaultKept k s (blockWork ls L s) := by
  have hjudged : FaultKept k s (decideLead L (trackLead L s)) := by
    obtain ⟨hframe, -⟩ := judgeLead L s
    refine .of_faults ?_
    rw [hframe]
    cases L <;> rfl
  have hcue (u : State) : FaultKept k u (cueStep ls L u) := by
    unfold cueStep
    simp only
    repeat' split
    · exact FaultKept.trans (FaultKept.setLead _ _ _) (applyScene_faultKept hskip hdrop _ _ _ _)
    · exact FaultKept.trans (FaultKept.setLead _ _ _) (portStep_faultKept hskip hdrop _ _)
    · exact portStep_faultKept hskip hdrop _ _
  have hretarget (u : State) : FaultKept k u (retargetLead L u) :=
    .of_faults (by rw [(retargetLead_voices L u).1])
  have hcheck (u : State) : FaultKept k u (checkCompletion L u) := by
    unfold checkCompletion
    split
    · exact rfl
    · split
      · exact FaultKept.trans (FaultKept.setLead _ _ _) (offerNotice_fault_ne _ hdrop _)
      · exact rfl
  exact ((hjudged.trans (hcue _)).trans (hretarget _)).trans (hcheck _)

end

theorem placed_statusGrows (clears : Bool) (v : VoiceId) (y : Voice) (s : State) :
    StatusGrows s (placed clears v y s) := .of_faults (placed_sameSide ..).faults

theorem assignVoice_faults (v : VoiceId) (L : Lead) (p : Assignment) (s : State) :
    (assignVoice v L p s).faults = s.faults := by
  unfold assignVoice
  simp only
  split <;> rfl

theorem fallToIdle_faults (v : VoiceId) (s : State) : (fallToIdle v s).faults = s.faults := by
  by_cases h : (s.voice v).state = .rising ∨ (s.voice v).state = .sounding
  · rw [fallToIdle_falls h]
    rfl
  · unfold fallToIdle
    split
    · exact absurd (.inl ‹_›) h
    · exact absurd (.inr ‹_›) h
    all_goals rfl

theorem retargetVoice_faults (L : Lead) (v : VoiceId) (s : State) : (retargetVoice L v s).faults = s.faults := by
  unfold retargetVoice riseVoice
  simp only
  repeat' split
  all_goals first | rfl | exact fallToIdle_faults v s

theorem statusGrows_keptByBlockParts (s : State) : KeptByBlockParts fun t => StatusGrows s t where
  frame h e _ := StatusGrows.trans h (.of_faults (congrArg State.faults e : _ = _))
  raise k sc u h := StatusGrows.trans h (raise_statusGrows k sc u)
  offer m u h := StatusGrows.trans h (offerNotice_statusGrows m u)
  record L u d _ h := StatusGrows.trans h (.of_faults (by cases L <;> rfl))
  clearPending _ _ h := h
  handOff L u h := StatusGrows.trans h (.of_faults (by rw [handOff_eq]))
  release v u h := StatusGrows.trans h (.of_faults (by rw [releaseVoice_eq]; exact (placed_sameSide ..).faults))
  reassign v p u h := by
    rw [reassignVoice_eq]
    exact StatusGrows.trans h (StatusGrows.trans (placed_statusGrows _ _ _ _) (raiseSkipped_statusGrows _ _))
  assign v L p u _ h := StatusGrows.trans h (.of_faults (assignVoice_faults v L p u))
  fall v u h := StatusGrows.trans h (.of_faults (fallToIdle_faults v u))
  retarget L v u h := StatusGrows.trans h (.of_faults (retargetVoice_faults L v u))

end Sys2Proof.Proofs.Acts
end

