-- ==== Sys2Proof/Proofs/ActEffects.lean ====
section
/-! PROOF. What the acts of a frame keep, one by one and together: the rest of the device, the Fault Unit's settings,
the records of kinds that do not occur, the counters of other codes, leads, lines, gateways and timed cues. -/

namespace Sys2Proof.Proofs.ActEffects

open Sys2Proof Sys2Proof.Machine Sys2Proof.Safety Sys2Proof.Proofs.VoiceFrame Sys2Proof.Proofs.Occurrences
  Sys2Proof.Proofs.BlockParts Sys2Proof.Proofs.StepParts Sys2Proof.Proofs.Queues Sys2Proof.Proofs.Traces
  Sys2Proof.Proofs.LineWork Sys2Proof.Proofs.PedalsAndTimed Sys2Proof.Proofs.Counting Sys2Proof.Proofs.Acts
  Sys2Proof.Proofs.BlockEnds

/-! ### Kinds of acts -/

/-- An act that executes no request. -/
def Act.calm : Act → Prop
  | .draw => True
  | .task (.request _ _) => False
  | .task _ => True
  | .voice _ => True

/-- An act that is no request and no lead's block work. -/
def Act.quiet : Act → Prop
  | .draw => True
  | .task t => t.early
  | .voice _ => True

theorem Act.quiet.calm {a : Act} (h : Act.quiet a) : Act.calm a := by
  cases a with
  | draw => trivial
  | voice v => trivial
  | task t =>
    cases t with
    | request kind r => exact h.elim
    | occurrence k sc => trivial
    | relayed => trivial
    | pedal l limit => trivial
    | block L => trivial

/-! ### A voice's work -/

theorem voiceWork_frame (v : VoiceId) (s : State) : (voiceWork v s).state =
    { s with leadA := (voiceWork v s).state.leadA, leadB := (voiceWork v s).state.leadB
             voices := (voiceWork v s).state.voices, counters := (voiceWork v s).state.counters }
      ∧ ∀ code, code ≠ 9 → CodeKept code s (voiceWork v s).state := by
  cases hruns : (s.voice v).runs with
  | false =>
    rw [voiceWork_stands hruns]
    exact ⟨rfl, fun _ _ => .refl _ _⟩
  | true =>
    cases howner : (s.voice v).owner with
    | none =>
      have hstands : voiceWork v s = { state := s, sample := 0, skipped := none } := by
        simp only [voiceWork, hruns, howner]
      rw [hstands]
      exact ⟨rfl, fun _ _ => .refl _ _⟩
    | some L =>
      rw [voiceWork_runs hruns howner]
      generalize (s.voice v).frame (s.lead L).history (s.lead L).splicePeriod = f
      have hramp := endRamp_frame v (s.setVoice v f.1)
      have hcounters : (endRamp v (s.setVoice v f.1)).1.counters = s.counters := by rw [hramp]; rfl
      generalize endRamp v (s.setVoice v f.1) = e at hramp hcounters
      obtain ⟨u, skipped⟩ := e
      simp only at hramp hcounters ⊢
      split
      · refine ⟨?_, fun code hc => CodeKept.trans (.of_counters hcounters) (countEvent_codeKept (e := .splice) hc.symm _)⟩
        rw [hramp]
        rfl
      · refine ⟨?_, fun _ _ => .of_counters hcounters⟩
        rw [hramp]
        rfl

theorem voiceWork_faults (v : VoiceId) (s : State) : (voiceWork v s).state.faults = s.faults := by
  rw [(voiceWork_frame v s).1]

/-! ### One act -/

section
variable (ls : LinkState) {a : Act} (s : State)

theorem run_onlyEngine (h : Act.calm a) : OnlyEngine s (a.run ls s) := by
  cases a with
  | draw => exact OnlyEngine.drawn s
  | voice v => exact (voiceWork_onlyVoices v s).engine
  | task t =>
    cases t with
    | request kind r => exact h.elim
    | occurrence k sc => exact (raise_onlyFaults k sc s).engine
    | relayed => exact (countEvent_onlyFaults ..).engine
    | pedal l limit => exact pedalWork_onlyEngine limit l s
    | block L => exact blockWork_onlyEngine ls L s

theorem run_grows (h : Act.calm a) : GrowsFrom s.outq (a.run ls s).outq := by
  cases a with
  | draw => exact .refl _
  | voice v => exact voiceWork_grows v s
  | task t =>
    cases t with
    | request kind r => exact h.elim
    | occurrence k sc => exact raise_grows k sc s
    | relayed => exact .refl _
    | pedal l limit => exact pedalWork_grows limit l s
    | block L => exact blockWork_grows ls L s

theorem run_statusGrows (h : Act.calm a) : StatusGrows s (a.run ls s) := by
  cases a with
  | draw => exact .refl _
  | voice v => exact .of_faults (voiceWork_faults v s)
  | task t =>
    cases t with
    | request kind r => exact h.elim
    | occurrence k sc => exact raise_statusGrows k sc s
    | relayed => exact .refl _
    | pedal l limit => exact pedalWork_statusGrows limit l s
    | block L => exact blockWork_keeps (statusGrows_keptByBlockParts s) ls L (.refl s)

/-- A kind that no line, no scene and no dropped notice raises. -/
def Declared (k : FaultKind) : Prop := k ≠ .pedalStuck ∧ k ≠ .entrySkipped ∧ k ≠ .noticeDrop

/-- A record that no occurrence of its kind meets stays. -/
theorem run_faultKept {k : FaultKind} (hk : Declared k) (h : Act.calm a)
    (hnone : ∀ sc, a ≠ .task (.occurrence k sc)) : FaultKept k s (a.run ls s) := by
  obtain ⟨hstuck, hskip, hdrop⟩ := hk
  cases a with
  | draw => exact rfl
  | voice v => exact .of_faults (voiceWork_faults v s)
  | task t =>
    cases t with
    | request kind r => exact h.elim
    | occurrence j sc => exact raise_fault_ne (fun e : k = j => hnone sc (by rw [e])) hdrop sc s
    | relayed => exact rfl
    | pedal l limit => exact pedalWork_fault_ne hstuck hdrop limit l s
    | block L => exact blockWork_faultKept hskip hdrop ls L s

/-- The codes that acts other than block work and requests count. -/
def ActCodes (code : Nat) : Prop := code = 8 ∨ code = 9 ∨ code = 11 ∨ code = 13

theorem run_codeKept {code : Nat} (hcode : ¬ActCodes code) (h : Act.quiet a) : CodeKept code s (a.run ls s) := by
  obtain ⟨h8, hcode⟩ := not_or.1 hcode
  obtain ⟨h9, hcode⟩ := not_or.1 hcode
  obtain ⟨h11, h13⟩ := not_or.1 hcode
  cases a with
  | draw => exact .refl _ _
  | voice v => exact (voiceWork_frame v s).2 code h9
  | task t =>
    cases t with
    | request kind r => exact h.elim
    | occurrence k sc => exact raise_codeKept k sc h13 s
    | relayed => exact countEvent_codeKept (e := .relayed) (Ne.symm h11) s
    | pedal l limit => exact pedalWork_codeKept h8 h13 limit l s
    | block L => exact h.elim

/-- An act other than a relayed message's event counts no relayed message. -/
theorem run_relayedKept (h : Act.quiet a) (hnone : a ≠ .task .relayed) : CodeKept 11 s (a.run ls s) := by
  cases a with
  | draw => exact .refl _ _
  | voice v => exact (voiceWork_frame v s).2 11 (by decide)
  | task t =>
    cases t with
    | request kind r => exact h.elim
    | occurrence k sc => exact raise_codeKept k sc (by decide) s
    | relayed => exact absurd rfl hnone
    | pedal l limit => exact pedalWork_codeKept (by decide) (by decide) limit l s
    | block L => exact h.elim

/-- Leads stay, but for frozen notes. -/
theorem run_lead (h : Act.quiet a) (L : Lead) :
    (a.run ls s).lead L = { s.lead L with frozen := ((a.run ls s).lead L).frozen } := by
  cases a with
  | draw => cases L <;> rfl
  | voice v => exact (voiceWork_onlyVoices v s).lead_eq L
  | task t =>
    cases t with
    | request kind r => exact h.elim
    | occurrence k sc =>
      have hlead := (raise_onlyFaults k sc s).lead L
      exact hlead.trans (by rw [show (Act.run ls (.task (.occurrence k sc)) s).lead L = s.lead L from hlead])
    | relayed => cases L <;> rfl
    | pedal l limit =>
      obtain ⟨ha, hb⟩ := (CueLaws.pedalWork_onlyPedals limit l s).leads
      have hlead : (pedalWork limit l s).lead L = s.lead L := by
        cases L
        · exact ha
        · exact hb
      exact hlead.trans (by rw [show (Act.run ls (.task (.pedal l limit)) s).lead L = s.lead L from hlead])
    | block L => exact h.elim

theorem run_timed (h : Act.quiet a) : (a.run ls s).timed = s.timed := by
  cases a with
  | draw => rfl
  | voice v => exact (voiceWork_onlyVoices v s).timed
  | task t =>
    cases t with
    | request kind r => exact h.elim
    | occurrence k sc => exact (raise_onlyFaults k sc s).timed
    | relayed => rfl
    | pedal l limit => exact (CueLaws.pedalWork_onlyPedals limit l s).timed
    | block L => exact h.elim

/-- A gateway stays, but for its own line's work. -/
theorem run_gateway (h : Act.quiet a) {g : Fin 8} (hnone : ∀ l limit, g = lineGateway l → a ≠ .task (.pedal l limit)) :
    (a.run ls s).gateway g = s.gateway g := by
  cases a with
  | draw => rfl
  | voice v => exact congrArg (fun x : Vector Gateway 8 => x[g]) (voiceWork_onlyVoices v s).gateways
  | task t =>
    cases t with
    | request kind r => exact h.elim
    | occurrence k sc => exact congrArg (fun x : Vector Gateway 8 => x[g]) (raise_onlyFaults k sc s).gateways
    | relayed => rfl
    | pedal l limit => exact pedalWork_gateway_ne (fun e => hnone l limit e rfl) limit s
    | block L => exact h.elim

/-- A line's record stays, but for its own work. -/
theorem run_pedal (h : Act.calm a) {l : LineId} (hnone : ∀ limit, a ≠ .task (.pedal l limit)) :
    (a.run ls s).pedal l = s.pedal l := by
  cases a with
  | draw => rfl
  | voice v => exact congrArg (fun x : Vector PedalLine 4 => x[l]) (voiceWork_onlyVoices v s).pedals
  | task t =>
    cases t with
    | request kind r => exact h.elim
    | occurrence k sc => exact congrArg (fun x : Vector PedalLine 4 => x[l]) (raise_onlyFaults k sc s).pedals
    | relayed => rfl
    | pedal m limit => exact pedalWork_pedal_ne (fun e : l = m => hnone limit (by rw [e])) limit s
    | block L => exact congrArg (fun x : Vector PedalLine 4 => x[l]) (blockWork_pedals ls L s)

end

/-! ### Several acts -/

section
variable (ls : LinkState) {acts : List Act} (s : State)

theorem runActs_onlyEngine (h : ∀ a ∈ acts, Act.calm a) : OnlyEngine s (runActs ls acts s) :=
  runActs_keeps ls acts s (fun a m u hu => hu.trans (run_onlyEngine ls u (h a m))) (.refl s)

theorem runActs_grows (h : ∀ a ∈ acts, Act.calm a) : GrowsFrom s.outq (runActs ls acts s).outq :=
  runActs_keeps (P := fun u => GrowsFrom s.outq u.outq) ls acts s
    (fun a m u hu => hu.trans (run_grows ls u (h a m))) (.refl _)

theorem runActs_statusGrows (h : ∀ a ∈ acts, Act.calm a) : StatusGrows s (runActs ls acts s) :=
  runActs_keeps ls acts s (fun a m u hu => StatusGrows.trans hu (run_statusGrows ls u (h a m))) (.refl s)

theorem runActs_faultKept {k : FaultKind} (hk : Declared k) (h : ∀ a ∈ acts, Act.calm a)
    (hnone : ∀ sc, Task.occurrence k sc ∉ tasksOf acts) : FaultKept k s (runActs ls acts s) :=
  runActs_keeps ls acts s (fun a m u hu => FaultKept.trans hu
    (run_faultKept ls u hk (h a m) fun sc e => hnone sc (mem_tasksOf.2 (e ▸ m)))) rfl

theorem runActs_codeKept {code : Nat} (hcode : ¬ActCodes code) (h : ∀ a ∈ acts, Act.quiet a) :
    CodeKept code s (runActs ls acts s) :=
  runActs_keeps ls acts s (fun a m u hu => CodeKept.trans hu (run_codeKept ls u hcode (h a m))) (.refl _ s)

theorem runActs_lead (h : ∀ a ∈ acts, Act.quiet a) (L : Lead) :
    (runActs ls acts s).lead L = { s.lead L with frozen := ((runActs ls acts s).lead L).frozen } :=
  runActs_keeps (P := fun u => u.lead L = { s.lead L with frozen := (u.lead L).frozen }) ls acts s
    (fun a m u hu => by
      have hrun := run_lead ls u (h a m) L
      rw [hu] at hrun
      exact hrun) rfl

theorem runActs_timed (h : ∀ a ∈ acts, Act.quiet a) : (runActs ls acts s).timed = s.timed :=
  runActs_keeps (P := fun u => u.timed = s.timed) ls acts s (fun a m u hu => (run_timed ls u (h a m)).trans hu) rfl

theorem runActs_gateway (h : ∀ a ∈ acts, Act.quiet a) {g : Fin 8}
    (hnone : ∀ l limit, g = lineGateway l → Task.pedal l limit ∉ tasksOf acts) :
    (runActs ls acts s).gateway g = s.gateway g :=
  runActs_keeps (P := fun u => u.gateway g = s.gateway g) ls acts s
    (fun a m u hu => (run_gateway ls u (h a m) fun l limit e q => hnone l limit e (mem_tasksOf.2 (q ▸ m))).trans hu) rfl

theorem runActs_pedal (h : ∀ a ∈ acts, Act.calm a) {l : LineId} (hnone : ∀ limit, Task.pedal l limit ∉ tasksOf acts) :
    (runActs ls acts s).pedal l = s.pedal l :=
  runActs_keeps (P := fun u => u.pedal l = s.pedal l) ls acts s
    (fun a m u hu => (run_pedal ls u (h a m) fun limit q => hnone limit (mem_tasksOf.2 (q ▸ m))).trans hu) rfl

end

end Sys2Proof.Proofs.ActEffects
end

