-- ==== Sys2Proof/Proofs/FrameRuns.lean ====
section
/-! PROOF. A processed frame as acts: what comes before its samples, the voices' work with what is taken among it,
the frame that leaves, and the rest (R9, R91, R107); each line once, and both leads' block work at a block end. -/

namespace Sys2Proof.Proofs.FrameRuns

open Sys2Proof Sys2Proof.Machine Sys2Proof.Safety Sys2Proof.Proofs.Queues Sys2Proof.Proofs.Traces
  Sys2Proof.Proofs.ActEffects Sys2Proof.Proofs.Occurrences

/-- `t` differs from `s` by what a lane frame and its leaving touch. -/
structure Sent (s t : State) : Prop where
  frame : t = { s with fifo := t.fifo, outq := t.outq, sender := t.sender, laneOut := t.laneOut
                       counters := t.counters, linkOut := t.linkOut }
  codes : ∀ code, code ≠ 10 → code ≠ 11 → CodeKept code s t

theorem Sent.refl (s : State) : Sent s s := ⟨rfl, fun _ _ _ => .refl _ _⟩

theorem Sent.trans {s t u : State} (h : Sent s t) (k : Sent t u) : Sent s u where
  frame := by
    have hframe := k.frame
    rw [h.frame] at hframe
    exact hframe
  codes code h10 h11 := (h.codes code h10 h11).trans (k.codes code h10 h11)

theorem Sent.linkOut (s : State) (out : Option (List Byte)) : Sent s { s with linkOut := out } :=
  ⟨rfl, fun _ _ _ => .of_counters rfl⟩

/-- A thing that is no pedal line and no lead's block work. -/
def Other : Task → Prop
  | .occurrence _ _ => True
  | .relayed => True
  | .request _ _ => True
  | .pedal _ _ => False
  | .block _ => False

/-- Every line's work of a frame, by the stuck limit that stands as it begins. -/
def lineTasks (limit : Nat) : List Task := allLines.map fun l => .pedal l limit

/-- A processed frame from `u` to `t`: `acts` among the voices' work, then `acts'`. -/
structure FrameRan (ls : LinkState) (xs : Int × Int) (limit : Nat) (ys : List Int) (others blocks : List Task)
    (u u0 u2 u3 t : State) (acts acts' : List Act) : Prop where
  before : Sent u u0
  mixed : u2 = runActs ls acts (appendSamples xs.1 xs.2 u0)
  sent : Sent u2 u3
  ended : t = runActs ls acts' u3
  quiet : ∀ a ∈ acts, Act.quiet a
  tasks : (tasksOf acts ++ tasksOf acts').Perm (others ++ blocks ++ lineTasks limit)
  other : ∀ x ∈ others, Other x
  worked : (voicesOf acts).Perm allVoices
  idle : voicesOf acts' = []
  sampled : ∀ v, Sampled ls acts (appendSamples xs.1 xs.2 u0) ys v
  size : ys.length = 8

/-! ### The lines of a frame -/

/-- The lines that raise and those that do not are all lines. -/
theorem lines_perm (limit : Nat) (s : State) :
    (raisingLines limit s ++ (quietLines limit s).map fun l => Task.pedal l limit).Perm (lineTasks limit) := by
  unfold raisingLines quietLines lineTasks
  rw [← List.map_append]
  exact (List.filter_append_perm (lineRaises limit s) allLines).map _

theorem skips_other {ls : LinkState} {acts : List Act} {s : State} {ts : List Task} (h : Skips ls acts s ts) :
    ∀ t ∈ ts, Other t := by
  intro t m
  obtain ⟨L, rfl, -⟩ := h t m
  trivial

theorem clipTask_other (ls : LinkState) (s : State) (ks : List (Fin 24)) : ∀ t ∈ clipTask ls s ks, Other t := by
  intro t m
  unfold clipTask at m
  split at m
  · cases m
  · split at m
    · cases List.mem_singleton.1 m
      trivial
    · cases m

/-- What is taken among the voices' work is quiet. -/
theorem quiet_of_early {acts : List Act} (h : ∀ t ∈ tasksOf acts, t.early) : ∀ a ∈ acts, Act.quiet a := by
  intro a m
  cases a with
  | draw => trivial
  | voice v => trivial
  | task t => exact h t (mem_tasksOf.2 m)

theorem skips_early {ls : LinkState} {acts : List Act} {s : State} {ts : List Task} (h : Skips ls acts s ts) :
    ∀ t ∈ ts, t.early := by
  intro t m
  obtain ⟨L, rfl, -⟩ := h t m
  trivial

theorem clipTask_early (ls : LinkState) (s : State) (ks : List (Fin 24)) : ∀ t ∈ clipTask ls s ks, t.early := by
  intro t m
  unfold clipTask at m
  split at m
  · cases m
  · split at m
    · cases List.mem_singleton.1 m
      trivial
    · cases m

/-! ### Frames without a lane -/

/-- The part of a list that stands behind what others make up. -/
theorem perm_rearrange {α : Type} {a b occs raising skips clip blocks quiet lines : List α} {late : List α}
    (h : (a ++ late).Perm (occs ++ raising ++ skips ++ clip)) (k : b.Perm (late ++ blocks ++ quiet))
    (hlines : (raising ++ quiet).Perm lines) :
    (a ++ b).Perm (occs ++ skips ++ clip ++ blocks ++ lines) := by
  calc (a ++ b).Perm (a ++ (late ++ blocks ++ quiet)) := k.append_left a
    _ = (a ++ late) ++ (blocks ++ quiet) := by simp only [List.append_assoc]
    _ |>.Perm ((occs ++ raising ++ skips ++ clip) ++ (blocks ++ quiet)) := h.append_right _
    _ |>.Perm (occs ++ skips ++ clip ++ blocks ++ (raising ++ quiet)) := by
      rw [← Multiset.coe_eq_coe]
      simp only [← Multiset.coe_add]
      ac_rfl
    _ |>.Perm (occs ++ skips ++ clip ++ blocks ++ lines) := hlines.append_left _

/-- What may be taken among the voices' work is no OUTPUT_CLIP. -/
theorem not_clip_before {ls : LinkState} {acts : List Act} {s w : State} {occs skips : List Task} {limit : Nat}
    (hoccs : ∀ x ∈ occs, ∃ k sc, k ≠ .outputClip ∧ x = .occurrence k sc) (hskips : Skips ls acts w skips) (sc : Scope) :
    Task.occurrence .outputClip sc ∉ occs ++ raisingLines limit s ++ skips := by
  intro m
  rcases List.mem_append.1 m with m | m
  · rcases List.mem_append.1 m with m | m
    · obtain ⟨k, sc', hne, e⟩ := hoccs _ m
      cases e
      exact hne rfl
    · obtain ⟨l, -, e⟩ := List.mem_map.1 m
      cases e
  · obtain ⟨L, e, -⟩ := hskips _ m
    cases e

/-- A frame of audio and end, without a lane. -/
theorem frameRan_of_audio (ls : LinkState) (xs : Int × Int) (limit : Nat) (s : State) (p : Pass) (occs : List Task)
    (hlate : p.late = occs ++ raisingLines limit s) (hoccs : ∀ x ∈ occs, ∃ k sc, k ≠ .outputClip ∧ x = .occurrence k sc)
    (out : Option (List Byte)) :
    let m := audioFrame ls xs.1 xs.2 p
    let t := finishFrame ls limit (quietLines limit s)
      { state := { m.pass.state with linkOut := out }, late := m.pass.late ++ blockTasks m.pass.state }
    m.claims = claims p.state ∧ ∃ acts acts' skips, Skips ls acts (appendSamples xs.1 xs.2 p.state) skips
      ∧ FrameRan ls xs limit m.samples (occs ++ skips ++ clipTask ls m.pass.state (clippedSlots m.claims m.samples))
        (blockTasks m.pass.state) p.state p.state m.pass.state { m.pass.state with linkOut := out } t acts acts'
      ∧ ∀ sc, Task.occurrence .outputClip sc ∉ tasksOf acts := by
  intro m t
  obtain ⟨hclaims, hsize, acts, skips, hstate, htasks, hskips, hsource, hworked, hsampled⟩ :=
    audioFrame_ran ls xs.1 xs.2 p
  obtain ⟨acts', hended, htasks', hidle⟩ := finishFrame_ran ls limit (quietLines limit s)
    { state := { m.pass.state with linkOut := out }, late := m.pass.late ++ blockTasks m.pass.state }
  rw [hlate] at htasks hsource
  have hearly : ∀ x ∈ tasksOf acts, x.early := by
    intro x hx
    have hmem := htasks.subset (List.mem_append_left _ hx)
    rcases List.mem_append.1 hmem with hmem | hmem
    · rcases List.mem_append.1 hmem with hmem | hmem
      · rcases List.mem_append.1 hmem with hmem | hmem
        · obtain ⟨k, sc, -, rfl⟩ := hoccs x hmem
          trivial
        · exact raisingLines_early limit s x hmem
      · exact skips_early hskips x hmem
    · exact clipTask_early _ _ _ x hmem
  refine ⟨hclaims, acts, acts', skips, hskips, ⟨.refl _, hstate, .linkOut _ _, hended, quiet_of_early hearly, ?_, ?_,
    hworked, hidle, hsampled, hsize⟩, fun sc m => ?_⟩
  · exact perm_rearrange htasks htasks' (lines_perm limit s)
  · intro x hx
    rcases List.mem_append.1 hx with hx | hx
    · rcases List.mem_append.1 hx with hx | hx
      · obtain ⟨k, sc, -, rfl⟩ := hoccs x hx
        trivial
      · exact skips_other hskips x hx
    · exact clipTask_other _ _ _ x hx
  · exact not_clip_before hoccs hskips sc (hsource _ m)

end Sys2Proof.Proofs.FrameRuns
end

