-- ==== Sys2Proof/Proofs/FrameFacts.lean ====
section
/-! PROOF. What a processed frame that executes no request does, from its acts (R9, R18, R35, R37, R130 to R136): the
rest of the device, each line once, the leads' histories and block work, the faults that occur in it. -/

namespace Sys2Proof.Proofs.FrameFacts

open Sys2Proof Sys2Proof.Machine Sys2Proof.Safety Sys2Proof.Proofs.Queues Sys2Proof.Proofs.Traces
  Sys2Proof.Proofs.ActEffects Sys2Proof.Proofs.Occurrences Sys2Proof.Proofs.FrameRuns Sys2Proof.Proofs.LineWork
  Sys2Proof.Proofs.PedalsAndTimed Sys2Proof.Proofs.BlockEnds Sys2Proof.Proofs.Counting Sys2Proof.Proofs.Acts

/-! ### A line among the acts -/

/-- The limit by which an act takes a line. -/
def Act.line? (l : LineId) : Act → Option Nat
  | .draw => none
  | .voice _ => none
  | .task (.pedal m limit) => if m = l then some limit else none
  | .task (.occurrence _ _) => none
  | .task .relayed => none
  | .task (.request _ _) => none
  | .task (.block _) => none

/-- The limits by which several acts take a line. -/
def linesOf (l : LineId) (acts : List Act) : List Nat := acts.filterMap (Act.line? l)

theorem line?_eq_some {l : LineId} {limit : Nat} {a : Act} (h : Act.line? l a = some limit) :
    a = .task (.pedal l limit) := by
  cases a with
  | draw => cases h
  | voice v => cases h
  | task t =>
    cases t with
    | pedal m n =>
      have h : (if m = l then some n else none) = some limit := h
      split at h
      next e =>
        cases h
        rw [e]
      next => cases h
    | occurrence k sc => cases h
    | relayed => cases h
    | request kind r => cases h
    | block L => cases h

theorem linesOf_eq (l : LineId) (acts : List Act) :
    linesOf l acts = (tasksOf acts).filterMap fun t => Act.line? l (.task t) := by
  unfold linesOf tasksOf
  rw [List.filterMap_filterMap]
  congr 1
  funext a
  cases a <;> rfl

theorem linesOf_append (l : LineId) (acts acts' : List Act) :
    linesOf l (acts ++ acts') = linesOf l acts ++ linesOf l acts' := List.filterMap_append

theorem pedal_not_mem {l : LineId} {acts : List Act} (h : linesOf l acts = []) (limit : Nat) :
    Task.pedal l limit ∉ tasksOf acts := by
  intro m
  have hnone := (List.filterMap_eq_nil_iff.1 h) _ (mem_tasksOf.1 m)
  simp [Act.line?] at hnone

/-- The one act that takes a line. -/
theorem split_at_line {l : LineId} {limit : Nat} {acts : List Act} (h : linesOf l acts = [limit]) :
    ∃ pre post, acts = pre ++ .task (.pedal l limit) :: post ∧ linesOf l pre = [] ∧ linesOf l post = [] := by
  obtain ⟨pre, a, post, rfl, hpre, ha, hpost⟩ := List.filterMap_eq_cons_iff.1 h
  rw [line?_eq_some ha]
  exact ⟨pre, post, rfl, List.filterMap_eq_nil_iff.2 hpre, hpost⟩

section
variable (ls : LinkState) {acts : List Act} (s : State)

theorem runActs_pins (h : ∀ a ∈ acts, Act.calm a) : (runActs ls acts s).pedalPins = s.pedalPins :=
  (congrArg State.pedalPins (runActs_onlyEngine ls s h).rest :)

theorem runActs_line_kept (h : ∀ a ∈ acts, Act.calm a) {l : LineId} (hnone : linesOf l acts = []) :
    (runActs ls acts s).pedal l = s.pedal l :=
  runActs_pedal ls s h (pedal_not_mem hnone)

theorem lineGateway_injective {l m : LineId} (h : lineGateway l = lineGateway m) : l = m :=
  Fin.ext (congrArg Fin.val h :)

theorem runActs_lineGateway_kept (h : ∀ a ∈ acts, Act.quiet a) {l : LineId} (hnone : linesOf l acts = []) :
    (runActs ls acts s).gateway (lineGateway l) = s.gateway (lineGateway l) :=
  runActs_gateway ls s h fun m limit e => by
    rw [← lineGateway_injective e]
    exact pedal_not_mem hnone limit

/-- A line that is taken once takes its sample (R130, R131). -/
theorem runActs_line_done (h : ∀ a ∈ acts, Act.calm a) {l : LineId} {limit : Nat} (hone : linesOf l acts = [limit]) :
    (runActs ls acts s).pedal l = pedalAfter limit s.pedalPins[l] (s.pedal l) := by
  obtain ⟨pre, post, rfl, hpre, hpost⟩ := split_at_line hone
  have hcalm : ∀ a ∈ pre, Act.calm a := fun a m => h a (List.mem_append_left _ m)
  have hcalm' : ∀ a ∈ post, Act.calm a := fun a m => h a (List.mem_append_right _ (List.mem_cons_of_mem _ m))
  rw [runActs_append, runActs_cons, runActs_line_kept ls _ hcalm' hpost]
  show (pedalWork limit l (runActs ls pre s)).pedal l = _
  rw [pedalWork_pedal, runActs_pins ls s hcalm, runActs_line_kept ls s hcalm hpre]

/-- Its gateway with it, off block work. -/
theorem runActs_lineGateway_done (h : ∀ a ∈ acts, Act.quiet a) {l : LineId} {limit : Nat}
    (hone : linesOf l acts = [limit]) : (runActs ls acts s).gateway (lineGateway l) =
      gatewayAfter limit s.pedalPins[l] (s.pedal l) (s.gateway (lineGateway l)) := by
  obtain ⟨pre, post, rfl, hpre, hpost⟩ := split_at_line hone
  have hquiet : ∀ a ∈ pre, Act.quiet a := fun a m => h a (List.mem_append_left _ m)
  have hcalm : ∀ a ∈ pre, Act.calm a := fun a m => (hquiet a m).calm
  have hquiet' : ∀ a ∈ post, Act.quiet a := fun a m => h a (List.mem_append_right _ (List.mem_cons_of_mem _ m))
  rw [runActs_append, runActs_cons, runActs_lineGateway_kept ls _ hquiet' hpost]
  show (pedalWork limit l (runActs ls pre s)).gateway (lineGateway l) = _
  rw [pedalWork_gateway, runActs_pins ls s hcalm, runActs_line_kept ls s hcalm hpre,
    runActs_lineGateway_kept ls s hquiet hpre]

end

theorem linesOf_lineTasks (l : LineId) (limit : Nat) :
    (lineTasks limit).filterMap (fun t => Act.line? l (.task t)) = [limit] := by
  unfold lineTasks
  rw [List.filterMap_map]
  show allLines.filterMap (fun m : LineId => if m = l then some limit else none) = [limit]
  fin_cases l <;> rfl

end Sys2Proof.Proofs.FrameFacts
end

