-- ==== Sys2Proof/Proofs/BlockTraces.lean ====
section
/-! PROOF. Both leads' block work among the acts of a frame (R18, R37 to R46, R60 to R65): whatever is taken between
them, each record is judged by what stood before, and each event counted. -/

namespace Sys2Proof.Proofs.BlockTraces

open Sys2Proof Sys2Proof.Machine Sys2Proof.Safety Sys2Proof.Proofs.Traces Sys2Proof.Proofs.ActEffects
  Sys2Proof.Proofs.Occurrences Sys2Proof.Proofs.BlockEnds Sys2Proof.Proofs.Counting Sys2Proof.Proofs.OtherLead

/-! ### The block work among acts -/

/-- The lead whose block work an act is. -/
def Act.block? : Act → Option Lead
  | .draw => none
  | .voice _ => none
  | .task (.block L) => some L
  | .task (.occurrence _ _) => none
  | .task .relayed => none
  | .task (.request _ _) => none
  | .task (.pedal _ _) => none

/-- The leads whose block work several acts are, in their order. -/
def blocksOf (acts : List Act) : List Lead := acts.filterMap Act.block?

theorem block?_eq_some {L : Lead} {a : Act} (h : Act.block? a = some L) : a = .task (.block L) := by
  cases a with
  | draw => cases h
  | voice v => cases h
  | task t =>
    cases t with
    | block M =>
      cases h
      rfl
    | occurrence k sc => cases h
    | relayed => cases h
    | request kind r => cases h
    | pedal l limit => cases h

theorem blocksOf_eq (acts : List Act) :
    blocksOf acts = (tasksOf acts).filterMap fun t => Act.block? (.task t) := by
  unfold blocksOf tasksOf
  rw [List.filterMap_filterMap]
  congr 1
  funext a
  cases a <;> rfl

/-- An act that is no request and no block work is quiet. -/
theorem quiet_of_calm {a : Act} (h : Act.calm a) (hblock : Act.block? a = none) : Act.quiet a := by
  cases a with
  | draw => trivial
  | voice v => trivial
  | task t =>
    cases t with
    | request kind r => exact h.elim
    | block L => cases hblock
    | occurrence k sc => trivial
    | relayed => trivial
    | pedal l limit => trivial

theorem block?_of_quiet {a : Act} (h : Act.quiet a) : Act.block? a = none := by
  cases a with
  | draw => rfl
  | voice v => rfl
  | task t =>
    cases t with
    | block L => exact h.elim
    | request kind r => rfl
    | occurrence k sc => rfl
    | relayed => rfl
    | pedal l limit => rfl

theorem blocksOf_quiet {acts : List Act} (h : ∀ a ∈ acts, Act.quiet a) : blocksOf acts = [] :=
  List.filterMap_eq_nil_iff.2 fun a m => block?_of_quiet (h a m)

/-- Two block works lie between quiet acts. -/
theorem split_at_blocks {acts : List Act} {L M : Lead} (hcalm : ∀ a ∈ acts, Act.calm a) (h : blocksOf acts = [L, M]) :
    ∃ pre mid post, acts = pre ++ .task (.block L) :: (mid ++ .task (.block M) :: post)
      ∧ (∀ a ∈ pre, Act.quiet a) ∧ (∀ a ∈ mid, Act.quiet a) ∧ ∀ a ∈ post, Act.quiet a := by
  obtain ⟨pre, a, rest, rfl, hpre, ha, hrest⟩ := List.filterMap_eq_cons_iff.1 h
  obtain ⟨mid, b, post, rfl, hmid, hb, hpost⟩ := List.filterMap_eq_cons_iff.1 hrest
  rw [block?_eq_some ha, block?_eq_some hb] at *
  refine ⟨pre, mid, post, rfl, fun a m => ?_, fun a m => ?_, fun a m => ?_⟩
  · exact quiet_of_calm (hcalm a (List.mem_append_left _ m)) (hpre a m)
  · exact quiet_of_calm (hcalm a (List.mem_append_right _ (List.mem_cons_of_mem _ (List.mem_append_left _ m))))
      (hmid a m)
  · exact quiet_of_calm (hcalm a (List.mem_append_right _ (List.mem_cons_of_mem _ (List.mem_append_right _
      (List.mem_cons_of_mem _ m))))) (List.filterMap_eq_nil_iff.1 hpost a m)

/-- The block works of both leads stand in one of the two orders. -/
theorem blocks_in_order {bs : List Lead} (h : bs.Perm [.a, .b]) : ∃ L M, L ≠ M ∧ bs = [L, M] := by
  have hlen := h.length_eq
  obtain ⟨L, M, rfl⟩ := List.length_eq_two.1 hlen
  have hnodup : [L, M].Nodup := h.nodup_iff.2 (by decide)
  exact ⟨L, M, fun e => by simp [e] at hnodup, rfl⟩

/-- The counts of both leads' events, from those of the five codes. -/
theorem judgementsCounted_upto {L M : Lead} (hne : L ≠ M) {s t : State}
    (h : ∀ code, 1 ≤ code → code ≤ 5 → CountsTimes code (judgedEvents s L code + judgedEvents s M code) s t) :
    JudgementsCounted (fun K => (s.lead K).history) s t := by
  have h1 := h 1 (by decide) (by decide)
  have h2 := h 2 (by decide) (by decide)
  have h3 := h 3 (by decide) (by decide)
  have h4 := h 4 (by decide) (by decide)
  have h5 := h 5 (by decide) (by decide)
  cases L <;> cases M <;> first | exact absurd rfl hne | skip
  all_goals simp [judgedEvents, eventCode] at h1 h2 h3 h4 h5
  · exact ⟨h1, h2, h3, h4, h5⟩
  · refine ⟨h1, h2, h3, h4, ?_⟩
    rw [Nat.add_comm] at h5
    exact h5

/-! ### Quiet acts and judgements -/

section
variable (ls : LinkState) {acts : List Act} (s : State)

theorem judgesAlike_of_quiet (h : ∀ a ∈ acts, Act.quiet a) (L : Lead) : JudgesAlike L s (runActs ls acts s) := by
  have hlead := runActs_lead ls s h L
  have hengine := runActs_onlyEngine ls s fun a m => (h a m).calm
  exact ⟨by rw [hlead], .of_frozen hlead, hengine.scenes, hengine.tuning⟩

theorem judged_behind_quiet (h : ∀ a ∈ acts, Act.quiet a) {u : State} {K : Lead} {hist : List Int}
    (k : Judged u K hist (s.lead K)) : Judged u K hist ((runActs ls acts s).lead K) :=
  Judged.of_sameTracked k (.of_frozen (runActs_lead ls s h K))

theorem judged_by_base {K : Lead} {c : LeadChannel} {u : State} (h : JudgesAlike K s u)
    (k : Judged u K (u.lead K).history c) : Judged s K (s.lead K).history c := by
  have hjudged := h.judged k
  rwa [h.tracked.history] at hjudged

/-- Both leads' block work among quiet acts. -/
theorem runActs_judged (hcalm : ∀ a ∈ acts, Act.calm a) (hblocks : (blocksOf acts).Perm [.a, .b]) :
    (∀ K, Judged s K (s.lead K).history ((runActs ls acts s).lead K))
      ∧ JudgementsCounted (fun K => (s.lead K).history) s (runActs ls acts s) := by
  obtain ⟨L, M, hne, horder⟩ := blocks_in_order hblocks
  obtain ⟨pre, mid, post, rfl, hpre, hmid, hpost⟩ := split_at_blocks hcalm horder
  have hstate : runActs ls (pre ++ .task (.block L) :: (mid ++ .task (.block M) :: post)) s =
      runActs ls post (blockWork ls M (runActs ls mid (blockWork ls L (runActs ls pre s)))) := by
    rw [runActs_append, runActs_cons, runActs_append, runActs_cons]
    rfl
  rw [hstate]
  generalize hu1 : runActs ls pre s = u1
  have h1 (K : Lead) : JudgesAlike K s u1 := by rw [← hu1]; exact judgesAlike_of_quiet ls s hpre K
  have hcode1 {code : Nat} (hc : ¬ActCodes code) : CodeKept code s u1 := by
    rw [← hu1]; exact runActs_codeKept ls s hc hpre
  obtain ⟨hfirst, hcount⟩ := blockWork_judges ls L u1
  generalize hu3 : runActs ls mid (blockWork ls L u1) = u3
  have h3 : JudgesAlike M u1 u3 := by
    have hother := (spares_blockWork hne ls u1).lead
    have hengine := blockWork_onlyEngine ls L u1
    have hquiet := judgesAlike_of_quiet ls (blockWork ls L u1) hmid M
    rw [hu3] at hquiet
    exact ⟨hquiet.scene.trans (by rw [hother]), (SameTracked.of_frozen hother).trans hquiet.tracked,
      hquiet.scenes.trans hengine.scenes, hquiet.tuning.trans hengine.tuning⟩
  have hcode3 {code : Nat} (hc : ¬ActCodes code) : CodeKept code (blockWork ls L u1) u3 := by
    rw [← hu3]; exact runActs_codeKept ls _ hc hmid
  obtain ⟨hsecond, hcount'⟩ := blockWork_judges ls M u3
  have hleadL : Judged u1 L (u1.lead L).history ((blockWork ls M u3).lead L) := by
    have hspared := SameTracked.of_frozen (spares_blockWork (Ne.symm hne) ls u3).lead
    have hquiet : SameTracked ((blockWork ls L u1).lead L) (u3.lead L) := by
      rw [← hu3]; exact .of_frozen (runActs_lead ls _ hmid L)
    exact Judged.of_sameTracked (judged_of_sameTracked hfirst) (hquiet.trans hspared)
  have hleadM : Judged u1 M (u1.lead M).history ((blockWork ls M u3).lead M) :=
    judged_by_base u1 h3 (judged_of_sameTracked hsecond)
  refine ⟨fun K => ?_, ?_⟩
  · have hboth : Judged u1 K (u1.lead K).history ((blockWork ls M u3).lead K) := by
      by_cases hK : K = L
      · rw [hK]; exact hleadL
      · rw [other_lead hne hK]; exact hleadM
    have hbased := judged_by_base s (h1 K) hboth
    exact judged_behind_quiet ls _ hpost hbased
  · refine judgementsCounted_upto hne fun code hlow hcode => ?_
    have hact : ¬ActCodes code := by unfold ActCodes; omega
    have hpostKept : CodeKept code (blockWork ls M u3) (runActs ls post (blockWork ls M u3)) :=
      runActs_codeKept ls _ hact hpost
    have hone := countsTimes_behind (hcount code (not_cueCodes hcode)) (hcode3 hact)
    have hboth := countsTimes_behind (countsTimes_trans hone (hcount' code (not_cueCodes hcode))) hpostKept
    rw [h3.events, (h1 L).events, (h1 M).events] at hboth
    exact countsTimes_before (hcode1 hact) hboth

end

end Sys2Proof.Proofs.BlockTraces
end

