-- ==== Sys2Proof/Proofs/VoicesInFrames.lean ====
section
/-! PROOF. The voices of a frame among its acts (R99, R101 to R107, R151 to R154): an occurrence reaches a voice by a
mute alone; where no mute is due each voice does its own work and no other act touches it. -/

namespace Sys2Proof.Proofs.VoicesInFrames

open Sys2Proof Sys2Proof.Machine Sys2Proof.Safety Sys2Proof.Proofs.VoiceFrame Sys2Proof.Proofs.Occurrences
  Sys2Proof.Proofs.FaultSide Sys2Proof.Proofs.Traces Sys2Proof.Proofs.LineWork Sys2Proof.Proofs.ActEffects
  Sys2Proof.Proofs.VoiceRequests

/-! ### How an occurrence reaches a voice -/

theorem muteVoice_voice_keeps {P : Voice → Prop} {k : FaultKind} (hP : ∀ x inc, P x → P (x.mutedBy k inc)) {s : State}
    {v : VoiceId} (w : VoiceId) (h : P (s.voice v)) : P ((muteVoice k s w).voice v) := by
  unfold muteVoice
  by_cases e : w = v
  · subst e
    rw [State.voice_setVoice]
    exact hP _ _ h
  · rw [State.voice_setVoice_ne _ _ _ _ e]
    exact h

theorem muteVoices_voice_keeps {P : Voice → Prop} {k : FaultKind} (hP : ∀ x inc, P x → P (x.mutedBy k inc))
    {v : VoiceId} : ∀ (vs : List VoiceId) (s : State), P (s.voice v) → P ((vs.foldl (muteVoice k) s).voice v)
  | [], _, h => h
  | w :: vs, s, h => muteVoices_voice_keeps hP vs (muteVoice k s w) (muteVoice_voice_keeps hP w h)

/-- What mutes keep of a voice's record, an occurrence keeps. -/
theorem raise_voice_keeps {P : Voice → Prop} {k : FaultKind} (hP : ∀ x inc, P x → P (x.mutedBy k inc)) (sc : Scope)
    {s : State} {v : VoiceId} (h : P (s.voice v)) : P ((raise k sc s).voice v) := by
  have hvoices := raise_voices k sc s
  by_cases hopens : (s.fault k).detectMask = false ∧ (s.fault k).status = false
  · rw [if_pos hopens] at hvoices
    have hvoice : (raise k sc s).voice v = (opened k sc s).voice v := congrArg (·[v]) hvoices
    rw [hvoice]
    cases hsev : (s.fault k).severity with
    | notice =>
      have hsame : (opened k sc s).voice v = s.voice v := congrArg (·[v]) (opened_voices_of_notice hsev sc)
      rw [hsame]
      exact h
    | mute =>
      unfold opened
      rw [setKind_mute k sc (countEvent .faultOccurrence s) hsev]
      exact muteVoices_voice_keeps hP _ _ h
  · rw [if_neg hopens] at hvoices
    have hvoice : (raise k sc s).voice v = s.voice v := congrArg (·[v]) hvoices
    rw [hvoice]
    exact h

/-- An occurrence of this kind would mute: unmasked, clear, and of severity MUTE (R152, R154). -/
def Mutes (k : FaultKind) (s : State) : Prop :=
  (s.fault k).detectMask = false ∧ (s.fault k).status = false ∧ (s.fault k).severity = .mute

theorem not_mutes_of_notice {k : FaultKind} {s : State} (h : (s.fault k).severity = .notice) : ¬Mutes k s :=
  fun hm => nomatch h.symm.trans hm.2.2

theorem noMuteDue_iff (s : State) : NoMuteDue s ↔ ∀ k, k ≠ .outputClip → ¬Mutes k s := by
  refine forall_congr' fun k => forall_congr' fun _ => ?_
  unfold Mutes
  cases (s.fault k).severity <;> cases (s.fault k).status <;> cases (s.fault k).detectMask <;> simp

theorem pedalWork_voice_keeps {P : Voice → Prop} (hP : ∀ x inc, P x → P (x.mutedBy .pedalStuck inc)) (limit : Nat)
    (l : LineId) {s : State} {v : VoiceId} (h : P (s.voice v)) : P ((pedalWork limit l s).voice v) := by
  obtain ⟨u, w, hu, hw, ht⟩ := pedalWork_parts limit l s
  have huv : u.voice v = s.voice v := congrArg (·[v]) hu.voices
  have htw : (pedalWork limit l s).voice v = w.voice v := congrArg (·[v]) ht.voices
  rw [htw]
  obtain rfl | ⟨L, rfl⟩ := hw
  · rw [huv]; exact h
  · exact raise_voice_keeps hP _ (by rw [huv]; exact h)

theorem pedalWork_voices_of_not_mutes {s : State} (h : ¬Mutes .pedalStuck s) (limit : Nat) (l : LineId) :
    (pedalWork limit l s).voices = s.voices := by
  obtain ⟨u, w, hu, hw, ht⟩ := pedalWork_parts limit l s
  have hstuck : w.voices = u.voices := by
    obtain rfl | ⟨L, rfl⟩ := hw
    · rfl
    · refine raise_voices_of_not_mutes ?_ _
      rw [hu.fault]
      exact h
  exact ht.voices.trans (hstuck.trans hu.voices)

/-! ### A voice's own work -/

theorem voiceWork_unowned {v : VoiceId} {s : State} (h : (s.voice v).owner = none) :
    voiceWork v s = { state := s, sample := 0, skipped := none } := by
  simp only [voiceWork, h]
  split
  next heq => cases heq
  next => rfl

theorem voiceWork_voice_ne {v w : VoiceId} (h : v ≠ w) (s : State) : (voiceWork v s).state.voice w = s.voice w := by
  cases hruns : (s.voice v).runs with
  | false => rw [voiceWork_stands hruns]
  | true =>
    cases howner : (s.voice v).owner with
    | none => rw [voiceWork_unowned howner]
    | some L =>
      have hframe := endRamp_voice_ne h (s.setVoice v ((s.voice v).frame (s.lead L).history (s.lead L).splicePeriod).1)
      rw [State.voice_setVoice_ne _ _ _ _ h] at hframe
      rw [voiceWork_runs hruns howner]
      simp only
      split
      · exact hframe
      · exact hframe

theorem endRamp_congr {v : VoiceId} {s u : State} (hv : u.voice v = s.voice v) (hc : u.config = s.config) :
    (endRamp v u).1.voice v = (endRamp v s).1.voice v := by
  cases hstate : (s.voice v).state with
  | rising =>
    rw [endRamp_rising hstate, endRamp_rising (by rw [hv]; exact hstate), hv]
  | falling =>
    have hstate' : (u.voice v).state = .falling := by rw [hv]; exact hstate
    by_cases henv : (s.voice v).envelope = 0
    · obtain ⟨y, clears, skipped, -, hshape⟩ := endFall_shape v s
      rw [endRamp_fallen hstate henv, endRamp_fallen hstate' (by rw [hv]; exact henv), hshape u hv hc, hshape s rfl rfl,
        placed_voice, placed_voice]
    · rw [endRamp_running (.inr ⟨hstate, henv⟩), endRamp_running (.inr ⟨hstate', by rw [hv]; exact henv⟩), hv]
  | sounding =>
    rw [endRamp_running (.inl hstate), endRamp_running (.inl (by rw [hv]; exact hstate)), hv]
  | off => simp only [endRamp, hv, hstate]
  | idle => simp only [endRamp, hv, hstate]
  | muted => simp only [endRamp, hv, hstate]

/-- A voice's work reads its record, the configuration, and its lead's history and splice period alone (R107). -/
theorem voiceWork_congr {v : VoiceId} {s u : State} (hv : u.voice v = s.voice v) (hc : u.config = s.config)
    (hl : ∀ L, (u.lead L).history = (s.lead L).history ∧ (u.lead L).splicePeriod = (s.lead L).splicePeriod) :
    (voiceWork v u).sample = (voiceWork v s).sample
      ∧ (voiceWork v u).state.voice v = (voiceWork v s).state.voice v := by
  cases hruns : (s.voice v).runs with
  | false =>
    rw [voiceWork_stands hruns, voiceWork_stands (s := u) (by rw [hv]; exact hruns)]
    exact ⟨rfl, hv⟩
  | true =>
    cases howner : (s.voice v).owner with
    | none =>
      rw [voiceWork_unowned howner, voiceWork_unowned (s := u) (by rw [hv]; exact howner)]
      exact ⟨rfl, hv⟩
    | some L =>
      have hruns' : (u.voice v).runs = true := by rw [hv]; exact hruns
      have howner' : (u.voice v).owner = some L := by rw [hv]; exact howner
      obtain ⟨hhist, hperiod⟩ := hl L
      have hsame : (u.voice v).frame (u.lead L).history (u.lead L).splicePeriod
          = (s.voice v).frame (s.lead L).history (s.lead L).splicePeriod := by rw [hv, hhist, hperiod]
      refine ⟨?_, ?_⟩
      · rw [voiceWork_runs hruns howner, voiceWork_runs hruns' howner']
        simp only [hsame]
      · rw [voiceWork_voice hruns howner, voiceWork_voice hruns' howner', hsame]
        exact endRamp_congr (by rw [State.voice_setVoice, State.voice_setVoice]) hc

/-! ### Voices among quiet acts -/

section
variable (ls : LinkState) {acts : List Act} (s : State)

/-- What mutes keep of a voice's record, quiet acts keep but for the voice's own work. -/
theorem run_voice_keeps {P : Voice → Prop} (hP : ∀ k x inc, P x → P (x.mutedBy k inc)) {a : Act} (hquiet : Act.quiet a)
    {v : VoiceId} (hne : a ≠ .voice v) (h : P (s.voice v)) : P ((a.run ls s).voice v) := by
  cases a with
  | draw => exact h
  | voice w =>
    show P ((voiceWork w s).state.voice v)
    rw [voiceWork_voice_ne (fun e => hne (by rw [e])) s]
    exact h
  | task t =>
    cases t with
    | request kind r => exact hquiet.elim
    | block L => exact hquiet.elim
    | occurrence k sc => exact raise_voice_keeps (hP k) sc h
    | relayed => exact h
    | pedal l limit => exact pedalWork_voice_keeps (hP .pedalStuck) limit l h

/-- OUTPUT_CLIP does not occur among the acts, or mutes none. -/
def NoClipMute (acts : List Act) (s : State) : Prop :=
  (∀ sc, Task.occurrence .outputClip sc ∉ tasksOf acts) ∨ ¬Mutes .outputClip s

/-- Where no mute is due a quiet act touches no voice but the one that works. -/
theorem run_voice_unmuted {a : Act} (hquiet : Act.quiet a) {v : VoiceId} (hne : a ≠ .voice v)
    (hmute : NoMuteDue s) (hclip : (∀ sc, a ≠ .task (.occurrence .outputClip sc)) ∨ ¬Mutes .outputClip s) :
    (a.run ls s).voice v = s.voice v := by
  rw [noMuteDue_iff] at hmute
  cases a with
  | draw => rfl
  | voice w => exact voiceWork_voice_ne (fun e => hne (by rw [e])) s
  | task t =>
    cases t with
    | request kind r => exact hquiet.elim
    | block L => exact hquiet.elim
    | occurrence k sc =>
      have hnot : ¬Mutes k s := by
        by_cases hk : k = .outputClip
        · subst hk
          exact hclip.resolve_left fun h => h sc rfl
        · exact hmute k hk
      exact congrArg (·[v]) (raise_voices_of_not_mutes hnot sc)
    | relayed => rfl
    | pedal l limit => exact congrArg (·[v]) (pedalWork_voices_of_not_mutes (hmute _ (by decide)) limit l)

theorem noMuteDue_grows {s t : State} (h : NoMuteDue s) (e : StatusGrows s t) : NoMuteDue t := by
  rw [noMuteDue_iff] at *
  exact fun k hk => not_mutes_of_grows e (h k hk)

theorem runActs_voice_unmuted (hquiet : ∀ a ∈ acts, Act.quiet a) {v : VoiceId} (hne : v ∉ voicesOf acts)
    (hmute : NoMuteDue s) (hclip : NoClipMute acts s) : (runActs ls acts s).voice v = s.voice v := by
  refine (runActs_keeps (P := fun u => StatusGrows s u ∧ u.voice v = s.voice v) ls acts s (fun a m u hu => ?_)
    ⟨.refl s, rfl⟩).2
  obtain ⟨hgrows, hv⟩ := hu
  refine ⟨StatusGrows.trans hgrows (run_statusGrows ls u (hquiet a m).calm), Eq.trans ?_ hv⟩
  refine run_voice_unmuted ls u (hquiet a m) (fun e => hne (mem_voicesOf.2 (e ▸ m))) (noMuteDue_grows hmute hgrows) ?_
  obtain hclip | hclip := hclip
  · exact .inl fun sc e => hclip sc (mem_tasksOf.2 (e ▸ m))
  · exact .inr (not_mutes_of_grows hgrows hclip)

/-- What mutes keep of a voice's record, quiet acts without its work keep. -/
theorem runActs_voice_keeps {P : Voice → Prop} (hP : ∀ k x inc, P x → P (x.mutedBy k inc))
    (hquiet : ∀ a ∈ acts, Act.quiet a) {v : VoiceId} (hne : v ∉ voicesOf acts) (h : P (s.voice v)) :
    P ((runActs ls acts s).voice v) :=
  runActs_keeps (P := fun u => P (u.voice v)) ls acts s
    (fun a m u hu => run_voice_keeps ls u hP (hquiet a m) (fun e => hne (mem_voicesOf.2 (e ▸ m))) hu) h

/-- The one place of a voice's work among acts in which each voice works once. -/
theorem split_at_work (h : (voicesOf acts).Perm allVoices) (v : VoiceId) :
    ∃ pre post, acts = pre ++ .voice v :: post ∧ v ∉ voicesOf pre ∧ v ∉ voicesOf post := by
  have hnodup : (voicesOf acts).Nodup := h.nodup_iff.2 allVoices_nodup
  obtain ⟨pre, post, rfl⟩ := split_at_voice (h.mem_iff.2 (VoiceLaws.mem_allVoices v))
  rw [voicesOf_append, show voicesOf (.voice v :: post) = v :: voicesOf post from rfl] at hnodup
  obtain ⟨-, hpost, hdisjoint⟩ := List.nodup_append.1 hnodup
  exact ⟨pre, post, rfl, fun m => hdisjoint v m v List.mem_cons_self rfl, (List.nodup_cons.1 hpost).1⟩

/-- Whatever place the sample of a voice is told at is the one place of its work. -/
theorem sampled_place {acts : List Act} {s : State} {ys : List Int} {v : VoiceId} (h : (voicesOf acts).Perm allVoices)
    (k : Sampled ls acts s ys v) : ∃ pre post, acts = pre ++ .voice v :: post ∧ v ∉ voicesOf pre ∧ v ∉ voicesOf post
      ∧ ys.getD v.val 0 = (voiceWork v (runActs ls pre s)).sample := by
  have hnodup : (voicesOf acts).Nodup := h.nodup_iff.2 allVoices_nodup
  obtain ⟨pre, post, rfl, hy⟩ := k
  rw [voicesOf_append, show voicesOf (.voice v :: post) = v :: voicesOf post from rfl] at hnodup
  obtain ⟨-, hpost, hdisjoint⟩ := List.nodup_append.1 hnodup
  exact ⟨pre, post, rfl, fun m => hdisjoint v m v List.mem_cons_self rfl, (List.nodup_cons.1 hpost).1, hy⟩

/-- The reads of a voice's work stay through quiet acts. -/
theorem quiet_reads (hquiet : ∀ a ∈ acts, Act.quiet a) : (runActs ls acts s).config = s.config
    ∧ ∀ L, ((runActs ls acts s).lead L).history = (s.lead L).history
      ∧ ((runActs ls acts s).lead L).splicePeriod = (s.lead L).splicePeriod :=
  ⟨(runActs_onlyEngine ls s fun a m => (hquiet a m).calm).config, fun L => by
    rw [runActs_lead ls s hquiet L]
    exact ⟨rfl, rfl⟩⟩

/-- Where no mute is due, each voice does its work of the frame and no more (R107). -/
theorem runActs_voice_works (hquiet : ∀ a ∈ acts, Act.quiet a) (hvoices : (voicesOf acts).Perm allVoices)
    (hmute : NoMuteDue s) (hclip : NoClipMute acts s) (v : VoiceId) :
    (runActs ls acts s).voice v = (voiceWork v s).state.voice v := by
  obtain ⟨pre, post, rfl, hpre, hpost⟩ := split_at_work hvoices v
  have hquiet1 : ∀ a ∈ pre, Act.quiet a := fun a m => hquiet a (List.mem_append_left _ m)
  have hquiet2 : ∀ a ∈ post, Act.quiet a := fun a m => hquiet a (List.mem_append_right _ (List.mem_cons_of_mem _ m))
  have hclip1 : NoClipMute pre s := hclip.imp_left fun h sc m => h sc (by
    rw [tasksOf_append]; exact List.mem_append_left _ m)
  have hgrows1 := runActs_statusGrows ls s fun a m => (hquiet1 a m).calm
  have hwork : StatusGrows (runActs ls pre s) (voiceWork v (runActs ls pre s)).state :=
    .of_faults (voiceWork_faults v _)
  have hgrows2 := StatusGrows.trans hgrows1 hwork
  have hclip2 : NoClipMute post (voiceWork v (runActs ls pre s)).state := by
    obtain hclip | hclip := hclip
    · refine .inl fun sc m => hclip sc ?_
      rw [tasksOf_append]
      exact List.mem_append_right _ m
    · exact .inr (not_mutes_of_grows hgrows2 hclip)
  have hv := runActs_voice_unmuted ls s hquiet1 hpre hmute hclip1
  obtain ⟨hc, hl⟩ := quiet_reads ls s hquiet1
  rw [runActs_append, runActs_cons]
  exact (runActs_voice_unmuted ls _ hquiet2 hpost (noMuteDue_grows hmute hgrows2) hclip2).trans
    (voiceWork_congr hv hc hl).2

/-- Where no mute is due, a voice's sample is that of its work at the frame's beginning (R107). -/
theorem sample_unmuted {ys : List Int} {v : VoiceId} (hquiet : ∀ a ∈ acts, Act.quiet a)
    (hvoices : (voicesOf acts).Perm allVoices) (hmute : NoMuteDue s) (hclip : NoClipMute acts s)
    (h : Sampled ls acts s ys v) : ys.getD v.val 0 = (voiceWork v s).sample := by
  obtain ⟨pre, post, rfl, hpre, -, hy⟩ := sampled_place ls hvoices h
  have hquiet1 : ∀ a ∈ pre, Act.quiet a := fun a m => hquiet a (List.mem_append_left _ m)
  have hclip1 : NoClipMute pre s := hclip.imp_left fun h sc m => h sc (by
    rw [tasksOf_append]; exact List.mem_append_left _ m)
  obtain ⟨hc, hl⟩ := quiet_reads ls s hquiet1
  rw [hy]
  exact (voiceWork_congr (runActs_voice_unmuted ls s hquiet1 hpre hmute hclip1) hc hl).1

theorem mutedBy_stands (k : FaultKind) (x : Voice) (inc : Nat) (h : x.runs = false) : (x.mutedBy k inc).runs = false := by
  unfold Voice.runs at h
  unfold Voice.mutedBy Voice.runs
  cases hstate : x.state <;> simp only [hstate] at h ⊢ <;> first | rfl | cases h

/-- A voice that does not run has sample 0 whatever mutes are due (R106). -/
theorem sample_stands {ys : List Int} {v : VoiceId} (hquiet : ∀ a ∈ acts, Act.quiet a)
    (hvoices : (voicesOf acts).Perm allVoices) (hstands : (s.voice v).runs = false) (h : Sampled ls acts s ys v) :
    ys.getD v.val 0 = 0 := by
  obtain ⟨pre, post, rfl, hpre, -, hy⟩ := sampled_place ls hvoices h
  have hquiet1 : ∀ a ∈ pre, Act.quiet a := fun a m => hquiet a (List.mem_append_left _ m)
  rw [hy, voiceWork_stands]
  exact runActs_voice_keeps (P := fun x => x.runs = false) ls s (fun k x inc hx => mutedBy_stands k x inc hx) hquiet1
    hpre hstands

end

end Sys2Proof.Proofs.VoicesInFrames
end

