-- ==== Sys2Proof/Proofs/FrameEnds.lean ====
section
/-! PROOF. A processed frame that executes no request, from its beginning to its end: lines and gateways, timed cues,
leads, counters, faults and voices (R9, R18, R35, R37, R101 to R107, R130 to R136, R163). -/

namespace Sys2Proof.Proofs.FrameEnds

open Sys2Proof Sys2Proof.Machine Sys2Proof.Safety Sys2Proof.Proofs.Queues Sys2Proof.Proofs.Traces
  Sys2Proof.Proofs.ActEffects Sys2Proof.Proofs.Occurrences Sys2Proof.Proofs.FrameRuns Sys2Proof.Proofs.LineWork
  Sys2Proof.Proofs.FrameFacts Sys2Proof.Proofs.BlockTraces Sys2Proof.Proofs.BlockEnds Sys2Proof.Proofs.Counting
  Sys2Proof.Proofs.Acts Sys2Proof.Proofs.VoicesInFrames

/-! ### What a lane frame keeps -/

section
variable {s t : State} (h : Sent s t)
include h

theorem Sent.lead (L : Lead) : t.lead L = s.lead L := by rw [h.frame]; cases L <;> rfl
theorem Sent.pedals : t.pedals = s.pedals := by rw [h.frame]
theorem Sent.gateways : t.gateways = s.gateways := by rw [h.frame]
theorem Sent.timed : t.timed = s.timed := by rw [h.frame]
theorem Sent.voices : t.voices = s.voices := by rw [h.frame]
theorem Sent.faults : t.faults = s.faults := by rw [h.frame]
theorem Sent.pins : t.pedalPins = s.pedalPins := by rw [h.frame]
theorem Sent.ltu : t.ltu = s.ltu := by rw [h.frame]
theorem Sent.config : t.config = s.config := by rw [h.frame]
theorem Sent.scenes : t.scenes = s.scenes := by rw [h.frame]
theorem Sent.tuning : t.tuning = s.tuning := by rw [h.frame]
theorem Sent.pedal (l : LineId) : t.pedal l = s.pedal l := congrArg (fun x : Vector PedalLine 4 => x[l]) (Sent.pedals h)
theorem Sent.gateway (g : Fin 8) : t.gateway g = s.gateway g :=
  congrArg (fun x : Vector Gateway 8 => x[g]) (Sent.gateways h)
theorem Sent.voice (v : VoiceId) : t.voice v = s.voice v := congrArg (fun x : Vector Voice 8 => x[v]) (Sent.voices h)
theorem Sent.statusGrows : StatusGrows s t := .of_faults (Sent.faults h)
theorem Sent.faultKept (k : FaultKind) : FaultKept k s t := .of_faults (Sent.faults h)

end

/-- The samples of a frame in the leads' histories. -/
theorem appendSamples_lead (xs : Int × Int) (s : State) (L : Lead) :
    (appendSamples xs.1 xs.2 s).lead L = { s.lead L with history := withSample xs s L } := by
  cases L <;> rfl

theorem withSample_congr {s t : State} (xs : Int × Int) {L : Lead} (h : t.lead L = s.lead L) :
    withSample xs t L = withSample xs s L := by
  unfold withSample
  rw [h]

/-! ### From beginning to end -/

section
variable {ls : LinkState} {xs : Int × Int} {limit : Nat} {ys : List Int} {others blocks : List Task}
  {u u0 u2 u3 t : State} {acts acts' : List Act}
  (h : FrameRan ls xs limit ys others blocks u u0 u2 u3 t acts acts')
include h

omit h in
theorem not_line_of_other {x : Task} (hx : Other x) (l : LineId) : Act.line? l (.task x) = none := by
  cases x with
  | pedal m n => exact hx.elim
  | block L => exact hx.elim
  | occurrence k sc => rfl
  | relayed => rfl
  | request kind r => rfl

omit h in
theorem not_block_of_other {x : Task} (hx : Other x) : Act.block? (.task x) = none := by
  cases x with
  | pedal m n => exact hx.elim
  | block L => exact hx.elim
  | occurrence k sc => rfl
  | relayed => rfl
  | request kind r => rfl

theorem FrameRan.calm : ∀ a ∈ acts, Act.calm a := fun a m => (h.quiet a m).calm

section
variable (hblocks : blocks = [] ∨ blocks = [.block .a, .block .b])
include hblocks

omit h in
theorem blocks_line (l : LineId) : blocks.filterMap (fun x => Act.line? l (.task x)) = [] := by
  obtain rfl | rfl := hblocks
  · rfl
  · rfl

/-- Each line is taken once. -/
theorem FrameRan.line_once (l : LineId) :
    (linesOf l acts = [limit] ∧ linesOf l acts' = []) ∨ (linesOf l acts = [] ∧ linesOf l acts' = [limit]) := by
  have hperm := h.tasks.filterMap fun x => Act.line? l (.task x)
  have hother : others.filterMap (fun x => Act.line? l (.task x)) = [] :=
    List.filterMap_eq_nil_iff.2 fun x m => not_line_of_other (h.other x m) l
  rw [List.filterMap_append, List.filterMap_append, List.filterMap_append, hother, blocks_line hblocks,
    linesOf_lineTasks, ← linesOf_eq, ← linesOf_eq] at hperm
  have heq := List.perm_singleton.1 hperm
  rcases List.append_eq_singleton_iff.1 heq with ⟨ha, hb⟩ | ⟨ha, hb⟩
  · exact .inr ⟨ha, hb⟩
  · exact .inl ⟨ha, hb⟩

theorem FrameRan.task_mem {x : Task} (m : x ∈ tasksOf acts ∨ x ∈ tasksOf acts') :
    x ∈ others ∨ x = .block .a ∨ x = .block .b ∨ ∃ l, x = .pedal l limit := by
  have hmem := h.tasks.subset (List.mem_append.2 m)
  rcases List.mem_append.1 hmem with hmem | hmem
  · rcases List.mem_append.1 hmem with hmem | hmem
    · exact .inl hmem
    · obtain rfl | rfl := hblocks
      · cases hmem
      · rcases List.mem_cons.1 hmem with rfl | hmem
        · exact .inr (.inl rfl)
        · exact .inr (.inr (.inl (List.mem_singleton.1 hmem)))
  · obtain ⟨l, -, rfl⟩ := List.mem_map.1 hmem
    exact .inr (.inr (.inr ⟨l, rfl⟩))

theorem FrameRan.calm' (hcalm : ∀ kind r, Task.request kind r ∉ others) : ∀ a ∈ acts', Act.calm a := by
  intro a m
  cases a with
  | draw => trivial
  | voice v => trivial
  | task x =>
    cases x with
    | request kind r =>
      rcases FrameRan.task_mem h hblocks (.inr (mem_tasksOf.2 m)) with hx | hx | hx | ⟨l, hx⟩
      · exact absurd hx (hcalm kind r)
      all_goals cases hx
    | occurrence k sc => trivial
    | relayed => trivial
    | pedal l n => trivial
    | block L => trivial

end

omit h in
/-- The block work of the frame's end is that of the frame. -/
theorem FrameRan.blocks' (h : FrameRan ls xs limit ys others blocks u u0 u2 u3 t acts acts') :
    (blocksOf acts').Perm (blocks.filterMap fun x => Act.block? (.task x)) := by
  have hperm := h.tasks.filterMap fun x => Act.block? (.task x)
  have hother : others.filterMap (fun x => Act.block? (.task x)) = [] :=
    List.filterMap_eq_nil_iff.2 fun x m => not_block_of_other (h.other x m)
  have hlines : (lineTasks limit).filterMap (fun x => Act.block? (.task x)) = [] :=
    List.filterMap_eq_nil_iff.2 fun x m => by
      obtain ⟨l, -, rfl⟩ := List.mem_map.1 m
      rfl
  rw [List.filterMap_append, List.filterMap_append, List.filterMap_append, hother, hlines, ← blocksOf_eq,
    ← blocksOf_eq, blocksOf_quiet h.quiet, List.nil_append, List.nil_append, List.append_nil] at hperm
  exact hperm

section
variable (hcalm : ∀ kind r, Task.request kind r ∉ others)
include hcalm

/-- Off a block end a frame without a request ends in quiet acts. -/
theorem FrameRan.quiet' (hblocks : blocks = []) : ∀ a ∈ acts', Act.quiet a := by
  intro a m
  have hnone : blocksOf acts' = [] := by
    have hperm := FrameRan.blocks' h
    rw [hblocks] at hperm
    exact List.perm_nil.1 hperm
  exact quiet_of_calm (FrameRan.calm' h (.inl hblocks) hcalm a m) (List.filterMap_eq_nil_iff.1 hnone a m)

/-! ### Off a block end -/

section
variable (hblocks : blocks = [])
include hblocks

theorem FrameRan.timed : t.timed = u.timed := by
  rw [h.ended, runActs_timed ls u3 (FrameRan.quiet' h hcalm hblocks), Sent.timed h.sent, h.mixed,
    runActs_timed ls _ h.quiet]
  exact (Sent.timed h.before :)

/-- A gateway of no line stays. -/
theorem FrameRan.gateway {g : Fin 8} (hg : 4 ≤ g.val) : t.gateway g = u.gateway g := by
  have hnone (l : LineId) (n : Nat) (e : g = lineGateway l) (bs : List Task) : Task.pedal l n ∉ bs := by
    have hlt : g.val < 4 := by rw [e]; exact l.isLt
    omega
  rw [h.ended, runActs_gateway ls u3 (FrameRan.quiet' h hcalm hblocks) fun l n e => hnone l n e _,
    Sent.gateway h.sent, h.mixed, runActs_gateway ls _ h.quiet fun l n e => hnone l n e _]
  exact (Sent.gateway h.before g :)

/-- A line's gateway takes what its line's work gives it (R131, R135, R136). -/
theorem FrameRan.lineGateway (l : LineId) : t.gateway (lineGateway l) =
    gatewayAfter limit u.pedalPins[l] (u.pedal l) (u.gateway (lineGateway l)) := by
  have hpins : (appendSamples xs.1 xs.2 u0).pedalPins = u.pedalPins := (Sent.pins h.before :)
  have hpedal : (appendSamples xs.1 xs.2 u0).pedal l = u.pedal l := (Sent.pedal h.before l :)
  have hgateway : (appendSamples xs.1 xs.2 u0).gateway (Machine.lineGateway l) = u.gateway (Machine.lineGateway l) :=
    Sent.gateway h.before _
  have hquiet' := FrameRan.quiet' h hcalm hblocks
  rcases FrameRan.line_once h (.inl hblocks) l with ⟨h1, h2⟩ | ⟨h1, h2⟩
  · rw [h.ended, runActs_lineGateway_kept ls u3 hquiet' h2, Sent.gateway h.sent, h.mixed,
      runActs_lineGateway_done ls _ h.quiet h1, hpins, hpedal, hgateway]
  · rw [h.ended, runActs_lineGateway_done ls u3 hquiet' h2, Sent.gateway h.sent, Sent.pedal h.sent, Sent.pins h.sent,
      h.mixed, runActs_pins ls _ (FrameRan.calm h), runActs_line_kept ls _ (FrameRan.calm h) h1,
      runActs_lineGateway_kept ls _ h.quiet h1, hpins, hpedal, hgateway]

theorem FrameRan.leads_kept (L : Lead) :
    t.lead L = { u.lead L with history := withSample xs u L, frozen := (t.lead L).frozen } := by
  have hend := runActs_lead ls u3 (FrameRan.quiet' h hcalm hblocks) L
  have hmid := runActs_lead ls (appendSamples xs.1 xs.2 u0) h.quiet L
  rw [← h.ended, Sent.lead h.sent] at hend
  rw [← h.mixed, appendSamples_lead, withSample_congr xs (Sent.lead h.before L), Sent.lead h.before] at hmid
  rw [hmid] at hend
  exact hend

theorem FrameRan.codeKept {code : Nat} (hact : ¬ActCodes code) (h10 : code ≠ 10) : CodeKept code u t := by
  have h11 : code ≠ 11 := fun e => hact (.inr (.inr (.inl e)))
  have hbefore : CodeKept code u (appendSamples xs.1 xs.2 u0) := h.before.codes code h10 h11
  have hacts : CodeKept code (appendSamples xs.1 xs.2 u0) u2 := h.mixed ▸ runActs_codeKept ls _ hact h.quiet
  have hsent : CodeKept code u2 u3 := h.sent.codes code h10 h11
  have hend : CodeKept code u3 t := h.ended ▸ runActs_codeKept ls u3 hact (FrameRan.quiet' h hcalm hblocks)
  exact ((hbefore.trans hacts).trans hsent).trans hend

/-- Where no mute is due each voice does its work of the frame (R101 to R107). -/
theorem FrameRan.voice (hmute : NoMuteDue u)
    (hclip : (∀ sc, Task.occurrence .outputClip sc ∉ others) ∨ ¬Mutes .outputClip u) (v : VoiceId) :
    t.voice v = (voiceWork v (appendSamples xs.1 xs.2 u0)).state.voice v := by
  have hnone {sc : Scope} {bs : List Act} (m : Task.occurrence .outputClip sc ∈ tasksOf bs)
      (hbs : Task.occurrence .outputClip sc ∈ tasksOf acts ∨ Task.occurrence .outputClip sc ∈ tasksOf acts') :
      Task.occurrence .outputClip sc ∈ others := by
    rcases FrameRan.task_mem h (.inl hblocks) hbs with hx | hx | hx | ⟨l, hx⟩
    · exact hx
    all_goals cases hx
  have hbefore : StatusGrows u (appendSamples xs.1 xs.2 u0) := .of_faults (Sent.faults h.before :)
  have hgrows : StatusGrows (appendSamples xs.1 xs.2 u0) u3 := by
    have hmid := runActs_statusGrows ls (appendSamples xs.1 xs.2 u0) (FrameRan.calm h)
    rw [← h.mixed] at hmid
    exact StatusGrows.trans hmid (Sent.statusGrows h.sent)
  have hclip1 : NoClipMute acts (appendSamples xs.1 xs.2 u0) := hclip.imp
    (fun k sc m => k sc (hnone m (.inl m))) (FaultSide.not_mutes_of_grows hbefore)
  have hclip2 : NoClipMute acts' u3 := hclip.imp (fun k sc m => k sc (hnone m (.inr m)))
    (FaultSide.not_mutes_of_grows (StatusGrows.trans hbefore hgrows))
  have hidle : v ∉ voicesOf acts' := by rw [h.idle]; exact List.not_mem_nil
  rw [h.ended, runActs_voice_unmuted ls u3 (FrameRan.quiet' h hcalm hblocks) hidle
    (noMuteDue_grows hmute (StatusGrows.trans hbefore hgrows)) hclip2, Sent.voice h.sent, h.mixed]
  exact runActs_voice_works ls _ h.quiet h.worked (noMuteDue_grows hmute hbefore) hclip1 v

end

/-! ### At any count -/

section
variable (hblocks : blocks = [] ∨ blocks = [.block .a, .block .b])
include hblocks

/-- Each line takes its sample of the frame (R130, R131). -/
theorem FrameRan.pedal (l : LineId) : t.pedal l = pedalAfter limit u.pedalPins[l] (u.pedal l) := by
  have hpins : (appendSamples xs.1 xs.2 u0).pedalPins = u.pedalPins := (Sent.pins h.before :)
  have hpedal : (appendSamples xs.1 xs.2 u0).pedal l = u.pedal l := (Sent.pedal h.before l :)
  have hcalm' := FrameRan.calm' h hblocks hcalm
  rcases FrameRan.line_once h hblocks l with ⟨h1, h2⟩ | ⟨h1, h2⟩
  · rw [h.ended, runActs_line_kept ls u3 hcalm' h2, Sent.pedal h.sent, h.mixed,
      runActs_line_done ls _ (FrameRan.calm h) h1, hpins, hpedal]
  · rw [h.ended, runActs_line_done ls u3 hcalm' h2, Sent.pedal h.sent, Sent.pins h.sent, h.mixed,
      runActs_pins ls _ (FrameRan.calm h), runActs_line_kept ls _ (FrameRan.calm h) h1, hpins, hpedal]

theorem FrameRan.statusGrows : StatusGrows u t := by
  have hbefore : StatusGrows u (appendSamples xs.1 xs.2 u0) := .of_faults (Sent.faults h.before :)
  have hmid := runActs_statusGrows ls (appendSamples xs.1 xs.2 u0) (FrameRan.calm h)
  have hend := runActs_statusGrows ls u3 (FrameRan.calm' h hblocks hcalm)
  rw [← h.mixed] at hmid
  rw [← h.ended] at hend
  exact StatusGrows.trans (StatusGrows.trans hbefore hmid) (StatusGrows.trans (Sent.statusGrows h.sent) hend)

/-- A record whose kind does not occur in the frame stays. -/
theorem FrameRan.faultKept {k : FaultKind} (hk : Declared k) (hnone : ∀ sc, Task.occurrence k sc ∉ others) :
    t.fault k = u.fault k := by
  have habsent (bs : List Act) (hbs : ∀ x ∈ tasksOf bs, x ∈ tasksOf acts ∨ x ∈ tasksOf acts') (sc : Scope) :
      Task.occurrence k sc ∉ tasksOf bs := by
    intro m
    rcases FrameRan.task_mem h hblocks (hbs _ m) with hx | hx | hx | ⟨l, hx⟩
    · exact hnone sc hx
    all_goals cases hx
  have hbefore : FaultKept k u (appendSamples xs.1 xs.2 u0) := .of_faults (Sent.faults h.before :)
  have hmid := runActs_faultKept ls (appendSamples xs.1 xs.2 u0) hk (FrameRan.calm h)
    (habsent acts fun x m => .inl m)
  have hend := runActs_faultKept ls u3 hk (FrameRan.calm' h hblocks hcalm) (habsent acts' fun x m => .inr m)
  rw [← h.mixed] at hmid
  rw [← h.ended] at hend
  exact (hbefore.trans hmid).trans ((Sent.faultKept h.sent k).trans hend)

end

end

end

end Sys2Proof.Proofs.FrameEnds
end

