-- ==== Sys2Proof/Proofs/FrameStarts.lean ====
section
/-! PROOF. How a processed frame begins: the count adopted and the timed cues moved, whatever else the device holds
(R18, R139 to R141); and what a frame's end tells of its beginning: cues, leads and their judgement (O8 to O12). -/

namespace Sys2Proof.Proofs.FrameStarts

open Sys2Proof Sys2Proof.Machine Sys2Proof.Safety Sys2Proof.Proofs.Queues Sys2Proof.Proofs.Traces
  Sys2Proof.Proofs.ActEffects Sys2Proof.Proofs.Occurrences Sys2Proof.Proofs.FrameRuns Sys2Proof.Proofs.LineWork
  Sys2Proof.Proofs.BlockTraces Sys2Proof.Proofs.BlockEnds Sys2Proof.Proofs.Counting Sys2Proof.Proofs.FrameEnds
  Sys2Proof.Proofs.Ports Sys2Proof.Proofs.CueRequests

/-! ### The count adopted -/

theorem handOffBoth_eq (s : State) : handOffBoth s =
    { s with timed := (handOffBoth s).timed, gateways := (handOffBoth s).gateways } := by
  unfold handOffBoth
  have ha := handOff_eq .a s
  have hb := handOff_eq .b (handOff .a s)
  generalize handOff .b (handOff .a s) = t at hb
  rw [hb, ha]

/-- The count adopted touches count, timed cues and gateways alone. -/
theorem adoptCount_eq (c : Word32) (s : State) : adoptCount c s =
    { s with ltu := { s.ltu with count := c }, timed := (adoptCount c s).timed
             gateways := (adoptCount c s).gateways } := by
  unfold adoptCount
  simp only
  split
  · exact handOffBoth_eq _
  · exact handOffBoth_eq _

theorem handOffBoth_same {s t : State} (h : CueUnitKept s t) : CueUnitKept (handOffBoth s) (handOffBoth t) :=
  handOff_same (handOff_same h)

/-- What the count's change does to the Cue Unit is told by the Cue Unit and the count it held. -/
theorem adoptCount_same {c : Word32} {s t : State} (h : CueUnitKept s t) (hc : t.ltu.count = s.ltu.count) :
    CueUnitKept (adoptCount c s) (adoptCount c t) := by
  obtain ⟨hg, ht⟩ := h
  unfold adoptCount
  rw [hc, ht]
  simp only
  split
  · exact handOffBoth_same ⟨hg, rfl⟩
  · exact handOffBoth_same ⟨hg, rfl⟩

theorem handOff_gateway_ne {L : Lead} {g : Fin 8} (h : timedGateway L ≠ g) (s : State) :
    (handOff L s).gateway g = s.gateway g := by
  obtain k | ⟨e, _, _, _, _, k⟩ := handOff_cases L s
  · rw [k]
  · rw [k, State.gateway_setGateway_ne _ _ _ _ h]
    rfl

/-- The gateways of lines and requests keep what they hold at a count's change. -/
theorem adoptCount_gateway (c : Word32) {s : State} {g : Fin 8} (h : g.val < 6) :
    (adoptCount c s).gateway g = s.gateway g := by
  have ha : timedGateway .a ≠ g := fun e => absurd (show (6 : Nat) = g.val from congrArg Fin.val e) (by omega)
  have hb : timedGateway .b ≠ g := fun e => absurd (show (7 : Nat) = g.val from congrArg Fin.val e) (by omega)
  unfold adoptCount handOffBoth
  simp only
  split
  · rw [handOff_gateway_ne hb, handOff_gateway_ne ha]
    rfl
  · rw [handOff_gateway_ne hb, handOff_gateway_ne ha]
    rfl

/-! ### The beginning of a frame -/

/-- `u` is `s` as a processed frame finds it for its audio, whatever occurrences came first: link, pins and receiver,
the timed cues moved by the count's change, the lane's records, and a phantom frame's event. -/
structure Entered (pins : PedalPins) (s u : State) : Prop where
  frame : u = { s with ltu := u.ltu, pedalPins := pins, receiver := u.receiver, timed := u.timed
                       gateways := u.gateways, assembly := u.assembly, sender := u.sender, fifo := u.fifo
                       counters := u.counters, voices := u.voices, faults := u.faults, pointer := u.pointer
                       outq := u.outq, draws := u.draws }
  cues : CueUnitKept (adoptCount u.ltu.count s) u
  codes : ∀ code, code ≤ 5 → CodeKept code s u

/-- So it is, with no occurrence before its audio. -/
structure EnteredCalm (pins : PedalPins) (s u : State) : Prop extends Entered pins s u where
  voices : u.voices = s.voices
  faults : u.faults = s.faults

section
variable {pins : PedalPins} {s u : State} (h : Entered pins s u)
include h

theorem Entered.lead (L : Lead) : u.lead L = s.lead L := by rw [h.frame]; cases L <;> rfl
theorem Entered.scenes : u.scenes = s.scenes := by rw [h.frame]
theorem Entered.tuning : u.tuning = s.tuning := by rw [h.frame]
theorem Entered.config : u.config = s.config := by rw [h.frame]
theorem Entered.pedalPins : u.pedalPins = pins := by rw [h.frame]
theorem Entered.pedal (l : LineId) : u.pedal l = s.pedal l := by rw [h.frame]; rfl
theorem Entered.params (L : Lead) : u.params L = s.params L := by
  unfold State.params
  rw [Entered.lead h, Entered.scenes h]
theorem Entered.timed : u.timed = (adoptCount u.ltu.count s).timed := h.cues.2
theorem Entered.gateway (g : Fin 8) : u.gateway g = (adoptCount u.ltu.count s).gateway g :=
  congrArg (fun x : Vector Gateway 8 => x[g]) h.cues.1
theorem Entered.withSample (xs : Int × Int) (L : Lead) : withSample xs u L = withSample xs s L :=
  withSample_congr xs (Entered.lead h L)

end

section
variable {pins : PedalPins} {s u : State} (h : EnteredCalm pins s u)
include h

theorem EnteredCalm.voice (v : VoiceId) : u.voice v = s.voice v := congrArg (fun x : Vector Voice 8 => x[v]) h.voices
theorem EnteredCalm.fault (k : FaultKind) : u.fault k = s.fault k :=
  congrArg (fun x : Vector FaultRecord 13 => x[(faultCode k).val]) h.faults
theorem EnteredCalm.noMuteDue (k : NoMuteDue s) : NoMuteDue u :=
  VoicesInFrames.noMuteDue_grows k (.of_faults h.faults)

end

/-- A frame that adopts a count behind pins, receiver and link alone. -/
theorem enteredCalm_adopted {pins : PedalPins} {s v : State}
    (hv : v = { s with ltu := v.ltu, pedalPins := pins, receiver := v.receiver }) (hcount : v.ltu.count = s.ltu.count)
    (c : Word32) : EnteredCalm pins s (adoptCount c v) := by
  have hadopted := adoptCount_eq c v
  have hcues : CueUnitKept s v := ⟨by rw [hv], by rw [hv]⟩
  have hcue := adoptCount_same (c := c) hcues hcount
  generalize adoptCount c v = u at hadopted hcue
  have hltu : u.ltu.count = c := by rw [hadopted]
  refine ⟨⟨?_, ?_, fun code _ => .of_counters ?_⟩, ?_, ?_⟩
  · rw [hadopted, hv]
  · rw [hltu]
    exact hcue
  all_goals rw [hadopted, hv]

/-! ### Judged records from another base -/

/-- Two states whose leads are judged alike on any history: the same scenes, and records that agree but for
history and frozen notes. -/
structure JudgedAs (s u : State) : Prop where
  leads : ∀ L, u.lead L = { s.lead L with history := (u.lead L).history, frozen := (u.lead L).frozen }
  scenes : u.scenes = s.scenes
  tuning : u.tuning = s.tuning

section
variable {s u : State} (h : JudgedAs s u)
include h

theorem JudgedAs.params (L : Lead) : u.params L = s.params L := by
  unfold State.params
  rw [h.leads L, h.scenes]

theorem JudgedAs.evaluation (L : Lead) (hist : List Int) : evaluationOf u L hist = evaluationOf s L hist := by
  unfold evaluationOf
  rw [JudgedAs.params h]

theorem JudgedAs.estimate (L : Lead) (hist : List Int) : estimateOf u L hist = estimateOf s L hist := by
  unfold estimateOf
  rw [JudgedAs.evaluation h, h.leads L]

theorem JudgedAs.decision (L : Lead) (hist : List Int) : decisionOf u L hist = decisionOf s L hist := by
  have hrows : u.rows L = s.rows L := by simp only [State.rows, JudgedAs.params h, h.tuning]
  unfold decisionOf
  simp only
  rw [hrows, JudgedAs.params h, JudgedAs.evaluation h, JudgedAs.estimate h, h.leads L]

theorem JudgedAs.judged {L : Lead} {hist : List Int} {c : LeadChannel} (k : Judged u L hist c) : Judged s L hist c := by
  unfold Judged at *
  rw [JudgedAs.evaluation h, JudgedAs.decision h, JudgedAs.estimate h, h.leads L] at k
  exact k

theorem JudgedAs.counted {t : State} {hist : Lead → List Int} (hcodes : ∀ code, 1 ≤ code → code ≤ 5 → CodeKept code s u)
    (k : JudgementsCounted hist u t) : JudgementsCounted hist s t := by
  obtain ⟨h1, h2, h3, h4, h5⟩ := k
  simp only [JudgedAs.evaluation h] at h1 h2
  simp only [JudgedAs.decision h] at h3 h4 h5
  have before (code n : Nat) (hlow : 1 ≤ code) (hhigh : code ≤ 5) (k : CountsTimes code n u t) : CountsTimes code n s t :=
    countsTimes_before (hcodes code hlow hhigh) k
  exact ⟨before 1 _ (by decide) (by decide) h1, before 2 _ (by decide) (by decide) h2,
    before 3 _ (by decide) (by decide) h3, before 4 _ (by decide) (by decide) h4,
    before 5 _ (by decide) (by decide) h5⟩

end

/-! ### What a frame's end tells of its beginning -/

section
variable {ls : LinkState} {xs : Int × Int} {limit : Nat} {ys : List Int} {others blocks : List Task}
  {u u0 u2 u3 t : State} {acts acts' : List Act} {pins : PedalPins} {s : State}
  (h : FrameRan ls xs limit ys others blocks u u0 u2 u3 t acts acts') (hs : Entered pins s u)
include h

/-- The leads behind the voices' work: the sample taken, frozen notes perhaps cleared. -/
theorem FrameRan.mid_lead (L : Lead) :
    u3.lead L = { u.lead L with history := withSample xs u L, frozen := (u3.lead L).frozen } := by
  have hmid := runActs_lead ls (appendSamples xs.1 xs.2 u0) h.quiet L
  rw [← h.mixed, appendSamples_lead, withSample_congr xs (Sent.lead h.before L), Sent.lead h.before] at hmid
  have hsent := Sent.lead h.sent L
  rw [hmid] at hsent
  rw [hsent]

theorem FrameRan.mid_codes {code : Nat} (hact : ¬ActCodes code) (h10 : code ≠ 10) : CodeKept code u u3 := by
  have h11 : code ≠ 11 := fun e => hact (.inr (.inr (.inl e)))
  have hbefore : CodeKept code u (appendSamples xs.1 xs.2 u0) := h.before.codes code h10 h11
  have hacts : CodeKept code (appendSamples xs.1 xs.2 u0) u2 := h.mixed ▸ runActs_codeKept ls _ hact h.quiet
  exact (hbefore.trans hacts).trans (h.sent.codes code h10 h11)

include hs

theorem FrameRan.mid_judgedAs : JudgedAs s u3 where
  leads L := by
    have hlead := FrameRan.mid_lead h L
    rw [Entered.lead hs, Entered.withSample hs] at hlead
    rw [hlead]
  scenes := by
    have hmid := (runActs_onlyEngine ls (appendSamples xs.1 xs.2 u0) (FrameRan.calm h)).scenes
    rw [← h.mixed] at hmid
    exact (Sent.scenes h.sent).trans (hmid.trans (Eq.trans (Sent.scenes h.before :) (Entered.scenes hs)))
  tuning := by
    have hmid := (runActs_onlyEngine ls (appendSamples xs.1 xs.2 u0) (FrameRan.calm h)).tuning
    rw [← h.mixed] at hmid
    exact (Sent.tuning h.sent).trans (hmid.trans (Eq.trans (Sent.tuning h.before :) (Entered.tuning hs)))

variable (hcalm : ∀ kind r, Task.request kind r ∉ others)
include hcalm

/-- At a block end both leads are judged on the histories with their new samples (R18, R37). -/
theorem FrameRan.judged (hblocks : blocks = [.block .a, .block .b]) :
    (∀ L, Judged s L (withSample xs s L) (t.lead L)) ∧ JudgementsCounted (withSample xs s) s t := by
  have hperm : (blocksOf acts').Perm [.a, .b] := by
    have hperm := FrameRan.blocks' h
    rw [hblocks] at hperm
    exact hperm
  obtain ⟨hjudged, hcounted⟩ := runActs_judged ls u3 (FrameRan.calm' h (.inr hblocks) hcalm) hperm
  have hhist (L : Lead) : (u3.lead L).history = withSample xs s L := by
    rw [FrameRan.mid_lead h L]
    exact Entered.withSample hs xs L
  have has := FrameRan.mid_judgedAs h hs
  rw [← h.ended] at hcounted
  simp only [hhist] at hjudged hcounted
  refine ⟨fun L => ?_, JudgedAs.counted has (fun code hlow hhigh => ?_) hcounted⟩
  · have hL := JudgedAs.judged has (hjudged L)
    rwa [← h.ended] at hL
  · exact (hs.codes code hhigh).trans (FrameRan.mid_codes h (by unfold ActCodes; omega) (by omega))

/-- The leads behind a processed frame (R18, R35, R37). -/
theorem FrameRan.leadsJudged (hend : t.ltu.count.toNat % 64 = 63 → blocks = [.block .a, .block .b])
    (hoff : t.ltu.count.toNat % 64 ≠ 63 → blocks = []) : LeadsJudged xs s t := by
  refine ⟨fun h63 => FrameRan.judged h hs hcalm (hend h63), fun h63 => ⟨fun L => ?_, fun code hlow hhigh => ?_⟩⟩
  · have hlead := FrameRan.leads_kept h hcalm (hoff h63) L
    rw [Entered.lead hs, Entered.withSample hs] at hlead
    exact hlead
  · exact CodeKept.times ((hs.codes code hhigh).trans
      (FrameRan.codeKept h hcalm (hoff h63) (by unfold ActCodes; omega) (by omega)))

/-- Timed cues and gateways behind a processed frame (R131, R135 to R141). -/
theorem FrameRan.cuesMoved (hlimit : limit = s.config.stuckLimit) (hltu : t.ltu.count = u.ltu.count)
    (hoff : t.ltu.count.toNat % 64 ≠ 63 → blocks = []) : CuesMoved pins s t := by
  intro h63
  have hblocks := hoff h63
  have hbase (g : Fin 8) (hg : g.val < 6) : u.gateway g = s.gateway g :=
    (Entered.gateway hs g).trans (adoptCount_gateway _ hg)
  rw [hltu]
  refine ⟨(FrameRan.timed h hcalm hblocks).trans (Entered.timed hs),
    (FrameRan.gateway h hcalm hblocks (g := 6) (by decide)).trans (Entered.gateway hs 6),
    (FrameRan.gateway h hcalm hblocks (g := 7) (by decide)).trans (Entered.gateway hs 7),
    (FrameRan.gateway h hcalm hblocks (g := 4) (by decide)).trans (hbase 4 (by decide)),
    (FrameRan.gateway h hcalm hblocks (g := 5) (by decide)).trans (hbase 5 (by decide)), fun l => ?_⟩
  have hline : (lineGateway l).val < 6 := Nat.lt_of_lt_of_le l.isLt (by decide)
  rw [FrameRan.lineGateway h hcalm hblocks, pedalWork_gateway, Entered.pedalPins hs, Entered.pedal hs, hbase _ hline, hlimit]
  rfl

end

end Sys2Proof.Proofs.FrameStarts
end

