-- ==== Sys2Proof/Proofs/Unread.lean ====
section
/-! PROOF. Block work reads neither receiver nor pedal lines, nor the frame that left or the orders drawn (R37): it
does over others of these what it does over its own. -/

namespace Sys2Proof.Proofs.Unread

open Sys2Proof Sys2Proof.Machine Sys2Proof.Safety Sys2Proof.Proofs.Underlay Sys2Proof.Proofs.Counting
  Sys2Proof.Proofs.VoiceRequests Sys2Proof.Proofs.VoiceFrame Sys2Proof.Proofs.Harmony
  Sys2Proof.Proofs.CueRequests Sys2Proof.Proofs.Ports

/-- What block work does not read. -/
structure Rest where
  receiver : Receiver
  linkOut : Option (List Byte)
  pedals : Vector PedalLine 4
  draws : Nat

/-- The state over another such rest. -/
def onRest (r : Rest) (s : State) : State :=
  { s with receiver := r.receiver, linkOut := r.linkOut, pedals := r.pedals, draws := r.draws }

/-- A change of the state that does over any rest what it does over its own. -/
def Deaf (f : State → State) : Prop := ∀ (r : Rest) (s : State), f (onRest r s) = onRest r (f s)

theorem Deaf.comp {f g : State → State} (hg : Deaf g) (hf : Deaf f) : Deaf fun s => g (f s) := fun r s => by
  show g (f (onRest r s)) = onRest r (g (f s))
  rw [hf r s, hg r (f s)]

theorem deaf_countEvent (e : Event) : Deaf (countEvent e) := fun _ _ => rfl

theorem onRest_setLead (r : Rest) (s : State) (L : Lead) (c : LeadChannel) :
    (onRest r s).setLead L c = onRest r (s.setLead L c) := by cases L <;> rfl

theorem onRest_lead (r : Rest) (s : State) (L : Lead) : (onRest r s).lead L = s.lead L := by cases L <;> rfl

theorem onRest_params (r : Rest) (s : State) (L : Lead) : (onRest r s).params L = s.params L := by
  unfold State.params
  rw [onRest_lead]
  rfl

theorem onRest_rows (r : Rest) (s : State) (L : Lead) : (onRest r s).rows L = s.rows L := by
  unfold State.rows
  simp only [onRest_params]
  rfl

theorem deaf_raise (k : FaultKind) (sc : Scope) : Deaf (raise k sc) := fun r s => by
  have hreads : SameReads s (onRest r s) := ⟨rfl, rfl, fun L => onRest_params r s L⟩
  calc raise k sc (onRest r s) = raise k sc (onto s (onRest r s)) := rfl
    _ = onto (raise k sc s) (onRest r s) := raise_onto hreads k sc
    _ = onRest r (onto (raise k sc s) s) := rfl
    _ = onRest r (raise k sc s) := by rw [onto_of_onlyFaults (raise_onlyFaults k sc s)]

theorem deaf_offerNotice (m : Message) : Deaf (offerNotice m) := fun r s => by
  have hreads : SameReads s (onRest r s) := ⟨rfl, rfl, fun L => onRest_params r s L⟩
  calc offerNotice m (onRest r s) = offerNotice m (onto s (onRest r s)) := rfl
    _ = onto (offerNotice m s) (onRest r s) := offerNotice_overAnyRest m hreads
    _ = onRest r (onto (offerNotice m s) s) := rfl
    _ = onRest r (offerNotice m s) := by rw [onto_of_onlyFaults (offerNotice_onlyFaults m s)]

/-! ### Tracker and note decision -/

theorem deaf_trackLead (L : Lead) : Deaf (trackLead L) := fun r s => by
  have heval : evaluationOf (onRest r s) L ((onRest r s).lead L).history = evaluationOf s L (s.lead L).history := by
    unfold evaluationOf
    rw [onRest_params, onRest_lead]
  rw [trackLead_eq, trackLead_eq, heval, onRest_lead]
  simp only [onRest_setLead]
  split <;> rfl

theorem deaf_decideLead (L : Lead) : Deaf (decideLead L) := fun r s => by
  have hshape (u : State) :
      let d := decideNote (u.rows L) (u.params L).hysteresis (u.params L).hold (u.lead L).note
        (u.lead L).unvoicedCount (u.lead L).voiced (u.lead L).estimate
      decideLead L u = if d.unmatched = true then
          countEvent .unmatched (if d.changed = true then
            countEvent (.noteChange L) (u.setLead L { u.lead L with note := d.note, unvoicedCount := d.count })
            else u.setLead L { u.lead L with note := d.note, unvoicedCount := d.count })
        else if d.changed = true then
            countEvent (.noteChange L) (u.setLead L { u.lead L with note := d.note, unvoicedCount := d.count })
          else u.setLead L { u.lead L with note := d.note, unvoicedCount := d.count } := rfl
  rw [hshape, hshape]
  simp only [onRest_rows, onRest_params, onRest_lead, onRest_setLead]
  split
  · split <;> rfl
  · split <;> rfl

/-! ### Scenes -/

theorem onRest_placed (r : Rest) (clears : Bool) (v : VoiceId) (y : Voice) (s : State) :
    placed clears v y (onRest r s) = onRest r (placed clears v y s) := by cases clears <;> rfl

theorem onRest_rampIncrement (r : Rest) (s : State) (o : Option Lead) :
    rampIncrement (onRest r s) o = rampIncrement s o := by
  cases o with
  | none => rfl
  | some L =>
    show Config.fullEnvelope / ((onRest r s).params L).fade = Config.fullEnvelope / (s.params L).fade
    rw [onRest_params]

theorem deaf_releaseVoice (v : VoiceId) : Deaf (releaseVoice v) := fun r s => by
  rw [releaseVoice_eq, releaseVoice_eq, onRest_rampIncrement]
  exact onRest_placed r _ v _ s

theorem deaf_raiseSkipped (o : Option Lead) : Deaf (raiseSkipped o) := by
  cases o with
  | none => exact fun _ _ => rfl
  | some L => exact deaf_raise _ _

theorem deaf_reassignVoice (v : VoiceId) (p : Assignment) : Deaf (reassignVoice v p) := fun r s => by
  rw [reassignVoice_eq, reassignVoice_eq, onRest_rampIncrement, ← deaf_raiseSkipped]
  exact congrArg _ (onRest_placed r _ v _ s)

theorem deaf_assignVoice (v : VoiceId) (L : Lead) (p : Assignment) : Deaf (assignVoice v L p) := fun r s => by
  unfold assignVoice
  rw [show (onRest r s).voice v = s.voice v from rfl]
  simp only
  split <;> rfl

/-- The state of a count over another rest. -/
def onRestCount (r : Rest) (acc : State × Nat) : State × Nat := (onRest r acc.1, acc.2)

theorem overCount_foldl {α : Type} {f : State × Nat → α → State × Nat} (r : Rest)
    (hf : ∀ acc a, f (onRestCount r acc) a = onRestCount r (f acc a)) : ∀ (xs : List α) (acc : State × Nat),
      xs.foldl f (onRestCount r acc) = onRestCount r (xs.foldl f acc)
  | [], _ => rfl
  | x :: xs, acc => by rw [List.foldl_cons, hf, overCount_foldl r hf xs, List.foldl_cons]

theorem overCount_reachOwned (r : Rest) (c : Scene) (acc : State × Nat) (v : VoiceId) :
    reachOwned c (onRestCount r acc) v = onRestCount r (reachOwned c acc v) := by
  unfold reachOwned
  split
  · exact Prod.ext (deaf_releaseVoice v r acc.1) rfl
  next e _ => exact Prod.ext (deaf_reassignVoice v e.part r acc.1) rfl

theorem overCount_takeEntry (r : Rest) (L : Lead) (owned : List VoiceId) (acc : State × Nat) (e : SceneEntry) :
    takeEntry L owned (onRestCount r acc) e = onRestCount r (takeEntry L owned acc e) := by
  unfold takeEntry
  split
  · rfl
  · rw [show (onRestCount r acc).1.voice e.voice = acc.1.voice e.voice from rfl,
      show (onRestCount r acc).1.isLeadSlot e.part.slot = acc.1.isLeadSlot e.part.slot from rfl]
    split
    · exact Prod.ext (deaf_assignVoice e.voice L e.part r acc.1) rfl
    · rfl

theorem deaf_applySteps (L : Lead) (n : Fin 32) : Deaf (applySteps L n) := fun r s => by
  have howned : ownedVoices (onRest r s) L = ownedVoices s L := rfl
  have hscene : (onRest r s).scenes[n] = s.scenes[n] := rfl
  unfold applySteps
  simp only [howned, hscene, onRest_lead, onRest_setLead]
  have hfold := overCount_foldl r (overCount_reachOwned r s.scenes[n]) (ownedVoices s L)
    (s.setLead L ((s.lead L).withScene n s.scenes[n]), 0)
  unfold onRestCount at hfold
  rw [hfold]
  have hfold' := overCount_foldl r (overCount_takeEntry r L (ownedVoices s L)) s.scenes[n].entries
    ((ownedVoices s L).foldl (reachOwned s.scenes[n]) (s.setLead L ((s.lead L).withScene n s.scenes[n]), 0))
  unfold onRestCount at hfold'
  rw [hfold']
  split
  · rfl
  · exact deaf_raise _ _ r _

theorem deaf_startTransition (L : Lead) (level : Nat) (k : TransitionKind) : Deaf (startTransition L level k) := by
  intro r s
  unfold startTransition
  rw [onRest_lead, onRest_setLead]

theorem deaf_raiseLevel (L : Lead) (prio : Nat) : Deaf (raiseLevel L prio) := fun r s => by
  unfold raiseLevel
  rw [onRest_lead]
  split
  · exact onRest_setLead ..
  · rfl

theorem deaf_applyScene (L : Lead) (n : Fin 32) (prio : Nat) : Deaf (applyScene L n prio) :=
  Deaf.comp (g := startTransition L prio (.scene n)) (deaf_startTransition L prio (.scene n)) (deaf_applySteps L n)

/-! ### Cues -/

theorem deaf_applyStep (L : Lead) (prio : Nat) : Deaf (applyStep L prio) := fun r s => by
  have hignored : raiseLevel L prio (countEvent .stepNoNext (onRest r s))
      = onRest r (raiseLevel L prio (countEvent .stepNoNext s)) :=
    Deaf.comp (deaf_raiseLevel L prio) (deaf_countEvent .stepNoNext) r s
  unfold applyStep
  rw [onRest_lead]
  cases hscene : (s.lead L).scene with
  | none => exact hignored
  | some c =>
    simp only
    rw [show (onRest r s).scenes[c] = s.scenes[c] from rfl]
    cases hnext : s.scenes[c].next with
    | none => exact hignored
    | some n => exact deaf_applyScene L n prio r s

theorem deaf_fallToIdle (v : VoiceId) : Deaf (fallToIdle v) := fun r s => by
  by_cases h : (s.voice v).state = .rising ∨ (s.voice v).state = .sounding
  · rw [fallToIdle_falls h, fallToIdle_falls (s := onRest r s) h]
    have hfallen : fallenToIdle (onRest r s) ((onRest r s).voice v) = fallenToIdle s (s.voice v) := by
      unfold fallenToIdle
      rw [onRest_rampIncrement]
      rfl
    rw [hfallen]
    rfl
  · unfold fallToIdle
    rw [show (onRest r s).voice v = s.voice v from rfl]
    split
    · exact absurd (.inl ‹_›) h
    · exact absurd (.inr ‹_›) h
    all_goals rfl

theorem deaf_foldl {α : Type} {f : State → α → State} (hf : ∀ a, Deaf fun s => f s a) : ∀ xs : List α,
    Deaf fun s => xs.foldl f s
  | [], _, _ => rfl
  | x :: xs, r, s => by
    have hx : f (onRest r s) x = onRest r (f s x) := hf x r s
    show (x :: xs).foldl f (onRest r s) = onRest r ((x :: xs).foldl f s)
    rw [List.foldl_cons, hx]
    exact deaf_foldl hf xs r (f s x)

theorem deaf_silenceLead (L : Lead) : Deaf (silenceLead L) := fun r s => by
  unfold silenceLead
  rw [show ownedVoices (onRest r s) L = ownedVoices s L from rfl, onRest_lead, onRest_setLead]
  exact deaf_foldl (fun v => deaf_fallToIdle v) (ownedVoices s L) r _

theorem onRest_interval (r : Rest) (s : State) (L : Lead) (v : VoiceId) : interval (onRest r s) L v = interval s L v := by
  unfold interval
  rw [onRest_lead]
  rfl

theorem deaf_holdLead (L : Lead) : Deaf (holdLead L) := fun r s => by
  have hfrozen (n : Nat) : frozenNotes (onRest r s) L n = frozenNotes s L n := by
    unfold frozenNotes frozenNote
    rfl
  unfold holdLead
  rw [onRest_lead]
  split
  · rfl
  · rw [hfrozen, onRest_setLead]

theorem deaf_releaseHold (L : Lead) : Deaf (releaseHold L) := fun r s => by
  unfold releaseHold
  rw [onRest_lead, onRest_setLead]
  split <;> rfl

theorem deaf_applyCue (L : Lead) (c : Cue) (prio : Nat) : Deaf (applyCue L c prio) := by
  cases c with
  | scene n => exact deaf_applyScene L n prio
  | step => exact deaf_applyStep L prio
  | chord key map =>
    refine Deaf.comp (g := raiseLevel L prio) (f := applyChord L key map) (deaf_raiseLevel L prio) fun r s => ?_
    unfold applyChord
    rw [onRest_lead, onRest_setLead]
  | hold => exact Deaf.comp (g := raiseLevel L prio) (deaf_raiseLevel L prio) (deaf_holdLead L)
  | release => exact Deaf.comp (g := raiseLevel L prio) (deaf_raiseLevel L prio) (deaf_releaseHold L)
  | silence =>
    exact Deaf.comp (g := startTransition L prio .silence) (deaf_startTransition L prio .silence) (deaf_silenceLead L)
  | resume =>
    refine Deaf.comp (g := startTransition L prio .resume) (f := resumeLead L)
      (deaf_startTransition L prio .resume) fun r s => ?_
    unfold resumeLead
    rw [onRest_lead, onRest_setLead]

theorem deaf_handOff (L : Lead) : Deaf (handOff L) := fun r s => by
  unfold handOff
  rw [show (onRest r s).timed = s.timed from rfl, show (onRest r s).gateway = s.gateway from rfl]
  split
  · rfl
  next e _ =>
    split
    next h =>
      rw [setPending_empty (timedGateway L) e.cue .queue { s with timed := s.timed.eraseP fun e => e.lead == L } h.2.1 h.2.2]
      exact setPending_empty (timedGateway L) e.cue .queue
        { onRest r s with timed := s.timed.eraseP fun e => e.lead == L } h.2.1 h.2.2
    · rfl

theorem onRest_portWinner (r : Rest) (s : State) (L : Lead) : portWinner L (onRest r s) = portWinner L s := by
  cases L <;> rfl

theorem deaf_portStep (L : Lead) : Deaf (portStep L) := fun r s => by
  cases hwin : portWinner L s with
  | none => rw [portStep_idle hwin, portStep_idle ((onRest_portWinner r s L).trans hwin)]
  | some g =>
    cases hpending : (s.gateway g).pending with
    | none =>
      unfold portStep
      rw [onRest_portWinner, hwin]
      simp only
      rw [show (onRest r s).gateway g = s.gateway g from rfl, hpending]
    | some c =>
      have hcue : applyCue L c.cue (s.gateway g).priority (clearPending g (onRest r s))
          = onRest r (applyCue L c.cue (s.gateway g).priority (clearPending g s)) :=
        deaf_applyCue L c.cue _ r (clearPending g s)
      have hover : ((onRest r s).gateway g).pending = some c := hpending
      rw [portStep_winner hwin hpending, portStep_winner ((onRest_portWinner r s L).trans hwin) hover,
        show (onRest r s).gateway g = s.gateway g from rfl, hcue, onRest_lead]
      split
      · rw [← deaf_handOff]
        split <;> rfl
      · split <;> rfl

theorem deaf_cueStep (ls : LinkState) (L : Lead) : Deaf (cueStep ls L) := fun r s => by
  unfold cueStep
  rw [onRest_lead, onRest_setLead, show (onRest r s).startScene L = s.startScene L by cases L <;> rfl]
  simp only
  repeat' split
  · exact deaf_applyScene _ _ _ r _
  · exact deaf_portStep L r _
  · exact deaf_portStep L r s

/-! ### Targets and completion -/

theorem onRest_noteCentre (r : Rest) (s : State) (L : Lead) : noteCentre L (onRest r s) = noteCentre L s := by
  unfold noteCentre
  rw [onRest_lead, onRest_rows]

theorem onRest_chainTarget (r : Rest) (s : State) (L : Lead) (x : Voice) (e : Int) :
    chainTarget (onRest r s) L x e = chainTarget s L x e := by
  unfold chainTarget
  rw [onRest_noteCentre, onRest_params, onRest_lead]

theorem deaf_riseVoice (v : VoiceId) : Deaf (riseVoice v) := fun r s => by
  unfold riseVoice
  simp only [onRest_rampIncrement, show (onRest r s).voice v = s.voice v from rfl]
  repeat' split
  all_goals rfl

theorem deaf_retargetVoice (L : Lead) (v : VoiceId) : Deaf (retargetVoice L v) := fun r s => by
  unfold retargetVoice
  simp only [onRest_interval, onRest_params, onRest_chainTarget, show (onRest r s).voice v = s.voice v from rfl]
  split
  next e _ _ =>
    split
    · exact deaf_riseVoice v r (s.setVoice v
        { s.voice v with
          targetStep := chainTarget s L (s.voice v) e, currentStep := chainTarget s L (s.voice v) e })
    · rfl
  · rfl
  · rfl
  next e _ _ =>
    exact deaf_riseVoice v r (s.setVoice v ((s.voice v).glided (chainTarget s L (s.voice v) e) (s.params L).glide))
  · exact deaf_fallToIdle v r s
  · exact deaf_fallToIdle v r s
  all_goals rfl

theorem deaf_retargetLead (L : Lead) : Deaf (retargetLead L) := by
  refine deaf_foldl (f := fun s v => if (s.voice v).owner = some L then retargetVoice L v s else s) (fun v r s => ?_)
    allVoices
  simp only [show (onRest r s).voice v = s.voice v from rfl, deaf_retargetVoice L v r s]
  split <;> rfl

theorem deaf_checkCompletion (L : Lead) : Deaf (checkCompletion L) := fun r s => by
  unfold checkCompletion
  rw [onRest_lead, onRest_setLead, show fadesDone L (onRest r s) = fadesDone L s from rfl]
  split
  · rfl
  next tr _ =>
    rw [show doneNotice L tr (onRest r s) = doneNotice L tr s from rfl]
    split
    · exact deaf_offerNotice _ r _
    · rfl

/-- A lead's block work does over any rest what it does over its own. -/
theorem deaf_blockWork (ls : LinkState) (L : Lead) : Deaf (blockWork ls L) :=
  fun r s => by
    unfold blockWork
    rw [deaf_trackLead, deaf_decideLead, deaf_cueStep, deaf_retargetLead, deaf_checkCompletion]

end Sys2Proof.Proofs.Unread
end

