-- ==== Sys2Proof/Proofs/SlotSums.lean ====
section
/-! PROOF. The sums of the claimed slots (R7, R108, R109): over the voices that claim a slot, whether it saturates, and
the samples of voices that no mute reaches. -/

namespace Sys2Proof.Proofs.SlotSums

open Sys2Proof Sys2Proof.Machine Sys2Proof.Safety Sys2Proof.Proofs.VoiceFrame Sys2Proof.Proofs.Outgoing
  Sys2Proof.Proofs.VoicesInFrames

/-- A list of eight samples by its voices. -/
theorem samples_by_voice {ys : List Int} (h : ys.length = 8) : ys = allVoices.map fun v => ys.getD v.val 0 := by
  refine List.ext_getElem (by rw [h]; rfl) fun i hi hi' => ?_
  have hv : allVoices[i]'(by rw [List.length_map] at hi'; exact hi') = (⟨i, by omega⟩ : Fin 8) := by
    have hlt : i < 8 := by omega
    interval_cases i <;> rfl
  rw [List.getElem_map, hv, List.getD_eq_getElem _ _ hi]

theorem sum_if {α : Type} (p : α → Bool) (f : α → Int) (xs : List α) :
    (xs.map fun x => if p x = true then f x else 0).sum = ((xs.filter p).map f).sum := by
  induction xs with
  | nil => rfl
  | cons x xs ih =>
    rw [List.map_cons, List.sum_cons, ih, List.filter_cons]
    split
    · rw [List.map_cons, List.sum_cons]
    · rw [Int.zero_add]

/-- The sum of a slot is that of the samples of the voices that claim it (R108). -/
theorem slotSum_claims (s : State) {ys : List Int} (h : ys.length = 8) (k : Fin 24) : slotSum (claims s) ys k =
    ((allVoices.filter fun v => (s.voice v).claims == some k).map fun v => ys.getD v.val 0).sum := by
  have hzip : (claims s).zip ys = allVoices.map fun v => ((s.voice v).claims, ys.getD v.val 0) := by
    conv_lhs => rw [samples_by_voice h]
    exact List.zip_map' ..
  rw [← sum_if]
  unfold slotSum
  rw [hzip, List.map_map]
  refine congrArg List.sum (List.map_congr_left fun v _ => ?_)
  simp only [Function.comp, beq_iff_eq]

theorem slotSum_of_standing (s : State) {ys : List Int} (h : ys.length = 8) {k : Fin 24}
    (hzero : ∀ v : VoiceId, (s.voice v).claims = some k → ys.getD v.val 0 = 0) : slotSum (claims s) ys k = 0 := by
  rw [slotSum_claims s h]
  refine List.sum_eq_zero fun x m => ?_
  obtain ⟨v, hv, rfl⟩ := List.mem_map.1 m
  exact hzero v (by simpa using (List.mem_filter.1 hv).2)

/-! ### The samples of a frame without mutes -/

/-- The sample of a voice's work, where the leads have their samples. -/
theorem voiceWork_sample (s : State) (xs : Int × Int) (v : VoiceId) :
    (voiceWork v (appendSamples xs.1 xs.2 s)).sample = voiceSample s xs v := by
  have hvoice : (appendSamples xs.1 xs.2 s).voice v = s.voice v := rfl
  unfold voiceSample
  cases hruns : (s.voice v).runs with
  | false =>
    rw [voiceWork_stands (by rw [hvoice]; exact hruns)]
  | true =>
    cases howner : (s.voice v).owner with
    | none => rw [voiceWork_unowned (by rw [hvoice]; exact howner)]
    | some L =>
      rw [voiceWork_runs (by rw [hvoice]; exact hruns) (by rw [hvoice]; exact howner)]
      cases L <;> rfl

/-- The record of a voice's work, where the leads have their samples. -/
theorem voiceWork_after (s : State) (xs : Int × Int) (v : VoiceId) :
    (voiceWork v (appendSamples xs.1 xs.2 s)).state.voice v = voiceAfter s xs v := rfl

theorem slotSum_total (s : State) (xs : Int × Int) {ys : List Int} (h : ys.length = 8)
    (hys : ∀ v : VoiceId, ys.getD v.val 0 = voiceSample s xs v) (k : Fin 24) :
    slotSum (claims s) ys k = slotTotal s xs k := by
  rw [slotSum_claims s h]
  unfold slotTotal
  simp only [hys]

/-! ### Saturation -/

theorem saturate_ne_iff (x : Int) : x ≠ saturate x ↔ x < -8388608 ∨ 8388607 < x := by
  unfold saturate clampInt
  omega

/-- The clipped slots are the claimed ones whose sum saturates. -/
theorem mem_clippedSlots {s : State} {xs : Int × Int} {ys : List Int} (hsum : ∀ k, slotSum (claims s) ys k = slotTotal s xs k)
    (k : Fin 24) : k ∈ clippedSlots (claims s) ys ↔ Clips s xs k := by
  unfold clippedSlots Clips
  rw [List.mem_filter, hsum, Bool.and_eq_true, bne_iff_ne, saturate_ne_iff]
  exact ⟨fun h => h.2, fun h => ⟨mem_allSlots k, h⟩⟩

/-- Where no voice runs no slot saturates. -/
theorem clippedSlots_of_standing (s : State) {ys : List Int} (h : ys.length = 8)
    (hzero : ∀ v : VoiceId, ys.getD v.val 0 = 0) : clippedSlots (claims s) ys = [] := by
  unfold clippedSlots
  refine List.filter_eq_nil_iff.2 fun k _ => ?_
  rw [slotSum_of_standing s h fun v _ => hzero v]
  simp [show saturate 0 = 0 from rfl]

end Sys2Proof.Proofs.SlotSums
end

