-- ==== Sys2Proof/Proofs/StandingFrames.lean ====
section
/-! PROOF. A frame with nothing to do but both leads' block work (R37): no voice runs, no line acts, every occurrence is
masked; so nothing but that work, the lines' timers and the orders drawn shows. -/

namespace Sys2Proof.Proofs.StandingFrames

open Sys2Proof Sys2Proof.Machine Sys2Proof.Safety Sys2Proof.Proofs.VoiceFrame Sys2Proof.Proofs.VoicesInFrames
  Sys2Proof.Proofs.Traces Sys2Proof.Proofs.ActEffects Sys2Proof.Proofs.FrameRuns Sys2Proof.Proofs.FrameFacts
  Sys2Proof.Proofs.BlockTraces Sys2Proof.Proofs.FrameEnds Sys2Proof.Proofs.PedalsAndTimed Sys2Proof.Proofs.Unread

/-! ### States that differ by lines and orders drawn -/

/-- `t` is `s` but for the pedal lines and the free orders drawn. -/
def Still (s t : State) : Prop := t = { s with pedals := t.pedals, draws := t.draws }

theorem Still.refl (s : State) : Still s s := rfl

theorem Still.trans {s t u : State} (h : Still s t) (k : Still t u) : Still s u := by
  unfold Still at *
  rw [h] at k
  exact k

section
variable {s t : State} (h : Still s t)
include h

theorem Still.voice (v : VoiceId) : t.voice v = s.voice v := by rw [h]; rfl
theorem Still.fault (k : FaultKind) : t.fault k = s.fault k := by rw [h]; rfl
theorem Still.pins : t.pedalPins = s.pedalPins := by rw [h]
theorem Still.outq : t.outq = s.outq := by rw [h]

/-- What does not read the rest does the same on both. -/
theorem Still.deaf {f : State → State} (hf : Deaf f) : Still (f s) (f t) := by
  have ht : t = onRest ⟨s.receiver, s.linkOut, t.pedals, t.draws⟩ s := h
  have hs : s = onRest ⟨s.receiver, s.linkOut, s.pedals, s.draws⟩ s := rfl
  have hfs : f s = onRest ⟨s.receiver, s.linkOut, s.pedals, s.draws⟩ (f s) := by
    conv_lhs => rw [hs]
    exact hf _ s
  unfold Still
  generalize hq : f s = q at hfs
  rw [ht, hf, hq, hfs]
  rfl

end

/-! ### Acts that do not show -/

/-- A line that in this frame moves its timers alone (R130, R131). -/
def LineRests (limit : Nat) (l : LineId) (s : State) : Prop :=
  (s.pedal l).level = some (pinLevel s.pedalPins[l]) ∧ ¬PedalJudged limit s.pedalPins[l] (s.pedal l)

theorem pedalWork_still {limit : Nat} {l : LineId} {s : State} (h : LineRests limit l s) :
    Still s (pedalWork limit l s) := by
  obtain ⟨hlevel, hjudged⟩ := h
  have hedge : ¬PedalEdges s.pedalPins[l] (s.pedal l) := by
    rintro ⟨level, he, hne, -⟩
    exact hne (Option.some.inj (he.symm.trans hlevel))
  rw [pedalWork_of_no_judgement hjudged, debounceLine_of_no_edge hedge]
  rfl

/-- A thing of a frame that does not show: an occurrence of a masked kind (R152). -/
def Void (s : State) (t : Task) : Prop := ∃ k sc, t = .occurrence k sc ∧ (s.fault k).detectMask = true

section
variable (ls : LinkState)

/-- What stays still at each place of the acts stays so through them. -/
theorem still_of_places {s : State} {acts : List Act} (h : ∀ pre a post, acts = pre ++ a :: post →
    Still s (runActs ls pre s) → Still (runActs ls pre s) (a.run ls (runActs ls pre s))) :
    Still s (runActs ls acts s) := by
  induction acts using List.reverseRecOn with
  | nil => exact .refl s
  | append_singleton acts a ih =>
    have hpre := ih fun pre b post e => h pre b (post ++ [a]) (by rw [e, List.append_assoc]; rfl)
    rw [runActs_append]
    exact hpre.trans (h acts a [] rfl hpre)

/-- At its place, each act of a standing frame leaves the state still: voices stand, occurrences are masked, and each
line is taken once. -/
theorem runActs_still {limit : Nat} {s : State} {acts : List Act} (hquiet : ∀ a ∈ acts, Act.quiet a)
    (htasks : ∀ x ∈ tasksOf acts, Void s x ∨ ∃ l n, x = .pedal l n)
    (hlines : ∀ l, linesOf l acts = [] ∨ linesOf l acts = [limit] ∧ LineRests limit l s)
    (hvoices : ∀ v ∈ voicesOf acts, (s.voice v).runs = false) : Still s (runActs ls acts s) := by
  refine still_of_places ls fun pre a post e hpre => ?_
  have hcalm : ∀ b ∈ pre, Act.calm b := fun b m => (hquiet b (by rw [e]; exact List.mem_append_left _ m)).calm
  have hmem : a ∈ acts := by rw [e]; simp
  cases a with
  | draw => exact rfl
  | voice v =>
    have hstands : ((runActs ls pre s).voice v).runs = false := by
      rw [Still.voice hpre]
      exact hvoices v (mem_voicesOf.2 hmem)
    show Still _ (voiceWork v (runActs ls pre s)).state
    rw [voiceWork_stands hstands]
    exact .refl _
  | task x =>
    rcases htasks x (mem_tasksOf.2 hmem) with ⟨k, sc, rfl, hmask⟩ | ⟨l, n, rfl⟩
    · show Still _ (raise k sc (runActs ls pre s))
      rw [raise_masked k sc _ (by rw [Still.fault hpre]; exact hmask)]
      exact .refl _
    · have hsplit : linesOf l acts = linesOf l pre ++ n :: linesOf l post := by
        rw [e, linesOf_append]
        simp [linesOf, Act.line?]
      rcases hlines l with hnone | ⟨hone, hrests⟩
      · rw [hnone] at hsplit
        simp at hsplit
      · rw [hone] at hsplit
        rcases List.append_eq_singleton_iff.1 hsplit.symm with ⟨hnone, heq⟩ | ⟨-, hnil⟩
        · obtain ⟨rfl, -⟩ := List.cons_eq_cons.1 heq
          refine pedalWork_still ?_
          unfold LineRests
          rw [runActs_line_kept ls s hcalm hnone, Still.pins hpre]
          exact hrests
        · cases hnil

end

/-! ### A standing frame -/

/-- Where no voice runs at the beginning no fall ends among the acts. -/
theorem skips_of_standing {ls : LinkState} {acts : List Act} {s : State} {ts : List Task} (h : Skips ls acts s ts)
    (hquiet : ∀ a ∈ acts, Act.quiet a) (hworked : (voicesOf acts).Perm allVoices)
    (hstands : ∀ v, (s.voice v).runs = false) : ts = [] := by
  refine List.eq_nil_iff_forall_not_mem.2 fun t m => ?_
  obtain ⟨L, -, v, pre, post, e, hskipped⟩ := h t m
  have hquiet1 : ∀ a ∈ pre, Act.quiet a := fun a m => hquiet a (by rw [e]; exact List.mem_append_left _ m)
  have hnot : v ∉ voicesOf pre := by
    have hnodup : (voicesOf acts).Nodup := hworked.nodup_iff.2 Occurrences.allVoices_nodup
    rw [e, voicesOf_append, show voicesOf (.voice v :: post) = v :: voicesOf post from rfl] at hnodup
    exact fun m => (List.nodup_append.1 hnodup).2.2 v m v List.mem_cons_self rfl
  have hplace := runActs_voice_keeps (P := fun x => x.runs = false) ls s
    (fun k x inc hx => mutedBy_stands k x inc hx) hquiet1 hnot (hstands v)
  rw [voiceWork_stands hplace] at hskipped
  cases hskipped

section
variable {ls : LinkState} {xs : Int × Int} {limit : Nat} {ys : List Int} {others : List Task}
  {u u0 u2 u3 t : State} {acts acts' : List Act}
  (h : FrameRan ls xs limit ys others [.block .a, .block .b] u u0 u2 u3 t acts acts')
  (hvoid : ∀ x ∈ others, Void u x) (hstands : ∀ v, (u.voice v).runs = false) (hrests : ∀ l, LineRests limit l u)
include h hvoid

omit h in
theorem void_calm : ∀ kind r, Task.request kind r ∉ others := fun kind r m => by
  obtain ⟨k, sc, e, -⟩ := hvoid _ m
  cases e

theorem FrameRan.void_or_line {x : Task} (m : x ∈ tasksOf acts ∨ x ∈ tasksOf acts') :
    Void u x ∨ x = .block .a ∨ x = .block .b ∨ ∃ l, x = .pedal l limit :=
  (FrameRan.task_mem h (.inr rfl) m).imp_left (hvoid x)

include hstands hrests

/-- The voices' work and what is taken among it do not show. -/
theorem FrameRan.still_mid : Still (appendSamples xs.1 xs.2 u0) u2 := by
  have hbase (l : LineId) : LineRests limit l (appendSamples xs.1 xs.2 u0) := by
    have hpedal : (appendSamples xs.1 xs.2 u0).pedal l = u.pedal l := (Sent.pedal h.before l :)
    have hpins : (appendSamples xs.1 xs.2 u0).pedalPins = u.pedalPins := (Sent.pins h.before :)
    unfold LineRests
    rw [hpedal, hpins]
    exact hrests l
  rw [h.mixed]
  refine runActs_still ls (limit := limit) h.quiet (fun x m => ?_) (fun l => ?_) fun v _ => ?_
  · rcases FrameRan.void_or_line h hvoid (.inl m) with ⟨k, sc, rfl, hk⟩ | rfl | rfl | ⟨l, rfl⟩
    · refine .inl ⟨k, sc, rfl, ?_⟩
      rw [show (appendSamples xs.1 xs.2 u0).fault k = u.fault k from Sent.faultKept h.before k]
      exact hk
    · exact (h.quiet _ (mem_tasksOf.1 m)).elim
    · exact (h.quiet _ (mem_tasksOf.1 m)).elim
    · exact .inr ⟨l, limit, rfl⟩
  · rcases FrameRan.line_once h (.inr rfl) l with ⟨hl, -⟩ | ⟨hl, -⟩
    · exact .inr ⟨hl, hbase l⟩
    · exact .inl hl
  · rw [show (appendSamples xs.1 xs.2 u0).voice v = u.voice v from Sent.voice h.before v]
    exact hstands v

omit hstands in
/-- What stands behind the voices' work and is taken between block work does not show either. -/
theorem FrameRan.still_part {pre mid post : List Act} (he : acts' = pre ++ (mid ++ post))
    (hquiet : ∀ a ∈ mid, Act.quiet a) (w : State) (hw : w = runActs ls pre u3)
    (hmask : ∀ k, (u.fault k).detectMask = true → (w.fault k).detectMask = true) : Still w (runActs ls mid w) := by
  have hcalm' := FrameRan.calm' h (.inr rfl) (void_calm hvoid)
  have hcalm : ∀ a ∈ pre, Act.calm a := fun a m => hcalm' a (by rw [he]; exact List.mem_append_left _ m)
  refine runActs_still ls (limit := limit) hquiet (fun x m => ?_) (fun l => ?_) fun v m => ?_
  · have hmem : x ∈ tasksOf acts' := by
      rw [he, tasksOf_append, tasksOf_append]
      exact List.mem_append_right _ (List.mem_append_left _ m)
    rcases FrameRan.void_or_line h hvoid (.inr hmem) with ⟨k, sc, rfl, hk⟩ | rfl | rfl | ⟨l, rfl⟩
    · exact .inl ⟨k, sc, rfl, hmask k hk⟩
    · exact (hquiet _ (mem_tasksOf.1 m)).elim
    · exact (hquiet _ (mem_tasksOf.1 m)).elim
    · exact .inr ⟨l, limit, rfl⟩
  · by_cases hnone : linesOf l mid = []
    · exact .inl hnone
    have hsplit : linesOf l acts' = linesOf l pre ++ (linesOf l mid ++ linesOf l post) := by
      rw [he, linesOf_append, linesOf_append]
    rcases FrameRan.line_once h (.inr rfl) l with ⟨-, hl⟩ | ⟨hl, hl'⟩
    · rw [hl] at hsplit
      exact absurd (List.append_eq_nil_iff.1 (List.append_eq_nil_iff.1 hsplit.symm).2).1 hnone
    · rw [hl'] at hsplit
      rcases List.append_eq_singleton_iff.1 hsplit.symm with ⟨hpre, hrest⟩ | ⟨-, hrest⟩
      · rcases List.append_eq_singleton_iff.1 hrest with ⟨hmid, -⟩ | ⟨hmid, -⟩
        · exact absurd hmid hnone
        · refine .inr ⟨hmid, ?_⟩
          have hpins : (appendSamples xs.1 xs.2 u0).pedalPins = u.pedalPins := (Sent.pins h.before :)
          have hpedal : (appendSamples xs.1 xs.2 u0).pedal l = u.pedal l := (Sent.pedal h.before l :)
          unfold LineRests
          rw [hw, runActs_line_kept ls u3 hcalm hpre, runActs_pins ls u3 hcalm, Sent.pedal h.sent, Sent.pins h.sent,
            h.mixed, runActs_pins ls _ (FrameRan.calm h), runActs_line_kept ls _ (FrameRan.calm h) hl, hpins, hpedal]
          exact hrests l
      · exact absurd (List.append_eq_nil_iff.1 hrest).1 hnone
  · have hmem : v ∈ voicesOf acts' := by
      rw [he, voicesOf_append, voicesOf_append]
      exact List.mem_append_right _ (List.mem_append_left _ m)
    rw [h.idle] at hmem
    cases hmem

omit hstands in
/-- A standing frame does both leads' block work and no more (R37). -/
theorem FrameRan.blockWorkDone {x : State} (hx : Still x u3) : BlockWorkDone ls x t := by
  have hcalm' := FrameRan.calm' h (.inr rfl) (void_calm hvoid)
  obtain ⟨L, M, hne, horder⟩ := blocks_in_order (bs := blocksOf acts') (FrameRan.blocks' h)
  obtain ⟨pre, mid, post, he, hpre, hmid, hpost⟩ := split_at_blocks hcalm' horder
  have hgrows3 : StatusGrows u u3 := by
    have hbefore : StatusGrows u (appendSamples xs.1 xs.2 u0) := .of_faults (Sent.faults h.before :)
    have hacts := runActs_statusGrows ls (appendSamples xs.1 xs.2 u0) (FrameRan.calm h)
    rw [← h.mixed] at hacts
    exact StatusGrows.trans hbefore (StatusGrows.trans hacts (Sent.statusGrows h.sent))
  have hmask (front : List Act) (hfront : ∀ a ∈ front, Act.calm a) (k : FaultKind)
      (hk : (u.fault k).detectMask = true) : ((runActs ls front u3).fault k).detectMask = true :=
    ((StatusGrows.trans hgrows3 (runActs_statusGrows ls u3 hfront) k).2.1).trans hk
  have h1 : Still x (runActs ls pre u3) :=
    hx.trans (FrameRan.still_part h hvoid hrests (pre := []) he hpre u3 rfl (hmask [] nofun))
  have he2 : acts' = (pre ++ [.task (.block L)]) ++ (mid ++ .task (.block M) :: post) := by
    rw [he, List.append_assoc]
    rfl
  have he3 : acts' = (pre ++ .task (.block L) :: (mid ++ [.task (.block M)])) ++ (post ++ []) := by
    rw [he]
    simp
  have hcalm2 : ∀ a ∈ pre ++ [.task (.block L)], Act.calm a :=
    fun a m => hcalm' a (by rw [he2]; exact List.mem_append_left _ m)
  have hcalm3 : ∀ a ∈ pre ++ .task (.block L) :: (mid ++ [.task (.block M)]), Act.calm a :=
    fun a m => hcalm' a (by rw [he3]; exact List.mem_append_left _ m)
  have hrun2 : runActs ls (pre ++ [.task (.block L)]) u3 = blockWork ls L (runActs ls pre u3) := by
    rw [runActs_append]
    rfl
  have hrun3 : runActs ls (pre ++ .task (.block L) :: (mid ++ [.task (.block M)])) u3 =
      blockWork ls M (runActs ls mid (blockWork ls L (runActs ls pre u3))) := by
    rw [runActs_append, runActs_cons, runActs_append]
    rfl
  have h2 := FrameRan.still_part h hvoid hrests he2 hmid _ rfl (hmask _ hcalm2)
  have h3 := FrameRan.still_part h hvoid hrests he3 hpost _ rfl (hmask _ hcalm3)
  rw [hrun2] at h2
  rw [hrun3] at h3
  have hfirst : Still (blockWork ls L x) (runActs ls mid (blockWork ls L (runActs ls pre u3))) :=
    (Still.deaf h1 (deaf_blockWork ls L)).trans h2
  have hboth := (Still.deaf hfirst (deaf_blockWork ls M)).trans h3
  have ht : t = runActs ls post (blockWork ls M (runActs ls mid (blockWork ls L (runActs ls pre u3)))) := by
    rw [h.ended, he, runActs_append, runActs_cons, runActs_append, runActs_cons]
    rfl
  rw [← ht] at hboth
  exact ⟨L, M, hne, hboth⟩

end

end Sys2Proof.Proofs.StandingFrames
end

