-- ==== Sys2Proof/Proofs/PhantomFrames.lean ====
section
/-! PROOF. Phantom frames (O12): count and samples of 0, no frame out, each line and voice at its work, both leads'
block work at a block end. -/

namespace Sys2Proof.Proofs.PhantomFrames

open Sys2Proof Sys2Proof.Machine Sys2Proof.Safety Sys2Proof.Proofs.Queues Sys2Proof.Proofs.Traces
  Sys2Proof.Proofs.ActEffects Sys2Proof.Proofs.Occurrences Sys2Proof.Proofs.FrameRuns Sys2Proof.Proofs.LinkParts
  Sys2Proof.Proofs.BlockEnds Sys2Proof.Proofs.Counting Sys2Proof.Proofs.FrameEnds Sys2Proof.Proofs.FrameStarts
  Sys2Proof.Proofs.StandingFrames Sys2Proof.Proofs.SlotSums Sys2Proof.Proofs.ResetRows Sys2Proof.Proofs.Ports
  Sys2Proof.Proofs.BlockTraces Sys2Proof.Proofs.Outgoing
  Sys2Proof.Proofs.CueFlush

/-! ### Frames without a lane -/

/-- The block work of a frame, by its count (R18, R37). -/
theorem blockTasks_of_end {s : State} (h : s.ltu.count.toNat % 64 = 63) : blockTasks s = [.block .a, .block .b] := by
  unfold blockTasks isBlockEnd
  rw [h]
  rfl

theorem blockTasks_of_other {s : State} (h : s.ltu.count.toNat % 64 ≠ 63) : blockTasks s = [] := by
  unfold blockTasks isBlockEnd
  rw [if_neg]
  simpa using h

theorem blockTasks_cases (s : State) : blockTasks s = [] ∨ blockTasks s = [.block .a, .block .b] := by
  by_cases h : s.ltu.count.toNat % 64 = 63
  · exact .inr (blockTasks_of_end h)
  · exact .inl (blockTasks_of_other h)

theorem blockTasks_congr {s t : State} (h : t.ltu = s.ltu) : blockTasks t = blockTasks s := by
  unfold blockTasks
  rw [h]

/-- A lead's block work counts no phantom frame (R163). -/
theorem blockWork_phantomKept (ls : LinkState) (L : Lead) (s : State) : CodeKept 12 s (blockWork ls L s) := by
  have hnone : judgedEvents s L 12 = 0 := by
    cases L <;> rfl
  have hcount := (blockWork_judges ls L s).2 12 (by unfold CueCodes; decide)
  rw [hnone] at hcount
  exact CodeKept.of_times hcount

theorem runActs_phantomKept (ls : LinkState) {acts : List Act} (s : State) (h : ∀ a ∈ acts, Act.calm a) :
    CodeKept 12 s (runActs ls acts s) := by
  refine runActs_keeps (P := fun u => CodeKept 12 s u) ls acts s (fun a m u hu => CodeKept.trans hu ?_) (.refl _ s)
  by_cases hblock : Act.block? a = none
  · exact run_codeKept ls u (by unfold ActCodes; decide) (quiet_of_calm (h a m) hblock)
  · obtain ⟨L, hL⟩ := Option.ne_none_iff_exists'.1 hblock
    rw [block?_eq_some hL]
    exact blockWork_phantomKept ls L u

section
variable {ls : LinkState} {xs : Int × Int} {limit : Nat} {ys : List Int} {others blocks : List Task}
  {u u0 u2 u3 t : State} {acts acts' : List Act}
  (h : FrameRan ls xs limit ys others blocks u u0 u2 u3 t acts acts')
  (hcalm : ∀ kind r, Task.request kind r ∉ others) (hblocks : blocks = [] ∨ blocks = [.block .a, .block .b])
include h

theorem FrameRan.onlyEngine_mid : OnlyEngine u0 u2 := by
  have hsamples : OnlyEngine u0 (appendSamples xs.1 xs.2 u0) := ⟨rfl, List.prefix_refl _⟩
  rw [h.mixed]
  exact hsamples.trans (runActs_onlyEngine ls _ (FrameRan.calm h))

include hcalm hblocks

theorem FrameRan.onlyEngine_end : OnlyEngine u3 t := by
  rw [h.ended]
  exact runActs_onlyEngine ls u3 (FrameRan.calm' h hblocks hcalm)

theorem FrameRan.phantomKept : CodeKept 12 u t := by
  have hbefore : CodeKept 12 u (appendSamples xs.1 xs.2 u0) := h.before.codes 12 (by decide) (by decide)
  have hacts : CodeKept 12 (appendSamples xs.1 xs.2 u0) u2 := h.mixed ▸ runActs_phantomKept ls _ (FrameRan.calm h)
  have hsent : CodeKept 12 u2 u3 := h.sent.codes 12 (by decide) (by decide)
  have hend : CodeKept 12 u3 t := h.ended ▸ runActs_phantomKept ls u3 (FrameRan.calm' h hblocks hcalm)
  exact ((hbefore.trans hacts).trans hsent).trans hend

/-- A frame without a lane leaves what the engine does not touch, but for the frame out. -/
theorem FrameRan.onlyEngine {out : Option (List Byte)} (h0 : u0 = u) (h3 : u3 = { u2 with linkOut := out }) :
    OnlyEngine { u with linkOut := out } t := by
  have hmid := FrameRan.onlyEngine_mid h
  rw [h0] at hmid
  have hout : OnlyEngine { u with linkOut := out } u3 := by
    rw [h3]
    exact ⟨(congrArg (fun w : State => { w with linkOut := out }) hmid.rest :), hmid.queue⟩
  exact hout.trans (FrameRan.onlyEngine_end h hcalm hblocks)

end

/-- The histories behind a frame that judges its leads. -/
theorem LeadsJudged.history {xs : Int × Int} {s t : State} (h : LeadsJudged xs s t) (L : Lead) :
    (t.lead L).history = withSample xs s L := by
  by_cases h63 : t.ltu.count.toNat % 64 = 63
  · exact ((h.1 h63).1 L).1
  · rw [(h.2 h63).1 L]

/-! ### A phantom frame as acts -/

/-- A phantom frame outside LOCKED: besides its lines and block work, ENTRY_SKIPPED of fall ends alone. -/
theorem phantomWork_ran {w : State} (hlink : w.ltu.link ≠ .locked) : ∃ ys u2 acts acts' skips,
    Skips w.ltu.link acts (appendSamples 0 0 (countEvent .phantom w)) skips
      ∧ FrameRan w.ltu.link (0, 0) w.config.stuckLimit ys skips (blockTasks w) (countEvent .phantom w)
        (countEvent .phantom w) u2 { u2 with linkOut := none } (phantomWork w) acts acts' := by
  obtain ⟨-, acts, acts', skips, hskips, hran, -⟩ := frameRan_of_audio w.ltu.link (0, 0) w.config.stuckLimit
    (countEvent .phantom w) (phantomPass w) [] rfl nofun none
  have hclip : clipTask w.ltu.link (phantomMix w).pass.state
      (clippedSlots (phantomMix w).claims (phantomMix w).samples) = [] := by
    unfold clipTask
    split
    · rfl
    · exact if_neg hlink
  have hltu : (phantomMix w).pass.state.ltu = w.ltu :=
    (FrameRan.onlyEngine_mid hran).ltu
  refine ⟨(phantomMix w).samples, (phantomMix w).pass.state, acts, acts', skips, hskips, ?_⟩
  rw [← blockTasks_congr hltu, phantomWork_eq]
  have hothers : [] ++ skips ++ clipTask w.ltu.link (phantomMix w).pass.state
      (clippedSlots (phantomMix w).claims (phantomMix w).samples) = skips := by
    rw [hclip, List.append_nil, List.nil_append]
  exact hothers ▸ hran

theorem skips_calm {ls : LinkState} {acts : List Act} {s : State} {ts : List Task} (h : Skips ls acts s ts)
    (kind : Byte) (r : Req) : Task.request kind r ∉ ts := fun m => by
  obtain ⟨L, e, -⟩ := h _ m
  cases e

/-- Lines that rest as the statements speak of them. -/
theorem lineRests_of_quiet {pins : PedalPins} {s u : State} (h : QuietLines pins s) (hpins : u.pedalPins = pins)
    (hpedal : ∀ l, u.pedal l = s.pedal l) (l : LineId) : LineRests s.config.stuckLimit l u := by
  unfold LineRests
  rw [hpins, hpedal]
  exact h l

/-! ### The row -/

/-- A phantom frame as its count is adopted. -/
def phantomStart (pins : PedalPins) (s : State) : State :=
  { s with pedalPins := pins, receiver := s.receiver.after (512 - s.ltu.tick), ltu := { s.ltu with tick := 0 } }

theorem exec_phantomFrame {pins : PedalPins} {s : State} (hlow : s.resetLow = false) (hstill : s.ltu.link.running = false) :
    exec (.phantomFrame pins) s = .next (phantomWork (adoptCount (s.ltu.count + 1) (phantomStart pins s))) := by
  refine (whenReleased_of_released hlow _).trans ?_
  rw [if_neg (by rw [hstill]; exact Bool.false_ne_true)]
  rfl

theorem phantomEntered (pins : PedalPins) (s : State) :
    EnteredCalm pins s (countEvent .phantom (adoptCount (s.ltu.count + 1) (phantomStart pins s))) := by
  have h := enteredCalm_adopted (pins := pins) (s := s) (v := phantomStart pins s) rfl rfl (s.ltu.count + 1)
  refine ⟨⟨?_, h.cues, fun code hcode => (h.codes code hcode).trans (countEvent_codeKept ?_ _)⟩, h.voices, h.faults⟩
  · have hframe := h.frame
    generalize adoptCount (s.ltu.count + 1) (phantomStart pins s) = u at hframe
    rw [hframe]
    rfl
  · show (12 : Nat) ≠ code
    omega

/-- The state that a phantom frame's block work starts from. -/
theorem phantomSamples_eq (pins : PedalPins) (s : State) :
    { appendSamples 0 0 (countEvent .phantom (adoptCount (s.ltu.count + 1) (phantomStart pins s))) with
        linkOut := none } =
      { adoptCount (s.ltu.count + 1) s with
        ltu := { s.ltu with count := s.ltu.count + 1, tick := 0 }, pedalPins := pins
        receiver := s.receiver.after (512 - s.ltu.tick), linkOut := none
        leadA := { s.leadA with history := withSample (0, 0) s .a }
        leadB := { s.leadB with history := withSample (0, 0) s .b }
        counters := s.counters.map fun c => c.after 12 } := by
  obtain ⟨hgateways, htimed⟩ := adoptCount_same (c := s.ltu.count + 1) (s := s) (t := phantomStart pins s) ⟨rfl, rfl⟩ rfl
  have hs := adoptCount_eq (s.ltu.count + 1) s
  have hv := adoptCount_eq (s.ltu.count + 1) (phantomStart pins s)
  generalize adoptCount (s.ltu.count + 1) s = u at *
  generalize adoptCount (s.ltu.count + 1) (phantomStart pins s) = w at *
  rw [hv, hs, hgateways, htimed]
  rfl

/-- A voice's work of the frame is the one the statements speak of. -/
theorem voiceWork_entered {pins : PedalPins} {s u : State} (h : Entered pins s u) {xs : Int × Int} {v : VoiceId}
    (hv : u.voice v = s.voice v) : (voiceWork v (appendSamples xs.1 xs.2 u)).state.voice v = voiceAfter s xs v := by
  have hvoice : (appendSamples xs.1 xs.2 u).voice v = (appendSamples xs.1 xs.2 s).voice v := hv
  have hconfig : (appendSamples xs.1 xs.2 u).config = (appendSamples xs.1 xs.2 s).config := (Entered.config h :)
  rw [← voiceWork_after]
  refine (VoicesInFrames.voiceWork_congr hvoice hconfig fun L => ?_).2
  rw [appendSamples_lead, appendSamples_lead, Entered.lead h, Entered.withSample h]
  exact ⟨rfl, rfl⟩

/-- Settles O12. -/
theorem phantomFrameMade : Obligations.PhantomFrameMade := by
  intro pins s hlow hstill
  have hentered := phantomEntered pins s
  have hbase := phantomSamples_eq pins s
  generalize hw : adoptCount (s.ltu.count + 1) (phantomStart pins s) = w at *
  have hadopted : w = _ := hw ▸ adoptCount_eq (s.ltu.count + 1) (phantomStart pins s)
  have hltu : w.ltu = { s.ltu with count := s.ltu.count + 1, tick := 0 } := by rw [hadopted]; rfl
  have hlink : w.ltu.link ≠ .locked := by
    rw [hltu]
    exact not_locked_of_not_running hstill
  obtain ⟨ys, u2, acts, acts', skips, hskips, hran⟩ := phantomWork_ran hlink
  have hcalm := skips_calm hskips
  have hblocks := blockTasks_cases w
  have hconfig : w.config = s.config := (Entered.config hentered.toEntered :)
  rw [hconfig] at hran
  have hengine := FrameRan.onlyEngine hran hcalm hblocks rfl rfl
  have htltu : (phantomWork w).ltu = { s.ltu with count := s.ltu.count + 1, tick := 0 } := hengine.ltu.trans hltu
  have hend : (phantomWork w).ltu.count.toNat % 64 = 63 → blockTasks w = [.block .a, .block .b] := fun h63 =>
    blockTasks_of_end (by rw [hltu]; rw [htltu] at h63; exact h63)
  have hoff : (phantomWork w).ltu.count.toNat % 64 ≠ 63 → blockTasks w = [] := fun h63 =>
    blockTasks_of_other (by rw [hltu]; rw [htltu] at h63; exact h63)
  have hleads := FrameRan.leadsJudged hran hentered.toEntered hcalm hend hoff
  have heq := hengine.eq
  have hwork := exec_phantomFrame (pins := pins) hlow hstill
  rw [hw] at hwork
  generalize phantomWork w = t at *
  refine ⟨t, hwork, htltu, fun L => ?_, ?_, ?_, fun l => ?_, hleads, ?_, ?_, fun h63 hmute v => ?_, fun h63 hstands hquiet => ?_⟩
  · exact (LeadsJudged.history hleads L).trans (by cases L <;> rfl)
  · have hstart : { countEvent .phantom w with linkOut := none } =
        { s with ltu := w.ltu, pedalPins := pins, receiver := s.receiver.after (512 - s.ltu.tick), linkOut := none
                 timed := w.timed, gateways := w.gateways, counters := (countEvent .phantom w).counters } := by
      rw [hadopted]
      rfl
    rw [hstart] at heq
    rw [hengine.ltu]
    exact heq
  · have hqueue := hengine.queue
    rw [show ({ countEvent .phantom w with linkOut := none } : State).outq = s.outq by rw [hadopted]; rfl] at hqueue
    exact hqueue
  · rw [FrameRan.pedal hran hcalm hblocks l, Entered.pedal hentered.toEntered, Entered.pedalPins hentered.toEntered]
  · exact FrameRan.cuesMoved hran hentered.toEntered hcalm rfl (congrArg Ltu.count hengine.ltu) hoff
  · have hone : CountsTimes 12 1 s (countEvent .phantom w) :=
      countsTimes_before (CodeKept.of_counters (by rw [hadopted]; rfl)) (countEvent_once .phantom w)
    exact countsTimes_behind hone (FrameRan.phantomKept hran hcalm hblocks)
  · rw [FrameRan.voice hran hcalm (hoff h63) (EnteredCalm.noMuteDue hentered hmute) (.inl fun sc m => ?_) v,
      voiceWork_entered hentered.toEntered (EnteredCalm.voice hentered v)]
    obtain ⟨L, e, -⟩ := hskips _ m
    cases e
  · rw [hend h63] at hran
    have hnone := skips_of_standing hskips hran.quiet hran.worked fun v => by
      rw [show (appendSamples 0 0 (countEvent .phantom w)).voice v = s.voice v from EnteredCalm.voice hentered v]
      exact hstands v
    have hvoid : ∀ x ∈ skips, Void (countEvent .phantom w) x := by
      rw [hnone]
      nofun
    have hrests := lineRests_of_quiet hquiet (Entered.pedalPins hentered.toEntered) (Entered.pedal hentered.toEntered)
    have hmid := FrameRan.still_mid hran hvoid (fun v => by
      rw [EnteredCalm.voice hentered]
      exact hstands v) hrests
    have hlinkls : w.ltu.link = s.ltu.link := by rw [hltu]
    have hreceiver : t.receiver = s.receiver.after (512 - s.ltu.tick) := by rw [heq, hadopted]; rfl
    rw [hlinkls] at hran
    rw [htltu, hreceiver, ← hbase]
    refine FrameRan.blockWorkDone hran hvoid hrests ?_
    unfold Still at hmid ⊢
    exact congrArg (fun x : State => { x with linkOut := none }) hmid

end Sys2Proof.Proofs.PhantomFrames
end

