-- ==== Sys2Proof/Proofs/DeviceMutes.lean ====
section
/-! PROOF. An occurrence of scope DEVICE in a frame (R99, R151, R154): a voice that a frame cannot take OFF holds its
kind behind the frame, an OFF voice stays as it is. -/

namespace Sys2Proof.Proofs.DeviceMutes

open Sys2Proof Sys2Proof.Machine Sys2Proof.Safety Sys2Proof.Proofs.VoiceEvents Sys2Proof.Proofs.VoiceFrame
  Sys2Proof.Proofs.Occurrences Sys2Proof.Proofs.Traces Sys2Proof.Proofs.LineWork Sys2Proof.Proofs.ActEffects
  Sys2Proof.Proofs.VoicesInFrames Sys2Proof.Proofs.FrameRuns Sys2Proof.Proofs.FrameEnds Sys2Proof.Proofs.Acts

/-! ### Voices that a frame cannot take OFF -/

/-- A voice that no end of a fall takes OFF: not released, with no assignment waiting, and falling to MUTED alone. -/
structure Steady (x : Voice) : Prop where
  on : x.state ≠ .off
  mark : x.releaseMark = false
  pending : x.pendingPart = none
  falls : x.state = .falling → x.dest = .muted

theorem Steady.mutedBy {x : Voice} (h : Steady x) (k : FaultKind) (inc : Nat) : Steady (x.mutedBy k inc) := by
  obtain ⟨hon, hmark, hpending, hfalls⟩ := h
  obtain ⟨state, _, _, _, _, _, envelope, _, _, _, _, _, _⟩ := x
  cases state with
  | off => exact absurd rfl hon
  | idle => exact ⟨nofun, hmark, hpending, nofun⟩
  | rising =>
    by_cases henv : envelope = 0
    · simp only [Voice.mutedBy, henv]
      exact ⟨nofun, hmark, hpending, nofun⟩
    · simp only [Voice.mutedBy, henv]
      exact ⟨nofun, hmark, hpending, fun _ => rfl⟩
  | sounding =>
    by_cases henv : envelope = 0
    · simp only [Voice.mutedBy, henv]
      exact ⟨nofun, hmark, hpending, nofun⟩
    · simp only [Voice.mutedBy, henv]
      exact ⟨nofun, hmark, hpending, fun _ => rfl⟩
  | falling => exact ⟨nofun, hmark, hpending, fun _ => rfl⟩
  | muted => exact ⟨nofun, hmark, hpending, nofun⟩

/-- The kinds of a voice behind a mute (R99). -/
theorem mutedBy_faults {x : Voice} (h : x.state ≠ .off) (k : FaultKind) (inc : Nat) :
    (x.mutedBy k inc).faults = addFault k x.faults := by
  unfold Voice.mutedBy
  cases hstate : x.state with
  | off => exact absurd hstate h
  | rising => simp only; split <;> rfl
  | sounding => simp only; split <;> rfl
  | idle => rfl
  | falling => rfl
  | muted => rfl

/-- A steady voice that holds a kind. -/
def MutedFor (k : FaultKind) (x : Voice) : Prop := Steady x ∧ k ∈ x.faults

theorem Steady.mutedFor {x : Voice} (h : Steady x) (k : FaultKind) (inc : Nat) : MutedFor k (x.mutedBy k inc) :=
  ⟨h.mutedBy k inc, by rw [mutedBy_faults h.on]; exact (mem_addFault k k x.faults).2 (.inr rfl)⟩

theorem MutedFor.mutedBy {k : FaultKind} {x : Voice} (h : MutedFor k x) (j : FaultKind) (inc : Nat) :
    MutedFor k (x.mutedBy j inc) :=
  ⟨h.1.mutedBy j inc, by rw [mutedBy_faults h.1.on]; exact (mem_addFault j k x.faults).2 (.inl h.2)⟩

theorem mutedBy_off {x : Voice} (h : x.state = .off) (k : FaultKind) (inc : Nat) : x.mutedBy k inc = x := by
  unfold Voice.mutedBy
  rw [h]

/-! ### Their own work -/

/-- The record that the work of a frame makes of a steady voice holds what it held. -/
theorem voiceWork_steady {v : VoiceId} {s : State} (h : Steady (s.voice v)) :
    Steady ((voiceWork v s).state.voice v) ∧ ((voiceWork v s).state.voice v).faults = (s.voice v).faults := by
  cases hruns : (s.voice v).runs with
  | false =>
    rw [voiceWork_stands hruns]
    exact ⟨h, rfl⟩
  | true =>
    cases howner : (s.voice v).owner with
    | none =>
      rw [voiceWork_unowned howner]
      exact ⟨h, rfl⟩
    | some L =>
      rw [voiceWork_voice hruns howner]
      obtain ⟨hstate, -, -, hpending, hmark, hdest, -, -, -, hfaults⟩ :=
        (s.voice v).frame_keeps (s.lead L).history (s.lead L).splicePeriod
      generalize ((s.voice v).frame (s.lead L).history (s.lead L).splicePeriod).1 = y at *
      have hy : Steady y := ⟨by rw [hstate]; exact h.on, hmark.trans h.mark, hpending.trans h.pending,
        fun e => hdest.trans (h.falls (hstate.symm.trans e))⟩
      have hset : (s.setVoice v y).voice v = y := State.voice_setVoice ..
      have same : Steady y ∧ y.faults = (s.voice v).faults := ⟨hy, hfaults⟩
      cases hs : y.state with
      | rising =>
        rw [endRamp_rising (by rw [hset]; exact hs), hset]
        split
        · exact ⟨⟨nofun, hy.mark, hy.pending, nofun⟩, hfaults⟩
        · exact same
      | sounding =>
        rw [endRamp_running (.inl (by rw [hset]; exact hs)), hset]
        exact same
      | falling =>
        by_cases henv : y.envelope = 0
        · rw [endRamp_fallen (by rw [hset]; exact hs) (by rw [hset]; exact henv),
            endFall_muted (by rw [hset]; exact hy.falls hs) (by rw [hset]; exact hy.mark) (by rw [hset]; exact hy.pending),
            State.voice_setVoice, hset]
          exact ⟨⟨nofun, hy.mark, hy.pending, nofun⟩, hfaults⟩
        · rw [endRamp_running (.inr ⟨by rw [hset]; exact hs, by rw [hset]; exact henv⟩), hset]
          exact same
      | off => exact absurd hs hy.on
      | idle =>
        simp only [endRamp, hset, hs]
        exact same
      | muted =>
        simp only [endRamp, hset, hs]
        exact same

theorem voiceWork_off {v : VoiceId} {s : State} (h : (s.voice v).state = .off) :
    (voiceWork v s).state.voice v = s.voice v := by
  rw [voiceWork_stands (by unfold Voice.runs; rw [h])]

/-! ### Occurrences -/

/-- An occurrence of scope DEVICE that mutes reaches every voice that is not OFF (R151, R154). -/
theorem raise_device_mutes {k : FaultKind} {s : State} (h : Mutes k s) {v : VoiceId} (hv : Steady (s.voice v)) :
    MutedFor k ((raise k .device s).voice v) := by
  obtain ⟨hmask, hclear, hsev⟩ := h
  have hvoices := raise_voices k .device s
  rw [if_pos ⟨hmask, hclear⟩] at hvoices
  have hvoice : (raise k .device s).voice v = (opened k .device s).voice v := congrArg (·[v]) hvoices
  rw [hvoice, opened_voice_of_mute (fun _ _ e => by cases e) hsev, if_pos (by simpa [voiceInScope] using hv.on)]
  exact hv.mutedFor k _

/-- A steady voice that holds the kind, or is still to be muted by it. -/
def Awaits (k : FaultKind) (v : VoiceId) (s : State) : Prop :=
  Steady (s.voice v) ∧ (k ∈ (s.voice v).faults ∨ Mutes k s)

theorem Awaits.of_muted {k : FaultKind} {v : VoiceId} {s : State} (h : MutedFor k (s.voice v)) : Awaits k v s :=
  ⟨h.1, .inl h.2⟩

/-- What keeps the voice's steadiness, its kinds and the kind's record keeps the wait. -/
theorem Awaits.of_kept {k : FaultKind} {v : VoiceId} {s t : State} (h : Awaits k v s)
    (hsteady : Steady (s.voice v) → Steady (t.voice v)) (hmuted : MutedFor k (s.voice v) → MutedFor k (t.voice v))
    (hfault : FaultKept k s t) : Awaits k v t := by
  obtain ⟨hv, hk | hk⟩ := h
  · exact .of_muted (hmuted ⟨hv, hk⟩)
  · refine ⟨hsteady hv, .inr ?_⟩
    unfold Mutes
    rw [hfault]
    exact hk

section
variable (ls : LinkState) {acts : List Act} (s : State) {k : FaultKind} {v : VoiceId}

/-- What mutes and a voice's own work keep of its record, quiet acts keep. -/
theorem run_voice_through {P : Voice → Prop} (hmute : ∀ j x inc, P x → P (x.mutedBy j inc))
    (hwork : ∀ u : State, P (u.voice v) → P ((voiceWork v u).state.voice v)) {a : Act} (hquiet : Act.quiet a)
    (h : P (s.voice v)) : P ((a.run ls s).voice v) := by
  by_cases e : a = .voice v
  · rw [e]
    exact hwork s h
  · exact run_voice_keeps ls s hmute hquiet e h

theorem runActs_voice_through {P : Voice → Prop} (hmute : ∀ j x inc, P x → P (x.mutedBy j inc))
    (hwork : ∀ u : State, P (u.voice v) → P ((voiceWork v u).state.voice v)) (hquiet : ∀ a ∈ acts, Act.quiet a)
    (h : P (s.voice v)) : P ((runActs ls acts s).voice v) :=
  runActs_keeps (P := fun u => P (u.voice v)) ls acts s
    (fun a m u hu => run_voice_through ls u hmute hwork (hquiet a m) hu) h

/-- Quiet acts leave an OFF voice as it is. -/
theorem runActs_off (hquiet : ∀ a ∈ acts, Act.quiet a) (h : (s.voice v).state = .off) :
    (runActs ls acts s).voice v = s.voice v :=
  runActs_voice_through (P := fun x => x = s.voice v) ls s
    (fun j x inc hx => by rw [hx]; exact mutedBy_off h j inc)
    (fun u hu => (voiceWork_off (by rw [hu]; exact h)).trans hu) hquiet rfl

theorem runActs_steady (hquiet : ∀ a ∈ acts, Act.quiet a) (h : Steady (s.voice v)) :
    Steady ((runActs ls acts s).voice v) :=
  runActs_voice_through (P := Steady) ls s (fun j _ inc hx => hx.mutedBy j inc)
    (fun _ hu => (voiceWork_steady hu).1) hquiet h

/-- Quiet acts keep a steady voice's kinds. -/
theorem runActs_mutedFor (hquiet : ∀ a ∈ acts, Act.quiet a) (h : MutedFor k (s.voice v)) :
    MutedFor k ((runActs ls acts s).voice v) :=
  runActs_voice_through (P := MutedFor k) ls s (fun j _ inc hx => hx.mutedBy j inc)
    (fun _ hu => ⟨(voiceWork_steady hu.1).1, by rw [(voiceWork_steady hu.1).2]; exact hu.2⟩) hquiet h

/-- The wait lasts until an occurrence of the kind, which ends it. -/
theorem runActs_awaits (hk : Declared k) (hquiet : ∀ a ∈ acts, Act.quiet a)
    (hscope : ∀ sc, Task.occurrence k sc ∈ tasksOf acts → sc = .device) (h : Awaits k v s) :
    Awaits k v (runActs ls acts s) := by
  refine runActs_keeps (P := Awaits k v) ls acts s (fun a m u hu => ?_) h
  have hsteady (hx : Steady (u.voice v)) : Steady ((a.run ls u).voice v) :=
    run_voice_through ls u (fun j _ inc hx => hx.mutedBy j inc) (fun w hw => (voiceWork_steady hw).1) (hquiet a m) hx
  have hmuted (hx : MutedFor k (u.voice v)) : MutedFor k ((a.run ls u).voice v) :=
    runActs_mutedFor (acts := [a]) ls u (fun b hb => by rw [List.mem_singleton.1 hb]; exact hquiet a m) hx
  by_cases hocc : ∃ sc, a = .task (.occurrence k sc)
  · obtain ⟨sc, rfl⟩ := hocc
    obtain rfl := hscope sc (mem_tasksOf.2 m)
    obtain ⟨hv, hheld | hopen⟩ := hu
    · exact .of_muted (hmuted ⟨hv, hheld⟩)
    · exact .of_muted (raise_device_mutes hopen hv)
  · exact hu.of_kept hsteady hmuted (run_faultKept ls u hk (hquiet a m).calm fun sc e => hocc ⟨sc, e⟩)

theorem runActs_mutes (hk : Declared k) (hquiet : ∀ a ∈ acts, Act.quiet a)
    (hscope : ∀ sc, Task.occurrence k sc ∈ tasksOf acts → sc = .device)
    (hocc : Task.occurrence k .device ∈ tasksOf acts) (h : Awaits k v s) : MutedFor k ((runActs ls acts s).voice v) := by
  obtain ⟨pre, post, rfl⟩ := split_at_task hocc
  have hpre := runActs_awaits ls s hk (fun a m => hquiet a (List.mem_append_left _ m))
    (fun sc m => hscope sc (by rw [tasksOf_append]; exact List.mem_append_left _ m)) h
  rw [runActs_append, runActs_cons]
  refine runActs_mutedFor ls _ (fun a m => hquiet a (List.mem_append_right _ (List.mem_cons_of_mem _ m))) ?_
  obtain ⟨hv, hheld | hopen⟩ := hpre
  · exact raise_voice_keeps (P := MutedFor k) (fun x inc hx => hx.mutedBy k inc) .device ⟨hv, hheld⟩
  · exact raise_device_mutes hopen hv

end

/-! ### In a frame -/

section
variable {ls : LinkState} {xs : Int × Int} {limit : Nat} {ys : List Int} {others : List Task}
  {u u0 u2 u3 t : State} {acts acts' : List Act}
  (h : FrameRan ls xs limit ys others [] u u0 u2 u3 t acts acts')
  (hcalm : ∀ kind r, Task.request kind r ∉ others)
include h hcalm

/-- Off a block end a frame leaves an OFF voice as it is. -/
theorem FrameRan.off {v : VoiceId} (hv : (u.voice v).state = .off) : t.voice v = u.voice v := by
  have hbase : (appendSamples xs.1 xs.2 u0).voice v = u.voice v := (Sent.voice h.before v :)
  have hmid : u3.voice v = u.voice v := by
    rw [Sent.voice h.sent, h.mixed, runActs_off ls _ h.quiet (by rw [hbase]; exact hv), hbase]
  rw [h.ended, runActs_off ls u3 (FrameRan.quiet' h hcalm rfl) (by rw [hmid]; exact hv), hmid]

theorem FrameRan.mutedFor {k : FaultKind} {v : VoiceId} (hv : MutedFor k (u.voice v)) : MutedFor k (t.voice v) := by
  have hbase : (appendSamples xs.1 xs.2 u0).voice v = u.voice v := (Sent.voice h.before v :)
  rw [h.ended]
  refine runActs_mutedFor ls u3 (FrameRan.quiet' h hcalm rfl) ?_
  rw [Sent.voice h.sent, h.mixed]
  exact runActs_mutedFor ls _ h.quiet (by rw [hbase]; exact hv)

theorem FrameRan.steady {v : VoiceId} (hv : Steady (u.voice v)) : Steady (t.voice v) := by
  have hbase : (appendSamples xs.1 xs.2 u0).voice v = u.voice v := (Sent.voice h.before v :)
  rw [h.ended]
  refine runActs_steady ls u3 (FrameRan.quiet' h hcalm rfl) ?_
  rw [Sent.voice h.sent, h.mixed]
  exact runActs_steady ls _ h.quiet (by rw [hbase]; exact hv)

/-- An occurrence of scope DEVICE in the frame mutes a steady voice. -/
theorem FrameRan.mutes {k : FaultKind} (hk : Declared k) (hocc : Task.occurrence k .device ∈ others)
    (hscope : ∀ sc, Task.occurrence k sc ∈ others → sc = .device) (hmutes : Mutes k u) {v : VoiceId}
    (hv : Steady (u.voice v)) : MutedFor k (t.voice v) := by
  have hscopes {bs : List Act} (hbs : ∀ x ∈ tasksOf bs, x ∈ tasksOf acts ∨ x ∈ tasksOf acts') (sc : Scope)
      (m : Task.occurrence k sc ∈ tasksOf bs) : sc = .device := by
    rcases FrameRan.task_mem h (.inl rfl) (hbs _ m) with hx | hx | hx | ⟨l, hx⟩
    · exact hscope sc hx
    all_goals cases hx
  have hscope1 := hscopes (bs := acts) fun x m => .inl m
  have hscope2 := hscopes (bs := acts') fun x m => .inr m
  have hbase : Awaits k v (appendSamples xs.1 xs.2 u0) := Awaits.of_kept (s := u) ⟨hv, .inr hmutes⟩
    (fun hx => by rw [show (appendSamples xs.1 xs.2 u0).voice v = u.voice v from Sent.voice h.before v]; exact hx)
    (fun hx => by rw [show (appendSamples xs.1 xs.2 u0).voice v = u.voice v from Sent.voice h.before v]; exact hx)
    (.of_faults (Sent.faults h.before :))
  have hmem : Task.occurrence k .device ∈ tasksOf acts ++ tasksOf acts' :=
    h.tasks.mem_iff.2 (List.mem_append_left _ (List.mem_append_left _ hocc))
  have hquiet' := FrameRan.quiet' h hcalm rfl
  rw [h.ended]
  rcases List.mem_append.1 hmem with hmem | hmem
  · refine runActs_mutedFor ls u3 hquiet' ?_
    rw [Sent.voice h.sent, h.mixed]
    exact runActs_mutes ls _ hk h.quiet hscope1 hmem hbase
  · refine runActs_mutes ls u3 hk hquiet' hscope2 hmem ?_
    have hmid := runActs_awaits ls _ hk h.quiet hscope1 hbase
    rw [← h.mixed] at hmid
    exact hmid.of_kept (fun hx => by rw [Sent.voice h.sent]; exact hx) (fun hx => by rw [Sent.voice h.sent]; exact hx)
      (Sent.faultKept h.sent k)

end

/-- The conclusion as the statements word it. -/
theorem deviceMuted_of {k : FaultKind} {s t : State}
    (hoff : t.ltu.count.toNat % 64 ≠ 63 → ∀ v, (s.voice v).state = .off → t.voice v = s.voice v)
    (hmuted : t.ltu.count.toNat % 64 ≠ 63 → Mutes k s → ∀ v, Steady (s.voice v) → k ∈ (t.voice v).faults) :
    DeviceMuted k s t := fun hsev hclear hmask h63 v =>
  ⟨hoff h63 v, fun hon hfall hmark hpending =>
    hmuted h63 ⟨hmask, hclear, hsev⟩ v ⟨hon, hmark, hpending, fun e => absurd e hfall⟩⟩

end Sys2Proof.Proofs.DeviceMutes
end

