-- ==== Sys2Proof/Proofs/Silence.lean ====
section
/-! PROOF. Ticks of the local crystal and the loss by silence (O3): the count four on, the declaration, and the phantom
frame behind it. -/

namespace Sys2Proof.Proofs.Silence

open Sys2Proof Sys2Proof.Machine Sys2Proof.Safety Sys2Proof.Proofs.Queues Sys2Proof.Proofs.Traces
  Sys2Proof.Proofs.ActEffects Sys2Proof.Proofs.Occurrences Sys2Proof.Proofs.FrameRuns Sys2Proof.Proofs.LinkParts
  Sys2Proof.Proofs.BlockEnds Sys2Proof.Proofs.Counting Sys2Proof.Proofs.FrameEnds Sys2Proof.Proofs.FrameStarts
  Sys2Proof.Proofs.ResetRows Sys2Proof.Proofs.Ports Sys2Proof.Proofs.BlockTraces Sys2Proof.Proofs.CueFlush
  Sys2Proof.Proofs.Losses Sys2Proof.Proofs.VoicesInFrames Sys2Proof.Proofs.DeviceMutes
  Sys2Proof.Proofs.PhantomFrames

/-! ### A loss and the voices -/

/-- What mutes keep of a voice's record, a loss before its action keeps. -/
theorem lossRaised_voice_keeps {P : Voice → Prop} (hP : ∀ k x inc, P x → P (x.mutedBy k inc)) {s : State} {v : VoiceId}
    (h : P (s.voice v)) : P ((lossRaised s).voice v) := by
  unfold lossRaised
  cases s.assembly.isSome with
  | false =>
    rw [raiseLoss_quiet]
    exact raise_voice_keeps (hP _) _ h
  | true =>
    obtain e | e := raiseLoss_assembling (lossCleared s)
    · rw [e]
      exact raise_voice_keeps (hP _) _ (raise_voice_keeps (hP _) _ h)
    · rw [e]
      exact raise_voice_keeps (hP _) _ (raise_voice_keeps (hP _) _ h)

/-- A loss leaves an OFF voice as it is. -/
theorem lossRaised_off {s : State} {v : VoiceId} (h : (s.voice v).state = .off) : (lossRaised s).voice v = s.voice v :=
  lossRaised_voice_keeps (P := fun x => x = s.voice v) (fun k x inc hx => by rw [hx]; exact mutedBy_off h k inc) rfl

/-- LINK_LOSS mutes every steady voice, whatever CTRL_RUNON does (R151, R159). -/
theorem lossRaised_mutes {s : State} (h : Mutes .linkLoss s) {v : VoiceId} (hv : Steady (s.voice v)) :
    MutedFor .linkLoss ((lossRaised s).voice v) := by
  unfold lossRaised
  cases s.assembly.isSome with
  | false =>
    rw [raiseLoss_quiet]
    exact raise_device_mutes (s := lossCleared s) h hv
  | true =>
    obtain e | e := raiseLoss_assembling (lossCleared s)
    · rw [e]
      have hfault := raise_fault_ne (k := .ctrlRunon) (j := .linkLoss) (by decide) (by decide) .none (lossCleared s).drawn
      refine raise_device_mutes ?_ (raise_voice_keeps (P := Steady) (fun x inc hx => hx.mutedBy _ inc) .none hv)
      unfold Mutes
      rw [hfault]
      exact h
    · rw [e]
      exact raise_voice_keeps (P := MutedFor .linkLoss) (fun x inc hx => hx.mutedBy _ inc) .none
        (raise_device_mutes (s := (lossCleared s).drawn) h hv)

/-- A loss counts occurrences alone. -/
theorem declareLoss_codeKept {code : Nat} (h : code ≠ 13) (s : State) : CodeKept code s (declareLoss s) := by
  have hraised : CodeKept code s (lossRaised s) := by
    unfold lossRaised
    cases s.assembly.isSome with
    | false =>
      rw [raiseLoss_quiet]
      exact raise_codeKept _ _ h (lossCleared s)
    | true =>
      obtain e | e := raiseLoss_assembling (lossCleared s)
      · rw [e]
        exact CodeKept.trans (raise_codeKept _ _ h (lossCleared s).drawn) (raise_codeKept _ _ h _)
      · rw [e]
        exact CodeKept.trans (raise_codeKept _ _ h (lossCleared s).drawn) (raise_codeKept _ _ h _)
  refine hraised.trans (.of_counters ?_)
  rw [declareLoss_eq]
  unfold lossEffect
  split <;> rfl

/-! ### Histories -/

section
variable {ls : LinkState} {xs : Int × Int} {limit : Nat} {ys : List Int} {others blocks : List Task}
  {u u0 u2 u3 t : State} {acts acts' : List Act}
  (h : FrameRan ls xs limit ys others blocks u u0 u2 u3 t acts acts')
  (hcalm : ∀ kind r, Task.request kind r ∉ others) (hblocks : blocks = [] ∨ blocks = [.block .a, .block .b])
include h hcalm hblocks

/-- Each history has the frame's sample, whatever block work follows (R35). -/
theorem FrameRan.history (L : Lead) : (t.lead L).history = withSample xs u L := by
  rcases hblocks with hnone | hboth
  · rw [FrameRan.leads_kept h hcalm hnone L]
  · have hperm : (blocksOf acts').Perm [.a, .b] := by
      have hperm := FrameRan.blocks' h
      rw [hboth] at hperm
      exact hperm
    have hjudged := (runActs_judged ls u3 (FrameRan.calm' h (.inr hboth) hcalm) hperm).1 L
    rw [← h.ended] at hjudged
    rw [hjudged.1, FrameRan.mid_lead h L]

end

/-! ### The loss -/

/-- A loss by silence as it is declared: what was in hand of a frame is gone, the count is four on, the tick counter
stands at 0 (R26, R28). -/
def silenceStart (pins : PedalPins) (s : State) : State :=
  let u := adoptCount (s.ltu.count + 4)
    { s with pedalPins := pins, receiver := { s.receiver with sinceStart := none } }
  { u with ltu := { u.ltu with tick := 0 } }

/-- What the count's change leaves as it was. -/
theorem silenceStart_eq (pins : PedalPins) (s : State) : silenceStart pins s =
    { s with pedalPins := pins, receiver := { s.receiver with sinceStart := none }
             ltu := { s.ltu with count := s.ltu.count + 4, tick := 0 }
             timed := (silenceStart pins s).timed, gateways := (silenceStart pins s).gateways } := by
  have h := adoptCount_eq (s.ltu.count + 4)
    { s with pedalPins := pins, receiver := { s.receiver with sinceStart := none } }
  unfold silenceStart
  simp only
  generalize adoptCount (s.ltu.count + 4)
    { s with pedalPins := pins, receiver := { s.receiver with sinceStart := none } } = u at h
  rw [h]

theorem silenceStart_entered (pins : PedalPins) (s : State) : EnteredCalm pins s (silenceStart pins s) := by
  have h := enteredCalm_adopted (pins := pins) (s := s)
    (v := { s with pedalPins := pins, receiver := { s.receiver with sinceStart := none } }) rfl rfl (s.ltu.count + 4)
  refine ⟨⟨?_, h.cues, fun code hcode => h.codes code hcode⟩, h.voices, h.faults⟩
  have hframe := silenceStart_eq pins s
  generalize silenceStart pins s = u at hframe
  rw [hframe]

/-- A loss without a reset leaves a frame's beginning as one. -/
theorem entered_declareLoss {pins : PedalPins} {s u : State} (h : Entered pins s u)
    (hkeep : u.config.lossAction = .holdover) : Entered pins s (declareLoss u) := by
  have hframe := declareLoss_holdover_frame hkeep
  have hcount : (declareLoss u).ltu.count = u.ltu.count := by
    rw [(declareLoss_link u).1]
    rfl
  have hcodes (code : Nat) (hcode : code ≤ 5) : CodeKept code s (declareLoss u) :=
    (h.codes code hcode).trans (declareLoss_codeKept (by omega) u)
  have hbase := h.frame
  have hcues := h.cues
  simp only at hframe
  generalize declareLoss u = d at hframe hcount hcodes
  refine ⟨?_, ?_, hcodes⟩
  · rw [hframe, hbase]
  · rw [hcount, hframe]
    exact hcues

theorem entered_countPhantom {pins : PedalPins} {s u : State} (h : Entered pins s u) :
    Entered pins s (countEvent .phantom u) := by
  refine ⟨?_, h.cues, fun code hcode => (h.codes code hcode).trans (countEvent_codeKept ?_ _)⟩
  · have hframe := h.frame
    generalize u = w at hframe
    rw [hframe]
    rfl
  · show (12 : Nat) ≠ code
    omega

/-- A loss leaves tables, thresholds and the lane's bytes (R29, R184). -/
structure TablesKept (s t : State) : Prop where
  config : t.config = s.config
  tuning : t.tuning = s.tuning
  maps : t.maps = s.maps
  scenes : t.scenes = s.scenes
  thresholdA : t.thresholdA = s.thresholdA
  thresholdB : t.thresholdB = s.thresholdB
  laneOut : t.laneOut = s.laneOut

theorem TablesKept.trans {s t u : State} (h : TablesKept s t) (k : TablesKept t u) : TablesKept s u :=
  ⟨k.config.trans h.config, k.tuning.trans h.tuning, k.maps.trans h.maps, k.scenes.trans h.scenes,
    k.thresholdA.trans h.thresholdA, k.thresholdB.trans h.thresholdB, k.laneOut.trans h.laneOut⟩

theorem tablesKept_of_onlyEngine {s t : State} (h : OnlyEngine s t) : TablesKept s t :=
  ⟨h.config, h.tuning, h.maps, h.scenes, (congrArg State.thresholdA h.rest :), (congrArg State.thresholdB h.rest :),
    (congrArg State.laneOut h.rest :)⟩

theorem declareLoss_tablesKept (s : State) : TablesKept s (declareLoss s) := by
  have hraised := (lossRaised_spec s).frame
  have hcleared : TablesKept s (lossRaised s) := by
    generalize lossRaised s = r at hraised
    rw [hraised]
    exact ⟨rfl, rfl, rfl, rfl, rfl, rfl, rfl⟩
  refine hcleared.trans ?_
  rw [declareLoss_eq]
  unfold lossEffect
  split <;> exact ⟨rfl, rfl, rfl, rfl, rfl, rfl, rfl⟩

/-- The histories that a loss leaves to its phantom frame (R29). -/
theorem declareLoss_history (s : State) (L : Lead) :
    (s.config.lossAction = .holdover → ((declareLoss s).lead L).history = (s.lead L).history)
      ∧ (s.config.lossAction = .engine → ((declareLoss s).lead L).history = List.replicate 2048 0) := by
  refine ⟨fun h => ?_, fun h => ?_⟩
  · have hframe := declareLoss_holdover_frame h
    simp only at hframe
    rw [hframe]
    cases L <;> rfl
  · rw [declareLoss_engine h]
    cases L <;> rfl

/-- The state that a loss by silence leaves to its phantom frame. -/
structure SilenceDeclared (pins : PedalPins) (s d : State) : Prop where
  ltu : d.ltu = { link := .holdover, count := s.ltu.count + 4, tick := 0, goodRun := 0, badRun := 0 }
  receiver : d.receiver = { s.receiver with sinceStart := none }
  lane : LaneCleared d
  queue : s.outq <+: d.outq
  tables : TablesKept s d
  linkLoss : (s.fault .linkLoss).detectMask = false → (d.fault .linkLoss).status = true
  ctrlRunon : s.assembly ≠ none → (s.fault .ctrlRunon).detectMask = false → (d.fault .ctrlRunon).status = true
  history : ∀ L, (s.config.lossAction = .holdover → (d.lead L).history = (s.lead L).history)
    ∧ (s.config.lossAction = .engine → (d.lead L).history = List.replicate 2048 0)
  phantoms : CodeKept 12 s d
  load : s.config.lossAction = .holdover → d.load = s.load
  entered : s.config.lossAction = .holdover → Entered pins s d
  off : s.config.lossAction = .holdover → ∀ v, (s.voice v).state = .off → d.voice v = s.voice v
  muted : s.config.lossAction = .holdover → Mutes .linkLoss s → ∀ v, Steady (s.voice v) →
    MutedFor .linkLoss (d.voice v)

theorem silenceDeclared (pins : PedalPins) (s : State) :
    SilenceDeclared pins s (declareLoss (silenceStart pins s)) := by
  have hstart := silenceStart_eq pins s
  have hcalm := silenceStart_entered pins s
  generalize silenceStart pins s = c at *
  obtain ⟨hlost, hlane⟩ := declareLoss_link c
  have hfault (k : FaultKind) : c.fault k = s.fault k := EnteredCalm.fault hcalm k
  have hvoice (v : VoiceId) : c.voice v = s.voice v := EnteredCalm.voice hcalm v
  have hassembly : c.assembly = s.assembly := by rw [hstart]
  have hconfig : c.config = s.config := by rw [hstart]
  have hkeep (h : s.config.lossAction = .holdover) : c.config.lossAction = .holdover := by rw [hconfig]; exact h
  refine ⟨?_, ?_, hlane, ?_, ?_, fun h => ?_, fun ha h => ?_, fun L => ?_, ?_, fun h => ?_,
    fun h => entered_declareLoss hcalm.toEntered (hkeep h), fun h v hv => ?_, fun h hmutes v hv => ?_⟩
  · rw [hlost, hstart]
    rfl
  · refine Eq.trans (congrArg State.receiver (declareLoss_linkPart c) :) ?_
    rw [hstart]
    rfl
  · have hq := declareLoss_queue c
    rwa [show c.outq = s.outq by rw [hstart]] at hq
  · refine TablesKept.trans ?_ (declareLoss_tablesKept c)
    rw [hstart]
    exact ⟨rfl, rfl, rfl, rfl, rfl, rfl, rfl⟩
  · exact declareLoss_linkLoss (by rw [hfault]; exact h)
  · exact declareLoss_ctrlRunon (by rw [hassembly]; exact ha) (by rw [hfault]; exact h)
  · have hhist := declareLoss_history c L
    rw [hconfig, Entered.lead hcalm.toEntered] at hhist
    exact hhist
  · exact CodeKept.trans (.of_counters (by rw [hstart])) (declareLoss_codeKept (by decide) c)
  · have hframe := declareLoss_holdover_frame (hkeep h)
    simp only at hframe
    rw [hframe, hstart]
  · rw [declareLoss_holdover (hkeep h), lossRaised_off (by rw [hvoice]; exact hv), hvoice]
  · rw [declareLoss_holdover (hkeep h)]
    refine lossRaised_mutes ?_ (by rw [hvoice]; exact hv)
    unfold Mutes
    rw [hfault]
    exact hmutes

theorem TablesKept.countPhantom {s d : State} (h : TablesKept s d) :
    TablesKept s { countEvent .phantom d with linkOut := none } :=
  ⟨h.config, h.tuning, h.maps, h.scenes, h.thresholdA, h.thresholdB, h.laneOut⟩

/-- The loss and its phantom frame, as the statement tells them. -/
theorem silenceLost_of_declared {pins : PedalPins} {s d : State} (h : SilenceDeclared pins s d) :
    SilenceLost pins s (phantomWork d) := by
  have hlink : d.ltu.link ≠ .locked := by
    rw [h.ltu]
    nofun
  have hone : CountsTimes 12 1 s (countEvent .phantom d) := countsTimes_before h.phantoms (countEvent_once .phantom d)
  obtain ⟨ys, u2, acts, acts', skips, hskips, hran⟩ := phantomWork_ran hlink
  have hcalm := skips_calm hskips
  have hblocks := blockTasks_cases d
  have hengine := FrameRan.onlyEngine hran hcalm hblocks rfl rfl
  have hltu : (phantomWork d).ltu = d.ltu := hengine.ltu
  have htables := (TablesKept.countPhantom h.tables).trans (tablesKept_of_onlyEngine hengine)
  have hgrows := FrameRan.statusGrows hran hcalm hblocks
  have hlimit : d.config.stuckLimit = s.config.stuckLimit := by rw [h.tables.config]
  have hoff (h63 : (phantomWork d).ltu.count.toNat % 64 ≠ 63) : blockTasks d = [] :=
    blockTasks_of_other (by rw [← hltu]; exact h63)
  have hend (h63 : (phantomWork d).ltu.count.toNat % 64 = 63) : blockTasks d = [.block .a, .block .b] :=
    blockTasks_of_end (by rw [← hltu]; exact h63)
  generalize phantomWork d = t at *
  refine ⟨hltu.trans h.ltu, Eq.trans (congrArg State.receiver hengine.rest :) h.receiver,
    ⟨hengine.assembly.trans h.lane.1, hengine.sender.trans h.lane.2.1, hengine.fifo.trans h.lane.2.2⟩,
    h.queue.trans hengine.queue, (congrArg State.linkOut hengine.rest :), fun hmask => (hgrows .linkLoss).1 (h.linkLoss hmask),
    fun ha hmask => (hgrows .ctrlRunon).1 (h.ctrlRunon ha hmask), fun L => ?_,
    htables.config, htables.tuning, htables.maps, htables.scenes, htables.thresholdA, htables.thresholdB,
    htables.laneOut, countsTimes_behind hone (FrameRan.phantomKept hran hcalm hblocks), fun haction => ?_⟩
  · rw [FrameRan.history hran hcalm hblocks L]
    have hsample : withSample (0, 0) (countEvent .phantom d) L = (0 :: (d.lead L).history).take 2048 := by
      cases L <;> rfl
    obtain ⟨hkept, hreset⟩ := h.history L
    rw [hsample]
    cases haction : s.config.lossAction with
    | holdover => rw [hkept haction]
    | engine => rw [hreset haction]
  · have hentered := entered_countPhantom (h.entered haction)
    refine ⟨Eq.trans (congrArg State.load hengine.rest :) (h.load haction),
      FrameRan.leadsJudged hran hentered hcalm hend hoff,
      FrameRan.cuesMoved hran hentered hcalm hlimit (congrArg Ltu.count hltu) hoff,
      deviceMuted_of (fun h63 v hv => ?_) (fun h63 hmutes v hv => ?_), fun l => ?_⟩
    · rw [hoff h63] at hran
      have hd := h.off haction v hv
      exact (FrameRan.off hran hcalm (v := v) (by rw [← hd] at hv; exact hv)).trans hd
    · rw [hoff h63] at hran
      exact (FrameRan.mutedFor hran hcalm (v := v) (h.muted haction hmutes v hv)).2
    · rw [FrameRan.pedal hran hcalm hblocks l, Entered.pedal hentered, Entered.pedalPins hentered, hlimit]

theorem silenceLost {s : State} (pins : PedalPins) : SilenceLost pins s (silenceLoss { s with pedalPins := pins }) :=
  silenceLost_of_declared (silenceDeclared pins s)

/-! ### Ticks and rows -/

theorem exec_lossBySilence {pins : PedalPins} {s : State} (hlow : s.resetLow = false) (hrun : s.ltu.link.running = true) :
    exec (.lossBySilence pins) s = .next (silenceLoss { s with pedalPins := pins }) := by
  refine (whenReleased_of_released hlow _).trans ?_
  rw [if_pos hrun]

/-- Settles O3. -/
theorem ticksMeasureSilence : Obligations.TicksMeasureSilence := by
  refine ⟨fun s hpending hlow => ?_, fun s hlow hrun => ⟨fun pins => ⟨_, exec_lossBySilence hlow hrun, silenceLost pins⟩,
    fun hpending htick => ?_⟩⟩
  · intro noted
    have htick : step s = .next (localTick s) := step_idle hpending
    refine ⟨fun hrun hlt => ?_, fun hstill hlt => ?_, fun hstill heq => ?_⟩
    · rw [htick]
      unfold localTick
      rw [if_neg (by rw [hlow]; exact Bool.false_ne_true), if_pos hrun, if_neg (by unfold Config.silenceTicks; omega)]
      rfl
    · rw [htick]
      unfold localTick
      rw [if_neg (by rw [hlow]; exact Bool.false_ne_true), if_neg (by rw [hstill]; exact Bool.false_ne_true),
        if_neg (by unfold Config.ticksPerFrame; omega)]
      rfl
    · have hphantom : localTick s = phantomWork (adoptCount (s.ltu.count + 1) (phantomStart s.pedalPins s)) := by
        unfold localTick
        rw [if_neg (by rw [hlow]; exact Bool.false_ne_true), if_neg (by rw [hstill]; exact Bool.false_ne_true),
          if_pos (by rw [heq])]
        unfold phantomStart
        rw [heq]
        rfl
      obtain ⟨t, ht, hltu, -⟩ := phantomFrameMade s.pedalPins s hlow hstill
      have hstep : step s = exec (.phantomFrame s.pedalPins) s := by
        rw [htick, hphantom, exec_phantomFrame hlow hstill]
      exact ⟨hstep, t, hstep.trans ht, hltu⟩
  · rw [step_idle hpending, exec_lossBySilence hlow hrun]
    unfold localTick
    rw [if_neg (by rw [hlow]; exact Bool.false_ne_true), if_pos hrun, if_pos (by rw [htick])]
    rfl

end Sys2Proof.Proofs.Silence
end

