-- ==== Sys2Proof/Proofs/FrameOccurrences.lean ====
section
/-! PROOF. The occurrences of a frame (R152): one that is to be taken sets its kind unless masked, and a masked one
leaves its record; an occurrence whose kind reports nothing leaves the outbound queue. -/

namespace Sys2Proof.Proofs.FrameOccurrences

open Sys2Proof Sys2Proof.Machine Sys2Proof.Safety Sys2Proof.Proofs.Occurrences Sys2Proof.Proofs.Traces
  Sys2Proof.Proofs.ActEffects Sys2Proof.Proofs.FrameRuns Sys2Proof.Proofs.FrameEnds Sys2Proof.Proofs.Acts
  Sys2Proof.Proofs.LineWork

section
variable (ls : LinkState) {acts : List Act} (s : State)

/-- An occurrence among calm acts sets its kind unless masked. -/
theorem runActs_sets (hcalm : ∀ a ∈ acts, Act.calm a) {k : FaultKind} {sc : Scope}
    (hocc : Task.occurrence k sc ∈ tasksOf acts) (hmask : (s.fault k).detectMask = false) :
    ((runActs ls acts s).fault k).status = true := by
  obtain ⟨pre, post, rfl⟩ := split_at_task hocc
  have hpre := runActs_statusGrows ls s fun a m => hcalm a (List.mem_append_left _ m)
  have hset : ((raise k sc (runActs ls pre s)).fault k).status = true := by
    obtain ⟨-, hm, -, -⟩ := hpre k
    exact raise_sets k sc _ (hm.trans hmask)
  rw [runActs_append, runActs_cons]
  exact (runActs_statusGrows ls _ (fun a m => hcalm a (List.mem_append_right _ (List.mem_cons_of_mem _ m))) k).1 hset

/-- Acts in which every occurrence of a kind is masked leave its record. -/
theorem runActs_masked {k : FaultKind} (hk : Declared k) (hcalm : ∀ a ∈ acts, Act.calm a)
    (hmask : (s.fault k).detectMask = true) : FaultKept k s (runActs ls acts s) := by
  refine runActs_keeps (P := FaultKept k s) ls acts s (fun a m u hu => ?_) rfl
  by_cases hocc : ∃ sc, a = .task (.occurrence k sc)
  · obtain ⟨sc, rfl⟩ := hocc
    show FaultKept k s (raise k sc u)
    rw [raise_masked k sc u (by rw [hu]; exact hmask)]
    exact hu
  · exact hu.trans (run_faultKept ls u hk (hcalm a m) fun sc e => hocc ⟨sc, e⟩)

end

section
variable {ls : LinkState} {xs : Int × Int} {limit : Nat} {ys : List Int} {others blocks : List Task}
  {u u0 u2 u3 t : State} {acts acts' : List Act}
  (h : FrameRan ls xs limit ys others blocks u u0 u2 u3 t acts acts')
  (hcalm : ∀ kind r, Task.request kind r ∉ others) (hblocks : blocks = [] ∨ blocks = [.block .a, .block .b])
include h hcalm hblocks

/-- An occurrence of the frame sets its kind unless masked. -/
theorem FrameRan.sets {k : FaultKind} {sc : Scope} (hocc : Task.occurrence k sc ∈ others)
    (hmask : (u.fault k).detectMask = false) : (t.fault k).status = true := by
  have hbefore : StatusGrows u (appendSamples xs.1 xs.2 u0) := .of_faults (Sent.faults h.before :)
  have hmid := runActs_statusGrows ls (appendSamples xs.1 xs.2 u0) (FrameRan.calm h)
  rw [← h.mixed] at hmid
  have hcalm' := FrameRan.calm' h hblocks hcalm
  have hmem : Task.occurrence k sc ∈ tasksOf acts ++ tasksOf acts' :=
    h.tasks.mem_iff.2 (List.mem_append_left _ (List.mem_append_left _ hocc))
  obtain ⟨-, hm, -, -⟩ := hbefore k
  rw [h.ended]
  rcases List.mem_append.1 hmem with hmem | hmem
  · have hset := runActs_sets ls (appendSamples xs.1 xs.2 u0) (FrameRan.calm h) hmem (hm.trans hmask)
    rw [← h.mixed] at hset
    exact (StatusGrows.trans (Sent.statusGrows h.sent) (runActs_statusGrows ls u3 hcalm') k).1 hset
  · refine runActs_sets ls u3 hcalm' hmem ?_
    obtain ⟨-, hm', -, -⟩ := StatusGrows.trans hmid (Sent.statusGrows h.sent) k
    exact hm'.trans (hm.trans hmask)

/-- A record of a masked kind stays. -/
theorem FrameRan.masked {k : FaultKind} (hk : Declared k) (hmask : (u.fault k).detectMask = true) :
    t.fault k = u.fault k := by
  have hbefore : (appendSamples xs.1 xs.2 u0).fault k = u.fault k := Sent.faultKept h.before k
  have hmid := runActs_masked ls (appendSamples xs.1 xs.2 u0) hk (FrameRan.calm h)
    (by rw [hbefore]; exact hmask)
  rw [← h.mixed] at hmid
  have hu3 : u3.fault k = u.fault k := Eq.trans (FaultKept.trans hmid (Sent.faultKept h.sent k)) hbefore
  have hend := runActs_masked ls u3 hk (FrameRan.calm' h hblocks hcalm) (by rw [hu3]; exact hmask)
  rw [← h.ended] at hend
  exact Eq.trans hend hu3

end

/-! ### The outbound queue where a kind reports nothing -/

theorem raise_outq_unreported {k : FaultKind} {s : State} (h : (s.fault k).reportMask = true) (sc : Scope) :
    (raise k sc s).outq = s.outq := by
  cases hmask : (s.fault k).detectMask with
  | true => rw [raise_masked k sc s hmask]
  | false =>
    cases hset : (s.fault k).status with
    | true =>
      rw [raise_set hmask hset]
      rfl
    | false => rw [raise_opens hmask hset, if_pos h, opened_outq]

/-- An unmasked kind that is clear reports its occurrence where the queue has room (R155). -/
theorem raise_outq_reported {k : FaultKind} {s : State} (hmask : (s.fault k).detectMask = false)
    (hclear : (s.fault k).status = false) (hreport : (s.fault k).reportMask = false) (hroom : noticeRoom s.outq = true)
    (sc : Scope) : (raise k sc s).outq = s.outq ++ [.notice (faultNotice k sc s)] := by
  have honly := (opened_onlyFaults k sc s).engine
  have hnotice : faultNotice k sc (opened k sc s) = faultNotice k sc s := by
    unfold faultNotice noticeMessage
    rw [honly.nodeAddr, honly.ltu]
  have hopen : noticeRoom (opened k sc s).outq = true := by
    rw [opened_outq]
    exact hroom
  rw [raise_opens hmask hclear, hreport]
  simp only [Bool.false_eq_true, if_false]
  rw [offerNotice_room hopen]
  show (opened k sc s).outq ++ _ = _
  rw [opened_outq, hnotice]

theorem pedalWork_outq_unreported {s : State} (h : (s.fault .pedalStuck).reportMask = true) (limit : Nat) (l : LineId) :
    (pedalWork limit l s).outq = s.outq := by
  obtain ⟨u, w, hu, hw, ht⟩ := pedalWork_parts limit l s
  refine Eq.trans (congrArg State.outq ht.frame :) (Eq.trans ?_ (congrArg State.outq hu.frame :))
  obtain rfl | ⟨L, rfl⟩ := hw
  · rfl
  · exact raise_outq_unreported (by rw [hu.fault]; exact h) _

end Sys2Proof.Proofs.FrameOccurrences
end

