-- ==== Sys2Proof/Proofs/Clips.lean ====
section
/-! PROOF. OUTPUT_CLIP in a frame with no other mute due (R108, R109, R151, R154, R155): whether it occurs, whom it
mutes, and the notice it leaves. -/

namespace Sys2Proof.Proofs.Clips

open Sys2Proof Sys2Proof.Machine Sys2Proof.Safety Sys2Proof.Proofs.VoiceEvents Sys2Proof.Proofs.VoiceFrame
  Sys2Proof.Proofs.Occurrences Sys2Proof.Proofs.Traces Sys2Proof.Proofs.ActEffects Sys2Proof.Proofs.VoicesInFrames
  Sys2Proof.Proofs.FrameRuns Sys2Proof.Proofs.FrameEnds Sys2Proof.Proofs.FrameStarts Sys2Proof.Proofs.Acts
  Sys2Proof.Proofs.SlotSums Sys2Proof.Proofs.DeviceMutes Sys2Proof.Proofs.FrameOccurrences

/-! ### Records behind work and mutes -/

/-- A mute leaves the slot a voice claims. -/
theorem mutedBy_claims (x : Voice) (k : FaultKind) (inc : Nat) : (x.mutedBy k inc).claims = x.claims := by
  obtain ⟨state, _, _, _, _, _, envelope, _, _, _, _, _, _⟩ := x
  cases state with
  | rising => by_cases h : envelope = 0 <;> simp [Voice.mutedBy, Voice.claims, h]
  | sounding => by_cases h : envelope = 0 <;> simp [Voice.mutedBy, Voice.claims, h]
  | off => rfl
  | idle => rfl
  | falling => rfl
  | muted => rfl

theorem fallenOff_kinds {v : VoiceId} {s : State} {k : FaultKind} (h : k ∈ ((fallenOff v s).voice v).faults) :
    k ∈ (s.voice v).faults := by
  rw [fallenOff_voice] at h
  cases h

/-- The end of a fall gives the voice no kind it did not hold. -/
theorem endFall_kinds {v : VoiceId} {s : State} {k : FaultKind} (h : k ∈ ((endFall v s).1.voice v).faults) :
    k ∈ (s.voice v).faults := by
  have placed (y : Voice) (hy : y.faults = (s.voice v).faults) (hs : (endFall v s).1.voice v = y) :
      k ∈ (s.voice v).faults := by rwa [hs, hy] at h
  have gone (hs : (endFall v s).1 = fallenOff v s) : k ∈ (s.voice v).faults := fallenOff_kinds (by rwa [hs] at h)
  have taken (p : Assignment) (hs : endFall v s = takePartAtEnd v p (s.setVoice v (s.voice v).stopped)) :
      k ∈ (s.voice v).faults := by
    cases hslot : s.isLeadSlot p.slot with
    | false =>
      refine placed ((s.voice v).stopped.tookPart p) rfl ?_
      rw [hs, takePartAtEnd_stopped_free hslot]
      exact State.voice_setVoice ..
    | true => exact gone (by rw [hs, takePartAtEnd_stopped_taken hslot])
  cases hd : (s.voice v).dest with
  | idle =>
    refine placed { (s.voice v).stopped with state := .idle } rfl ?_
    rw [endFall_idle hd]
    exact State.voice_setVoice ..
  | off => exact gone (by rw [endFall_off hd])
  | reassign =>
    cases hp : (s.voice v).pendingPart with
    | none =>
      refine placed { (s.voice v).stopped with state := .idle } rfl ?_
      rw [endFall_reassign_none hd hp]
      exact State.voice_setVoice ..
    | some p => exact taken p (endFall_part hp (.inl hd))
  | muted =>
    cases hm : (s.voice v).releaseMark with
    | true => exact gone (by rw [endFall_muted_mark hd hm])
    | false =>
      cases hp : (s.voice v).pendingPart with
      | none =>
        refine placed { (s.voice v).stopped with state := .muted } rfl ?_
        rw [endFall_muted hd hm hp]
        exact State.voice_setVoice ..
      | some p => exact taken p (endFall_part hp (.inr ⟨hd, hm⟩))

theorem endRamp_kinds {v : VoiceId} {s : State} {k : FaultKind} (h : k ∈ ((endRamp v s).1.voice v).faults) :
    k ∈ (s.voice v).faults := by
  cases hstate : (s.voice v).state with
  | rising =>
    rw [endRamp_rising hstate] at h
    split at h <;> exact h
  | falling =>
    by_cases henv : (s.voice v).envelope = 0
    · rw [endRamp_fallen hstate henv] at h
      exact endFall_kinds h
    · rwa [endRamp_running (.inr ⟨hstate, henv⟩)] at h
  | sounding => rwa [endRamp_running (.inl hstate)] at h
  | off => simpa only [endRamp, hstate] using h
  | idle => simpa only [endRamp, hstate] using h
  | muted => simpa only [endRamp, hstate] using h

/-- A voice's own work gives it no kind it did not hold. -/
theorem voiceWork_kinds {v : VoiceId} {s : State} {k : FaultKind}
    (h : k ∈ ((voiceWork v s).state.voice v).faults) : k ∈ (s.voice v).faults := by
  cases hruns : (s.voice v).runs with
  | false => rwa [voiceWork_stands hruns] at h
  | true =>
    cases howner : (s.voice v).owner with
    | none => rwa [voiceWork_unowned howner] at h
    | some L =>
      rw [voiceWork_voice hruns howner] at h
      have hkinds := endRamp_kinds h
      rw [State.voice_setVoice] at hkinds
      obtain ⟨-, -, -, -, -, -, -, -, -, hfaults⟩ :=
        (s.voice v).frame_keeps (s.lead L).history (s.lead L).splicePeriod
      rwa [hfaults] at hkinds

/-- A voice's sample and record behind its work, where the leads have their samples: by record, configuration and
leads alone. -/
theorem voiceWork_reads {s u : State} {xs : Int × Int} {v : VoiceId} (hv : u.voice v = s.voice v)
    (hc : u.config = s.config) (hl : ∀ L, u.lead L = s.lead L) :
    (voiceWork v (appendSamples xs.1 xs.2 u)).sample = voiceSample s xs v
      ∧ (voiceWork v (appendSamples xs.1 xs.2 u)).state.voice v = voiceAfter s xs v := by
  have hvoice : (appendSamples xs.1 xs.2 u).voice v = (appendSamples xs.1 xs.2 s).voice v := hv
  have hconfig : (appendSamples xs.1 xs.2 u).config = (appendSamples xs.1 xs.2 s).config := hc
  obtain ⟨hsample, hrecord⟩ := voiceWork_congr hvoice hconfig fun L => by
    rw [appendSamples_lead, appendSamples_lead, hl, withSample_congr xs (hl L)]
    exact ⟨rfl, rfl⟩
  exact ⟨hsample.trans (voiceWork_sample s xs v), hrecord.trans (voiceWork_after s xs v)⟩

/-! ### The occurrence among acts -/

/-- OUTPUT_CLIP among the things of a frame: at most the one of these voices and this slot. -/
def ClipOf (vs : List VoiceId) (k : Fin 24) (ts : List Task) : Prop :=
  ∀ sc, Task.occurrence .outputClip sc ∈ ts → sc = .voices vs k

/-- The voice's record is `x`, or `x` muted by an OUTPUT_CLIP that has occurred. -/
def ClipAwaits (vs : List VoiceId) (v : VoiceId) (x : Voice) (u : State) : Prop :=
  (u.voice v = x ∧ Mutes .outputClip u)
    ∨ ((u.fault .outputClip).status = true ∧ ∃ inc, u.voice v = if v ∈ vs then x.mutedBy .outputClip inc else x)

/-- OUTPUT_CLIP has occurred, and muted the voice where it is one of these. -/
def ClipTaken (vs : List VoiceId) (v : VoiceId) (x : Voice) (u : State) : Prop :=
  (u.fault .outputClip).status = true ∧ ∃ inc, u.voice v = if v ∈ vs then x.mutedBy .outputClip inc else x

theorem raise_clip_takes {vs : List VoiceId} {k : Fin 24} {v : VoiceId} {x : Voice} {u : State} (hvs : vs.Nodup)
    (hv : u.voice v = x) (hmutes : Mutes .outputClip u) : ClipTaken vs v x (raise .outputClip (.voices vs k) u) := by
  obtain ⟨hmask, hclear, hsev⟩ := hmutes
  have hvoices := raise_voices .outputClip (.voices vs k) u
  rw [if_pos ⟨hmask, hclear⟩] at hvoices
  have hvoice : (raise .outputClip (.voices vs k) u).voice v = (opened .outputClip (.voices vs k) u).voice v :=
    congrArg (·[v]) hvoices
  refine ⟨raise_sets _ _ u hmask, rampIncrement u (u.voice v).owner, ?_⟩
  rw [hvoice, opened_voice_of_mute (fun ws slot e => by cases e; exact hvs) hsev, hv]
  simp [voiceInScope]

section
variable (ls : LinkState) {acts : List Act} (s : State) {vs : List VoiceId} {k : Fin 24} {v : VoiceId} {x : Voice}

/-- Without a voice at work, the record waits for OUTPUT_CLIP alone. -/
theorem runActs_clipAwaits (hquiet : ∀ a ∈ acts, Act.quiet a) (hidle : voicesOf acts = []) (hmute : NoMuteDue s)
    (hvs : vs.Nodup) (hclip : ClipOf vs k (tasksOf acts)) (h : ClipAwaits vs v x s) :
    ClipAwaits vs v x (runActs ls acts s) := by
  refine (runActs_keeps (P := fun u => StatusGrows s u ∧ ClipAwaits vs v x u) ls acts s (fun a m u hu => ?_)
    ⟨.refl s, h⟩).2
  obtain ⟨hgrows, hu⟩ := hu
  have hstep := run_statusGrows ls u (hquiet a m).calm
  refine ⟨StatusGrows.trans hgrows hstep, ?_⟩
  have hne : a ≠ .voice v := fun e => by
    have hmem : v ∈ voicesOf acts := mem_voicesOf.2 (e ▸ m)
    rw [hidle] at hmem
    cases hmem
  have hunmuted := noMuteDue_grows hmute hgrows
  obtain ⟨hv, hopen⟩ | ⟨hset, hv⟩ := hu
  · by_cases hocc : ∃ sc, a = .task (.occurrence .outputClip sc)
    · obtain ⟨sc, rfl⟩ := hocc
      obtain rfl := hclip sc (mem_tasksOf.2 m)
      exact .inr (raise_clip_takes hvs hv hopen)
    · have hnone : ∀ sc, a ≠ .task (.occurrence .outputClip sc) := fun sc e => hocc ⟨sc, e⟩
      refine .inl ⟨(run_voice_unmuted ls u (hquiet a m) hne hunmuted (.inl hnone)).trans hv, ?_⟩
      unfold Mutes
      rw [run_faultKept ls u ⟨by decide, by decide, by decide⟩ (hquiet a m).calm hnone]
      exact hopen
  · refine .inr ⟨(hstep .outputClip).1 hset, ?_⟩
    rw [run_voice_unmuted ls u (hquiet a m) hne hunmuted
      (.inr fun hm => Bool.false_ne_true (hm.2.1.symm.trans hset))]
    exact hv

end

/-! ### Its notice -/

/-- No kind but OUTPUT_CLIP reports (R152). -/
def ClipReports (s : State) : Prop := ∀ k, (s.fault k).reportMask = decide (k ≠ .outputClip)

theorem ClipReports.grows {s t : State} (h : ClipReports s) (e : StatusGrows s t) : ClipReports t := fun k => by
  obtain ⟨-, -, hreport, -⟩ := e k
  exact hreport.trans (h k)

theorem ClipReports.unreported {s : State} (h : ClipReports s) {k : FaultKind} (hk : k ≠ .outputClip) :
    (s.fault k).reportMask = true := by
  rw [h k]
  exact decide_eq_true hk

/-- The outbound queue is empty, or holds the notice of an OUTPUT_CLIP that has occurred. -/
def NoticeAwaits (m : Message) (u : State) : Prop :=
  (u.outq = [] ∧ (u.fault .outputClip).detectMask = false ∧ (u.fault .outputClip).status = false)
    ∨ (u.outq = [.notice m] ∧ (u.fault .outputClip).status = true)

section
variable (ls : LinkState) {acts : List Act} (s : State) {vs : List VoiceId} {k : Fin 24}

/-- An act without an OUTPUT_CLIP that has a transition leaves the queue. -/
theorem run_outq_unreported {a : Act} (hquiet : Act.quiet a) (hreports : ClipReports s)
    (hclip : (∀ sc, a ≠ .task (.occurrence .outputClip sc)) ∨ (s.fault .outputClip).status = true) :
    (a.run ls s).outq = s.outq := by
  cases a with
  | draw => rfl
  | voice w =>
    show (voiceWork w s).state.outq = s.outq
    rw [(voiceWork_frame w s).1]
  | task t =>
    cases t with
    | request kind r => exact hquiet.elim
    | block L => exact hquiet.elim
    | relayed => rfl
    | pedal l limit => exact pedalWork_outq_unreported (hreports.unreported (by decide)) limit l
    | occurrence j sc =>
      by_cases hj : j = .outputClip
      · subst hj
        have hset := hclip.resolve_left fun h => h sc rfl
        show (raise .outputClip sc s).outq = s.outq
        cases hmask : (s.fault .outputClip).detectMask with
        | true => rw [raise_masked _ sc s hmask]
        | false =>
          rw [raise_set hmask hset]
          rfl
      · exact raise_outq_unreported (hreports.unreported hj) sc

theorem runActs_noticeAwaits (hquiet : ∀ a ∈ acts, Act.quiet a) (hreports : ClipReports s)
    (hclip : ClipOf vs k (tasksOf acts)) (h : NoticeAwaits (faultNotice .outputClip (.voices vs k) s) s) :
    NoticeAwaits (faultNotice .outputClip (.voices vs k) s) (runActs ls acts s) := by
  refine (runActs_keeps (P := fun u => StatusGrows s u ∧ OnlyEngine s u
    ∧ NoticeAwaits (faultNotice .outputClip (.voices vs k) s) u) ls acts s (fun a m u hu => ?_)
    ⟨.refl s, .refl s, h⟩).2.2
  obtain ⟨hgrows, hengine, hu⟩ := hu
  have hstep := run_statusGrows ls u (hquiet a m).calm
  refine ⟨StatusGrows.trans hgrows hstep, hengine.trans (run_onlyEngine ls u (hquiet a m).calm), ?_⟩
  have hreports' := hreports.grows hgrows
  obtain ⟨hq, hmask, hclear⟩ | ⟨hq, hset⟩ := hu
  · by_cases hocc : ∃ sc, a = .task (.occurrence .outputClip sc)
    · obtain ⟨sc, rfl⟩ := hocc
      obtain rfl := hclip sc (mem_tasksOf.2 m)
      have hnotice : faultNotice .outputClip (.voices vs k) u = faultNotice .outputClip (.voices vs k) s := by
        unfold faultNotice noticeMessage
        rw [hengine.nodeAddr, hengine.ltu]
      refine .inr ⟨?_, raise_sets _ _ u hmask⟩
      have hqueue := raise_outq_reported hmask hclear (by rw [hreports' .outputClip]; rfl) (by rw [hq]; rfl)
        (.voices vs k)
      rw [hq, hnotice] at hqueue
      exact hqueue
    · have hnone : ∀ sc, a ≠ .task (.occurrence .outputClip sc) := fun sc e => hocc ⟨sc, e⟩
      have hfault := run_faultKept (k := .outputClip) ls u ⟨by decide, by decide, by decide⟩ (hquiet a m).calm hnone
      refine .inl ⟨(run_outq_unreported ls u (hquiet a m) hreports' (.inl hnone)).trans hq, ?_, ?_⟩
      · rw [hfault]
        exact hmask
      · rw [hfault]
        exact hclear
  · exact .inr ⟨(run_outq_unreported ls u (hquiet a m) hreports' (.inr hset)).trans hq, (hstep .outputClip).1 hset⟩

end

end Sys2Proof.Proofs.Clips
end

