-- ==== Sys2Proof/Proofs/ClipFrames.lean ====
section
/-! PROOF. OUTPUT_CLIP from a frame's beginning to its end, as the statements speak of it (R107 to R109, R151 to
R155). -/

namespace Sys2Proof.Proofs.ClipFrames

open Sys2Proof Sys2Proof.Machine Sys2Proof.Safety Sys2Proof.Proofs.Occurrences Sys2Proof.Proofs.Traces
  Sys2Proof.Proofs.ActEffects Sys2Proof.Proofs.VoicesInFrames Sys2Proof.Proofs.FrameRuns Sys2Proof.Proofs.FrameEnds
  Sys2Proof.Proofs.FrameStarts Sys2Proof.Proofs.Acts Sys2Proof.Proofs.SlotSums Sys2Proof.Proofs.DeviceMutes
  Sys2Proof.Proofs.FrameOccurrences Sys2Proof.Proofs.Clips Sys2Proof.Proofs.Outgoing

/-! ### The occurrence that is to be taken -/

theorem mem_clipTask {ls : LinkState} {w : State} {ks : List (Fin 24)} {x : Task} : x ∈ clipTask ls w ks ↔
    ls = .locked ∧ ks ≠ [] ∧ x = .occurrence .outputClip (.voices (voicesOn w ks) (ks.headD 0)) := by
  cases ks with
  | nil => exact ⟨nofun, fun h => absurd rfl h.2.1⟩
  | cons k rest =>
    unfold clipTask
    by_cases h : ls = .locked
    · simp [h]
    · simp [h]

theorem mem_voicesOn {w : State} {ks : List (Fin 24)} {v : VoiceId} :
    v ∈ voicesOn w ks ↔ ∃ k ∈ ks, (w.voice v).claims = some k := by
  unfold voicesOn
  rw [List.mem_filter]
  cases h : (w.voice v).claims with
  | none => simp
  | some k => simp [VoiceLaws.mem_allVoices]

theorem voicesOn_nodup (w : State) (ks : List (Fin 24)) : (voicesOn w ks).Nodup := allVoices_nodup.filter _

/-- The first clipped slot is the lowest. -/
theorem clippedSlots_lowest {cs : List (Option (Fin 24))} {ys : List Int} {k : Fin 24}
    (h : k ∈ clippedSlots cs ys) (hlow : ∀ j, j < k → j ∉ clippedSlots cs ys) : (clippedSlots cs ys).headD 0 = k := by
  have hsorted : (clippedSlots cs ys).Pairwise (· < ·) :=
    List.Pairwise.filter _ (show allSlots.Pairwise (· < ·) by decide)
  cases hks : clippedSlots cs ys with
  | nil =>
    rw [hks] at h
    cases h
  | cons j rest =>
    rw [hks] at h hlow hsorted
    rcases List.mem_cons.1 h with e | hrest
    · exact e.symm
    · exact absurd List.mem_cons_self (hlow j ((List.pairwise_cons.1 hsorted).1 k hrest))

/-- The place of a voice's work, where behind the front none works. -/
theorem sampled_front {ls : LinkState} {front back : List Act} {s : State} {ys : List Int} {v : VoiceId}
    (hidle : voicesOf back = []) (h : Sampled ls (front ++ back) s ys v) : Sampled ls front s ys v := by
  obtain ⟨pre, post, e, hy⟩ := h
  rcases List.append_eq_append_iff.1 e with ⟨mid, hpre, hback⟩ | ⟨mid, hfront, hpost⟩
  · have hmem : v ∈ voicesOf back := mem_voicesOf.2 (by rw [hback]; simp)
    rw [hidle] at hmem
    cases hmem
  · cases mid with
    | nil =>
      have hmem : v ∈ voicesOf back := mem_voicesOf.2 (by
        rw [List.nil_append] at hpost
        rw [← hpost]
        exact List.mem_cons_self)
      rw [hidle] at hmem
      cases hmem
    | cons b mid =>
      obtain ⟨rfl, -⟩ := List.cons_eq_cons.1 hpost
      exact ⟨pre, mid, hfront, hy⟩

/-! ### A frame whose OUTPUT_CLIP comes behind its voices' work -/

/-- The voices work first, with no OUTPUT_CLIP among them; it is the last thing the audio brings. -/
structure ClipsLast (ls : LinkState) (xs : Int × Int) (ys : List Int) (u u0 : State) (acts front back : List Act)
    (others rest : List Task) : Prop where
  split : acts = front ++ back
  idle : voicesOf back = []
  before : ∀ sc, Task.occurrence .outputClip sc ∉ tasksOf front
  last : ∀ x, x ∈ others ↔ x ∈ rest
    ∨ x ∈ clipTask ls (runActs ls front (appendSamples xs.1 xs.2 u0)) (clippedSlots (claims u) ys)
  rest : ∀ sc, Task.occurrence .outputClip sc ∉ rest

section
variable {ls : LinkState} {xs : Int × Int} {limit : Nat} {ys : List Int} {others blocks rest : List Task}
  {u u0 u2 u3 t : State} {acts acts' front back : List Act} {pins : PedalPins} {s : State}
  (h : FrameRan ls xs limit ys others blocks u u0 u2 u3 t acts acts') (hs : EnteredCalm pins s u)
  (hc : ClipsLast ls xs ys u u0 acts front back others rest) (hmute : NoMuteDue s)

section
include h hs

theorem base_lead (L : Lead) : u0.lead L = s.lead L :=
  (Sent.lead h.before L).trans (Entered.lead hs.toEntered L)

theorem base_config : u0.config = s.config := (Sent.config h.before).trans (Entered.config hs.toEntered)

theorem base_voice (v : VoiceId) : u0.voice v = s.voice v :=
  (Sent.voice h.before v).trans (EnteredCalm.voice hs v)

theorem base_fault (k : FaultKind) : (appendSamples xs.1 xs.2 u0).fault k = s.fault k :=
  Eq.trans (Sent.faultKept h.before k :) (EnteredCalm.fault hs k)

theorem base_statusGrows : StatusGrows s (appendSamples xs.1 xs.2 u0) :=
  .of_faults (Eq.trans (Sent.faults h.before :) hs.faults)

end

omit hs in
section
include h hc

theorem front_quiet : ∀ a ∈ front, Act.quiet a := fun a m => h.quiet a (by rw [hc.split]; exact List.mem_append_left _ m)

theorem back_quiet : ∀ a ∈ back, Act.quiet a := fun a m => h.quiet a (by rw [hc.split]; exact List.mem_append_right _ m)

theorem front_worked : (voicesOf front).Perm allVoices := by
  have hworked := h.worked
  rw [hc.split, voicesOf_append, hc.idle, List.append_nil] at hworked
  exact hworked

end

include h hs hc hmute

/-- Each sample is the one the statements speak of (R107). -/
theorem sample_told (v : VoiceId) : ys.getD v.val 0 = voiceSample s xs v := by
  have hsampled := h.sampled v
  rw [hc.split] at hsampled
  rw [sample_unmuted ls _ (front_quiet h hc) (front_worked h hc) (noMuteDue_grows hmute (base_statusGrows h hs))
    (.inl hc.before) (sampled_front hc.idle hsampled)]
  exact (voiceWork_reads (base_voice h hs v) (base_config h hs) (base_lead h hs)).1

/-- And each record behind the voices' work. -/
theorem record_told (v : VoiceId) :
    (runActs ls front (appendSamples xs.1 xs.2 u0)).voice v = voiceAfter s xs v := by
  rw [runActs_voice_works ls _ (front_quiet h hc) (front_worked h hc) (noMuteDue_grows hmute (base_statusGrows h hs))
    (.inl hc.before)]
  exact (voiceWork_reads (base_voice h hs v) (base_config h hs) (base_lead h hs)).2

omit h hc hmute in
theorem claims_told : claims u = claims s := by
  unfold claims
  simp only [EnteredCalm.voice hs]

theorem sum_told (k : Fin 24) : slotSum (claims u) ys k = slotTotal s xs k := by
  rw [claims_told hs]
  exact slotSum_total s xs h.size (sample_told h hs hc hmute) k

theorem clipped_told (k : Fin 24) : k ∈ clippedSlots (claims u) ys ↔ Clips s xs k := by
  rw [claims_told hs]
  refine mem_clippedSlots (fun j => ?_) k
  rw [← claims_told hs]
  exact sum_told h hs hc hmute j

/-- OUTPUT_CLIP is to be taken in LOCKED alone, where a slot clips. -/
theorem clip_occurs : (∃ sc, Task.occurrence .outputClip sc ∈ others) ↔ ls = .locked ∧ ∃ k, Clips s xs k := by
  constructor
  · rintro ⟨sc, m⟩
    obtain ⟨hls, hne, -⟩ := mem_clipTask.1 (((hc.last _).1 m).resolve_left (hc.rest sc))
    obtain ⟨k, hk⟩ := List.exists_mem_of_ne_nil _ hne
    exact ⟨hls, k, (clipped_told h hs hc hmute k).1 hk⟩
  · rintro ⟨hls, k, hk⟩
    have hmem := (clipped_told h hs hc hmute k).2 hk
    exact ⟨_, (hc.last _).2 (.inr (mem_clipTask.2 ⟨hls, List.ne_nil_of_mem hmem, rfl⟩))⟩

/-- OUTPUT_CLIP behind the frame (R109, R152). -/
theorem clip_status (hcalm : ∀ kind r, Task.request kind r ∉ others)
    (hblocks : blocks = [] ∨ blocks = [.block .a, .block .b]) :
    (t.fault .outputClip).status = true ↔ (s.fault .outputClip).status = true
      ∨ ((s.fault .outputClip).detectMask = false ∧ ls = .locked ∧ ∃ k, Clips s xs k) := by
  have hdeclared : Declared .outputClip := ⟨by decide, by decide, by decide⟩
  have hoccurs := clip_occurs h hs hc hmute
  have hfault := EnteredCalm.fault hs .outputClip
  by_cases hocc : ∃ sc, Task.occurrence .outputClip sc ∈ others
  · cases hmask : (s.fault .outputClip).detectMask with
    | true =>
      rw [FrameRan.masked h hcalm hblocks hdeclared (by rw [hfault]; exact hmask), hfault]
      simp
    | false =>
      obtain ⟨sc, m⟩ := hocc
      have hset := FrameRan.sets h hcalm hblocks m (by rw [hfault]; exact hmask)
      exact ⟨fun _ => .inr ⟨rfl, hoccurs.1 ⟨sc, m⟩⟩, fun _ => hset⟩
  · rw [FrameRan.faultKept h hcalm hblocks hdeclared (fun sc m => hocc ⟨sc, m⟩), hfault]
    exact ⟨.inl, fun hor => hor.resolve_right fun hclip => hocc (hoccurs.2 hclip.2)⟩

omit h hs hmute in
/-- Whatever OUTPUT_CLIP is taken in the frame is the one its audio brought. -/
theorem clip_of {ts : List Task} (hts : ∀ sc, Task.occurrence .outputClip sc ∈ ts → Task.occurrence .outputClip sc ∈ others) :
    ClipOf (voicesOn (runActs ls front (appendSamples xs.1 xs.2 u0)) (clippedSlots (claims u) ys))
      ((clippedSlots (claims u) ys).headD 0) ts := by
  intro sc m
  obtain ⟨-, -, e⟩ := mem_clipTask.1 (((hc.last _).1 (hts sc m)).resolve_left (hc.rest sc))
  cases e
  rfl

/-! ### Off a block end -/

section
variable (hcalm : ∀ kind r, Task.request kind r ∉ others) (hblocks : blocks = []) (hls : ls = .locked)
  (hclear : (s.fault .outputClip).status = false) (hmask : (s.fault .outputClip).detectMask = false)
include hcalm hblocks

omit hs hc hmute hcalm in
theorem taken_of_acts {sc : Scope} (m : Task.occurrence .outputClip sc ∈ tasksOf acts
    ∨ Task.occurrence .outputClip sc ∈ tasksOf acts') :
    Task.occurrence .outputClip sc ∈ others := by
  rcases FrameRan.task_mem h (.inl hblocks) m with hx | hx | hx | ⟨l, hx⟩
  · exact hx
  all_goals cases hx

omit hs hcalm hmute in
theorem clip_of_back : ClipOf (voicesOn (runActs ls front (appendSamples xs.1 xs.2 u0)) (clippedSlots (claims u) ys))
    ((clippedSlots (claims u) ys).headD 0) (tasksOf back) :=
  clip_of hc fun _ m => taken_of_acts h hblocks (.inl (by rw [hc.split, tasksOf_append]; exact List.mem_append_right _ m))

omit hs hcalm hmute in
theorem clip_of_end : ClipOf (voicesOn (runActs ls front (appendSamples xs.1 xs.2 u0)) (clippedSlots (claims u) ys))
    ((clippedSlots (claims u) ys).headD 0) (tasksOf acts') :=
  clip_of hc fun _ m => taken_of_acts h hblocks (.inr m)

include hclear hmask

omit hmute hcalm hblocks hclear hmask in
/-- OUTPUT_CLIP's record behind the voices' work is the one before. -/
theorem clip_open : ((runActs ls front (appendSamples xs.1 xs.2 u0)).fault .outputClip) = s.fault .outputClip := by
  have hkept := runActs_faultKept (k := .outputClip) ls (appendSamples xs.1 xs.2 u0) ⟨by decide, by decide, by decide⟩
    (fun a m => (front_quiet h hc a m).calm) hc.before
  exact Eq.trans hkept (base_fault h hs _)

/-- A voice's record behind the frame: as its work leaves it, or muted by an OUTPUT_CLIP that has occurred. -/
theorem clip_awaits (hsev : (s.fault .outputClip).severity = .mute) (v : VoiceId) :
    ClipAwaits (voicesOn (runActs ls front (appendSamples xs.1 xs.2 u0)) (clippedSlots (claims u) ys)) v
      (voiceAfter s xs v) t := by
  have hgrows0 := base_statusGrows h hs
  have hgrows1 := StatusGrows.trans hgrows0
    (runActs_statusGrows ls _ fun a m => (front_quiet h hc a m).calm)
  have hgrows2 := runActs_statusGrows ls (appendSamples xs.1 xs.2 u0) (FrameRan.calm h)
  rw [← h.mixed] at hgrows2
  have hgrows3 := StatusGrows.trans hgrows0 (StatusGrows.trans hgrows2 (Sent.statusGrows h.sent))
  have hstart : ClipAwaits (voicesOn (runActs ls front (appendSamples xs.1 xs.2 u0)) (clippedSlots (claims u) ys)) v
      (voiceAfter s xs v) (runActs ls front (appendSamples xs.1 xs.2 u0)) := by
    refine .inl ⟨record_told h hs hc hmute v, ?_⟩
    unfold Mutes
    rw [clip_open h hs hc]
    exact ⟨hmask, hclear, hsev⟩
  have hmid := runActs_clipAwaits ls _ (back_quiet h hc) hc.idle (noMuteDue_grows hmute hgrows1)
    (voicesOn_nodup _ _) (clip_of_back h hc hblocks) hstart
  rw [← runActs_append, ← hc.split, ← h.mixed] at hmid
  have hsent : ClipAwaits (voicesOn (runActs ls front (appendSamples xs.1 xs.2 u0)) (clippedSlots (claims u) ys)) v
      (voiceAfter s xs v) u3 := by
    unfold ClipAwaits Mutes at *
    rw [Sent.voice h.sent, show u3.fault .outputClip = u2.fault .outputClip from Sent.faultKept h.sent _]
    exact hmid
  rw [h.ended]
  exact runActs_clipAwaits ls u3 (FrameRan.quiet' h hcalm hblocks) h.idle (noMuteDue_grows hmute hgrows3)
    (voicesOn_nodup _ _) (clip_of_end h hc hblocks) hsent

include hls

/-- Whom OUTPUT_CLIP mutes (R109, R154). -/
theorem clip_mutes (hsev : (s.fault .outputClip).severity = .mute)
    (hnone : ∀ v, .outputClip ∉ (s.voice v).faults) (v : VoiceId) :
    .outputClip ∈ (t.voice v).faults ↔ ∃ k, Clips s xs k ∧ (t.voice v).claims = some k := by
  have hwork : FaultKind.outputClip ∉ (voiceAfter s xs v).faults := fun m =>
    hnone v (voiceWork_kinds m :)
  have hon : v ∈ voicesOn (runActs ls front (appendSamples xs.1 xs.2 u0)) (clippedSlots (claims u) ys) ↔
      ∃ k, Clips s xs k ∧ (voiceAfter s xs v).claims = some k := by
    rw [mem_voicesOn, record_told h hs hc hmute]
    simp only [clipped_told h hs hc hmute]
  have hstatus := clip_status h hs hc hmute hcalm (.inl hblocks)
  rcases clip_awaits h hs hc hmute hcalm hblocks hclear hmask hsev v with ⟨hv, hopen⟩ | ⟨hset, inc, hv⟩
  · rw [hv]
    refine ⟨fun m => absurd m hwork, fun ⟨k, hk, _⟩ => ?_⟩
    have hset := hstatus.2 (.inr ⟨hmask, hls, k, hk⟩)
    exact absurd (hopen.2.1.symm.trans hset) Bool.false_ne_true
  · by_cases hmem : v ∈ voicesOn (runActs ls front (appendSamples xs.1 xs.2 u0)) (clippedSlots (claims u) ys)
    · rw [if_pos hmem] at hv
      obtain ⟨k, hk, hclaims⟩ := hon.1 hmem
      have hlive : (voiceAfter s xs v).state ≠ .off := fun e => by
        unfold Voice.claims at hclaims
        rw [e] at hclaims
        cases hclaims
      rw [hv, mutedBy_faults hlive, mutedBy_claims]
      exact ⟨fun _ => ⟨k, hk, hclaims⟩, fun _ => (mem_addFault _ _ _).2 (.inr rfl)⟩
    · rw [if_neg hmem] at hv
      rw [hv]
      exact ⟨fun m => absurd m hwork, fun he => absurd (hon.2 he) hmem⟩

/-- The notice that OUTPUT_CLIP leaves where no other kind reports (R155). -/
theorem clip_notice (hreports : ClipReports s) (hempty : u0.outq = [])
    (hlane : (u2.outq = [] ∨ ∃ m, u2.outq = [.notice m]) → u3.outq = u2.outq) (hltu : t.ltu = u0.ltu)
    (haddr : u0.nodeAddr = s.nodeAddr) {k : Fin 24} (hk : Clips s xs k) (hlow : ∀ j, j < k → ¬Clips s xs j) :
    t.outq = [.notice { dest := 0, source := s.nodeAddr, kind := 0x60, tag := 0
                        body := [12, BitVec.ofNat 8 k.val] ++ bytes4 t.ltu.count }] := by
  have hfirst : (clippedSlots (claims u) ys).headD 0 = k :=
    clippedSlots_lowest ((clipped_told h hs hc hmute k).2 hk)
      fun j hj m => hlow j hj ((clipped_told h hs hc hmute j).1 m)
  have hclips := clip_of_back h hc hblocks
  have hclips' := clip_of_end h hc hblocks
  rw [hfirst] at hclips hclips'
  generalize voicesOn (runActs ls front (appendSamples xs.1 xs.2 u0)) (clippedSlots (claims u) ys) = vs at hclips hclips'
  have hgrows0 := base_statusGrows h hs
  have hgrows2 := StatusGrows.trans hgrows0 (runActs_statusGrows ls (appendSamples xs.1 xs.2 u0) (FrameRan.calm h))
  have hengine2 := runActs_onlyEngine ls (appendSamples xs.1 xs.2 u0) (FrameRan.calm h)
  rw [← h.mixed] at hgrows2 hengine2
  have hall : ClipOf vs k (tasksOf acts) := fun sc m => by
    rw [hc.split, tasksOf_append] at m
    exact (List.mem_append.1 m).elim (fun m => absurd m (hc.before sc)) fun m => hclips sc m
  have hbase : NoticeAwaits (faultNotice .outputClip (.voices vs k) (appendSamples xs.1 xs.2 u0))
      (appendSamples xs.1 xs.2 u0) :=
    .inl ⟨hempty, by rw [base_fault h hs]; exact hmask, by rw [base_fault h hs]; exact hclear⟩
  have hmid := runActs_noticeAwaits ls (appendSamples xs.1 xs.2 u0) h.quiet (hreports.grows hgrows0) hall hbase
  rw [← h.mixed] at hmid
  have hnotice : faultNotice .outputClip (.voices vs k) u3 =
      faultNotice .outputClip (.voices vs k) (appendSamples xs.1 xs.2 u0) := by
    have haddr3 : u3.nodeAddr = u2.nodeAddr := by rw [h.sent.frame]
    unfold faultNotice noticeMessage
    rw [Sent.ltu h.sent, haddr3, hengine2.ltu, hengine2.nodeAddr]
  have hsent : NoticeAwaits (faultNotice .outputClip (.voices vs k) u3) u3 := by
    rw [hnotice]
    unfold NoticeAwaits at *
    rw [hlane (hmid.imp And.left fun hm => ⟨_, hm.1⟩),
      show u3.fault .outputClip = u2.fault .outputClip from Sent.faultKept h.sent _]
    exact hmid
  have hend := runActs_noticeAwaits ls u3 (FrameRan.quiet' h hcalm hblocks)
    (hreports.grows (StatusGrows.trans hgrows2 (Sent.statusGrows h.sent))) hclips' hsent
  rw [← h.ended] at hend
  have hset := (clip_status h hs hc hmute hcalm (.inl hblocks)).2 (.inr ⟨hmask, hls, k, hk⟩)
  obtain ⟨hq, -⟩ := hend.resolve_left fun hopen => Bool.false_ne_true (hopen.2.2.symm.trans hset)
  rw [hq, hnotice, hltu, ← haddr]
  rfl

end

/-- OUTPUT_CLIP of a frame, as the statements speak of it. -/
theorem clipRaised (hcalm : ∀ kind r, Task.request kind r ∉ others)
    (hblocks : blocks = [] ∨ blocks = [.block .a, .block .b]) (hoff : t.ltu.count.toNat % 64 ≠ 63 → blocks = [])
    (hltu : t.ltu = u0.ltu) (haddr : u0.nodeAddr = s.nodeAddr) (hempty : s.outq = [] → u0.outq = [])
    (hlane : s.sender = .none → (u2.outq = [] ∨ ∃ m, u2.outq = [.notice m]) → u3.outq = u2.outq) :
    ClipRaised ls xs s t := by
  refine ⟨clip_status h hs hc hmute hcalm hblocks, fun hls hclear hmask h63 => ⟨fun hsev hnone v => ?_,
    fun hreports hq hsender k hk hlow => ?_⟩⟩
  · exact clip_mutes h hs hc hmute hcalm (hoff h63) hls hclear hmask hsev hnone v
  · exact clip_notice h hs hc hmute hcalm (hoff h63) hls hclear hmask hreports (hempty hq) (hlane hsender) hltu haddr
      hk hlow

end

end Sys2Proof.Proofs.ClipFrames
end

