-- ==== Sys2Proof/Proofs/BadFrameRuns.lean ====
section
/-! PROOF. A bad frame in a running state as acts (R9, R14, R25, R168): its beginning, its occurrences, and the frame
whole before the loss that an eighth in a row brings. -/

namespace Sys2Proof.Proofs.BadFrameRuns

open Sys2Proof Sys2Proof.Machine Sys2Proof.Safety Sys2Proof.Proofs.Queues Sys2Proof.Proofs.Traces
  Sys2Proof.Proofs.ActEffects Sys2Proof.Proofs.Occurrences Sys2Proof.Proofs.FrameRuns Sys2Proof.Proofs.LinkParts
  Sys2Proof.Proofs.BlockEnds Sys2Proof.Proofs.Counting Sys2Proof.Proofs.FrameEnds Sys2Proof.Proofs.FrameStarts
  Sys2Proof.Proofs.Ports Sys2Proof.Proofs.LaneAssembly Sys2Proof.Proofs.VoicesInFrames Sys2Proof.Proofs.SlotSums
  Sys2Proof.Proofs.StandingFrames Sys2Proof.Proofs.PhantomFrames Sys2Proof.Proofs.ClipFrames

/-- The state of a bad frame at its audio: the count adopted, its lane taken as a gap. -/
def badEntered (s : State) : State := (gapFrame (badLinked s)).1

/-- FRAME_CHECK, and CTRL_RUNON at the ninth gap (R3, R169). -/
def badOccurrences (s : State) : List Task :=
  [.occurrence .frameCheck .device] ++ occurrences (if (gapFrame (badLinked s)).2 then [.ctrlRunon] else [])

theorem badLinked_eq (s : State) : badLinked s = adoptCount (s.ltu.count + 1) { s with ltu := s.ltu.afterBad } := rfl

/-- The Link Timing Unit of a bad frame, whatever the count held (R18, R23, R24). -/
theorem badLinked_link (pins : PedalPins) (s : State) : badLinked { s with pedalPins := pins } =
    { s with pedalPins := pins, ltu := { s.ltu.afterBad with count := s.ltu.count + 1 }
             timed := (badLinked { s with pedalPins := pins }).timed
             gateways := (badLinked { s with pedalPins := pins }).gateways } := by
  have h := adoptCount_eq (s.ltu.count + 1) { s with pedalPins := pins, ltu := s.ltu.afterBad }
  rw [badLinked_eq]
  show adoptCount (s.ltu.count + 1) { s with pedalPins := pins, ltu := s.ltu.afterBad } = _
  generalize adoptCount (s.ltu.count + 1) { s with pedalPins := pins, ltu := s.ltu.afterBad } = u at h ⊢
  rw [h]

/-- A gap touches assembly and sender alone (R168, R169). -/
theorem gapFrame_frame (s : State) :
    (gapFrame s).1 = { s with assembly := (gapFrame s).1.assembly, sender := (gapFrame s).1.sender } := by
  cases h : s.assembly with
  | none => rw [gapFrame_empty h]
  | some a =>
    by_cases hgap : a.gap < 8
    · rw [gapFrame_short h hgap]
    · rw [gapFrame_long h (Nat.le_of_not_lt hgap)]
      rfl

theorem badEntered_calm (pins : PedalPins) (s : State) :
    EnteredCalm pins s (badEntered { s with pedalPins := pins }) := by
  have h := enteredCalm_adopted (pins := pins) (s := s) (v := { s with pedalPins := pins, ltu := s.ltu.afterBad }) rfl
    rfl (s.ltu.count + 1)
  have hgap := gapFrame_frame (badLinked { s with pedalPins := pins })
  have hlinked : EnteredCalm pins s (badLinked { s with pedalPins := pins }) := h
  unfold badEntered
  generalize badLinked { s with pedalPins := pins } = u at hgap hlinked
  generalize (gapFrame u).1 = w at hgap
  refine ⟨⟨?_, ?_, fun code hcode => CodeKept.trans (hlinked.codes code hcode) (.of_counters ?_)⟩, ?_, ?_⟩
  · have hframe := hlinked.frame
    rw [hgap, hframe]
  · have hcues := hlinked.cues
    rw [hgap]
    exact hcues
  · rw [hgap]
  · rw [hgap]
    exact hlinked.voices
  · rw [hgap]
    exact hlinked.faults

theorem badOccurrences_mem {s : State} {x : Task} (h : x ∈ badOccurrences s) :
    x = .occurrence .frameCheck .device
      ∨ (x = .occurrence .ctrlRunon .none ∧ (gapFrame (badLinked s)).2 = true) := by
  rcases List.mem_append.1 h with h | h
  · exact .inl (List.mem_singleton.1 h)
  · cases hgap : (gapFrame (badLinked s)).2 with
    | false =>
      rw [hgap] at h
      cases h
    | true =>
      rw [hgap] at h
      exact .inr ⟨List.mem_singleton.1 h, rfl⟩

/-- A bad frame as acts, before the loss of an eighth in a row. -/
theorem badDone_ran (bytes : List Byte) (s : State) : ∃ acts acts' skips others u3,
    Skips s.ltu.link acts (appendSamples (heldSamples s).1 (heldSamples s).2 (badEntered s)) skips
      ∧ others = badOccurrences s ++ skips ++ clipTask s.ltu.link (badMix s).pass.state
        (clippedSlots (badMix s).claims (badMix s).samples)
      ∧ (badMix s).claims = claims (badEntered s)
      ∧ u3 = { (badMix s).pass.state with linkOut := some (badOut bytes s) }
      ∧ FrameRan s.ltu.link (heldSamples s) s.config.stuckLimit (badMix s).samples others (blockTasks (badEntered s))
        (badEntered s) (badEntered s) (badMix s).pass.state u3 (badDone bytes s) acts acts'
      ∧ ClipsLast s.ltu.link (heldSamples s) (badMix s).samples (badEntered s) (badEntered s) acts acts [] others
        (badOccurrences s ++ skips) := by
  have hoccs : ∀ x ∈ badOccurrences s, ∃ k sc, k ≠ .outputClip ∧ x = .occurrence k sc := by
    intro x hx
    rcases badOccurrences_mem hx with rfl | ⟨rfl, -⟩
    · exact ⟨_, _, by decide, rfl⟩
    · exact ⟨_, _, by decide, rfl⟩
  obtain ⟨hclaims, acts, acts', skips, hskips, hran, hbefore⟩ := frameRan_of_audio s.ltu.link (heldSamples s)
    s.config.stuckLimit (badLinked s) (badPass s) (badOccurrences s) rfl hoccs (some (badOut bytes s))
  have hltu : (badMix s).pass.state.ltu = (badEntered s).ltu := (FrameRan.onlyEngine_mid hran).ltu
  have hrest (sc : Scope) : Task.occurrence .outputClip sc ∉ badOccurrences s ++ skips := by
    have hnone := not_clip_before (limit := 0) (s := s) hoccs hskips sc
    intro m
    refine hnone (List.mem_append.2 ((List.mem_append.1 m).imp_left fun m => List.mem_append_left _ m))
  refine ⟨acts, acts', skips, _, _, hskips, rfl, hclaims, rfl, ?_, (List.append_nil _).symm, rfl, hbefore,
    fun x => ?_, hrest⟩
  · rw [← blockTasks_congr hltu]
    exact hran
  · have hclaimed : (badMix s).claims = claims (badEntered s) := hclaims
    have hmixed : (badMix s).pass.state = runActs s.ltu.link acts (appendSamples (heldSamples s).1 (heldSamples s).2
      (badEntered s)) := hran.mixed
    rw [List.mem_append, hclaimed, hmixed]

end Sys2Proof.Proofs.BadFrameRuns
end

