-- ==== Sys2Proof/Proofs/Trailing.lean ====
section
/-! PROOF. What follows a frame whole: the receiver's note, and the loss that an eighth bad frame brings without a
reset (R26 to R29); it leaves what a frame tells of leads, cues, counters and mutes. -/

namespace Sys2Proof.Proofs.Trailing

open Sys2Proof Sys2Proof.Machine Sys2Proof.Safety Sys2Proof.Proofs.Occurrences Sys2Proof.Proofs.Counting
  Sys2Proof.Proofs.Losses Sys2Proof.Proofs.VoicesInFrames Sys2Proof.Proofs.DeviceMutes Sys2Proof.Proofs.Silence
  Sys2Proof.Proofs.Unread

/-- `t` is the frame's end `w` with what follows: no more of leads, lines, gateways, timed cues and the count, and
occurrences alone. -/
structure Behind (w t : State) : Prop where
  lead : ∀ L, t.lead L = w.lead L
  pedals : t.pedals = w.pedals
  gateways : t.gateways = w.gateways
  timed : t.timed = w.timed
  count : t.ltu.count = w.ltu.count
  codes : ∀ code, code ≠ 13 → CodeKept code w t
  grows : StatusGrows w t
  mutes : ∀ {P : Voice → Prop}, (∀ k x inc, P x → P (x.mutedBy k inc)) → ∀ v, P (w.voice v) → P (t.voice v)

theorem Behind.receiver (r : Receiver) (w : State) : Behind w { w with receiver := r } :=
  ⟨fun L => by cases L <;> rfl, rfl, rfl, rfl, rfl, fun _ _ => .of_counters rfl, .of_faults rfl, fun _ _ h => h⟩

theorem Behind.trans {w x t : State} (h : Behind w x) (k : Behind x t) : Behind w t where
  lead L := (k.lead L).trans (h.lead L)
  pedals := k.pedals.trans h.pedals
  gateways := k.gateways.trans h.gateways
  timed := k.timed.trans h.timed
  count := k.count.trans h.count
  codes code hcode := (h.codes code hcode).trans (k.codes code hcode)
  grows := StatusGrows.trans h.grows k.grows
  mutes hP v hx := k.mutes hP v (h.mutes hP v hx)

theorem declareLoss_statusGrows (s : State) : StatusGrows s (declareLoss s) := fun k => by
  rw [declareLoss_fault]
  exact (lossRaised_spec s).grows k

/-- A loss without a reset. -/
theorem Behind.loss {w : State} (h : w.config.lossAction = .holdover) : Behind w (declareLoss w) := by
  have hframe := declareLoss_holdover_frame h
  simp only at hframe
  have hcount : (declareLoss w).ltu.count = w.ltu.count := by
    rw [(declareLoss_link w).1]
    rfl
  refine ⟨fun L => ?_, ?_, ?_, ?_, hcount, fun code hcode => declareLoss_codeKept hcode w,
    declareLoss_statusGrows w, fun hP v hx => ?_⟩
  · rw [hframe]
    cases L <;> rfl
  · rw [hframe]
  · rw [hframe]
  · rw [hframe]
  · rw [declareLoss_holdover h]
    exact lossRaised_voice_keeps hP hx

section
variable {w t : State} (h : Behind w t)
include h

theorem Behind.gateway (g : Fin 8) : t.gateway g = w.gateway g :=
  congrArg (fun x : Vector Gateway 8 => x[g]) h.gateways

theorem Behind.pedal (l : LineId) : t.pedal l = w.pedal l := congrArg (fun x : Vector PedalLine 4 => x[l]) h.pedals

theorem Behind.leadsJudged {xs : Int × Int} {s : State} (k : LeadsJudged xs s w) : LeadsJudged xs s t := by
  have hcount {code : Nat} {n : Nat} (hcode : code ≠ 13) (k : CountsTimes code n s w) : CountsTimes code n s t :=
    countsTimes_behind k (h.codes code hcode)
  unfold LeadsJudged at *
  rw [h.count]
  obtain ⟨hend, hoff⟩ := k
  refine ⟨fun h63 => ⟨fun L => ?_, ?_⟩, fun h63 => ⟨fun L => ?_, fun code hlow hhigh => ?_⟩⟩
  · rw [h.lead L]
    exact (hend h63).1 L
  · obtain ⟨h1, h2, h3, h4, h5⟩ := (hend h63).2
    exact ⟨hcount (by decide) h1, hcount (by decide) h2, hcount (by decide) h3, hcount (by decide) h4,
      hcount (by decide) h5⟩
  · rw [h.lead L]
    exact (hoff h63).1 L
  · exact hcount (by omega) ((hoff h63).2 code hlow hhigh)

theorem Behind.cuesMoved {pins : PedalPins} {s : State} (k : CuesMoved pins s w) : CuesMoved pins s t := by
  unfold CuesMoved at *
  rw [h.count, h.timed]
  simp only [Behind.gateway h]
  exact k

theorem Behind.off {v : VoiceId} (hv : (w.voice v).state = .off) : t.voice v = w.voice v :=
  h.mutes (P := fun x => x = w.voice v) (fun k x inc hx => by rw [hx]; exact mutedBy_off hv k inc) v rfl

theorem Behind.mutedFor {k : FaultKind} {v : VoiceId} (hv : MutedFor k (w.voice v)) : MutedFor k (t.voice v) :=
  h.mutes (P := MutedFor k) (fun j _ inc hx => hx.mutedBy j inc) v hv

end

/-- Block work done is block work done whatever the receiver notes. -/
theorem BlockWorkDone.receiver {ls : LinkState} {x t : State} (h : BlockWorkDone ls x t) (r : Receiver) :
    BlockWorkDone ls { x with receiver := r } { t with receiver := r } := by
  obtain ⟨L, M, hne, ht⟩ := h
  refine ⟨L, M, hne, ?_⟩
  have hrest (u : State) : ({ u with receiver := r } : State) = onRest ⟨r, u.linkOut, u.pedals, u.draws⟩ u := rfl
  have hover : blockWork ls M (blockWork ls L { x with receiver := r }) =
      onRest ⟨r, x.linkOut, x.pedals, x.draws⟩ (blockWork ls M (blockWork ls L x)) := by
    rw [hrest, deaf_blockWork, deaf_blockWork]
  have hlink : (blockWork ls M (blockWork ls L x)).linkOut = x.linkOut :=
    (congrArg State.linkOut ((blockWork_onlyEngine ls L x).trans (blockWork_onlyEngine ls M _)).rest :)
  rw [hover]
  generalize blockWork ls M (blockWork ls L x) = b at ht hlink
  rw [ht]
  unfold onRest
  rw [← hlink]

end Sys2Proof.Proofs.Trailing
end

