-- ==== Sys2Proof/Proofs/BadFrames.lean ====
section
/-! PROOF. Bad frames in RELOCKING and LOCKED (O10): the frame whole as its acts tell it, and the loss an eighth in a
row brings. -/

namespace Sys2Proof.Proofs.BadFrames

open Sys2Proof Sys2Proof.Machine Sys2Proof.Safety Sys2Proof.Proofs.Queues Sys2Proof.Proofs.Traces
  Sys2Proof.Proofs.ActEffects Sys2Proof.Proofs.Occurrences Sys2Proof.Proofs.FrameRuns Sys2Proof.Proofs.LinkParts
  Sys2Proof.Proofs.BlockEnds Sys2Proof.Proofs.Counting Sys2Proof.Proofs.FrameEnds Sys2Proof.Proofs.FrameStarts
  Sys2Proof.Proofs.Ports Sys2Proof.Proofs.LaneAssembly Sys2Proof.Proofs.VoicesInFrames Sys2Proof.Proofs.SlotSums
  Sys2Proof.Proofs.StandingFrames Sys2Proof.Proofs.PhantomFrames Sys2Proof.Proofs.ClipFrames
  Sys2Proof.Proofs.DeviceMutes Sys2Proof.Proofs.FrameOccurrences Sys2Proof.Proofs.Outgoing Sys2Proof.Proofs.Formats
  Sys2Proof.Proofs.BadFrameRuns Sys2Proof.Proofs.Trailing Sys2Proof.Proofs.Losses Sys2Proof.Proofs.Silence
  Sys2Proof.Proofs.CueFlush

/-! ### The frame that leaves -/

theorem badOut_facts {bytes : List Byte} (h : bytes.length = 88) (s : State) :
    (badOut bytes s).length = 88 ∧ (badOut bytes s).take 6 = bytes.take 6
      ∧ laneBytes (badOut bytes s) = List.replicate 8 0
      ∧ (badOut bytes s).drop 86 = checkBytes (~~~(crc (checkedPart (badOut bytes s))))
      ∧ frameGood (badOut bytes s) = false := by
  obtain ⟨hgood, hcheck⟩ := outFrame_bad (outBody s.ltu.link bytes (badMix s).claims (badMix s).samples idleLane)
    (outBody_length h rfl)
  exact ⟨outFrame_length h rfl, outFrame_head h, outFrame_lane h rfl, hcheck, hgood⟩

/-! ### The frame before a loss -/

/-- The state that a bad frame's block work starts from, where no message is under assembly. -/
theorem badSamples_eq (pins : PedalPins) {s : State} (ha : s.assembly = none) (out : Option (List Byte)) :
    { appendSamples (heldSamples s).1 (heldSamples s).2 (badEntered { s with pedalPins := pins }) with linkOut := out } =
      { adoptCount (s.ltu.count + 1) s with
        ltu := { s.ltu.afterBad with count := s.ltu.count + 1 }, pedalPins := pins, linkOut := out
        leadA := { s.leadA with history := withSample (heldSamples s) s .a }
        leadB := { s.leadB with history := withSample (heldSamples s) s .b } } := by
  have hlinked := badLinked_link pins s
  have hentered : badEntered { s with pedalPins := pins } = badLinked { s with pedalPins := pins } := by
    unfold badEntered
    rw [gapFrame_empty (by rw [hlinked]; exact ha)]
  obtain ⟨hgateways, htimed⟩ := adoptCount_same (c := s.ltu.count + 1) (s := s)
    (t := { s with pedalPins := pins, ltu := s.ltu.afterBad }) ⟨rfl, rfl⟩ rfl
  have hs := adoptCount_eq (s.ltu.count + 1) s
  have hv : badLinked { s with pedalPins := pins } =
    adoptCount (s.ltu.count + 1) { s with pedalPins := pins, ltu := s.ltu.afterBad } := rfl
  rw [hentered]
  rw [hv] at hlinked ⊢
  generalize adoptCount (s.ltu.count + 1) s = u at *
  generalize adoptCount (s.ltu.count + 1) { s with pedalPins := pins, ltu := s.ltu.afterBad } = w at *
  rw [hlinked, hs, hgateways, htimed]
  rfl

/-- What a bad frame in a running state has done, before the loss that an eighth in a row brings. -/
structure BadTold (bytes : List Byte) (pins : PedalPins) (s w : State) (out : List Byte) : Prop where
  ltu : w.ltu = { s.ltu.afterBad with count := s.ltu.count + 1 }
  frame : w = { s with
    pedalPins := pins, ltu := w.ltu, leadA := w.leadA, leadB := w.leadB, voices := w.voices, pedals := w.pedals
    gateways := w.gateways, timed := w.timed, faults := w.faults, pointer := w.pointer
    counters := w.counters, assembly := w.assembly, outq := w.outq
    sender := w.sender, linkOut := some out, draws := w.draws }
  queue : s.outq <+: w.outq
  grows : StatusGrows s w
  check : (s.fault .frameCheck).detectMask = false → (w.fault .frameCheck).status = true
  leads : LeadsJudged (heldSamples s) s w
  cues : CuesMoved pins s w
  phantoms : CodeKept 12 s w
  pedals : ∀ l, w.pedal l = pedalAfter s.config.stuckLimit pins[l] (s.pedal l)
  off : w.ltu.count.toNat % 64 ≠ 63 → ∀ v, (s.voice v).state = .off → w.voice v = s.voice v
  steady : w.ltu.count.toNat % 64 ≠ 63 → ∀ v, Steady (s.voice v) → Steady (w.voice v)
  muted : w.ltu.count.toNat % 64 ≠ 63 → Mutes .frameCheck s → ∀ v, Steady (s.voice v) →
    MutedFor .frameCheck (w.voice v)
  linkLoss : w.fault .linkLoss = s.fault .linkLoss
  empty : s.assembly = none → w.assembly = none ∧ w.sender = s.sender ∧ w.fault .ctrlRunon = s.fault .ctrlRunon
  short : ∀ a, s.assembly = some a → a.gap < 8 → w.assembly = some { a with gap := a.gap + 1 }
    ∧ w.sender = s.sender ∧ w.fault .ctrlRunon = s.fault .ctrlRunon
  long : ∀ a, s.assembly = some a → 8 ≤ a.gap → w.assembly = none ∧ w.sender = (abandoned s).sender
    ∧ ((s.fault .ctrlRunon).detectMask = false → (w.fault .ctrlRunon).status = true)
  blocks : (s.ltu.count + 1).toNat % 64 = 63 → (s.fault .frameCheck).detectMask = true → s.assembly = none →
    (∀ v, (s.voice v).runs = false) → QuietLines pins s →
    BlockWorkDone s.ltu.link { adoptCount (s.ltu.count + 1) s with
      ltu := w.ltu, pedalPins := pins, linkOut := w.linkOut
      leadA := { s.leadA with history := withSample (heldSamples s) s .a }
      leadB := { s.leadB with history := withSample (heldSamples s) s .b } } w
  unclaimed : ∀ k : Fin 24, claimed (claims s) k = false → slotBytes out k.val = slotBytes bytes k.val
  relocking : ∀ k : Fin 24, claimed (claims s) k = true → s.ltu.link = .relocking → slotBytes out k.val = [0, 0, 0]
  mixed : NoMuteDue s → s.ltu.link = .locked → ∀ k : Fin 24, claimed (claims s) k = true →
    slotBytes out k.val = sampleBytes (max (-8388608) (min 8388607 (slotTotal s (heldSamples s) k)))
  clip : NoMuteDue s → ClipRaised s.ltu.link (heldSamples s) s w
  voices : NoMuteDue s → (s.fault .outputClip).severity = .notice → w.ltu.count.toNat % 64 ≠ 63 →
    ∀ v, w.voice v = voiceAfter s (heldSamples s) v

/-! ### Its lane and its occurrences -/

/-- The lane's records behind a bad frame's gap (R168, R169). -/
theorem badEntered_lane (pins : PedalPins) (s : State) :
    let r := badEntered { s with pedalPins := pins }
    let flag := (gapFrame (badLinked { s with pedalPins := pins })).2
    (s.assembly = none → r.assembly = none ∧ r.sender = s.sender ∧ flag = false)
      ∧ ∀ a, s.assembly = some a →
        (a.gap < 8 → r.assembly = some { a with gap := a.gap + 1 } ∧ r.sender = s.sender ∧ flag = false)
        ∧ (8 ≤ a.gap → r.assembly = none ∧ r.sender = (abandoned s).sender ∧ flag = true) := by
  unfold badEntered
  have hlinked := badLinked_link pins s
  generalize badLinked { s with pedalPins := pins } = u at hlinked
  have ha : u.assembly = s.assembly := by rw [hlinked]
  have hsender : u.sender = s.sender := by rw [hlinked]
  refine ⟨fun h => ?_, fun a h => ⟨fun hgap => ?_, fun hgap => ?_⟩⟩
  · rw [gapFrame_empty (ha.trans h)]
    exact ⟨ha.trans h, hsender, rfl⟩
  · rw [gapFrame_short (ha.trans h) hgap]
    exact ⟨rfl, hsender, rfl⟩
  · rw [gapFrame_long (ha.trans h) hgap]
    refine ⟨rfl, ?_, rfl⟩
    unfold abandoned
    rw [hsender]

/-- A bad frame's beginning leaves all but link, pins, timed cues and the lane's records. -/
theorem badEntered_eq (pins : PedalPins) (s : State) : badEntered { s with pedalPins := pins } =
    { s with pedalPins := pins, ltu := { s.ltu.afterBad with count := s.ltu.count + 1 }
             timed := (badEntered { s with pedalPins := pins }).timed
             gateways := (badEntered { s with pedalPins := pins }).gateways
             assembly := (badEntered { s with pedalPins := pins }).assembly
             sender := (badEntered { s with pedalPins := pins }).sender } := by
  have hlinked := badLinked_link pins s
  have hgap := gapFrame_frame (badLinked { s with pedalPins := pins })
  unfold badEntered
  generalize badLinked { s with pedalPins := pins } = u at hlinked hgap
  generalize (gapFrame u).1 = w at hgap
  rw [hgap, hlinked]

/-- The occurrences of a bad frame. -/
theorem bad_occurrence {s w : State} {ls : LinkState} {acts : List Act} {u : State} {skips : List Task}
    {ks : List (Fin 24)} {k : FaultKind} {sc : Scope} (hskips : Skips ls acts u skips)
    (m : Task.occurrence k sc ∈ badOccurrences s ++ skips ++ clipTask ls w ks) :
    (k = .frameCheck ∧ sc = .device) ∨ (k = .ctrlRunon ∧ (gapFrame (badLinked s)).2 = true) ∨ k = .entrySkipped
      ∨ k = .outputClip := by
  rcases List.mem_append.1 m with m | m
  · rcases List.mem_append.1 m with m | m
    · rcases badOccurrences_mem m with e | ⟨e, hgap⟩
      · cases e
        exact .inl ⟨rfl, rfl⟩
      · cases e
        exact .inr (.inl ⟨rfl, hgap⟩)
    · obtain ⟨L, e, -⟩ := hskips _ m
      cases e
      exact .inr (.inr (.inl rfl))
  · obtain ⟨-, -, e⟩ := mem_clipTask.1 m
    cases e
    exact .inr (.inr (.inr rfl))

theorem bad_calm {s w : State} {ls : LinkState} {acts : List Act} {u : State} {skips : List Task}
    {ks : List (Fin 24)} (hskips : Skips ls acts u skips) (kind : Byte) (r : Req) :
    Task.request kind r ∉ badOccurrences s ++ skips ++ clipTask ls w ks := by
  intro m
  rcases List.mem_append.1 m with m | m
  · rcases List.mem_append.1 m with m | m
    · rcases badOccurrences_mem m with e | ⟨e, -⟩ <;> cases e
    · obtain ⟨L, e, -⟩ := hskips _ m
      cases e
  · obtain ⟨-, -, e⟩ := mem_clipTask.1 m
    cases e

/-! ### The frame told -/

theorem badTold {bytes : List Byte} (hlen : bytes.length = 88) (pins : PedalPins) (s : State) :
    BadTold bytes pins s (badDone bytes { s with pedalPins := pins }) (badOut bytes { s with pedalPins := pins }) := by
  have hs := badEntered_calm pins s
  have hlane := badEntered_lane pins s
  have hentered := badEntered_eq pins s
  obtain ⟨acts, acts', skips, others, u3, hskips, hothers, hclaims, hu3, hran, hclip⟩ :=
    badDone_ran bytes { s with pedalPins := pins }
  have hout : badOut bytes { s with pedalPins := pins } = outFrame false (outBody s.ltu.link bytes
    (badMix { s with pedalPins := pins }).claims (badMix { s with pedalPins := pins }).samples idleLane) := rfl
  have hbase := badSamples_eq pins (s := s)
  have hheld : heldSamples { s with pedalPins := pins } = heldSamples s := rfl
  have hlink : ({ s with pedalPins := pins } : State).ltu.link = s.ltu.link := rfl
  have hlimit : ({ s with pedalPins := pins } : State).config.stuckLimit = s.config.stuckLimit := rfl
  rw [hheld, hlink] at hran hclip hskips
  rw [hlink] at hothers
  rw [hlimit] at hran
  have hcalm : ∀ kind r, Task.request kind r ∉ others := by
    rw [hothers]
    exact bad_calm hskips
  have hocc {k : FaultKind} {sc : Scope} (m : Task.occurrence k sc ∈ others) := by
    rw [hothers] at m
    exact bad_occurrence hskips m
  have hcheck : Task.occurrence .frameCheck .device ∈ others := by
    rw [hothers]
    exact List.mem_append_left _ (List.mem_append_left _ (List.mem_append_left _ (List.mem_singleton.2 rfl)))
  have hrunon (hflag : (gapFrame (badLinked { s with pedalPins := pins })).2 = true) :
      Task.occurrence .ctrlRunon .none ∈ others := by
    rw [hothers]
    refine List.mem_append_left _ (List.mem_append_left _ (List.mem_append_right _ ?_))
    rw [hflag]
    exact List.mem_singleton.2 rfl
  have hmem (x : Task) (m : x ∈ badOccurrences { s with pedalPins := pins }) := badOccurrences_mem m
  have hblocks := blockTasks_cases (badEntered { s with pedalPins := pins })
  have hengine := FrameRan.onlyEngine hran hcalm hblocks rfl hu3
  have hgrows := FrameRan.statusGrows hran hcalm hblocks
  generalize (gapFrame (badLinked { s with pedalPins := pins })).2 = flag at *
  generalize badOut bytes { s with pedalPins := pins } = out at *
  generalize badDone bytes { s with pedalPins := pins } = w at *
  generalize (badMix { s with pedalPins := pins }).claims = cs at *
  generalize (badMix { s with pedalPins := pins }).samples = ys at *
  generalize (badMix { s with pedalPins := pins }).pass.state = u2 at *
  generalize badEntered { s with pedalPins := pins } = u at *
  have hltu : u.ltu = { s.ltu.afterBad with count := s.ltu.count + 1 } := by rw [hentered]
  have hwltu : w.ltu = u.ltu := hengine.ltu
  have hfault (k : FaultKind) : u.fault k = s.fault k := EnteredCalm.fault hs k
  have hvoice (v : VoiceId) : u.voice v = s.voice v := EnteredCalm.voice hs v
  have hend (h63 : w.ltu.count.toNat % 64 = 63) : blockTasks u = [.block .a, .block .b] :=
    blockTasks_of_end (by rw [← hwltu]; exact h63)
  have hoff (h63 : w.ltu.count.toNat % 64 ≠ 63) : blockTasks u = [] :=
    blockTasks_of_other (by rw [← hwltu]; exact h63)
  have hscope (sc : Scope) (m : Task.occurrence .frameCheck sc ∈ others) : sc = .device := by
    rcases hocc m with ⟨-, e⟩ | ⟨e, -⟩ | e | e
    · exact e
    all_goals cases e
  have hloss (sc : Scope) : Task.occurrence .linkLoss sc ∉ others := fun m => by
    rcases hocc m with ⟨e, -⟩ | ⟨e, -⟩ | e | e <;> cases e
  have hkeepsRunon (hflag : flag = false) : w.fault .ctrlRunon = s.fault .ctrlRunon := by
    refine (FrameRan.faultKept hran hcalm hblocks ⟨by decide, by decide, by decide⟩ fun sc m => ?_).trans (hfault _)
    rcases hocc m with ⟨e, -⟩ | ⟨-, e⟩ | e | e
    · cases e
    · cases hflag.symm.trans e
    · cases e
    · cases e
  have hassembly : w.assembly = u.assembly := hengine.assembly
  have hsender : w.sender = u.sender := hengine.sender
  have hsum (hmute : NoMuteDue s) (k : Fin 24) : slotSum cs ys k = slotTotal s (heldSamples s) k := by
    rw [hclaims]
    exact sum_told hran hs hclip hmute k
  have hclaimed : cs = claims s := hclaims.trans (claims_told hs)
  obtain ⟨hempty, hheld⟩ := hlane
  refine ⟨hwltu.trans hltu, ?_, ?_, fun k => ?_, fun hmask => ?_,
    FrameRan.leadsJudged hran hs.toEntered hcalm hend hoff,
    FrameRan.cuesMoved hran hs.toEntered hcalm rfl (congrArg Ltu.count hwltu) hoff, ?_, fun l => ?_,
    fun h63 v hv => ?_, fun h63 v hv => ?_, fun h63 hmutes v hv => ?_, ?_, fun ha => ?_, fun a ha hgap => ?_,
    fun a ha hgap => ?_, fun h63 hmask ha hstands hquiet => ?_, fun k hk => ?_, fun k hk hlink => ?_,
    fun hmute hlink k hk => ?_, fun hmute => ?_, fun hmute hsev h63 v => ?_⟩
  · have heq := hengine.eq
    rw [hentered] at heq
    rw [hwltu, hltu, hengine.assembly, hengine.sender]
    exact heq
  · have hqueue := hengine.queue
    rwa [show ({ u with linkOut := some out } : State).outq = s.outq by rw [hentered]] at hqueue
  · exact hfault k ▸ hgrows k
  · exact FrameRan.sets hran hcalm hblocks hcheck (by rw [hfault]; exact hmask)
  · exact CodeKept.trans (.of_counters (by rw [hentered])) (FrameRan.phantomKept hran hcalm hblocks)
  · rw [FrameRan.pedal hran hcalm hblocks l, Entered.pedal hs.toEntered, Entered.pedalPins hs.toEntered]
  · rw [hoff h63] at hran
    exact (FrameRan.off hran hcalm (v := v) (by rw [hvoice]; exact hv)).trans (hvoice v)
  · rw [hoff h63] at hran
    exact FrameRan.steady hran hcalm (by rw [hvoice]; exact hv)
  · rw [hoff h63] at hran
    refine FrameRan.mutes hran hcalm ⟨by decide, by decide, by decide⟩ hcheck hscope ?_ (by rw [hvoice]; exact hv)
    unfold Mutes
    rw [hfault]
    exact hmutes
  · exact (FrameRan.faultKept hran hcalm hblocks ⟨by decide, by decide, by decide⟩ hloss).trans (hfault _)
  · obtain ⟨h1, h2, h3⟩ := hempty ha
    exact ⟨hassembly.trans h1, hsender.trans h2, hkeepsRunon h3⟩
  · obtain ⟨h1, h2, h3⟩ := (hheld a ha).1 hgap
    exact ⟨hassembly.trans h1, hsender.trans h2, hkeepsRunon h3⟩
  · obtain ⟨h1, h2, h3⟩ := (hheld a ha).2 hgap
    exact ⟨hassembly.trans h1, hsender.trans h2, fun hmask =>
      FrameRan.sets hran hcalm hblocks (hrunon h3) (by rw [hfault]; exact hmask)⟩
  · have hflag := (hempty ha).2.2
    have hu63 : w.ltu.count.toNat % 64 = 63 := by
      rw [hwltu, hltu]
      exact h63
    rw [hend hu63] at hran
    have hstood (v : VoiceId) : ((appendSamples (heldSamples s).1 (heldSamples s).2 u).voice v).runs = false := by
      rw [show (appendSamples (heldSamples s).1 (heldSamples s).2 u).voice v = s.voice v from hvoice v]
      exact hstands v
    have hskipsNone := skips_of_standing hskips hran.quiet hran.worked hstood
    have hslots : clippedSlots cs ys = [] := by
      rw [hclaims]
      exact clippedSlots_of_standing u hran.size fun v => sample_stands _ _ hran.quiet hran.worked (hstood v) (hran.sampled v)
    have hvoid : ∀ x ∈ others, Void u x := by
      intro x hx
      rw [hothers, hskipsNone, hslots, List.append_nil] at hx
      rcases List.mem_append.1 hx with hx | hx
      · rcases hmem x hx with rfl | ⟨-, e⟩
        · exact ⟨_, _, rfl, by rw [hfault]; exact hmask⟩
        · cases hflag.symm.trans e
      · exact absurd rfl (mem_clipTask.1 hx).2.1
    have hrests := lineRests_of_quiet hquiet (Entered.pedalPins hs.toEntered) (Entered.pedal hs.toEntered)
    have hmid := FrameRan.still_mid hran hvoid (fun v => by
      rw [hvoice]
      exact hstands v) hrests
    have hout : w.linkOut = some out := (congrArg State.linkOut hengine.rest :)
    rw [hwltu, hltu, hout, ← hbase ha (some out)]
    refine FrameRan.blockWorkDone hran hvoid hrests ?_
    rw [hu3]
    unfold Still at hmid ⊢
    exact congrArg (fun x : State => { x with linkOut := some out }) hmid
  · rw [hout, outFrame_slot_unclaimed hlen (by rw [hclaimed]; exact hk)]
  · rw [hout, outFrame_slot_claimed hlen (by rw [hclaimed]; exact hk), claimedSample_unlocked (by rw [hlink]; nofun),
      sampleBytes_zero]
  · rw [hout, outFrame_slot_claimed hlen (by rw [hclaimed]; exact hk), claimedSample, if_pos hlink, hsum hmute]
    rfl
  · exact clipRaised hran hs hclip hmute hcalm hblocks hoff hwltu (by rw [hentered]) (fun h => by rw [hentered]; exact h)
      fun _ _ => by rw [hu3]
  · rw [FrameRan.voice hran hcalm (hoff h63) (EnteredCalm.noMuteDue hs hmute) (.inr ?_) v,
      voiceWork_entered hs.toEntered (hvoice v)]
    exact not_mutes_of_notice (by rw [hfault]; exact hsev)

/-! ### What follows the frame -/

section
variable {bytes : List Byte} {pins : PedalPins} {s w t : State} {out : List Byte}
  (h : BadTold bytes pins s w out) (k : Behind w t)
include h k

/-- What a bad frame without a reset tells of leads, cues, counters, mutes and lines. -/
theorem BadTold.behind : LeadsJudged (heldSamples s) s t ∧ CuesMoved pins s t ∧ CountsTimes 12 0 s t
    ∧ DeviceMuted .frameCheck s t ∧ ∀ l, t.pedal l = pedalAfter s.config.stuckLimit pins[l] (s.pedal l) := by
  have hcount := k.count
  refine ⟨Behind.leadsJudged k h.leads, Behind.cuesMoved k h.cues,
    countsTimes_behind (CodeKept.times h.phantoms) (k.codes 12 (by decide)),
    deviceMuted_of (fun h63 v hv => ?_) (fun h63 hmutes v hv => ?_), fun l => (Behind.pedal k l).trans (h.pedals l)⟩
  · rw [hcount] at h63
    have hw := h.off h63 v hv
    exact (Behind.off k (v := v) (by rw [hw]; exact hv)).trans hw
  · rw [hcount] at h63
    exact (Behind.mutedFor k (h.muted h63 hmutes v hv)).2

end

section
variable {bytes : List Byte} {pins : PedalPins} {s w : State} {out : List Byte} (h : BadTold bytes pins s w out)
include h

theorem BadTold.linkOut : w.linkOut = some out := (congrArg State.linkOut h.frame :)

theorem BadTold.config : w.config = s.config := (congrArg State.config h.frame :)

theorem BadTold.fifo : w.fifo = s.fifo := (congrArg State.fifo h.frame :)

/-- The loss of an eighth bad frame mutes for LINK_LOSS (R151, R154). -/
theorem BadTold.lossMutes (hkeep : w.config.lossAction = .holdover) : DeviceMuted .linkLoss s (declareLoss w) := by
  have k := Behind.loss hkeep
  have hcount := k.count
  refine deviceMuted_of (fun h63 v hv => ?_) (fun h63 hmutes v hv => ?_)
  · rw [hcount] at h63
    have hw := h.off h63 v hv
    exact (Behind.off k (v := v) (by rw [hw]; exact hv)).trans hw
  · rw [hcount] at h63
    rw [declareLoss_holdover hkeep]
    refine (lossRaised_mutes ?_ (h.steady h63 v hv)).2
    unfold Mutes
    rw [h.linkLoss]
    exact hmutes

/-- CTRL_RUNON of the ninth gap or of the loss, where a message was under assembly (R27, R169). -/
theorem BadTold.lossRunon (ha : s.assembly ≠ none) (hmask : (s.fault .ctrlRunon).detectMask = false) :
    ((declareLoss w).fault .ctrlRunon).status = true := by
  obtain ⟨a, ha⟩ := Option.ne_none_iff_exists'.1 ha
  by_cases hgap : a.gap < 8
  · refine declareLoss_ctrlRunon ?_ ((h.grows .ctrlRunon).2.1.trans hmask)
    rw [(h.short a ha hgap).1]
    nofun
  · exact (declareLoss_statusGrows w .ctrlRunon).1 ((h.long a ha (Nat.le_of_not_lt hgap)).2.2 hmask)

end

theorem declareLoss_linkOut (s : State) : (declareLoss s).linkOut = s.linkOut := by
  cases h : s.config.lossAction with
  | holdover =>
    have hframe := declareLoss_holdover_frame h
    simp only at hframe
    rw [hframe]
  | engine =>
    have hframe := declareLoss_engine_frame h
    simp only at hframe
    rw [hframe]
    rfl

/-! ### The frame at the device -/

theorem exec_badFrame {bytes : List Byte} (pins : PedalPins) {s : State} (hlow : s.resetLow = false)
    (hframe : isFrame bytes = true) (hbad : frameGood bytes = false) (hrun : s.ltu.link.running = true) :
    exec (.frameArrival bytes pins) s = .next { badFrame bytes { s with pedalPins := pins } with
      receiver := { framed := true, sinceStart := none } } := by
  rw [exec_frameArrival hlow]
  unfold arriveFrame
  rw [hframe, hbad, hrun]
  rfl

/-- A bad frame is lost with at the eighth in a row alone (R26). -/
theorem badFrame_end (bytes : List Byte) (pins : PedalPins) (s : State) :
    badFrame bytes { s with pedalPins := pins } = if s.ltu.badRun < 7 then badDone bytes { s with pedalPins := pins }
      else declareLoss (badDone bytes { s with pedalPins := pins }) := by
  have hrun : (badLinked { s with pedalPins := pins }).ltu.badRun = s.ltu.badRun + 1 := by
    rw [badLinked_link]
    rfl
  rw [badFrame_eq, hrun]
  by_cases h : s.ltu.badRun < 7
  · rw [if_pos h, if_neg (by show ¬8 ≤ _; omega)]
  · rw [if_neg h, if_pos (by show 8 ≤ _; omega)]

/-- What follows a frame in a running state: the receiver's note, and at the eighth bad frame in a row the loss. -/
structure BadEnded (s w t : State) : Prop where
  short : s.ltu.badRun < 7 → t = { w with receiver := { framed := true, sinceStart := none } }
  long : 7 ≤ s.ltu.badRun → t = { declareLoss w with receiver := { framed := true, sinceStart := none } }

section
variable {bytes : List Byte} {pins : PedalPins} {s w t : State} {out : List Byte} (h : BadTold bytes pins s w out)
  (k : BadEnded s w t)
include k

theorem BadEnded.cases {P : State → Prop}
    (hshort : s.ltu.badRun < 7 → P { w with receiver := { framed := true, sinceStart := none } })
    (hlong : 7 ≤ s.ltu.badRun → P { declareLoss w with receiver := { framed := true, sinceStart := none } }) : P t := by
  by_cases h7 : s.ltu.badRun < 7
  · exact k.short h7 ▸ hshort h7
  · exact k.long (Nat.le_of_not_lt h7) ▸ hlong (Nat.le_of_not_lt h7)

theorem BadEnded.linkOut : t.linkOut = w.linkOut :=
  k.cases (P := fun t => t.linkOut = w.linkOut) (fun _ => rfl) fun _ => declareLoss_linkOut w

theorem BadEnded.grows : StatusGrows w t :=
  k.cases (P := StatusGrows w) (fun _ => (Behind.receiver _ w).grows) fun _ =>
    StatusGrows.trans (declareLoss_statusGrows w) (Behind.receiver _ (declareLoss w)).grows

theorem BadEnded.queue : w.outq <+: t.outq :=
  k.cases (P := fun t => w.outq <+: t.outq) (fun _ => List.prefix_refl _) fun _ => declareLoss_queue w

include h

/-- Without a reset nothing of the frame is undone (R29). -/
theorem BadEnded.behind (hkeep : s.ltu.badRun < 7 ∨ s.config.lossAction = .holdover) : Behind w t :=
  k.cases (P := Behind w) (fun _ => Behind.receiver _ w) fun h7 =>
    Behind.trans (Behind.loss (by
      rw [h.config]
      exact hkeep.resolve_left (Nat.not_lt_of_le h7))) (Behind.receiver _ (declareLoss w))

theorem BadEnded.ltu : t.ltu = if s.ltu.badRun < 7 then
      { s.ltu with count := s.ltu.count + 1, badRun := s.ltu.badRun + 1
                   goodRun := if s.ltu.link = .relocking then 0 else s.ltu.goodRun }
    else { s.ltu with link := .holdover, count := s.ltu.count + 1, goodRun := 0, badRun := 0 } := by
  by_cases h7 : s.ltu.badRun < 7
  · rw [if_pos h7, k.short h7, h.ltu]
    obtain ⟨link, _, _, _, _⟩ := s.ltu
    cases link <;> rfl
  · rw [if_neg h7, k.long (Nat.le_of_not_lt h7)]
    show (declareLoss w).ltu = _
    rw [(declareLoss_link w).1, h.ltu]
    rfl

theorem BadEnded.frame (hkeep : s.ltu.badRun < 7 ∨ s.config.lossAction = .holdover) : t = { s with
    pedalPins := pins, receiver := { framed := true, sinceStart := none }, ltu := t.ltu
    leadA := t.leadA, leadB := t.leadB, voices := t.voices, pedals := t.pedals
    gateways := t.gateways, timed := t.timed, faults := t.faults, pointer := t.pointer
    counters := t.counters, assembly := t.assembly, fifo := t.fifo, outq := t.outq
    sender := t.sender, linkOut := t.linkOut, draws := t.draws } := by
  have hw := h.frame
  by_cases h7 : s.ltu.badRun < 7
  · rw [k.short h7]
    generalize w = x at hw ⊢
    rw [hw]
  · have hloss := declareLoss_holdover_frame ((congrArg ConfigRecord.lossAction h.config).trans
      (hkeep.resolve_left h7))
    simp only at hloss
    rw [k.long (Nat.le_of_not_lt h7)]
    generalize declareLoss w = x at hloss ⊢
    rw [hloss]
    generalize w = x at hw ⊢
    rw [hw]

end

/-- Settles O10. -/
theorem badFrameRunning : Obligations.BadFrameRunning := by
  refine ⟨fun s => ?_, fun bytes pins s hlow hframe hbad hrun => ?_⟩
  · unfold heldSamples
    cases s.config.slotB <;> rfl
  obtain ⟨hlen, -, -⟩ := (isFrame_iff bytes).1 hframe
  have hexec := exec_badFrame pins hlow hframe hbad hrun
  have hend := badFrame_end bytes pins s
  have h := badTold hlen pins s
  obtain ⟨hsize, hhead, hidle, hpoison, hbadOut⟩ := badOut_facts hlen { s with pedalPins := pins }
  generalize badOut bytes { s with pedalPins := pins } = out at *
  generalize badDone bytes { s with pedalPins := pins } = w at *
  generalize badFrame bytes { s with pedalPins := pins } = x at *
  have k : BadEnded s w { x with receiver := { framed := true, sinceStart := none } } :=
    ⟨fun h7 => by rw [hend, if_pos h7], fun h7 => by rw [hend, if_neg (Nat.not_lt_of_le h7)]⟩
  generalize ({ x with receiver := { framed := true, sinceStart := none } } : State) = t at *
  have hbehind (hkeep : s.ltu.badRun < 7 ∨ s.config.lossAction = .holdover) :=
    BadTold.behind h (k.behind h hkeep)
  have hgone (h7 : 7 ≤ s.ltu.badRun) {P : Prop} (h7' : s.ltu.badRun < 7) : P := absurd h7' (Nat.not_lt_of_le h7)
  refine ⟨t, out, hexec, k.linkOut.trans h.linkOut, k.ltu h, fun hmask => (k.grows .frameCheck).1 (h.check hmask),
    h.queue.trans k.queue, fun hkeep => ⟨?_, fun hslot => ?_, k.frame h hkeep⟩, fun hkeep => ?_,
    fun h7 h63 hmask ha hstands hquiet => ?_, fun h7 => ?_, hsize, hhead, hidle, hpoison, hbadOut, h.unclaimed,
    h.relocking, fun hmute => ⟨h.mixed hmute, fun h7 => ?_, fun h7 => ?_⟩, fun hkeep => (hbehind hkeep).2.2.2.2,
    fun h7 => ⟨?_, fun hmask => ?_, fun ha hmask => ?_⟩⟩
  · exact LeadsJudged.history (hbehind hkeep).1 .a
  · refine (LeadsJudged.history (hbehind hkeep).1 .b).trans ?_
    obtain ⟨slot, hslot⟩ := Option.isSome_iff_exists.1 hslot
    unfold withSample heldSamples
    rw [hslot]
    rfl
  · obtain ⟨hleads, hcues, hphantoms, hmuted, -⟩ := hbehind hkeep
    refine ⟨hleads, hcues, hphantoms, hmuted, fun h7 => ?_⟩
    rw [k.long h7]
    exact h.lossMutes (by rw [h.config]; exact hkeep.resolve_left (Nat.not_lt_of_le h7))
  · rw [k.short h7]
    exact BlockWorkDone.receiver (h.blocks h63 hmask ha hstands hquiet) _
  · rw [k.short h7]
    refine ⟨fun ha => ?_, fun a ha => ⟨fun hgap => ?_, fun hgap => ?_⟩⟩
    · obtain ⟨h1, h2, h3⟩ := h.empty ha
      exact ⟨h1, h2, h.fifo, h3⟩
    · obtain ⟨h1, h2, h3⟩ := h.short a ha hgap
      exact ⟨h1, h2, h.fifo, h3⟩
    · obtain ⟨h1, h2, h3⟩ := h.long a ha hgap
      exact ⟨h1, h2, h.fifo, h3⟩
  · rw [k.short h7]
    exact h.clip hmute
  · rw [k.short h7]
    exact h.voices hmute
  · rw [k.long h7]
    exact (declareLoss_link w).2
  · rw [k.long h7]
    exact declareLoss_linkLoss ((h.grows .linkLoss).2.1.trans hmask)
  · rw [k.long h7]
    exact h.lossRunon ha hmask

end Sys2Proof.Proofs.BadFrames
end

