-- ==== Sys2Proof/Proofs/GoodFrameRuns.lean ====
section
/-! PROOF. A good frame as acts (R9, R16, R22 to R24, R165, R185): its beginning, the lane before or behind its
audio, and what the lane leaves to be taken. -/

namespace Sys2Proof.Proofs.GoodFrameRuns

open Sys2Proof Sys2Proof.Machine Sys2Proof.Safety Sys2Proof.Proofs.Queues Sys2Proof.Proofs.Traces
  Sys2Proof.Proofs.ActEffects Sys2Proof.Proofs.Occurrences Sys2Proof.Proofs.FrameRuns Sys2Proof.Proofs.LinkParts
  Sys2Proof.Proofs.Counting Sys2Proof.Proofs.FrameEnds Sys2Proof.Proofs.FrameStarts Sys2Proof.Proofs.LaneAssembly
  Sys2Proof.Proofs.PhantomFrames Sys2Proof.Proofs.ClipFrames

/-! ### What a lane of a good frame leaves -/

/-- The out lane and acceptance of a good frame on the state `s`: the state behind it with what it leaves to be taken
before or behind its audio, and the request to be executed. -/
def laneTaken (raw : List Byte) (wasCut : Bool) (request : Option (Byte × Req)) (s : State) : Pass × List Task :=
  sendAndAccept raw wasCut request { state := s, late := [] }

section
variable (raw : List Byte) (wasCut : Bool) (request : Option (Byte × Req)) (s : State)

/-- What is to be taken already does not matter to the lane. -/
theorem sendAndAccept_eq (p : Pass) : sendAndAccept raw wasCut request p =
    ({ state := (laneTaken raw wasCut request p.state).1.state
       late := p.late ++ (laneTaken raw wasCut request p.state).1.late }, (laneTaken raw wasCut request p.state).2) := by
  cases request with
  | none =>
    unfold laneTaken sendAndAccept
    simp only [List.append_nil]
  | some q =>
    unfold laneTaken sendAndAccept
    simp only
    cases (acceptRequest q.2 (sendLane (decodeLane raw) raw wasCut p.state).state).2 with
    | true => simp only [Pass.add, List.nil_append, if_true]
    | false => simp only [Pass.add, List.nil_append, List.append_assoc, Bool.false_eq_true, if_false]

/-- The lane of a frame that completes no request. -/
theorem laneTaken_none : laneTaken raw wasCut none s =
    ({ state := (sendLane (decodeLane raw) raw wasCut s).counted, late := [] }, []) := rfl

/-- The lane of a frame that completes a broadcast: it is counted, and to be executed. -/
theorem laneTaken_broadcast {q : Byte × Req} (h : q.2.broadcast = true) : laneTaken raw wasCut (some q) s =
    ({ state := countEvent .accepted (sendLane (decodeLane raw) raw wasCut s).state
       late := if (sendLane (decodeLane raw) raw wasCut s).relayed then [.relayed] else [] }, [.request q.1 q.2]) := by
  unfold laneTaken sendAndAccept acceptRequest
  simp only [h, if_true]
  rfl

/-- The lane of a frame that completes a request where the queue has room: it gets its reservation. -/
theorem laneTaken_reserved {q : Byte × Req} (h : q.2.broadcast = false)
    (hroom : (sendLane (decodeLane raw) raw wasCut s).state.outq.length < 8) : laneTaken raw wasCut (some q) s =
    ({ state := enqueue .reservation (countEvent .accepted (sendLane (decodeLane raw) raw wasCut s).state)
       late := if (sendLane (decodeLane raw) raw wasCut s).relayed then [.relayed] else [] }, [.request q.1 q.2]) := by
  have hnot : ¬Config.queueSize ≤
      (countEvent .accepted (sendLane (decodeLane raw) raw wasCut s).state).outq.length :=
    Nat.not_le_of_lt hroom
  unfold laneTaken sendAndAccept acceptRequest
  simp only [h, hnot, if_false, if_true, Bool.false_eq_true]
  rfl

/-- The lane of a frame that completes a request at a full queue: it is discarded, REQUEST_DROP is due. -/
theorem laneTaken_dropped {q : Byte × Req} (h : q.2.broadcast = false)
    (hfull : 8 ≤ (sendLane (decodeLane raw) raw wasCut s).state.outq.length) : laneTaken raw wasCut (some q) s =
    ({ state := countEvent .accepted (sendLane (decodeLane raw) raw wasCut s).state
       late := (if (sendLane (decodeLane raw) raw wasCut s).relayed then [.relayed] else [])
        ++ [.occurrence .requestDrop .none] }, []) := by
  have hle : Config.queueSize ≤
      (countEvent .accepted (sendLane (decodeLane raw) raw wasCut s).state).outq.length := hfull
  unfold laneTaken sendAndAccept acceptRequest
  simp only [h, hle, if_false, if_true, Bool.false_eq_true]
  rfl

/-- The lane of a frame, whatever it completes. -/
theorem laneTaken_cases {P : Pass × List Task → Prop}
    (hnone : request = none → P ({ state := (sendLane (decodeLane raw) raw wasCut s).counted, late := [] }, []))
    (hbroadcast : ∀ q, request = some q → q.2.broadcast = true →
      P ({ state := countEvent .accepted (sendLane (decodeLane raw) raw wasCut s).state
           late := if (sendLane (decodeLane raw) raw wasCut s).relayed then [.relayed] else [] }, [.request q.1 q.2]))
    (hreserved : ∀ q, request = some q → q.2.broadcast = false →
      (sendLane (decodeLane raw) raw wasCut s).state.outq.length < 8 →
      P ({ state := enqueue .reservation (countEvent .accepted (sendLane (decodeLane raw) raw wasCut s).state)
           late := if (sendLane (decodeLane raw) raw wasCut s).relayed then [.relayed] else [] }, [.request q.1 q.2]))
    (hdropped : ∀ q, request = some q → q.2.broadcast = false →
      8 ≤ (sendLane (decodeLane raw) raw wasCut s).state.outq.length →
      P ({ state := countEvent .accepted (sendLane (decodeLane raw) raw wasCut s).state
           late := (if (sendLane (decodeLane raw) raw wasCut s).relayed then [.relayed] else [])
            ++ [.occurrence .requestDrop .none] }, [])) : P (laneTaken raw wasCut request s) := by
  cases request with
  | none => exact laneTaken_none raw wasCut s ▸ hnone rfl
  | some q =>
    cases hb : q.2.broadcast with
    | true => exact laneTaken_broadcast raw wasCut s hb ▸ hbroadcast q rfl hb
    | false =>
      by_cases hroom : (sendLane (decodeLane raw) raw wasCut s).state.outq.length < 8
      · exact laneTaken_reserved raw wasCut s hb hroom ▸ hreserved q rfl hb hroom
      · exact laneTaken_dropped raw wasCut s hb (Nat.le_of_not_lt hroom) ▸ hdropped q rfl hb (Nat.le_of_not_lt hroom)

/-- A lane frame touches the lane alone, and counts nothing. -/
theorem sendLane_sent : Sent s (sendLane (decodeLane raw) raw wasCut s).state := by
  have h := (sendLane_step (decodeLane raw) raw wasCut s).rest
  generalize (sendLane (decodeLane raw) raw wasCut s).state = t at h
  refine ⟨?_, fun _ _ _ => .of_counters ?_⟩ <;> rw [h]

theorem sent_count {e : Event} (h : eventCode e = 10 ∨ eventCode e = 11) (t : State) : Sent t (countEvent e t) :=
  ⟨rfl, fun code h10 h11 => countEvent_codeKept (by omega) t⟩

theorem laneTaken_sent : Sent s (laneTaken raw wasCut request s).1.state := by
  have hsent := sendLane_sent raw wasCut s
  have haccepted := hsent.trans (sent_count (.inl rfl : eventCode .accepted = 10 ∨ _) _)
  refine laneTaken_cases raw wasCut request s (P := fun r => Sent s r.1.state) (fun _ => ?_) (fun _ _ _ => haccepted)
    (fun _ _ _ _ => haccepted.trans ⟨rfl, fun _ _ _ => .of_counters rfl⟩) (fun _ _ _ _ => haccepted)
  unfold LaneSent.counted
  split
  · exact hsent.trans (sent_count (.inr rfl) _)
  · exact hsent

/-- What the lane leaves to be taken among the rest: the relaying of a message, and REQUEST_DROP. -/
theorem laneTaken_late {x : Task} (h : x ∈ (laneTaken raw wasCut request s).1.late) :
    x = .relayed ∨ x = .occurrence .requestDrop .none := by
  have hrelayed {x : Task} (m : x ∈ if (sendLane (decodeLane raw) raw wasCut s).relayed then [Task.relayed] else []) :
      x = .relayed := by
    split at m
    · exact List.mem_singleton.1 m
    · cases m
  revert h
  refine laneTaken_cases raw wasCut request s
    (P := fun r => x ∈ r.1.late → x = .relayed ∨ x = .occurrence .requestDrop .none) (fun _ m => by cases m)
    (fun _ _ _ m => .inl (hrelayed m)) (fun _ _ _ _ m => .inl (hrelayed m)) (fun _ _ _ _ m => ?_)
  rcases List.mem_append.1 m with m | m
  · exact .inl (hrelayed m)
  · exact .inr (List.mem_singleton.1 m)

/-- A request is to be executed where the frame completes it. -/
theorem laneTaken_request {x : Task} (h : x ∈ (laneTaken raw wasCut request s).2) :
    ∃ q, request = some q ∧ x = .request q.1 q.2 := by
  revert h
  exact laneTaken_cases raw wasCut request s (P := fun r => x ∈ r.2 → ∃ q, request = some q ∧ x = .request q.1 q.2)
    (fun _ m => by cases m) (fun q e _ m => ⟨q, e, List.mem_singleton.1 m⟩)
    (fun q e _ _ m => ⟨q, e, List.mem_singleton.1 m⟩) (fun _ _ _ _ m => by cases m)

end

/-! ### Audio and lane as acts -/

/-- A frame's audio, the acts taken behind it, its lane and the rest. -/
theorem frameRan_of_lane (ls : LinkState) (xs : Int × Int) (limit : Nat) (s u u3 : State) (p q : Pass)
    (before after : List Task) (back : List Act)
    (hbefore : Sent u p.state) (hlate : p.late.Perm (before ++ raisingLines limit s))
    (hother : ∀ x ∈ before, Other x ∧ x.early ∧ ∀ sc, x ≠ .occurrence .outputClip sc)
    (hback : q.state = runActs ls back (audioFrame ls xs.1 xs.2 p).pass.state)
    (htaken : (tasksOf back ++ q.late).Perm (audioFrame ls xs.1 xs.2 p).pass.late) (hidle : voicesOf back = [])
    (hsent : Sent q.state u3) (hafter : ∀ x ∈ after, Other x) (blocks : List Task) :
    let m := audioFrame ls xs.1 xs.2 p
    m.claims = claims p.state ∧ ∃ front acts' skips, Skips ls front (appendSamples xs.1 xs.2 p.state) skips
      ∧ m.pass.state = runActs ls front (appendSamples xs.1 xs.2 p.state)
      ∧ FrameRan ls xs limit m.samples
        (before ++ skips ++ clipTask ls m.pass.state (clippedSlots m.claims m.samples) ++ after) blocks u p.state
        q.state u3 (finishFrame ls limit (quietLines limit s) { state := u3, late := q.late ++ after ++ blocks })
        (front ++ back) acts'
      ∧ ∀ sc, Task.occurrence .outputClip sc ∉ tasksOf front := by
  intro m
  obtain ⟨hclaims, hsize, front, skips, hstate, htasks, hskips, hsource, hworked, hsampled⟩ :=
    audioFrame_ran ls xs.1 xs.2 p
  obtain ⟨acts', hended, htasks', hidle'⟩ := finishFrame_ran ls limit (quietLines limit s)
    { state := u3, late := q.late ++ after ++ blocks }
  have hmid : (tasksOf (front ++ back) ++ q.late).Perm
      (before ++ raisingLines limit s ++ skips ++ clipTask ls m.pass.state (clippedSlots m.claims m.samples)) := by
    rw [tasksOf_append, List.append_assoc]
    exact ((htaken.append_left _).trans htasks).trans ((hlate.append_right _).append_right _)
  have hearlySkips := skips_early hskips
  have hearlyClip := clipTask_early ls m.pass.state (clippedSlots m.claims m.samples)
  have hearly : ∀ x ∈ tasksOf (front ++ back), x.early := by
    intro x hx
    rcases List.mem_append.1 (hmid.subset (List.mem_append_left _ hx)) with hx | hx
    · rcases List.mem_append.1 hx with hx | hx
      · rcases List.mem_append.1 hx with hx | hx
        · exact (hother x hx).2.1
        · exact raisingLines_early limit s x hx
      · exact hearlySkips x hx
    · exact hearlyClip x hx
  refine ⟨hclaims, front, acts', skips, hskips, hstate,
    ⟨hbefore, ?_, hsent, hended, quiet_of_early hearly, ?_, fun x hx => ?_, ?_, hidle', fun v => ?_, hsize⟩,
    fun sc hx => ?_⟩
  · rw [hback, hstate, runActs_append]
  · have h := perm_rearrange (blocks := after ++ blocks) hmid (by simpa only [List.append_assoc] using htasks')
      (lines_perm limit s)
    simpa only [List.append_assoc] using h
  · rcases List.mem_append.1 hx with hx | hx
    · rcases List.mem_append.1 hx with hx | hx
      · rcases List.mem_append.1 hx with hx | hx
        · exact (hother x hx).1
        · exact skips_other hskips x hx
      · exact clipTask_other _ _ _ x hx
    · exact hafter x hx
  · rw [voicesOf_append, hidle, List.append_nil]
    exact hworked
  · obtain ⟨pre, post, he, hy⟩ := hsampled v
    exact ⟨pre, post ++ back, by rw [he, List.append_assoc, List.cons_append], hy⟩
  · rcases List.mem_append.1 (hsource _ hx) with hx | hx
    · rcases List.mem_append.1 (hlate.subset hx) with hx | hx
      · exact (hother _ hx).2.2 sc rfl
      · obtain ⟨l, -, e⟩ := List.mem_map.1 hx
        cases e
    · obtain ⟨L, e, -⟩ := hskips _ hx
      cases e

/-! ### A good frame as acts -/

/-- The state of a good frame at its audio or lane: the Link Timing Unit has taken it, and its lane frame is assembled. -/
def goodEntered (bytes : List Byte) (s : State) : State := (goodAssembled bytes s).state

/-- LINK_SLIP, and what the lane's assembly raises (R24, R30, R168 to R171). -/
def goodOccurrences (bytes : List Byte) (s : State) : List Task :=
  (ltuGood (frameCount bytes) { state := s, late := [] }).late ++ occurrences (goodAssembled bytes s).raised

/-- The lane of a good frame on a state. -/
def goodTaken (bytes : List Byte) (s w : State) : Pass × List Task :=
  laneTaken (laneBytes bytes) (decide ((goodLinked bytes s).sender = .cut)) (goodAssembled bytes s).request w

theorem slip_mem {bytes : List Byte} {s : State} {x : Task} :
    x ∈ (ltuGood (frameCount bytes) { state := s, late := [] }).late ↔
      slips s.ltu (frameCount bytes) = true ∧ x = .occurrence .linkSlip .device := by
  show x ∈ [] ++ (if slips s.ltu (frameCount bytes) = true then [Task.occurrence .linkSlip .device] else []) ↔ _
  rw [List.nil_append]
  cases slips s.ltu (frameCount bytes) <;> simp

/-- The kinds an assembly raises (R168 to R171). -/
theorem assemble_raises {lane : LaneIn} {s : State} {k : FaultKind} (h : k ∈ (assemble lane s).raised) :
    k = .ctrlRunon ∨ k = .relayDrop ∨ k = .ctrlCheck := by
  have hbegin {bytes : List Byte} {u : State} (m : k ∈ (beginMessage bytes u).raised) : k = .relayDrop := by
    unfold beginMessage at m
    simp only at m
    split at m
    · exact List.mem_singleton.1 m
    · cases m
  have happend {bytes : List Byte} {last : Bool} (m : k ∈ (appendBytes bytes last s).raised) :
      k = .ctrlRunon ∨ k = .ctrlCheck := by
    unfold appendBytes judgeMessage at m
    split at m
    · cases m
    · simp only at m
      split at m
      · exact .inl (List.mem_singleton.1 m)
      · split at m
        · split at m
          · cases m
          · exact .inr (List.mem_singleton.1 m)
        · cases m
  cases lane with
  | idle =>
    have m : k ∈ if (gapFrame s).2 then [FaultKind.ctrlRunon] else [] := h
    split at m
    · exact .inl (List.mem_singleton.1 m)
    · cases m
  | start bytes =>
    cases ha : s.assembly with
    | none =>
      simp only [assemble, ha] at h
      exact .inr (.inl (hbegin h))
    | some a =>
      simp only [assemble, ha, List.mem_cons] at h
      exact h.imp_right fun m => .inl (hbegin m)
  | more bytes => exact (happend h).imp_right .inr
  | last bytes => exact (happend h).imp_right .inr

theorem goodOccurrences_mem {bytes : List Byte} {s : State} {x : Task} : x ∈ goodOccurrences bytes s ↔
    (slips s.ltu (frameCount bytes) = true ∧ x = .occurrence .linkSlip .device)
      ∨ ∃ k ∈ (goodAssembled bytes s).raised, x = .occurrence k .none := by
  unfold goodOccurrences occurrences
  rw [List.mem_append, slip_mem, List.mem_map]
  exact or_congr_right ⟨fun ⟨k, m, e⟩ => ⟨k, m, e.symm⟩, fun ⟨k, m, e⟩ => ⟨k, m, e.symm⟩⟩

theorem goodOccurrences_declared {bytes : List Byte} {s : State} {x : Task} (h : x ∈ goodOccurrences bytes s) :
    ∃ k sc, k ≠ .outputClip ∧ x = .occurrence k sc := by
  rcases goodOccurrences_mem.1 h with ⟨-, rfl⟩ | ⟨k, m, rfl⟩
  · exact ⟨_, _, by decide, rfl⟩
  · refine ⟨k, _, ?_, rfl⟩
    rcases assemble_raises m with rfl | rfl | rfl <;> decide

/-- What the lane of a good frame, served on `w`, leaves to be taken. -/
def laneLeft (bytes : List Byte) (s w : State) : List Task := (goodTaken bytes s w).1.late ++ (goodTaken bytes s w).2

theorem mem_laneLeft {bytes : List Byte} {s w : State} {x : Task} (h : x ∈ laneLeft bytes s w) :
    x = .relayed ∨ x = .occurrence .requestDrop .none
      ∨ ∃ q, (goodAssembled bytes s).request = some q ∧ x = .request q.1 q.2 := by
  rcases List.mem_append.1 h with h | h
  · exact (laneTaken_late _ _ _ _ h).imp_right .inl
  · exact .inr (.inr (laneTaken_request _ _ _ _ h))

/-- What the lane alone leaves to be taken: the relaying of a message, and a request. -/
def ofLane (x : Task) : Prop := x = .relayed ∨ ∃ kind r, x = .request kind r

theorem not_ofLane_occurrence {k : FaultKind} {sc : Scope} : ¬ofLane (.occurrence k sc) := by
  rintro (e | ⟨_, _, e⟩) <;> cases e

theorem count_occurrences {ts : List Task} (h : ∀ y ∈ ts, ∃ k sc, y = .occurrence k sc) {x : Task} (hx : ofLane x) :
    ts.count x = 0 := by
  refine List.count_eq_zero.2 fun m => ?_
  obtain ⟨k, sc, rfl⟩ := h x m
  exact not_ofLane_occurrence hx

/-- Occurrences before and behind do not add to what the lane leaves. -/
theorem count_laneLeft {occs late skips clip tasks : List Task} (hoccs : ∀ y ∈ occs, ∃ k sc, y = .occurrence k sc)
    (hskips : ∀ y ∈ skips, ∃ k sc, y = .occurrence k sc) (hclip : ∀ y ∈ clip, ∃ k sc, y = .occurrence k sc)
    {x : Task} (hx : ofLane x) :
    (occs ++ late ++ skips ++ clip ++ tasks).count x = (late ++ tasks).count x := by
  simp only [List.count_append, count_occurrences hoccs hx, count_occurrences hskips hx, count_occurrences hclip hx]
  omega

theorem count_laneLeft_behind {occs skips clip tasks : List Task} (hoccs : ∀ y ∈ occs, ∃ k sc, y = .occurrence k sc)
    (hskips : ∀ y ∈ skips, ∃ k sc, y = .occurrence k sc) (hclip : ∀ y ∈ clip, ∃ k sc, y = .occurrence k sc)
    {x : Task} (hx : ofLane x) : (occs ++ skips ++ clip ++ tasks).count x = tasks.count x := by
  simp only [List.count_append, count_occurrences hoccs hx, count_occurrences hskips hx, count_occurrences hclip hx]
  omega

theorem skips_occurrences {ls : LinkState} {acts : List Act} {s : State} {ts : List Task} (h : Skips ls acts s ts) :
    ∀ y ∈ ts, ∃ k sc, y = .occurrence k sc := fun y m => by
  obtain ⟨L, e, -⟩ := h y m
  exact ⟨_, _, e⟩

theorem clipTask_occurrences {ls : LinkState} {w : State} {ks : List (Fin 24)} :
    ∀ y ∈ clipTask ls w ks, ∃ k sc, y = .occurrence k sc := fun _ m => ⟨_, _, (mem_clipTask.1 m).2.2⟩

theorem goodOccurrences_occurrences {bytes : List Byte} {s : State} :
    ∀ y ∈ goodOccurrences bytes s, ∃ k sc, y = .occurrence k sc := fun _ m => by
  obtain ⟨k, sc, -, e⟩ := goodOccurrences_declared m
  exact ⟨k, sc, e⟩

/-- A good frame from its beginning, `goodEntered`, to its end `t`: `u0` is the state at its audio, `u2` the one
before and `u3` the one behind what comes last of lane and frame out; the lane is served on `w`. A frame that
completes a request for a reply serves its lane first (R185). -/
structure GoodRan (bytes : List Byte) (s u0 u2 u3 w t : State) (ys : List Int) (front back acts' : List Act)
    (others rest : List Task) : Prop where
  ran : FrameRan (goodLinked bytes s).ltu.link (leadSamples s bytes) s.config.stuckLimit ys others
    (blockTasks (goodEntered bytes s)) (goodEntered bytes s) u0 u2 u3 t (front ++ back) acts'
  clip : ClipsLast (goodLinked bytes s).ltu.link (leadSamples s bytes) ys (goodEntered bytes s) u0 (front ++ back)
    front back others rest
  rest : ∃ skips, Skips (goodLinked bytes s).ltu.link front
    (appendSamples (leadSamples s bytes).1 (leadSamples s bytes).2 u0) skips
      ∧ ∀ x, x ∈ rest ↔ x ∈ goodOccurrences bytes s ∨ x ∈ skips ∨ x ∈ laneLeft bytes s w
  first : reserves (goodAssembled bytes s).request = true → back = [] ∧ w = goodEntered bytes s
    ∧ u0 = (goodTaken bytes s w).1.state ∧ u3 = { u2 with linkOut := some (goodOut bytes s) }
  last : reserves (goodAssembled bytes s).request = false → w = u2 ∧ u0 = goodEntered bytes s
    ∧ u3 = { (goodTaken bytes s w).1.state with linkOut := some (goodOut bytes s) }
  counts : ∀ x, ofLane x → others.count x = (laneLeft bytes s w).count x
  out : goodOut bytes s = outFrame true
    (outBody (goodLinked bytes s).ltu.link bytes (claims (goodEntered bytes s)) ys u3.laneOut)

theorem ltu_of_sent {s t : State} (h : Sent s t) : t.ltu = s.ltu := by rw [h.frame]

theorem goodOccurrences_other {bytes : List Byte} {s : State} {x : Task} (h : x ∈ goodOccurrences bytes s) :
    Other x ∧ x.early ∧ ∀ sc, x ≠ .occurrence .outputClip sc := by
  obtain ⟨k, sc, hne, rfl⟩ := goodOccurrences_declared h
  refine ⟨trivial, trivial, fun sc' e => ?_⟩
  cases e
  exact hne rfl

theorem laneTaken_other {bytes : List Byte} {s w : State} {x : Task} (h : x ∈ (goodTaken bytes s w).1.late) :
    Other x ∧ x.early ∧ ∀ sc, x ≠ .occurrence .outputClip sc := by
  rcases laneTaken_late _ _ _ _ h with rfl | rfl
  · exact ⟨trivial, trivial, nofun⟩
  · exact ⟨trivial, trivial, nofun⟩

theorem laneLeft_other {bytes : List Byte} {s w : State} {x : Task} (h : x ∈ laneLeft bytes s w) : Other x := by
  rcases mem_laneLeft h with rfl | rfl | ⟨q, -, rfl⟩ <;> trivial

/-- A frame that completes a request for a reply, before its audio: its lane has been served. -/
def servedPass (bytes : List Byte) (s : State) : Pass where
  state := (goodTaken bytes s (goodEntered bytes s)).1.state
  late := (goodPass bytes s).late ++ (goodTaken bytes s (goodEntered bytes s)).1.late

/-- Another good frame's audio, with some of its occurrences taken behind it. -/
def tookSome (bytes : List Byte) (s : State) : Pass :=
  let m := audioFrame (goodLinked bytes s).ltu.link (leadSamples s bytes).1 (leadSamples s bytes).2 (goodPass bytes s)
  takeSome (goodLinked bytes s).ltu.link m.pass.late.length m.pass

theorem goodMix_first {bytes : List Byte} {s : State} (h : reserves (goodAssembled bytes s).request = true) :
    goodMix bytes s = (audioFrame (goodLinked bytes s).ltu.link (leadSamples s bytes).1 (leadSamples s bytes).2
      (servedPass bytes s), (goodTaken bytes s (goodEntered bytes s)).2) := by
  unfold goodMix audioAndLane goodLane
  rw [if_pos h, sendAndAccept_eq]
  rfl

theorem goodMix_last {bytes : List Byte} {s : State} (h : reserves (goodAssembled bytes s).request = false) :
    goodMix bytes s = ({ audioFrame (goodLinked bytes s).ltu.link (leadSamples s bytes).1 (leadSamples s bytes).2
        (goodPass bytes s) with
      pass := { state := (goodTaken bytes s (tookSome bytes s).state).1.state
                late := (tookSome bytes s).late ++ (goodTaken bytes s (tookSome bytes s).state).1.late } },
      (goodTaken bytes s (tookSome bytes s).state).2) := by
  unfold goodMix audioAndLane goodLane
  rw [if_neg (by rw [h]; exact Bool.false_ne_true)]
  exact congrArg (fun a : Pass × List Task => (({ audioFrame (goodLinked bytes s).ltu.link (leadSamples s bytes).1
    (leadSamples s bytes).2 (goodPass bytes s) with pass := a.1 } : Mix), a.2)) (sendAndAccept_eq _ _ _ (tookSome bytes s))

/-- The frame whole, its lane served before its audio. -/
theorem goodFrame_ran_first {bytes : List Byte} {s : State} (h : reserves (goodAssembled bytes s).request = true) :
    ∃ u0 u2 u3 w ys front back acts' others rest,
      GoodRan bytes s u0 u2 u3 w (goodFrame bytes s) ys front back acts' others rest := by
  have hmix := goodMix_first h
  have hsent : Sent (goodEntered bytes s) (servedPass bytes s).state := laneTaken_sent _ _ _ _
  have hlate : (servedPass bytes s).late.Perm (goodOccurrences bytes s
      ++ (goodTaken bytes s (goodEntered bytes s)).1.late ++ raisingLines s.config.stuckLimit (goodLinked bytes s)) := by
    show (goodOccurrences bytes s ++ raisingLines s.config.stuckLimit (goodLinked bytes s)
      ++ (goodTaken bytes s (goodEntered bytes s)).1.late).Perm _
    rw [List.append_assoc, List.append_assoc]
    exact List.perm_append_comm.append_left _
  have hother (x : Task) (hx : x ∈ goodOccurrences bytes s ++ (goodTaken bytes s (goodEntered bytes s)).1.late) :=
    (List.mem_append.1 hx).elim goodOccurrences_other laneTaken_other
  obtain ⟨hclaims, front, acts', skips, hskips, hstate, hran, hclip⟩ := frameRan_of_lane (goodLinked bytes s).ltu.link
    (leadSamples s bytes) s.config.stuckLimit (goodLinked bytes s) (goodEntered bytes s)
    { (audioFrame (goodLinked bytes s).ltu.link (leadSamples s bytes).1 (leadSamples s bytes).2
        (servedPass bytes s)).pass.state with linkOut := some (goodOut bytes s) } (servedPass bytes s)
    (audioFrame (goodLinked bytes s).ltu.link (leadSamples s bytes).1 (leadSamples s bytes).2 (servedPass bytes s)).pass
    _ (goodTaken bytes s (goodEntered bytes s)).2 [] hsent hlate hother rfl (.refl _) rfl (.linkOut _ _)
    (fun x hx => laneLeft_other (List.mem_append_right _ hx)) (blockTasks (goodEntered bytes s))
  have hblocks : blockTasks (goodMix bytes s).1.pass.state = blockTasks (goodEntered bytes s) := by
    rw [hmix]
    exact blockTasks_congr (ltu_of_sent hsent ▸ (FrameRan.onlyEngine_mid hran).ltu)
  have hclaimed : claims (servedPass bytes s).state = claims (goodEntered bytes s) :=
    List.map_congr_left fun v _ => congrArg Voice.claims (Sent.voice hsent v)
  have hframe := goodFrame_eq bytes s
  unfold goodSent at hframe
  rw [hblocks, hmix] at hframe
  rw [← hframe] at hran
  refine ⟨_, _, _, _, _, front, [], acts', _,
    goodOccurrences bytes s ++ skips ++ laneLeft bytes s (goodEntered bytes s),
    ⟨hran, ⟨rfl, rfl, hclip, fun x => ?_, fun sc m => ?_⟩, ⟨skips, hskips, fun x => ?_⟩, fun _ => ⟨rfl, rfl, rfl, rfl⟩,
    fun e => (nomatch h.symm.trans e), fun x hx => count_laneLeft goodOccurrences_occurrences
        (skips_occurrences hskips) clipTask_occurrences hx, ?_⟩⟩
  · unfold laneLeft
    rw [hclaims, hclaimed, hstate]
    simp only [List.mem_append]
    tauto
  · simp only [List.mem_append] at m
    rcases m with (m | m) | m
    · exact (goodOccurrences_other m).2.2 sc rfl
    · obtain ⟨L, e, -⟩ := hskips _ m
      cases e
    · rcases mem_laneLeft m with e | e | ⟨q, -, e⟩ <;> cases e
  · simp only [List.mem_append]
    exact or_assoc
  · unfold goodOut
    rw [hmix]
    simp only
    rw [hclaims, hclaimed]

/-- The frame whole, its lane served behind its audio. -/
theorem goodFrame_ran_last {bytes : List Byte} {s : State} (h : reserves (goodAssembled bytes s).request = false) :
    ∃ u0 u2 u3 w ys front back acts' others rest,
      GoodRan bytes s u0 u2 u3 w (goodFrame bytes s) ys front back acts' others rest := by
  have hmix := goodMix_last h
  obtain ⟨back, hback, htaken, hidle⟩ := takeSome_ran (goodLinked bytes s).ltu.link
    (audioFrame (goodLinked bytes s).ltu.link (leadSamples s bytes).1 (leadSamples s bytes).2
      (goodPass bytes s)).pass.late.length
    (audioFrame (goodLinked bytes s).ltu.link (leadSamples s bytes).1 (leadSamples s bytes).2 (goodPass bytes s)).pass
  have hsent : Sent (tookSome bytes s).state (goodTaken bytes s (tookSome bytes s).state).1.state :=
    laneTaken_sent _ _ _ _
  obtain ⟨hclaims, front, acts', skips, hskips, hstate, hran, hclip⟩ := frameRan_of_lane (goodLinked bytes s).ltu.link
    (leadSamples s bytes) s.config.stuckLimit (goodLinked bytes s) (goodEntered bytes s)
    { (goodTaken bytes s (tookSome bytes s).state).1.state with linkOut := some (goodOut bytes s) } (goodPass bytes s)
    (tookSome bytes s) (goodOccurrences bytes s) (laneLeft bytes s (tookSome bytes s).state) back (.refl _) (.refl _)
    (fun x => goodOccurrences_other) hback htaken hidle (hsent.trans (.linkOut _ _)) (fun x => laneLeft_other)
    (blockTasks (goodEntered bytes s))
  have hblocks : blockTasks (goodMix bytes s).1.pass.state = blockTasks (goodEntered bytes s) := by
    rw [hmix]
    exact blockTasks_congr ((ltu_of_sent hsent).trans (FrameRan.onlyEngine_mid hran).ltu)
  have hframe : goodFrame bytes s = finishFrame (goodLinked bytes s).ltu.link s.config.stuckLimit
      (quietLines s.config.stuckLimit (goodLinked bytes s))
      { state := { (goodTaken bytes s (tookSome bytes s).state).1.state with linkOut := some (goodOut bytes s) }
        late := (tookSome bytes s).late ++ laneLeft bytes s (tookSome bytes s).state
          ++ blockTasks (goodEntered bytes s) } := by
    rw [goodFrame_eq]
    unfold goodSent laneLeft
    rw [hblocks, hmix, List.append_assoc (tookSome bytes s).late]
  rw [← hframe] at hran
  refine ⟨_, _, _, _, _, front, back, acts', _,
    goodOccurrences bytes s ++ skips ++ laneLeft bytes s (tookSome bytes s).state,
    ⟨hran, ⟨rfl, hidle, hclip, fun x => ?_, fun sc m => ?_⟩, ⟨skips, hskips, fun x => ?_⟩,
    fun e => (nomatch h.symm.trans e), fun _ => ⟨rfl, rfl, rfl⟩, fun x hx =>
      count_laneLeft_behind goodOccurrences_occurrences (skips_occurrences hskips) clipTask_occurrences hx, ?_⟩⟩
  · rw [hclaims, hstate]
    simp only [List.mem_append]
    tauto
  · simp only [List.mem_append] at m
    rcases m with (m | m) | m
    · exact (goodOccurrences_other m).2.2 sc rfl
    · obtain ⟨L, e, -⟩ := hskips _ m
      cases e
    · rcases mem_laneLeft m with e | e | ⟨q, -, e⟩ <;> cases e
  · simp only [List.mem_append]
    exact or_assoc
  · unfold goodOut
    rw [hmix]
    simp only
    rw [hclaims]
    rfl

theorem goodFrame_ran (bytes : List Byte) (s : State) : ∃ u0 u2 u3 w ys front back acts' others rest,
    GoodRan bytes s u0 u2 u3 w (goodFrame bytes s) ys front back acts' others rest := by
  cases h : reserves (goodAssembled bytes s).request with
  | true => exact goodFrame_ran_first h
  | false => exact goodFrame_ran_last h

end Sys2Proof.Proofs.GoodFrameRuns
end

