-- ==== Sys2Proof/Proofs/GoodFrameStarts.lean ====
section
/-! PROOF. The beginning of a good frame (R18, R22 to R24, R30, R168): what the Link Timing Unit and the lane's
assembly leave, and what they read. -/

namespace Sys2Proof.Proofs.GoodFrameStarts

open Sys2Proof Sys2Proof.Machine Sys2Proof.Safety Sys2Proof.Proofs.Queues Sys2Proof.Proofs.Traces
  Sys2Proof.Proofs.Occurrences Sys2Proof.Proofs.FrameRuns Sys2Proof.Proofs.LinkParts Sys2Proof.Proofs.Counting
  Sys2Proof.Proofs.FrameStarts Sys2Proof.Proofs.LaneAssembly Sys2Proof.Proofs.GoodFrameRuns

/-! ### The lane's assembly and the rest of the state -/

/-- The lane's assembly reads nothing of link, pins, timed cues and gateways, and leaves them. -/
theorem assemble_elsewhere (lane : LaneIn) (s : State) (pins : PedalPins) (l : Ltu) (es : List TimedEntry)
    (gs : Vector Gateway 8) :
    assemble lane { s with pedalPins := pins, ltu := l, timed := es, gateways := gs } =
      { assemble lane s with state := { (assemble lane s).state with
          pedalPins := pins, ltu := l, timed := es, gateways := gs } } := by
  have append (bytes : List Byte) (last : Bool) :
      appendBytes bytes last { s with pedalPins := pins, ltu := l, timed := es, gateways := gs } =
        { appendBytes bytes last s with state := { (appendBytes bytes last s).state with
            pedalPins := pins, ltu := l, timed := es, gateways := gs } } := by
    rcases Option.eq_none_or_eq_some s.assembly with h | ⟨a, h⟩
    · rw [appendBytes_empty bytes last h, appendBytes_empty bytes last (by exact h)]
    · by_cases hlong : 103 < (a.bytes ++ bytes).length
      · rw [appendBytes_long last h hlong, appendBytes_long last (by exact h) hlong]
        rfl
      · have hfits := Nat.le_of_not_lt hlong
        cases last with
        | false =>
          rw [appendBytes_more h hfits, appendBytes_more (by exact h) hfits]
        | true =>
          rw [appendBytes_last h hfits, appendBytes_last (by exact h) hfits]
          cases hok : messageOk (a.bytes ++ bytes) with
          | true => rw [judgeMessage_ok hok, judgeMessage_ok hok]
          | false => rw [judgeMessage_bad hok, judgeMessage_bad hok]
  cases lane with
  | idle =>
    rw [assemble_idle, assemble_idle]
    rcases Option.eq_none_or_eq_some s.assembly with h | ⟨a, h⟩
    · rw [gapFrame_empty h, gapFrame_empty (by exact h)]
    · by_cases hgap : a.gap < 8
      · rw [gapFrame_short h hgap, gapFrame_short (by exact h) hgap]
      · rw [gapFrame_long h (Nat.le_of_not_lt hgap), gapFrame_long (by exact h) (Nat.le_of_not_lt hgap)]
        rfl
  | start bytes =>
    rcases Option.eq_none_or_eq_some s.assembly with h | ⟨a, h⟩
    · rw [assemble_start_empty bytes h, assemble_start_empty bytes (by exact h)]
      rfl
    · rw [assemble_start_over bytes h, assemble_start_over bytes (by exact h)]
      rfl
  | more bytes => exact append bytes false
  | last bytes => exact append bytes true

/-! ### The Link Timing Unit -/

/-- The Link Timing Unit's record after a good frame. -/
def goodLtu (bytes : List Byte) (s : State) : Ltu := (goodLinked bytes s).ltu

theorem goodLtu_eq (bytes : List Byte) (s : State) : goodLtu bytes s =
    if s.ltu.link.running = true then
      { s.ltu.afterGood (decide (frameCount bytes = s.ltu.count + 1)) with count := frameCount bytes }
    else { s.ltu.relocking (noticedTicks s.receiver) with count := frameCount bytes } := by
  split
  next h => exact ltuGood_ltu_running _ h
  next h => exact ltuGood_ltu_entering _ (Bool.eq_false_iff.2 h)

theorem goodLtu_pins (bytes : List Byte) (pins : PedalPins) (s : State) :
    goodLtu bytes { s with pedalPins := pins } = goodLtu bytes s := by
  rw [goodLtu_eq, goodLtu_eq]

theorem goodLtu_count (bytes : List Byte) (s : State) : (goodLtu bytes s).count = frameCount bytes := by
  rw [goodLtu_eq]
  split <;> rfl

/-- The Link Timing Unit's part of a good frame is the count adopted. -/
theorem goodLinked_adopts (bytes : List Byte) (s : State) : ∃ l : Ltu, l.count = s.ltu.count
    ∧ goodLinked bytes s = adoptCount (frameCount bytes) { s with ltu := l } := by
  unfold goodLinked ltuGood Pass.add
  simp only
  refine ⟨_, ?_, rfl⟩
  have hafter (b : Bool) : (s.ltu.afterGood b).count = s.ltu.count := by
    unfold Ltu.afterGood
    split
    · split
      · split <;> rfl
      · rfl
    all_goals rfl
  split
  · rfl
  · rfl
  · exact hafter _
  · exact hafter _

theorem goodLinked_calm (bytes : List Byte) (pins : PedalPins) (s : State) :
    EnteredCalm pins s (goodLinked bytes { s with pedalPins := pins }) := by
  obtain ⟨l, hcount, h⟩ := goodLinked_adopts bytes { s with pedalPins := pins }
  rw [h]
  exact enteredCalm_adopted rfl hcount _

theorem goodLinked_frame (bytes : List Byte) (pins : PedalPins) (s : State) :
    goodLinked bytes { s with pedalPins := pins } =
      { s with pedalPins := pins, ltu := goodLtu bytes s
               timed := (goodLinked bytes { s with pedalPins := pins }).timed
               gateways := (goodLinked bytes { s with pedalPins := pins }).gateways } := by
  have hltu : (goodLinked bytes { s with pedalPins := pins }).ltu = goodLtu bytes s := goodLtu_pins bytes pins s
  obtain ⟨l, -, h⟩ := goodLinked_adopts bytes { s with pedalPins := pins }
  have hframe := adoptCount_eq (frameCount bytes) { s with pedalPins := pins, ltu := l }
  rw [h] at hltu ⊢
  generalize adoptCount (frameCount bytes) { s with pedalPins := pins, ltu := l } = u at *
  rw [← hltu, hframe]

/-! ### The frame's beginning -/

/-- The lane's assembly of a good frame is that of the state before. -/
theorem goodAssembled_eq (bytes : List Byte) (pins : PedalPins) (s : State) :
    let r := assemble (decodeLane (laneBytes bytes)) s
    let q := goodAssembled bytes { s with pedalPins := pins }
    q.raised = r.raised ∧ q.request = r.request
      ∧ q.state = { s with pedalPins := pins, ltu := goodLtu bytes s
                           timed := (goodLinked bytes { s with pedalPins := pins }).timed
                           gateways := (goodLinked bytes { s with pedalPins := pins }).gateways
                           assembly := r.state.assembly, sender := r.state.sender, fifo := r.state.fifo } := by
  have hlinked := goodLinked_frame bytes pins s
  have hrest := (assemble_rest (decodeLane (laneBytes bytes)) s).1
  unfold goodAssembled
  generalize goodLinked bytes { s with pedalPins := pins } = u at hlinked ⊢
  have h := assemble_elsewhere (decodeLane (laneBytes bytes)) s pins (goodLtu bytes s) u.timed u.gateways
  rw [← hlinked] at h
  generalize assemble (decodeLane (laneBytes bytes)) s = r at *
  refine ⟨by rw [h], by rw [h], ?_⟩
  rw [h]
  generalize r.state = x at hrest ⊢
  rw [hrest]

theorem goodEntered_calm (bytes : List Byte) (pins : PedalPins) (s : State) :
    EnteredCalm pins s (goodEntered bytes { s with pedalPins := pins }) := by
  have hlinked := goodLinked_calm bytes pins s
  have hrest := (assemble_rest (decodeLane (laneBytes bytes)) (goodLinked bytes { s with pedalPins := pins })).1
  show EnteredCalm pins s (assemble _ (goodLinked bytes { s with pedalPins := pins })).state
  generalize goodLinked bytes { s with pedalPins := pins } = u at *
  generalize (assemble (decodeLane (laneBytes bytes)) u).state = w at *
  refine ⟨⟨?_, ?_, fun code hcode => CodeKept.trans (hlinked.codes code hcode) (.of_counters ?_)⟩, ?_, ?_⟩
  · have hframe := hlinked.frame
    rw [hrest, hframe]
  · have hcues := hlinked.cues
    rw [hrest]
    exact hcues
  · rw [hrest]
  · rw [hrest]
    exact hlinked.voices
  · rw [hrest]
    exact hlinked.faults

end Sys2Proof.Proofs.GoodFrameStarts
end

