-- ==== Sys2Proof/Proofs/GoodLanes.lean ====
section
/-! PROOF. The out lane of a good frame (R169, R172 to R175) by who holds it, and what neither engine nor requests
touch of it. -/

namespace Sys2Proof.Proofs.GoodLanes

open Sys2Proof Sys2Proof.Machine Sys2Proof.Safety Sys2Proof.Proofs.Queues Sys2Proof.Proofs.Traces
  Sys2Proof.Proofs.ActEffects Sys2Proof.Proofs.Occurrences Sys2Proof.Proofs.FrameRuns Sys2Proof.Proofs.FrameEnds
  Sys2Proof.Proofs.PhantomFrames Sys2Proof.Proofs.LaneAssembly Sys2Proof.Proofs.GoodFrameRuns

/-! ### The lane by its sender -/

theorem cutting_iff (s : State) : cutting s = true ↔
    ∃ a, s.assembly = some a ∧ (a.route = .relay .cut ∨ a.route = .consumeAndRelay .cut) := by
  unfold cutting
  cases s.assembly with
  | none => exact ⟨nofun, fun ⟨_, h, _⟩ => (nomatch h)⟩
  | some a =>
    have hroute : (∃ b, some a = some b ∧ (b.route = .relay .cut ∨ b.route = .consumeAndRelay .cut)) ↔
        a.route = .relay .cut ∨ a.route = .consumeAndRelay .cut :=
      ⟨fun ⟨b, e, h⟩ => by cases e; exact h, fun h => ⟨a, rfl, h⟩⟩
    rw [hroute]
    cases hr : a.route with
    | consume => simp [hr]
    | relay m => cases m <;> simp [hr]
    | consumeAndRelay m => cases m <;> simp [hr]

/-- A START that is cut through begins with this lane frame. -/
def Begins (lane : LaneIn) (s : State) : Prop := (∃ m, lane = .start m) ∧ cutting s = true

section
variable {lane : LaneIn} {raw : List Byte} {wasCut : Bool} {s : State}

theorem sendLane_begins (h : Begins lane s) :
    sendLane lane raw wasCut s = .quiet { s with laneOut := raw, sender := .cut } := by
  obtain ⟨⟨m, rfl⟩, h⟩ := h
  unfold sendLane
  simp only [h, if_true]
  rfl

/-- The lane where no cut-through begins. -/
theorem sendLane_goes (h : ¬Begins lane s) : sendLane lane raw wasCut s =
    if wasCut then (if s.sender = .cut then copyLane lane raw s else .quiet { s with laneOut := idleLane })
    else sendLane .idle raw false s := by
  have hstarts : ∀ m, lane = .start m → cutting s = false := fun m e =>
    Bool.eq_false_iff.2 fun hc => h ⟨⟨m, e⟩, hc⟩
  cases lane with
  | start m =>
    unfold sendLane
    simp only [hstarts m rfl, Bool.false_eq_true, if_false]
  | idle => cases wasCut <;> rfl
  | more m => cases wasCut <;> rfl
  | last m => cases wasCut <;> rfl

theorem sendLane_cut (h : ¬Begins lane s) (hcut : s.sender = .cut) :
    sendLane lane raw true s = copyLane lane raw s := by
  rw [sendLane_goes h, if_pos rfl, if_pos hcut]

theorem sendLane_uncut (h : ¬Begins lane s) (hcut : s.sender ≠ .cut) :
    sendLane lane raw true s = .quiet { s with laneOut := idleLane } := by
  rw [sendLane_goes h, if_pos rfl, if_neg hcut]

theorem sendLane_fifo (h : ¬Begins lane s) {k : Nat} (hs : s.sender = .fifo k) :
    sendLane lane raw false s = sendFifo k s := by
  rw [sendLane_goes h]
  simp only [sendLane, hs]
  rfl

theorem sendLane_queue (h : ¬Begins lane s) {k : Nat} (hs : s.sender = .queue k) :
    sendLane lane raw false s = .quiet (sendQueue k s) := by
  rw [sendLane_goes h]
  simp only [sendLane, hs]
  rfl

theorem sendLane_free (h : ¬Begins lane s) (hs : s.sender = .none) :
    sendLane lane raw false s = if s.fifo = [] then .quiet (sendQueue 0 s) else sendFifo 0 s := by
  rw [sendLane_goes h]
  simp only [sendLane, hs]
  rfl

end

theorem sendQueue_empty {k : Nat} {s : State} (h : s.outq = []) :
    sendQueue k s = { s with laneOut := idleLane, sender := .none } := by
  simp only [sendQueue, h]

/-- The first lane frame of a message leaves the queue as it is. -/
theorem sendQueue_first {s : State} {x : OutItem} {rest : List OutItem} {bytes : List Byte} (h : s.outq = x :: rest)
    (hx : x.bytes = some bytes) : sendQueue 0 s = { s with
      laneOut := (nextPiece bytes 0).1, sender := .queue (min 7 (bytes.length - 1)) } := by
  simp only [sendQueue, h, hx, nextPiece_first]

/-- What a free lane leaves of a queue that is empty or holds one notice. -/
theorem sendLane_free_queue {lane : LaneIn} {raw : List Byte} {s : State} (hs : s.sender = .none)
    (hq : s.outq = [] ∨ ∃ m, s.outq = [.notice m]) : (sendLane lane raw false s).state.outq = s.outq := by
  by_cases h : Begins lane s
  · rw [sendLane_begins h]
    rfl
  · rw [sendLane_free h hs]
    split
    · rcases hq with hq | ⟨m, hq⟩
      · rw [sendQueue_empty hq]
        rfl
      · rw [sendQueue_first hq rfl]
        rfl
    · unfold sendFifo
      split
      · rfl
      · simp only
        split <;> rfl

/-! ### What engine and requests leave -/

/-- No act touches link, pins and lane. -/
theorem runActs_request (ls : LinkState) (acts : List Act) (s : State) :
    (runActs ls acts s).withoutRequests = s.withoutRequests := by
  refine runActs_keeps (P := fun u => u.withoutRequests = s.withoutRequests) ls acts s (fun a _ u hu => ?_) rfl
  refine Eq.trans ?_ hu
  have hengine (h : Act.calm a) : (a.run ls u).withoutRequests = u.withoutRequests :=
    (run_onlyEngine ls u h).request.rest
  cases a with
  | draw => exact hengine trivial
  | voice v => exact hengine trivial
  | task x =>
    cases x with
    | occurrence k sc => exact hengine trivial
    | relayed => exact hengine trivial
    | pedal l n => exact hengine trivial
    | block L => exact hengine trivial
    | request kind r =>
      show (finishRequest r (executeKind kind r u)).withoutRequests = _
      rw [finishRequest_rest]
      exact (executeKind_onlyRequest kind r u).rest

end Sys2Proof.Proofs.GoodLanes
end

