-- ==== Sys2Proof/Proofs/GoodFrames.lean ====
section
/-! PROOF. A good frame that completes no request (O9; parts of O7 and O8): its link, its occurrences, leads, lines,
timed cues, voices and slots, and the block work of a standing frame. -/

namespace Sys2Proof.Proofs.GoodFrames

open Sys2Proof Sys2Proof.Machine Sys2Proof.Safety Sys2Proof.Proofs.Queues Sys2Proof.Proofs.Traces
  Sys2Proof.Proofs.ActEffects Sys2Proof.Proofs.Occurrences Sys2Proof.Proofs.FrameRuns Sys2Proof.Proofs.LinkParts
  Sys2Proof.Proofs.Counting Sys2Proof.Proofs.FrameEnds Sys2Proof.Proofs.FrameStarts Sys2Proof.Proofs.LaneAssembly
  Sys2Proof.Proofs.VoicesInFrames Sys2Proof.Proofs.SlotSums Sys2Proof.Proofs.StandingFrames
  Sys2Proof.Proofs.PhantomFrames Sys2Proof.Proofs.ClipFrames Sys2Proof.Proofs.DeviceMutes
  Sys2Proof.Proofs.FrameOccurrences Sys2Proof.Proofs.Outgoing Sys2Proof.Proofs.Formats
  Sys2Proof.Proofs.GoodFrameRuns Sys2Proof.Proofs.GoodFrameStarts Sys2Proof.Proofs.GoodLanes

/-- The lane frame of a good frame at the assembly buffer. -/
def laneAt (bytes : List Byte) (s : State) : LaneResult := assemble (decodeLane (laneBytes bytes)) s

section
variable {bytes : List Byte} {pins : PedalPins} {s : State} {u0 u2 u3 w t : State} {ys : List Int}
  {front back acts' : List Act} {others rest : List Task}
  (h : GoodRan bytes { s with pedalPins := pins } u0 u2 u3 w t ys front back acts' others rest)

/-! ### Its occurrences -/

section
include h

/-- The things a good frame brings besides lines and block work. -/
theorem GoodRan.mem {x : Task} (m : x ∈ others) :
    (slips s.ltu (frameCount bytes) = true ∧ x = .occurrence .linkSlip .device)
      ∨ (∃ k ∈ (laneAt bytes s).raised, x = .occurrence k .none)
      ∨ (∃ L, x = .occurrence .entrySkipped (.lead L)) ∨ (∃ sc, x = .occurrence .outputClip sc)
      ∨ x ∈ laneLeft bytes { s with pedalPins := pins } w := by
  obtain ⟨skips, hskips, hrest⟩ := h.rest
  rcases (h.clip.last x).1 m with m | m
  · rcases (hrest x).1 m with m | m | m
    · rcases goodOccurrences_mem.1 m with m | m
      · exact .inl m
      · rw [(goodAssembled_eq bytes pins s).1] at m
        exact .inr (.inl m)
    · obtain ⟨L, e, -⟩ := hskips _ m
      exact .inr (.inr (.inl ⟨L, e⟩))
    · exact .inr (.inr (.inr (.inr m)))
  · exact .inr (.inr (.inr (.inl ⟨_, (mem_clipTask.1 m).2.2⟩)))

theorem GoodRan.slip_mem (hs : slips s.ltu (frameCount bytes) = true) : Task.occurrence .linkSlip .device ∈ others := by
  obtain ⟨skips, -, hrest⟩ := h.rest
  exact (h.clip.last _).2 (.inl ((hrest _).2 (.inl (goodOccurrences_mem.2 (.inl ⟨hs, rfl⟩)))))

theorem GoodRan.raised_mem {k : FaultKind} (hk : k ∈ (laneAt bytes s).raised) : Task.occurrence k .none ∈ others := by
  obtain ⟨skips, -, hrest⟩ := h.rest
  refine (h.clip.last _).2 (.inl ((hrest _).2 (.inl (goodOccurrences_mem.2 (.inr ⟨k, ?_, rfl⟩)))))
  rw [(goodAssembled_eq bytes pins s).1]
  exact hk

/-- LINK_SLIP is raised by a slip alone, with scope DEVICE. -/
theorem GoodRan.slip_scope {sc : Scope} (m : Task.occurrence .linkSlip sc ∈ others) :
    sc = .device ∧ slips s.ltu (frameCount bytes) = true := by
  rcases GoodRan.mem h m with ⟨hs, e⟩ | ⟨k, hk, e⟩ | ⟨L, e⟩ | ⟨sc', e⟩ | m
  · cases e
    exact ⟨rfl, hs⟩
  · cases e
    rcases assemble_raises hk with e | e | e <;> cases e
  · cases e
  · cases e
  · rcases mem_laneLeft m with e | e | ⟨q, -, e⟩ <;> cases e

end

/-! ### Without a request -/

section
variable (hreq : (laneAt bytes s).request = none)
include hreq

omit h in
theorem request_none : (goodAssembled bytes { s with pedalPins := pins }).request = none :=
  (goodAssembled_eq bytes pins s).2.1.trans hreq

omit h in
theorem goodTaken_none (x : State) : goodTaken bytes { s with pedalPins := pins } x =
    ({ state := (sendLane (decodeLane (laneBytes bytes)) (laneBytes bytes) (decide (s.sender = .cut)) x).counted
       late := [] }, []) := by
  unfold goodTaken
  rw [request_none hreq, laneTaken_none, goodLinked_frame]

omit h in
theorem laneLeft_none (x : State) : laneLeft bytes { s with pedalPins := pins } x = [] := by
  unfold laneLeft
  rw [goodTaken_none hreq]
  rfl

include h

theorem GoodRan.calm (kind : Byte) (r : Req) : Task.request kind r ∉ others := fun m => by
  rcases GoodRan.mem h m with ⟨-, e⟩ | ⟨k, -, e⟩ | ⟨L, e⟩ | ⟨sc, e⟩ | m
  · cases e
  · cases e
  · cases e
  · cases e
  · rw [laneLeft_none hreq] at m
    cases m

/-- The lane of such a frame is served behind its audio. -/
theorem GoodRan.served : u0 = goodEntered bytes { s with pedalPins := pins }
    ∧ u3 = { (sendLane (decodeLane (laneBytes bytes)) (laneBytes bytes) (decide (s.sender = .cut)) u2).counted with
      linkOut := some (goodOut bytes { s with pedalPins := pins }) } := by
  obtain ⟨hw, h0, h3⟩ := h.last (by rw [request_none hreq]; rfl)
  rw [goodTaken_none hreq, hw] at h3
  exact ⟨h0, h3⟩

end

end

/-! ### Its end -/

/-- A voice's frame and the lane's leave all that neither engine nor lane touches. -/
theorem GoodRan.frame {bytes : List Byte} {pins : PedalPins} {s : State} {u0 u2 u3 w t : State} {ys : List Int}
    {front back acts' : List Act} {others rest : List Task}
    (h : GoodRan bytes { s with pedalPins := pins } u0 u2 u3 w t ys front back acts' others rest)
    (hreq : (laneAt bytes s).request = none) :
    t = { s with pedalPins := pins, ltu := goodLtu bytes s, leadA := t.leadA, leadB := t.leadB, voices := t.voices
                 pedals := t.pedals, gateways := t.gateways, timed := t.timed, faults := t.faults
                 pointer := t.pointer, counters := t.counters, assembly := (laneAt bytes s).state.assembly
                 fifo := t.fifo, outq := t.outq, sender := t.sender, laneOut := t.laneOut
                 linkOut := some (goodOut bytes { s with pedalPins := pins }), draws := t.draws } := by
  obtain ⟨h0, h3⟩ := GoodRan.served h hreq
  have hend := (FrameRan.onlyEngine_end h.ran (GoodRan.calm h hreq) (blockTasks_cases _)).eq
  have hsent := h.ran.sent.frame
  have hmid := (FrameRan.onlyEngine_mid h.ran).eq
  have hentered := (goodAssembled_eq bytes pins s).2.2
  have hout : u3.linkOut = some (goodOut bytes { s with pedalPins := pins }) := by rw [h3]
  unfold laneAt
  rw [show (goodAssembled bytes { s with pedalPins := pins }).state = u0 from h0.symm] at hentered
  generalize (assemble (decodeLane (laneBytes bytes)) s).state = x at *
  rw [hend, hout, hsent, hmid, hentered]

/-- A kind's status after a frame in which it occurs exactly where `P` holds. -/
theorem FrameRan.status_iff {ls : LinkState} {xs : Int × Int} {limit : Nat} {ys : List Int} {others blocks : List Task}
    {u u0 u2 u3 t : State} {acts acts' : List Act} (h : FrameRan ls xs limit ys others blocks u u0 u2 u3 t acts acts')
    (hcalm : ∀ kind r, Task.request kind r ∉ others) (hblocks : blocks = [] ∨ blocks = [.block .a, .block .b])
    {k : FaultKind} (hk : Declared k) {P : Prop} (hocc : (∃ sc, Task.occurrence k sc ∈ others) ↔ P) :
    (t.fault k).status = true ↔ (u.fault k).status = true ∨ ((u.fault k).detectMask = false ∧ P) := by
  by_cases hp : P
  · obtain ⟨sc, m⟩ := hocc.2 hp
    cases hmask : (u.fault k).detectMask with
    | true =>
      rw [FrameRan.masked h hcalm hblocks hk hmask]
      simp
    | false => exact ⟨fun _ => .inr ⟨rfl, hp⟩, fun _ => FrameRan.sets h hcalm hblocks m hmask⟩
  · rw [FrameRan.faultKept h hcalm hblocks hk fun sc m => hp (hocc.1 ⟨sc, m⟩)]
    simp [hp]

/-- An assembly leaves a free lane free. -/
theorem assemble_free {lane : LaneIn} {s : State} (h : s.sender = .none) : (assemble lane s).state.sender = .none := by
  rcases (assemble_rest lane s).2.2 with e | ⟨-, e⟩
  · exact e.trans h
  · exact e

/-- What a good frame that completes no request has done. -/
structure GoodTold (bytes : List Byte) (pins : PedalPins) (s t : State) : Prop where
  frame : t = { s with
    pedalPins := pins, ltu := goodLtu bytes s, leadA := t.leadA, leadB := t.leadB, voices := t.voices
    pedals := t.pedals, gateways := t.gateways, timed := t.timed, faults := t.faults
    pointer := t.pointer, counters := t.counters, assembly := (laneAt bytes s).state.assembly
    fifo := t.fifo, outq := t.outq, sender := t.sender, laneOut := t.laneOut
    linkOut := some (goodOut bytes { s with pedalPins := pins }), draws := t.draws }
  raises : ∀ k ∈ (laneAt bytes s).raised, (s.fault k).detectMask = false → (t.fault k).status = true
  slip : (t.fault .linkSlip).status = true ↔ (s.fault .linkSlip).status = true
    ∨ ((s.fault .linkSlip).detectMask = false ∧ slips s.ltu (frameCount bytes) = true)
  slipMutes : slips s.ltu (frameCount bytes) = true → DeviceMuted .linkSlip s t
  leads : LeadsJudged (leadSamples s bytes) s t
  cues : CuesMoved pins s t
  phantoms : CodeKept 12 s t
  pedals : ∀ l, t.pedal l = pedalAfter s.config.stuckLimit pins[l] (s.pedal l)
  clip : NoMuteDue s → ClipRaised t.ltu.link (leadSamples s bytes) s t
  voices : NoMuteDue s → (s.fault .outputClip).severity = .notice → t.ltu.count.toNat % 64 ≠ 63 →
    ∀ v, t.voice v = voiceAfter s (leadSamples s bytes) v

theorem goodTold {bytes : List Byte} {pins : PedalPins} {s : State} (hreq : (laneAt bytes s).request = none) :
    GoodTold bytes pins s (goodFrame bytes { s with pedalPins := pins }) := by
  obtain ⟨u0, u2, u3, w, ys, front, back, acts', others, rest, h⟩ := goodFrame_ran bytes { s with pedalPins := pins }
  have hs := goodEntered_calm bytes pins s
  have hframe := GoodRan.frame h hreq
  have hcalm := GoodRan.calm h hreq
  obtain ⟨h0, h3⟩ := GoodRan.served h hreq
  have hran := h.ran
  have hclip := h.clip
  have hblocks := blockTasks_cases (goodEntered bytes { s with pedalPins := pins })
  have hentered := (goodAssembled_eq bytes pins s).2.2
  have hls : (goodLinked bytes { s with pedalPins := pins }).ltu = goodLtu bytes s := goodLtu_pins bytes pins s
  have hu : goodEntered bytes { s with pedalPins := pins } = (goodAssembled bytes { s with pedalPins := pins }).state := rfl
  have hxs : leadSamples { s with pedalPins := pins } bytes = leadSamples s bytes := rfl
  rw [hls, hxs] at hran hclip
  rw [← hu] at hentered
  generalize goodFrame bytes { s with pedalPins := pins } = t at *
  have hltu : t.ltu = goodLtu bytes s := by rw [hframe]
  have hend (h63 : t.ltu.count.toNat % 64 = 63) := blockTasks_of_end (s := goodEntered bytes { s with pedalPins := pins })
    (by rw [hentered]; rw [hltu] at h63; exact h63)
  have hoff (h63 : t.ltu.count.toNat % 64 ≠ 63) := blockTasks_of_other (s := goodEntered bytes { s with pedalPins := pins })
    (by rw [hentered]; rw [hltu] at h63; exact h63)
  have hcount : t.ltu.count = (goodEntered bytes { s with pedalPins := pins }).ltu.count := by rw [hltu, hentered]
  generalize goodEntered bytes { s with pedalPins := pins } = u at *
  have hfault (k : FaultKind) : u.fault k = s.fault k := EnteredCalm.fault hs k
  have hvoice (v : VoiceId) : u.voice v = s.voice v := EnteredCalm.voice hs v
  refine ⟨hframe, fun k hk hmask => ?_, ?_, fun hslip => ?_, FrameRan.leadsJudged hran hs.toEntered hcalm hend hoff,
    FrameRan.cuesMoved hran hs.toEntered hcalm rfl hcount hoff, ?_, fun l => ?_, fun hmute => ?_,
    fun hmute hsev h63 v => ?_⟩
  · exact FrameRan.sets hran hcalm hblocks (GoodRan.raised_mem h hk) (by rw [hfault]; exact hmask)
  · have hslip := FrameRan.status_iff hran hcalm hblocks (k := .linkSlip) ⟨by decide, by decide, by decide⟩
      (P := slips s.ltu (frameCount bytes) = true)
      ⟨fun ⟨_, m⟩ => (GoodRan.slip_scope h m).2, fun hs => ⟨_, GoodRan.slip_mem h hs⟩⟩
    rwa [hfault] at hslip
  · refine deviceMuted_of (fun h63 v hv => ?_) (fun h63 hmutes v hv => ?_)
    · rw [hoff h63] at hran
      exact (FrameRan.off hran hcalm (v := v) (by rw [hvoice]; exact hv)).trans (hvoice v)
    · rw [hoff h63] at hran
      refine (FrameRan.mutes hran hcalm ⟨by decide, by decide, by decide⟩ (GoodRan.slip_mem h hslip)
        (fun sc m => (GoodRan.slip_scope h m).1) ?_ (by rw [hvoice]; exact hv)).2
      unfold Mutes
      rw [hfault]
      exact hmutes
  · exact CodeKept.trans (.of_counters (by rw [hentered])) (FrameRan.phantomKept hran hcalm hblocks)
  · rw [FrameRan.pedal hran hcalm hblocks l, Entered.pedal hs.toEntered, Entered.pedalPins hs.toEntered]
  · rw [hltu]
    refine clipRaised hran hs hclip hmute hcalm hblocks hoff ?_ ?_ (fun hq => ?_) fun hsender hq => ?_
    · rw [hltu, h0, hentered]
    · rw [h0, hentered]
    · rw [h0, hentered]
      exact hq
    · have hfree : u2.sender = .none := by
        rw [(FrameRan.onlyEngine_mid hran).sender, h0, hentered]
        exact assemble_free hsender
      rw [h3]
      show (LaneSent.counted _).outq = _
      rw [decide_eq_false (by rw [hsender]; nofun), counted_outq, sendLane_free_queue hfree hq]
  · rw [FrameRan.voice hran hcalm (hoff h63) (EnteredCalm.noMuteDue hs hmute) (.inr ?_) v, h0,
      voiceWork_entered hs.toEntered (hvoice v)]
    exact not_mutes_of_notice (by rw [hfault]; exact hsev)

end Sys2Proof.Proofs.GoodFrames
end

