-- ==== Sys2Proof/Proofs/GoodFrameBlocks.lean ====
section
/-! PROOF. Good frames without a LAST (O9): what they keep, and the standing frame at a block end, which does both
leads' block work behind its lane. -/

namespace Sys2Proof.Proofs.GoodFrameBlocks

open Sys2Proof Sys2Proof.Machine Sys2Proof.Safety Sys2Proof.Proofs.Queues Sys2Proof.Proofs.Traces
  Sys2Proof.Proofs.ActEffects Sys2Proof.Proofs.Occurrences Sys2Proof.Proofs.FrameRuns Sys2Proof.Proofs.LinkParts
  Sys2Proof.Proofs.Counting Sys2Proof.Proofs.FrameEnds Sys2Proof.Proofs.FrameStarts Sys2Proof.Proofs.LaneAssembly
  Sys2Proof.Proofs.VoicesInFrames Sys2Proof.Proofs.SlotSums Sys2Proof.Proofs.StandingFrames
  Sys2Proof.Proofs.PhantomFrames Sys2Proof.Proofs.ClipFrames Sys2Proof.Proofs.DeviceMutes
  Sys2Proof.Proofs.FrameOccurrences Sys2Proof.Proofs.Outgoing Sys2Proof.Proofs.Formats
  Sys2Proof.Proofs.GoodFrameRuns Sys2Proof.Proofs.GoodFrameStarts Sys2Proof.Proofs.GoodLanes
  Sys2Proof.Proofs.GoodFrames Sys2Proof.Proofs.Trailing

/-! ### A frame in order is no slip -/

theorem slips_of_order {u : Ltu} {c : Word32} (h : c = u.count + 1) : slips u c = false := by
  unfold slips
  cases u.link with
  | seeking => rfl
  | relocking => rfl
  | locked => exact decide_eq_false (not_not.2 h)
  | holdover =>
    rw [h, show serialDiff (u.count + 1) (u.count + 1) = 0 by unfold serialDiff ahead; rw [BitVec.sub_self]; rfl]
    rfl

/-! ### The standing frame -/

/-- The state that a good frame's block work starts from, where the lane has nothing to do. -/
theorem goodSamples_eq (bytes : List Byte) (pins : PedalPins) {s : State} (hlane : (laneAt bytes s).state = s)
    (hsender : s.sender = .none) (out : Option (List Byte)) :
    { appendSamples (leadSamples s bytes).1 (leadSamples s bytes).2 (goodEntered bytes { s with pedalPins := pins }) with
        laneOut := idleLane, sender := .none, linkOut := out } =
      { adoptCount (frameCount bytes) s with
        ltu := goodLtu bytes s, pedalPins := pins, linkOut := out, laneOut := idleLane
        leadA := { s.leadA with history := withSample (leadSamples s bytes) s .a }
        leadB := { s.leadB with history := withSample (leadSamples s bytes) s .b } } := by
  have hentered : goodEntered bytes { s with pedalPins := pins } = _ := (goodAssembled_eq bytes pins s).2.2
  rw [show assemble (decodeLane (laneBytes bytes)) s = laneAt bytes s from rfl, hlane] at hentered
  obtain ⟨l, hcount, hadopts⟩ := goodLinked_adopts bytes { s with pedalPins := pins }
  obtain ⟨hgateways, htimed⟩ := adoptCount_same (c := frameCount bytes) (s := s)
    (t := { s with pedalPins := pins, ltu := l }) ⟨rfl, rfl⟩ hcount
  have hs := adoptCount_eq (frameCount bytes) s
  have hlinked : goodLinked bytes { s with pedalPins := pins } =
    adoptCount (frameCount bytes) { s with pedalPins := pins, ltu := l } := hadopts
  rw [hentered, hlinked, hgateways, htimed]
  generalize adoptCount (frameCount bytes) s = x at hs ⊢
  rw [hs]
  generalize x.timed = es
  generalize x.gateways = gs
  rw [← hsender]
  rfl

/-- A good frame at a block end with nothing else to do. -/
structure Standing (bytes : List Byte) (pins : PedalPins) (s : State) : Prop where
  ends : (frameCount bytes).toNat % 64 = 63
  order : frameCount bytes = s.ltu.count + 1
  idle : decodeLane (laneBytes bytes) = .idle
  empty : s.assembly = none
  free : s.sender = .none
  fifo : s.fifo = []
  outq : s.outq = []
  stands : ∀ v, (s.voice v).runs = false
  quiet : QuietLines pins s

theorem laneAt_idle {bytes : List Byte} {s : State} (hidle : decodeLane (laneBytes bytes) = .idle)
    (hempty : s.assembly = none) : laneAt bytes s = { state := s, raised := [], request := none } := by
  unfold laneAt
  rw [hidle, assemble_idle, gapFrame_empty hempty]
  rfl

theorem goodFrame_blocks {bytes : List Byte} {pins : PedalPins} {s : State} (hst : Standing bytes pins s) :
    BlockWorkDone (goodLtu bytes s).link { adoptCount (frameCount bytes) s with
      ltu := goodLtu bytes s, pedalPins := pins, linkOut := some (goodOut bytes { s with pedalPins := pins })
      laneOut := idleLane
      leadA := { s.leadA with history := withSample (leadSamples s bytes) s .a }
      leadB := { s.leadB with history := withSample (leadSamples s bytes) s .b } }
      (goodFrame bytes { s with pedalPins := pins }) := by
  obtain ⟨u0, u2, u3, w, ys, front, back, acts', others, rest, h⟩ := goodFrame_ran bytes { s with pedalPins := pins }
  have hlane := laneAt_idle hst.idle hst.empty
  have hreq : (laneAt bytes s).request = none := by rw [hlane]
  have hs := goodEntered_calm bytes pins s
  obtain ⟨h0, h3⟩ := GoodRan.served h hreq
  have hran := h.ran
  have hclip := h.clip
  obtain ⟨skips, hskips, hrest⟩ := h.rest
  have hbase := goodSamples_eq bytes pins (s := s) (by rw [hlane]) hst.free
    (some (goodOut bytes { s with pedalPins := pins }))
  have hentered : goodEntered bytes { s with pedalPins := pins } = _ := (goodAssembled_eq bytes pins s).2.2
  rw [show assemble (decodeLane (laneBytes bytes)) s = laneAt bytes s from rfl, hlane] at hentered
  have hls : (goodLinked bytes { s with pedalPins := pins }).ltu = goodLtu bytes s := goodLtu_pins bytes pins s
  have hxs : leadSamples { s with pedalPins := pins } bytes = leadSamples s bytes := rfl
  have hend := blockTasks_of_end (s := goodEntered bytes { s with pedalPins := pins }) (by
    rw [hentered, goodLtu_count]
    exact hst.ends)
  have hraised : ∀ x, x ∉ goodOccurrences bytes { s with pedalPins := pins } := fun x m => by
    rcases goodOccurrences_mem.1 m with ⟨e, -⟩ | ⟨k, hk, -⟩
    · rw [slips_of_order (u := ({ s with pedalPins := pins } : State).ltu) hst.order] at e
      cases e
    · rw [(goodAssembled_eq bytes pins s).1, show assemble (decodeLane (laneBytes bytes)) s = laneAt bytes s from rfl,
        hlane] at hk
      cases hk
  have hleft := laneLeft_none (pins := pins) hreq w
  rw [hls, hxs] at hran hclip hskips
  rw [hend] at hran
  generalize goodFrame bytes { s with pedalPins := pins } = t at *
  generalize goodEntered bytes { s with pedalPins := pins } = u at *
  generalize goodOut bytes { s with pedalPins := pins } = out at *
  have hfault (k : FaultKind) : u.fault k = s.fault k := EnteredCalm.fault hs k
  have hvoice (v : VoiceId) : u.voice v = s.voice v := EnteredCalm.voice hs v
  rw [h0] at hran hclip hskips
  have hstood (v : VoiceId) :
      ((appendSamples (leadSamples s bytes).1 (leadSamples s bytes).2 u).voice v).runs = false := by
    rw [show (appendSamples (leadSamples s bytes).1 (leadSamples s bytes).2 u).voice v = s.voice v from hvoice v]
    exact hst.stands v
  have hslots : clippedSlots (claims u) ys = [] :=
    clippedSlots_of_standing u hran.size fun v => sample_stands _ _ hran.quiet hran.worked (hstood v) (hran.sampled v)
  have hskipsNone := skips_of_standing hskips (fun a m => hran.quiet a (List.mem_append_left _ m))
    (by
      have hworked := hran.worked
      rwa [voicesOf_append, hclip.idle, List.append_nil] at hworked) hstood
  have hvoid : ∀ x ∈ others, Void u x := by
    intro x hx
    rcases (hclip.last x).1 hx with hx | hx
    · rcases (hrest x).1 hx with hx | hx | hx
      · exact absurd hx (hraised x)
      · rw [hskipsNone] at hx
        cases hx
      · rw [hleft] at hx
        cases hx
    · exact absurd hslots (mem_clipTask.1 hx).2.1
  have hrests := lineRests_of_quiet hst.quiet (Entered.pedalPins hs.toEntered) (Entered.pedal hs.toEntered)
  have hmid := FrameRan.still_mid hran hvoid (fun v => by
    rw [hvoice]
    exact hst.stands v) hrests
  have hengine := FrameRan.onlyEngine_mid hran
  have hfree : u2.sender = .none := by
    rw [hengine.sender, hentered]
    exact hst.free
  have hfifo : u2.fifo = [] := by
    rw [hengine.fifo, hentered]
    exact hst.fifo
  have houtq : u2.outq = [] := by
    refine (Still.outq hmid).trans ?_
    show u.outq = []
    rw [hentered]
    exact hst.outq
  have hbegins : ¬Begins (decodeLane (laneBytes bytes)) u2 := by
    rw [hst.idle]
    exact fun ⟨⟨m, e⟩, _⟩ => nomatch e
  rw [← hbase]
  refine FrameRan.blockWorkDone hran hvoid hrests ?_
  rw [h3, decide_eq_false (by rw [hst.free]; nofun), sendLane_free hbegins hfree, if_pos hfifo, sendQueue_empty houtq]
  unfold Still at hmid ⊢
  exact congrArg (fun x : State => { x with laneOut := idleLane, sender := .none, linkOut := some out }) hmid

/-! ### The frame at the device -/

theorem exec_goodFrame {bytes : List Byte} (pins : PedalPins) {s : State} (hlow : s.resetLow = false)
    (hframe : isFrame bytes = true) (hgood : frameGood bytes = true) :
    exec (.frameArrival bytes pins) s = .next { goodFrame bytes { s with pedalPins := pins } with
      receiver := { framed := true, sinceStart := none } } := by
  rw [exec_frameArrival hlow]
  unfold arriveFrame
  rw [hframe, hgood]
  rfl

/-- The lane's first byte is the frame's 79th. -/
theorem byteAt_laneBytes (bytes : List Byte) : byteAt (laneBytes bytes) 0 = byteAt bytes 78 := by
  simp [byteAt, laneBytes, List.getD]

/-- A lane frame that is no LAST completes no request (R168). -/
theorem assemble_request_none {lane : LaneIn} (h : ∀ m, lane ≠ .last m) (s : State) :
    (assemble lane s).request = none := by
  cases lane with
  | idle => rfl
  | last m => exact absurd rfl (h m)
  | start m =>
    rcases Option.eq_none_or_eq_some s.assembly with ha | ⟨a, ha⟩
    · rw [assemble_start_empty m ha]
      rfl
    · rw [assemble_start_over m ha]
      rfl
  | more m =>
    show (appendBytes m false s).request = none
    rcases Option.eq_none_or_eq_some s.assembly with ha | ⟨a, ha⟩
    · rw [appendBytes_empty m false ha]
    · by_cases hlong : 103 < (a.bytes ++ m).length
      · rw [appendBytes_long false ha hlong]
      · rw [appendBytes_more ha (Nat.le_of_not_lt hlong)]

theorem laneAt_request {bytes : List Byte} (h : (byteAt bytes 78).toNat / 16 ≠ 3) (s : State) :
    (laneAt bytes s).request = none := by
  refine assemble_request_none (fun m e => ?_) s
  rw [← byteAt_laneBytes] at h
  by_cases hkind : 1 ≤ (byteAt (laneBytes bytes) 0).toNat % 16 ∧ (byteAt (laneBytes bytes) 0).toNat % 16 ≤ 7
      ∧ 1 ≤ (byteAt (laneBytes bytes) 0).toNat / 16 ∧ (byteAt (laneBytes bytes) 0).toNat / 16 ≤ 2
  · obtain ⟨hlow, hhigh, hone, htwo⟩ := hkind
    obtain ⟨hstart, hmore, -⟩ := decodeLane_kinds hlow hhigh
    rcases Nat.lt_or_ge 1 ((byteAt (laneBytes bytes) 0).toNat / 16) with hk | hk
    · rw [hmore (by omega)] at e
      cases e
    · rw [hstart (by omega)] at e
      cases e
  · rw [decodeLane_idle (by omega)] at e
    cases e

/-- Settles O9. -/
theorem goodFrameSamples : Obligations.GoodFrameSamples := by
  refine ⟨fun s bytes => rfl, fun bytes pins s hlow hframe hgood hlast => ?_⟩
  have hexec := exec_goodFrame pins hlow hframe hgood
  have h := goodTold (pins := pins) (laneAt_request hlast s)
  have hblocks := goodFrame_blocks (bytes := bytes) (pins := pins) (s := s)
  have hleads := h.leads
  have hltu : (goodFrame bytes { s with pedalPins := pins }).ltu = goodLtu bytes s := (congrArg State.ltu h.frame :)
  have hout : (goodFrame bytes { s with pedalPins := pins }).linkOut = some (goodOut bytes { s with pedalPins := pins }) :=
    (congrArg State.linkOut h.frame :)
  have heq := h.frame
  have hphantoms := h.phantoms
  generalize goodFrame bytes { s with pedalPins := pins } = x at *
  have hbehind := Behind.receiver { framed := true, sinceStart := none } x
  have hjudged := Behind.leadsJudged hbehind hleads
  refine ⟨_, hexec, ?_, ?_, ?_, hjudged, countsTimes_behind (CodeKept.times hphantoms) (hbehind.codes 12 (by decide)),
    fun h63 horder hidle hempty hfree hfifo houtq hstands hquiet => ?_⟩
  · exact LeadsJudged.history hjudged .a
  · exact LeadsJudged.history hjudged .b
  · rw [← hltu, ← hout] at heq
    show ({ x with receiver := _ } : State) = _
    generalize (laneAt bytes s).state.assembly = a at heq
    have hassembly : x.assembly = a := (congrArg State.assembly heq :)
    rw [← hassembly] at heq
    generalize x = y at heq ⊢
    rw [heq]
  · have hdone := BlockWorkDone.receiver (hblocks ⟨h63, horder, hidle, hempty, hfree, hfifo, houtq, hstands, hquiet⟩)
      { framed := true, sinceStart := none }
    rw [← hltu, ← hout] at hdone
    exact hdone

end Sys2Proof.Proofs.GoodFrameBlocks
end

