-- ==== Sys2Proof/Proofs/GoodFrameLinks.lean ====
section
/-! PROOF. The link at a good frame (O8): the record and the slip, serial differences, and the timed cue queue at a
count's change. -/

namespace Sys2Proof.Proofs.GoodFrameLinks

open Sys2Proof Sys2Proof.Machine Sys2Proof.Safety Sys2Proof.Proofs.CueLaws Sys2Proof.Proofs.LinkParts
  Sys2Proof.Proofs.Queues Sys2Proof.Proofs.Occurrences Sys2Proof.Proofs.DeviceMutes Sys2Proof.Proofs.GoodFrameRuns
  Sys2Proof.Proofs.GoodFrameStarts Sys2Proof.Proofs.GoodFrames Sys2Proof.Proofs.GoodFrameBlocks
  Sys2Proof.Proofs.Trailing

/-! ### Serial differences -/

theorem serialDiff_toInt (a b : Word32) : serialDiff a b = (b - a).toInt := by
  unfold serialDiff ahead
  rw [BitVec.toInt_eq_toNat_cond]
  split
  next h => rw [if_pos (by omega)]
  next h => rw [if_neg (by omega)]; rfl

theorem atOrBefore_iff (a b : Word32) : atOrBefore a b = true ↔ 0 ≤ serialDiff a b := by
  have hlt := (b - a).isLt
  unfold atOrBefore serialDiff
  rw [decide_eq_true_iff]
  unfold ahead
  split <;> omega

/-! ### The timed cue queue at a jump -/

theorem sortByDistance_append (count : Word32) (es : List TimedEntry) (e : TimedEntry) :
    sortByDistance count (es ++ [e]) = insertByDistance count e (sortByDistance count es) :=
  List.foldl_append ..

theorem sortByDistance_pairwise (count : Word32) (es : List TimedEntry) :
    (sortByDistance count es).Pairwise fun x y => ahead count x.due ≤ ahead count y.due := by
  induction es using List.reverseRecOn with
  | nil => exact .nil
  | append_singleton es e ih =>
    rw [sortByDistance_append]
    exact insertByDistance_pairwise count e _ ih

/-- Among entries of one due count an entry put in comes last. -/
theorem insertByDistance_filter (count d : Word32) (e : TimedEntry) (es : List TimedEntry)
    (h : es.Pairwise fun x y => ahead count x.due ≤ ahead count y.due) :
    (insertByDistance count e es).filter (fun x => x.due == d) =
      es.filter (fun x => x.due == d) ++ [e].filter (fun x => x.due == d) := by
  induction es with
  | nil => rfl
  | cons y ys ih =>
    obtain ⟨hy, hys⟩ := List.pairwise_cons.1 h
    unfold insertByDistance
    by_cases hle : ahead count y.due ≤ ahead count e.due
    · rw [if_pos hle, List.filter_cons, List.filter_cons, ih hys]
      split <;> rfl
    · rw [if_neg hle]
      by_cases he : e.due = d
      · have hnone : (y :: ys).filter (fun x => x.due == d) = [] := by
          refine List.filter_eq_nil_iff.2 fun x hx hd => hle ?_
          have hd : x.due = d := by simpa using hd
          rw [he, ← hd]
          rcases List.mem_cons.1 hx with rfl | hx
          · exact Nat.le_refl _
          · exact hy x hx
        rw [List.filter_cons, if_pos (by simpa using he), hnone]
        simp [he]
      · rw [List.filter_cons, if_neg (by simpa using he)]
        simp [he]

/-- The ordering by distance keeps the order of entries of one due count. -/
theorem sortByDistance_filter (count d : Word32) (es : List TimedEntry) :
    (sortByDistance count es).filter (fun x => x.due == d) = es.filter fun x => x.due == d := by
  induction es using List.reverseRecOn with
  | nil => rfl
  | append_singleton es e ih =>
    rw [sortByDistance_append, insertByDistance_filter count d e _ (sortByDistance_pairwise count es), ih,
      List.filter_append]

/-- The entries that a jump makes due, and those it leaves. -/
theorem atJump_cases (count : Word32) (e : TimedEntry) :
    if e.mark || atOrBefore e.due count then e.atJump count = { e with mark := true, due := count }
    else e.atJump count = e ∧ e.mark = false := by
  unfold TimedEntry.atJump
  cases hm : e.mark with
  | true => simp [← hm]
  | false => cases atOrBefore e.due count <;> simp

theorem reorderAtJump_due (count : Word32) (es : List TimedEntry) :
    (es.map fun e => e.atJump count).filter (fun e => e.mark) =
      (es.filter fun e => e.mark || atOrBefore e.due count).map fun e => { e with mark := true, due := count } := by
  induction es with
  | nil => rfl
  | cons e es ih =>
    have h := atJump_cases count e
    rw [List.map_cons, List.filter_cons, List.filter_cons, ih]
    split at h
    next hdue => rw [h, if_pos rfl, if_pos hdue, List.map_cons]
    next hdue => rw [h.1, if_neg (by rw [h.2]; nofun), if_neg hdue]

theorem reorderAtJump_rest (count : Word32) (es : List TimedEntry) :
    (es.map fun e => e.atJump count).filter (fun e => !e.mark) =
      es.filter fun e => !e.mark && !atOrBefore e.due count := by
  induction es with
  | nil => rfl
  | cons e es ih =>
    have h := atJump_cases count e
    rw [List.map_cons, List.filter_cons, List.filter_cons, ih, ← Bool.not_or]
    split at h
    next hdue => rw [h, hdue]; rfl
    next hdue => rw [h.1, Bool.eq_false_iff.2 hdue, h.2]

/-! ### The Link Timing Unit's record -/

theorem goodFrame_ltu (bytes : List Byte) (s : State) : (goodFrame bytes s).ltu = goodLtu bytes s :=
  (congrArg State.ltu (goodFrame_linkPart bytes s) :)

theorem slips_iff (u : Ltu) (c : Word32) : slips u c = true ↔
    (u.link = .locked ∧ c ≠ u.count + 1)
      ∨ (u.link = .holdover ∧ 4 < (serialDiff (u.count + 1) c).natAbs) := by
  unfold slips
  cases u.link <;> simp

/-- Settles O8. -/
theorem goodFrameLink : Obligations.GoodFrameLink := by
  refine ⟨fun bytes pins s hlow hframe hgood => ?_, fun a b => ⟨serialDiff_toInt a b, rfl, atOrBefore_iff a b⟩,
    fun count s => ⟨fun horder => ?_, fun hjump => ?_⟩⟩
  · refine ⟨_, exec_goodFrame pins hlow hframe hgood, ?_, fun hlast => ?_⟩
    · show (goodFrame bytes { s with pedalPins := pins }).ltu = _
      rw [goodFrame_ltu, goodLtu_pins, goodLtu_eq]
      generalize s.ltu = u
      obtain ⟨link, count, tick, good, bad⟩ := u
      cases link with
      | seeking => rfl
      | holdover => rfl
      | locked => rfl
      | relocking =>
        by_cases horder : frameCount bytes = count + 1
        · have hlock : Config.lockRun ≤ good + 1 ↔ 15 ≤ good := Nat.succ_le_succ_iff
          simp only [Ltu.afterGood, if_pos horder, decide_eq_true horder, hlock, if_true]
          by_cases hrun : 15 ≤ good
          · simp only [if_pos hrun]
            rfl
          · simp only [if_neg hrun]
            rfl
        · simp only [if_neg horder, decide_eq_false horder]
          rfl
    · have h := goodTold (pins := pins) (laneAt_request hlast s)
      have hslip := slips_iff s.ltu (frameCount bytes)
      generalize goodFrame bytes { s with pedalPins := pins } = x at *
      have hbehind := Behind.receiver { framed := true, sinceStart := none } x
      refine ⟨?_, fun e => h.slipMutes (hslip.2 e), Behind.cuesMoved hbehind h.cues⟩
      rw [← hslip]
      exact h.slip
  · unfold adoptCount handOffBoth
    simp only [if_pos horder]
    rfl
  · refine ⟨sortByDistance count ((s.timed.map fun e => e.atJump count).filter fun e => !e.mark), ?_,
      sortByDistance_pairwise _ _, fun d => ?_⟩
    · unfold adoptCount handOffBoth reorderAtJump
      simp only [if_neg hjump, reorderAtJump_due]
    · rw [sortByDistance_filter, reorderAtJump_rest, List.filter_filter]
      refine List.filter_congr fun e _ => ?_
      rw [Bool.and_comm]

end Sys2Proof.Proofs.GoodFrameLinks
end

