-- ==== Sys2Proof/Proofs/GoodFrameLanes.lean ====
section
/-! PROOF. The lane of a good frame in the frame whole (R12, R172, R173): what it is served on, what it leaves at the
end, and the frame that leaves. -/

namespace Sys2Proof.Proofs.GoodFrameLanes

open Sys2Proof Sys2Proof.Machine Sys2Proof.Safety Sys2Proof.Proofs.Queues Sys2Proof.Proofs.Traces
  Sys2Proof.Proofs.ActEffects Sys2Proof.Proofs.Occurrences Sys2Proof.Proofs.FrameRuns Sys2Proof.Proofs.FrameEnds
  Sys2Proof.Proofs.FrameStarts Sys2Proof.Proofs.LaneAssembly Sys2Proof.Proofs.PhantomFrames
  Sys2Proof.Proofs.GoodFrameRuns Sys2Proof.Proofs.GoodFrameStarts Sys2Proof.Proofs.GoodLanes
  Sys2Proof.Proofs.GoodFrames Sys2Proof.Proofs.Outgoing

/-! ### Eight bytes -/

theorem nextPiece_length (bytes : List Byte) (k : Nat) : (nextPiece bytes k).1.length = 8 := by
  rcases Nat.eq_zero_or_pos k with rfl | hk
  · rw [nextPiece_first]
    exact Machine.encodeLane_length _ _ (by rw [List.length_take]; omega)
  · by_cases h : k + 7 < bytes.length
    · rw [nextPiece_more hk h]
      exact Machine.encodeLane_length _ _ (by rw [List.length_take]; omega)
    · rw [nextPiece_last hk (Nat.le_of_not_lt h)]
      exact Machine.encodeLane_length _ _ (by rw [List.length_drop]; omega)

theorem idleLane_length : idleLane.length = 8 := rfl

theorem sendFifo_laneOut (k : Nat) (s : State) : (sendFifo k s).state.laneOut.length = 8 := by
  unfold sendFifo
  split
  · exact idleLane_length
  · simp only
    split <;> exact nextPiece_length _ _

theorem sendQueue_laneOut (k : Nat) (s : State) : (sendQueue k s).laneOut.length = 8 := by
  unfold sendQueue
  split
  · exact idleLane_length
  · split
    · exact idleLane_length
    · simp only
      split <;> exact nextPiece_length _ _

theorem copyLane_laneOut (lane : LaneIn) {raw : List Byte} (h : raw.length = 8) (s : State) :
    (copyLane lane raw s).state.laneOut.length = 8 := by
  cases lane with
  | idle => exact idleLane_length
  | start m => exact h
  | more m => exact h
  | last m => exact h

theorem sendLane_laneOut (lane : LaneIn) {raw : List Byte} (h : raw.length = 8) (wasCut : Bool) (s : State) :
    (sendLane lane raw wasCut s).state.laneOut.length = 8 := by
  by_cases hb : Begins lane s
  · rw [sendLane_begins hb]
    exact h
  · cases wasCut with
    | true =>
      by_cases hcut : s.sender = .cut
      · rw [sendLane_cut hb hcut]
        exact copyLane_laneOut lane h s
      · rw [sendLane_uncut hb hcut]
        exact idleLane_length
    | false =>
      cases hs : s.sender with
      | none =>
        rw [sendLane_free hb hs]
        split
        · exact sendQueue_laneOut 0 s
        · exact sendFifo_laneOut 0 s
      | fifo k =>
        rw [sendLane_fifo hb hs]
        exact sendFifo_laneOut k s
      | queue k =>
        rw [sendLane_queue hb hs]
        exact sendQueue_laneOut k s
      | cut =>
        rw [sendLane_goes hb]
        simp only [sendLane, hs]
        exact idleLane_length

/-! ### What the lane is served on, and what it leaves -/

/-- A state's lane: what goes out, who sends, the relay FIFO and the assembly buffer. -/
def laneOf (s : State) : List Byte × Sender × List (List Byte) × Option Assembly :=
  (s.laneOut, s.sender, s.fifo, s.assembly)

/-- Acceptance and counting leave what the lane does. -/
theorem laneTaken_lane (raw : List Byte) (wasCut : Bool) (request : Option (Byte × Req)) (s : State) :
    laneOf (laneTaken raw wasCut request s).1.state = laneOf (sendLane (decodeLane raw) raw wasCut s).state := by
  refine laneTaken_cases raw wasCut request s
    (P := fun r => laneOf r.1.state = laneOf (sendLane (decodeLane raw) raw wasCut s).state) (fun _ => ?_)
    (fun _ _ _ => rfl) (fun _ _ _ _ => rfl) (fun _ _ _ _ => rfl)
  unfold LaneSent.counted
  split <;> rfl

theorem laneOf_onlyEngine {s t : State} (h : OnlyEngine s t) : laneOf t = laneOf s := (congrArg laneOf h.rest :)

/-- The lane of a good frame on a state. -/
def laneServed (bytes : List Byte) (s w : State) : LaneSent :=
  sendLane (decodeLane (laneBytes bytes)) (laneBytes bytes) (decide (s.sender = .cut)) w

section
variable {bytes : List Byte} {pins : PedalPins} {s : State} {u0 u2 u3 w t : State} {ys : List Int}
  {front back acts' : List Act} {others rest : List Task}
  (h : GoodRan bytes { s with pedalPins := pins } u0 u2 u3 w t ys front back acts' others rest)
include h

omit h in
theorem goodTaken_lane (x : State) :
    laneOf (goodTaken bytes { s with pedalPins := pins } x).1.state = laneOf (laneServed bytes s x).state := by
  unfold goodTaken
  rw [laneTaken_lane, goodLinked_frame]
  rfl

/-- The frame's end keeps the lane as it was served. -/
theorem GoodRan.mid_lane : laneOf u3 = laneOf (laneServed bytes s w).state := by
  cases hfirst : reserves (goodAssembled bytes { s with pedalPins := pins }).request with
  | true =>
    obtain ⟨-, -, h0, h3⟩ := h.first hfirst
    rw [h3]
    exact (laneOf_onlyEngine (FrameRan.onlyEngine_mid h.ran)).trans (h0 ▸ goodTaken_lane w)
  | false =>
    obtain ⟨-, -, h3⟩ := h.last hfirst
    rw [h3]
    exact goodTaken_lane w

theorem GoodRan.end_request : t.withoutRequests = u3.withoutRequests := by
  rw [h.ran.ended]
  exact runActs_request _ _ _

theorem GoodRan.end_lane : laneOf t = laneOf (laneServed bytes s w).state := by
  have hend : laneOf t = laneOf u3 := (congrArg laneOf (GoodRan.end_request h) :)
  exact hend.trans (GoodRan.mid_lane h)

theorem GoodRan.end_linkOut : t.linkOut = some (goodOut bytes { s with pedalPins := pins }) := by
  have hend : t.linkOut = u3.linkOut := (congrArg State.linkOut (GoodRan.end_request h) :)
  rw [hend]
  cases hfirst : reserves (goodAssembled bytes { s with pedalPins := pins }).request with
  | true =>
    obtain ⟨-, -, -, h3⟩ := h.first hfirst
    rw [h3]
  | false =>
    obtain ⟨-, -, h3⟩ := h.last hfirst
    rw [h3]

/-- What the lane is served on: the lane's records as assembled, and the queue with notices of the frame at most. -/
theorem GoodRan.served_on : w.sender = (laneAt bytes s).state.sender ∧ w.fifo = (laneAt bytes s).state.fifo
    ∧ w.assembly = (laneAt bytes s).state.assembly ∧ w.nodeAddr = s.nodeAddr ∧ GrowsFrom s.outq w.outq
    ∧ (reserves (laneAt bytes s).request = true → w.outq = s.outq) := by
  have hentered : goodEntered bytes { s with pedalPins := pins } = _ := (goodAssembled_eq bytes pins s).2.2
  have hrequest : (goodAssembled bytes { s with pedalPins := pins }).request = (laneAt bytes s).request :=
    (goodAssembled_eq bytes pins s).2.1
  cases hfirst : reserves (goodAssembled bytes { s with pedalPins := pins }).request with
  | true =>
    obtain ⟨-, hw, -, -⟩ := h.first hfirst
    rw [hw, hentered]
    exact ⟨rfl, rfl, rfl, rfl, .refl _, fun _ => rfl⟩
  | false =>
    obtain ⟨hw, h0, -⟩ := h.last hfirst
    have hengine := FrameRan.onlyEngine_mid h.ran
    have hgrows : GrowsFrom u0.outq u2.outq := by
      rw [h.ran.mixed]
      exact runActs_grows _ (appendSamples _ _ u0) fun a m => (h.ran.quiet a m).calm
    rw [h0, hentered] at hengine hgrows
    rw [hw]
    exact ⟨hengine.sender, hengine.fifo, hengine.assembly, hengine.nodeAddr, hgrows,
      fun e => (nomatch (hrequest ▸ hfirst).symm.trans e)⟩

end

end Sys2Proof.Proofs.GoodFrameLanes
end

