-- ==== Sys2Proof/Proofs/GoodFramesLeave.lean ====
section
/-! PROOF. The frame that leaves for a good frame (O7): its check, slots and lane, and the cut-through of a message
for another node. -/

namespace Sys2Proof.Proofs.GoodFramesLeave

open Sys2Proof Sys2Proof.Machine Sys2Proof.Safety Sys2Proof.Proofs.Queues Sys2Proof.Proofs.Traces
  Sys2Proof.Proofs.ActEffects Sys2Proof.Proofs.Occurrences Sys2Proof.Proofs.FrameRuns Sys2Proof.Proofs.FrameEnds
  Sys2Proof.Proofs.FrameStarts Sys2Proof.Proofs.LaneAssembly Sys2Proof.Proofs.PhantomFrames
  Sys2Proof.Proofs.VoiceLaws Sys2Proof.Proofs.TableRequests Sys2Proof.Proofs.VoicesInFrames
  Sys2Proof.Proofs.SlotSums Sys2Proof.Proofs.ClipFrames Sys2Proof.Proofs.Formats
  Sys2Proof.Proofs.GoodFrameRuns Sys2Proof.Proofs.GoodFrameStarts Sys2Proof.Proofs.GoodLanes
  Sys2Proof.Proofs.GoodFrames Sys2Proof.Proofs.GoodFrameBlocks Sys2Proof.Proofs.GoodFrameLinks
  Sys2Proof.Proofs.GoodFrameLanes Sys2Proof.Proofs.Outgoing Sys2Proof.Proofs.Trailing

/-! ### Claims and checks -/

theorem claims_iff (x : Voice) (k : Fin 24) :
    x.claims = some k ↔ x.state ≠ .off ∧ ∃ p, x.part = some p ∧ p.slot = k := by
  unfold Voice.claims
  cases x.state <;> simp

/-- A frame with the correct check is good (R2, R12). -/
theorem outFrame_good {body : List Byte} (h : body.length = 86) : frameGood (outFrame true body) = true := by
  have hpart : ((outFrame true body).drop 2).take 84 = body.drop 2 := by
    unfold outFrame
    rw [List.drop_append_of_le_length (by omega), List.take_append_of_le_length (by simp [h]),
      List.take_of_length_le (by simp [h])]
  have htail : (outFrame true body).drop 86 = checkBytes (crc (body.drop 2)) := by
    simp [outFrame, ← h]
  rw [frameGood_iff, hpart, htail]

/-! ### A message cut through -/

/-- A START for another node on a free lane with an empty FIFO is cut through (R171, R173). -/
theorem start_cutsThrough {bytes m : List Byte} {s w : State} (hlane : decodeLane (laneBytes bytes) = .start m)
    (hdest : byteAt m 0 ≠ s.nodeAddr) (ha : s.assembly = none) (hs : s.sender = .none) (hf : s.fifo = [])
    (hw : w.assembly = (laneAt bytes s).state.assembly) :
    (laneServed bytes s w).state.laneOut = laneBytes bytes ∧ (laneServed bytes s w).state.sender = .cut := by
  have hmode : chosenMode s = .cut := by
    unfold chosenMode
    rw [if_neg (by rw [hf]; nofun), if_pos ⟨hs, hf⟩]
  have hbegins : Begins (decodeLane (laneBytes bytes)) w := by
    refine ⟨⟨m, hlane⟩, (cutting_iff w).2 ⟨{ bytes := m, gap := 0, route := chosenRoute s (byteAt m 0) }, ?_, ?_⟩⟩
    · rw [hw]
      unfold laneAt
      rw [hlane, assemble_start_empty m ha, beginMessage_eq]
    · show chosenRoute s (byteAt m 0) = _ ∨ chosenRoute s (byteAt m 0) = _
      unfold chosenRoute
      rw [if_neg hdest, hmode]
      split
      · exact .inr rfl
      · exact .inl rfl
  unfold laneServed
  rw [sendLane_begins hbegins]
  exact ⟨rfl, rfl⟩

/-- A MORE of a message cut through is passed on (R173). -/
theorem more_cutsThrough {bytes m : List Byte} {s w : State} {a : Assembly}
    (hlane : decodeLane (laneBytes bytes) = .more m) (ha : s.assembly = some a) (hs : s.sender = .cut)
    (hfits : a.bytes.length + m.length ≤ 103) (hw : w.sender = (laneAt bytes s).state.sender) :
    (laneServed bytes s w).state.laneOut = laneBytes bytes ∧ (laneServed bytes s w).state.sender = .cut := by
  have hcut : w.sender = .cut := by
    have hmore : laneAt bytes s = appendBytes m false s := by
      unfold laneAt
      rw [hlane]
      rfl
    rw [hw, hmore, appendBytes_more ha (by rw [List.length_append]; exact hfits)]
    exact hs
  have hbegins : ¬Begins (decodeLane (laneBytes bytes)) w := by
    rw [hlane]
    exact fun ⟨⟨_, e⟩, _⟩ => nomatch e
  unfold laneServed
  rw [decide_eq_true hs, sendLane_cut hbegins hcut, hlane]
  exact ⟨rfl, hcut⟩

/-! ### The frame that leaves -/

/-- The frame that leaves for a good frame: all that no request can change. -/
structure GoodLeft (bytes : List Byte) (s t : State) (out : List Byte) : Prop where
  length : out.length = 88
  good : frameGood out = true
  head : out.take 6 = bytes.take 6
  lane : laneBytes out = t.laneOut
  unclaimed : ∀ k : Fin 24, claimed (claims s) k = false → slotBytes out k.val = slotBytes bytes k.val
  unlocked : ∀ k : Fin 24, claimed (claims s) k = true → (goodLtu bytes s).link ≠ .locked →
    slotBytes out k.val = [0, 0, 0]
  standing : ∀ k : Fin 24, claimed (claims s) k = true →
    (∀ v, (s.voice v).claims = some k → (s.voice v).runs = false) → slotBytes out k.val = [0, 0, 0]
  start : ∀ m, decodeLane (laneBytes bytes) = .start m → byteAt m 0 ≠ s.nodeAddr →
    s.assembly = none → s.sender = .none → s.fifo = [] → laneBytes out = laneBytes bytes ∧ t.sender = .cut
  more : ∀ m a, decodeLane (laneBytes bytes) = .more m → s.assembly = some a → s.sender = .cut →
    a.bytes.length + m.length ≤ 103 → laneBytes out = laneBytes bytes ∧ t.sender = .cut
  mixed : NoMuteDue s → (goodLtu bytes s).link = .locked → ∀ k : Fin 24, claimed (claims s) k = true →
    slotBytes out k.val = sampleBytes (max (-8388608) (min 8388607 (slotTotal s (leadSamples s bytes) k)))
  assembly : t.assembly = (laneAt bytes s).state.assembly

theorem goodLeft {bytes : List Byte} (hlen : bytes.length = 88) (pins : PedalPins) (s : State) :
    (goodFrame bytes { s with pedalPins := pins }).linkOut = some (goodOut bytes { s with pedalPins := pins })
      ∧ GoodLeft bytes s (goodFrame bytes { s with pedalPins := pins }) (goodOut bytes { s with pedalPins := pins }) := by
  obtain ⟨u0, u2, u3, w, ys, front, back, acts', others, rest, h⟩ := goodFrame_ran bytes { s with pedalPins := pins }
  refine ⟨GoodRan.end_linkOut h, ?_⟩
  have hs := goodEntered_calm bytes pins s
  have hlane := GoodRan.end_lane h
  have hmid := GoodRan.mid_lane h
  obtain ⟨hsender, hfifo, hassembly, -, -, -⟩ := GoodRan.served_on h
  have hran := h.ran
  have hclip := h.clip
  have hout := h.out
  have hls : (goodLinked bytes { s with pedalPins := pins }).ltu = goodLtu bytes s := goodLtu_pins bytes pins s
  have hxs : leadSamples { s with pedalPins := pins } bytes = leadSamples s bytes := rfl
  rw [hls, hxs] at hran hclip
  rw [hls, claims_told hs] at hout
  generalize goodFrame bytes { s with pedalPins := pins } = t at *
  generalize goodOut bytes { s with pedalPins := pins } = out at *
  generalize goodEntered bytes { s with pedalPins := pins } = u at *
  have hlaneOut : t.laneOut = u3.laneOut := (congrArg Prod.fst (hlane.trans hmid.symm) :)
  have hserved : t.laneOut = (laneServed bytes s w).state.laneOut := (congrArg Prod.fst hlane :)
  have htsender : t.sender = (laneServed bytes s w).state.sender := (congrArg (fun x => x.2.1) hlane :)
  have htassembly : t.assembly = (laneServed bytes s w).state.assembly := (congrArg (fun x => x.2.2.2) hlane :)
  have height : u3.laneOut.length = 8 := by
    rw [← hlaneOut, hserved]
    exact sendLane_laneOut _ (by simp [laneBytes, hlen]) _ _
  have houtLane : laneBytes out = t.laneOut := by rw [hout, outFrame_lane hlen height, hlaneOut]
  have hbase (v : VoiceId) :
      (appendSamples (leadSamples s bytes).1 (leadSamples s bytes).2 u0).voice v = s.voice v := base_voice hran hs v
  refine ⟨?_, ?_, ?_, houtLane, fun k hk => ?_, fun k hk hlink => ?_, fun k hk hstands => ?_,
    fun m hm hdest ha hfree hf => ?_, fun m a hm ha hcut hfits => ?_, fun hmute hlink k hk => ?_, ?_⟩
  · rw [hout, outFrame_length hlen height]
  · rw [hout, outFrame_good (outBody_length hlen height)]
  · rw [hout, outFrame_head hlen]
  · rw [hout, outFrame_slot_unclaimed hlen hk]
  · rw [hout, outFrame_slot_claimed hlen hk, claimedSample_unlocked hlink, sampleBytes_zero]
  · have hsum : slotSum (claims s) ys k = 0 := slotSum_of_standing s hran.size fun v hv =>
      sample_stands _ _ hran.quiet hran.worked (by rw [hbase]; exact hstands v hv) (hran.sampled v)
    rw [hout, outFrame_slot_claimed hlen hk, claimedSample, hsum, ← sampleBytes_zero]
    split <;> rfl
  · rw [houtLane, hserved, htsender]
    exact start_cutsThrough hm hdest ha hfree hf hassembly
  · rw [houtLane, hserved, htsender]
    exact more_cutsThrough hm ha hcut hfits hsender
  · rw [hout, outFrame_slot_claimed hlen hk, claimedSample, if_pos hlink, ← claims_told hs,
      sum_told hran hs hclip hmute]
    rfl
  · have hstep := (sendLane_step (decodeLane (laneBytes bytes)) (laneBytes bytes) (decide (s.sender = .cut)) w).rest
    rw [htassembly, ← hassembly]
    unfold laneServed
    rw [hstep]

/-- Settles O7. -/
theorem goodFrameLeaves : Obligations.GoodFrameLeaves := by
  refine ⟨claimed_iff, ⟨allVoices_nodup, mem_allVoices⟩, claims_iff, fun bytes pins s hlow hframe hgood => ?_⟩
  obtain ⟨hlen, -, -⟩ := (isFrame_iff bytes).1 hframe
  have hexec := exec_goodFrame pins hlow hframe hgood
  obtain ⟨hlinkOut, h⟩ := goodLeft hlen pins s
  have hltu := goodFrame_ltu bytes { s with pedalPins := pins }
  rw [goodLtu_pins] at hltu
  have htold := goodTold (bytes := bytes) (pins := pins) (s := s)
  have hrequest := laneAt_request (bytes := bytes)
  generalize goodOut bytes { s with pedalPins := pins } = out at *
  generalize goodFrame bytes { s with pedalPins := pins } = t at *
  refine ⟨_, out, hexec, hlinkOut, h.length, h.good, h.head, h.lane, h.unclaimed, fun k hk hlink => ?_, h.standing,
    h.start, h.more, fun hmute => ⟨fun hlink => ?_, fun hlast => ?_⟩, fun hlast => ?_, h.assembly,
    fun hnone => (htold hnone).raises⟩
  · exact h.unlocked k hk (by rw [← hltu]; exact hlink)
  · exact h.mixed hmute (by rw [← hltu]; exact hlink)
  · exact (htold (hrequest hlast s)).clip hmute
  · exact ⟨(htold (hrequest hlast s)).pedals, (htold (hrequest hlast s)).voices⟩

end Sys2Proof.Proofs.GoodFramesLeave
end

