-- ==== Sys2Proof/Proofs/RequestCodes.lean ====
section
/-! PROOF. What the execution of a request counts (R163, R176): cues dropped and fault occurrences at most, and where it
is no COUNTER_SETUP nothing of acceptance and relaying; so a frame counts each of these as often as it takes it. -/

namespace Sys2Proof.Proofs.RequestCodes

open Sys2Proof Sys2Proof.Machine Sys2Proof.Safety Sys2Proof.Proofs.Queues Sys2Proof.Proofs.Traces
  Sys2Proof.Proofs.ActEffects Sys2Proof.Proofs.Occurrences Sys2Proof.Proofs.Counting Sys2Proof.Proofs.BlockEnds
  Sys2Proof.Proofs.FaultRequests Sys2Proof.Proofs.CueRequests Sys2Proof.Proofs.PhantomFrames

/-! ### The execution of a request -/

theorem setPending_codeKept {code : Nat} (h : eventCode .cueDropped ≠ code) (g : Fin 8) (c : Cue) (o : Origin)
    (s : State) : CodeKept code s (setPending g c o s) := by
  unfold setPending
  simp only
  split
  · split
    · exact CodeKept.trans (countEvent_codeKept h s) (.of_counters rfl)
    · exact .of_counters rfl
  · exact .refl _ _

theorem enterTimed_codeKept {code : Nat} (h : code ≠ 13) (e : TimedEntry) (late : Bool) (s : State) :
    CodeKept code s (enterTimed e late s).state := by
  have hentered : CodeKept code s (handOff e.lead { s with timed := insertEntry s.ltu.count e s.timed }) :=
    handOff_codeKept code e.lead { s with timed := insertEntry s.ltu.count e s.timed }
  unfold enterTimed
  split
  · exact raise_codeKept _ _ h s
  · cases late with
    | false => exact hentered
    | true => exact hentered.trans (raise_codeKept _ _ h _)

theorem actCueAt_codeKept {code : Nat} (h : code ≠ 13) (r : Req) (s : State) :
    CodeKept code s (actCueAt r s).state := by
  unfold actCueAt
  split
  · simp only
    split
    · exact .refl _ _
    · split
      · exact .refl _ _
      · split
        · exact enterTimed_codeKept h _ _ s
        · split
          · exact enterTimed_codeKept h _ _ s
          · split
            · exact enterTimed_codeKept h _ _ s
            · exact raise_codeKept _ _ h s
  · exact .refl _ _

/-- The kinds of a request that touch no counter. -/
def CountsNothing (k : ReqKind) : Prop := k ≠ .cueNow ∧ k ≠ .cueAt ∧ k ≠ .counterSetup

theorem install_counters {t : LoadTarget} {bs : List Byte} {s u : State} (h : install t bs s = some u) :
    u.counters = s.counters := by
  unfold install at h
  cases t with
  | tuning i =>
    obtain ⟨_, _, rfl⟩ := Option.map_eq_some_iff.1 h
    rfl
  | map i =>
    obtain ⟨_, _, rfl⟩ := Option.map_eq_some_iff.1 h
    rfl
  | scene i =>
    obtain ⟨_, _, rfl⟩ := Option.map_eq_some_iff.1 h
    rfl

theorem actOf_counters {k : ReqKind} (h : CountsNothing k) (r : Req) (s : State) :
    (actOf k r s).state.counters = s.counters := by
  obtain ⟨hnow, hat, hsetup⟩ := h
  cases k with
  | cueNow => exact absurd rfl hnow
  | cueAt => exact absurd rfl hat
  | counterSetup => exact absurd rfl hsetup
  | identify => rfl
  | readConfig => rfl
  | readState => rfl
  | readFaults => rfl
  | readCounters => rfl
  | engineReset => rfl
  | readCap =>
    show (actReadCap r s).state.counters = _
    unfold actReadCap
    simp only
    split <;> rfl
  | configure =>
    show (actConfigure r s).state.counters = _
    unfold actConfigure
    split
    · rfl
    · split
      · split <;> rfl
      · split <;> rfl
  | loadBegin =>
    show (actLoadBegin r s).state.counters = _
    unfold actLoadBegin
    split
    · rfl
    · split <;> rfl
  | loadData =>
    show (actLoadData r s).state.counters = _
    unfold actLoadData
    split
    · rfl
    · split <;> rfl
  | loadAbort =>
    show (actLoadAbort r s).state.counters = _
    unfold actLoadAbort
    split <;> rfl
  | loadCommit =>
    show (actLoadCommit r s).state.counters = _
    unfold actLoadCommit
    split
    · rfl
    · split
      · rfl
      · split
        · rfl
        next u h =>
          have hkept := install_counters h
          exact hkept
  | readTable =>
    show (actReadTable r s).state.counters = _
    unfold actReadTable
    simp only
    split
    · rfl
    · split <;> rfl
  | cueFlush =>
    show (actCueFlush r s).state.counters = _
    unfold actCueFlush
    split <;> rfl
  | portSet =>
    show (actPortSet r s).state.counters = _
    unfold actPortSet
    split
    next L _ => cases L <;> rfl
    · rfl
  | gatewaySet =>
    show (actGatewaySet r s).state.counters = _
    unfold actGatewaySet
    split
    · rfl
    · split
      · split <;> rfl
      next g _ _ =>
        simp only [answer, handOffAfterSet_eq]
        split
        · rw [handOff_eq]
          rfl
        · split
          · rw [handOff_eq]
            rfl
          · rfl
  | faultClear =>
    show (actFaultClear r s).state.counters = _
    unfold actFaultClear
    split
    · simp only [answer]
      rw [clearKinds_eq]
    · rfl
  | faultSetup =>
    show (actFaultSetup r s).state.counters = _
    unfold actFaultSetup
    split
    · rfl
    · simp only
      split
      · simp only [answer]
        rw [setupKinds_eq]
      · simp only [answer]
        rw [setupKinds_eq]
      · rfl

/-- A request but COUNTER_SETUP counts dropped cues and occurrences alone. -/
theorem executeKind_codeKept {code : Nat} {kind : Byte} (hkind : kindOfByte kind ≠ some .counterSetup)
    (h9 : eventCode .cueDropped ≠ code) (h13 : code ≠ 13) (r : Req) (s : State) :
    CodeKept code s (executeKind kind r s).state := by
  unfold executeKind
  split
  · exact .refl _ _
  next k hk =>
    unfold checked
    split
    · by_cases hnow : k = .cueNow
      · subst hnow
        show CodeKept code s (actCueNow r s).state
        unfold actCueNow
        split
        · split
          · exact setPending_codeKept h9 _ _ _ s
          · exact .refl _ _
        · exact .refl _ _
      · by_cases hat : k = .cueAt
        · subst hat
          exact actCueAt_codeKept h13 r s
        · exact .of_counters (actOf_counters ⟨hnow, hat, fun e => hkind (e ▸ hk)⟩ r s)
    · exact .refl _ _

/-! ### Acts that relay -/

section
variable (ls : LinkState)

theorem blockWork_codeKept {code : Nat} (h : code = 10 ∨ code = 11) (L : Lead) (s : State) :
    CodeKept code s (blockWork ls L s) := by
  have hnone : judgedEvents s L code = 0 := by
    obtain rfl | rfl := h <;> cases L <;> rfl
  have hcount := (blockWork_judges ls L s).2 code (by unfold CueCodes; omega)
  rw [hnone] at hcount
  exact CodeKept.of_times hcount

/-- No COUNTER_SETUP is among the acts. -/
def KeepsCounters (acts : List Act) : Prop :=
  ∀ kind r, Task.request kind r ∈ tasksOf acts → kindOfByte kind ≠ some .counterSetup

theorem finishRequest_codeKept {code : Nat} (r : Req) {s : State} {a : Answer} (h : CodeKept code s a.state) :
    CodeKept code s (finishRequest r a) := by
  rw [finishRequest_rest]
  exact h

/-- An act but the relaying of a message and COUNTER_SETUP keeps the counters of acceptance and relaying. -/
theorem run_laneCodeKept {code : Nat} (h : code = 10 ∨ code = 11) {a : Act}
    (hsetup : ∀ kind r, a = .task (.request kind r) → kindOfByte kind ≠ some .counterSetup)
    (hnone : code = 11 → a ≠ .task .relayed) (s : State) : CodeKept code s (a.run ls s) := by
  have hquiet (hq : Act.quiet a) : CodeKept code s (a.run ls s) := by
    obtain rfl | rfl := h
    · exact run_codeKept ls s (by unfold ActCodes; decide) hq
    · exact run_relayedKept ls s hq (hnone rfl)
  cases a with
  | draw => exact hquiet trivial
  | voice v => exact hquiet trivial
  | task t =>
    cases t with
    | occurrence k sc => exact hquiet trivial
    | relayed =>
      refine countEvent_codeKept (e := .relayed) ?_ s
      show (11 : Nat) ≠ code
      exact fun e => hnone e.symm rfl
    | pedal l limit => exact hquiet trivial
    | block L => exact blockWork_codeKept ls h L s
    | request kind r =>
      refine finishRequest_codeKept r (executeKind_codeKept (hsetup kind r rfl) ?_ (by omega) r s)
      show (8 : Nat) ≠ code
      omega

theorem runActs_acceptedKept {acts : List Act} (h : KeepsCounters acts) (s : State) :
    CodeKept 10 s (runActs ls acts s) :=
  runActs_keeps ls acts s (fun _ m u hu => CodeKept.trans hu (run_laneCodeKept ls (.inl rfl)
    (fun kind r e => h kind r (mem_tasksOf.2 (e ▸ m))) nofun u)) (.refl _ _)

/-- The relaying of messages is counted as often as it is taken. -/
theorem runActs_relayed : ∀ (acts : List Act) (s : State), KeepsCounters acts →
    CountsTimes 11 ((tasksOf acts).count .relayed) s (runActs ls acts s)
  | [], s, _ => CodeKept.times (.refl _ _)
  | a :: acts, s, h => by
    have hrest := runActs_relayed acts (a.run ls s) fun kind r m =>
      h kind r (mem_tasksOf.2 (List.mem_cons_of_mem _ (mem_tasksOf.1 m)))
    by_cases ha : a = .task .relayed
    · subst ha
      have hone : CountsTimes 11 1 s (countEvent .relayed s) := countEvent_once .relayed s
      have hcount : (tasksOf (.task .relayed :: acts)).count .relayed = 1 + (tasksOf acts).count .relayed := by
        show (Task.relayed :: tasksOf acts).count .relayed = _
        rw [List.count_cons_self, Nat.add_comm]
      rw [hcount]
      exact countsTimes_trans hone hrest
    · have hcount : (tasksOf (a :: acts)).count .relayed = (tasksOf acts).count .relayed := by
        cases a with
        | draw => rfl
        | voice v => rfl
        | task t =>
          show (t :: tasksOf acts).count .relayed = _
          exact List.count_cons_of_ne fun e => ha (congrArg Act.task e)
      rw [hcount]
      exact countsTimes_before (run_laneCodeKept ls (.inr rfl)
        (fun kind r e => h kind r (mem_tasksOf.2 (e ▸ List.mem_cons_self))) (fun _ => ha) s) hrest

end

end Sys2Proof.Proofs.RequestCodes
end

