-- ==== Sys2Proof/Proofs/GoodFrameQueues.lean ====
section
/-! PROOF. The outbound queue and the counters of acceptance and relaying in a good frame (R162, R172 to R176). -/

namespace Sys2Proof.Proofs.GoodFrameQueues

open Sys2Proof Sys2Proof.Machine Sys2Proof.Safety Sys2Proof.Proofs.Queues Sys2Proof.Proofs.Traces
  Sys2Proof.Proofs.ActEffects Sys2Proof.Proofs.Occurrences Sys2Proof.Proofs.FrameRuns Sys2Proof.Proofs.FrameEnds
  Sys2Proof.Proofs.FrameStarts Sys2Proof.Proofs.LaneAssembly Sys2Proof.Proofs.Counting
  Sys2Proof.Proofs.PhantomFrames Sys2Proof.Proofs.FrameOccurrences Sys2Proof.Proofs.GoodFrameRuns
  Sys2Proof.Proofs.GoodFrameStarts Sys2Proof.Proofs.GoodLanes Sys2Proof.Proofs.GoodFrames
  Sys2Proof.Proofs.GoodFrameLanes Sys2Proof.Proofs.RequestCodes

/-! ### The queue's front -/

/-- A reply fills a reservation behind what holds none. -/
theorem fillReservation_behind (m : Message) : ∀ {q : List OutItem} (z : List OutItem), OutItem.reservation ∉ q →
    fillReservation m (q ++ z) = q ++ fillReservation m z
  | [], _, _ => rfl
  | .reservation :: _, _, h => absurd List.mem_cons_self h
  | .reply m' :: q, z, h => by
    have hq : OutItem.reservation ∉ q := fun e => h (List.mem_cons_of_mem _ e)
    show OutItem.reply m' :: fillReservation m (q ++ z) = _
    rw [fillReservation_behind m z hq]
    rfl
  | .notice m' :: q, z, h => by
    have hq : OutItem.reservation ∉ q := fun e => h (List.mem_cons_of_mem _ e)
    show OutItem.notice m' :: fillReservation m (q ++ z) = _
    rw [fillReservation_behind m z hq]
    rfl

/-- Whatever is taken, a front of the queue without reservations stays. -/
theorem runActs_front (ls : LinkState) (acts : List Act) {s : State} {q : List OutItem}
    (hnone : OutItem.reservation ∉ q) (h : q <+: s.outq) : q <+: (runActs ls acts s).outq := by
  refine runActs_keeps (P := fun u => q <+: u.outq) ls acts s (fun a _ u hu => ?_) h
  have hcalm (hc : Act.calm a) : q <+: (a.run ls u).outq := hu.trans (run_onlyEngine ls u hc).queue
  cases a with
  | draw => exact hcalm trivial
  | voice v => exact hcalm trivial
  | task t =>
    cases t with
    | occurrence k sc => exact hcalm trivial
    | relayed => exact hcalm trivial
    | pedal l limit => exact hcalm trivial
    | block L => exact hcalm trivial
    | request kind r =>
      show q <+: (finishRequest r (executeKind kind r u)).outq
      obtain ⟨z, hz⟩ := hu.trans (executeKind_onlyRequest kind r u).queue
      unfold finishRequest
      split
      · exact ⟨z, hz⟩
      · show q <+: fillReservation _ (executeKind kind r u).state.outq
        rw [← hz, fillReservation_behind _ z hnone]
        exact List.prefix_append _ _

/-- A state in which no kind reports. -/
def Unreported (s : State) : Prop := ∀ k, (s.fault k).reportMask = true

/-- In a state in which no kind reports quiet acts leave the queue (R156). -/
theorem runActs_silent (ls : LinkState) {acts : List Act} (hquiet : ∀ a ∈ acts, Act.quiet a) {s : State}
    (h : Unreported s) : (runActs ls acts s).outq = s.outq := by
  refine (runActs_keeps (P := fun u => StatusGrows s u ∧ u.outq = s.outq) ls acts s (fun a m u hu => ?_)
    ⟨.refl s, rfl⟩).2
  obtain ⟨hgrows, hu⟩ := hu
  have hreport (k : FaultKind) : (u.fault k).reportMask = true := (hgrows k).2.2.1.trans (h k)
  have hstep : (a.run ls u).outq = u.outq := by
    cases a with
    | draw => rfl
    | voice v =>
      show (voiceWork v u).state.outq = u.outq
      rw [(voiceWork_frame v u).1]
    | task t =>
      cases t with
      | occurrence k sc => exact raise_outq_unreported (hreport k) sc
      | relayed => rfl
      | pedal l limit => exact pedalWork_outq_unreported (hreport _) limit l
      | block L => exact (hquiet _ m).elim
      | request kind r => exact (hquiet _ m).elim
  exact ⟨StatusGrows.trans hgrows (run_statusGrows ls u (hquiet a m).calm), hstep.trans hu⟩

/-! ### The queue of a good frame -/

/-- A queue that only grew holds no more reservations. -/
theorem not_reserved_of_grows {q q' : List OutItem} (h : GrowsFrom q q') (hnone : OutItem.reservation ∉ q) :
    OutItem.reservation ∉ q' := by
  obtain ⟨new, rfl, hnew, -⟩ := h
  intro m
  rcases List.mem_append.1 m with m | m
  · exact hnone m
  · cases hnew _ m

/-- Acceptance leaves the queue, or puts a reservation behind it. -/
theorem laneTaken_outq (raw : List Byte) (wasCut : Bool) (request : Option (Byte × Req)) (s : State) :
    (sendLane (decodeLane raw) raw wasCut s).state.outq <+: (laneTaken raw wasCut request s).1.state.outq
      ∧ (reserves request = false →
        (laneTaken raw wasCut request s).1.state.outq = (sendLane (decodeLane raw) raw wasCut s).state.outq) := by
  refine laneTaken_cases raw wasCut request s
    (P := fun r => (sendLane (decodeLane raw) raw wasCut s).state.outq <+: r.1.state.outq ∧ (reserves request = false →
      r.1.state.outq = (sendLane (decodeLane raw) raw wasCut s).state.outq))
    (fun _ => ?_) (fun _ _ _ => ⟨List.prefix_refl _, fun _ => rfl⟩)
    (fun q hq hb _ => ⟨List.prefix_append _ _, fun e => ?_⟩) (fun _ _ _ _ => ⟨List.prefix_refl _, fun _ => rfl⟩)
  · unfold LaneSent.counted
    split <;> exact ⟨List.prefix_refl _, fun _ => rfl⟩
  · rw [hq] at e
    unfold reserves at e
    simp only [hb] at e
    cases e

/-- The lane leaves of the queue the whole, or what stands behind its head. -/
theorem laneServed_outq (bytes : List Byte) (s w : State) : (laneServed bytes s w).state.outq = w.outq
    ∨ ∃ x, w.outq = x :: (laneServed bytes s w).state.outq :=
  (sendLane_step (decodeLane (laneBytes bytes)) (laneBytes bytes) (decide (s.sender = .cut)) w).outq.imp_right
    fun h => h.2

section
variable {bytes : List Byte} {pins : PedalPins} {s : State} {u0 u2 u3 w t : State} {ys : List Int}
  {front back acts' : List Act} {others rest : List Task}
  (h : GoodRan bytes { s with pedalPins := pins } u0 u2 u3 w t ys front back acts' others rest)
include h

omit h in
theorem goodTaken_outq (x : State) :
    (laneServed bytes s x).state.outq <+: (goodTaken bytes { s with pedalPins := pins } x).1.state.outq
      ∧ (reserves (laneAt bytes s).request = false →
        (goodTaken bytes { s with pedalPins := pins } x).1.state.outq = (laneServed bytes s x).state.outq) := by
  have hq := laneTaken_outq (laneBytes bytes) (decide (s.sender = .cut)) (laneAt bytes s).request x
  unfold goodTaken
  rw [goodLinked_frame, (goodAssembled_eq bytes pins s).2.1]
  exact hq

/-- The lane is served on a queue without reservations, and leaves one. -/
theorem GoodRan.served_unreserved (hnone : OutItem.reservation ∉ s.outq) :
    OutItem.reservation ∉ (laneServed bytes s w).state.outq := by
  have hw := not_reserved_of_grows (GoodRan.served_on h).2.2.2.2.1 hnone
  rcases laneServed_outq bytes s w with e | ⟨x, e⟩
  · rw [e]
    exact hw
  · exact fun m => hw (e ▸ List.mem_cons_of_mem _ m)

/-- What the lane leaves of the queue stands at its front at the frame's end. -/
theorem GoodRan.end_front (hnone : OutItem.reservation ∉ s.outq) : (laneServed bytes s w).state.outq <+: t.outq := by
  have hserved := GoodRan.served_unreserved h hnone
  have htaken := (goodTaken_outq (bytes := bytes) (pins := pins) (s := s) w).1
  rw [h.ran.ended]
  refine runActs_front _ _ hserved ?_
  cases hfirst : reserves (goodAssembled bytes { s with pedalPins := pins }).request with
  | true =>
    obtain ⟨-, -, h0, h3⟩ := h.first hfirst
    rw [h3]
    have hmid := (FrameRan.onlyEngine_mid h.ran).queue
    rw [h0] at hmid
    exact htaken.trans hmid
  | false =>
    obtain ⟨-, -, h3⟩ := h.last hfirst
    rw [h3]
    exact htaken

/-- A silent frame adds nothing to the queue. -/
theorem GoodRan.silent (hreports : Unreported s) (hreq : (laneAt bytes s).request = none)
    (h63 : (frameCount bytes).toNat % 64 ≠ 63) : w.outq = s.outq ∧ t.outq = (laneServed bytes s w).state.outq := by
  have hs := goodEntered_calm bytes pins s
  have hreq' := request_none (pins := pins) hreq
  obtain ⟨hw, h0, h3⟩ := h.last (by rw [hreq']; rfl)
  have hentered : goodEntered bytes { s with pedalPins := pins } = _ := (goodAssembled_eq bytes pins s).2.2
  have hblocks : blockTasks (goodEntered bytes { s with pedalPins := pins }) = [] := blockTasks_of_other (by
    rw [hentered, goodLtu_count]
    exact h63)
  have hran := h.ran
  have hcalm := GoodRan.calm h hreq
  have htaken := (goodTaken_outq (bytes := bytes) (pins := pins) (s := s) w).2 (by rw [hreq]; rfl)
  rw [hblocks] at hran
  have hu0 : Unreported u0 := fun k => by
    rw [h0, EnteredCalm.fault hs]
    exact hreports k
  have hu2 : Unreported u2 := fun k => by
    have hgrows := runActs_statusGrows (goodLinked bytes { s with pedalPins := pins }).ltu.link
      (appendSamples (leadSamples { s with pedalPins := pins } bytes).1
        (leadSamples { s with pedalPins := pins } bytes).2 u0) (acts := front ++ back)
      fun a m => (h.ran.quiet a m).calm
    rw [← h.ran.mixed] at hgrows
    exact (hgrows k).2.2.1.trans (hu0 k)
  have hu3 : Unreported u3 := fun k => by
    rw [Sent.faultKept h.ran.sent k]
    exact hu2 k
  have hmid : u2.outq = s.outq := by
    rw [h.ran.mixed, runActs_silent _ h.ran.quiet (s := appendSamples _ _ u0) hu0]
    show u0.outq = s.outq
    rw [h0, hentered]
  refine ⟨by rw [hw]; exact hmid, ?_⟩
  rw [hran.ended, runActs_silent _ (FrameRan.quiet' hran hcalm rfl) hu3, h3, htaken]

end

end Sys2Proof.Proofs.GoodFrameQueues
end

