-- ==== Sys2Proof/Proofs/GoodFrameCounts.lean ====
section
/-! PROOF. A good frame counts its request once and each relayed message once (R162, R173, R174, R176). -/

namespace Sys2Proof.Proofs.GoodFrameCounts

open Sys2Proof Sys2Proof.Machine Sys2Proof.Safety Sys2Proof.Proofs.Queues Sys2Proof.Proofs.Traces
  Sys2Proof.Proofs.ActEffects Sys2Proof.Proofs.Occurrences Sys2Proof.Proofs.FrameRuns Sys2Proof.Proofs.FrameEnds
  Sys2Proof.Proofs.FrameStarts Sys2Proof.Proofs.Counting Sys2Proof.Proofs.PhantomFrames
  Sys2Proof.Proofs.GoodFrameRuns
  Sys2Proof.Proofs.GoodFrameStarts Sys2Proof.Proofs.GoodLanes Sys2Proof.Proofs.GoodFrames
  Sys2Proof.Proofs.GoodFrameLanes Sys2Proof.Proofs.RequestCodes

/-! ### The lane's own events -/

section
variable (raw : List Byte) (wasCut : Bool) (request : Option (Byte × Req)) (s : State)

theorem sendLane_codeKept (code : Nat) : CodeKept code s (sendLane (decodeLane raw) raw wasCut s).state := by
  have h := (sendLane_step (decodeLane raw) raw wasCut s).rest
  generalize (sendLane (decodeLane raw) raw wasCut s).state = t at h
  exact .of_counters (by rw [h])

/-- A relayed message is counted at once, or left to be counted. -/
theorem laneTaken_relayed : ∃ n, CountsTimes 11 n s (laneTaken raw wasCut request s).1.state
    ∧ n + ((laneTaken raw wasCut request s).1.late ++ (laneTaken raw wasCut request s).2).count .relayed
      = (sendLane (decodeLane raw) raw wasCut s).relayed.toNat := by
  have hsent := sendLane_codeKept raw wasCut s 11
  have haccepted : CodeKept 11 s (countEvent .accepted (sendLane (decodeLane raw) raw wasCut s).state) :=
    CodeKept.trans hsent (countEvent_codeKept (e := .accepted) (by decide) _)
  have hlate : (if (sendLane (decodeLane raw) raw wasCut s).relayed = true then [Task.relayed] else []).count .relayed
      = (sendLane (decodeLane raw) raw wasCut s).relayed.toNat := by
    cases (sendLane (decodeLane raw) raw wasCut s).relayed <;> rfl
  refine laneTaken_cases raw wasCut request s
    (P := fun r => ∃ n, CountsTimes 11 n s r.1.state
      ∧ n + (r.1.late ++ r.2).count .relayed = (sendLane (decodeLane raw) raw wasCut s).relayed.toNat)
    (fun _ => ?_) (fun _ _ _ => ⟨0, CodeKept.times haccepted, ?_⟩) (fun _ _ _ _ => ⟨0, CodeKept.times ?_, ?_⟩)
    (fun _ _ _ _ => ⟨0, CodeKept.times haccepted, ?_⟩)
  · exact ⟨_, countsTimes_before hsent (countEvent_flag .relayed (sendLane (decodeLane raw) raw wasCut s).relayed _), rfl⟩
  · rw [List.count_append, hlate, List.count_singleton]
    simp
  · exact CodeKept.trans haccepted (.of_counters rfl)
  · rw [List.count_append, hlate, List.count_singleton]
    simp
  · rw [List.append_nil, List.count_append, hlate, List.count_singleton]
    simp

/-- A completed request is counted once. -/
theorem laneTaken_accepted : CountsTimes 10 request.isSome.toNat s (laneTaken raw wasCut request s).1.state := by
  have hsent := sendLane_codeKept raw wasCut s 10
  have haccepted : CountsTimes 10 1 s (countEvent .accepted (sendLane (decodeLane raw) raw wasCut s).state) :=
    countsTimes_before hsent (countEvent_once .accepted _)
  refine laneTaken_cases raw wasCut request s (P := fun r => CountsTimes 10 request.isSome.toNat s r.1.state)
    (fun e => ?_) (fun q e _ => ?_) (fun q e _ _ => ?_) (fun q e _ _ => ?_)
  · rw [e]
    exact CodeKept.times (CodeKept.trans hsent
      (countEvent_flag_kept (e := .relayed) (by decide) (sendLane (decodeLane raw) raw wasCut s).relayed _))
  · rw [e]
    exact haccepted
  · rw [e]
    exact countsTimes_behind haccepted (.of_counters rfl)
  · rw [e]
    exact haccepted

end

/-! ### The frame's events -/

section
variable {bytes : List Byte} {pins : PedalPins} {s : State} {u0 u2 u3 w t : State} {ys : List Int}
  {front back acts' : List Act} {others rest : List Task}
  (h : GoodRan bytes { s with pedalPins := pins } u0 u2 u3 w t ys front back acts' others rest)

section
include h

/-- What a good frame takes of relaying and requests is what its lane leaves. -/
theorem GoodRan.count {x : Task} (hx : ofLane x) : (tasksOf (front ++ back)).count x + (tasksOf acts').count x =
    (laneLeft bytes { s with pedalPins := pins } w).count x := by
  have hlines : (lineTasks ({ s with pedalPins := pins } : State).config.stuckLimit).count x = 0 := by
    refine List.count_eq_zero.2 fun m => ?_
    obtain ⟨l, -, rfl⟩ := List.mem_map.1 m
    rcases hx with e | ⟨kind, r, e⟩ <;> cases e
  have hblocks : (blockTasks (goodEntered bytes { s with pedalPins := pins })).count x = 0 := by
    refine List.count_eq_zero.2 fun m => ?_
    rcases blockTasks_cases (goodEntered bytes { s with pedalPins := pins }) with e | e
    · rw [e] at m
      cases m
    · rw [e] at m
      rcases hx with rfl | ⟨kind, r, rfl⟩ <;> simp at m
  have hcount := h.ran.tasks.count_eq x
  rw [List.count_append, List.count_append, List.count_append, hlines, hblocks, h.counts x hx] at hcount
  exact hcount

/-- A request that a good frame takes is the one its lane completes. -/
theorem GoodRan.taken {kind : Byte} {r : Req}
    (m : Task.request kind r ∈ tasksOf (front ++ back) ∨ Task.request kind r ∈ tasksOf acts') :
    (laneAt bytes s).request = some (kind, r) := by
  have hpos : 0 < (laneLeft bytes { s with pedalPins := pins } w).count (.request kind r) := by
    rw [← GoodRan.count h (.inr ⟨kind, r, rfl⟩)]
    rcases m with m | m
    · exact Nat.add_pos_left (List.count_pos_iff.2 m) _
    · exact Nat.add_pos_right _ (List.count_pos_iff.2 m)
  rcases mem_laneLeft (List.count_pos_iff.1 hpos) with e | e | ⟨q, hq, e⟩
  · cases e
  · cases e
  · rw [(goodAssembled_eq bytes pins s).2.1] at hq
    cases e
    exact hq

end

/-- The frame completes no COUNTER_SETUP. -/
def KeepsSelectors (request : Option (Byte × Req)) : Prop :=
  ∀ q, request = some q → kindOfByte q.1 ≠ some .counterSetup

theorem entered_codeKept (code : Nat) : CodeKept code s (goodEntered bytes { s with pedalPins := pins }) := by
  have hentered : goodEntered bytes { s with pedalPins := pins } = _ := (goodAssembled_eq bytes pins s).2.2
  exact .of_counters (by rw [hentered])

include h

theorem GoodRan.keepsCounters (hsetup : KeepsSelectors (laneAt bytes s).request) :
    KeepsCounters (front ++ back) ∧ KeepsCounters acts' :=
  ⟨fun _ _ m => hsetup _ (GoodRan.taken h (.inl m)), fun _ _ m => hsetup _ (GoodRan.taken h (.inr m))⟩

variable (hkeeps : KeepsCounters (front ++ back) ∧ KeepsCounters acts')
include hkeeps

/-- A good frame counts a relayed message as its lane says. -/
theorem GoodRan.relayed : CountsTimes 11 (laneServed bytes s w).relayed.toNat s t := by
  obtain ⟨hfront, hback⟩ := hkeeps
  obtain ⟨n, hn, htotal⟩ := laneTaken_relayed (laneBytes bytes)
    (decide ((goodLinked bytes { s with pedalPins := pins }).sender = .cut))
    (goodAssembled bytes { s with pedalPins := pins }).request w
  have hserved : sendLane (decodeLane (laneBytes bytes)) (laneBytes bytes)
      (decide ((goodLinked bytes { s with pedalPins := pins }).sender = .cut)) w = laneServed bytes s w := by
    rw [goodLinked_frame]
    rfl
  have hleft := GoodRan.count h (.inl rfl)
  rw [hserved] at htotal
  have htotal : n + (laneLeft bytes { s with pedalPins := pins } w).count .relayed =
      (laneServed bytes s w).relayed.toNat := htotal
  have hentered : CodeKept 11 s (goodEntered bytes { s with pedalPins := pins }) := entered_codeKept 11
  have hmid : CountsTimes 11 ((tasksOf (front ++ back)).count .relayed) u0 u2 := by
    rw [h.ran.mixed]
    exact countsTimes_before (.of_counters (t := appendSamples _ _ u0) (by simp [appendSamples]))
      (runActs_relayed _ _ _ hfront)
  have hend : CountsTimes 11 ((tasksOf acts').count .relayed) u3 t := by
    rw [h.ran.ended]
    exact runActs_relayed _ _ _ hback
  cases hfirst : reserves (goodAssembled bytes { s with pedalPins := pins }).request with
  | true =>
    obtain ⟨-, hw, h0, h3⟩ := h.first hfirst
    have hu0 : CountsTimes 11 n s u0 := by
      rw [h0]
      exact countsTimes_before (hw ▸ hentered) hn
    have hu3 : CodeKept 11 u2 u3 := .of_counters (by rw [h3])
    have hall := countsTimes_trans (countsTimes_behind (countsTimes_trans hu0 hmid) hu3) hend
    rwa [Nat.add_assoc, hleft, htotal] at hall
  | false =>
    obtain ⟨hw, h0, h3⟩ := h.last hfirst
    have hu3 : CountsTimes 11 n u2 u3 := by
      rw [h3]
      exact countsTimes_behind (hw ▸ hn) (.of_counters rfl)
    have hall := countsTimes_trans (countsTimes_trans (countsTimes_before (h0 ▸ hentered) hmid) hu3) hend
    rwa [Nat.add_comm _ n, Nat.add_assoc, hleft, htotal] at hall

/-- A good frame counts its request. -/
theorem GoodRan.accepted : CountsTimes 10 (laneAt bytes s).request.isSome.toNat s t := by
  obtain ⟨hfront, hback⟩ := hkeeps
  have htaken : CountsTimes 10 (goodAssembled bytes { s with pedalPins := pins }).request.isSome.toNat w
      (goodTaken bytes { s with pedalPins := pins } w).1.state := laneTaken_accepted _ _ _ w
  rw [(goodAssembled_eq bytes pins s).2.1] at htaken
  have hentered : CodeKept 10 s (goodEntered bytes { s with pedalPins := pins }) := entered_codeKept 10
  have hmid : CodeKept 10 u0 u2 := by
    rw [h.ran.mixed]
    exact CodeKept.trans (.of_counters (t := appendSamples _ _ u0) (by simp [appendSamples]))
      (runActs_acceptedKept _ hfront _)
  have hend : CodeKept 10 u3 t := by
    rw [h.ran.ended]
    exact runActs_acceptedKept _ hback _
  cases hfirst : reserves (goodAssembled bytes { s with pedalPins := pins }).request with
  | true =>
    obtain ⟨-, hw, h0, h3⟩ := h.first hfirst
    have hu0 : CountsTimes 10 (laneAt bytes s).request.isSome.toNat s u0 := by
      rw [h0]
      exact countsTimes_before (hw ▸ hentered) htaken
    have hu3 : CodeKept 10 u2 u3 := .of_counters (by rw [h3])
    exact countsTimes_behind (countsTimes_behind (countsTimes_behind hu0 hmid) hu3) hend
  | false =>
    obtain ⟨hw, h0, h3⟩ := h.last hfirst
    have hu3 : CountsTimes 10 (laneAt bytes s).request.isSome.toNat u2 u3 := by
      rw [h3]
      exact countsTimes_behind (hw ▸ htaken) (.of_counters rfl)
    have hu2 : CodeKept 10 s u2 := CodeKept.trans (h0 ▸ hentered) hmid
    exact countsTimes_behind (countsTimes_before hu2 hu3) hend

end

end Sys2Proof.Proofs.GoodFrameCounts
end

