-- ==== Sys2Proof/Proofs/LaneServices.lean ====
section
/-! PROOF. The out lane of a good frame by who holds it (R169, R172 to R175): what it carries, what leaves with a LAST,
and when a message is relayed. -/

namespace Sys2Proof.Proofs.LaneServices

open Sys2Proof Sys2Proof.Machine Sys2Proof.Safety Sys2Proof.Proofs.Queues Sys2Proof.Proofs.LaneAssembly
  Sys2Proof.Proofs.GoodLanes Sys2Proof.Proofs.GoodFrameLanes

/-! ### A cut-through begins on a free lane -/

theorem chosenMode_cut {s : State} (h : chosenMode s = .cut) : s.sender = .none := by
  unfold chosenMode at h
  split at h
  · cases h
  · split at h
    next hfree => exact hfree.1
    · cases h

theorem chosenRoute_cut {s : State} {dest : Byte}
    (h : chosenRoute s dest = .relay .cut ∨ chosenRoute s dest = .consumeAndRelay .cut) : chosenMode s = .cut := by
  unfold chosenRoute at h
  split at h
  · rcases h with h | h <;> cases h
  · split at h
    · rcases h with h | h
      · cases h
      · exact Route.consumeAndRelay.inj h
    · rcases h with h | h
      · exact Route.relay.inj h
      · cases h

/-- A START that is cut through met a free lane, or ends another cut-through. -/
theorem begins_sender {lane : LaneIn} {s : State} (h : Begins lane (assemble lane s).state) :
    s.sender = .none ∨ s.sender = .cut := by
  obtain ⟨⟨m, rfl⟩, hcut⟩ := h
  have begun {u : State} (ha : (assemble (.start m) s).state = (beginMessage m u).state) : u.sender = .none := by
    rw [ha, beginMessage_eq, cutting_iff] at hcut
    obtain ⟨a, e, hroute⟩ := hcut
    cases e
    exact chosenMode_cut (chosenRoute_cut hroute)
  rcases Option.eq_none_or_eq_some s.assembly with ha | ⟨a, ha⟩
  · exact .inl (begun (congrArg LaneResult.state (assemble_start_empty m ha)))
  · have hfree := begun (u := abandoned s) (by rw [assemble_start_over m ha])
    by_cases hs : s.sender = .cut
    · exact .inr hs
    · unfold abandoned at hfree
      simp only [hs, if_false] at hfree
      exact .inl hfree

/-! ### The FIFO's head and the queue's head -/

theorem sendFifo_told {k : Nat} {u w t : State} (hfifo : w.fifo = u.fifo) (ht : laneOf t = laneOf (sendFifo k w).state) :
    FifoServed k u t := by
  intro m rest hu
  rw [← hfifo] at hu
  obtain ⟨hout, hsender, hfifo', -⟩ : t.laneOut = _ ∧ t.sender = _ ∧ t.fifo = _ ∧ t.assembly = _ := by
    simpa only [laneOf, Prod.mk.injEq] using ht
  rw [hout, hsender, hfifo']
  cases hp : (nextPiece m k).2 with
  | some j => simp [sendFifo, hu, hp, LaneSent.quiet, ← hfifo]
  | none => simp [sendFifo, hu, hp]

theorem sendFifo_relays {k : Nat} {s : State} :
    (sendFifo k s).relayed = true ↔ ∃ m rest, s.fifo = m :: rest ∧ (nextPiece m k).2 = none := by
  cases hf : s.fifo with
  | nil => simp [sendFifo, hf, LaneSent.quiet]
  | cons m rest => cases hp : (nextPiece m k).2 <;> simp [sendFifo, hf, hp, LaneSent.quiet]

theorem sendFifo_outq (k : Nat) (s : State) : (sendFifo k s).state.outq = s.outq := by
  unfold sendFifo
  split
  · rfl
  · simp only
    split <;> rfl

theorem sendQueue_fifo (k : Nat) (s : State) : (sendQueue k s).fifo = s.fifo := by
  unfold sendQueue
  split
  · rfl
  · split
    · rfl
    · simp only
      split <;> rfl

theorem copyLane_outq (lane : LaneIn) (raw : List Byte) (s : State) :
    (copyLane lane raw s).state.outq = s.outq ∧ (copyLane lane raw s).state.fifo = s.fifo := by
  cases lane <;> exact ⟨rfl, rfl⟩

/-- A frame of the lane from `s` to `t`: it is served on `w`, behind assembly and with notices of the frame at most,
and leaves `x`. -/
structure LaneRun (silent : Prop) (request : Option (Byte × Req)) (lane : LaneIn) (raw : List Byte)
    (s w : State) (x : LaneSent) (t : State) : Prop where
  served : x = sendLane lane raw (decide (s.sender = .cut)) w
  sender : w.sender = (assemble lane s).state.sender
  fifo : w.fifo = (assemble lane s).state.fifo
  assembly : w.assembly = (assemble lane s).state.assembly
  grows : GrowsFrom s.outq w.outq
  reserved : reserves request = true → w.outq = s.outq
  lane : laneOf t = laneOf x.state
  front : x.state.outq <+: t.outq
  quiet : silent → w.outq = s.outq ∧ t.outq = x.state.outq

section
variable {silent : Prop} {request : Option (Byte × Req)} {lane : LaneIn} {raw : List Byte} {s w t : State} {x : LaneSent}
  (h : LaneRun silent request lane raw s w x t)
include h

/-- A START begins a cut-through on what assembly leaves. -/
theorem LaneRun.begins_iff : Begins lane w ↔ Begins lane (assemble lane s).state := by
  unfold Begins
  rw [cutting_iff, cutting_iff, h.assembly]

/-- Who but a cut-through holds the lane keeps it through assembly. -/
theorem LaneRun.sender_kept (hcut : s.sender ≠ .cut) : w.sender = s.sender := by
  rw [h.sender]
  rcases (assemble_rest lane s).2.2 with e | ⟨e, -⟩
  · exact e
  · exact absurd e hcut

theorem LaneRun.out : t.laneOut = x.state.laneOut := (congrArg Prod.fst h.lane :)

theorem LaneRun.out_sender : t.sender = x.state.sender := (congrArg (fun y => y.2.1) h.lane :)

theorem LaneRun.out_fifo : t.fifo = x.state.fifo := (congrArg (fun y => y.2.2.1) h.lane :)

theorem LaneRun.begun (hb : Begins lane w) : x = .quiet { w with laneOut := raw, sender := .cut } :=
  h.served.trans (sendLane_begins hb)

theorem LaneRun.freed (hb : ¬Begins lane w) (hs : s.sender = .none) :
    x = if w.fifo = [] then .quiet (sendQueue 0 w) else sendFifo 0 w := by
  have hnot : s.sender ≠ .cut := by rw [hs]; nofun
  rw [h.served, decide_eq_false hnot, sendLane_free hb ((LaneRun.sender_kept h hnot).trans hs)]

theorem LaneRun.fifoHeld (hb : ¬Begins lane w) {k : Nat} (hs : s.sender = .fifo k) : x = sendFifo k w := by
  have hnot : s.sender ≠ .cut := by rw [hs]; nofun
  rw [h.served, decide_eq_false hnot, sendLane_fifo hb ((LaneRun.sender_kept h hnot).trans hs)]

theorem LaneRun.queueHeld (hb : ¬Begins lane w) {k : Nat} (hs : s.sender = .queue k) :
    x = .quiet (sendQueue k w) := by
  have hnot : s.sender ≠ .cut := by rw [hs]; nofun
  rw [h.served, decide_eq_false hnot, sendLane_queue hb ((LaneRun.sender_kept h hnot).trans hs)]

theorem LaneRun.cutHeld (hb : ¬Begins lane w) (hs : s.sender = .cut) (hw : w.sender = .cut) :
    x = copyLane lane raw w := by
  rw [h.served, decide_eq_true hs, sendLane_cut hb hw]

theorem LaneRun.cutEnded (hb : ¬Begins lane w) (hs : s.sender = .cut) (hw : w.sender ≠ .cut) :
    x = .quiet { w with laneOut := idleLane } := by
  rw [h.served, decide_eq_true hs, sendLane_uncut hb hw]

/-- The queue's head is served, and what the frame adds stands behind. -/
theorem LaneRun.queueServed {k : Nat} (hx : x = .quiet (sendQueue k w)) :
    QueueServed silent k s (assemble lane s).state t := by
  intro item rest bytes hq hbytes
  obtain ⟨new, hnew, -, -⟩ := h.grows
  have hw : w.outq = item :: (rest ++ new) := by rw [hnew, hq]; rfl
  have hstate : x.state = sendQueue k w := congrArg LaneSent.state hx
  have holds {q : List OutItem} (hfront : x.state.outq = q ++ new) : ∃ new, t.outq = q ++ new ∧ (silent → new = []) := by
    obtain ⟨z, hz⟩ := h.front
    refine ⟨new ++ z, by rw [← hz, hfront, List.append_assoc], fun hsilent => ?_⟩
    obtain ⟨hsame, hend⟩ := h.quiet hsilent
    have hz' : z = [] := by simpa using hz.trans hend
    have hnew' : new = [] := by simpa using hnew.symm.trans hsame
    rw [hz', hnew']
    rfl
  refine ⟨?_, ?_, fun j hj => ⟨?_, holds ?_⟩, fun hlast => ⟨?_, holds ?_⟩⟩
  · rw [LaneRun.out h, hstate]
    cases hp : (nextPiece bytes k).2 <;> simp only [sendQueue, hw, hbytes, hp]
  · rw [LaneRun.out_fifo h, hstate, sendQueue_fifo, h.fifo]
  · rw [LaneRun.out_sender h, hstate]
    simp only [sendQueue, hw, hbytes, hj]
  · rw [hstate]
    simp only [sendQueue, hw, hbytes, hj, hq, List.cons_append]
  · rw [LaneRun.out_sender h, hstate]
    simp only [sendQueue, hw, hbytes, hlast]
  · rw [hstate]
    simp only [sendQueue, hw, hbytes, hlast]

/-- With nothing to send, the lane carries IDLE, or a notice of the frame itself. -/
theorem LaneRun.idleServed (hx : x = .quiet (sendQueue 0 w)) (hq : s.outq = []) :
    t.fifo = (assemble lane s).state.fifo ∧ ((t.laneOut = List.replicate 8 0 ∧ t.sender = .none)
      ∨ (¬silent ∧ (∀ q, request = some q → q.2.broadcast = true) ∧ ∃ m rest, t.outq = .notice m :: rest
        ∧ t.laneOut = (nextPiece (messageBytes m) 0).1
        ∧ some t.sender = (nextPiece (messageBytes m) 0).2.map Sender.queue)) := by
  have hstate : x.state = sendQueue 0 w := congrArg LaneSent.state hx
  refine ⟨by rw [LaneRun.out_fifo h, hstate, sendQueue_fifo, h.fifo], ?_⟩
  rw [LaneRun.out h, LaneRun.out_sender h, hstate]
  obtain ⟨new, hnew, hnotices, -⟩ := h.grows
  cases hw : w.outq with
  | nil => exact .inl (by rw [sendQueue_empty hw]; exact ⟨rfl, rfl⟩)
  | cons item rest =>
    have hitem : item.isNotice = true := by
      refine hnotices item ?_
      rw [show new = item :: rest by rw [← hw, hnew, hq]; rfl]
      exact List.mem_cons_self
    have hsome : w.outq ≠ s.outq := by rw [hw, hq]; nofun
    cases item with
    | reservation => cases hitem
    | reply m => cases hitem
    | notice m =>
      have hfirst := sendQueue_first (x := .notice m) hw rfl
      obtain ⟨z, hz⟩ := h.front
      rw [hstate, hfirst] at hz
      refine .inr ⟨fun hs => hsome (h.quiet hs).1, fun q hrequest => ?_, m, rest ++ z, ?_, ?_, ?_⟩
      · by_contra hb
        refine hsome (h.reserved ?_)
        rw [hrequest]
        unfold reserves
        simp only [Bool.not_eq_true _ ▸ hb]
        rfl
      · rw [← hz]
        show w.outq ++ z = _
        rw [hw]
        rfl
      · rw [hfirst]
      · rw [hfirst, nextPiece_first]
        rfl

theorem LaneRun.cutServed (hb : ¬Begins lane w) (hs : s.sender = .cut) :
    CutServed lane raw (assemble lane s).state t := by
  have hend : w.sender ≠ .cut → w.sender = .none := fun hw => by
    rcases (assemble_rest lane s).2.2 with e | ⟨-, e⟩
    · exact absurd ((h.sender.trans e).trans hs) hw
    · exact h.sender.trans e
  unfold CutServed
  rw [LaneRun.out h, LaneRun.out_sender h, LaneRun.out_fifo h, ← h.sender, ← h.fifo]
  by_cases hw : w.sender = .cut
  · have hx := LaneRun.cutHeld h hb hs hw
    refine ⟨by rw [hx]; exact (copyLane_outq lane raw w).2, fun hno => absurd hw hno, fun _ => ?_⟩
    rw [hx]
    cases lane with
    | idle => exact ⟨rfl, hw⟩
    | start m => exact ⟨rfl, rfl⟩
    | more m => exact ⟨rfl, hw⟩
    | last m => exact ⟨rfl, rfl⟩
  · rw [LaneRun.cutEnded h hb hs hw]
    exact ⟨rfl, fun _ => ⟨rfl, hend hw⟩, fun e => absurd e hw⟩

/-- Where the queue does not hold the lane, it stands. -/
theorem LaneRun.queueKept (hheld : Begins lane w ∨ s.sender = .cut ∨ (∃ k, s.sender = .fifo k)
    ∨ (s.sender = .none ∧ w.fifo ≠ [])) : s.outq <+: t.outq := by
  obtain ⟨new, hnew, -⟩ := h.grows
  have hkept : x.state.outq = w.outq → s.outq <+: t.outq := fun e =>
    List.IsPrefix.trans (by rw [e, hnew]; exact List.prefix_append _ _) h.front
  refine hkept ?_
  by_cases hb : Begins lane w
  · rw [LaneRun.begun h hb]
    rfl
  · rcases hheld with hb' | hs | ⟨k, hs⟩ | ⟨hs, hfifo⟩
    · exact absurd hb' hb
    · by_cases hw : w.sender = .cut
      · rw [LaneRun.cutHeld h hb hs hw, (copyLane_outq lane raw w).1]
      · rw [LaneRun.cutEnded h hb hs hw]
        rfl
    · rw [LaneRun.fifoHeld h hb hs, sendFifo_outq]
    · rw [LaneRun.freed h hb hs, if_neg hfifo, sendFifo_outq]

/-- A frame relays a message with the LAST of one cut through, or of the FIFO's head. -/
theorem LaneRun.relayed_iff : x.relayed = true ↔ RelaysMessage lane s (assemble lane s).state := by
  unfold RelaysMessage
  rw [← h.sender, ← h.fifo]
  have hnone (hx : x.relayed = false) (hcut : s.sender = .cut → w.sender = .cut → ∀ m, lane ≠ .last m)
      (hfifo : ∀ k, s.sender ≠ .fifo k) : x.relayed = true ↔ (s.sender = .cut ∧ w.sender = .cut ∧ ∃ m, lane = .last m)
        ∨ ∃ k m rest, s.sender = .fifo k ∧ w.fifo = m :: rest ∧ (nextPiece m k).2 = none := by
    refine ⟨fun e => (nomatch hx.symm.trans e), fun e => ?_⟩
    rcases e with ⟨hs, hw, m, e⟩ | ⟨k, m, rest, hs, -⟩
    · exact absurd e (hcut hs hw m)
    · exact absurd hs (hfifo k)
  by_cases hb : Begins lane w
  · have hfree := begins_sender ((LaneRun.begins_iff h).1 hb)
    obtain ⟨⟨m, hlane⟩, -⟩ := id hb
    refine hnone (by rw [LaneRun.begun h hb]; rfl) (fun _ _ _ e => (nomatch hlane.symm.trans e)) fun k e => ?_
    rcases hfree with e' | e' <;> cases e'.symm.trans e
  · cases hs : s.sender with
    | none =>
      rw [← hs]
      refine hnone ?_ (fun e => (nomatch hs.symm.trans e)) fun k e => (nomatch hs.symm.trans e)
      rw [LaneRun.freed h hb hs]
      split
      · rfl
      · refine Bool.eq_false_iff.2 fun e => ?_
        obtain ⟨m, rest, -, e⟩ := sendFifo_relays.1 e
        rw [nextPiece_first] at e
        cases e
    | queue k =>
      rw [← hs]
      exact hnone (by rw [LaneRun.queueHeld h hb hs]; rfl) (fun e => (nomatch hs.symm.trans e))
        fun k e => (nomatch hs.symm.trans e)
    | fifo k =>
      rw [LaneRun.fifoHeld h hb hs, sendFifo_relays]
      exact ⟨fun ⟨m, rest, hf, hp⟩ => .inr ⟨k, m, rest, rfl, hf, hp⟩, fun e => by
        rcases e with ⟨e, -⟩ | ⟨j, m, rest, e, hf, hp⟩
        · cases e
        · cases e
          exact ⟨m, rest, hf, hp⟩⟩
    | cut =>
      by_cases hw : w.sender = .cut
      · rw [LaneRun.cutHeld h hb hs hw]
        cases lane with
        | last m => exact ⟨fun _ => .inl ⟨rfl, hw, m, rfl⟩, fun _ => rfl⟩
        | idle => exact ⟨nofun, fun e => by rcases e with ⟨-, -, m, e⟩ | ⟨k, m, rest, e, -⟩ <;> cases e⟩
        | start m => exact ⟨nofun, fun e => by rcases e with ⟨-, -, m, e⟩ | ⟨k, m, rest, e, -⟩ <;> cases e⟩
        | more m => exact ⟨nofun, fun e => by rcases e with ⟨-, -, m, e⟩ | ⟨k, m, rest, e, -⟩ <;> cases e⟩
      · exact (hnone (by rw [LaneRun.cutEnded h hb hs hw]; rfl) (fun _ e => absurd e hw)
          fun k e => (nomatch hs.symm.trans e)).trans (by rw [hs])

end

end Sys2Proof.Proofs.LaneServices
end

