-- ==== Sys2Proof/Proofs/LaneEvents.lean ====
section
/-! PROOF. The lane's own rows and the out lane of every good frame (O28; R169, R172 to R175, R185, R186). -/

namespace Sys2Proof.Proofs.LaneEvents

open Sys2Proof Sys2Proof.Machine Sys2Proof.Safety Sys2Proof.Proofs.CueFlush Sys2Proof.Proofs.Traces
  Sys2Proof.Proofs.Occurrences
  Sys2Proof.Proofs.Counting Sys2Proof.Proofs.LaneAssembly Sys2Proof.Proofs.GoodFrameRuns
  Sys2Proof.Proofs.GoodFrameStarts Sys2Proof.Proofs.GoodLanes Sys2Proof.Proofs.GoodFrames
  Sys2Proof.Proofs.GoodFrameBlocks Sys2Proof.Proofs.GoodFrameLanes Sys2Proof.Proofs.GoodFramesLeave
  Sys2Proof.Proofs.GoodFrameQueues Sys2Proof.Proofs.GoodFrameCounts Sys2Proof.Proofs.LaneServices
  Sys2Proof.Proofs.Formats Sys2Proof.Proofs.FrameRuns

/-! ### The lane's own rows -/

section
variable {s : State} (hlow : s.resetLow = false) (hrun : s.ltu.link.running = true)
include hlow hrun

theorem exec_fifoSend_free {m : List Byte} {rest : List (List Byte)} (hf : s.fifo = m :: rest) (hs : s.sender = .none) :
    exec .fifoSend s = .next { s with
      laneOut := encodeLane 1 (m.take (min 7 (m.length - 1))), sender := .fifo (min 7 (m.length - 1)) } := by
  refine (whenReleased_of_released hlow _).trans ?_
  simp only [sendFromFifo, hrun, hs, hf, reduceCtorEq, if_true, if_false, sendFifo, nextPiece_first]
  rfl

theorem exec_fifoSend_held {k : Nat} (hs : s.sender = .fifo k) :
    exec .fifoSend s = .next (sendFifo k s).counted := by
  refine (whenReleased_of_released hlow _).trans ?_
  simp only [sendFromFifo, hrun, hs, if_true]

theorem exec_queueSend_free {item : OutItem} {rest : List OutItem} {bytes : List Byte} (hq : s.outq = item :: rest)
    (hbytes : item.bytes = some bytes) (hs : s.sender = .none) (hf : s.fifo = []) :
    exec .queueSend s = .next { s with
      laneOut := encodeLane 1 (bytes.take (min 7 (bytes.length - 1))), sender := .queue (min 7 (bytes.length - 1)) } := by
  have hsome : s.outq ≠ [] := by rw [hq]; nofun
  have hact : sendFromQueue s = sendQueue 0 s := by
    simp only [sendFromQueue, hrun, hs, hf, hsome, ne_eq, not_false_eq_true, and_self, if_true]
  refine (whenReleased_of_released hlow _).trans ?_
  rw [hact, sendQueue_first hq hbytes, nextPiece_first]

theorem exec_queueSend_held {k : Nat} (hs : s.sender = .queue k) : exec .queueSend s = .next (sendQueue k s) := by
  refine (whenReleased_of_released hlow _).trans ?_
  simp only [sendFromQueue, hrun, hs, if_true]

/-- The ninth gap frame of a message under assembly (R169). -/
theorem exec_gapLimit_ninth {a : Assembly} (ha : s.assembly = some a) (hgap : a.gap = 8) :
    exec .gapLimit s = .next (raise .ctrlRunon .none (abandoned s)) := by
  refine (whenReleased_of_released hlow _).trans ?_
  simp only [reachGapLimit, ha, hrun, hgap, Config.gapLimit, Nat.reduceAdd, Nat.le_refl, and_self, if_true, abandon_eq]

end

/-- The frames of a message in the device's own cut. -/
theorem pieces_told (m : List Byte) :
    nextPiece m 0 = (encodeLane 1 (m.take (min 7 (m.length - 1))), some (min 7 (m.length - 1)))
      ∧ ∀ k, 0 < k →
        (k + 7 < m.length → nextPiece m k = (encodeLane 2 ((m.drop k).take 7), some (k + 7)))
        ∧ (m.length ≤ k + 7 → nextPiece m k = (encodeLane 3 (m.drop k), none)) :=
  ⟨nextPiece_first m, fun _ hk => ⟨nextPiece_more hk, nextPiece_last hk⟩⟩

/-- CTRL_RUNON of an abandoned message touches the Fault Unit, counters and the queue's end alone (R152, R169). -/
theorem runon_frame (s : State) :
    let t := raise .ctrlRunon .none (abandoned s)
    t = { s with assembly := none, sender := if s.sender = .cut then .none else s.sender
                 faults := t.faults, pointer := t.pointer, counters := t.counters, outq := t.outq } := by
  have hframe := (raise_onlyFaults .ctrlRunon .none (abandoned s)).eq
  have hvoices := raise_voices_none .ctrlRunon (abandoned s)
  intro t
  rw [hvoices] at hframe
  exact hframe

/-! ### The out lane of a good frame -/

section
variable {bytes : List Byte} {pins : PedalPins} {s : State} {u0 u2 u3 w t : State} {ys : List Int}
  {front back acts' : List Act} {others rest : List Task}
  (h : GoodRan bytes { s with pedalPins := pins } u0 u2 u3 w t ys front back acts' others rest)
include h

/-- The lane of a good frame, run. -/
theorem GoodRan.laneRun (hnone : OutItem.reservation ∉ s.outq) :
    LaneRun ((∀ k, (s.fault k).reportMask = true) ∧ (laneAt bytes s).request = none
      ∧ (frameCount bytes).toNat % 64 ≠ 63) (laneAt bytes s).request (decodeLane (laneBytes bytes)) (laneBytes bytes)
      s w (laneServed bytes s w) t := by
  obtain ⟨hsender, hfifo, hassembly, -, hgrows, hreserved⟩ := GoodRan.served_on h
  exact ⟨rfl, hsender, hfifo, hassembly, hgrows, hreserved, GoodRan.end_lane h, GoodRan.end_front h hnone,
    fun ⟨hreports, hreq, h63⟩ => GoodRan.silent h hreports hreq h63⟩

/-- The out lane of a good frame (R169, R172 to R175). -/
theorem GoodRan.outLane (hnone : OutItem.reservation ∉ s.outq) :
    OutLane ((∀ k, (s.fault k).reportMask = true) ∧ (laneAt bytes s).request = none
      ∧ (frameCount bytes).toNat % 64 ≠ 63) (decodeLane (laneBytes bytes)) (laneBytes bytes) (laneAt bytes s).request
      s (laneAt bytes s).state t := by
  have hrun := GoodRan.laneRun h hnone
  have hbegins : Begins (decodeLane (laneBytes bytes)) w ↔ _ :=
    (LaneRun.begins_iff hrun).trans (and_congr_right fun _ => cutting_iff (laneAt bytes s).state)
  have hkeeps (hkind : ((laneAt bytes s).request.bind fun q => kindOfByte q.1) ≠ some .counterSetup) :=
    GoodRan.keepsCounters h fun q hq e => hkind (by rw [hq]; exact e)
  refine ⟨fun hb => ?_, fun hb => ?_, fun hheld => ?_, fun hrelays hkind i hi => ?_, fun hrelays hkind => ?_⟩
  · have hx := LaneRun.begun hrun (hbegins.2 hb)
    exact ⟨by rw [LaneRun.out hrun, hx]; rfl, by rw [LaneRun.out_sender hrun, hx]; rfl,
      by rw [LaneRun.out_fifo hrun, hx]; exact hrun.fifo⟩
  · have hb' : ¬Begins (decodeLane (laneBytes bytes)) w := fun e => hb (hbegins.1 e)
    refine ⟨fun hs => ⟨?_, fun hf => ?_⟩, fun k hs => ?_, fun k hs => ?_, fun hs _ => LaneRun.cutServed hrun hb' hs⟩
    · have hx := LaneRun.freed hrun hb' hs
      by_cases hf : w.fifo = []
      · exact fun m rest hu => (nomatch (hrun.fifo.symm.trans hf).symm.trans hu)
      · rw [if_neg hf] at hx
        exact sendFifo_told hrun.fifo (hx ▸ hrun.lane)
    · have hx := LaneRun.freed hrun hb' hs
      rw [if_pos (hrun.fifo.trans hf)] at hx
      exact ⟨LaneRun.queueServed hrun hx, LaneRun.idleServed hrun hx⟩
    · exact sendFifo_told hrun.fifo (LaneRun.fifoHeld hrun hb' hs ▸ hrun.lane)
    · exact LaneRun.queueServed hrun (LaneRun.queueHeld hrun hb' hs)
  · refine LaneRun.queueKept hrun (hheld.imp hbegins.2 (Or.imp_right (Or.imp_right fun ⟨hs, hf⟩ => ⟨hs, ?_⟩)))
    rw [hrun.fifo]
    exact hf
  · have hone := GoodRan.relayed h (hkeeps hkind)
    rw [(LaneRun.relayed_iff hrun).2 hrelays] at hone
    rw [hone i hi]
    exact countedTimes_one hi
  · have hzero := GoodRan.relayed h (hkeeps hkind)
    rw [Bool.eq_false_iff.2 fun e => hrelays ((LaneRun.relayed_iff hrun).1 e)] at hzero
    exact CodeKept.of_times hzero

end

/-- Settles O28. -/
theorem laneEvents : Obligations.LaneEvents := by
  refine ⟨⟨fun m => ⟨rfl, rfl⟩, rfl, pieces_told⟩, fun s hlow hrun => ⟨fun m rest hf => ⟨fun hs _ => ?_, fun k hk hs =>
    ⟨fun hmore => ?_, fun hlast => ?_⟩⟩, fun m item rest hq hitem => ?_, fun a ha hgap => ?_⟩,
    fun bytes pins s hlow hframe hgood hnone => ?_⟩
  · exact exec_fifoSend_free hlow hrun hf hs
  · rw [exec_fifoSend_held hlow hrun hs]
    simp only [sendFifo, hf, nextPiece_more hk hmore]
    rfl
  · rw [exec_fifoSend_held hlow hrun hs]
    simp only [sendFifo, hf, nextPiece_last hk hlast]
    rfl
  · have hbytes : item.bytes = some (messageBytes m) := by rcases hitem with rfl | rfl <;> rfl
    refine ⟨fun hs hf => exec_queueSend_free hlow hrun hq hbytes hs hf, fun k hk hs => ⟨fun hmore => ?_, fun hlast => ?_⟩⟩
    · rw [exec_queueSend_held hlow hrun hs]
      simp only [sendQueue, hq, hbytes, nextPiece_more hk hmore]
    · rw [exec_queueSend_held hlow hrun hs]
      simp only [sendQueue, hq, hbytes, nextPiece_last hk hlast]
  · exact ⟨_, exec_gapLimit_ninth hlow hrun ha hgap, runon_frame s, rfl,
      fun hmask => raise_sets .ctrlRunon .none (abandoned s) hmask⟩
  · obtain ⟨hlen, -, -⟩ := (isFrame_iff bytes).1 hframe
    obtain ⟨hlinkOut, hleft⟩ := goodLeft hlen pins s
    obtain ⟨u0, u2, u3, w, ys, front, back, acts', others, rest, hran⟩ := goodFrame_ran bytes { s with pedalPins := pins }
    have hexec := exec_goodFrame pins hlow hframe hgood
    have hout := GoodRan.outLane hran hnone
    have hlane := hleft.lane
    generalize goodFrame bytes { s with pedalPins := pins } = t at hexec hlinkOut hlane hout
    exact ⟨_, _, hexec, hlinkOut, hlane, hout⟩

end Sys2Proof.Proofs.LaneEvents
end

