-- ==== Sys2Proof/Proofs/RequestsInFrames.lean ====
section
/-! PROOF. A request that a good frame completes (R9, R170, R175, R176): where it is executed, what stands around it,
and where its reply comes to stand. -/

namespace Sys2Proof.Proofs.RequestsInFrames

open Sys2Proof Sys2Proof.Machine Sys2Proof.Safety Sys2Proof.Proofs.Queues Sys2Proof.Proofs.Traces
  Sys2Proof.Proofs.ActEffects Sys2Proof.Proofs.Occurrences Sys2Proof.Proofs.FrameRuns Sys2Proof.Proofs.FrameEnds
  Sys2Proof.Proofs.FrameStarts Sys2Proof.Proofs.Counting Sys2Proof.Proofs.PhantomFrames
  Sys2Proof.Proofs.LaneAssembly Sys2Proof.Proofs.FrameOccurrences Sys2Proof.Proofs.GoodFrameRuns
  Sys2Proof.Proofs.GoodFrameStarts
  Sys2Proof.Proofs.GoodLanes Sys2Proof.Proofs.GoodFrames Sys2Proof.Proofs.GoodFrameLanes
  Sys2Proof.Proofs.RequestCodes Sys2Proof.Proofs.GoodFrameQueues Sys2Proof.Proofs.GoodFrameCounts

/-! ### What stands -/

theorem StandsAs.trans {s t u : State} (h : StandsAs s t) (k : StandsAs t u) : StandsAs s u := by
  obtain ⟨haddr, hconfig, htuning, hmaps, hscenes, hload, ha, hb⟩ := h
  obtain ⟨haddr', hconfig', htuning', hmaps', hscenes', hload', ha', hb'⟩ := k
  exact ⟨haddr'.trans haddr, hconfig'.trans hconfig, htuning'.trans htuning, hmaps'.trans hmaps,
    hscenes'.trans hscenes, hload'.trans hload, ha'.trans ha, hb'.trans hb⟩

theorem standsAs_of_engine {s t : State} (h : OnlyEngine s t) : StandsAs s t := by
  unfold StandsAs
  rw [h.eq]
  exact ⟨rfl, rfl, rfl, rfl, rfl, rfl, rfl, rfl⟩

theorem standsAs_of_sent {s t : State} (h : Sent s t) : StandsAs s t := by
  unfold StandsAs
  rw [h.frame]
  exact ⟨rfl, rfl, rfl, rfl, rfl, rfl, rfl, rfl⟩

/-! ### Replies -/

theorem reply_of_grows {q q' : List OutItem} (h : GrowsFrom q q') {m : Message} (hm : OutItem.reply m ∈ q') :
    OutItem.reply m ∈ q := by
  obtain ⟨new, rfl, hnew, -⟩ := h
  rcases List.mem_append.1 hm with hm | hm
  · exact hm
  · cases hnew _ hm

/-- A queue of a full length has not grown. -/
theorem eq_of_grows_full {q q' : List OutItem} (h : GrowsFrom q q') (hfull : 8 ≤ q.length) : q' = q := by
  obtain ⟨new, rfl, -, hroom⟩ := h
  cases new with
  | nil => exact List.append_nil q
  | cons x new =>
    have hle := (hroom (by simp)).1
    simp only [List.length_append, List.length_cons] at hle
    omega

/-- A reply put behind a queue's front, and what is queued behind it. -/
theorem finishRequest_behind {r : Req} {a : Answer} {q new : List OutItem} (hbroadcast : r.broadcast = false)
    (hnone : OutItem.reservation ∉ q) (h : a.state.outq = q ++ .reservation :: new) :
    (finishRequest r a).outq = q ++ .reply
      { dest := r.source, source := a.state.nodeAddr, kind := statusByte a.status, tag := r.tag, body := a.body } :: new := by
  rw [finishRequest_reply r a q new hbroadcast hnone h]
  rfl

/-! ### Acts with one request -/

/-- Acts with one request execute none before and behind it. -/
theorem split_at_request {acts : List Act} {kind : Byte} {r : Req}
    (hcount : (tasksOf acts).count (.request kind r) = 1)
    (honly : ∀ kind' r', Task.request kind' r' ∈ tasksOf acts → kind' = kind ∧ r' = r) :
    ∃ pre post, acts = pre ++ .task (.request kind r) :: post ∧ (∀ a ∈ pre, Act.calm a) ∧ ∀ a ∈ post, Act.calm a := by
  have hmem : Task.request kind r ∈ tasksOf acts := List.count_pos_iff.1 (by omega)
  obtain ⟨pre, post, rfl⟩ := List.append_of_mem (mem_tasksOf.1 hmem)
  have hsplit : tasksOf (pre ++ .task (.request kind r) :: post) = tasksOf pre ++ .request kind r :: tasksOf post := by
    rw [tasksOf_append]
    rfl
  rw [hsplit, List.count_append, List.count_cons_self] at hcount
  have calm {part : List Act} (hpart : (tasksOf part).count (.request kind r) = 0)
      (hsub : ∀ x ∈ tasksOf part, x ∈ tasksOf (pre ++ .task (.request kind r) :: post)) : ∀ a ∈ part, Act.calm a := by
    intro a m
    cases a with
    | draw => trivial
    | voice v => trivial
    | task x =>
      cases x with
      | occurrence k sc => trivial
      | relayed => trivial
      | pedal l n => trivial
      | block L => trivial
      | request kind' r' =>
        have hx := mem_tasksOf.2 m
        obtain ⟨rfl, rfl⟩ := honly kind' r' (hsub _ hx)
        exact absurd hx (List.count_eq_zero.1 hpart)
  refine ⟨pre, post, rfl, calm (by omega) fun x m => ?_, calm (by omega) fun x m => ?_⟩
  · rw [hsplit]
    exact List.mem_append_left _ m
  · rw [hsplit]
    exact List.mem_append_right _ (List.mem_cons_of_mem _ m)

/-! ### The frame that completes a request -/

theorem reserves_some (kind : Byte) (r : Req) : reserves (some (kind, r)) = !r.broadcast := rfl

/-- The lane of a good frame, by what stands before the frame. -/
theorem goodTaken_eq (bytes : List Byte) (pins : PedalPins) (s w : State) :
    goodTaken bytes { s with pedalPins := pins } w =
      laneTaken (laneBytes bytes) (decide (s.sender = .cut)) (laneAt bytes s).request w := by
  unfold goodTaken
  rw [goodLinked_frame, (goodAssembled_eq bytes pins s).2.1]
  rfl

section
variable {bytes : List Byte} {pins : PedalPins} {s : State} {u0 u2 u3 w t : State} {ys : List Int}
  {front back acts' : List Act} {others rest : List Task}
  (h : GoodRan bytes { s with pedalPins := pins } u0 u2 u3 w t ys front back acts' others rest)
include h

/-- Nothing of a frame but its request touches tables, configuration, load and thresholds. -/
theorem GoodRan.standsAs : StandsAs s u3 := by
  have hentered : goodEntered bytes { s with pedalPins := pins } = _ := (goodAssembled_eq bytes pins s).2.2
  have hstart : StandsAs s (goodEntered bytes { s with pedalPins := pins }) := by
    rw [hentered]
    exact ⟨rfl, rfl, rfl, rfl, rfl, rfl, rfl, rfl⟩
  have hbefore := StandsAs.trans hstart (standsAs_of_sent h.ran.before)
  have hmid := StandsAs.trans hbefore (standsAs_of_engine (FrameRan.onlyEngine_mid h.ran))
  exact StandsAs.trans hmid (standsAs_of_sent h.ran.sent)

/-- What the lane leaves of the queue holds no reply that stood not before. -/
theorem GoodRan.served_replies {m : Message} (hm : OutItem.reply m ∈ (laneServed bytes s w).state.outq) :
    OutItem.reply m ∈ s.outq := by
  refine reply_of_grows (GoodRan.served_on h).2.2.2.2.1 ?_
  rcases laneServed_outq bytes s w with e | ⟨x, e⟩
  · rw [← e]
    exact hm
  · rw [e]
    exact List.mem_cons_of_mem _ hm

/-- Where no reply is due, the lane's queue stands before the rest of the frame. -/
theorem GoodRan.queue_last (hlast : reserves (laneAt bytes s).request = false) :
    u3.outq = (laneServed bytes s w).state.outq := by
  obtain ⟨-, -, h3⟩ := h.last (by rw [(goodAssembled_eq bytes pins s).2.1]; exact hlast)
  rw [h3]
  exact (goodTaken_outq w).2 hlast

/-- Where a reply is due, the queue grows behind what the lane and acceptance leave. -/
theorem GoodRan.queue_first (hfirst : reserves (laneAt bytes s).request = true) :
    GrowsFrom (goodTaken bytes { s with pedalPins := pins } w).1.state.outq u3.outq := by
  obtain ⟨-, -, h0, h3⟩ := h.first (by rw [(goodAssembled_eq bytes pins s).2.1]; exact hfirst)
  rw [h3, ← h0]
  show GrowsFrom u0.outq u2.outq
  rw [h.ran.mixed]
  exact runActs_grows _ (appendSamples _ _ u0) (FrameRan.calm h.ran)

/-- The one place at which a frame executes the request it completes. -/
theorem GoodRan.request_split {q : Byte × Req} (hreq : (laneAt bytes s).request = some q)
    (htasks : (goodTaken bytes { s with pedalPins := pins } w).2 = [.request q.1 q.2]) :
    ∃ pre post, acts' = pre ++ .task (.request q.1 q.2) :: post ∧ (∀ a ∈ pre, Act.calm a) ∧ ∀ a ∈ post, Act.calm a := by
  have hleft : (laneLeft bytes { s with pedalPins := pins } w).count (.request q.1 q.2) = 1 := by
    have hlate : (goodTaken bytes { s with pedalPins := pins } w).1.late.count (.request q.1 q.2) = 0 := by
      refine List.count_eq_zero.2 fun m => ?_
      rcases laneTaken_late _ _ _ _ m with e | e <;> cases e
    unfold laneLeft
    rw [List.count_append, hlate, htasks, List.count_singleton_self]
  have hquiet : (tasksOf (front ++ back)).count (.request q.1 q.2) = 0 :=
    List.count_eq_zero.2 fun m => h.ran.quiet _ (mem_tasksOf.1 m)
  have hcount := GoodRan.count h (.inr ⟨q.1, q.2, rfl⟩)
  rw [hleft, hquiet, Nat.zero_add] at hcount
  refine split_at_request hcount fun kind' r' m => ?_
  have hsame := hreq.symm.trans (GoodRan.taken h (.inr m))
  cases hsame
  exact ⟨rfl, rfl⟩

/-- The frame from its request on. -/
theorem GoodRan.executed {kind : Byte} {r : Req} {pre post : List Act} (he : acts' = pre ++ .task (.request kind r) :: post) :
    t = runActs (goodLinked bytes { s with pedalPins := pins }).ltu.link post (finishRequest r
      (executeKind kind r (runActs (goodLinked bytes { s with pedalPins := pins }).ltu.link pre u3))) := by
  rw [h.ran.ended, he, runActs_append, runActs_cons]
  rfl

/-- A request executed in a frame finds what stood before the frame, and what it leaves stands behind it. -/
theorem GoodRan.around {kind : Byte} {r : Req} {pre post : List Act} (he : acts' = pre ++ .task (.request kind r) :: post)
    (hpre : ∀ a ∈ pre, Act.calm a) (hpost : ∀ a ∈ post, Act.calm a) :
    let u := runActs (goodLinked bytes { s with pedalPins := pins }).ltu.link pre u3
    StandsAs s u ∧ StandsAs (executeKind kind r u).state t := by
  intro u
  have hfinish : StandsAs (executeKind kind r u).state (finishRequest r (executeKind kind r u)) := by
    rw [finishRequest_rest]
    exact ⟨rfl, rfl, rfl, rfl, rfl, rfl, rfl, rfl⟩
  refine ⟨StandsAs.trans (GoodRan.standsAs h) (standsAs_of_engine (runActs_onlyEngine _ u3 hpre)),
    StandsAs.trans hfinish ?_⟩
  rw [GoodRan.executed h he]
  exact standsAs_of_engine (runActs_onlyEngine _ _ hpost)

end

/-! ### By the message's route -/

section
variable {bytes : List Byte} {pins : PedalPins} {s : State} {kind : Byte} {r : Req}

/-- The request completed where the queue has room: its reply stands behind what the queue held and before every
notice of the frame (R175, R185). -/
theorem goodFrame_replies (hreq : (laneAt bytes s).request = some (kind, r)) (hb : r.broadcast = false)
    (hroom : s.outq.length < 8) (hnone : OutItem.reservation ∉ s.outq) :
    let t := goodFrame bytes { s with pedalPins := pins }
    CountedAs 10 (kindOfByte kind) s t ∧ ∃ u pre post, StandsAs s u ∧ StandsAs (executeKind kind r u).state t
      ∧ t.outq = pre ++ .reply
        { dest := r.source, source := s.nodeAddr, tag := r.tag, kind := statusByte (executeKind kind r u).status
          body := (executeKind kind r u).body } :: post
      ∧ pre <:+ s.outq ∧ ∀ x ∈ post, x.isNotice = true := by
  intro t
  obtain ⟨u0, u2, u3, w, ys, front, back, acts', others, rest, h⟩ := goodFrame_ran bytes { s with pedalPins := pins }
  have hfirst : reserves (laneAt bytes s).request = true := by
    rw [hreq, reserves_some, hb]
    rfl
  have hwq : w.outq = s.outq := (GoodRan.served_on h).2.2.2.2.2 hfirst
  have hsuffix : (laneServed bytes s w).state.outq <:+ s.outq := by
    rw [← hwq]
    rcases laneServed_outq bytes s w with e | ⟨x, e⟩
    · rw [e]
    · rw [e]
      exact List.suffix_cons x _
  have hserved : OutItem.reservation ∉ (laneServed bytes s w).state.outq := fun m => hnone (hsuffix.subset m)
  have htaken := goodTaken_eq bytes pins s w
  rw [hreq, laneTaken_reserved _ _ _ hb (lt_of_le_of_lt hsuffix.length_le hroom)] at htaken
  obtain ⟨pre, post, he, hpre, hpost⟩ := GoodRan.request_split h hreq (by rw [htaken])
  obtain ⟨hbefore, hbehind⟩ := GoodRan.around h he hpre hpost
  obtain ⟨new0, hnew0, hnotices0, -⟩ := GoodRan.queue_first h hfirst
  obtain ⟨new1, hnew1, hnotices1, -⟩ :=
    runActs_grows (goodLinked bytes { s with pedalPins := pins }).ltu.link u3 hpre
  have ht := GoodRan.executed h he
  generalize runActs (goodLinked bytes { s with pedalPins := pins }).ltu.link pre u3 = u at *
  obtain ⟨new2, hnew2, hnotices2, -⟩ := executeKind_grows kind r u
  obtain ⟨new3, hnew3, hnotices3, -⟩ := runActs_grows (goodLinked bytes { s with pedalPins := pins }).ltu.link
    (finishRequest r (executeKind kind r u)) hpost
  have hqueue : (executeKind kind r u).state.outq =
      (laneServed bytes s w).state.outq ++ .reservation :: (new0 ++ new1 ++ new2) := by
    rw [hnew2, hnew1, hnew0, htaken]
    show ((((laneServed bytes s w).state.outq ++ [OutItem.reservation]) ++ new0) ++ new1) ++ new2 = _
    simp only [List.append_assoc, List.cons_append, List.nil_append]
  have haddr : (executeKind kind r u).state.nodeAddr = s.nodeAddr :=
    (executeKind_onlyRequest kind r u).nodeAddr.trans hbefore.1
  have hreply := finishRequest_behind hb hserved hqueue
  rw [haddr] at hreply
  refine ⟨fun hkind i hi => ?_, u, _, new0 ++ new1 ++ new2 ++ new3, hbefore, hbehind, ?_, hsuffix, fun x hx => ?_⟩
  · have hcounted := GoodRan.accepted h (GoodRan.keepsCounters h fun q hq => by
      rw [hreq] at hq
      cases hq
      exact hkind) i hi
    rw [hcounted, hreq]
    exact countedTimes_one hi
  · rw [show t = _ from ht, hnew3, hreply, List.append_assoc, List.cons_append]
  · simp only [List.mem_append] at hx
    rcases hx with ((hx | hx) | hx) | hx
    · exact hnotices0 x hx
    · exact hnotices1 x hx
    · exact hnotices2 x hx
    · exact hnotices3 x hx

/-- A broadcast completed is counted and executed, and forms no reply (R170, R191). -/
theorem goodFrame_broadcasts (hreq : (laneAt bytes s).request = some (kind, r)) (hb : r.broadcast = true) :
    let t := goodFrame bytes { s with pedalPins := pins }
    CountedAs 10 (kindOfByte kind) s t ∧ (∃ u, StandsAs s u ∧ StandsAs (executeKind kind r u).state t)
      ∧ ∀ m, OutItem.reply m ∈ t.outq → OutItem.reply m ∈ s.outq := by
  intro t
  obtain ⟨u0, u2, u3, w, ys, front, back, acts', others, rest, h⟩ := goodFrame_ran bytes { s with pedalPins := pins }
  have hlast : reserves (laneAt bytes s).request = false := by
    rw [hreq, reserves_some, hb]
    rfl
  have htaken := goodTaken_eq bytes pins s w
  rw [hreq, laneTaken_broadcast _ _ _ hb] at htaken
  obtain ⟨pre, post, he, hpre, hpost⟩ := GoodRan.request_split h hreq (by rw [htaken])
  have ht := GoodRan.executed h he
  refine ⟨fun hkind i hi => ?_, ⟨_, GoodRan.around h he hpre hpost⟩, fun m hm => ?_⟩
  · have hcounted := GoodRan.accepted h (GoodRan.keepsCounters h fun q hq => by
      rw [hreq] at hq
      cases hq
      exact hkind) i hi
    rw [hcounted, hreq]
    exact countedTimes_one hi
  · have hfinish (a : Answer) : finishRequest r a = a.state := by
      unfold finishRequest
      rw [if_pos hb]
    rw [show t = _ from ht, hfinish] at hm
    have hexecuted := reply_of_grows (runActs_grows _ _ hpost) hm
    have hpre' := reply_of_grows (runActs_grows _ u3 hpre) (reply_of_grows (executeKind_grows kind r _) hexecuted)
    exact GoodRan.served_replies h (GoodRan.queue_last h hlast ▸ hpre')

/-- A frame that completes no request executes none (R170). -/
theorem goodFrame_passes (hreq : (laneAt bytes s).request = none) :
    let t := goodFrame bytes { s with pedalPins := pins }
    StandsAs s t ∧ CodeKept 10 s t ∧ ∀ m, OutItem.reply m ∈ t.outq → OutItem.reply m ∈ s.outq := by
  intro t
  obtain ⟨u0, u2, u3, w, ys, front, back, acts', others, rest, h⟩ := goodFrame_ran bytes { s with pedalPins := pins }
  have hcalm' := FrameRan.calm' h.ran (blockTasks_cases _) (GoodRan.calm h hreq)
  have hcounted := GoodRan.accepted h (GoodRan.keepsCounters h fun q hq => (nomatch hreq.symm.trans hq))
  rw [hreq] at hcounted
  refine ⟨?_, CodeKept.of_times hcounted, fun m hm => ?_⟩
  · refine StandsAs.trans (GoodRan.standsAs h) ?_
    rw [show t = _ from h.ran.ended]
    exact standsAs_of_engine (runActs_onlyEngine _ u3 hcalm')
  · rw [show t = _ from h.ran.ended] at hm
    refine GoodRan.served_replies h (w := w) ?_
    rw [← GoodRan.queue_last h (by rw [hreq]; rfl)]
    exact reply_of_grows (runActs_grows _ u3 hcalm') hm

/-- A queue that does not hold the lane keeps its messages through a lane frame. -/
theorem laneServed_outq_kept {w : State} (hsender : ∀ k, w.sender ≠ .queue k) :
    (laneServed bytes s w).state.outq = w.outq := by
  have hzero : (sendQueue 0 w).outq = w.outq := by
    unfold sendQueue
    split
    · rfl
    · split
      · rfl
      · rw [nextPiece_first]
  unfold laneServed
  generalize decodeLane (laneBytes bytes) = lane
  by_cases hb : Begins lane w
  · rw [sendLane_begins hb]
    rfl
  · rw [sendLane_goes hb]
    split
    · split
      · exact (LaneServices.copyLane_outq lane (laneBytes bytes) w).1
      · rfl
    · cases hs : w.sender with
      | none =>
        rw [sendLane_free (fun ⟨⟨_, e⟩, _⟩ => (nomatch e)) hs]
        split
        · exact hzero
        · exact LaneServices.sendFifo_outq 0 w
      | cut => simp only [sendLane, hs]; rfl
      | fifo k =>
        rw [sendLane_fifo (fun ⟨⟨_, e⟩, _⟩ => (nomatch e)) hs]
        exact LaneServices.sendFifo_outq k w
      | queue k => exact absurd hs (hsender k)

/-- A request that meets a queue which stays full is dropped with REQUEST_DROP (R176). -/
theorem goodFrame_drops (hreq : (laneAt bytes s).request = some (kind, r)) (hb : r.broadcast = false)
    (hfull : 8 ≤ s.outq.length) (hsender : ∀ k, s.sender ≠ .queue k) :
    let t := goodFrame bytes { s with pedalPins := pins }
    StandsAs s t ∧ CountedAs 10 none s t ∧ t.outq = s.outq
      ∧ ((s.fault .requestDrop).detectMask = false → (t.fault .requestDrop).status = true) := by
  intro t
  obtain ⟨u0, u2, u3, w, ys, front, back, acts', others, rest, h⟩ := goodFrame_ran bytes { s with pedalPins := pins }
  have hs := goodEntered_calm bytes pins s
  have hfirst : reserves (laneAt bytes s).request = true := by
    rw [hreq, reserves_some, hb]
    rfl
  obtain ⟨hwsender, -, -, -, -, hwq⟩ := GoodRan.served_on h
  have hserved : (laneServed bytes s w).state.outq = s.outq := by
    refine (laneServed_outq_kept fun k e => ?_).trans (hwq hfirst)
    rcases (assemble_rest (decodeLane (laneBytes bytes)) s).2.2 with e' | ⟨-, e'⟩
    · exact hsender k (e'.symm.trans (hwsender.symm.trans e))
    · cases e'.symm.trans (hwsender.symm.trans e)
  have htaken := goodTaken_eq bytes pins s w
  rw [hreq, laneTaken_dropped _ _ _ hb (by
    show 8 ≤ (laneServed bytes s w).state.outq.length
    rw [hserved]
    exact hfull)] at htaken
  have hleft : laneLeft bytes { s with pedalPins := pins } w =
      (goodTaken bytes { s with pedalPins := pins } w).1.late := by
    unfold laneLeft
    rw [htaken, List.append_nil]
  have hcalm (kind' : Byte) (r' : Req) : Task.request kind' r' ∉ others := fun m => by
    have hcount := h.counts _ (.inr ⟨kind', r', rfl⟩)
    rw [hleft] at hcount
    have hpos : 0 < (goodTaken bytes { s with pedalPins := pins } w).1.late.count (.request kind' r') := by
      rw [← hcount]
      exact List.count_pos_iff.2 m
    rcases laneTaken_late _ _ _ _ (List.count_pos_iff.1 hpos) with e | e <;> cases e
  have hblocks := blockTasks_cases (goodEntered bytes { s with pedalPins := pins })
  have hcalm' := FrameRan.calm' h.ran hblocks hcalm
  have hmem : Task.occurrence .requestDrop .none ∈ others := by
    obtain ⟨skips, -, hrest⟩ := h.rest
    refine (h.clip.last _).2 (.inl ((hrest _).2 (.inr (.inr ?_))))
    rw [hleft, htaken]
    exact List.mem_append_right _ List.mem_cons_self
  have hqueue : u3.outq = s.outq := by
    have hgrows := GoodRan.queue_first h hfirst
    have hq0 : (goodTaken bytes { s with pedalPins := pins } w).1.state.outq = s.outq := by
      rw [htaken]
      exact hserved
    rw [hq0] at hgrows
    exact eq_of_grows_full hgrows hfull
  have hengine : OnlyEngine u3 t := by
    rw [show t = _ from h.ran.ended]
    exact runActs_onlyEngine _ u3 hcalm'
  refine ⟨StandsAs.trans (GoodRan.standsAs h) (standsAs_of_engine hengine), fun _ i hi => ?_, ?_, fun hmask => ?_⟩
  · have hcounted := GoodRan.accepted h
      ⟨fun _ _ m => (h.ran.quiet _ (mem_tasksOf.1 m)).elim, fun _ _ m => (hcalm' _ (mem_tasksOf.1 m)).elim⟩ i hi
    rw [hcounted, hreq]
    exact countedTimes_one hi
  · rw [show t = _ from h.ran.ended]
    refine (eq_of_grows_full (runActs_grows _ u3 hcalm') (by rw [hqueue]; exact hfull)).trans hqueue
  · exact FrameRan.sets h.ran hcalm hblocks hmem (by rw [EnteredCalm.fault hs]; exact hmask)

end

end Sys2Proof.Proofs.RequestsInFrames
end

