-- ==== Sys2Proof/Proofs/RequestsUnread.lean ====
section
/-! PROOF. The execution of a request reads neither receiver nor pedal lines, nor the frame that left or the orders
drawn (R176): over others of these it gives the same answer. ENGINE_RESET alone writes one of them, the lines. -/

namespace Sys2Proof.Proofs.RequestsUnread

open Sys2Proof Sys2Proof.Machine Sys2Proof.Safety Sys2Proof.Proofs.Unread Sys2Proof.Proofs.Answers

/-- The answer over another rest of the state. -/
def restAnswer (ρ : Rest) (a : Answer) : Answer := { a with state := onRest ρ a.state }

/-- An act that gives over any rest the answer it gives over its own. -/
def DeafAct (f : State → Answer) : Prop := ∀ (ρ : Rest) (s : State), f (onRest ρ s) = restAnswer ρ (f s)

theorem deafAct_answer (st : Status) {f : State → State} (h : Deaf f) : DeafAct fun s => answer st (f s) := fun ρ s => by
  show answer st (f (onRest ρ s)) = _
  rw [h]
  rfl

theorem deaf_id : Deaf fun s => s := fun _ _ => rfl

/-! ### The operations -/

theorem deaf_setPending (g : Fin 8) (c : Cue) (o : Origin) : Deaf (setPending g c o) := fun ρ s => by
  unfold setPending
  simp only [show (onRest ρ s).gateway g = s.gateway g from rfl]
  cases (s.gateway g).enabled with
  | false => rfl
  | true => cases (s.gateway g).pending <;> rfl

theorem deaf_mapKinds (ks : List FaultKind) (f : FaultKind → FaultRecord → FaultRecord) : Deaf (mapKinds ks f) :=
  deaf_foldl (fun _ _ _ => rfl) ks

theorem deaf_clearKinds (ks : List FaultKind) : Deaf (clearKinds ks) := fun ρ s => by
  unfold clearKinds
  rw [deaf_mapKinds]
  rfl

theorem deaf_setupKinds (ks : List FaultKind) (detect report : Bool) (sev : Severity) :
    Deaf (setupKinds ks detect report sev) := fun ρ s => by
  unfold setupKinds
  rw [deaf_mapKinds]
  cases detect with
  | false => rfl
  | true => exact deaf_clearKinds ks ρ _

theorem deaf_handOffAfterSet (g : Fin 8) : Deaf (handOffAfterSet g) := fun ρ s => by
  unfold handOffAfterSet
  rw [deaf_handOff, deaf_handOff]
  split
  · rfl
  · split <;> rfl

theorem deafAct_enterTimed (e : TimedEntry) (late : Bool) : DeafAct (enterTimed e late) := fun ρ s => by
  have hentered : handOff e.lead { onRest ρ s with timed := insertEntry s.ltu.count e s.timed } =
      onRest ρ (handOff e.lead { s with timed := insertEntry s.ltu.count e s.timed }) :=
    deaf_handOff e.lead ρ { s with timed := insertEntry s.ltu.count e s.timed }
  unfold enterTimed
  rw [show (onRest ρ s).timed = s.timed from rfl, show (onRest ρ s).ltu = s.ltu from rfl]
  split
  · rw [deaf_raise]
    rfl
  · have hlate : Deaf fun u => if late = true then raise .cueLate (.lead e.lead) u else u := by
      cases late with
      | false => exact deaf_id
      | true => exact deaf_raise _ _
    exact congrArg (answer .done) ((congrArg (fun u => if late = true then raise .cueLate (.lead e.lead) u else u)
      hentered).trans (hlate ρ (handOff e.lead { s with timed := insertEntry s.ltu.count e s.timed })))

/-- A load's content installed over another rest. -/
theorem install_onRest (t : LoadTarget) (bs : List Byte) (ρ : Rest) (s : State) :
    install t bs (onRest ρ s) = (install t bs s).map (onRest ρ) := by
  cases t with
  | tuning i =>
    show (tuningOfBytes bs).map _ = ((tuningOfBytes bs).map _).map _
    rw [Option.map_map]
    rfl
  | map i =>
    show (mapOfBytes bs).map _ = ((mapOfBytes bs).map _).map _
    rw [Option.map_map]
    rfl
  | scene i =>
    show (sceneOfBytes bs).map _ = ((sceneOfBytes bs).map _).map _
    rw [Option.map_map]
    rfl

theorem inUse_onRest (t : LoadTarget) (ρ : Rest) (s : State) : inUse t (onRest ρ s) = inUse t s := by
  have hused (L : Lead) : usedBy L t (onRest ρ s) = usedBy L t s := by
    unfold usedBy
    rw [onRest_lead]
    rfl
  unfold inUse
  rw [hused, hused]

/-! ### The acts -/

section
variable (r : Req)

theorem deafAct_readCap : DeafAct (actReadCap r) := fun ρ s => by
  have hcap : capability (onRest ρ s) (byteAt r.body 0).toNat = capability s (byteAt r.body 0).toNat := rfl
  unfold actReadCap
  simp only [hcap]
  cases capability s (byteAt r.body 0).toNat <;> rfl

theorem deafAct_configure : DeafAct (actConfigure r) := fun ρ s => by
  unfold actConfigure
  cases configOfBody r.body with
  | none => rfl
  | some c =>
    have htaken (k : Fin 24) : slotTaken (onRest ρ s) k = slotTaken s k := rfl
    simp only [htaken]
    cases c.slotB with
    | none => simp only; split <;> rfl
    | some k => simp only; split <;> rfl

theorem deafAct_loadBegin : DeafAct (actLoadBegin r) := fun ρ s => by
  unfold actLoadBegin
  rw [show (onRest ρ s).load = s.load from rfl]
  cases targetOfBytes (byteAt r.body 0) (byteAt r.body 1) with
  | none => rfl
  | some t => cases s.load <;> rfl

theorem deafAct_loadData : DeafAct (actLoadData r) := fun ρ s => by
  unfold actLoadData
  rw [show (onRest ρ s).load = s.load from rfl]
  cases s.load with
  | none => rfl
  | some l => simp only; split <;> rfl

theorem deafAct_loadAbort : DeafAct (actLoadAbort r) := fun ρ s => by
  unfold actLoadAbort
  rw [show (onRest ρ s).load = s.load from rfl]
  cases s.load <;> rfl

theorem deafAct_loadCommit : DeafAct (actLoadCommit r) := fun ρ s => by
  unfold actLoadCommit
  rw [show (onRest ρ s).load = s.load from rfl]
  cases s.load with
  | none => rfl
  | some l =>
    have hinstall : install l.target l.buffer { onRest ρ s with load := none } =
      (install l.target l.buffer { s with load := none }).map (onRest ρ) :=
      install_onRest l.target l.buffer ρ { s with load := none }
    simp only [inUse_onRest, hinstall]
    split
    · rfl
    · cases install l.target l.buffer { s with load := none } <;> rfl

theorem deafAct_readTable : DeafAct (actReadTable r) := fun ρ s => by
  have hbytes (t : LoadTarget) : tableBytes t (onRest ρ s) = tableBytes t s := by cases t <;> rfl
  unfold actReadTable
  simp only [hbytes]
  cases targetOfBytes (byteAt r.body 0) (byteAt r.body 1) with
  | none => rfl
  | some t => simp only; split <;> rfl

theorem deafAct_cueNow : DeafAct (actCueNow r) := fun ρ s => by
  unfold actCueNow
  cases leadOfByte (byteAt r.body 0) with
  | none => rfl
  | some L =>
    cases cueOfBytes (byteAt r.body 1) (byteAt r.body 2) (byteAt r.body 3) with
    | none => rfl
    | some c =>
      simp only [show (onRest ρ s).gateway = s.gateway from rfl]
      split
      · exact deafAct_answer .done (deaf_setPending (immediateGateway L) c .request) ρ s
      · rfl

theorem deafAct_cueAt : DeafAct (actCueAt r) := fun ρ s => by
  unfold actCueAt
  cases leadOfByte (byteAt r.body 4) with
  | none => rfl
  | some L =>
    cases cueOfBytes (byteAt r.body 5) (byteAt r.body 6) (byteAt r.body 7) with
    | none => rfl
    | some c =>
      simp only [show (onRest ρ s).gateway = s.gateway from rfl, show (onRest ρ s).ltu = s.ltu from rfl,
        show (onRest ρ s).config = s.config from rfl]
      split
      · rfl
      · split
        · rfl
        · split
          · exact deafAct_enterTimed _ _ ρ s
          · split
            · exact deafAct_enterTimed _ _ ρ s
            · split
              · exact deafAct_enterTimed _ _ ρ s
              · exact deafAct_answer .late (deaf_raise .cueLate (.lead L)) ρ s

theorem deafAct_cueFlush : DeafAct (actCueFlush r) := fun ρ s => by
  unfold actCueFlush
  cases leadOfByte (byteAt r.body 0) <;> rfl

theorem deafAct_gatewaySet : DeafAct (actGatewaySet r) := fun ρ s => by
  unfold actGatewaySet
  cases finOf 8 (byteAt r.body 0).toNat with
  | none => rfl
  | some g =>
    simp only
    split
    · cases pedalGatewayOf r.body <;> rfl
    · exact congrArg (answer .done) (deaf_handOffAfterSet g ρ (s.setGateway g { s.gateway g with
        enabled := (byteAt r.body 1).getLsbD 0, priority := min 15 (byteAt r.body 2).toNat, pending := none }))

theorem deafAct_portSet : DeafAct (actPortSet r) := fun ρ s => by
  unfold actPortSet
  cases leadOfByte (byteAt r.body 0) with
  | none => rfl
  | some L => cases L <;> rfl

theorem deafAct_faultClear : DeafAct (actFaultClear r) := fun ρ s => by
  unfold actFaultClear
  cases kindSetOfBytes (byteAt r.body 0) (byteAt r.body 1) with
  | none => rfl
  | some ks => exact deafAct_answer .done (deaf_clearKinds ks) ρ s

theorem deafAct_faultSetup : DeafAct (actFaultSetup r) := fun ρ s => by
  unfold actFaultSetup
  cases kindSetOfBytes (byteAt r.body 0) (byteAt r.body 1) with
  | none => rfl
  | some ks =>
    simp only [deaf_setupKinds ks _ _ _ ρ s]
    split <;> rfl

theorem deafAct_counterSetup : DeafAct (actCounterSetup r) := fun ρ s => by
  unfold actCounterSetup
  cases finOf 4 (byteAt r.body 0).toNat <;> rfl

/-- A request of any kind but ENGINE_RESET is deaf to the rest. -/
theorem deafAct_actOf {k : ReqKind} (hk : k ≠ .engineReset) : DeafAct (actOf k r) := by
  cases k with
  | engineReset => exact absurd rfl hk
  | identify => exact fun _ _ => rfl
  | readConfig => exact fun _ _ => rfl
  | readState => exact fun _ _ => rfl
  | readFaults => exact fun _ _ => rfl
  | readCounters => exact fun _ _ => rfl
  | readCap => exact deafAct_readCap r
  | configure => exact deafAct_configure r
  | loadBegin => exact deafAct_loadBegin r
  | loadData => exact deafAct_loadData r
  | loadCommit => exact deafAct_loadCommit r
  | loadAbort => exact deafAct_loadAbort r
  | readTable => exact deafAct_readTable r
  | cueNow => exact deafAct_cueNow r
  | cueAt => exact deafAct_cueAt r
  | cueFlush => exact deafAct_cueFlush r
  | gatewaySet => exact deafAct_gatewaySet r
  | portSet => exact deafAct_portSet r
  | faultClear => exact deafAct_faultClear r
  | faultSetup => exact deafAct_faultSetup r
  | counterSetup => exact deafAct_counterSetup r

/-- The execution of a request over another rest: the same answer, over some rest. -/
theorem executeKind_onRest (kind : Byte) (ρ : Rest) (s : State) :
    ∃ ρ', executeKind kind r (onRest ρ s) = restAnswer ρ' (executeKind kind r s) := by
  cases hk : kindOfByte kind with
  | none =>
    rw [executeKind_unknown hk]
    exact ⟨ρ, rfl⟩
  | some k =>
    rw [executeKind_known hk]
    unfold checked
    split
    · by_cases hreset : k = .engineReset
      · subst hreset
        exact ⟨{ ρ with pedals := ρ.pedals.map PedalLine.engineReset }, rfl⟩
      · exact ⟨ρ, deafAct_actOf r hreset ρ s⟩
    · exact ⟨ρ, rfl⟩

end

/-! ### The pedal lines behind a request -/

theorem handOff_pedals (L : Lead) (s : State) : (handOff L s).pedals = s.pedals := by
  rw [CueRequests.handOff_eq]

theorem raise_pedals (k : FaultKind) (sc : Scope) (s : State) : (raise k sc s).pedals = s.pedals := by
  rw [(raise_onlyFaults k sc s).eq]

/-- A request leaves the pedal lines, or resets their timers and marks (R176, R184). -/
theorem executeKind_pedals (kind : Byte) (r : Req) (s : State) :
    (executeKind kind r s).state.pedals = s.pedals
      ∨ (executeKind kind r s).state.pedals = s.pedals.map PedalLine.engineReset := by
  have hmove := RequestMoves.executeKind_move kind r s
  generalize (executeKind kind r s).state = t at hmove
  cases hmove with
  | engineReset => exact .inr rfl
  | pended L c =>
    refine .inl ?_
    unfold setPending
    simp only
    split
    · split <;> rfl
    · rfl
  | late L => exact .inl (raise_pedals ..)
  | entered e late _ =>
    refine .inl ?_
    unfold enterTimed
    split
    · exact raise_pedals ..
    · cases late with
      | false => exact handOff_pedals ..
      | true => exact (raise_pedals ..).trans (handOff_pedals ..)
  | fixedGateway g enabled n _ =>
    refine .inl ?_
    unfold handOffAfterSet
    split
    · exact handOff_pedals ..
    · split
      · exact handOff_pedals ..
      · rfl
  | threshold L n => exact .inl (by cases L <;> rfl)
  | cleared ks => exact .inl (by rw [FaultRequests.clearKinds_eq])
  | setup ks detect report sev => exact .inl (by rw [FaultRequests.setupKinds_eq])
  | _ => exact .inl rfl

end Sys2Proof.Proofs.RequestsUnread
end

