-- ==== Sys2Proof/Proofs/StandingRequests.lean ====
section
/-! PROOF. A good frame with nothing to do but the request it completes (O31): it does what the request's row does on
the state the frame has brought. -/

namespace Sys2Proof.Proofs.StandingRequests

open Sys2Proof Sys2Proof.Machine Sys2Proof.Safety Sys2Proof.Proofs.Queues Sys2Proof.Proofs.Traces
  Sys2Proof.Proofs.ActEffects Sys2Proof.Proofs.Occurrences Sys2Proof.Proofs.FrameRuns Sys2Proof.Proofs.FrameFacts
  Sys2Proof.Proofs.FrameEnds Sys2Proof.Proofs.FrameStarts Sys2Proof.Proofs.PhantomFrames
  Sys2Proof.Proofs.PedalsAndTimed Sys2Proof.Proofs.VoicesInFrames Sys2Proof.Proofs.SlotSums
  Sys2Proof.Proofs.ClipFrames Sys2Proof.Proofs.LaneAssembly Sys2Proof.Proofs.StandingFrames
  Sys2Proof.Proofs.GoodFrameRuns Sys2Proof.Proofs.GoodFrameStarts Sys2Proof.Proofs.GoodLanes
  Sys2Proof.Proofs.GoodFrames Sys2Proof.Proofs.GoodFrameBlocks Sys2Proof.Proofs.GoodFrameLanes
  Sys2Proof.Proofs.GoodFrameQueues Sys2Proof.Proofs.GoodFrameCounts Sys2Proof.Proofs.RequestsInFrames
  Sys2Proof.Proofs.RequestsUnread Sys2Proof.Proofs.Unread Sys2Proof.Proofs.CueFlush

/-! ### A resting line -/

/-- A line that rests does so behind an engine reset: its stuck timer begins anew (R132). -/
theorem pedalJudged_reset {limit : Nat} {high : Bool} {p : PedalLine} (hlimit : 1 ≤ limit)
    (hlevel : p.level = some (pinLevel high)) : ¬PedalJudged limit high p.engineReset := by
  rintro ⟨-, h⟩
  have hlate : ¬limit * 48000 ≤ 1 := by omega
  unfold pedalAfter PedalLine.engineReset at h
  rw [hlevel] at h
  have hmin : min 5760000 (0 + 1) = 1 := rfl
  simp only [hmin, Nat.reduceAdd, Nat.reduceLeDiff, if_false, Bool.false_and, Bool.false_or, decide_eq_true_eq] at h
  obtain ⟨hpressed, hdue⟩ := h
  rw [if_pos hpressed] at hdue
  exact hlate hdue

theorem lineRests_behind {limit : Nat} {l : LineId} {s t : State} (h : LineRests limit l s) (hlimit : 1 ≤ limit)
    (hpins : t.pedalPins = s.pedalPins)
    (hpedals : t.pedals = s.pedals ∨ t.pedals = s.pedals.map PedalLine.engineReset) : LineRests limit l t := by
  obtain ⟨hlevel, hjudged⟩ := h
  unfold LineRests
  rw [hpins]
  rcases hpedals with e | e
  · have hline : t.pedal l = s.pedal l := congrArg (fun x : Vector PedalLine 4 => x[l]) e
    rw [hline]
    exact ⟨hlevel, hjudged⟩
  · have hline : t.pedal l = (s.pedal l).engineReset := by
      unfold State.pedal
      rw [e]
      exact Vector.getElem_map _ _
    rw [hline]
    exact ⟨hlevel, pedalJudged_reset hlimit hlevel⟩

/-- A line that no act takes rests on. -/
theorem lineRests_through {ls : LinkState} {limit : Nat} {l : LineId} {acts : List Act} {s : State}
    (h : LineRests limit l s) (hcalm : ∀ a ∈ acts, Act.calm a) (hnone : linesOf l acts = []) :
    LineRests limit l (runActs ls acts s) := by
  unfold LineRests
  rw [runActs_line_kept ls s hcalm hnone, runActs_pins ls s hcalm]
  exact h

/-! ### Another rest -/

/-- What differs by lines, orders drawn and a rest differs by a rest. -/
theorem onRest_of_still {ρ : Rest} {s t u : State} (h : Still t u) (ht : t = onRest ρ s) :
    u = onRest ⟨ρ.receiver, ρ.linkOut, u.pedals, u.draws⟩ s := by
  have hu : u = { t with pedals := u.pedals, draws := u.draws } := h
  rw [ht] at hu
  exact hu

theorem finishRequest_onRest (r : Req) (ρ : Rest) (a : Answer) :
    finishRequest r (restAnswer ρ a) = onRest ρ (finishRequest r a) := by
  unfold finishRequest
  split <;> rfl

/-! ### The state the frame has brought -/

/-- The count adopted in order where no timed cue waits. -/
theorem adoptCount_waiting {c : Word32} {s : State} (hc : c = s.ltu.count + 1) (h : s.timed = []) :
    adoptCount c s = { s with ltu := { s.ltu with count := c } } := by
  unfold adoptCount handOffBoth
  rw [if_pos hc, h]
  have hnone (L : Lead) : handOff L { s with ltu := { s.ltu with count := c }, timed := [] } = _ :=
    PedalsAndTimed.handOff_absent (L := L) nofun
  simp only [List.map_nil, hnone]

/-- A good frame with nothing to do but a request for a reply. -/
structure StandingRequest (bytes : List Byte) (pins : PedalPins) (s : State) (kind : Byte) (r : Req) : Prop where
  last : ∃ m, decodeLane (laneBytes bytes) = .last m
  laned : laneAt bytes s = { state := { s with assembly := none }, raised := [], request := some (kind, r) }
  answers : r.broadcast = false
  order : frameCount bytes = s.ltu.count + 1
  off : (frameCount bytes).toNat % 64 ≠ 63
  timed : s.timed = []
  stands : ∀ v, (s.voice v).runs = false
  outq : s.outq = []
  fifo : s.fifo = []
  free : s.sender = .none
  limit : 1 ≤ s.config.stuckLimit
  quiet : QuietLines pins s

/-- What a frame with nothing else to do brings before its request. -/
def broughtState (bytes : List Byte) (pins : PedalPins) (s : State) : State :=
  { s with
    pedalPins := pins, ltu := goodLtu bytes s, assembly := none, laneOut := idleLane
    leadA := { s.leadA with history := ((leadSamples s bytes).1 :: s.leadA.history).take 2048 }
    leadB := { s.leadB with history := ((leadSamples s bytes).2 :: s.leadB.history).take 2048 } }

section
variable {bytes : List Byte} {pins : PedalPins} {s : State} {kind : Byte} {r : Req}
  (hst : StandingRequest bytes pins s kind r)
include hst

theorem StandingRequest.entered : goodEntered bytes { s with pedalPins := pins } =
    { s with pedalPins := pins, ltu := goodLtu bytes s, assembly := none } := by
  have hentered : goodEntered bytes { s with pedalPins := pins } = _ := (goodAssembled_eq bytes pins s).2.2
  obtain ⟨l, hcount, hadopts⟩ := goodLinked_adopts bytes { s with pedalPins := pins }
  have hlinked : goodLinked bytes { s with pedalPins := pins } = _ := hadopts.trans
    (adoptCount_waiting (s := { s with pedalPins := pins, ltu := l }) (by rw [hcount]; exact hst.order) hst.timed)
  rw [show assemble (decodeLane (laneBytes bytes)) s = laneAt bytes s from rfl, hst.laned, hlinked] at hentered
  exact hentered

/-- The lane of such a frame is IDLE, and the request gets its reservation (R172, R175). -/
theorem StandingRequest.taken {w : State} (hsender : w.sender = .none) (hfifo : w.fifo = []) (hq : w.outq = []) :
    goodTaken bytes { s with pedalPins := pins } w =
      ({ state := reserved { w with laneOut := idleLane }, late := [] }, [.request kind r]) := by
  obtain ⟨m, hlast⟩ := hst.last
  have hbegins : ¬Begins (decodeLane (laneBytes bytes)) w := by
    rw [hlast]
    exact fun ⟨⟨_, e⟩, _⟩ => nomatch e
  have hlane : sendLane (decodeLane (laneBytes bytes)) (laneBytes bytes) (decide (s.sender = .cut)) w =
      .quiet { w with laneOut := idleLane } := by
    rw [decide_eq_false (by rw [hst.free]; nofun), sendLane_free hbegins hsender, if_pos hfifo, sendQueue_empty hq,
      ← hsender]
  rw [goodTaken_eq, hst.laned, laneTaken_reserved _ _ _ hst.answers (by
    rw [hlane]
    show w.outq.length < 8
    rw [hq]
    exact Nat.zero_lt_succ 7), hlane]
  rfl

/-- Such a frame takes its request, each line once, and nothing else. -/
theorem StandingRequest.others {u0 u2 u3 w t : State} {ys : List Int} {front back acts' : List Act}
    {others rest : List Task}
    (h : GoodRan bytes { s with pedalPins := pins } u0 u2 u3 w t ys front back acts' others rest)
    (hleft : laneLeft bytes { s with pedalPins := pins } w = [.request kind r]) :
    ∀ x ∈ others, x = .request kind r := by
  have hs := goodEntered_calm bytes pins s
  have hran := h.ran
  have hclip := h.clip
  obtain ⟨skips, hskips, hrest⟩ := h.rest
  have hraised : ∀ x, x ∉ goodOccurrences bytes { s with pedalPins := pins } := fun x m => by
    rcases goodOccurrences_mem.1 m with ⟨e, -⟩ | ⟨k, hk, -⟩
    · rw [slips_of_order (u := ({ s with pedalPins := pins } : State).ltu) hst.order] at e
      cases e
    · rw [(goodAssembled_eq bytes pins s).1, show assemble (decodeLane (laneBytes bytes)) s = laneAt bytes s from rfl,
        hst.laned] at hk
      cases hk
  generalize goodEntered bytes { s with pedalPins := pins } = u at *
  have hstood (v : VoiceId) : ((appendSamples (leadSamples { s with pedalPins := pins } bytes).1
      (leadSamples { s with pedalPins := pins } bytes).2 u0).voice v).runs = false := by
    rw [show (appendSamples _ _ u0).voice v = u.voice v from Sent.voice hran.before v, EnteredCalm.voice hs v]
    exact hst.stands v
  have hslots : clippedSlots (claims u) ys = [] :=
    clippedSlots_of_standing u hran.size fun v => sample_stands _ _ hran.quiet hran.worked (hstood v) (hran.sampled v)
  have hskipsNone := skips_of_standing hskips (fun a m => hran.quiet a (List.mem_append_left _ m))
    (by
      have hworked := hran.worked
      rwa [voicesOf_append, hclip.idle, List.append_nil] at hworked) hstood
  intro x hx
  rcases (hclip.last x).1 hx with hx | hx
  · rcases (hrest x).1 hx with hx | hx | hx
    · exact absurd hx (hraised x)
    · rw [hskipsNone] at hx
      cases hx
    · rw [hleft] at hx
      exact List.mem_singleton.1 hx
  · exact absurd hslots (mem_clipTask.1 hx).2.1

end

/-! ### The parts of such a frame -/

section
variable {ls : LinkState} {xs : Int × Int} {limit : Nat} {ys : List Int} {others : List Task}
  {u u0 u2 u3 t : State} {acts acts' pre post part : List Act} {kind : Byte} {r : Req}
  (h : FrameRan ls xs limit ys others [] u u0 u2 u3 t acts acts') (hothers : ∀ x ∈ others, x = .request kind r)
include h hothers

theorem request_or_line {x : Task} (m : x ∈ tasksOf acts ∨ x ∈ tasksOf acts') :
    x = .request kind r ∨ ∃ l n, x = .pedal l n := by
  have hmem := h.tasks.subset (List.mem_append.2 m)
  rw [List.append_nil] at hmem
  rcases List.mem_append.1 hmem with hmem | hmem
  · exact .inl (hothers x hmem)
  · obtain ⟨l, -, rfl⟩ := List.mem_map.1 hmem
    exact .inr ⟨l, limit, rfl⟩

/-- What is taken before or behind the request does not show. -/
theorem still_part (hsub : ∀ a ∈ part, a ∈ acts') (hcalm : ∀ a ∈ part, Act.calm a) (w : State)
    (hlines : ∀ l, linesOf l part = [] ∨ linesOf l part = [limit] ∧ LineRests limit l w) :
    Still w (runActs ls part w) := by
  have htasks : ∀ x ∈ tasksOf part, ∃ l n, x = .pedal l n := fun x m => by
    rcases request_or_line h hothers (.inr (mem_tasksOf.2 (hsub _ (mem_tasksOf.1 m)))) with rfl | hx
    · exact (hcalm _ (mem_tasksOf.1 m)).elim
    · exact hx
  have hquiet : ∀ a ∈ part, Act.quiet a := fun a m => by
    cases a with
    | draw => trivial
    | voice v => trivial
    | task x =>
      obtain ⟨l, n, rfl⟩ := htasks x (mem_tasksOf.2 m)
      trivial
  refine runActs_still ls (limit := limit) hquiet (fun x m => .inr (htasks x m)) hlines fun v m => ?_
  have hmem : v ∈ voicesOf acts' := mem_voicesOf.2 (hsub _ (mem_voicesOf.1 m))
  rw [h.idle] at hmem
  cases hmem

omit hothers in
/-- Each line is taken before the request's part of the frame, before the request, or behind it. -/
theorem lines_around (he : acts' = pre ++ .task (.request kind r) :: post) (l : LineId) :
    (linesOf l pre = [] ∧ linesOf l post = [])
      ∨ (linesOf l acts = [] ∧ linesOf l pre = [limit] ∧ linesOf l post = [])
      ∨ (linesOf l acts = [] ∧ linesOf l pre = [] ∧ linesOf l post = [limit]) := by
  have hsplit : linesOf l acts' = linesOf l pre ++ linesOf l post := by
    rw [he, linesOf_append]
    rfl
  rcases FrameRan.line_once h (.inl rfl) l with ⟨-, hl⟩ | ⟨hnone, hl⟩
  · rw [hl] at hsplit
    exact .inl (List.append_eq_nil_iff.1 hsplit.symm)
  · rw [hl] at hsplit
    rcases List.append_eq_singleton_iff.1 hsplit.symm with e | e
    · exact .inr (.inr ⟨hnone, e⟩)
    · exact .inr (.inl ⟨hnone, e⟩)

end

/-- A line that rests does so behind an answered request. -/
theorem lineRests_answered {limit : Nat} {l : LineId} {s : State} {kind : Byte} {r : Req} (h : LineRests limit l s)
    (hlimit : 1 ≤ limit) : LineRests limit l (finishRequest r (executeKind kind r s)) := by
  have hpins := (executeKind_onlyRequest kind r s).pedalPins
  have hpedals := executeKind_pedals kind r s
  rw [finishRequest_rest]
  exact lineRests_behind (t := { (executeKind kind r s).state with outq := _ }) h hlimit hpins hpedals

section
variable {bytes : List Byte} {pins : PedalPins} {s : State} {kind : Byte} {r : Req}
  (hst : StandingRequest bytes pins s kind r)
include hst

/-- A frame with nothing to do but a request does what the request's row does (R9, R175, R176). -/
theorem goodFrame_requests : ∃ ρ, goodFrame bytes { s with pedalPins := pins } =
    onRest ρ (takeRequest (executeKind kind) r (broughtState bytes pins s)) := by
  obtain ⟨u0, u2, u3, w, ys, front, back, acts', others, rest, h⟩ := goodFrame_ran bytes { s with pedalPins := pins }
  have hentered := StandingRequest.entered hst
  have hreq : (laneAt bytes s).request = some (kind, r) := by rw [hst.laned]
  obtain ⟨-, hw, h0, h3⟩ := h.first (by
    rw [(goodAssembled_eq bytes pins s).2.1]
    show reserves (laneAt bytes s).request = true
    rw [hreq, reserves_some, hst.answers]
    rfl)
  have htaken := StandingRequest.taken hst (w := w) (by rw [hw, hentered]; exact hst.free)
    (by rw [hw, hentered]; exact hst.fifo) (by rw [hw, hentered]; exact hst.outq)
  have hothers := StandingRequest.others hst h (by unfold laneLeft; rw [htaken]; rfl)
  obtain ⟨pre, post, he, hpre, hpost⟩ := GoodRan.request_split h hreq (by rw [htaken])
  have ht := GoodRan.executed h he
  have hbase : appendSamples (leadSamples s bytes).1 (leadSamples s bytes).2 u0 =
      reserved (broughtState bytes pins s) := by
    rw [h0, htaken, hw, hentered]
    rfl
  have hblocks : blockTasks (goodEntered bytes { s with pedalPins := pins }) = [] := blockTasks_of_other (by
    rw [hentered, goodLtu_count]
    exact hst.off)
  have hran := h.ran
  rw [hblocks, show leadSamples { s with pedalPins := pins } bytes = leadSamples s bytes from rfl] at hran
  generalize (goodLinked bytes { s with pedalPins := pins }).ltu.link = ls at *
  generalize goodFrame bytes { s with pedalPins := pins } = t at *
  have hrests (l : LineId) : LineRests s.config.stuckLimit l (reserved (broughtState bytes pins s)) := hst.quiet l
  have hmid : Still (reserved (broughtState bytes pins s)) u2 := by
    rw [hran.mixed, hbase]
    refine runActs_still ls (limit := s.config.stuckLimit) hran.quiet (fun x m => .inr ?_) (fun l => ?_)
      fun v _ => hst.stands v
    · rcases request_or_line hran hothers (.inl m) with rfl | hx
      · exact (hran.quiet _ (mem_tasksOf.1 m)).elim
      · exact hx
    · exact (FrameRan.line_once hran (.inl rfl) l).elim (fun e => .inr ⟨e.1, hrests l⟩) fun e => .inl e.1
  have hrests3 (l : LineId) (hnone : linesOf l (front ++ back) = []) : LineRests s.config.stuckLimit l u3 := by
    have hkept := lineRests_through (ls := ls) (hrests l) (FrameRan.calm hran) hnone
    rw [← hbase, ← hran.mixed] at hkept
    rw [h3]
    exact hkept
  have hfront : ∀ a ∈ pre, a ∈ acts' := fun a m => by
    rw [he]
    exact List.mem_append_left _ m
  have hback : ∀ a ∈ post, a ∈ acts' := fun a m => by
    rw [he]
    exact List.mem_append_right _ (List.mem_cons_of_mem _ m)
  have hbefore : Still u3 (runActs ls pre u3) := still_part hran hothers hfront hpre u3 fun l => by
    rcases lines_around hran he l with ⟨hl, -⟩ | ⟨hnone, hl, -⟩ | ⟨-, hl, -⟩
    · exact .inl hl
    · exact .inr ⟨hl, hrests3 l hnone⟩
    · exact .inl hl
  have hbehind : Still (finishRequest r (executeKind kind r (runActs ls pre u3))) t :=
    ht ▸ still_part hran hothers hback hpost _ fun l => by
      rcases lines_around hran he l with ⟨-, hl⟩ | ⟨-, -, hl⟩ | ⟨hnone, hnone', hl⟩
      · exact .inl hl
      · exact .inl hl
      · exact .inr ⟨hl, lineRests_answered (lineRests_through (hrests3 l hnone) hpre hnone') hst.limit⟩
  have hu3 : u3 = onRest ⟨s.receiver, some (goodOut bytes { s with pedalPins := pins }), u2.pedals, u2.draws⟩
      (reserved (broughtState bytes pins s)) :=
    h3.trans (congrArg (fun x : State => { x with linkOut := some (goodOut bytes { s with pedalPins := pins }) }) hmid)
  obtain ⟨ρ, hρ⟩ : ∃ ρ, runActs ls pre u3 = onRest ρ (reserved (broughtState bytes pins s)) :=
    ⟨_, onRest_of_still hbefore hu3⟩
  obtain ⟨ρ', hρ'⟩ := executeKind_onRest r kind ρ (reserved (broughtState bytes pins s))
  rw [hρ, hρ', finishRequest_onRest] at hbehind
  rw [takeRequest_room _ _ _ hst.answers (by
    show s.outq.length < 8
    rw [hst.outq]
    exact Nat.zero_lt_succ 7), enqueue_countEvent_accepted]
  exact ⟨_, onRest_of_still hbehind rfl⟩

end

end Sys2Proof.Proofs.StandingRequests
end

