-- ==== Sys2Proof/Proofs/RequestsExecuted.lean ====
section
/-! PROOF. Requests by their rows, and at the LAST of a good frame by the message's route (O31; R170, R171, R175, R176,
R185, R191). -/

namespace Sys2Proof.Proofs.RequestsExecuted

open Sys2Proof Sys2Proof.Machine Sys2Proof.Safety Sys2Proof.Proofs.CueFlush Sys2Proof.Proofs.Answers
  Sys2Proof.Proofs.Queues Sys2Proof.Proofs.LaneAssembly Sys2Proof.Proofs.GoodFrameRuns
  Sys2Proof.Proofs.GoodFrameStarts Sys2Proof.Proofs.GoodFrames Sys2Proof.Proofs.GoodFrameBlocks
  Sys2Proof.Proofs.GoodFrameLinks Sys2Proof.Proofs.RequestsInFrames Sys2Proof.Proofs.Unread
  Sys2Proof.Proofs.StandingRequests

/-! ### A request's row -/

/-- A request that is answered is counted and executed, and its reply takes the place reserved (R175, R176). -/
theorem exec_answered (kind : Byte) (r : Req) {s : State} (ha : Answerable r s) :
    let a := executeKind kind r (reserved s)
    exec (commandOf kind r) s = .next { a.state with
      outq := a.state.outq.set s.outq.length (.reply
        { dest := r.source, source := s.nodeAddr, kind := statusByte a.status, tag := r.tag, body := a.body }) } := by
  intro a
  rw [exec_commandOf, whenReleased_of_released ha.1, takeRequest_replied ha (executeKind_onlyRequest kind r (reserved s))]

/-- A broadcast is counted and executed, and forms no reply (R176, R191). -/
theorem exec_broadcast (kind : Byte) {r : Req} {s : State} (hlow : s.resetLow = false) (hb : r.broadcast = true) :
    exec (commandOf kind r) s = .next (executeKind kind r (countEvent .accepted s)).state := by
  rw [exec_commandOf, whenReleased_of_released hlow, takeRequest_broadcast _ r s hb]

/-! ### The message completed -/

/-- The LAST of a well-formed message hands it over or captures it, as its route says (R170, R174). -/
theorem laneAt_completes {bytes last : List Byte} {s : State} {a : Assembly} (ha : s.assembly = some a)
    (hlane : decodeLane (laneBytes bytes) = .last last) (hfits : (a.bytes ++ last).length ≤ 103)
    (hok : messageOk (a.bytes ++ last) = true) : laneAt bytes s =
      { state := { s with
          assembly := none
          fifo := if a.route.mode = some .capture then s.fifo ++ [a.bytes ++ last] else s.fifo }
        raised := []
        request := handedOver a.route (a.bytes ++ last) } := by
  unfold laneAt
  rw [hlane]
  exact (appendBytes_last ha hfits).trans (judgeMessage_ok hok)

/-- Settles O31. -/
theorem requestsExecuted : Obligations.RequestsExecuted := by
  refine ⟨fun kind r s ha => exec_answered kind r ha, fun kind r s hlow hb => ⟨_, exec_broadcast kind hlow hb, rfl,
    fun m hm => reply_of_grows (executeKind_grows kind r (countEvent .accepted s)) hm⟩,
    fun bytes pins s a last hlow hframe hgood ha hlane hfits hok => ?_⟩
  have hexec := exec_goodFrame pins hlow hframe hgood
  have hlaned := laneAt_completes ha hlane hfits hok
  have hltu := goodFrame_ltu bytes { s with pedalPins := pins }
  rw [goodLtu_pins] at hltu
  intro whole kind r
  have consumed (hroute : a.route = .consume) : (laneAt bytes s).request = some (kind, r false) := by
    rw [hlaned, hroute]
    rfl
  have hreplies := goodFrame_replies (pins := pins) (kind := kind) (r := r false) (bytes := bytes) (s := s)
  have hbroadcasts := goodFrame_broadcasts (pins := pins) (kind := kind) (r := r true) (bytes := bytes) (s := s)
  have hpasses := goodFrame_passes (pins := pins) (bytes := bytes) (s := s)
  have hdrops := goodFrame_drops (pins := pins) (kind := kind) (r := r false) (bytes := bytes) (s := s)
  have hrequests := goodFrame_requests (pins := pins) (kind := kind) (r := r false) (bytes := bytes) (s := s)
  generalize goodFrame bytes { s with pedalPins := pins } = t at *
  refine ⟨_, hexec, fun hroute hroom hnone => hreplies (consumed hroute) rfl hroom hnone, fun mode hroute => ?_,
    fun mode hroute => ?_, fun hroute hfull hsender => hdrops (consumed hroute) rfl hfull hsender,
    fun hroute horder h63 htimed hstands hq hf hfree hlimit hquiet => ?_⟩
  · refine hbroadcasts ?_ rfl
    rw [hlaned, hroute]
    rfl
  · refine hpasses ?_
    rw [hlaned, hroute]
    rfl
  · obtain ⟨ρ, hρ⟩ := hrequests ⟨⟨last, hlane⟩, by rw [hlaned, hroute]; rfl, rfl, horder, h63, htimed, hstands, hq, hf,
      hfree, hlimit, hquiet⟩
    refine ⟨takeRequest (executeKind kind) (r false) (broughtState bytes pins s), ?_, ?_⟩
    · rw [exec_commandOf]
      refine (whenReleased_of_released ?_ _).trans ?_
      · exact hlow
      · unfold broughtState
        rw [← hltu]
        rfl
    · rw [hρ]
      rfl

end Sys2Proof.Proofs.RequestsExecuted
end
